-- ==== Sys2Proof/Word.lean ====
section
/-! DEFINITION. The word types of the NX7 (spec/00_scope.md R2) and the one table type in which the model
holds sparse state: pairs of a key and a value, keys strictly rising, no pair holding the value that an
unlisted key reads as. -/
namespace Sys2Proof

/-- A scalar register, a dword of memory, an instruction word (R57, R127). -/
abbrev Word := BitVec 64
/-- One byte of memory. -/
abbrev Byte := BitVec 8
/-- One lane of a vector register or of a row entry (R116, R150). -/
abbrev Lane := BitVec 32
/-- One 64-byte sector, byte 0 in the low bits (R256). -/
abbrev Sector := BitVec 512
/-- One 64-lane row (R116, R150); lane l is element l. -/
abbrev Row := List Lane
/-- A sparse table: memory, register files and every other keyed state. -/
abbrev Tab (α : Type) := List (Nat × α)

/-- The four streams of a context, in the order of the CL codes (R58). -/
inductive Stream where
  | A | V | M | D
  deriving DecidableEq, Repr, Inhabited

/-- The stream that a CL code names (R58). -/
def Stream.ofCl (c : BitVec 2) : Stream :=
  if c = 0 then .A else if c = 1 then .V else if c = 2 then .M else .D

/-- The CL code of a stream (R58). -/
def Stream.cl : Stream → BitVec 2
  | .A => 0 | .V => 1 | .M => 2 | .D => 3

/-- The number of a stream: bit n of the masks of R114 and R398. -/
def Stream.num : Stream → Nat
  | .A => 0 | .V => 1 | .M => 2 | .D => 3

end Sys2Proof
end

