-- ==== Sys2Proof/Syntax.lean ====
section
/-! DEFINITION. The abstract syntax: one constructor per row of spec/opcode_table.json. The 175 instructions
carry the header of R58 and the fields of their format (R75 to R83, R239); the further rows are the
indivisible steps of the other agents, each with its parameters. -/
namespace Sys2Proof

/-- The header of an instruction word, without its opcode (R58). -/
structure Hdr where
  sy : Bool
  pb : BitVec 2
  pa : BitVec 2
  g  : BitVec 3
  gn : Bool
  ms : BitVec 3
  cl : BitVec 2
  deriving DecidableEq, Repr

/-- Format S3 (R75). -/
structure S3 where
  dst : BitVec 6
  s1 : BitVec 6
  s2 : BitVec 6
  fn : BitVec 8
  deriving DecidableEq, Repr

/-- Format SI (R76). -/
structure SI where
  dst : BitVec 6
  s1 : BitVec 6
  imm : BitVec 31
  deriving DecidableEq, Repr

/-- Format SB (R77). -/
structure SB where
  s1 : BitVec 6
  off : BitVec 31
  deriving DecidableEq, Repr

/-- Format L (R78). -/
structure L where
  data : BitVec 6
  base : BitVec 6
  index : BitVec 6
  sc : BitVec 3
  sz : BitVec 3
  off : BitVec 19
  deriving DecidableEq, Repr

/-- Format H (R79). -/
structure H where
  hd : BitVec 4
  cnt : BitVec 6
  imm : BitVec 16
  mark : BitVec 2
  fl : BitVec 15
  deriving DecidableEq, Repr

/-- Format E (R80). -/
structure E where
  o1 : BitVec 6
  o2 : BitVec 6
  o3 : BitVec 6
  p1 : BitVec 8
  p2 : BitVec 8
  fl : BitVec 9
  deriving DecidableEq, Repr

/-- Format MODL (R81). -/
structure ML where
  len : BitVec 6
  ii : BitVec 6
  trip : BitVec 6
  deriving DecidableEq, Repr

/-- Format V3 (R82); in the words of R158, `s2` holds PAR. -/
structure V3 where
  dst : BitVec 5
  s1 : BitVec 8
  s2 : BitVec 8
  s3 : BitVec 8
  ty : BitVec 4
  lps : BitVec 2
  lp : BitVec 8
  deriving DecidableEq, Repr

/-- Format M (R83). -/
structure MF where
  am : BitVec 3
  acc : BitVec 5
  src : BitVec 8
  enc : BitVec 4
  lay : BitVec 2
  scl : BitVec 2
  pl : BitVec 3
  rows : BitVec 7
  aop : BitVec 2
  edge : Bool
  sp : BitVec 2
  deriving DecidableEq, Repr

/-- Format M under the field names of the drains (R239). -/
structure DR where
  rsd : BitVec 3
  acc : BitVec 5
  dst : BitVec 8
  df : BitVec 4
  rm : BitVec 3
  ts : BitVec 2
  mxs : Bool
  clr : Bool
  rows : BitVec 7
  deriving DecidableEq, Repr

/-- A context's place: global core number and bank (R8, R10). -/
structure CtxRef where
  core : BitVec 8
  bank : Bool
  deriving DecidableEq, Repr, Inhabited

/-- A place in a function's BAR2 (R459): the function and the offset. -/
structure BarOff where
  fn : BitVec 6
  off : BitVec 20
  deriving DecidableEq, Repr

/-- What a flit carries (R359, R370, R470, R471). The transaction layer inside a flit is not laid out by the spec; this
names what it can carry (log 24). A command is named by its device, its context's place and its number. -/
inductive LinkMsg where
  /-- flit whose bytes complete nothing -/
  | idle
  /-- payload of an `RPUT`: its device and virtual device, its command, the virtual device named here, the address, the
  offset in the command, the bytes -/
  | put (dev : BitVec 22) (pvdev : BitVec 6) (x : CtxRef) (seq : BitVec 16) (vdev : BitVec 6) (va : Word) (off : Nat) (bytes : List Byte)
  /-- request of an `RGET` for n bytes at an offset of the command; a commit mark follows the answer of the last one before
  each multiple of 4 KiB, and of the last one of all (R471) -/
  | get (dev : BitVec 22) (pvdev : BitVec 6) (x : CtxRef) (seq : BitVec 16) (vdev : BitVec 6) (va : Word) (off n : Nat) (mark : Bool)
  /-- payload that answers an `RGET` of this device -/
  | data (x : CtxRef) (seq : BitVec 16) (off : Nat) (bytes : List Byte)
  /-- commit mark of an `RPUT` of the peer (R471): the payload up to an offset -/
  | putMark (dev : BitVec 22) (x : CtxRef) (seq : BitVec 16) (off : Nat)
  /-- commit mark of the payload of an `RGET` of this device -/
  | dataMark (x : CtxRef) (seq : BitVec 16) (off : Nat)
  /-- answer to a command of this device: bytes performed, status -/
  | ack (x : CtxRef) (seq : BitVec 16) (count : Nat) (status : Byte)
  /-- a peer's spark: its device and virtual device, its sender as the `from` field has it, its number, the target, the
  handler, the length of its payload and the first 128 bytes of it at most (R370, R467) -/
  | spark (dev : BitVec 22) (pvdev : BitVec 6) (from_ : Word) (seq : BitVec 16) (x : CtxRef) (handler : Word) (len : Nat)
      (bytes : List Byte)
  /-- the rest of its payload -/
  | sparkRest (dev : BitVec 22) (from_ : Word) (seq : BitVec 16) (bytes : List Byte)
  /-- the outcome of this device's spark at a peer -/
  | sparkDone (x : CtxRef) (seq : BitVec 16) (delivered : Bool)
  deriving DecidableEq, Repr

/-- A flit as a port sees it: its sequence number, whether its check (CRC-64 or GCM tag) holds, its content
(R467, R468, R473). -/
structure Flit where
  seq : Word
  good : Bool
  msg : LinkMsg
  deriving DecidableEq, Repr

/-- The steps of the part: spec/opcode_table.json, in its order, but that the rows without parameters stand
last (Lean compiles at most 245 constructors with arguments). -/
inductive Instr where
  /-- ILL (R90): the whole word, whatever its other bits. -/
  | ill (w : Word)
  | add (h : Hdr) (o : S3)
  | sub (h : Hdr) (o : S3)
  | mul (h : Hdr) (o : S3)
  | mulhi (h : Hdr) (o : S3)
  | mulhis (h : Hdr) (o : S3)
  | div (h : Hdr) (o : S3)
  | divs (h : Hdr) (o : S3)
  | rem (h : Hdr) (o : S3)
  | rems (h : Hdr) (o : S3)
  | and (h : Hdr) (o : S3)
  | or (h : Hdr) (o : S3)
  | xor (h : Hdr) (o : S3)
  | andn (h : Hdr) (o : S3)
  | shl (h : Hdr) (o : S3)
  | shr (h : Hdr) (o : S3)
  | sra (h : Hdr) (o : S3)
  | rol (h : Hdr) (o : S3)
  | min (h : Hdr) (o : S3)
  | mins (h : Hdr) (o : S3)
  | max (h : Hdr) (o : S3)
  | maxs (h : Hdr) (o : S3)
  | sel (h : Hdr) (o : S3)
  | cmp (h : Hdr) (o : S3)
  | gop (h : Hdr) (o : S3)
  | addi (h : Hdr) (o : SI)
  | andi (h : Hdr) (o : SI)
  | ori (h : Hdr) (o : SI)
  | xori (h : Hdr) (o : SI)
  | shli (h : Hdr) (o : SI)
  | shri (h : Hdr) (o : SI)
  | srai (h : Hdr) (o : SI)
  | cmpi (h : Hdr) (o : SI)
  | li (h : Hdr) (o : SI)
  | lih (h : Hdr) (o : SI)
  | bfx (h : Hdr) (o : S3)
  | bfxs (h : Hdr) (o : S3)
  | bfi (h : Hdr) (o : S3)
  | fshl (h : Hdr) (o : S3)
  | fshr (h : Hdr) (o : S3)
  | popc (h : Hdr) (o : S3)
  | clz (h : Hdr) (o : S3)
  | ctz (h : Hdr) (o : S3)
  | brev (h : Hdr) (o : S3)
  | br (h : Hdr) (o : SB)
  | call (h : Hdr) (o : SB)
  | ret (h : Hdr) (o : SB)
  | jmpr (h : Hdr) (o : SB)
  | brq (h : Hdr) (o : SB)
  | modl (h : Hdr) (o : ML)
  | qstat (h : Hdr) (o : S3)
  | hstep (h : Hdr) (o : H)
  | hmark (h : Hdr) (o : H)
  | hrew (h : Hdr) (o : H)
  | hstat (h : Hdr) (o : H)
  | pkw (h : Hdr) (o : S3)
  | srr (h : Hdr) (o : SI)
  | srw (h : Hdr) (o : SI)
  | trap (h : Hdr) (o : SI)
  | eret (h : Hdr) (o : S3)
  | yield (h : Hdr) (o : S3)
  | wait (h : Hdr) (o : SI)
  | halt (h : Hdr) (o : S3)
  | nop (h : Hdr) (o : S3)
  | lds (h : Hdr) (o : L)
  | sts (h : Hdr) (o : L)
  | ldq (h : Hdr) (o : L)
  | stq (h : Hdr) (o : L)
  | satom (h : Hdr) (o : L)
  | ldg (h : Hdr) (o : L)
  | stg (h : Hdr) (o : L)
  | gatom (h : Hdr) (o : L)
  | cmo (h : Hdr) (o : L)
  | lbind (h : Hdr) (o : S3)
  | acq (h : Hdr) (o : S3)
  | rel (h : Hdr) (o : S3)
  | fence (h : Hdr) (o : S3)
  | gbar (h : Hdr) (o : S3)
  | waitw (h : Hdr) (o : S3)
  | wbind (h : Hdr) (o : S3)
  | wadv (h : Hdr) (o : SI)
  | wrel (h : Hdr) (o : S3)
  | ldw (h : Hdr) (o : L)
  | hbind (h : Hdr) (o : H)
  | hunb (h : Hdr) (o : H)
  | topen (h : Hdr) (o : S3)
  | tseal (h : Hdr) (o : S3)
  | tstat (h : Hdr) (o : S3)
  | cpym (h : Hdr) (o : E)
  | cpys (h : Hdr) (o : E)
  | cgth (h : Hdr) (o : E)
  | csct (h : Hdr) (o : E)
  | cpgi (h : Hdr) (o : E)
  | rput (h : Hdr) (o : E)
  | rget (h : Hdr) (o : E)
  | gadd (h : Hdr) (o : E)
  | gamo (h : Hdr) (o : E)
  | gqop (h : Hdr) (o : E)
  | gred (h : Hdr) (o : E)
  | gaxpy (h : Hdr) (o : E)
  | gfen (h : Hdr) (o : E)
  | eqclr (h : Hdr) (o : E)
  | equ (h : Hdr) (o : E)
  | eqf (h : Hdr) (o : E)
  | eqz (h : Hdr) (o : E)
  | eqr (h : Hdr) (o : E)
  | eqsnp (h : Hdr) (o : E)
  | eqund (h : Hdr) (o : E)
  | deq (h : Hdr) (o : S3)
  | engst (h : Hdr) (o : S3)
  | spk (h : Hdr) (o : E)
  | eva (h : Hdr) (o : S3)
  | evw (h : Hdr) (o : S3)
  | evq (h : Hdr) (o : S3)
  | tkenq (h : Hdr) (o : E)
  | tksig (h : Hdr) (o : S3)
  | vadd (h : Hdr) (o : V3)
  | vsub (h : Hdr) (o : V3)
  | vmul (h : Hdr) (o : V3)
  | vfma (h : Hdr) (o : V3)
  | vfms (h : Hdr) (o : V3)
  | vmin (h : Hdr) (o : V3)
  | vmax (h : Hdr) (o : V3)
  | vabs (h : Hdr) (o : V3)
  | vneg (h : Hdr) (o : V3)
  | vand (h : Hdr) (o : V3)
  | vor (h : Hdr) (o : V3)
  | vxor (h : Hdr) (o : V3)
  | vshl (h : Hdr) (o : V3)
  | vshr (h : Hdr) (o : V3)
  | vsra (h : Hdr) (o : V3)
  | vcmp (h : Hdr) (o : V3)
  | kop (h : Hdr) (o : V3)
  | kpop (h : Hdr) (o : V3)
  | kmov (h : Hdr) (o : V3)
  | vsel (h : Hdr) (o : V3)
  | vrcp (h : Hdr) (o : V3)
  | vsqrt (h : Hdr) (o : V3)
  | vrsq (h : Hdr) (o : V3)
  | vexp2 (h : Hdr) (o : V3)
  | vlog2 (h : Hdr) (o : V3)
  | vcvt (h : Hdr) (o : V3)
  | vqmx (h : Hdr) (o : V3)
  | vtbl (h : Hdr) (o : V3)
  | vtblw (h : Hdr) (o : V3)
  | vrotr (h : Hdr) (o : V3)
  | vrotc (h : Hdr) (o : V3)
  | vbcr (h : Hdr) (o : V3)
  | vbcc (h : Hdr) (o : V3)
  | vredr (h : Hdr) (o : V3)
  | vredc (h : Hdr) (o : V3)
  | vscanr (h : Hdr) (o : V3)
  | vtrb (h : Hdr) (o : V3)
  | vmov (h : Hdr) (o : V3)
  | vspl (h : Hdr) (o : V3)
  | viota (h : Hdr) (o : V3)
  | vext (h : Hdr) (o : V3)
  | vins (h : Hdr) (o : V3)
  | mld (h : Hdr) (o : MF)
  | mlds (h : Hdr) (o : MF)
  | mswap (h : Hdr) (o : MF)
  | mma (h : Hdr) (o : MF)
  | mmas (h : Hdr) (o : MF)
  | mzero (h : Hdr) (o : MF)
  | manc (h : Hdr) (o : S3)
  | mdr (h : Hdr) (o : DR)
  | mdrt (h : Hdr) (o : DR)
  | mest (h : Hdr) (o : S3)
  | mstat (h : Hdr) (o : S3)
  | mtblw (h : Hdr) (o : MF)
  | mtsc (h : Hdr) (o : S3)
  | trec (h : Hdr) (o : H)
  | tupd (h : Hdr) (o : H)
  | tflsh (h : Hdr) (o : H)
  | dstat (h : Hdr) (o : S3)
  /-- R425. -/
  | contextStopComplete (x : CtxRef)
  /-- R429. -/
  | faultAnswerResume (x : CtxRef)
  /-- R429. -/
  | faultAnswerEnd (x : CtxRef) (status : Byte)
  /-- R434. -/
  | contextSave (x : CtxRef)
  /-- R434. -/
  | contextRestore (x : CtxRef)
  /-- R432. -/
  | quantumRunEnd (core : BitVec 8)
  /-- R420. -/
  | shootdownRange (cl : Bool) (vdev : BitVec 6) (pages : BitVec 32)
  /-- R420. -/
  | shootdownVdev (cl : Bool) (vdev : BitVec 6)
  /-- R420. -/
  | shootdownAll (cl : Bool)
  /-- R423. -/
  | scrubRequest (v : Word)
  /-- R446. -/
  | bindCommit (v : Word)
  /-- R441. -/
  | floorWrite (vdev : BitVec 6) (v : Word)
  /-- R441. -/
  | taskRecordAccept (queue : BitVec 12)
  /-- R444. -/
  | taskComplete (vdev : BitVec 6) (seq : Word)
  /-- R21. -/
  | contextEnd (x : CtxRef)
  /-- R369. -/
  | dormantReturn (x : CtxRef)
  /-- R408. -/
  | erasureMarkWrite (quad : BitVec 5) (v : Word)
  /-- R408. -/
  | correctedCountClear (quad : BitVec 5)
  /-- R408. -/
  | uncorrectableCountClear (quad : BitVec 5)
  /-- R408. -/
  | controlRegisterWrite (off : BitVec 20) (v : Word)
  /-- R407. -/
  | injectPoison (x : CtxRef)
  /-- R407. -/
  | injectSymbol (x : CtxRef)
  /-- R357. -/
  | copyCommandAct (x : CtxRef) (seq : BitVec 16)
  /-- R318. -/
  | grateCommandAct (x : CtxRef) (seq : BitVec 16)
  /-- R455. -/
  | detEpochRelease (vdev : BitVec 6) (task : Word)
  /-- R457. -/
  | replayMatchTimeout (vdev : BitVec 6)
  /-- R332. -/
  | eqCommandPerform (x : CtxRef) (seq : BitVec 16)
  /-- R342. -/
  | eqRunEnd (x : CtxRef)
  /-- R372. -/
  | sparkDeliver (x : CtxRef) (seq : BitVec 16)
  /-- R373. -/
  | taskEnqueueAppend (x : CtxRef) (seq : BitVec 16)
  /-- R211. -/
  | flueFetch (x : CtxRef) (hd : BitVec 4)
  /-- R213. -/
  | fluePageTranslate (x : CtxRef) (hd : BitVec 4)
  /-- R289. -/
  | windowFillComplete (x : CtxRef) (slot : BitVec 4) (row : Word)
  /-- R248. -/
  | damperGrant (stove : BitVec 2)
  /-- R262. -/
  | waitwWake (x : CtxRef)
  /-- R263. -/
  | gbarDepart (x : CtxRef)
  /-- R412. -/
  | pageWalk (core : BitVec 8) (vdev : BitVec 6) (va : Word)
  /-- R257. -/
  | storeDrain (x : CtxRef) (n : Nat)
  /-- R400. -/
  | machineCheck (x : CtxRef) (st : Stream)
  /-- R466. -/
  | cxlExpanderTimeout (x : CtxRef) (st : Stream) (cmd : Option (BitVec 16))
  /-- R410. -/
  | chsel (chain : BitVec 16)
  /-- R462. -/
  | imgput (fn : BitVec 6) (msg : List Byte)
  /-- R462. -/
  | imggo (fn : BitVec 6) (msg : List Byte)
  /-- R475. -/
  | attest (fn : BitVec 6) (msg : List Byte)
  /-- R463. -/
  | keyadd (fn : BitVec 6) (msg : List Byte)
  /-- R463. -/
  | keydel (fn : BitVec 6) (msg : List Byte)
  /-- R463. -/
  | sigpol (fn : BitVec 6) (msg : List Byte)
  /-- R463. -/
  | verify (fn : BitVec 6) (msg : List Byte)
  /-- R461. -/
  | mailboxUnknownType (fn : BitVec 6) (msg : List Byte)
  /-- R464. -/
  | apertureRead (fn : BitVec 6) (off : Word) (n : Nat)
  /-- R464. -/
  | apertureWrite (fn : BitVec 6) (off : Word) (bytes : List Byte)
  /-- R464. -/
  | hostWindowWrite (off : BarOff) (bytes : List Byte)
  /-- R468. -/
  | linkFlitReceive (port : BitVec 4) (flit : Flit)
  /-- R468. -/
  | linkAckReceive (port : BitVec 4) (upTo : Word)
  /-- R468. -/
  | linkResendRequest (port : BitVec 4) (from_ : Word)
  /-- R468. -/
  | linkLossOfSignal (port : BitVec 4)
  /-- R468. -/
  | linkRetrainDone (port : BitVec 4) (ok : Bool)
  /-- R473. -/
  | linkSequenceExhausted (port : BitVec 4)
  /-- R471. -/
  | commitMarkAck (x : CtxRef) (seq : BitVec 16) (count : Nat) (status : Byte)
  /-- R471. -/
  | transferCountAgree (x : CtxRef) (seq : BitVec 16) (count : Nat)
  /-- R476. -/
  | thermalThrottle (stove : BitVec 2) (refill : BitVec 16)
  /-- R88. -/
  | unassignedOpcodeWord (w : Word)
  /-- R143. -/
  | instructionFetchFault (x : CtxRef) (st : Stream)
  /-- R285. -/
  | loadDataReturn (x : CtxRef) (n : Nat) (part : Nat)
  /-- R189. -/
  | headWritePerformed (x : CtxRef) (n : Nat)
  /-- R418. -/
  | managementCoreStore (pa : Word) (bytes : List Byte)
  /-- R304. -/
  | memorySymbolError (pa : Word) (symbols : Nat)
  /-- R304. -/
  | pseudoChannelFailure (quad : BitVec 5) (pc : BitVec 5)
  /-- R466. -/
  | expanderStopsResponding (port : BitVec 2)
  /-- R429. -/
  | expanderReturn (port : BitVec 2)
  /-- R428. -/
  | faultRecordPost
  /-- R449. -/
  | calendarSlotStart
  /-- R420. -/
  | shootdownComplete
  /-- R423. -/
  | scrubComplete
  /-- R409. -/
  | freeze
  /-- R474. -/
  | packageReset
  /-- R474. -/
  | bringupEnable
  /-- R410. -/
  | bypass
  /-- R410. -/
  | samplePreload
  /-- R410. -/
  | extest
  /-- R410. -/
  | idcode
  /-- R410. -/
  | chrd
  /-- R476. -/
  | thermalPowerOff
  deriving DecidableEq, Repr

end Sys2Proof
end

