-- ==== Sys2Proof/WellFormed.lean ====
section
/-! DEFINITION. Which terms are instructions: every static check of R62 to R83, R89 and of each instruction's own
field table. A word whose term fails one takes cause 0x02 (R90). -/
namespace Sys2Proof

/-- Scalar queues a stream pops (R63). -/
def popsScalar : Stream → Nat → Bool
  | .A, q => q == 3 || q == 4 || q == 5
  | .V, q => q == 0
  | .M, q => q == 1 || q == 6
  | .D, q => q == 2 || q == 7

/-- Scalar queues a stream pushes (R63). -/
def pushesScalar : Stream → Nat → Bool
  | .A, q => q == 0 || q == 1 || q == 2
  | .V, q => q == 3 || q == 6
  | .M, q => q == 4 || q == 7
  | .D, q => q == 5

/-- Row queues a stream pops (R63). -/
def popsRow : Stream → Nat → Bool
  | .A, q => q == 9 || q == 15
  | .V, q => q == 8 || q == 12
  | .M, q => q == 10 || q == 11
  | .D, q => q == 13 || q == 14

/-- Row queues a stream pushes (R63). -/
def pushesRow : Stream → Nat → Bool
  | .A, q => q == 8 || q == 10
  | .V, q => q == 9 || q == 11 || q == 14
  | .M, q => q == 12 || q == 13
  | .D, q => q == 15

/-- The stream a header's CL names. -/
def Hdr.stream (h : Hdr) : Stream := Stream.ofCl h.cl

/-- A register specifier of the stream (R62). -/
def regOk (st : Stream) (x : BitVec 6) : Bool :=
  x.toNat < 16 || (st == .A && x.toNat < 32)

/-- A scalar queue specifier that the stream pops (R62, R63). -/
def popOk (st : Stream) (x : BitVec 6) : Bool :=
  32 ≤ x.toNat && x.toNat < 48 && popsScalar st (x.toNat - 32)

/-- A scalar queue specifier that the stream pushes (R62, R63). -/
def pushOk (st : Stream) (x : BitVec 6) : Bool :=
  32 ≤ x.toNat && x.toNat < 48 && pushesScalar st (x.toNat - 32)

/-- A row queue specifier that the stream pops (R64). -/
def rowPopOk (st : Stream) (x : BitVec 6) : Bool :=
  32 ≤ x.toNat && x.toNat < 48 && popsRow st (x.toNat - 32)

/-- A row queue specifier that the stream pushes (R64). -/
def rowPushOk (st : Stream) (x : BitVec 6) : Bool :=
  32 ≤ x.toNat && x.toNat < 48 && pushesRow st (x.toNat - 32)

/-- A legal scalar source (R62 to R64). -/
def srcOk (st : Stream) (x : BitVec 6) : Bool :=
  regOk st x || popOk st x || x == 48 || x == 49

/-- A legal scalar destination (R62 to R64). -/
def dstOk (st : Stream) (x : BitVec 6) : Bool :=
  regOk st x || pushOk st x || x == 48

/-- The S3 form with one destination and two sources. -/
def S3.ok3 (o : S3) (st : Stream) : Bool := dstOk st o.dst && srcOk st o.s1 && srcOk st o.s2

/-- Every operand field 0 (R131, R404). -/
def S3.zero (o : S3) : Bool := o.dst == 0 && o.s1 == 0 && o.s2 == 0 && o.fn == 0

/-- A special-register index of the map (R397). -/
def srPresent (n : Nat) : Bool :=
  (1 ≤ n && n ≤ 0xD) || (0x10 ≤ n && n ≤ 0x2F) || (0x101 ≤ n && n ≤ 0x109) || (0x110 ≤ n && n ≤ 0x114) ||
  n == 0x118 || n == 0x119

/-- An index that the map marks writable at U or at P (R397). -/
def srWritable (n : Nat) : Bool :=
  (1 ≤ n && n ≤ 4) || n == 0xB || (0x10 ≤ n && n ≤ 0x24) || n == 0x26 || n == 0x27 ||
  (0x101 ≤ n && n ≤ 0x104) || n == 0x107 || n == 0x108 || (0x110 ≤ n && n ≤ 0x114) || n == 0x118 || n == 0x119

/-- The index field of `SRR` and `SRW` (R84). -/
def SI.srIndex (o : SI) : Nat := (o.imm.extractLsb' 0 12).toNat

/-- Condition, guard or mask number and mk of `CMP` and `CMPI` (R140). -/
def cmpOk (st : Stream) (mk : Bool) (gd : BitVec 3) (c : BitVec 4) : Bool :=
  c.toNat < 8 && (!mk || (st == .V && gd != 0))

/-- FN of `GOP` and the fields it frees (R141). -/
def gopOk (st : Stream) (o : S3) : Bool :=
  let mode := (o.fn.extractLsb' 4 2).toNat
  o.fn.extractLsb' 6 2 == 0 &&
  (if mode == 0 then o.dst.toNat < 8 && o.s1.toNat < 8 && o.s2.toNat < 8
   else if mode == 1 then o.s1 == 0 && o.s2 == 0 && dstOk st o.dst && o.fn.extractLsb' 0 4 == 0
   else mode == 2 && o.dst == 0 && o.s2 == 0 && srcOk st o.s1 && o.fn.extractLsb' 0 4 == 0)

/-- FN of the funnel shifts (R137). -/
def fshOk (st : Stream) (o : S3) : Bool :=
  o.ok3 st && !o.fn.getLsbD 7 && (!o.fn.getLsbD 6 || (o.fn.extractLsb' 0 6 == 0 && regOk st o.dst))

/-- FN of `QSTAT`: an endpoint of the stream (R125). -/
def qstatOk (st : Stream) (o : S3) : Bool :=
  let n := (o.fn.extractLsb' 0 4).toNat
  dstOk st o.dst && o.s1 == 0 && o.s2 == 0 && !o.fn.getLsbD 4 &&
  (if o.fn.extractLsb' 5 3 == 0 then
     popsScalar st n || pushesScalar st n || popsRow st n || pushesRow st n
   else o.fn.extractLsb' 5 3 == 1 && n < 8 &&
     (match st with
      | .A => n == 0 || n == 1 || n == 6 || n == 7
      | .V => n == 0 || n == 1 || n == 2 || n == 3
      | .M => n == 2 || n == 3 || n == 4 || n == 5
      | .D => n == 4 || n == 5 || n == 6 || n == 7))

/-- `WAIT` (R145). -/
def waitOk (st : Stream) (o : SI) : Bool :=
  let kind := o.imm.extractLsb' 28 3
  o.dst == 0 && ((kind == 0 && srcOk st o.s1) || (kind == 1 && o.s1 == 0 && o.imm.extractLsb' 0 28 == 0))

/-- `HSTEP`: a count from CNT or from IMM (R79, R204). -/
def hstepOk (st : Stream) (o : H) : Bool :=
  srcOk st o.cnt && (o.cnt == 48 || o.imm == 0) && o.mark == 0 && o.fl == 0

/-- `HSTAT` (R206). -/
def hstatOk (st : Stream) (o : H) : Bool :=
  dstOk st o.cnt && o.imm == 0 && o.fl.extractLsb' 3 12 == 0 && (o.fl.extractLsb' 0 3).toNat ≤ 5

/-- DATA of a load (R64, R275). -/
def loadDataOk (o : L) : Bool := if o.sz == 7 then rowPushOk .A o.data else dstOk .A o.data

/-- DATA of a store (R64, R275). -/
def storeDataOk (o : L) : Bool := if o.sz == 7 then rowPopOk .A o.data else srcOk .A o.data

/-- An L word with a legal address (R78). -/
def addrOk (o : L) : Bool := srcOk .A o.base && srcOk .A o.index

/-- `SATOM` and `GATOM` (R281). -/
def atomOk (o : L) : Bool :=
  addrOk o && (o.sz == 2 || o.sz == 6 || o.sz == 3) &&
  (if o.sc == 7 then regOk .A o.data else dstOk .A o.data)

/-- A source of each operand field of an E word. -/
def E.srcs (o : E) : Bool := srcOk .A o.o1 && srcOk .A o.o2 && srcOk .A o.o3

/-- `EQR` (R343). -/
def eqrOk (o : E) : Bool :=
  let src := o.fl.extractLsb' 6 2
  srcOk .A o.o1 && o.o3 == 0 && src != 3 &&
  (if o.fl.getLsbD 8 then (if src == 0 then srcOk .A o.o2 else o.o2 == 0)
   else o.o2 == 0 && src == 0 && o.fl.extractLsb' 0 6 == 0)

/-- Element type classes of R151. -/
def tyF (t : BitVec 4) : Bool := t.toNat ≤ 2
@[inherit_doc tyF] def tyI (t : BitVec 4) : Bool := 3 ≤ t.toNat && t.toNat ≤ 8
@[inherit_doc tyF] def tyFI (t : BitVec 4) : Bool := t.toNat ≤ 8
@[inherit_doc tyF] def tyAny (t : BitVec 4) : Bool := t.toNat ≤ 10

/-- The forms of a vector specifier (R66). -/
def vIsReg (x : BitVec 8) : Bool := x.toNat < 32
@[inherit_doc vIsReg] def vIsQueue (x : BitVec 8) : Bool := x.extractLsb' 4 4 == 4
@[inherit_doc vIsReg] def vIsHead (x : BitVec 8) : Bool := x.extractLsb' 4 4 == 8
@[inherit_doc vIsReg] def vIsBcast (x : BitVec 8) : Bool := x.extractLsb' 4 4 == 12
@[inherit_doc vIsReg] def vIsImm (x : BitVec 8) : Bool := x.extractLsb' 5 3 == 7
/-- The low four bits: a queue, head or scalar number (R66). -/
def vNum (x : BitVec 8) : Nat := (x.extractLsb' 0 4).toNat

/-- A vector source of the V stream (R66). -/
def vSrcOk (x : BitVec 8) : Bool :=
  vIsReg x || (vIsQueue x && popsRow .V (vNum x)) || vIsHead x || vIsBcast x || vIsImm x

/-- A register, broadcast or immediate source: the block-only words refuse queues and heads (R152). -/
def vBlockOk (x : BitVec 8) : Bool := vIsReg x || vIsBcast x || vIsImm x

/-- An index operand (R153). -/
def vIdxOk (x : BitVec 8) : Bool := vIsBcast x || vIsImm x

/-- The destination selector S3 (R67). -/
def vSelOk (o : V3) : Bool :=
  o.s3 == 0 || (vIsQueue o.s3 && pushesRow .V (vNum o.s3) && o.dst == 0)

/-- The lane pattern fields (R69); `n` is the number of sources the word has, `perm` tells which of them are
vector sources. LPS = 2 names the second source: a word of one source has none, and LPS = 2 is illegal in each of them,
though R69 lists only LPS = 3 there and R158 forbids LPS = 2 only in the PAR words (log 54, DESIGN CHOICE). -/
def lpOk (o : V3) (n : Nat) (idx2 : Bool) : Bool :=
  let op := (o.lp.extractLsb' 5 3).toNat
  let p := (o.lp.extractLsb' 0 5).toNat
  let fits (x : BitVec 8) : Bool := !(vIsBcast x || vIsImm x)
  if o.lps == 0 then o.lp == 0
  else
    (op == 1 || op == 4 || ((op == 2 || op == 5) && p == 0) || (op == 3 && p < 16)) &&
    (if o.lps == 1 then fits o.s1
     else if o.lps == 2 then 2 ≤ n && !idx2 && fits o.s2
     else n == 3 && fits o.s3)

/-- A rounding-mode field (R34). -/
def rmOk (x : BitVec 3) : Bool := x != 5 && x != 6

/-- PAR of the words of R158. -/
def parRm (x : BitVec 8) : BitVec 3 := x.extractLsb' 4 3
@[inherit_doc parRm] def parSel (x : BitVec 8) : Nat := (x.extractLsb' 0 4).toNat

/-- The V word shapes of R159, R161 and R167. -/
def v2Ok (o : V3) : Bool := vSrcOk o.s1 && vSrcOk o.s2 && vSelOk o && lpOk o 2 false
@[inherit_doc v2Ok] def v3Ok (o : V3) : Bool := vSrcOk o.s1 && vSrcOk o.s2 && vSrcOk o.s3 && lpOk o 3 false
@[inherit_doc v2Ok] def v1Ok (o : V3) : Bool := vSrcOk o.s1 && o.s2 == 0 && vSelOk o && lpOk o 1 false

/-- The reductions (R179). -/
def vredOk (o : V3) : Bool :=
  !o.s2.getLsbD 7 && parRm o.s2 == 0 && lpOk o 1 false &&
  (if parSel o.s2 == 0 then o.ty == 0 || tyI o.ty else parSel o.s2 ≤ 2 && tyFI o.ty)

/-- Fields of a mask word that must be 0 (R163, R164). -/
def vNoRest (o : V3) : Bool := o.s3 == 0 && o.ty == 0 && o.lps == 0 && o.lp == 0

/-- Rows of registers that a source or a drain spans (R224, R239). -/
def rowRegs (rows : BitVec 7) : Nat := (rows.toNat + 15) / 16

/-- The lowest-numbered array of AM (R227). -/
def lowArray (am : BitVec 3) : Nat := if am.getLsbD 0 then 0 else if am.getLsbD 1 then 1 else 2

/-- SRC of the M words (R66, R224). -/
def mSrcOk (o : MF) : Bool :=
  (vIsReg o.src && o.src.toNat + rowRegs o.rows ≤ 32) || (vIsQueue o.src && popsRow .M (vNum o.src)) || vIsHead o.src

/-- SCL against ENC, EDGE and SRC (R226). -/
def mSclOk (o : MF) (isLoad : Bool) : Bool :=
  o.scl == 0 || (o.scl != 3 && 2 ≤ o.enc.toNat && o.enc.toNat ≤ 4 && (!isLoad || o.edge) &&
    (o.scl == 1 || vIsHead o.src))

/-- AM, ENC and ROWS ranges (R83, R73). -/
def mRange (o : MF) : Bool := o.am != 0 && 1 ≤ o.rows.toNat && o.rows.toNat ≤ 64

/-- The tile named lies in the lowest array selected (R227). -/
def mTileOk (o : MF) : Bool := o.acc.toNat < 24 && o.acc.toNat / 8 == lowArray o.am

/-- `MMA` and `MMAS` but for SP (R227, R232). -/
def mmaOk (o : MF) : Bool :=
  mRange o && mTileOk o && mSrcOk o && o.enc.toNat ≤ 9 && o.lay == 0 && mSclOk o false && o.pl == 0 && o.aop != 3 &&
  !o.edge

/-- The drains (R239). -/
def drOk (o : DR) (tape : Bool) : Bool :=
  let n := o.dst.toNat
  o.rsd.toNat ≤ 3 && o.acc.toNat < 24 && o.df != 15 && rmOk o.rm && 1 ≤ o.rows.toNat && o.rows.toNat ≤ 64 &&
  (if tape then vIsHead o.dst && o.rsd != 3 && !o.mxs
   else
     (!o.mxs || o.df == 9 || o.df == 10) &&
     ((vIsReg o.dst && n + rowRegs o.rows ≤ 32 && (o.rsd != 3 || n + 4 + rowRegs o.rows ≤ 32)) ||
      (vIsQueue o.dst && pushesRow .M (vNum o.dst) && o.rsd != 3 &&
        !(o.rsd == 1 && vNum o.dst == 12) && !(o.rsd == 2 && vNum o.dst == 13))))

/-- `TUPD` (R215). -/
def tupdOk (o : H) : Bool :=
  let q := rowPopOk .D o.cnt
  let op := o.fl.extractLsb' 10 2
  (q || o.cnt == 48) && o.imm == 0 && o.mark == 0 && rmOk (o.fl.extractLsb' 12 3) && op != 3 && !o.fl.getLsbD 1 &&
  (op != 0 || o.fl.extractLsb' 6 4 == 0) && (!q || o.fl.extractLsb' 2 4 == 0) &&
  (!o.fl.getLsbD 0 || (q && op == 0))

/-- The row is a word of the instruction set (R12); the other rows are steps of other agents. -/
def Instr.hdr? : Instr → Option Hdr
  | .add h _ | .sub h _ | .mul h _ | .mulhi h _ | .mulhis h _ | .div h _
  | .divs h _ | .rem h _ | .rems h _ | .and h _ | .or h _ | .xor h _
  | .andn h _ | .shl h _ | .shr h _ | .sra h _ | .rol h _ | .min h _
  | .mins h _ | .max h _ | .maxs h _ | .sel h _ | .cmp h _ | .gop h _
  | .addi h _ | .andi h _ | .ori h _ | .xori h _ | .shli h _ | .shri h _
  | .srai h _ | .cmpi h _ | .li h _ | .lih h _ | .bfx h _ | .bfxs h _
  | .bfi h _ | .fshl h _ | .fshr h _ | .popc h _ | .clz h _ | .ctz h _
  | .brev h _ | .br h _ | .call h _ | .ret h _ | .jmpr h _ | .brq h _
  | .modl h _ | .qstat h _ | .hstep h _ | .hmark h _ | .hrew h _ | .hstat h _
  | .pkw h _ | .srr h _ | .srw h _ | .trap h _ | .eret h _ | .yield h _
  | .wait h _ | .halt h _ | .nop h _ | .lds h _ | .sts h _ | .ldq h _
  | .stq h _ | .satom h _ | .ldg h _ | .stg h _ | .gatom h _ | .cmo h _
  | .lbind h _ | .acq h _ | .rel h _ | .fence h _ | .gbar h _ | .waitw h _
  | .wbind h _ | .wadv h _ | .wrel h _ | .ldw h _ | .hbind h _ | .hunb h _
  | .topen h _ | .tseal h _ | .tstat h _ | .cpym h _ | .cpys h _ | .cgth h _
  | .csct h _ | .cpgi h _ | .rput h _ | .rget h _ | .gadd h _ | .gamo h _
  | .gqop h _ | .gred h _ | .gaxpy h _ | .gfen h _ | .eqclr h _ | .equ h _
  | .eqf h _ | .eqz h _ | .eqr h _ | .eqsnp h _ | .eqund h _ | .deq h _
  | .engst h _ | .spk h _ | .eva h _ | .evw h _ | .evq h _ | .tkenq h _
  | .tksig h _ | .vadd h _ | .vsub h _ | .vmul h _ | .vfma h _ | .vfms h _
  | .vmin h _ | .vmax h _ | .vabs h _ | .vneg h _ | .vand h _ | .vor h _
  | .vxor h _ | .vshl h _ | .vshr h _ | .vsra h _ | .vcmp h _ | .kop h _
  | .kpop h _ | .kmov h _ | .vsel h _ | .vrcp h _ | .vsqrt h _ | .vrsq h _
  | .vexp2 h _ | .vlog2 h _ | .vcvt h _ | .vqmx h _ | .vtbl h _ | .vtblw h _
  | .vrotr h _ | .vrotc h _ | .vbcr h _ | .vbcc h _ | .vredr h _ | .vredc h _
  | .vscanr h _ | .vtrb h _ | .vmov h _ | .vspl h _ | .viota h _ | .vext h _
  | .vins h _ | .mld h _ | .mlds h _ | .mswap h _ | .mma h _ | .mmas h _
  | .mzero h _ | .manc h _ | .mdr h _ | .mdrt h _ | .mest h _ | .mstat h _
  | .mtblw h _ | .mtsc h _ | .trec h _ | .tupd h _ | .tflsh h _ | .dstat h _ => some h
  | _ => none

/-- The cluster tag of a cluster's own opcode (R85 to R87); none for the shared opcodes. -/
def Instr.cluster : Instr → Option Stream
  | .lds _ _ | .sts _ _ | .ldq _ _ | .stq _ _ | .satom _ _ | .ldg _ _
  | .stg _ _ | .gatom _ _ | .cmo _ _ | .lbind _ _ | .acq _ _ | .rel _ _
  | .fence _ _ | .gbar _ _ | .waitw _ _ | .wbind _ _ | .wadv _ _ | .wrel _ _
  | .ldw _ _ | .hbind _ _ | .hunb _ _ | .topen _ _ | .tseal _ _ | .tstat _ _
  | .cpym _ _ | .cpys _ _ | .cgth _ _ | .csct _ _ | .cpgi _ _ | .rput _ _
  | .rget _ _ | .gadd _ _ | .gamo _ _ | .gqop _ _ | .gred _ _ | .gaxpy _ _
  | .gfen _ _ | .eqclr _ _ | .equ _ _ | .eqf _ _ | .eqz _ _ | .eqr _ _
  | .eqsnp _ _ | .eqund _ _ | .deq _ _ | .engst _ _ | .spk _ _ | .eva _ _
  | .evw _ _ | .evq _ _ | .tkenq _ _ | .tksig _ _ => some .A
  | .vadd _ _ | .vsub _ _ | .vmul _ _ | .vfma _ _ | .vfms _ _ | .vmin _ _
  | .vmax _ _ | .vabs _ _ | .vneg _ _ | .vand _ _ | .vor _ _ | .vxor _ _
  | .vshl _ _ | .vshr _ _ | .vsra _ _ | .vcmp _ _ | .kop _ _ | .kpop _ _
  | .kmov _ _ | .vsel _ _ | .vrcp _ _ | .vsqrt _ _ | .vrsq _ _ | .vexp2 _ _
  | .vlog2 _ _ | .vcvt _ _ | .vqmx _ _ | .vtbl _ _ | .vtblw _ _ | .vrotr _ _
  | .vrotc _ _ | .vbcr _ _ | .vbcc _ _ | .vredr _ _ | .vredc _ _ | .vscanr _ _
  | .vtrb _ _ | .vmov _ _ | .vspl _ _ | .viota _ _ | .vext _ _ | .vins _ _ => some .V
  | .mld _ _ | .mlds _ _ | .mswap _ _ | .mma _ _ | .mmas _ _ | .mzero _ _
  | .manc _ _ | .mdr _ _ | .mdrt _ _ | .mest _ _ | .mstat _ _ | .mtblw _ _
  | .mtsc _ _ => some .M
  | .trec _ _ | .tupd _ _ | .tflsh _ _ | .dstat _ _ => some .D
  | _ => none

/-- The well-formed instructions: what R62 to R83, R89 and the instruction's own rule admit. A field that an instruction uses
under some values of another field only may hold any value under the others: MK of `HSTAT`, S1 of `ACQ.rd`, cp of
`TSEAL.free`, RM of `TUPD.wr` (log 47, DESIGN CHOICE: R89 does not settle it). -/
def Instr.wfBody : Instr → Bool
  | .ill w => w.extractLsb' 43 7 == 0
  | .unassignedOpcodeWord _ => true
  | .add h o | .sub h o | .mul h o | .mulhi h o | .mulhis h o | .div h o | .divs h o | .rem h o | .rems h o
  | .and h o | .or h o | .xor h o | .andn h o | .shl h o | .shr h o | .sra h o | .rol h o
  | .min h o | .mins h o | .max h o | .maxs h o => o.ok3 h.stream && o.fn == 0
  | .sel h o => o.ok3 h.stream && o.fn.extractLsb' 4 4 == 0
  | .cmp h o => o.ok3 h.stream && cmpOk h.stream (o.fn.getLsbD 7) (o.fn.extractLsb' 4 3) (o.fn.extractLsb' 0 4)
  | .gop h o => gopOk h.stream o
  | .addi h o | .andi h o | .ori h o | .xori h o | .lih h o => dstOk h.stream o.dst && srcOk h.stream o.s1
  | .shli h o | .shri h o | .srai h o =>
    dstOk h.stream o.dst && srcOk h.stream o.s1 && o.imm.extractLsb' 6 25 == 0
  | .cmpi h o =>
    dstOk h.stream o.dst && srcOk h.stream o.s1 && o.imm.extractLsb' 28 3 == 0 &&
    cmpOk h.stream (o.imm.getLsbD 27) (o.imm.extractLsb' 24 3) (o.imm.extractLsb' 20 4)
  | .li h o => dstOk h.stream o.dst && o.s1 == 0
  | .bfx h o | .bfxs h o => o.ok3 h.stream && o.fn.extractLsb' 6 2 == 0
  | .bfi h o => o.ok3 h.stream && o.fn.extractLsb' 6 2 == 0 && regOk h.stream o.dst
  | .fshl h o | .fshr h o => fshOk h.stream o
  | .popc h o | .clz h o | .ctz h o | .brev h o =>
    dstOk h.stream o.dst && srcOk h.stream o.s1 && o.s2 == 0 && o.fn == 0
  | .br _ o => o.s1 == 48
  | .call h o => regOk h.stream o.s1 || o.s1 == 48
  | .ret h o => regOk h.stream o.s1 && o.off == 0
  | .jmpr h o => regOk h.stream o.s1 || popOk h.stream o.s1
  | .brq h o => popOk h.stream o.s1
  | .modl h o => o.len != 0 && o.ii != 0 && srcOk h.stream o.trip
  | .qstat h o => qstatOk h.stream o
  | .hstep h o => hstepOk h.stream o
  | .hmark _ o | .hrew _ o => o.cnt == 0 && o.imm == 0 && o.fl == 0
  | .hstat h o => hstatOk h.stream o
  | .pkw h o => dstOk h.stream o.dst && srcOk h.stream o.s1 && o.s2 == 0 && o.fn.extractLsb' 5 3 == 0
  | .srr h o => dstOk h.stream o.dst && o.s1 == 0 && o.imm.extractLsb' 12 19 == 0 && srPresent o.srIndex
  | .srw h o =>
    o.dst == 0 && srcOk h.stream o.s1 && o.imm.extractLsb' 12 19 == 0 && srPresent o.srIndex && srWritable o.srIndex
  | .trap h o => o.dst == 0 && srcOk h.stream o.s1 && o.imm.extractLsb' 16 15 == 0
  | .eret _ o | .yield _ o | .halt _ o | .nop _ o => o.zero
  | .wait h o => waitOk h.stream o
  | .lds _ o | .ldg _ o | .ldw _ o => loadDataOk o && addrOk o
  | .sts _ o | .stg _ o => storeDataOk o && addrOk o
  | .ldq _ o => (if o.sz == 7 then rowPushOk .A o.data else pushOk .A o.data) && addrOk o
  | .stq _ o => (if o.sz == 7 then rowPopOk .A o.data else popOk .A o.data) && addrOk o
  | .satom _ o | .gatom _ o => atomOk o
  | .cmo _ o => srcOk .A o.data && srcOk .A o.base && o.index == 48 && o.sc.toNat ≤ 2 && 1 ≤ o.sz.toNat && o.sz.toNat ≤ 3
  | .lbind _ o => o.ok3 .A && (o.fn.extractLsb' 5 3).toNat ≤ 4 && !o.fn.getLsbD 4
  | .acq _ o => dstOk .A o.dst && srcOk .A o.s1 && o.s2 == 0 && o.fn.extractLsb' 6 2 != 3 && o.fn.extractLsb' 4 2 == 0
  | .rel _ o =>
    dstOk .A o.dst && srcOk .A o.s1 && o.s2 == 0 && (o.fn.extractLsb' 6 2).toNat ≤ 1 && o.fn.extractLsb' 4 2 == 0
  | .fence _ o => o.dst == 0 && o.s1 == 0 && o.s2 == 0 && o.fn != 0 && o.fn.extractLsb' 5 3 == 0
  | .gbar _ o => dstOk .A o.dst && o.s1 == 0 && o.s2 == 0 && o.fn.extractLsb' 2 6 == 0
  | .waitw _ o =>
    dstOk .A o.dst && srcOk .A o.s1 && o.s2 == 0 && (o.fn.extractLsb' 5 3).toNat ≤ 3 && !o.fn.getLsbD 4
  | .wbind _ o => o.ok3 .A && o.fn.extractLsb' 4 4 == 0
  | .wadv _ o => dstOk .A o.dst && srcOk .A o.s1 && o.imm.extractLsb' 4 27 == 0
  | .wrel _ o => dstOk .A o.dst && o.s1 == 0 && o.s2 == 0 && o.fn.extractLsb' 6 2 == 0 && o.fn.extractLsb' 4 2 != 3
  | .hbind _ o =>
    srcOk .A o.cnt && o.cnt != 48 && o.cnt != 49 && o.imm == 0 && o.mark == 0 && o.fl.extractLsb' 7 8 == 0 &&
    o.fl.extractLsb' 0 2 == 0 && o.fl.extractLsb' 5 2 != 0 &&
    (o.fl.extractLsb' 5 2 == 3 || o.fl.extractLsb' 3 2 == 0 || o.fl.extractLsb' 3 2 == 3)
  | .hunb _ o => o.cnt == 0 && o.imm == 0 && o.mark == 0 && o.fl == 0
  | .topen _ o => o.ok3 .A && o.fn == 0
  | .tseal _ o => dstOk .A o.dst && srcOk .A o.s1 && o.s2 == 0 && o.fn.extractLsb' 3 5 == 0 && o.fn.extractLsb' 0 2 != 3
  | .tstat _ o =>
    dstOk .A o.dst && srcOk .A o.s1 && o.s2 == 0 && o.fn.extractLsb' 3 5 == 0 && (o.fn.extractLsb' 0 3).toNat ≤ 5
  | .cpym _ o => o.srcs && o.fl == 0
  | .cpys _ o | .rput _ o | .rget _ o => o.srcs && o.fl.toNat ≤ 1
  | .cgth _ o | .csct _ o => o.srcs && o.fl.toNat ≤ 15
  | .cpgi _ o => srcOk .A o.o1 && srcOk .A o.o2 && o.o3 == 0 && o.fl.toNat ≤ 7
  | .gadd _ o =>
    srcOk .A o.o1 && srcOk .A o.o2 && o.o3 == 0 && o.fl.extractLsb' 7 2 != 3 &&
    (o.fl.extractLsb' 7 2 != 2 || o.fl.getLsbD 0)
  | .gaxpy _ o => o.srcs && o.fl.extractLsb' 7 2 == 0
  | .gamo _ o =>
    srcOk .A o.o1 && srcOk .A o.o2 && (o.fl.extractLsb' 6 3).toNat ≤ 4 && (o.fl.extractLsb' 3 3).toNat ≤ 4 &&
    o.fl.extractLsb' 0 3 == 0 && (if o.fl.extractLsb' 6 3 == 4 then srcOk .A o.o3 else o.o3 == 0)
  | .gqop _ o => srcOk .A o.o1 && srcOk .A o.o2 && o.o3 == 0 && o.fl.extractLsb' 2 7 == 0
  | .gred _ o => o.srcs && o.fl.extractLsb' 4 2 != 3
  | .gfen _ o => o.o1 == 0 && o.o2 == 0 && o.o3 == 0 && o.fl == 0
  | .eqclr _ o | .equ _ o => srcOk .A o.o1 && srcOk .A o.o2 && o.o3 == 0 && o.fl == 0
  | .eqf _ o => dstOk .A o.o1 && srcOk .A o.o2 && o.o3 == 0 && o.fl == 0
  | .eqz _ o =>
    dstOk .A o.o1 && srcOk .A o.o2 && o.fl.extractLsb' 4 5 == 0 &&
    (if o.fl.getLsbD 3 then srcOk .A o.o3 else o.o3 == 0 && o.fl == 0)
  | .eqr _ o => eqrOk o
  | .eqsnp _ o => dstOk .A o.o1 && o.o2 == 0 && o.o3 == 0 && o.fl == 0
  | .eqund _ o => srcOk .A o.o1 && o.o2 == 0 && o.o3 == 0 && o.fl.toNat ≤ 1
  | .deq _ o =>
    dstOk .A o.dst && dstOk .A o.s1 && o.s2 == 0 && o.fn.extractLsb' 3 5 == 0 && o.fn.extractLsb' 0 2 != 3
  | .engst _ o =>
    dstOk .A o.dst && o.s1 == 0 && o.s2 == 0 && o.fn.extractLsb' 5 3 == 0 && (o.fn.extractLsb' 2 3).toNat ≤ 5 &&
    o.fn.extractLsb' 0 2 != 3
  | .spk _ o => o.srcs && o.fl.toNat ≤ 16
  | .eva _ o => dstOk .A o.dst && srcOk .A o.s1 && o.s2 == 0 && o.fn.extractLsb' 3 5 == 0
  | .evw _ o | .evq _ o => dstOk .A o.dst && dstOk .A o.s1 && o.s2 == 0 && o.fn != 0
  | .tkenq _ o => srcOk .A o.o1 && srcOk .A o.o2 && o.o3 == 0 && o.fl == 0
  | .tksig _ o => o.dst == 0 && srcOk .A o.s1 && o.s2 == 0
  | .vadd _ o | .vsub _ o | .vmul _ o | .vmin _ o | .vmax _ o => v2Ok o && tyFI o.ty
  | .vfma _ o | .vfms _ o => v3Ok o && tyFI o.ty
  | .vabs _ o | .vneg _ o => v1Ok o && tyFI o.ty
  | .vand _ o | .vor _ o | .vxor _ o | .vshl _ o | .vshr _ o | .vsra _ o => v2Ok o && tyI o.ty
  | .vcmp _ o =>
    vSrcOk o.s1 && vSrcOk o.s2 && o.s3 == 0 && lpOk o 2 false && tyAny o.ty && o.dst.extractLsb' 0 3 != 0 &&
    (tyFI o.ty || !o.dst.getLsbD 4)
  | .kop _ o => o.dst != 0 && o.dst.extractLsb' 3 2 == 0 && o.s1.toNat < 8 && !o.s2.getLsbD 3 && vNoRest o
  | .kpop _ o => o.dst.toNat < 16 && o.s1.toNat < 8 && o.s2 == 0 && vNoRest o
  | .kmov _ o =>
    o.dst != 0 && o.dst.extractLsb' 3 2 == 0 && vSrcOk o.s1 && o.s2 == 0 && o.s3 == 0 && tyAny o.ty && lpOk o 1 false
  | .vsel _ o => vSrcOk o.s1 && vSrcOk o.s2 && o.s3 == 0 && lpOk o 2 false && tyAny o.ty
  | .vrcp _ o | .vsqrt _ o | .vrsq _ o | .vexp2 _ o | .vlog2 _ o => v1Ok o && o.ty == 0
  | .vcvt _ o =>
    vSrcOk o.s1 && !o.s2.getLsbD 7 && rmOk (parRm o.s2) && parSel o.s2 ≤ 10 && tyAny o.ty && vSelOk o && lpOk o 1 false
  | .vqmx _ o =>
    vSrcOk o.s1 && !o.s2.getLsbD 7 && rmOk (parRm o.s2) && parSel o.s2 ≤ 4 && tyF o.ty && vSelOk o && lpOk o 1 false
  | .vtbl _ o => v1Ok o && o.ty.toNat ≤ 1
  | .vtblw _ o =>
    vSrcOk o.s1 && !(vIsBcast o.s1 || vIsImm o.s1) && o.dst.extractLsb' 2 3 == 0 && o.s2 == 0 && o.s3 == 0 &&
    o.ty == 1 && lpOk o 1 false
  | .vrotr _ o | .vbcr _ o => vSrcOk o.s1 && vIdxOk o.s2 && vSelOk o && tyAny o.ty && lpOk o 2 true
  | .vrotc _ o | .vbcc _ o => vBlockOk o.s1 && vIdxOk o.s2 && o.s3 == 0 && tyAny o.ty && lpOk o 2 true
  | .vredr _ o | .vscanr _ o => vSrcOk o.s1 && vredOk o && vSelOk o
  | .vredc _ o => vBlockOk o.s1 && vredOk o && o.s3 == 0
  | .vtrb _ o => vIsReg o.s1 && o.s2 == 0 && o.s3 == 0 && tyAny o.ty && lpOk o 1 false
  | .vmov _ o => v1Ok o && tyAny o.ty
  | .vspl _ o => o.dst.toNat < 16 && vIsReg o.s1 && vIdxOk o.s2 && o.s3 == 0 && tyAny o.ty && lpOk o 2 true
  | .viota _ o => vIdxOk o.s1 && o.s2 == 0 && vSelOk o && tyI o.ty && o.lps == 0 && o.lp == 0
  | .vext _ o => vIsReg o.s1 && vIdxOk o.s2 && vSelOk o && tyAny o.ty && lpOk o 2 true
  | .vins _ o =>
    vSrcOk o.s1 && !(vIsBcast o.s1 || vIsImm o.s1) && vIdxOk o.s2 && o.s3 == 0 && tyAny o.ty && lpOk o 2 true
  | .mld _ o =>
    mRange o && o.acc == 0 && mSrcOk o && o.enc.toNat ≤ 9 && o.lay != 3 && mSclOk o true &&
    (o.pl == 0 || o.lay == 1) && o.aop == 0 && o.sp == 0
  | .mlds _ o =>
    mRange o && o.acc == 0 && vIsHead o.src && o.enc.toNat ≤ 9 && o.lay == 2 && mSclOk o true && o.pl == 0 &&
    o.aop == 0 && o.edge && (o.sp == 1 || o.sp == 2)
  | .mswap _ o =>
    o.am != 0 && o.acc == 0 && o.src == 0 && o.enc == 0 && o.lay == 0 && o.scl == 0 && o.pl == 0 && o.rows == 64 &&
    o.aop == 0 && !o.edge && o.sp == 0
  | .mma _ o => mmaOk o && o.sp == 0
  | .mmas _ o => mmaOk o && (o.sp == 1 || o.sp == 2)
  | .mzero _ o =>
    mRange o && mTileOk o && o.src == 0 && o.enc == 0 && o.lay == 0 && o.scl == 0 && o.pl == 0 && o.aop == 0 &&
    !o.edge && o.sp == 0
  | .manc h o =>
    dstOk h.stream o.dst && o.s2 == 0 && o.fn.extractLsb' 6 2 == 0 && (o.fn.extractLsb' 0 5).toNat < 24 &&
    (if o.fn.getLsbD 5 then o.s1 == 0 else srcOk h.stream o.s1)
  | .mdr _ o => drOk o false
  | .mdrt _ o => drOk o true
  | .mest h o => dstOk h.stream o.dst && o.s1 == 0 && o.s2 == 0 && o.fn.toNat ≤ 2
  | .mstat h o =>
    let n := (o.fn.extractLsb' 0 5).toNat
    let item := (o.fn.extractLsb' 5 3).toNat
    dstOk h.stream o.dst && o.s1 == 0 && o.s2 == 0 &&
    (((item == 0 || item == 1 || item == 5) && n == 0) || ((item == 2 || item == 4) && n ≤ 2) || (item == 3 && n < 24))
  | .mtblw _ o =>
    o.am == 1 && o.acc.toNat ≤ 3 && (vIsReg o.src || (vIsQueue o.src && popsRow .M (vNum o.src)) || vIsHead o.src) &&
    o.enc == 7 && o.lay == 0 && o.scl == 0 && o.pl == 0 && o.rows == 64 && o.aop == 0 && !o.edge && o.sp == 0
  | .mtsc h o =>
    dstOk h.stream o.dst && o.s2 == 0 && o.fn.extractLsb' 3 5 == 0 &&
    (if o.fn.getLsbD 2 then o.s1 == 0 else srcOk h.stream o.s1)
  | .trec _ o => rowPopOk .D o.cnt && o.imm == 0 && o.mark == 0 && o.fl.extractLsb' 1 14 == 0
  | .tupd _ o => tupdOk o
  | .tflsh _ o => o.cnt == 0 && o.imm == 0 && o.mark == 0 && o.fl.extractLsb' 1 14 == 0 && (!o.fl.getLsbD 0 || o.hd == 0)
  | .dstat h o => dstOk h.stream o.dst && o.s1 == 0 && o.s2 == 0 && o.fn.toNat ≤ 2
  | _ => true

/-- The CL of a cluster's own opcode is that cluster (R58). -/
def Instr.clOk (i : Instr) : Bool :=
  match i.cluster, i.hdr? with
  | some st, some h => h.cl == st.cl
  | _, _ => true

/-- A well-formed term. -/
def Instr.wf (i : Instr) : Bool := i.clOk && i.wfBody

end Sys2Proof
end

