-- ==== Sys2Proof/Decode.lean ====
section
/-! DEFINITION. Instruction words (R57, R58, R75 to R88): the decoder, total on any bytes, and the encoder. -/
namespace Sys2Proof

/-- Why bytes are no instruction (R89, R90). -/
inductive DecodeError where
  /-- fewer than eight bytes -/
  | truncated
  /-- a reserved bit of the format is set (R89) -/
  | reservedBits
  /-- a field holds a value the instruction does not take (R62 to R83, R89) -/
  | illegalField
  deriving DecidableEq, Repr

/-- The header fields of a word (R58). -/
def getHdr (w : Word) : Hdr :=
  { sy := w.getLsbD 63, pb := w.extractLsb' 61 2, pa := w.extractLsb' 59 2, g := w.extractLsb' 56 3,
    gn := w.getLsbD 55, ms := w.extractLsb' 52 3, cl := w.extractLsb' 50 2 }

/-- Fields of format S3 (R75). -/
def getS3 (w : Word) : S3 :=
  { dst := w.extractLsb' 37 6, s1 := w.extractLsb' 31 6, s2 := w.extractLsb' 25 6, fn := w.extractLsb' 17 8 }

/-- Fields of format SI (R76). -/
def getSI (w : Word) : SI := { dst := w.extractLsb' 37 6, s1 := w.extractLsb' 31 6, imm := w.extractLsb' 0 31 }

/-- Fields of format SB (R77). -/
def getSB (w : Word) : SB := { s1 := w.extractLsb' 37 6, off := w.extractLsb' 0 31 }

/-- Fields of format L (R78). -/
def getL (w : Word) : L :=
  { data := w.extractLsb' 37 6, base := w.extractLsb' 31 6, index := w.extractLsb' 25 6, sc := w.extractLsb' 22 3,
    sz := w.extractLsb' 19 3, off := w.extractLsb' 0 19 }

/-- Fields of format H (R79). -/
def getH (w : Word) : H :=
  { hd := w.extractLsb' 39 4, cnt := w.extractLsb' 33 6, imm := w.extractLsb' 17 16, mark := w.extractLsb' 15 2,
    fl := w.extractLsb' 0 15 }

/-- Fields of format E (R80). -/
def getE (w : Word) : E :=
  { o1 := w.extractLsb' 37 6, o2 := w.extractLsb' 31 6, o3 := w.extractLsb' 25 6, p1 := w.extractLsb' 17 8,
    p2 := w.extractLsb' 9 8, fl := w.extractLsb' 0 9 }

/-- Fields of format MODL (R81). -/
def getML (w : Word) : ML :=
  { len := w.extractLsb' 37 6, ii := w.extractLsb' 31 6, trip := w.extractLsb' 25 6 }

/-- Fields of format V3 (R82). -/
def getV3 (w : Word) : V3 :=
  { dst := w.extractLsb' 38 5, s1 := w.extractLsb' 30 8, s2 := w.extractLsb' 22 8, s3 := w.extractLsb' 14 8,
    ty := w.extractLsb' 10 4, lps := w.extractLsb' 8 2, lp := w.extractLsb' 0 8 }

/-- Fields of format M (R83). -/
def getMF (w : Word) : MF :=
  { am := w.extractLsb' 40 3, acc := w.extractLsb' 35 5, src := w.extractLsb' 27 8, enc := w.extractLsb' 23 4,
    lay := w.extractLsb' 21 2, scl := w.extractLsb' 19 2, pl := w.extractLsb' 16 3, rows := w.extractLsb' 9 7,
    aop := w.extractLsb' 7 2, edge := w.getLsbD 6, sp := w.extractLsb' 4 2 }

/-- Fields of the drains (R239). -/
def getDR (w : Word) : DR :=
  { rsd := w.extractLsb' 40 3, acc := w.extractLsb' 35 5, dst := w.extractLsb' 27 8, df := w.extractLsb' 23 4,
    rm := w.extractLsb' 20 3, ts := w.extractLsb' 18 2, mxs := w.getLsbD 17, clr := w.getLsbD 16,
    rows := w.extractLsb' 9 7 }

/-- The 21 header bits with an opcode (R58). -/
def putHdr (h : Hdr) (op : BitVec 7) : BitVec 21 :=
  BitVec.ofBool h.sy ++ h.pb ++ h.pa ++ h.g ++ BitVec.ofBool h.gn ++ h.ms ++ h.cl ++ op

/-- Format S3 as bits (R75). -/
def putS3 (o : S3) : BitVec 43 := o.dst ++ o.s1 ++ o.s2 ++ o.fn ++ 0#17
/-- Format SI as bits (R76). -/
def putSI (o : SI) : BitVec 43 := o.dst ++ o.s1 ++ o.imm
/-- Format SB as bits (R77). -/
def putSB (o : SB) : BitVec 43 := o.s1 ++ 0#6 ++ o.off
/-- Format L as bits (R78). -/
def putL (o : L) : BitVec 43 := o.data ++ o.base ++ o.index ++ o.sc ++ o.sz ++ o.off
/-- Format H as bits (R79). -/
def putH (o : H) : BitVec 43 := o.hd ++ o.cnt ++ o.imm ++ o.mark ++ o.fl
/-- Format E as bits (R80). -/
def putE (o : E) : BitVec 43 := o.o1 ++ o.o2 ++ o.o3 ++ o.p1 ++ o.p2 ++ o.fl
/-- Format MODL as bits (R81). -/
def putML (o : ML) : BitVec 43 := o.len ++ o.ii ++ o.trip ++ 0#25
/-- Format V3 as bits (R82). -/
def putV3 (o : V3) : BitVec 43 := o.dst ++ o.s1 ++ o.s2 ++ o.s3 ++ o.ty ++ o.lps ++ o.lp
/-- Format M as bits (R83). -/
def putMF (o : MF) : BitVec 43 :=
  o.am ++ o.acc ++ o.src ++ o.enc ++ o.lay ++ o.scl ++ o.pl ++ o.rows ++ o.aop ++ BitVec.ofBool o.edge ++ o.sp ++ 0#4
/-- A drain as bits (R239). -/
def putDR (o : DR) : BitVec 43 :=
  o.rsd ++ o.acc ++ o.dst ++ o.df ++ o.rm ++ o.ts ++ BitVec.ofBool o.mxs ++ BitVec.ofBool o.clr ++ o.rows ++ 0#9

/-- The opcode of each instruction (R84 to R87); 0 for the rows that are no words. -/
def Instr.opc : Instr → BitVec 7
  | .add _ _ => 0x01
  | .sub _ _ => 0x02
  | .mul _ _ => 0x03
  | .mulhi _ _ => 0x04
  | .mulhis _ _ => 0x05
  | .div _ _ => 0x06
  | .divs _ _ => 0x07
  | .rem _ _ => 0x08
  | .rems _ _ => 0x09
  | .and _ _ => 0x0A
  | .or _ _ => 0x0B
  | .xor _ _ => 0x0C
  | .andn _ _ => 0x0D
  | .shl _ _ => 0x0E
  | .shr _ _ => 0x0F
  | .sra _ _ => 0x10
  | .rol _ _ => 0x11
  | .min _ _ => 0x12
  | .mins _ _ => 0x13
  | .max _ _ => 0x14
  | .maxs _ _ => 0x15
  | .sel _ _ => 0x16
  | .cmp _ _ => 0x17
  | .gop _ _ => 0x18
  | .addi _ _ => 0x19
  | .andi _ _ => 0x1A
  | .ori _ _ => 0x1B
  | .xori _ _ => 0x1C
  | .shli _ _ => 0x1D
  | .shri _ _ => 0x1E
  | .srai _ _ => 0x1F
  | .cmpi _ _ => 0x20
  | .li _ _ => 0x21
  | .lih _ _ => 0x22
  | .bfx _ _ => 0x23
  | .bfxs _ _ => 0x24
  | .bfi _ _ => 0x25
  | .fshl _ _ => 0x26
  | .fshr _ _ => 0x27
  | .popc _ _ => 0x28
  | .clz _ _ => 0x29
  | .ctz _ _ => 0x2A
  | .brev _ _ => 0x2B
  | .br _ _ => 0x2C
  | .call _ _ => 0x2D
  | .ret _ _ => 0x2E
  | .jmpr _ _ => 0x2F
  | .brq _ _ => 0x30
  | .modl _ _ => 0x31
  | .qstat _ _ => 0x32
  | .hstep _ _ => 0x33
  | .hmark _ _ => 0x34
  | .hrew _ _ => 0x35
  | .hstat _ _ => 0x36
  | .pkw _ _ => 0x37
  | .srr _ _ => 0x38
  | .srw _ _ => 0x39
  | .trap _ _ => 0x3A
  | .eret _ _ => 0x3B
  | .yield _ _ => 0x3C
  | .wait _ _ => 0x3D
  | .halt _ _ => 0x3E
  | .nop _ _ => 0x3F
  | .lds _ _ => 0x40
  | .sts _ _ => 0x41
  | .ldq _ _ => 0x42
  | .stq _ _ => 0x43
  | .satom _ _ => 0x44
  | .ldg _ _ => 0x45
  | .stg _ _ => 0x46
  | .gatom _ _ => 0x47
  | .cmo _ _ => 0x48
  | .lbind _ _ => 0x49
  | .acq _ _ => 0x4A
  | .rel _ _ => 0x4B
  | .fence _ _ => 0x4C
  | .gbar _ _ => 0x4D
  | .waitw _ _ => 0x4E
  | .wbind _ _ => 0x4F
  | .wadv _ _ => 0x50
  | .wrel _ _ => 0x51
  | .ldw _ _ => 0x52
  | .hbind _ _ => 0x53
  | .hunb _ _ => 0x54
  | .topen _ _ => 0x55
  | .tseal _ _ => 0x56
  | .tstat _ _ => 0x57
  | .cpym _ _ => 0x58
  | .cpys _ _ => 0x59
  | .cgth _ _ => 0x5A
  | .csct _ _ => 0x5B
  | .cpgi _ _ => 0x5C
  | .rput _ _ => 0x5D
  | .rget _ _ => 0x5E
  | .gadd _ _ => 0x5F
  | .gamo _ _ => 0x60
  | .gqop _ _ => 0x61
  | .gred _ _ => 0x62
  | .gaxpy _ _ => 0x63
  | .gfen _ _ => 0x64
  | .eqclr _ _ => 0x65
  | .equ _ _ => 0x66
  | .eqf _ _ => 0x67
  | .eqz _ _ => 0x68
  | .eqr _ _ => 0x69
  | .eqsnp _ _ => 0x6A
  | .eqund _ _ => 0x6B
  | .deq _ _ => 0x6C
  | .engst _ _ => 0x6D
  | .spk _ _ => 0x6E
  | .eva _ _ => 0x6F
  | .evw _ _ => 0x70
  | .evq _ _ => 0x71
  | .tkenq _ _ => 0x72
  | .tksig _ _ => 0x73
  | .vadd _ _ => 0x40
  | .vsub _ _ => 0x41
  | .vmul _ _ => 0x42
  | .vfma _ _ => 0x43
  | .vfms _ _ => 0x44
  | .vmin _ _ => 0x45
  | .vmax _ _ => 0x46
  | .vabs _ _ => 0x47
  | .vneg _ _ => 0x48
  | .vand _ _ => 0x49
  | .vor _ _ => 0x4A
  | .vxor _ _ => 0x4B
  | .vshl _ _ => 0x4C
  | .vshr _ _ => 0x4D
  | .vsra _ _ => 0x4E
  | .vcmp _ _ => 0x4F
  | .kop _ _ => 0x50
  | .kpop _ _ => 0x51
  | .kmov _ _ => 0x52
  | .vsel _ _ => 0x53
  | .vrcp _ _ => 0x54
  | .vsqrt _ _ => 0x55
  | .vrsq _ _ => 0x56
  | .vexp2 _ _ => 0x57
  | .vlog2 _ _ => 0x58
  | .vcvt _ _ => 0x59
  | .vqmx _ _ => 0x5A
  | .vtbl _ _ => 0x5B
  | .vtblw _ _ => 0x5C
  | .vrotr _ _ => 0x5D
  | .vrotc _ _ => 0x5E
  | .vbcr _ _ => 0x5F
  | .vbcc _ _ => 0x60
  | .vredr _ _ => 0x61
  | .vredc _ _ => 0x62
  | .vscanr _ _ => 0x63
  | .vtrb _ _ => 0x64
  | .vmov _ _ => 0x65
  | .vspl _ _ => 0x66
  | .viota _ _ => 0x67
  | .vext _ _ => 0x68
  | .vins _ _ => 0x69
  | .mld _ _ => 0x40
  | .mlds _ _ => 0x41
  | .mswap _ _ => 0x42
  | .mma _ _ => 0x43
  | .mmas _ _ => 0x44
  | .mzero _ _ => 0x45
  | .manc _ _ => 0x46
  | .mdr _ _ => 0x47
  | .mdrt _ _ => 0x48
  | .mest _ _ => 0x49
  | .mstat _ _ => 0x4A
  | .mtblw _ _ => 0x4B
  | .mtsc _ _ => 0x4C
  | .trec _ _ => 0x40
  | .tupd _ _ => 0x41
  | .tflsh _ _ => 0x42
  | .dstat _ _ => 0x43
  | .unassignedOpcodeWord w => w.extractLsb' 43 7
  | _ => 0

/-- The low 43 bits of each instruction, its format (R75 to R83, R239). -/
def Instr.body : Instr → BitVec 43
  | .add _ o => putS3 o
  | .sub _ o => putS3 o
  | .mul _ o => putS3 o
  | .mulhi _ o => putS3 o
  | .mulhis _ o => putS3 o
  | .div _ o => putS3 o
  | .divs _ o => putS3 o
  | .rem _ o => putS3 o
  | .rems _ o => putS3 o
  | .and _ o => putS3 o
  | .or _ o => putS3 o
  | .xor _ o => putS3 o
  | .andn _ o => putS3 o
  | .shl _ o => putS3 o
  | .shr _ o => putS3 o
  | .sra _ o => putS3 o
  | .rol _ o => putS3 o
  | .min _ o => putS3 o
  | .mins _ o => putS3 o
  | .max _ o => putS3 o
  | .maxs _ o => putS3 o
  | .sel _ o => putS3 o
  | .cmp _ o => putS3 o
  | .gop _ o => putS3 o
  | .addi _ o => putSI o
  | .andi _ o => putSI o
  | .ori _ o => putSI o
  | .xori _ o => putSI o
  | .shli _ o => putSI o
  | .shri _ o => putSI o
  | .srai _ o => putSI o
  | .cmpi _ o => putSI o
  | .li _ o => putSI o
  | .lih _ o => putSI o
  | .bfx _ o => putS3 o
  | .bfxs _ o => putS3 o
  | .bfi _ o => putS3 o
  | .fshl _ o => putS3 o
  | .fshr _ o => putS3 o
  | .popc _ o => putS3 o
  | .clz _ o => putS3 o
  | .ctz _ o => putS3 o
  | .brev _ o => putS3 o
  | .br _ o => putSB o
  | .call _ o => putSB o
  | .ret _ o => putSB o
  | .jmpr _ o => putSB o
  | .brq _ o => putSB o
  | .modl _ o => putML o
  | .qstat _ o => putS3 o
  | .hstep _ o => putH o
  | .hmark _ o => putH o
  | .hrew _ o => putH o
  | .hstat _ o => putH o
  | .pkw _ o => putS3 o
  | .srr _ o => putSI o
  | .srw _ o => putSI o
  | .trap _ o => putSI o
  | .eret _ o => putS3 o
  | .yield _ o => putS3 o
  | .wait _ o => putSI o
  | .halt _ o => putS3 o
  | .nop _ o => putS3 o
  | .lds _ o => putL o
  | .sts _ o => putL o
  | .ldq _ o => putL o
  | .stq _ o => putL o
  | .satom _ o => putL o
  | .ldg _ o => putL o
  | .stg _ o => putL o
  | .gatom _ o => putL o
  | .cmo _ o => putL o
  | .lbind _ o => putS3 o
  | .acq _ o => putS3 o
  | .rel _ o => putS3 o
  | .fence _ o => putS3 o
  | .gbar _ o => putS3 o
  | .waitw _ o => putS3 o
  | .wbind _ o => putS3 o
  | .wadv _ o => putSI o
  | .wrel _ o => putS3 o
  | .ldw _ o => putL o
  | .hbind _ o => putH o
  | .hunb _ o => putH o
  | .topen _ o => putS3 o
  | .tseal _ o => putS3 o
  | .tstat _ o => putS3 o
  | .cpym _ o => putE o
  | .cpys _ o => putE o
  | .cgth _ o => putE o
  | .csct _ o => putE o
  | .cpgi _ o => putE o
  | .rput _ o => putE o
  | .rget _ o => putE o
  | .gadd _ o => putE o
  | .gamo _ o => putE o
  | .gqop _ o => putE o
  | .gred _ o => putE o
  | .gaxpy _ o => putE o
  | .gfen _ o => putE o
  | .eqclr _ o => putE o
  | .equ _ o => putE o
  | .eqf _ o => putE o
  | .eqz _ o => putE o
  | .eqr _ o => putE o
  | .eqsnp _ o => putE o
  | .eqund _ o => putE o
  | .deq _ o => putS3 o
  | .engst _ o => putS3 o
  | .spk _ o => putE o
  | .eva _ o => putS3 o
  | .evw _ o => putS3 o
  | .evq _ o => putS3 o
  | .tkenq _ o => putE o
  | .tksig _ o => putS3 o
  | .vadd _ o => putV3 o
  | .vsub _ o => putV3 o
  | .vmul _ o => putV3 o
  | .vfma _ o => putV3 o
  | .vfms _ o => putV3 o
  | .vmin _ o => putV3 o
  | .vmax _ o => putV3 o
  | .vabs _ o => putV3 o
  | .vneg _ o => putV3 o
  | .vand _ o => putV3 o
  | .vor _ o => putV3 o
  | .vxor _ o => putV3 o
  | .vshl _ o => putV3 o
  | .vshr _ o => putV3 o
  | .vsra _ o => putV3 o
  | .vcmp _ o => putV3 o
  | .kop _ o => putV3 o
  | .kpop _ o => putV3 o
  | .kmov _ o => putV3 o
  | .vsel _ o => putV3 o
  | .vrcp _ o => putV3 o
  | .vsqrt _ o => putV3 o
  | .vrsq _ o => putV3 o
  | .vexp2 _ o => putV3 o
  | .vlog2 _ o => putV3 o
  | .vcvt _ o => putV3 o
  | .vqmx _ o => putV3 o
  | .vtbl _ o => putV3 o
  | .vtblw _ o => putV3 o
  | .vrotr _ o => putV3 o
  | .vrotc _ o => putV3 o
  | .vbcr _ o => putV3 o
  | .vbcc _ o => putV3 o
  | .vredr _ o => putV3 o
  | .vredc _ o => putV3 o
  | .vscanr _ o => putV3 o
  | .vtrb _ o => putV3 o
  | .vmov _ o => putV3 o
  | .vspl _ o => putV3 o
  | .viota _ o => putV3 o
  | .vext _ o => putV3 o
  | .vins _ o => putV3 o
  | .mld _ o => putMF o
  | .mlds _ o => putMF o
  | .mswap _ o => putMF o
  | .mma _ o => putMF o
  | .mmas _ o => putMF o
  | .mzero _ o => putMF o
  | .manc _ o => putS3 o
  | .mdr _ o => putDR o
  | .mdrt _ o => putDR o
  | .mest _ o => putS3 o
  | .mstat _ o => putS3 o
  | .mtblw _ o => putMF o
  | .mtsc _ o => putS3 o
  | .trec _ o => putH o
  | .tupd _ o => putH o
  | .tflsh _ o => putH o
  | .dstat _ o => putS3 o
  | _ => 0

/-- The shared opcodes (R84): the instruction an opcode names, its fields read from the word. -/
def sharedOp (op : Nat) (h : Hdr) (w : Word) : Option Instr :=
  match op with
  | 0x01 => some (.add h (getS3 w))
  | 0x02 => some (.sub h (getS3 w))
  | 0x03 => some (.mul h (getS3 w))
  | 0x04 => some (.mulhi h (getS3 w))
  | 0x05 => some (.mulhis h (getS3 w))
  | 0x06 => some (.div h (getS3 w))
  | 0x07 => some (.divs h (getS3 w))
  | 0x08 => some (.rem h (getS3 w))
  | 0x09 => some (.rems h (getS3 w))
  | 0x0A => some (.and h (getS3 w))
  | 0x0B => some (.or h (getS3 w))
  | 0x0C => some (.xor h (getS3 w))
  | 0x0D => some (.andn h (getS3 w))
  | 0x0E => some (.shl h (getS3 w))
  | 0x0F => some (.shr h (getS3 w))
  | 0x10 => some (.sra h (getS3 w))
  | 0x11 => some (.rol h (getS3 w))
  | 0x12 => some (.min h (getS3 w))
  | 0x13 => some (.mins h (getS3 w))
  | 0x14 => some (.max h (getS3 w))
  | 0x15 => some (.maxs h (getS3 w))
  | 0x16 => some (.sel h (getS3 w))
  | 0x17 => some (.cmp h (getS3 w))
  | 0x18 => some (.gop h (getS3 w))
  | 0x19 => some (.addi h (getSI w))
  | 0x1A => some (.andi h (getSI w))
  | 0x1B => some (.ori h (getSI w))
  | 0x1C => some (.xori h (getSI w))
  | 0x1D => some (.shli h (getSI w))
  | 0x1E => some (.shri h (getSI w))
  | 0x1F => some (.srai h (getSI w))
  | 0x20 => some (.cmpi h (getSI w))
  | 0x21 => some (.li h (getSI w))
  | 0x22 => some (.lih h (getSI w))
  | 0x23 => some (.bfx h (getS3 w))
  | 0x24 => some (.bfxs h (getS3 w))
  | 0x25 => some (.bfi h (getS3 w))
  | 0x26 => some (.fshl h (getS3 w))
  | 0x27 => some (.fshr h (getS3 w))
  | 0x28 => some (.popc h (getS3 w))
  | 0x29 => some (.clz h (getS3 w))
  | 0x2A => some (.ctz h (getS3 w))
  | 0x2B => some (.brev h (getS3 w))
  | 0x2C => some (.br h (getSB w))
  | 0x2D => some (.call h (getSB w))
  | 0x2E => some (.ret h (getSB w))
  | 0x2F => some (.jmpr h (getSB w))
  | 0x30 => some (.brq h (getSB w))
  | 0x31 => some (.modl h (getML w))
  | 0x32 => some (.qstat h (getS3 w))
  | 0x33 => some (.hstep h (getH w))
  | 0x34 => some (.hmark h (getH w))
  | 0x35 => some (.hrew h (getH w))
  | 0x36 => some (.hstat h (getH w))
  | 0x37 => some (.pkw h (getS3 w))
  | 0x38 => some (.srr h (getSI w))
  | 0x39 => some (.srw h (getSI w))
  | 0x3A => some (.trap h (getSI w))
  | 0x3B => some (.eret h (getS3 w))
  | 0x3C => some (.yield h (getS3 w))
  | 0x3D => some (.wait h (getSI w))
  | 0x3E => some (.halt h (getS3 w))
  | 0x3F => some (.nop h (getS3 w))
  | _ => none

/-- The A cluster (R85): the instruction an opcode names, its fields read from the word. -/
def clusterAOp (op : Nat) (h : Hdr) (w : Word) : Option Instr :=
  match op with
  | 0x40 => some (.lds h (getL w))
  | 0x41 => some (.sts h (getL w))
  | 0x42 => some (.ldq h (getL w))
  | 0x43 => some (.stq h (getL w))
  | 0x44 => some (.satom h (getL w))
  | 0x45 => some (.ldg h (getL w))
  | 0x46 => some (.stg h (getL w))
  | 0x47 => some (.gatom h (getL w))
  | 0x48 => some (.cmo h (getL w))
  | 0x49 => some (.lbind h (getS3 w))
  | 0x4A => some (.acq h (getS3 w))
  | 0x4B => some (.rel h (getS3 w))
  | 0x4C => some (.fence h (getS3 w))
  | 0x4D => some (.gbar h (getS3 w))
  | 0x4E => some (.waitw h (getS3 w))
  | 0x4F => some (.wbind h (getS3 w))
  | 0x50 => some (.wadv h (getSI w))
  | 0x51 => some (.wrel h (getS3 w))
  | 0x52 => some (.ldw h (getL w))
  | 0x53 => some (.hbind h (getH w))
  | 0x54 => some (.hunb h (getH w))
  | 0x55 => some (.topen h (getS3 w))
  | 0x56 => some (.tseal h (getS3 w))
  | 0x57 => some (.tstat h (getS3 w))
  | 0x58 => some (.cpym h (getE w))
  | 0x59 => some (.cpys h (getE w))
  | 0x5A => some (.cgth h (getE w))
  | 0x5B => some (.csct h (getE w))
  | 0x5C => some (.cpgi h (getE w))
  | 0x5D => some (.rput h (getE w))
  | 0x5E => some (.rget h (getE w))
  | 0x5F => some (.gadd h (getE w))
  | 0x60 => some (.gamo h (getE w))
  | 0x61 => some (.gqop h (getE w))
  | 0x62 => some (.gred h (getE w))
  | 0x63 => some (.gaxpy h (getE w))
  | 0x64 => some (.gfen h (getE w))
  | 0x65 => some (.eqclr h (getE w))
  | 0x66 => some (.equ h (getE w))
  | 0x67 => some (.eqf h (getE w))
  | 0x68 => some (.eqz h (getE w))
  | 0x69 => some (.eqr h (getE w))
  | 0x6A => some (.eqsnp h (getE w))
  | 0x6B => some (.eqund h (getE w))
  | 0x6C => some (.deq h (getS3 w))
  | 0x6D => some (.engst h (getS3 w))
  | 0x6E => some (.spk h (getE w))
  | 0x6F => some (.eva h (getS3 w))
  | 0x70 => some (.evw h (getS3 w))
  | 0x71 => some (.evq h (getS3 w))
  | 0x72 => some (.tkenq h (getE w))
  | 0x73 => some (.tksig h (getS3 w))
  | _ => none

/-- The V cluster (R86): the instruction an opcode names, its fields read from the word. -/
def clusterVOp (op : Nat) (h : Hdr) (w : Word) : Option Instr :=
  match op with
  | 0x40 => some (.vadd h (getV3 w))
  | 0x41 => some (.vsub h (getV3 w))
  | 0x42 => some (.vmul h (getV3 w))
  | 0x43 => some (.vfma h (getV3 w))
  | 0x44 => some (.vfms h (getV3 w))
  | 0x45 => some (.vmin h (getV3 w))
  | 0x46 => some (.vmax h (getV3 w))
  | 0x47 => some (.vabs h (getV3 w))
  | 0x48 => some (.vneg h (getV3 w))
  | 0x49 => some (.vand h (getV3 w))
  | 0x4A => some (.vor h (getV3 w))
  | 0x4B => some (.vxor h (getV3 w))
  | 0x4C => some (.vshl h (getV3 w))
  | 0x4D => some (.vshr h (getV3 w))
  | 0x4E => some (.vsra h (getV3 w))
  | 0x4F => some (.vcmp h (getV3 w))
  | 0x50 => some (.kop h (getV3 w))
  | 0x51 => some (.kpop h (getV3 w))
  | 0x52 => some (.kmov h (getV3 w))
  | 0x53 => some (.vsel h (getV3 w))
  | 0x54 => some (.vrcp h (getV3 w))
  | 0x55 => some (.vsqrt h (getV3 w))
  | 0x56 => some (.vrsq h (getV3 w))
  | 0x57 => some (.vexp2 h (getV3 w))
  | 0x58 => some (.vlog2 h (getV3 w))
  | 0x59 => some (.vcvt h (getV3 w))
  | 0x5A => some (.vqmx h (getV3 w))
  | 0x5B => some (.vtbl h (getV3 w))
  | 0x5C => some (.vtblw h (getV3 w))
  | 0x5D => some (.vrotr h (getV3 w))
  | 0x5E => some (.vrotc h (getV3 w))
  | 0x5F => some (.vbcr h (getV3 w))
  | 0x60 => some (.vbcc h (getV3 w))
  | 0x61 => some (.vredr h (getV3 w))
  | 0x62 => some (.vredc h (getV3 w))
  | 0x63 => some (.vscanr h (getV3 w))
  | 0x64 => some (.vtrb h (getV3 w))
  | 0x65 => some (.vmov h (getV3 w))
  | 0x66 => some (.vspl h (getV3 w))
  | 0x67 => some (.viota h (getV3 w))
  | 0x68 => some (.vext h (getV3 w))
  | 0x69 => some (.vins h (getV3 w))
  | _ => none

/-- The M cluster (R87): the instruction an opcode names, its fields read from the word. -/
def clusterMOp (op : Nat) (h : Hdr) (w : Word) : Option Instr :=
  match op with
  | 0x40 => some (.mld h (getMF w))
  | 0x41 => some (.mlds h (getMF w))
  | 0x42 => some (.mswap h (getMF w))
  | 0x43 => some (.mma h (getMF w))
  | 0x44 => some (.mmas h (getMF w))
  | 0x45 => some (.mzero h (getMF w))
  | 0x46 => some (.manc h (getS3 w))
  | 0x47 => some (.mdr h (getDR w))
  | 0x48 => some (.mdrt h (getDR w))
  | 0x49 => some (.mest h (getS3 w))
  | 0x4A => some (.mstat h (getS3 w))
  | 0x4B => some (.mtblw h (getMF w))
  | 0x4C => some (.mtsc h (getS3 w))
  | _ => none

/-- The D cluster (R87): the instruction an opcode names, its fields read from the word. -/
def clusterDOp (op : Nat) (h : Hdr) (w : Word) : Option Instr :=
  match op with
  | 0x40 => some (.trec h (getH w))
  | 0x41 => some (.tupd h (getH w))
  | 0x42 => some (.tflsh h (getH w))
  | 0x43 => some (.dstat h (getS3 w))
  | _ => none

/-- The word of an instruction. Rows that are no words have none; 0, which is `ILL`, stands for them. -/
def encode (i : Instr) : Word :=
  match i with
  | .ill w => w
  | .unassignedOpcodeWord w => w
  | i =>
    match i.hdr? with
    | some h => (putHdr h i.opc ++ i.body : BitVec 64)
    | none => 0

/-- The instruction whose cluster tag and opcode a word carries, before its fields are checked (R84 to R88). -/
def parse (w : Word) : Instr :=
  let op := (w.extractLsb' 43 7).toNat
  let h := getHdr w
  if op = 0 then .ill w
  else
    let i? :=
      if op < 64 then sharedOp op h w
      else match Stream.ofCl h.cl with
        | .A => clusterAOp op h w
        | .V => clusterVOp op h w
        | .M => clusterMOp op h w
        | .D => clusterDOp op h w
    i?.getD (.unassignedOpcodeWord w)

/-- The instruction of a word, or why it is none (R88 to R90): its reserved bits are 0 exactly when it is the
encoding of what it parses to. -/
def decode (w : Word) : Except DecodeError Instr :=
  let i := parse w
  if encode i ≠ w then .error .reservedBits
  else if i.wf then .ok i
  else .error .illegalField

/-- The little-endian word that eight bytes hold (R2, R57). -/
def wordOfBytes (b : List Byte) : Word :=
  b.foldr (fun x acc => (acc <<< 8) ||| x.setWidth 64) 0

/-- The bytes of a word, least significant first (R2, R57). -/
def bytesOfWord (w : Word) : List Byte :=
  [w.extractLsb' 0 8, w.extractLsb' 8 8, w.extractLsb' 16 8, w.extractLsb' 24 8,
   w.extractLsb' 32 8, w.extractLsb' 40 8, w.extractLsb' 48 8, w.extractLsb' 56 8]

/-- The instruction at the front of a list of bytes, and the rest. -/
def decodeBytes : List Byte → Except DecodeError (Instr × List Byte)
  | b0 :: b1 :: b2 :: b3 :: b4 :: b5 :: b6 :: b7 :: rest =>
    (decode (wordOfBytes [b0, b1, b2, b3, b4, b5, b6, b7])).map (·, rest)
  | _ => .error .truncated

/-- The instruction the decoder reads from the bits w of a row (the host's interface): every instruction is one
64-bit word, stored little-endian. -/
def decodeTableWord (nbits w : Nat) : Option Instr :=
  if 64 < nbits then none
  else match decodeBytes (bytesOfWord (BitVec.ofNat 64 w)) with
    | .ok (i, _) => some i
    | .error _ => none

end Sys2Proof
end

