-- ==== Sys2Proof/Config.lean ====
section
/-! DEFINITION. What an implementation fixes and what the spec leaves open: opaque constants, so that no proof can
see a value. Each is named in the assumption log. -/
namespace Sys2Proof

/-- Whose move is next: a stream of a context issues, or another agent's step takes place. -/
inductive Turn where
  | issue (x : CtxRef) (st : Stream)
  | event (i : Instr)
  deriving DecidableEq, Repr, Inhabited

/-- The agent that moves when the agenda names none (log 1). -/
opaque Config.freeTurn : Nat → Turn
/-- Cycles by which sr.time advances after a step (log 2). -/
opaque Config.freeCycles : Nat → Nat
/-- The lag of a read of sr.time (R399), taken modulo 9 (log 4). -/
opaque Config.freeLag : Nat → Nat
/-- The way that a cache or TLB takes for a new line, among those it may use: the level, the line, the tick (R286, R417,
log 12). -/
opaque Config.freeWay : Nat → Nat → Nat → Nat
/-- The set of a line in a cache or TLB: the level, the line (R286, R417, log 12). -/
opaque Config.cacheSet : Nat → Nat → Nat
/-- A byte the spec leaves undefined (log 16 to 19). -/
opaque Config.freeByte : Nat → Byte
/-- A word the spec leaves undefined (log 16 to 19). -/
opaque Config.freeWord : Nat → Word
/-- Whether an access before an erroneous granule's limits decodes to another codeword (R304, log 20). -/
opaque Config.miscorrects : Nat → Bool
/-- The signature r then s of a digest under the device identity key (R475; log 6). -/
opaque Config.identitySign : List Byte → List Byte
/-- Whether a firmware image verifies under the fused key (R474; the image layout is not given; log 6). -/
opaque Config.imageVerifies : List Byte → Bool
/-- The version of a firmware image (R474; log 6). -/
opaque Config.imageVersion : List Byte → Nat
/-- The fused rollback counter (R474, R475; log 6). -/
opaque Config.rollback : Word
/-- The public half of the device identity key, x then y (R459, R475; log 6). -/
opaque Config.identityKey : List Byte
/-- Populated bytes behind root port p (R411, R466; log 10). -/
opaque Config.expanderBytes : Nat → Nat
/-- The hash that picks a port of a route mask: core, sequence number (R469; log 9). -/
opaque Config.linkHash : Nat → Nat → Nat
/-- The device identifier that firmware writes during bring-up (R469, R474; log 9). -/
opaque Config.deviceId : BitVec 22
/-- How many registers the management core has in a scan chain (R410, log 28). -/
opaque Config.chainLength : Nat → Nat

end Sys2Proof
end

