-- ==== Sys2Proof/Machine/State.lean ====
section
/-! DEFINITION. The state of the whole device as plain data: every piece of state the spec names, with the model's
own few fields (agenda, cursor, tick, note, rendezvous) in `Model`. Sparse state is a `Tab`; what an unlisted key
reads as is said where the table is read (Machine/Ops.lean). -/
namespace Sys2Proof.Machine

/-- Why the machine stops. -/
inductive Fault where
  /-- Raised by `step` after `THERMAL_POWER_OFF`: power is removed and the state is lost (R476), so the spec gives
  no further effect until a package reset. Safe: the model stops where the hardware has no power. -/
  | stateLost
  deriving DecidableEq, Repr

/-- Why a step has no meaning. -/
inductive Refusal where
  /-- Raised by an arm of `exec` for an instruction that has no meaning yet. Safe: nothing is claimed of it. -/
  | notModelled (mnemonic : String)
  deriving DecidableEq, Repr

/-- What a word of a stream waits for (R112, R425). -/
inductive Why where
  | token | queue | slot | register | sync | delay | push | headRecord | crossing | tier | migrating | resultFifo | credit
  | cxl | damper | earlier | engine | latch | barrier | record | event | row | epoch | notRunning
  /-- an access to this address at an expander that does not respond (R466) -/
  | expander (va : Word)
  deriving DecidableEq, Repr

/-- MODEL's own: what the last word tried did. -/
inductive Note where
  | idle
  | issued
  | waiting (why : Why)
  /-- the word has issued and goes on later -/
  | going (why : Why)
  | trapped (cause : BitVec 8)
  deriving DecidableEq, Repr

/-- A scalar queue entry (R116). -/
structure QEnt where
  val : Word
  valid : Bool
  deriving DecidableEq, Repr

/-- A row queue entry (R116). -/
structure RowEnt where
  lanes : Row
  mask : BitVec 64
  deriving DecidableEq, Repr

/-- A place in a queue: an entry, or a slot reserved at issue whose push has not taken effect (R117). -/
inductive Slot (α : Type) where
  | full (a : α)
  | held (tag : Nat)
  deriving DecidableEq, Repr

/-- Where a result goes that arrives after its word has issued (R117, R130, R336). -/
inductive Dst where
  | none
  | reg (n : Nat)
  | queue (q : Nat) (tag : Nat)
  deriving DecidableEq, Repr

/-- Progress of a word that works entry by entry or row by row (R117, R246, R280, R344). -/
structure Prog where
  /-- entries or rows done -/
  k : Nat
  /-- entries of the whole word -/
  n : Nat
  /-- address of element 0, when the word has read it at this issue -/
  base : Option Word
  deriving DecidableEq, Repr

/-- One stream of a context (R10, R436). -/
structure StreamSt where
  /-- scalar registers; unlisted reads 0 (R447) -/
  regs : Tab Word
  pc : Word
  /-- level P (R396) -/
  plev : Bool
  halted : Bool
  /-- g0 to g7; bit 0 is read as 1 (R119) -/
  guards : BitVec 8
  fpmode : Word
  cause : Word
  epc : Word
  tval : Word
  tvec : Word
  mloop : Word
  mround : Word
  mtrip : Word
  psave0 : Word
  psave1 : Word
  /-- MODEL's own: the sequencer runs (a handler keeps `mloop` while it is false) -/
  inBody : Bool
  /-- token FIFOs still to be pushed by the last word's PA (R115) -/
  owed : BitVec 2
  /-- sr.time at which a `WAIT` delay ends (R145) -/
  wakeAt : Option Word
  /-- progress of the word at pc -/
  prog : Option Prog
  /-- the yielding wait at pc (R22, R431) -/
  waiting : Option Instr
  /-- what the word at pc was found waiting for -/
  stalled : Option Why
  deriving DecidableEq, Repr

/-- The context's special registers that are not kept elsewhere (R397). -/
structure CtxSr where
  /-- sr.status flags (R51) -/
  flags : BitVec 5
  lfsr : BitVec 32
  syncmask : BitVec 4
  seq : BitVec 16
  npd : Word
  pkp : Word
  /-- sr.perm p; unlisted reads 0x00FA_C688 (R71) -/
  perm : Tab Word
  vtid : Word
  dtid : Word
  eqpar : Word
  eqsz : Word
  eqlog : Word
  /-- sr.eqst.used and depth (R329) -/
  eqUsed : Nat
  eqDepth : Nat
  /-- sr.eqw0 to sr.eqw7; unlisted reads 0 -/
  eqw : Tab Word
  spkin : Word
  evRef : Nat
  evDrop : Nat
  inject : Word
  /-- an injection that an `SRW` started and that is not done (R407) -/
  injecting : Bool
  pkmask : BitVec 32
  tdir : Word
  mrow : Word
  bdone : Word
  /-- the burst count saved with sr.bdone (R280) -/
  bcount : Nat
  /-- the address of element 0 that the stopped burst has read (R280) -/
  bbase : Option Word
  tst : Bool
  deriving DecidableEq, Repr

/-- A window shape (R388). -/
structure WinShape where
  rows : Nat
  rowBytes : Nat
  ringRows : Nat
  ring : Nat
  rw : Bool
  faultPol : Bool
  deriving DecidableEq, Repr

/-- What the bind record and the kernel descriptor fix (R387, R445, R447). -/
structure Binding where
  vdev : Nat
  task : Word
  kdesc : Word
  stats : Word
  comp : Word
  recAddr : Word
  det : Nat
  dormant : Bool
  rank : Nat
  gsize : Nat
  split : Nat
  second : Bool
  /-- scratchpad partition in bytes (R272) -/
  sbase : Nat
  ssize : Nat
  lq : Nat
  weight : Nat
  /-- entry point, text base and text size of stream n (R387) -/
  entry : Tab Word
  textBase : Tab Word
  textSize : Tab Word
  /-- feat[0]: both stationary buffers (R222) -/
  twoBuf : Bool
  /-- first slot and number of slots of the accumulator partition (R222) -/
  slot0 : Nat
  slots : Nat
  wins : Tab WinShape
  deriving DecidableEq, Repr

/-- The vector unit's state (R150). -/
structure VecSt where
  /-- row r of v(n) at 16n + r; unlisted rows read 0 -/
  regs : Tab Row
  /-- row r of k(n) at 16n + r; k0 reads all ones -/
  masks : Tab (BitVec 64)
  tbl : Tab (BitVec 16)
  deriving DecidableEq, Repr

/-- An accumulator entry (R42). -/
structure AccEnt where
  v : BitVec 104
  sticky : Bool
  ovf : Bool
  deriving DecidableEq, Repr

/-- A stationary buffer (R221, R437): element S[i][j] at 64i + j as its encoding × 2^16 + its code, tbl8 held as its
BF16 value; unlisted reads +0. -/
structure StatBuf where
  codes : Tab (BitVec 20)
  /-- E8M0 scale of column j, block b at 2j + b; unlisted reads 127 -/
  scales : Tab Byte
  tag : Nat
  enc : Option Nat
  deriving DecidableEq, Repr

/-- What a row word of M that a trap has stopped between rows keeps for its resume (R53, R246): its address, its damper
grant, the bytes it holds, the flags it has raised, its next draw. -/
structure RowHold where
  word : Word
  granted : Bool
  held : Option (List Byte)
  fl : BitVec 5
  own : Option (BitVec 32)
  deriving DecidableEq, Repr

/-- The matrix state (R221). -/
structure MatSt where
  /-- buffer b of array a at 2a + b -/
  bufs : Tab StatBuf
  /-- which buffer of array a is in front (R231) -/
  front : Tab Nat
  /-- row r of tile c at 64c + r -/
  tiles : Tab (List AccEnt)
  /-- anchor of tile c, as a 16-bit pattern (R42) -/
  anchors : Tab (BitVec 16)
  /-- ts registers; unlisted reads 1.0, identifier 0 (R237) -/
  ts : Tab Word
  tbl : Tab (BitVec 16)
  /-- E of the last grant on array a (R249) -/
  lastE : Tab Nat
  /-- address of the word that the next six fields belong to (R246) -/
  word : Word
  /-- the damper has granted it (R248) -/
  granted : Bool
  /-- what it asks of the damper: array, E, charge (R248) -/
  ask : List (Nat × Nat × Nat)
  /-- cycles it has waited for the damper (R248) -/
  dwait : Nat
  /-- bytes of the record it has consumed, or is building, and not used up (R246) -/
  held : Option (List Byte)
  /-- flags its drain has raised (R53) -/
  fl : BitVec 5
  /-- its next draw, once it waits between rows and sr.lfsr has passed over the draws it has still to take (R39) -/
  own : Option (BitVec 32)
  /-- the word that a trap has stopped between rows, while its handler runs (R246) -/
  parked : Option RowHold
  dstall : Word
  fstall : Word
  rows : Tab Word
  deriving DecidableEq, Repr

/-- A head's mode (R191, R192). -/
inductive HMode where
  | read | rmw | overwrite | zeroFill | recorder
  deriving DecidableEq, Repr

/-- A record that a flue holds (R211, R214), with the keys of the pages it was read through and the address of each
access (R406). -/
structure FlueRec where
  idx : Nat
  bytes : List Byte
  poison : Bool
  keys : List (Nat × Nat)
  /-- where its bytes come from: sector, offset in the record, number; and 1 + the tick at which they were read (R189) -/
  parts : List (Nat × Nat × Nat)
  since : Nat
  deriving DecidableEq, Repr

/-- A head's page register (R213, R417). -/
structure PageReg where
  /-- page of the page list, and the virtual address that its entry gives -/
  page : Nat
  base : Nat
  /-- key and address of the page-list entry's own page -/
  listKey : Nat × Nat
  /-- first virtual address and size of the translation, its leaf, and where the leaf lies -/
  va : Nat
  size : Nat
  leaf : Word
  pte : Nat
  deriving DecidableEq, Repr

/-- Why a flue does not go on (R213, R364): the offsets lo to hi − 1 of a page of the page list. -/
inductive HStop where
  | none
  /-- a CXL page without stream-tier, at a virtual address -/
  | tier (page lo hi va : Nat)
  /-- the fault to be taken by the word that needs the bytes: at a page-list entry, with its address, or at the page,
  with the page's address -/
  | fault (page lo hi : Nat) (cause : BitVec 8) (list : Bool) (va : Nat)
  deriving DecidableEq, Repr

/-- A head (R191). -/
structure Head where
  bound : Bool
  handle : Nat
  owner : Stream
  back : Bool
  mode : HMode
  v : Int
  mk0 : Int
  mk1 : Int
  mk2 : Int
  mk3 : Int
  flue : List FlueRec
  cur : Option PageReg
  nxt : Option PageReg
  stop : HStop
  deriving DecidableEq, Repr

/-- A latch slot (R258). -/
structure Latch where
  latch : Word
  base : Word
  n : Nat
  scope : Nat
  deriving DecidableEq, Repr

/-- A bound window slot (R287). -/
structure Win where
  base : Word
  stride : Word
  origin : Nat
  vio : Nat
  deriving DecidableEq, Repr

/-- A fill of a window row (R289), with sr.pkp as its word issued (R406). -/
structure Fill where
  id : Nat
  /-- window slot; 16 once the window is released -/
  slot : Nat
  row : Nat
  /-- address of the row in memory, its bytes, its offset in scratchpad -/
  va : Nat
  n : Nat
  off : Nat
  /-- the row lies beyond the bound: zeros -/
  zero : Bool
  pkp : Word
  /-- complete, and not yet read by an `LDW` (R293) -/
  done : Bool
  /-- offsets of the partition that an `STS` has written since the fill started (R293) -/
  touched : List Nat
  deriving DecidableEq, Repr

/-- A fault held against a window row (R289), with the offset and the bytes of its ring slot. -/
structure RowFault where
  slot : Nat
  row : Nat
  off : Nat
  n : Nat
  cause : BitVec 8
  va : Word
  /-- its walk has met a poisoned table (R415) -/
  poisoned : Bool
  /-- an `LDW` has taken it -/
  taken : Bool
  /-- offsets of the partition that an `STS` has written since the first fill of the row started (R293) -/
  touched : List Nat
  deriving DecidableEq, Repr

/-- Where an access is performed (R257, R283): through the caches, at the MSC, at the window. -/
inductive Path where
  | cached | msc | window
  deriving DecidableEq, Repr

/-- A store that has not left the store buffer (R257). -/
structure StoreEnt where
  id : Nat
  va : Nat
  pa : Nat
  /-- tag of its page (R306) -/
  tag : Nat
  path : Path
  /-- bytes by offset -/
  bytes : List (Nat × Byte)
  deriving DecidableEq, Repr

/-- What a load delivers (R275, R281). -/
inductive LoadKind where
  | plain (size : Nat) (signed : Bool)
  | row
  | atomic (op : Nat) (size : Nat) (signed : Bool) (v : Word) (cmp : Word)
  deriving DecidableEq, Repr

/-- What a load reads from one page: offset and length, physical address, tag of the page (R306), path. -/
structure Seg where
  off : Nat
  n : Nat
  pa : Nat
  tag : Nat
  path : Path
  deriving DecidableEq, Repr

/-- A load or atomic that has not returned its value (R285). -/
structure LoadEnt where
  id : Nat
  va : Nat
  segs : List Seg
  kind : LoadKind
  dst : Dst
  /-- parts still to return, as offset and length (R256) -/
  parts : List (Nat × Nat)
  /-- bytes returned, by offset -/
  got : Tab Byte
  /-- the A stream has taken the cause of a poisoned part of it, and has not come back to it since (R305, R425) -/
  late : Bool
  deriving DecidableEq, Repr

/-- A piece of a record write: its address, where its page lies, the page's tag (R306), its bytes. -/
structure WPiece where
  va : Nat
  pa : Nat
  tag : Nat
  bytes : List Byte
  deriving DecidableEq, Repr

/-- A record write that has not been performed (R189). -/
structure HeadWrite where
  id : Nat
  hd : Nat
  handle : Nat
  idx : Nat
  pieces : List WPiece
  dstream : Bool
  deriving DecidableEq, Repr

/-- A scratchpad range of a command (R314). -/
structure Range where
  lo : Nat
  len : Nat
  write : Bool
  deriving DecidableEq, Repr

/-- A translated piece of an access of an engine: its virtual and physical address, its length, the tag of its page (R306), its
path. -/
structure CTgt where
  va : Nat
  pa : Nat
  n : Nat
  tag : Nat
  path : Path
  deriving DecidableEq, Repr

/-- An engine command that has not retired (R307 to R314). -/
structure Cmd where
  seq : BitVec 16
  opc : Nat
  preds : List (BitVec 16)
  cancel : Option (BitVec 16)
  o1 : Word
  o2 : Word
  o3 : Word
  fl : BitVec 9
  dst : Dst
  ranges : List Range
  /-- the guard of the word and its sense (R371) -/
  g : Nat
  gn : Bool
  /-- lanes popped by an `EQR` with a queue source, and entries still to come (R344) -/
  vals : List Lane
  need : Nat
  /-- `GFEN` words of the context issued before it (R325, R455) -/
  epoch : Nat
  /-- runs of unions closed before it (R332) -/
  run : Nat
  /-- it has left its core: accepted (R318, R264) -/
  left : Bool
  /-- the scratchpad source read as a grate command leaves (R318) -/
  src : List Byte
  /-- a transfer with a peer is under way (R359, R471) -/
  sent : Bool
  /-- it performs its acts one by one, each in its place of the order log (R457), at the pages that it has found as it
  started: what it reads, and what it writes (R318, R356, R357) -/
  begun : Bool
  reads : List CTgt
  writes : List CTgt
  /-- acts it has performed so far, where it performs them one by one: sectors (R457), pages of a `CPGI` (R361) -/
  acts : Nat
  /-- what its record will count so far: bytes, pages -/
  aux : Nat
  /-- the page of a `CPGI` that is under way (R361): its size once the first is known, the frame taken from the pool, the
  sectors of it that stand in the order log -/
  size : Nat
  frame : Option Nat
  logged : Nat
  deriving DecidableEq, Repr

/-- A completion record (R311), with the sectors that its effects wrote (R267). -/
structure CRec where
  info : Word
  value : Word
  sectors : List Nat
  deriving DecidableEq, Repr

/-- The engines' state of a context (R310 to R320, R348). -/
structure EngSt where
  cmds : List Cmd
  /-- result FIFOs by engine: 0 copy, 1 equivalence, 2 grate -/
  recs : Tab (List CRec)
  /-- numbers of the last failed commands (R313) -/
  failed : List (BitVec 16)
  /-- GADD and GAXPY failures not reported: number, seq and status of the first (R320, R325) -/
  gfail : Nat
  gfailSeq : BitVec 16
  gfailStatus : Byte
  /-- GFEN words issued, and GFEN words that have left the core (R455) -/
  gfens : Nat
  gfensLeft : Nat
  /-- pending equivalence failure: cause, tval, seq (R348) -/
  eqFail : Option (BitVec 8 × Word × BitVec 16)
  /-- an `EQU` has issued since the last run-closing word (R332) -/
  runOpen : Bool
  /-- runs of unions that have been closed, and that have ended (R332) -/
  runs : Nat
  ended : Nat
  /-- what copy and equivalence commands have written into declared rings and no `DEQ` has ordered (R293): engine, number of
  the command, offset, length -/
  ringWrites : List (Nat × BitVec 16 × Nat × Nat)
  deriving DecidableEq, Repr

/-- The run state of a context (R425, R427, R431, R369). -/
inductive Run where
  | ready
  /-- being stopped for a bank switch, for an answer of Polpen, for a save -/
  | stopping (fault : Bool)
  | stopped
  | dormant
  deriving DecidableEq, Repr

/-- A bound context. -/
structure Ctx where
  bd : Binding
  run : Run
  /-- a fault record of the context awaits its answer, and holds cause 0x62 (R429) -/
  unanswered : Bool
  machineChecked : Bool
  /-- the streams that have escalated in the record being gathered (R428); those of them whose walk has met a poisoned table
  (R415); that of a held fault which a word is taking -/
  smask : BitVec 4
  wmark : BitVec 4
  rowMark : Option Bool
  a : StreamSt
  v : StreamSt
  m : StreamSt
  d : StreamSt
  sr : CtxSr
  sq : Tab (List (Slot QEnt))
  rq : Tab (List (Slot RowEnt))
  tok : Tab Nat
  vec : VecSt
  mat : MatSt
  heads : Tab Head
  /-- row entries popped by an unfinished TREC or TUPD (R200, R219) -/
  dpopped : List RowEnt
  /-- the next draw of that `TUPD`, once sr.lfsr has passed over its draws (R39) -/
  dlfsr : Option (BitVec 32)
  /-- both, of a word that a trap has stopped with its entries popped, while its handler runs (R404) -/
  dparked : Option (List RowEnt × Option (BitVec 32))
  hwrites : List HeadWrite
  xw : Word
  wr : Word
  latches : Tab (Option Latch)
  /-- barriers departed, and barriers arrived at (R263) -/
  gbars : Nat
  garrived : Nat
  wins : Tab (Option Win)
  fills : List Fill
  rowFaults : List RowFault
  stores : List StoreEnt
  loads : List LoadEnt
  /-- an ordered atomic has issued: the A stream waits for its loads (R282) -/
  fenced : Bool
  /-- what the PA of an ordered atomic owes, while the handler of its cause 0x1B runs (R282, R305) -/
  fparked : Option (BitVec 2)
  /-- more than 256 accesses of the core beyond its L2 to an expander: the A stream waits (R285) -/
  cxlOver : Bool
  /-- stopped while a context of its gang is saved (R17) -/
  held : Bool
  /-- MODEL's own: the number of the next store, load, head write or reserved slot -/
  nextId : Nat
  eng : EngSt
  evq : List (Word × Word)
  /-- handler addresses of the armed classes (R368) -/
  arms : Tab Word
  signalled : Bool
  /-- a dormant context has been started and not returned (R369) -/
  started : Bool
  deriving DecidableEq, Repr

/-- A saved context (R219, R434): the place and the area of its save, and what the device still holds of it (its unretired
commands, its heads, whether its last record is answered). -/
structure Saved where
  x : CtxRef
  area : Nat
  k : Ctx
  deriving DecidableEq, Repr

/-- A cached sector (R257, R299). -/
structure Sec where
  data : Sector
  dirty : Bool
  poison : Bool
  /-- 1 + g + 4 × ms of the page it is held for, 0 for an access without a leaf (R299, R301, R306) -/
  tag : Nat
  deriving DecidableEq, Repr

/-- A held translation (R417). -/
structure TlbEnt where
  /-- core number for a core TLB, stove number for a stove TLB -/
  owner : Nat
  vdev : Nat
  /-- first virtual address of the page and its size in bytes -/
  va : Nat
  size : Nat
  leaf : Word
  pte : Nat
  deriving DecidableEq, Repr

/-- A queued or bound task record (R440, R441). -/
structure Task where
  vdev : Nat
  queue : Nat
  /-- index of its slot in the ring, and its physical address -/
  index : Nat
  addr : Nat
  seq : Word
  kdesc : Word
  prio : Nat
  n : Nat
  det : Nat
  dorm : Word
  stats : Word
  comp : Word
  preds : List Word
  args : Word
  ready : Bool
  bound : Bool
  /-- bound or completed without binding: the slot is free (R439) -/
  out : Bool
  deriving DecidableEq, Repr

/-- A bound task's gang, with its task flags and counters (R17, R54, R55, R374). -/
structure Gang where
  vdev : Nat
  task : Word
  stats : Word
  comp : Word
  det : Nat
  /-- contexts by rank that are not dormant, as core and bank -/
  members : List CtxRef
  dormants : List CtxRef
  /-- signals: rank, status, value; those of dormant contexts apart -/
  signals : List (Nat × Byte × Word)
  dsignals : List (Nat × Byte × Word)
  ended : List Nat
  flags : BitVec 5
  /-- counters: saturations at n, flushes at 256 + n, NaNs at 512 + n (R55) -/
  counts : Tab Nat
  /-- status of Polpen's end answer (R429) -/
  endStatus : Option Byte
  /-- the task has completed (R444) -/
  done : Bool
  deriving DecidableEq, Repr

/-- A fault record waiting to be written (R428, R430), as its 16 dwords. -/
structure FRec where
  words : List Word
  /-- a walk of it has met a poisoned table (R415); the layout of R428 has no field for it (log 55) -/
  poisoned : Bool
  deriving DecidableEq, Repr

/-- A page whose held translation a shootdown has dropped (R420). -/
structure Span where
  vdev : Nat
  va : Nat
  size : Nat
  frame : Nat
  deriving DecidableEq, Repr

/-- A shootdown in progress (R420). -/
structure Shootdown where
  cl : Bool
  kind : Nat
  vdev : Nat
  va : Nat
  bytes : Nat
  /-- the pages of the entries that it has dropped -/
  spans : List Span
  deriving DecidableEq, Repr

/-- A link port (R467, R468, R472, R473). -/
structure Link where
  up : Bool
  retraining : Bool
  retrains : Nat
  resends : Nat
  rxSeq : Word
  /-- a resend from `rxSeq` has been asked for -/
  asked : Bool
  txSeq : Word
  /-- flits kept until acknowledged, with how often each has been sent again -/
  kept : List (Flit × Nat)
  /-- payload that waits for its commit mark, a mark that waits for its place in the order log or for an expander, a spark that
  waits for the rest of its payload (R457, R466, R467, R471) -/
  pend : List LinkMsg
  /-- commands of peers that have been refused: device, context, number -/
  refused : List (Nat × CtxRef × BitVec 16)
  /-- the transmit key in force, as four dwords; a next key has been written that is not in force yet; a key switch has occurred;
  flits sent since the key in force took effect (R473) -/
  key : List Word
  keyNew : Bool
  switched : Bool
  under : Nat
  deriving DecidableEq, Repr

/-- A remote copy under way at this device (R359, R471). -/
structure Xfer where
  x : CtxRef
  seq : BitVec 16
  port : Nat
  total : Nat
  /-- bytes sent or asked for so far, and bytes counted as written -/
  off : Nat
  count : Nat
  isGet : Bool
  /-- the port has failed under it -/
  lost : Bool
  /-- pieces here: virtual and physical address, length, tag of the page; none for scratchpad -/
  loc : List (Nat × Nat × Nat × Nat)
  /-- pieces at the peer: virtual address, length, device, its virtual device -/
  rem : List (Nat × Nat × Nat × Nat)
  deriving DecidableEq, Repr

/-- A mailbox (R460). -/
structure Mail where
  bytes : List Byte
  /-- mbcmd: a message stands in the mailbox and has no answer yet; its length -/
  go : Bool
  len : Nat
  status : Byte
  tag : BitVec 16
  deriving DecidableEq, Repr

/-- The host port, the boot ROM and the security block (R458 to R463, R474, R475). -/
structure HostSt where
  ready : Bool
  recovery : Bool
  boot : Byte
  enabled : Bool
  flash : Tab Byte
  imageSize : Nat
  mail : Tab Mail
  /-- MSI-X raised: function, vector (R459, R460) -/
  msix : List (Nat × Nat)
  /-- key slot k of device v at 4v + k: 64 bytes, or absent (R463) -/
  keys : Tab (List Byte)
  require : List Nat
  /-- the completion of the host's last aperture read (R464) -/
  readData : List Byte
  aborted : Bool
  deriving DecidableEq, Repr

/-- The Brotin port (R410). -/
structure Jtag where
  ir : Byte
  chain : Nat
  /-- the data register shifted out, least significant bit first, as dwords -/
  dr : List Word
  deriving DecidableEq, Repr

/-- MODEL's own: what makes one deterministic step of many agents. -/
structure Model where
  agenda : List Turn
  cur : CtxRef
  curSt : Stream
  tick : Nat
  note : Note
  /-- the rendezvous set that is issuing (R113), and its context as it stood before its words issued (R114) -/
  rdv : BitVec 4
  view : Option Ctx
  timeSeen : Nat
  deriving DecidableEq, Repr

/-- The memory system: memory, caches, translations, scratchpads. -/
structure MemSt where
  /-- bytes by physical address; unlisted reads 0 (R474, log 11) -/
  mem : List Host.Cell
  /-- poisoned sectors of HBM and CXL (R305, R363), by sector number -/
  poison : List Nat
  /-- symbols in error, at the byte that each stands at (R303, R304, R407) -/
  symErr : Tab Nat
  /-- failed pseudo-channels, 32 × quadrant + channel (R304) -/
  deadPc : List Nat
  /-- 1 + g + 4 × ms under which a sector of HBM was written, 0 for a scrubbed one (R306) -/
  tags : Tab Nat
  /-- 1 + the tick at which a sector was last written by another path than a head, 0 for one that a head has overwritten
  since (R189) -/
  alien : Tab Nat
  msc : Tab Sec
  /-- way of each 512-byte line of the MSCs (R286, R453) -/
  mscLine : Tab Nat
  /-- lines of the MSCs that were inserted as least recently used, and not used since, the last one first (R453) -/
  mscLow : List Nat
  /-- L2 of stove s at s × 2^46 + sector -/
  l2 : Tab Sec
  /-- way of each 512-byte line of the L2 of stove s, at s × 2^46 + line, and the device that allocated it (R286, R452) -/
  l2Line : Tab (Nat × Nat)
  /-- L1 of core c at c × 2^46 + sector -/
  l1 : Tab Sec
  /-- sectors of the L1 of core c, the last used first (R286) -/
  l1Use : Tab (List Nat)
  coreTlb : List TlbEnt
  stoveTlb : List TlbEnt
  /-- scratchpad of core c at c × 2^22 + offset; unlisted reads 0 -/
  spad : List Host.Cell
  /-- scrub requests, oldest first, as address and size code: the first 64 are queued and their frames marked, the others are
  writes that are held (R423) -/
  scrubs : List Word
  /-- expanders that have stopped responding (R466) -/
  expDown : List Nat
  deriving DecidableEq, Repr

/-- The device. -/
structure State where
  md : Model
  /-- sr.time (R399) -/
  time : Nat
  frozen : Bool
  off : Bool
  host : HostSt
  jtag : Jtag
  /-- device control space (R408); unlisted offsets read their reset value -/
  ctl : Tab Word
  /-- damper level of stove s (R248) -/
  damper : Tab Nat
  /-- bank that core c runs (R431) -/
  running : Tab Nat
  ms : MemSt
  ctxs : List (Nat × Ctx)
  gangs : List Gang
  tasks : List Task
  /-- completion map: device, sequence number (R441) -/
  complete : List (Nat × Word)
  /-- records of queue q accepted (R441) -/
  accepted : Tab Nat
  frecs : List FRec
  sd : Option Shootdown
  /-- matched order-log entries: device, index (R457) -/
  matched : List (Nat × Nat)
  links : Tab Link
  xfers : List Xfer
  saved : List Saved
  deriving DecidableEq, Repr

/-- A head that is not bound (R206). -/
def Head.unbound : Head :=
  { bound := false, handle := 0, owner := .A, back := false, mode := .read, v := 0, mk0 := 0, mk1 := 0, mk2 := 0, mk3 := 0,
    flue := [], cur := none, nxt := none, stop := .none }

/-- A stream at bind but for its pc, sr.tvec and a0 (R447). -/
def StreamSt.init (pc tvec : Word) : StreamSt :=
  { regs := [], pc := pc, plev := false, halted := false, guards := 1, fpmode := 0, cause := 0, epc := 0, tval := 0,
    tvec := tvec, mloop := 0, mround := 0, mtrip := 0, psave0 := 0, psave1 := 0, inBody := false, owed := 0,
    wakeAt := none, prog := none, waiting := none, stalled := none }

/-- The context's special registers at bind (R397). -/
def CtxSr.init (tdir : Word) (tst : Bool) : CtxSr :=
  { flags := 0, lfsr := 1, syncmask := 0, seq := 0, npd := 0x4000, pkp := 0, perm := [], vtid := 0, dtid := 0, eqpar := 0,
    eqsz := 0, eqlog := 0, eqUsed := 0, eqDepth := 0, eqw := [], spkin := 0, evRef := 0, evDrop := 0, inject := 0,
    injecting := false, pkmask := 0xFFFFFFFF, tdir := tdir, mrow := 0, bdone := 0, bcount := 0, bbase := none, tst := tst }

/-- The engines' state at bind. -/
def EngSt.init : EngSt :=
  { cmds := [], recs := [], failed := [], gfail := 0, gfailSeq := 0, gfailStatus := 0, gfens := 0, gfensLeft := 0,
    eqFail := none, runOpen := false, runs := 0, ended := 0, ringWrites := [] }

/-- A stationary buffer at bind (R221). -/
def StatBuf.clear : StatBuf := { codes := [], scales := [], tag := 0, enc := none }

/-- The matrix state at bind; a context with one buffer per array has its bank's in front (R222). -/
def MatSt.init (twoBuf : Bool) (bank : Bool) : MatSt :=
  let f := if twoBuf then [] else if bank then [(0, 1), (1, 1), (2, 1)] else []
  { bufs := [], front := f, tiles := [], anchors := [], ts := [], tbl := [], lastE := [], word := 0, granted := false, ask := [],
    dwait := 0, held := none, fl := 0, own := none, parked := none, dstall := 0, fstall := 0, rows := [] }

/-- A context as it is bound (R447); `pcs` and `tvecs` by stream number. -/
def Ctx.init (bd : Binding) (bank : Bool) (tdir : Word) (tst : Bool) (args : Word) (pcs tvecs : Nat → Word) : Ctx :=
  { bd := bd, run := if bd.dormant then .dormant else .ready, unanswered := false, machineChecked := false, smask := 0,
    wmark := 0, rowMark := none,
    a := { StreamSt.init (pcs 0) (tvecs 0) with regs := if args = 0 then [] else [(0, args)] },
    v := StreamSt.init (pcs 1) (tvecs 1), m := StreamSt.init (pcs 2) (tvecs 2), d := StreamSt.init (pcs 3) (tvecs 3),
    sr := CtxSr.init tdir tst, sq := [], rq := [], tok := [], vec := { regs := [], masks := [], tbl := [] },
    mat := MatSt.init bd.twoBuf bank, heads := [], dpopped := [], dlfsr := none, dparked := none, hwrites := [], xw := 0, wr := 0, latches := [],
    gbars := 0, garrived := 0, wins := [], fills := [], rowFaults := [], stores := [], loads := [], fenced := false, fparked := none,
    cxlOver := false, held := false, nextId := 0,
    eng := EngSt.init, evq := [], arms := [], signalled := false, started := false }

/-- The machine right after package reset: no context is bound, memory is scrubbed, the control space holds its
reset values (R408, R447, R450, R452, R453, R474). -/
def State.reset : State :=
  { md := { agenda := [], cur := ⟨0, false⟩, curSt := .A, tick := 0, note := .idle, rdv := 0, view := none, timeSeen := 0 },
    time := 0, frozen := false, off := false,
    host := { ready := false, recovery := false, boot := 0, enabled := false, flash := [], imageSize := 0, mail := [],
              msix := [], keys := [], require := [], readData := [], aborted := false },
    jtag := { ir := 0x01, chain := 0, dr := [0x17192A8B] },
    ctl := [], damper := [], running := [],
    ms := { mem := [], poison := [], symErr := [], deadPc := [], tags := [], alien := [], msc := [], mscLine := [], mscLow := [], l2 := [], l2Line := [], l1 := [],
            l1Use := [], coreTlb := [], stoveTlb := [], spad := [], scrubs := [], expDown := [] },
    ctxs := [], gangs := [], tasks := [], complete := [], accepted := [], frecs := [], sd := none, matched := [],
    links := [], xfers := [], saved := [] }

end Sys2Proof.Machine
end

