-- ==== Sys2Proof/Machine/Tab.lean ====
section
/-! DEFINITION. Tables, bit fields and byte order: the plain helpers that every operation is written over. -/
namespace Sys2Proof.Machine

/-- Read a key of a table; an unlisted key reads the default `d`. -/
def tget {α : Type} (d : α) : Tab α → Nat → α
  | [], _ => d
  | (k', v) :: t, k => if k = k' then v else tget d t k

/-- Find a key. -/
def tfind {α : Type} : List (Nat × α) → Nat → Option α
  | [], _ => none
  | (k', v) :: t, k => if k = k' then some v else tfind t k

/-- Write a key of a table without default, keys strictly rising. -/
def tins {α : Type} : List (Nat × α) → Nat → α → List (Nat × α)
  | [], k, v => [(k, v)]
  | (k', v') :: t, k, v =>
    if k < k' then (k, v) :: (k', v') :: t
    else if k = k' then (k, v) :: t
    else (k', v') :: tins t k v

/-- Remove a key. -/
def tdel {α : Type} (t : List (Nat × α)) (k : Nat) : List (Nat × α) := t.filter fun p => p.1 != k

/-- Write a key, keeping the canonical form: keys strictly rising, no value equal to the default. -/
def tset {α : Type} [DecidableEq α] (d : α) (t : Tab α) (k : Nat) (v : α) : Tab α :=
  if v = d then tdel t k else tins (tdel t k) k v

/-- Keys strictly rising, above `lo`, no value equal to the default. -/
def twfFrom {α : Type} [DecidableEq α] (d : α) : Option Nat → Tab α → Bool
  | _, [] => true
  | lo, (k, v) :: t => (match lo with | none => true | some l => decide (l < k)) && decide (v ≠ d) && twfFrom d (some k) t

/-- The canonical form of a table with default `d`. -/
def twf {α : Type} [DecidableEq α] (d : α) (t : Tab α) : Bool := twfFrom d none t

/-- Field of n bits at bit lo, as a number (R2). -/
def bits (w : Word) (lo n : Nat) : Nat := (w.toNat >>> lo) % 2 ^ n

/-- Bit n. -/
def bitAt (w : Word) (n : Nat) : Bool := w.getLsbD n

/-- A number as a word, modulo 2^64. -/
def W (n : Nat) : Word := BitVec.ofNat 64 n

/-- An integer as a word, modulo 2^64. -/
def WI (n : Int) : Word := BitVec.ofInt 64 n

/-- 1 for true. -/
def b2n (b : Bool) : Nat := if b then 1 else 0

/-- The numbers 0 to n − 1. -/
def upTo (n : Nat) : List Nat := List.range n

/-- The little-endian number that bytes hold (R2). -/
def leNat : List Byte → Nat
  | [] => 0
  | b :: t => b.toNat + 256 * leNat t

/-- The n little-endian bytes of a number (R2). -/
def leBytes : Nat → Nat → List Byte
  | 0, _ => []
  | n + 1, v => BitVec.ofNat 8 v :: leBytes n (v / 256)

/-- Pieces of n, in order. -/
def chunks {α : Type} (n : Nat) (l : List α) : Nat → List (List α)
  | 0 => []
  | k + 1 => l.take n :: chunks n (l.drop n) k

/-- Number of set bits among the low n of a number. -/
def popCount : Nat → Nat → Nat
  | 0, _ => 0
  | n + 1, v => v % 2 + popCount n (v / 2)

/-- A list with its element i replaced. -/
def lset {α : Type} (l : List α) (i : Nat) (v : α) : List α := l.set i v

/-- The value of a map over positions. -/
def lmapIdx {α β : Type} (f : Nat → α → β) (l : List α) : List β := (l.zipIdx).map fun p => f p.2 p.1

end Sys2Proof.Machine
end

