-- ==== Sys2Proof/Machine/Ops.lean ====
section
/-! DEFINITION. The named operations over a context: registers, guards, queues, tokens; taking an exception and
returning from one; the modulo sequencer; the banks of a core. -/
namespace Sys2Proof.Machine

/-- The four streams. -/
def Stream.all : List Stream := [.A, .V, .M, .D]

/-- Key of a context in `State.ctxs`. -/
def ctxKey (x : CtxRef) : Nat := 2 * x.core.toNat + b2n x.bank

/-- The context whose key is n. -/
def keyCtx (n : Nat) : CtxRef := ⟨BitVec.ofNat 8 (n / 2), decide (n % 2 = 1)⟩

/-- The context bound at a place. -/
def State.ctx? (s : State) (x : CtxRef) : Option Ctx := tfind s.ctxs (ctxKey x)

/-- Put a context at its place. -/
def State.setCtx (s : State) (x : CtxRef) (k : Ctx) : State := { s with ctxs := tins s.ctxs (ctxKey x) k }

/-- Set the note of the last word tried. -/
def State.setNote (s : State) (n : Note) : State := { s with md := { s.md with note := n } }

/-- The other bank of the core. -/
def otherBank (x : CtxRef) : CtxRef := ⟨x.core, !x.bank⟩

/-- Stove of a core (R8). -/
def stoveOf (core : Nat) : Nat := core / 48

/-- A stream's state. -/
def Ctx.str (k : Ctx) : Stream → StreamSt
  | .A => k.a | .V => k.v | .M => k.m | .D => k.d

/-- Write a stream's state. -/
def Ctx.setStr (k : Ctx) (st : Stream) (v : StreamSt) : Ctx :=
  match st with
  | .A => { k with a := v } | .V => { k with v := v } | .M => { k with m := v } | .D => { k with d := v }

/-- A stream that issues nothing by itself: it has halted, or is in a yielding wait (R431). -/
def StreamSt.idles (t : StreamSt) : Bool := t.halted || t.waiting.isSome

/-- A context that can run (R17, R431). -/
def Ctx.isReady (k : Ctx) : Bool := k.run == .ready && !k.held && Stream.all.any fun st => !(k.str st).idles

/-- All four streams have halted (R20). -/
def Ctx.allHalted (k : Ctx) : Bool := Stream.all.all fun st => (k.str st).halted

/-- The bound context of a place can run. -/
def State.readyAt (s : State) (x : CtxRef) : Bool :=
  match s.ctx? x with
  | some k => k.isReady
  | none => false

/-- The bank that a core issues from. -/
def State.runsAt (s : State) (x : CtxRef) : Bool := tget 0 s.running x.core.toNat == b2n x.bank

/-- Make a core issue from a bank. -/
def State.runBank (s : State) (x : CtxRef) : State := { s with running := tset 0 s.running x.core.toNat (b2n x.bank) }

/-- Value that an unwritten register of the device control space reads (R408, R450, R452, R453; log 8). -/
def ctlDefault (off : Nat) : Word :=
  if 0xA0000 ≤ off ∧ off < 0xA0800 then 0xFFFF
  else if 0xB0000 ≤ off ∧ off < 0xB1000 then 0xFFFF
  else if 0xD2000 ≤ off ∧ off < 0xD2200 then 0x0130000F
  else 0

/-- Read a register of the device control space. -/
def State.reg (s : State) (off : Nat) : Word := tget (ctlDefault off) s.ctl off

/-- Write a register of the device control space. -/
def State.setReg (s : State) (off : Nat) (v : Word) : State := { s with ctl := tset (ctlDefault off) s.ctl off v }

/-- The calendar slot of a stove at the present time (R449): valid and strict with its owner. -/
def State.calendar (s : State) (stove : Nat) : Option (Nat × Bool) :=
  let v := s.reg (0x90000 + 0x80 * stove + 8 * (s.time / 2 ^ 20 % 16))
  if bitAt v 6 then some (bits v 0 6, bitAt v 7) else none

/-- A bank that the calendar keeps from issuing (R449): the other bank holds the slot's owner, which is ready or has the
slot strictly. -/
def State.barred (s : State) (x : CtxRef) : Bool :=
  match s.calendar (stoveOf x.core.toNat), s.ctx? x, s.ctx? (otherBank x) with
  | some (vdev, strict), some k, some o => k.bd.vdev != vdev && o.bd.vdev == vdev && (strict || o.isReady)
  | _, _, _ => false

/-- The stream at hand with its context taken out of the state. -/
structure Mach where
  s : State
  k : Ctx
  st : Stream
  deriving DecidableEq, Repr

/-- Its place. -/
def Mach.x (m : Mach) : CtxRef := m.s.md.cur

/-- Put the context back. -/
def Mach.close (m : Mach) : State := m.s.setCtx m.x m.k

/-- The stream's state. -/
def Mach.t (m : Mach) : StreamSt := m.k.str m.st

/-- Change the context. -/
def Mach.ctx (m : Mach) (f : Ctx → Ctx) : Mach := { m with k := f m.k }

/-- Change the stream's state. -/
def Mach.str (m : Mach) (f : StreamSt → StreamSt) : Mach := { m with k := m.k.setStr m.st (f m.t) }

/-- What a note says the stream waits for. -/
def Note.why : Note → Option Why
  | .waiting w | .going w => some w
  | _ => none

/-- Put the context back and say what the word did. -/
def Mach.leave (m : Mach) (n : Note) : State := (m.str fun t => { t with stalled := n.why }).close.setNote n

/-- Change the memory system. -/
def Mach.mem (m : Mach) (f : MemSt → MemSt) : Mach := { m with s := { m.s with ms := f m.s.ms } }

/-- A context with nothing to run in its bank: the core leaves it without a stop (R431). -/
def Ctx.leavable (k : Ctx) : Bool := k.run == .dormant || k.run == .stopped || (k.run == .ready && k.held) || k.allHalted

/-- Whether the core may issue from the place, and the state in which it does: the bank is the running one, or the
running bank holds nothing that has to be stopped. `none` with a state: a stop of the running bank begins (R431). -/
def State.turnTo (s : State) (x : CtxRef) : Bool × State :=
  if s.barred x && (s.ctx? x).any (fun k => k.run == .ready) then (false, s)
  else if s.runsAt x then (true, s)
  else
    match s.ctx? (otherBank x) with
    | none => (true, s.runBank x)
    | some k =>
      if k.leavable then (true, s.runBank x)
      else if k.run == .ready && (!k.isReady || s.barred (otherBank x)) then (false, s.setCtx (otherBank x) { k with run := .stopping false })
      else (false, s)

/-- The word at pc has issued and has only to complete: an `SRW` of sr.inject, a `HALT` at its pushes. -/
def StreamSt.ending (t : StreamSt) : Bool := t.prog.any fun p => p.k == 0 && p.n == 0

/-- The context issues from a stream; one that is being stopped only completes a word that has issued (R425), and one whose
gang is moved to memory or back does not run (R17). -/
def Ctx.mayIssue (k : Ctx) (st : Stream) : Bool :=
  !(k.str st).halted &&
  (match k.run with
   | .ready => !k.held
   | .stopping _ => (k.str st).ending
   | _ => false)

/-- The stream belongs to a rendezvous that is issuing, and another word of it has begun a stop (R113, R425). -/
def Ctx.issuing (k : Ctx) (rdv : BitVec 4) (st : Stream) : Bool :=
  rdv.getLsbD st.num && !(k.str st).halted && (k.run matches .stopping _)

/-- Take the stream at the cursor out of the state, if it can issue. -/
def Mach.enter (s : State) : Option Mach × State :=
  match s.ctx? s.md.cur with
  | none => (none, s)
  | some k =>
    if k.mayIssue s.md.curSt || k.issuing s.md.rdv s.md.curSt then
      let (ok, s) := s.turnTo s.md.cur
      (if ok then some ⟨s, k, s.md.curSt⟩ else none, s)
    else (none, s)

/-- R431: a switch to the other bank when its context is ready; the running context is then stopped (R425). A stop that an
escalation has begun stays one (R427). -/
def Mach.offerSwitch (m : Mach) : Mach :=
  if m.k.run == .ready && m.s.readyAt (otherBank m.x) && !m.s.barred (otherBank m.x) then m.ctx fun k => { k with run := .stopping false } else m

/-- A core that stops issuing from a context not ready any more offers the core (R431). -/
def Mach.offerIfIdle (m : Mach) : Mach :=
  if m.k.isReady then m else if m.k.allHalted then m else m.offerSwitch

/-- Scalar register n of the stream (R10). -/
def StreamSt.reg (t : StreamSt) (n : Nat) : Word := tget 0 t.regs n

/-- Write scalar register n. -/
def StreamSt.setReg (t : StreamSt) (n : Nat) (v : Word) : StreamSt := { t with regs := tset 0 t.regs n v }

/-- Guard n; g0 reads 1 (R60, R119). -/
def StreamSt.guard (t : StreamSt) (n : Nat) : Bool := n == 0 || t.guards.getLsbD n

/-- Write guard n; g0 keeps 1 (R141). -/
def StreamSt.setGuard (t : StreamSt) (n : Nat) (b : Bool) : StreamSt :=
  if n = 0 then t else { t with guards := (t.guards &&& ~~~((1 : BitVec 8) <<< n)) ||| (if b then (1 : BitVec 8) <<< n else 0) }

/-- Row r of mask n; k0 reads all ones (R119, R150). -/
def VecSt.mask (v : VecSt) (n r : Nat) : BitVec 64 := if n = 0 then BitVec.allOnes 64 else tget 0 v.masks (16 * n + r)

/-- Write row r of mask n; k0 keeps all ones. -/
def VecSt.setMask (v : VecSt) (n r : Nat) (b : BitVec 64) : VecSt :=
  if n = 0 then v else { v with masks := tset 0 v.masks (16 * n + r) b }

/-- Write all rows of mask n. -/
def VecSt.setMaskRows (v : VecSt) (n : Nat) (bs : List (BitVec 64)) : VecSt :=
  bs.zipIdx.foldl (fun v p => v.setMask n p.2 p.1) v

/-- Row r of the effective mask of a header (R60, R128). -/
def effMask (v : VecSt) (h : Hdr) (r : Nat) : BitVec 64 :=
  if h.gn then ~~~(v.mask h.g.toNat r) else v.mask h.g.toNat r

/-- The effective mask has a bit set (R128). -/
def effAny (v : VecSt) (h : Hdr) : Bool := (upTo 16).any fun r => effMask v h r != 0

/-- The word takes effect (R60, R128). -/
def Mach.active (m : Mach) (h : Hdr) : Bool :=
  if m.st == .V then effAny m.k.vec h else m.t.guard h.g.toNat != h.gn

/-- Depth of a queue (R116). -/
def queueDepth (q : Nat) : Nat := if q < 8 then 16 else 8

/-- Entries present: pushes that have taken effect, in order (R117). -/
def present {α : Type} : List (Slot α) → Nat
  | .full _ :: t => present t + 1
  | _ => 0

/-- Free slots (R117). -/
def freeSlots {α : Type} (q : Nat) (l : List (Slot α)) : Nat := queueDepth q - l.length

/-- Take the oldest entry. -/
def popSlot {α : Type} (l : List (Slot α)) : Option (α × List (Slot α)) :=
  match l with
  | .full a :: t => some (a, t)
  | _ => none

/-- A push that was reserved takes effect (R117). -/
def fillSlot {α : Type} (tag : Nat) (a : α) : List (Slot α) → List (Slot α)
  | [] => []
  | .held n :: t => if n = tag then .full a :: t else .held n :: fillSlot tag a t
  | x :: t => x :: fillSlot tag a t

/-- Scalar queue q. -/
def Ctx.sq? (k : Ctx) (q : Nat) : List (Slot QEnt) := tget [] k.sq q
/-- Row queue q. -/
def Ctx.rq? (k : Ctx) (q : Nat) : List (Slot RowEnt) := tget [] k.rq q
/-- Write scalar queue q. -/
def Ctx.setSq (k : Ctx) (q : Nat) (l : List (Slot QEnt)) : Ctx := { k with sq := tset [] k.sq q l }
/-- Write row queue q. -/
def Ctx.setRq (k : Ctx) (q : Nat) (l : List (Slot RowEnt)) : Ctx := { k with rq := tset [] k.rq q l }

/-- Push a scalar entry: its value and its valid bit; an invalid one holds zero (R116, R129, log 33). -/
def Ctx.pushS (k : Ctx) (q : Nat) (v : Word) (valid : Bool) : Ctx :=
  k.setSq q (k.sq? q ++ [.full ⟨if valid then v else 0, valid⟩])

/-- Lanes whose valid bit is clear hold zero (R116). -/
def maskRow (lanes : Row) (mask : BitVec 64) : Row := lanes.zipIdx.map fun p => if mask.getLsbD p.2 then p.1 else 0

/-- Push a row entry. -/
def Ctx.pushR (k : Ctx) (q : Nat) (lanes : Row) (mask : BitVec 64) : Ctx :=
  k.setRq q (k.rq? q ++ [.full ⟨maskRow lanes mask, mask⟩])

/-- A row of zeros. -/
def zeroRow : Row := List.replicate 64 0

/-- Pop a scalar entry; the caller has seen that it is present. -/
def Ctx.popS (k : Ctx) (q : Nat) : QEnt × Ctx :=
  match popSlot (k.sq? q) with
  | some (e, l) => (e, k.setSq q l)
  | none => (⟨0, false⟩, k)

/-- Pop a row entry; the caller has seen that it is present. -/
def Ctx.popR (k : Ctx) (q : Nat) : RowEnt × Ctx :=
  match popSlot (k.rq? q) with
  | some (e, l) => (e, k.setRq q l)
  | none => (⟨zeroRow, 0⟩, k)

/-- Reserve a slot for a result that comes later (R117): the place, and the context. -/
def Ctx.reserveS (k : Ctx) (q : Nat) : Dst × Ctx :=
  (.queue q k.nextId, { k.setSq q (k.sq? q ++ [.held k.nextId]) with nextId := k.nextId + 1 })
@[inherit_doc Ctx.reserveS] def Ctx.reserveR (k : Ctx) (q : Nat) : Dst × Ctx :=
  (.queue q k.nextId, { k.setRq q (k.rq? q ++ [.held k.nextId]) with nextId := k.nextId + 1 })

/-- Deliver a scalar result that comes later, to the A stream (R130, R336). -/
def Ctx.deliver (k : Ctx) (d : Dst) (v : Word) (valid : Bool) : Ctx :=
  match d with
  | .none => k
  | .reg n => { k with a := k.a.setReg n v }
  | .queue q tag => k.setSq q (fillSlot tag ⟨if valid then v else 0, valid⟩ (k.sq? q))

/-- Deliver a row that comes later (R275). -/
def Ctx.deliverRow (k : Ctx) (d : Dst) (lanes : Row) (mask : BitVec 64) : Ctx :=
  match d with
  | .queue q tag => k.setRq q (fillSlot tag ⟨maskRow lanes mask, mask⟩ (k.rq? q))
  | _ => k

/-- Registers of the A stream that a load or a command has still to write (R130, R285, R336). -/
def Ctx.pendingReg (k : Ctx) (n : Nat) : Bool :=
  k.loads.any (fun l => l.dst == .reg n) || k.eng.cmds.any (fun c => c.dst == .reg n)

/-- Engine commands that may still write guard n of the A stream: sparks and task enqueues (R371, R373). -/
def Ctx.pendingGuard (k : Ctx) (n : Nat) : Bool :=
  n != 0 && k.eng.cmds.any (fun c => (c.opc == 0x6E || c.opc == 0x72) && c.g == n)

/-- Tokens in FIFO n (R115). -/
def Ctx.tokens (k : Ctx) (n : Nat) : Nat := tget 0 k.tok n

/-- The FIFOs that run into a stream from its left and right neighbours (R59, R115). -/
def fifosIn (st : Stream) (code : BitVec 2) : List Nat :=
  let (l, r) := match st with
    | .A => (6, 1) | .V => (0, 3) | .M => (2, 5) | .D => (4, 7)
  (if code.getLsbD 0 then [l] else []) ++ (if code.getLsbD 1 then [r] else [])

/-- The FIFOs that run out of a stream to its left and right neighbours (R59, R115). -/
def fifosOut (st : Stream) (code : BitVec 2) : List Nat :=
  let (l, r) := match st with
    | .A => (7, 0) | .V => (1, 2) | .M => (3, 4) | .D => (5, 6)
  (if code.getLsbD 0 then [l] else []) ++ (if code.getLsbD 1 then [r] else [])

/-- Pop one token of each. -/
def Ctx.popTokens (k : Ctx) (l : List Nat) : Ctx :=
  { k with tok := l.foldl (fun t n => tset 0 t n (tget 0 t n - 1)) k.tok }

/-- Push one token of each. -/
def Ctx.pushTokens (k : Ctx) (l : List Nat) : Ctx :=
  { k with tok := l.foldl (fun t n => tset 0 t n (tget 0 t n + 1)) k.tok }

/-- Room for one token in each (R115). -/
def Ctx.roomFor (k : Ctx) (l : List Nat) : Bool := l.all fun n => decide (k.tokens n < 8)

/-- A fill that reads memory and is not complete (R289). -/
def Fill.live (f : Fill) : Bool := !f.done && !f.zero

/-- A fill that later operations order against: not one whose window has been released (R292, R295). -/
def Fill.orders (f : Fill) : Bool := f.live && f.slot != 16

/-- An ordered atomic of the A stream has issued and not executed (R282). -/
def Mach.atomicOut (m : Mach) : Bool := m.st == .A && m.k.fenced && !m.k.loads.isEmpty

/-- Make the pushes of PA, or owe them while a FIFO is full or an ordered atomic has not executed (R115, R282). -/
def Mach.pushPA (m : Mach) (code : BitVec 2) : Mach :=
  let code := code ||| m.t.owed
  let l := fifosOut m.st code
  if m.k.roomFor l && !m.atomicOut then (m.ctx fun k => k.pushTokens l).str fun t => { t with owed := 0 }
  else m.str fun t => { t with owed := code }

/-- Fields of sr.mloop (R123). -/
def mlAct (w : Word) : Bool := bitAt w 63
@[inherit_doc mlAct] def mlS (w : Word) : Nat := bits w 60 3
@[inherit_doc mlAct] def mlLen (w : Word) : Nat := bits w 54 6
@[inherit_doc mlAct] def mlII (w : Word) : Nat := bits w 48 6
@[inherit_doc mlAct] def mlJ (w : Word) : Nat := bits w 42 6

/-- Build sr.mloop. -/
def mlMake (act : Bool) (s len ii j : Nat) : Word :=
  W (b2n act * 2 ^ 63 + s * 2 ^ 60 + len * 2 ^ 54 + ii * 2 ^ 48 + j * 2 ^ 42)

/-- The slot is squashed (R121): its iteration is not one of the loop's. -/
def StreamSt.squashed (t : StreamSt) (ms : Nat) : Bool :=
  t.inBody && (decide (t.mround.toNat < ms) || decide (t.mtrip.toNat ≤ t.mround.toNat - ms))

/-- The iteration index (R62, R121). -/
def StreamSt.it (t : StreamSt) (ms : Nat) : Word := if t.inBody then t.mround - W ms else 0

/-- Go on after the word at pc: the next word, or the next slot of the body, or the word after the body (R57, R121,
R123). -/
def StreamSt.advance (t : StreamSt) : StreamSt :=
  if !t.inBody then { t with pc := t.pc + 8 }
  else
    let j := mlJ t.mloop
    let len := mlLen t.mloop
    if j + 1 < len then
      { t with pc := t.pc + 8, mloop := mlMake true (mlS t.mloop) len (mlII t.mloop) (j + 1) }
    else if t.mround.toNat + 1 < t.mtrip.toNat + mlS t.mloop then
      { t with pc := t.pc - W (8 * j), mround := t.mround + 1, mloop := mlMake true (mlS t.mloop) len (mlII t.mloop) 0 }
    else { t with pc := t.pc + 8, mloop := 0, mround := 0, mtrip := 0, inBody := false }

/-- Causes routed to the management core (R400). -/
def routeM (cause : BitVec 8) : Bool :=
  cause == 0x15 || cause == 0x16 || cause == 0x61 || cause == 0x62 || cause == 0x63

/-- sr.epc keeps bits [53:3] (R398). -/
def epcMask (w : Word) : Word := w &&& 0x003FFFFFFFFFFFF8

/-- What the last row word held is let go of. -/
def MatSt.forget (t : MatSt) : MatSt := { t with granted := false, ask := [], dwait := 0, held := none, fl := 0, own := none }

/-- Put aside what a stopped row word keeps, so that the handler's words take nothing of it (R246). -/
def MatSt.park (t : MatSt) : MatSt :=
  { t.forget with parked := some ⟨t.word, t.granted, t.held, t.fl, t.own⟩ }

/-- A return to the word at pc: one that resumes at a row has again what it had put aside (R246). -/
def MatSt.unpark (t : MatSt) (pc : Word) (resumes : Bool) : MatSt :=
  match t.parked with
  | none => t
  | some h =>
    if resumes && h.word == pc then
      { t with word := h.word, granted := h.granted, ask := [], dwait := 0, held := h.held, fl := h.fl, own := h.own, parked := none }
    else { t.forget with parked := none }

/-- The word at pc executes whole: what it has done of itself before is let go of (R246). -/
def Mach.afresh (m : Mach) : Mach :=
  let m' := m.str fun t => { t with prog := none }
  if m.st == .M && m.t.prog.isSome then m'.ctx fun k => { k with mat := k.mat.forget } else m'

/-- Save the progress of the word at pc in its privileged register (R246, R280): `sr.mrow` for M, `sr.bdone` for A; what
it has popped or holds is put aside for its resume (R246, R404). -/
def Mach.saveProg (m : Mach) : Mach :=
  match m.t.prog with
  | none => m
  | some p =>
    let m := m.str fun t => { t with prog := none }
    if p.k = 0 then m
    else
      match m.st with
      | .M => m.ctx fun k => { k with sr := { k.sr with mrow := W (2 ^ 63 + p.k) }, mat := k.mat.park }
      | .A => m.ctx fun k => { k with sr := { k.sr with bdone := W (2 ^ 63 + p.k), bcount := p.n, bbase := p.base } }
      | .D => m.ctx fun k => { k with dpopped := [], dlfsr := none, dparked := some (k.dpopped, k.dlfsr) }
      | .V => m

/-- Escalation (R427): the stream's trap registers are written, its level stays, and the stop of its context begins. -/
def Mach.escalate (m : Mach) (cause : BitVec 8) (tval epc : Word) : Mach :=
  let m := m.str fun t => { t with cause := cause.setWidth 64, tval := tval, epc := epcMask epc, waiting := none }
  m.ctx fun k => { k with run := .stopping true, smask := k.smask ||| (1 <<< m.st.num) }

/-- Taking an exception (R402). A modulo body is left with its registers as they stand (R123). A word stopped on the way
leaves its progress in `sr.mrow` or `sr.bdone` for the handler; in a context that is stopped it keeps its place, and goes on
there after a resume (R246, R429). -/
def Mach.takeTrap (m : Mach) (cause : BitVec 8) (tval epc : Word) : Mach :=
  let stopped := m.str fun t => { t with prog := t.prog.filter fun p => p.k != 0 }
  if routeM cause then stopped.escalate cause tval epc
  else if m.t.plev || !bitAt m.t.tvec 0 then stopped.escalate 0x61 (cause.setWidth 64) epc
  else
    m.saveProg.str fun t =>
      { t with cause := cause.setWidth 64, tval := tval, epc := epcMask epc, plev := true,
               pc := t.tvec &&& 0x003FFFFFFFFFFFF8, inBody := false, waiting := none }

/-- The modulo registers are zero when no body is running (R123). -/
def StreamSt.outside (t : StreamSt) : StreamSt := if t.inBody then t else { t with mloop := 0, mround := 0, mtrip := 0 }

/-- Return from an exception (R404): level U, the pc from sr.epc, the modulo body again when `sr.mloop.act`, the
word at sr.epc partway when `sr.mrow` or `sr.bdone` says so. -/
def Mach.eret (m : Mach) : Mach :=
  let prog : Option Prog :=
    match m.st with
    | .M => if bitAt m.k.sr.mrow 63 then some ⟨bits m.k.sr.mrow 0 7, 0, none⟩ else none
    | .A => if bitAt m.k.sr.bdone 63 then some ⟨bits m.k.sr.bdone 0 16, m.k.sr.bcount, m.k.sr.bbase⟩ else none
    | .D => m.k.dparked.map fun d => ⟨d.1.length, 0, none⟩
    | .V => none
  let m := m.ctx fun k =>
    match m.st with
    | .M => { k with sr := { k.sr with mrow := 0 }, mat := k.mat.unpark m.t.epc prog.isSome }
    | .A => { k with loads := k.loads.map fun (l : LoadEnt) => { l with late := false }
                     sr := { k.sr with bdone := 0, bbase := none }, fenced := k.fenced || k.fparked.isSome,
                     fparked := none, a := { k.a with owed := k.fparked.getD k.a.owed } }
    | .D => match k.dparked with
      | some d => { k with dpopped := d.1, dlfsr := d.2, dparked := none }
      | none => k
    | .V => k
  m.str fun t => { t with plev := false, pc := t.epc, inBody := mlAct t.mloop, prog := prog }.outside

/-- Go on at a target (R143). -/
def Mach.jump (m : Mach) (target : Word) : Mach := m.str fun t => { t with pc := target, prog := none, waiting := none }

/-- What the body of a word does, once it is its turn. -/
inductive Res where
  /-- the word completes -/
  | done (m : Mach)
  /-- the word completes, and has set where the stream goes on -/
  | stay (m : Mach)
  /-- the word completes, then takes a trap (R53, R405) -/
  | trapAfter (m : Mach) (cause : BitVec 8) (tval : Word)
  /-- the word takes a trap and has no effect (R195) -/
  | trap (cause : BitVec 8) (tval : Word)
  /-- the word takes a trap, and the state changes as `f` says: on the state before its pops -/
  | trapWith (f : Mach → Mach) (cause : BitVec 8) (tval : Word)
  /-- the word takes a trap with the effects it has had so far (R246, R265) -/
  | trapIn (m : Mach) (cause : BitVec 8) (tval : Word)
  /-- the word cannot issue yet and takes nothing (R112) -/
  | wait (w : Why)
  /-- the word has issued and goes on later -/
  | hold (m : Mach) (w : Why)
  /-- the word has not issued, but the state changes (a yielding wait, a barrier reached): on the state before its
  pops -/
  | park (w : Why) (f : Mach → Mach)

/-- Ports of a word: what it pops, pushes and reads before its body runs (R65, R112). -/
structure Ports where
  /-- scalar sources, in pop order -/
  srcs : List (BitVec 6)
  /-- scalar destinations -/
  dsts : List (BitVec 6)
  /-- row queues popped, in pop order -/
  rowSrcs : List Nat
  /-- row queues pushed with one entry -/
  rowDsts : List Nat
  /-- guards read or written -/
  grds : List Nat
  /-- the word goes on from this progress -/
  resumes : Prog → Bool

/-- No port. -/
def Ports.none : Ports := { srcs := [], dsts := [], rowSrcs := [], rowDsts := [], grds := [], resumes := fun _ => false }

/-- The operands that a body gets. -/
structure Opnds where
  /-- the guard is true (R60, R128) -/
  act : Bool
  vals : List Word
  /-- every scalar entry popped was valid (R129) -/
  valid : Bool
  /-- valid bit of each scalar source; true for a register -/
  valids : List Bool
  rows : List RowEnt
  deriving DecidableEq, Repr

/-- Operand n. -/
def Opnds.v (a : Opnds) (n : Nat) : Word := a.vals.getD n 0

/-- Row operand n. -/
def Opnds.row (a : Opnds) (n : Nat) : RowEnt := a.rows.getD n ⟨zeroRow, 0⟩

/-- A scalar specifier that names a queue (R62). -/
def isQ (x : BitVec 6) : Bool := decide (32 ≤ x.toNat) && decide (x.toNat < 48)

/-- A scalar specifier that names a register (R62). -/
def isR (x : BitVec 6) : Bool := decide (x.toNat < 32)

/-- The queue that a specifier names. -/
def qNum (x : BitVec 6) : Nat := x.toNat - 32

/-- Read a scalar source: its value, its valid bit, the context after the pop (R62, R120). -/
def Ctx.source (k : Ctx) (st : Stream) (it : Word) (x : BitVec 6) : Word × Bool × Ctx :=
  if isR x then ((k.str st).reg x.toNat, true, k)
  else if isQ x then
    let (e, k) := k.popS (qNum x)
    (if e.valid then e.val else 0, e.valid, k)
  else if x == 49 then (it, true, k)
  else (0, true, k)

/-- Read scalar sources in order (R65). -/
def Ctx.sources (k : Ctx) (st : Stream) (it : Word) : List (BitVec 6) → List Word × List Bool × Ctx
  | [] => ([], [], k)
  | x :: t =>
    let (v, b, k) := k.source st it x
    let (vs, bs, k) := k.sources st it t
    (v :: vs, b :: bs, k)

/-- Pop row entries in order (R65). -/
def Ctx.rowSources (k : Ctx) : List Nat → List RowEnt × Ctx
  | [] => ([], k)
  | q :: t =>
    let (e, k) := k.popR q
    let (es, k) := k.rowSources t
    (e :: es, k)

/-- Occurrences of a value. -/
def countIn {α : Type} [DecidableEq α] (a : α) (l : List α) : Nat := (l.filter (· = a)).length

/-- Queue sources hold every entry popped (R65, R112). -/
def Ctx.srcsHeld (k : Ctx) (p : Ports) : Bool :=
  (p.srcs.all fun x => !isQ x || decide (countIn x p.srcs ≤ present (k.sq? (qNum x)))) &&
  (p.rowSrcs.all fun q => decide (countIn q p.rowSrcs ≤ present (k.rq? q)))

/-- Queues pushed have a free slot (R112, R117). -/
def Ctx.dstsFree (k : Ctx) (p : Ports) : Bool :=
  (p.dsts.all fun x => !isQ x || decide (countIn x p.dsts ≤ freeSlots (qNum x) (k.sq? (qNum x)))) &&
  (p.rowDsts.all fun q => decide (countIn q p.rowDsts ≤ freeSlots q (k.rq? q)))

/-- Registers and guards that the word reads or writes are ready (R130). -/
def Ctx.regsReady (k : Ctx) (st : Stream) (h : Hdr) (p : Ports) : Bool :=
  st != .A ||
  ((p.srcs ++ p.dsts).all (fun x => !(isR x && k.pendingReg x.toNat)) &&
   (h.g.toNat :: p.grds).all (fun n => !k.pendingGuard n))

/-- The rendezvous set (R113). -/
def Mach.syncSet (m : Mach) : BitVec 4 := m.k.sr.syncmask ||| (1 <<< m.st.num)

/-- A stream of the set has halted (R113), and the set is not issuing now. -/
def Mach.partnerHalted (m : Mach) : Bool :=
  !m.s.md.rdv.getLsbD m.st.num && Stream.all.any fun st => st != m.st && m.syncSet.getLsbD st.num && (m.k.str st).halted

/-- The sync condition (R113): the set is the stream alone, or its words are issuing together. -/
def Mach.synced (m : Mach) (h : Hdr) : Bool :=
  !h.sy || m.syncSet == (1 <<< m.st.num) || m.s.md.rdv.getLsbD m.st.num

/-- Why a word cannot issue, by conditions 2 to 6 of R112. -/
def Mach.blocked (m : Mach) (h : Hdr) (p : Ports) : Option Why :=
  if !((fifosIn m.st h.pb).all fun n => decide (0 < m.k.tokens n)) then some .token
  else if !m.k.srcsHeld p then some .queue
  else if !m.k.dstsFree p then some .slot
  else if !m.k.regsReady m.st h p then some .register
  else if !m.synced h then some .sync
  else none

/-- Pop the tokens and the queue sources: the operands, and the machine after the pops. -/
def Mach.take (m : Mach) (h : Hdr) (p : Ports) : Opnds × Mach :=
  let act := m.active h
  let k := m.k.popTokens (fifosIn m.st h.pb)
  let (vs, bs, k) := k.sources m.st (m.t.it h.ms.toNat) p.srcs
  let (rs, k) := k.rowSources p.rowSrcs
  (⟨act, vs, bs.all id, bs, rs⟩, { m with k := k })

/-- The operands of a word that goes on: its queue sources were popped when it issued, and read 0. -/
def Mach.retake (m : Mach) (h : Hdr) (p : Ports) : Opnds :=
  ⟨m.active h, p.srcs.map fun x => if isR x then m.t.reg x.toNat else if x == 49 then m.t.it h.ms.toNat else 0, true,
   p.srcs.map fun _ => true, []⟩

/-- The stream goes on after a word. One that leaves its modulo body as its context begins to stop records the address after
the body (R123). -/
def Mach.advance (m : Mach) : Mach :=
  m.str fun t =>
    let u := t.advance
    if t.inBody && !u.inBody && (m.k.run matches .stopping _) then { u with epc := epcMask u.pc } else u

/-- What a word that completes does at its end: its PA pushes, and the next word. -/
def Mach.retire (m : Mach) (h : Hdr) : Mach :=
  ((m.str fun t => { t with prog := none, waiting := none }).pushPA h.pa).advance

/-- The state that the result of a body leaves; `m0` is the machine before the word took anything. -/
def Mach.finish (m0 : Mach) (h : Hdr) (r : Res) : State :=
  match r with
  | .done m => (m.retire h).leave .issued
  | .stay m => (m.pushPA h.pa).leave .issued
  | .trapAfter m c v =>
    let m := m.retire h
    (m.takeTrap c v m.t.pc).leave .issued
  | .trap c v => (m0.takeTrap c v m0.t.pc).leave (.trapped c)
  | .trapWith f c v => ((f m0).takeTrap c v m0.t.pc).leave (.trapped c)
  | .trapIn m c v => (m.takeTrap c v m.t.pc).leave (.trapped c)
  | .wait w => m0.leave (.waiting w)
  | .hold m w => m.leave (.going w)
  | .park w f => (f m0).leave (.waiting w)

/-- Pay the token pushes that the last word owes (R115). -/
def Mach.payOwed (m : Mach) : Mach := if m.t.owed = 0 then m else m.pushPA m.t.owed

/-- A delay is over (R145). -/
def Mach.delayed (m : Mach) : Bool :=
  match m.t.wakeAt with
  | none => false
  | some w => decide (m.s.time ≤ w.toNat)

/-- A word that R91 or R406 forbids at level U. -/
def privilegedAtU (i : Instr) (pkmask : BitVec 32) : Bool :=
  match i with
  | .eret _ _ => true
  | .srr _ o => decide (0x100 ≤ o.srIndex)
  | .srw _ o => decide (0x100 ≤ o.srIndex)
  | .pkw _ o => !pkmask.getLsbD (o.fn.toNat % 32)
  | _ => false

/-- Buffer of array a that streams (R222, R231): 2a + its number. -/
def MatSt.frontOf (m : MatSt) (a : Nat) : Nat := 2 * a + tget 0 m.front a

/-- Arrays that AM selects. -/
def amArrays (am : BitVec 3) : List Nat := [0, 1, 2].filter fun a => am.getLsbD a

/-- The slot of a tile is in the context's partition (R222). -/
def Binding.hasTile (b : Binding) (tile : Nat) : Bool :=
  decide (b.slot0 ≤ tile % 8) && decide (tile % 8 < b.slot0 + b.slots)

/-- The front buffer of every selected array is tagged SP (R232). -/
def MatSt.tagged (m : MatSt) (am : BitVec 3) (sp : Nat) : Bool :=
  (amArrays am).all fun a => (tget StatBuf.clear m.bufs (m.frontOf a)).tag == sp

/-- The checks of R222 and R232, made like those of R90, whatever the guard: 0x06 and 0x07. -/
def Ctx.matrixBad (k : Ctx) (i : Instr) : Option (BitVec 8) :=
  let tile := fun (n : Nat) => if k.bd.hasTile n then none else some (0x06 : BitVec 8)
  match i with
  | .mma _ o | .mzero _ o => tile o.acc.toNat
  | .mmas _ o => (tile o.acc.toNat).or (if k.mat.tagged o.am o.sp.toNat then none else some 0x07)
  | .mdr _ o | .mdrt _ o => tile o.acc.toNat
  | .manc _ o => tile (o.fn.toNat % 32)
  | .mstat _ o => if o.fn.toNat / 32 = 3 then tile (o.fn.toNat % 32) else none
  | _ => none

/-- The checks of R90 on a word at the head of its stream: the cause it takes. They run in R90's order, so an `SRW` at U to
a read-only index from 0x100 on, which is no legal write (R144), takes 0x02 and not the 0x04 of R91 (log 54). -/
def Mach.wordCheck (m : Mach) (i : Instr) (h : Hdr) : Option (BitVec 8) :=
  if h.cl != m.st.cl || !i.wf || (h.ms != 0 && !m.t.inBody) then some 0x02
  else if !m.t.plev && privilegedAtU i m.k.sr.pkmask then some 0x04
  else none

/-- The checks made of a word that issues: those of R90, then those of R222 and R232. -/
def Mach.checkWord (m : Mach) (i : Instr) (h : Hdr) : Option (BitVec 8) := (m.wordCheck i h).or (m.k.matrixBad i)

/-- sr.tval of a cause whose rule states none (R401; log 23): a free value. -/
def State.freeTval (s : State) : Word := Config.freeWord (2 ^ 80 + s.md.tick)

/-- Run a word at the head of its stream: R90, R112, R113, R115, R119, R121, then its body. A word in a squashed slot is
checked under R90 (R112) and not under R222 and R232 (log 54). -/
def Mach.issueIn (m : Mach) (i : Instr) (h : Hdr) (p : Ports) (body : Mach → Opnds → Res) : State :=
  let m := m.payOwed
  if m.t.owed != 0 then m.leave (.waiting .push)
  else if m.delayed then m.leave (.waiting .delay)
  else if m.atomicOut then m.leave (.waiting .earlier)
  else if m.st == .A && m.k.cxlOver then m.leave (.waiting .cxl)
  else
    let m := (m.str fun t => { t with wakeAt := none }).ctx fun k => if m.st == .A then { k with fenced := false } else k
    if m.t.squashed h.ms.toNat then
      match m.wordCheck i h with
      | some c => (m.takeTrap c (encode i) m.t.pc).leave (.trapped c)
      | none => (m.str StreamSt.advance).leave .issued
    else
      match m.checkWord i h with
      | some c =>
        let tval := if c = 0x06 || c = 0x07 then m.s.freeTval else encode i
        (m.takeTrap c tval m.t.pc).leave (.trapped c)
      | none =>
        if m.t.prog.any p.resumes then m.finish h (body m (m.retake h p))
        else
          let m := m.afresh
          if h.sy && m.partnerHalted then (m.takeTrap 0x05 (m.syncSet.setWidth 64) m.t.pc).leave (.trapped 0x05)
          else
            match m.blocked h p with
            | some w => m.leave (.waiting w)
            | none =>
              let (a, m') := m.take h p
              m.finish h (body m' a)

/-- The outcome of a step. -/
abbrev Out := Host.Outcome State Fault Refusal

/-- The meaning of a word: nothing when its stream cannot issue at all (R425, R431), else `issueIn`. -/
def issueWord (i : Instr) (h : Hdr) (p : Ports) (body : Mach → Opnds → Res) (s : State) : Out :=
  match Mach.enter s with
  | (none, s) => .next (s.setNote (.waiting .notRunning))
  | (some m, _) => .next (m.issueIn i h p body)

/-- Write a scalar result where a destination specifier says: a register when the word takes effect, one entry
always (R62, R119, R129). -/
def Mach.put (m : Mach) (x : BitVec 6) (act : Bool) (v : Word) (valid : Bool) : Mach :=
  if isQ x then m.ctx fun k => k.pushS (qNum x) v (act && valid)
  else if isR x && act then m.str fun t => t.setReg x.toNat v
  else m

end Sys2Proof.Machine
end

