-- ==== Sys2Proof/Machine/Access.lean ====
section
/-! DEFINITION. The memory system: physical ranges, sectors, HBM granules and their code, the MSC, L2 and L1 caches,
the points of coherence (spec/10, spec/12, spec/17 R411). -/
namespace Sys2Proof.Machine

/-- First address of the window (R411). -/
def winBase : Nat := 0x004000000000
/-- First address of HBM (R297, R411). -/
def hbmBase : Nat := 0x008000000000
/-- First address of the CXL ranges (R411). -/
def cxlBase : Nat := 0x100000000000

/-- In the coherent window. -/
def isWin (pa : Nat) : Bool := decide (winBase ≤ pa) && decide (pa < winBase + 0x100000)
/-- In HBM. -/
def isHbm (pa : Nat) : Bool := decide (hbmBase ≤ pa) && decide (pa < 2 * hbmBase)
/-- In the range of a CXL root port. -/
def isCxl (pa : Nat) : Bool := decide (cxlBase ≤ pa) && decide (pa < cxlBase + 4 * 2 ^ 41)
/-- The root port of a CXL address. -/
def cxlPort (pa : Nat) : Nat := (pa - cxlBase) / 2 ^ 41

/-- The range from pa of n bytes lies in one range of R411 of the tier (populated, for CXL). -/
def rangeOk (tier pa n : Nat) : Bool :=
  if tier = 0 then
    (isWin pa && decide (pa + n ≤ winBase + 0x100000)) || (isHbm pa && decide (pa + n ≤ 2 * hbmBase))
  else tier == 1 && isCxl pa && decide (pa + n ≤ cxlBase + cxlPort pa * 2 ^ 41 + Config.expanderBytes (cxlPort pa))

/-- Number of the quadrant 4 × stack + q of an HBM address (R297, R408). -/
def quadrantOf (pa : Nat) : Nat := (pa - hbmBase) / 2 ^ 34 % 32

/-- Byte i of a sector. -/
def secByte (d : Sector) (i : Nat) : Byte := d.extractLsb' (8 * i) 8

/-- Write byte i of a sector. -/
def secSet (d : Sector) (i : Nat) (b : Byte) : Sector :=
  (d &&& ~~~((0xFF : Sector) <<< (8 * i))) ||| (b.setWidth 512 <<< (8 * i))

/-- Write bytes of a sector, by offset. -/
def secWrite (d : Sector) (ws : List (Nat × Byte)) : Sector := ws.foldl (fun d w => secSet d w.1 w.2) d

/-- Bytes of a sector from an offset. -/
def secBytes (d : Sector) (off n : Nat) : List Byte := (upTo n).map fun i => secByte d (off + i)

/-- A sector from its bytes. -/
def secOf (l : List Byte) : Sector := BitVec.ofNat 512 (leNat l)

/-- A byte of memory beyond the caches; an unlisted one reads 0 (log 11). -/
def memByte (m : List Host.Cell) (a : Nat) : Byte := tget 0 m a

/-- Write a byte of memory. -/
def memSet (m : List Host.Cell) (a : Nat) (b : Byte) : List Host.Cell := tset 0 m a b

/-- The canonical form of memory. -/
def Memory.wf (m : List Host.Cell) : Bool := twf 0 m

/-- Bytes of memory. -/
def memBytes (m : List Host.Cell) (a n : Nat) : List Byte := (upTo n).map fun i => memByte m (a + i)

/-- Write bytes of memory. -/
def memWrite (m : List Host.Cell) (a : Nat) (l : List Byte) : List Host.Cell :=
  (l.zipIdx).foldl (fun m p => memSet m (a + p.2) p.1) m

/-- Write bytes by address. -/
def memPut (m : List Host.Cell) (ws : List (Nat × Byte)) : List Host.Cell := ws.foldl (fun m w => memSet m w.1 w.2) m

/-- A sector of memory. -/
def memSector (m : List Host.Cell) (sec : Nat) : Sector := secOf (memBytes m (64 * sec) 64)

/-- Change the memory system. -/
def State.mem (s : State) (f : MemSt → MemSt) : State := { s with ms := f s.ms }

/-- Add one to a 32-bit saturating counter of the control space (R304, R408). -/
def State.countUp (s : State) (off : Nat) : State :=
  let n := bits (s.reg off) 0 32
  s.setReg off (W (min (n + 1) (2 ^ 32 - 1)))

/-- How an access reaches memory: the core it is made for, its virtual device, 1 + g + 4 × ms of its page (0 without
a leaf), its traffic class (R300, R301). -/
structure Acc where
  core : Nat
  vdev : Nat
  tag : Nat
  cls : Nat
  deriving DecidableEq, Repr

/-- The granule of a tag. -/
def gOf (tag : Nat) : Nat := (tag - 1) % 4

/-- The sectors of the granule that holds a sector (R301). -/
def granuleOf (g sec : Nat) : List Nat := (upTo (2 ^ g)).map fun i => sec / 2 ^ g * 2 ^ g + i

/-- The pseudo-channels of the gang of a granule (R298). -/
def gangOf (g sec : Nat) : List Nat :=
  let size := if g = 0 then 1 else 2 ^ (g + 1)
  let k := sec / 2 ^ g % (32 / size)
  (upTo size).map fun i => k * size + i

/-- The pseudo-channel that a byte of a granule travels on (R298). -/
def pcOf (g pa : Nat) : Nat := (gangOf g (pa / 64)).getD (if g = 0 then 0 else pa % (64 * 2 ^ g) / 32) 0

/-- Symbols in error of codeword c of a granule (R303: the bytes b with b mod 2^G = c), without those on a marked channel, which
are erasures (R304). -/
def State.wordErr (s : State) (g sec : Nat) (marked : Nat → Bool) (c : Nat) : Nat :=
  (s.ms.symErr.filter fun p => p.1 / (64 * 2 ^ g) == sec / 2 ^ g && p.1 % 2 ^ g == c && !marked (pcOf g p.1)).foldl
    (fun n p => n + p.2) 0

/-- What a read of a granule from HBM meets (R304): 0 clean, 1 corrected, 2 uncorrectable. The limit holds for each of its
codewords. -/
def State.granuleErr (s : State) (g sec : Nat) : Nat :=
  let u := quadrantOf (64 * sec)
  let mark := s.reg (0x10000 + 0x20 * u)
  let marked := fun p => bitAt mark 5 && bits mark 0 5 == p
  let gang := gangOf g sec
  let dead := gang.any fun p => s.ms.deadPc.contains (32 * u + p) && !marked p
  let bad := (upTo (2 ^ g)).map (s.wordErr g sec marked)
  if dead then 2
  else if gang.any marked then (if g = 3 then (if bad.all (· ≤ 1) then 1 else 2) else 2)
  else if bad.all (· = 0) then 0
  else if bad.all (· ≤ 4) then 1
  else 2

/-- A sector whose content the spec leaves undefined (R304, R306): free bytes. -/
def State.freeSector (s : State) (sec : Nat) : Sector :=
  secOf ((upTo 64).map fun i => Config.freeByte (s.md.tick * 2 ^ 52 + 64 * sec + i))

/-- Read a granule from HBM: its sectors as the controller delivers them (R304 to R306). Complemented check symbols are
recognised before correcting (R305). -/
def State.hbmRead (s : State) (a : Acc) (sec : Nat) : List (Nat × Sec) × State :=
  let secs := granuleOf (gOf a.tag) sec
  let marked := secs.any fun x => s.ms.poison.contains x
  let err := if marked then 0 else s.granuleErr (gOf a.tag) sec
  let u := quadrantOf (64 * sec)
  let slip := err == 2 && Config.miscorrects (s.md.tick * 2 ^ 46 + sec)
  let poison := marked || (err == 2 && !slip)
  let s' := if err = 0 then s else if err = 1 then s.countUp (0x10008 + 0x20 * u) else if slip then s
    else s.countUp (0x10010 + 0x20 * u)
  let data := fun x =>
    let t := tget 0 s.ms.tags x
    if slip || !(t == 0 || a.tag == 0 || t == a.tag) then s.freeSector x else memSector s.ms.mem x
  (secs.map fun x => (x, ⟨data x, false, poison, a.tag⟩), s')

/-- Write a granule to HBM, whole, with fresh check symbols, complemented if a sector is poisoned (R299, R305). -/
def State.hbmWrite (s : State) (l : List (Nat × Sec)) : State :=
  let poison := l.any fun p => p.2.poison
  s.mem fun m =>
    { m with
      mem := l.foldl (fun t p => memWrite t (64 * p.1) (secBytes p.2.data 0 64)) m.mem
      tags := l.foldl (fun t p => tset 0 t p.1 p.2.tag) m.tags
      symErr := m.symErr.filter fun q => !(l.any fun p => p.1 == q.1 / 64)
      poison := if poison then l.foldl (fun t p => if t.contains p.1 then t else p.1 :: t) m.poison
                else m.poison.filter fun x => !(l.any fun p => p.1 == x) }

/-- The sectors of a granule that the MSC holds. -/
def State.mscHeld (s : State) (secs : List Nat) : List (Nat × Sec) :=
  secs.filterMap fun x => (tfind s.ms.msc x).map fun v => (x, v)

/-- Let go of a sector's granule in the MSC, written back when a sector of it is dirty (R299, R305). -/
def State.mscDrop (s : State) (sec : Nat) : State :=
  match tfind s.ms.msc sec with
  | none => s
  | some v =>
    let held := s.mscHeld (granuleOf (gOf v.tag) sec)
    let s := if held.any fun p => p.2.dirty then s.hbmWrite held else s
    s.mem fun m => { m with msc := held.foldl (fun t p => tdel t p.1) m.msc }

/-- The sectors of a 512-byte line of the L2 or the MSC (R286, R299). -/
def lineSecs (line : Nat) : List Nat := (upTo 8).map fun i => 8 * line + i

/-- The ways of a mask (R452, R453). -/
def waysOf (mask : Nat) : List Nat := (upTo 16).filter fun n => mask.testBit n

/-- The way that a line goes to: a free choice among the ways of a mask (log 12). -/
def State.pickWay (s : State) (lvl line mask : Nat) : Nat :=
  (waysOf mask).getD (Config.freeWay lvl line s.md.tick % (waysOf mask).length) 0

/-- The set of a line among n (R286, log 12). -/
def setOf (lvl n line : Nat) : Nat := Config.cacheSet lvl line % n

/-- The MSC allocation register of a device and class (R300, R453). -/
def State.mscReg (s : State) (a : Acc) : Word := s.reg (0xB0000 + 0x40 * a.vdev + 8 * a.cls)

/-- The MSC's policy for a device and class (R300, R453): for reads (`kind` 0), writes (1; 3 for those of heads, which leave whole
sectors clean) and atomics (2). -/
def State.mscPolicy (s : State) (a : Acc) (kind : Nat) : Nat := bits (s.mscReg a) (16 + 2 * (if kind = 3 then 1 else kind)) 2

/-- The MSC allocates for a device and class (R453). -/
def State.mscAllocs (s : State) (a : Acc) (kind : Nat) : Bool := bits (s.mscReg a) 0 16 != 0 && s.mscPolicy a kind != 1

/-- A line of the MSC is used: it is not the least recently used any more (R453). -/
def State.mscUse (s : State) (sec : Nat) : State := s.mem fun m => { m with mscLow := m.mscLow.filter (· != sec / 8) }

/-- The lines of the MSC that stand in a line's set. -/
def State.mscSet (s : State) (line : Nat) : List (Nat × Nat) :=
  s.ms.mscLine.filter fun p => quadrantOf (512 * p.1) == quadrantOf (512 * line) && setOf 3 1024 p.1 == setOf 3 1024 line

/-- The ways of a mask that a new line of the MSC may take (R453, log 12): where one holds the line that was inserted last as
least recently used and is not used since, that one and the empty ones. -/
def State.mscWays (s : State) (line mask : Nat) : Nat :=
  let held := (s.mscSet line).filter fun p => mask.testBit p.2
  match s.ms.mscLow.findSome? fun x => held.find? fun p => p.1 == x with
  | none => mask
  | some low => ((waysOf mask).filter fun n => n == low.2 || !(held.any fun p => p.2 == n)).foldl (fun t n => t + 2 ^ n) 0

/-- Make room in the MSC for the line of a sector (R286): 8 MiB a quadrant in 16 ways, 1024 sets of 512-byte lines. The line
that stood in the way it takes goes, granule by granule. Policy 2 inserts the line as least recently used (R453). -/
def State.mscPlace (s : State) (a : Acc) (kind sec : Nat) : State :=
  let line := sec / 8
  let low := s.mscPolicy a kind == 2
  if (lineSecs line).any fun x => (tfind s.ms.msc x).isSome then (if low then s else s.mscUse sec)
  else
    let way := s.pickWay 3 line (s.mscWays line (bits (s.mscReg a) 0 16))
    let out := (s.mscSet line).filter fun p => p.2 == way
    let s := out.foldl (fun s p => (lineSecs p.1).foldl State.mscDrop s) s
    s.mem fun m =>
      { m with
        mscLine := tins (out.foldl (fun t p => tdel t p.1) m.mscLine) line way
        mscLow := (if low then [line] else []) ++ m.mscLow.filter fun x => x != line && !(out.any fun p => p.1 == x) }

/-- Put sectors of one line into the MSC. -/
def State.mscInsert (s : State) (a : Acc) (kind : Nat) (l : List (Nat × Sec)) : State :=
  match l with
  | [] => s
  | (sec, _) :: _ =>
    (s.mscPlace a kind sec).mem fun m => { m with msc := l.foldl (fun t p => tins t p.1 p.2) m.msc }

/-- Read a sector at the MSC, for a read or for an atomic (`kind`); a miss fetches its whole granule (R299). -/
def State.mscReadFor (s : State) (a : Acc) (kind sec : Nat) : Sec × State :=
  match tfind s.ms.msc sec with
  | some v => (v, s.mscUse sec)
  | none =>
    let (l, s) := s.hbmRead a sec
    let v := (tfind l sec).getD ⟨0, false, false, a.tag⟩
    (v, if s.mscAllocs a kind then s.mscInsert a kind (l.filter fun p => (tfind s.ms.msc p.1).isNone) else s)

@[inherit_doc State.mscReadFor] def State.mscRead (s : State) (a : Acc) (sec : Nat) : Sec × State := s.mscReadFor a 0 sec

/-- Take bytes into a sector; a write of the whole sector clears its poison (R305). -/
def Sec.take (v : Sec) (ws : List (Nat × Byte)) : Sec :=
  { v with data := secWrite v.data ws, dirty := true, poison := v.poison && decide (ws.length < 64) }

/-- The sector after a write of `kind`: one of a head leaves it clean (R189, R214). -/
def Sec.written (v : Sec) (kind : Nat) (ws : List (Nat × Byte)) : Sec :=
  let v := v.take ws
  if kind = 3 then { v with poison := false } else v

/-- Write sectors of one granule at the MSC (R299): `ws` gives each sector its bytes by offset. A write that does not cover a
granule that is not held reads it first; an atomic has read it already. -/
def State.mscWriteG (s : State) (a : Acc) (kind : Nat) (ws : List (Nat × List (Nat × Byte))) : State :=
  match ws with
  | [] => s
  | (sec, _) :: _ =>
    let secs := granuleOf (gOf a.tag) sec
    let apply := fun (l : List (Nat × Sec)) => l.map fun p =>
      match tfind ws p.1 with
      | some b => (p.1, p.2.written kind b)
      | none => p
    let held := s.mscHeld secs
    if held.length = secs.length then
      (s.mscUse sec).mem fun m => { m with msc := (apply held).foldl (fun t p => tins t p.1 p.2) m.msc }
    else
      let whole := secs.all fun x => match tfind ws x with
        | some b => b.length == 64
        | none => false
      let (old, s) := if whole then (secs.map fun x => (x, ⟨0, false, false, a.tag⟩), s)
        else ((s.hbmRead a sec).1, if kind = 2 then s else (s.hbmRead a sec).2)
      let new := apply (old.map fun p => match tfind held p.1 with
        | some v => (p.1, v)
        | none => p)
      if s.mscAllocs a kind then s.mscInsert a kind new
      else (s.mem fun m => { m with msc := held.foldl (fun t p => tdel t p.1) m.msc }).hbmWrite new

/-- An atomic on a sector at the MSC (R284, R300): one read, of the whole granule on a miss, and the bytes that `f` writes. -/
def State.mscAtomic (s : State) (a : Acc) (sec : Nat) (f : Sec → List (Nat × Byte)) : Sec × State :=
  let put := fun (v : Sec) => if (f v).isEmpty then v else v.take (f v)
  match tfind s.ms.msc sec with
  | some v => (v, (s.mscUse sec).mem fun m => { m with msc := tins m.msc sec (put v) })
  | none =>
    let (old, s) := s.hbmRead a sec
    let v := (tfind old sec).getD ⟨0, false, false, a.tag⟩
    let new := old.map fun p => if p.1 = sec then (p.1, put p.2) else (p.1, (tfind s.ms.msc p.1).getD p.2)
    (v,
     if s.mscAllocs a 2 then s.mscInsert a 2 new
     else if (f v).isEmpty then s
     else (s.mem fun m => { m with msc := new.foldl (fun t p => tdel t p.1) m.msc }).hbmWrite new)

/-- Groups of neighbouring sectors that share a granule. -/
def byGranule (g : Nat) : List (Nat × List (Nat × Byte)) → List (List (Nat × List (Nat × Byte)))
  | [] => []
  | w :: t =>
    match byGranule g t with
    | (v :: u) :: r => if w.1 / 2 ^ g = v.1 / 2 ^ g then (w :: v :: u) :: r else [w] :: (v :: u) :: r
    | r => [w] :: r

/-- Write sectors at the MSC. -/
def State.mscWrite (s : State) (a : Acc) (kind : Nat) (ws : List (Nat × List (Nat × Byte))) : State :=
  (byGranule (gOf a.tag) ws).foldl (fun s w => s.mscWriteG a kind w) s

/-- Sectors are not poisoned any more. -/
def State.unpoison (s : State) (secs : List Nat) : State :=
  s.mem fun m => { m with poison := m.poison.filter fun x => !secs.contains x }

/-- Write sectors straight to the window or an expander; a whole sector clears its poison (R257, R363). -/
def State.rawWrite (s : State) (ws : List (Nat × List (Nat × Byte))) : State :=
  s.mem fun m =>
    { m with
      mem := ws.foldl (fun t w => memPut t (w.2.map fun b => (64 * w.1 + b.1, b.2))) m.mem
      poison := m.poison.filter fun x => !(ws.any fun w => w.1 == x && w.2.length == 64) }

/-- Read a sector at the package point: the MSC, the window, the expander (R254). -/
def State.pkgRead (s : State) (a : Acc) (sec : Nat) : Sec × State :=
  if isHbm (64 * sec) then s.mscRead a sec
  else (⟨memSector s.ms.mem sec, false, s.ms.poison.contains sec, 0⟩, s)

/-- An atomic on a sector at the package point. -/
def State.pkgAtomic (s : State) (a : Acc) (sec : Nat) (f : Sec → List (Nat × Byte)) : Sec × State :=
  if isHbm (64 * sec) then s.mscAtomic a sec f
  else
    let v : Sec := ⟨memSector s.ms.mem sec, false, s.ms.poison.contains sec, 0⟩
    (v, if (f v).isEmpty then s else s.rawWrite [(sec, f v)])

/-- Write sectors of one page at the package point. -/
def State.pkgWrite (s : State) (a : Acc) (kind : Nat) (ws : List (Nat × List (Nat × Byte))) : State :=
  match ws with
  | [] => s
  | w :: _ =>
    if isHbm (64 * w.1) then s.mscWrite a kind ws
    else if kind = 3 then (s.rawWrite ws).unpoison (ws.map (·.1)) else s.rawWrite ws

/-- Bytes at addresses, grouped by sector with their offsets. -/
def bySector : List (Nat × Byte) → List (Nat × List (Nat × Byte))
  | [] => []
  | w :: t =>
    match bySector t with
    | (sec, b) :: r =>
      if w.1 / 64 = sec then (sec, (w.1 % 64, w.2) :: b) :: r else (w.1 / 64, [(w.1 % 64, w.2)]) :: (sec, b) :: r
    | [] => [(w.1 / 64, [(w.1 % 64, w.2)])]

/-- Bytes from an address on. -/
def bytesAt (pa : Nat) (l : List Byte) : List (Nat × Byte) := l.zipIdx.map fun p => (pa + p.2, p.1)

/-- The access of a party that has no leaf at hand: walkers, dispatch, the management core (R418, R422). -/
def rawAcc (s : State) (vdev cls sec : Nat) : Acc :=
  ⟨0, vdev, tget 0 s.ms.tags sec, cls⟩

/-- Bytes within one sector at the package point, read without a leaf. -/
def State.pkgBytes (s : State) (pa n : Nat) : List Byte × Bool × State :=
  let (v, s) := s.pkgRead (rawAcc s 0 0 (pa / 64)) (pa / 64)
  (secBytes v.data (pa % 64) n, v.poison, s)

/-- A dword at the package point. -/
def State.pkgWord (s : State) (pa : Nat) : Word × Bool × State :=
  let (l, p, s) := s.pkgBytes pa 8
  (W (leNat l), p, s)

/-- Sectors that a path other than a head has written: a record in one is undefined to heads (R189). -/
def State.aliens (s : State) (secs : List Nat) : State :=
  s.mem fun m => { m with alien := secs.foldl (fun t x => tset 0 t x (s.md.tick + 1)) m.alien }

/-- Sectors of a list of writes. -/
def secsOf (ws : List (Nat × List (Nat × Byte))) : List Nat := ws.map (·.1)

/-- Write bytes at the package point without a leaf. -/
def State.pkgPutRaw (s : State) (pa : Nat) (l : List Byte) : State :=
  (bySector (bytesAt pa l)).foldl (fun s w => s.pkgWrite (rawAcc s 0 0 w.1) 1 [w]) s

/-- Write bytes at the package point without a leaf: another path than a head's (R189). -/
def State.pkgPut (s : State) (pa : Nat) (l : List Byte) : State := (s.pkgPutRaw pa l).aliens (secsOf (bySector (bytesAt pa l)))

/-- Write a dword at the package point. -/
def State.pkgPutWord (s : State) (pa : Nat) (v : Word) : State := s.pkgPut pa (leBytes 8 v.toNat)

/-- The device writes a leaf that it has walked to: no store to a tape's bytes, and no new mapping of them (R189, log 42). -/
def State.leafPut (s : State) (pte : Nat) (v : Word) : State := s.pkgPutRaw pte (leBytes 8 v.toNat)

/-- Key of a sector in the L2 of a stove or the L1 of a core. -/
def cacheKey (owner sec : Nat) : Nat := owner * 2 ^ 46 + sec

/-- Write a dirty L2 sector to its package point (R254), over whatever a head has written there (R189). -/
def State.l2WriteBack (s : State) (a : Acc) (sec : Nat) (v : Sec) : State :=
  let a := { a with tag := v.tag, cls := 0 }
  let s := (s.pkgWrite a 1 [(sec, (secBytes v.data 0 64).zipIdx.map fun p => (p.2, p.1))]).aliens [sec]
  if !v.poison then s
  else if isHbm (64 * sec) then
    (match tfind s.ms.msc sec with
     | some w => s.mem fun m => { m with msc := tins m.msc sec { w with poison := true } }
     | none => s.hbmWrite ((granuleOf (gOf v.tag) sec).map fun x => (x, ⟨memSector s.ms.mem x, false, true, v.tag⟩)))
  else s.mem fun m => { m with poison := if m.poison.contains sec then m.poison else sec :: m.poison }

/-- Clean one sector of a stove's L2: its line is written back for the device that has allocated it (R300). -/
def State.l2Clean (s : State) (stove : Nat) (a : Acc) (sec : Nat) : State :=
  match tfind s.ms.l2 (cacheKey stove sec) with
  | some v =>
    let a := { a with vdev := ((tfind s.ms.l2Line (cacheKey stove (sec / 8))).map (·.2)).getD a.vdev }
    if v.dirty then
      (s.l2WriteBack a sec v).mem fun m => { m with l2 := tins m.l2 (cacheKey stove sec) { v with dirty := false } }
    else s
  | none => s

/-- Drop one sector of a stove's L2, discarding it. -/
def State.l2Drop (s : State) (stove sec : Nat) : State :=
  s.mem fun m => { m with l2 := tdel m.l2 (cacheKey stove sec) }

/-- Drop one sector of a core's L1. -/
def State.l1Drop (s : State) (core sec : Nat) : State :=
  s.mem fun m => { m with l1 := tdel m.l1 (cacheKey core sec) }

/-- An L2 lets go of a line that a device has allocated, its dirty sectors written back (R257). -/
def State.l2EvictLine (s : State) (stove vdev line : Nat) : State :=
  (lineSecs line).foldl (fun s x => (s.l2Clean stove ⟨48 * stove, vdev, 0, 0⟩ x).l2Drop stove x) s

/-- The L2 ways in which a device may allocate (R452). -/
def State.l2Mask (s : State) (a : Acc) : Nat := bits (s.reg (0xA0000 + 0x200 * stoveOf a.core + 8 * a.vdev)) 0 16

/-- The device may allocate in the stove's L2 (R452). -/
def State.l2Allocs (s : State) (a : Acc) : Bool := s.l2Mask a != 0

/-- Make room in the stove's L2 for the line of a sector (R286): 48 MiB in 16 ways, 6144 sets of 512-byte lines. -/
def State.l2Place (s : State) (a : Acc) (sec : Nat) : State :=
  let st := stoveOf a.core
  let line := sec / 8
  if (lineSecs line).any fun x => (tfind s.ms.l2 (cacheKey st x)).isSome then s
  else
    let way := s.pickWay 2 line (s.l2Mask a)
    let out := s.ms.l2Line.filter fun p =>
      p.1 / 2 ^ 46 == st && p.2.1 == way && setOf 2 6144 (p.1 % 2 ^ 46) == setOf 2 6144 line
    let s := out.foldl (fun s p => s.l2EvictLine st p.2.2 (p.1 % 2 ^ 46)) s
    s.mem fun m => { m with l2Line := tins (out.foldl (fun t p => tdel t p.1) m.l2Line) (cacheKey st line) (way, a.vdev) }

/-- Put a sector into the stove's L2. -/
def State.l2Insert (s : State) (a : Acc) (sec : Nat) (v : Sec) : State :=
  (s.l2Place a sec).mem fun m => { m with l2 := tins m.l2 (cacheKey (stoveOf a.core) sec) v }

/-- A use of a sector of a core's L1 (R286): 64 KiB in 8 ways, 128 sets; the least recently used line of a set that is full
goes. -/
def State.l1Touch (s : State) (core sec : Nat) : State :=
  s.mem fun m =>
    let rest := (tget [] m.l1Use core).filter fun x => x != sec && (tfind m.l1 (cacheKey core x)).isSome
    let old := if rest.length < 8 then [] else (rest.filter fun x => setOf 1 128 x == setOf 1 128 sec).drop 7
    { m with l1Use := tset [] m.l1Use core (sec :: rest.filter fun x => !old.contains x)
             l1 := old.foldl (fun t x => tdel t (cacheKey core x)) m.l1 }

/-- Read a sector at the stove's L2, filling it on a miss (R257, R286). -/
def State.l2Read (s : State) (a : Acc) (sec : Nat) : Sec × State :=
  let st := stoveOf a.core
  match tfind s.ms.l2 (cacheKey st sec) with
  | some v => (v, s)
  | none =>
    let (v, s) := s.pkgRead { a with cls := 0 } sec
    let v := { v with dirty := false, tag := a.tag }
    (v, if s.l2Allocs a && !v.poison then s.l2Insert a sec v else s)

/-- Write bytes of a sector at the stove's L2 (R257): a part of a sector is merged into it. -/
def State.l2Write (s : State) (a : Acc) (sec : Nat) (ws : List (Nat × Byte)) : State :=
  match tfind s.ms.l2 (cacheKey (stoveOf a.core) sec) with
  | some v => s.l2Insert a sec (v.take ws)
  | none =>
    if !s.l2Allocs a then s.pkgWrite { a with cls := 0 } 1 [(sec, ws)]
    else
      let (v, s) := if ws.length = 64 then ((⟨0, true, false, a.tag⟩ : Sec), s) else s.pkgRead { a with cls := 0 } sec
      s.l2Insert a sec ({ v with tag := a.tag }.take ws)

/-- A core's read of a sector of a cached page: L1, then the stove's L2 (R283). -/
def State.l1Read (s : State) (a : Acc) (sec : Nat) : Sec × State :=
  match tfind s.ms.l1 (cacheKey a.core sec) with
  | some v => (v, s.l1Touch a.core sec)
  | none =>
    let (v, s) := s.l2Read a sec
    (v, if v.poison then s else
      (s.mem fun m => { m with l1 := tins m.l1 (cacheKey a.core sec) { v with dirty := false } }).l1Touch a.core sec)

/-- A core's write to a sector of a cached page: through an L1 line that holds it, to the L2 (R257). -/
def State.l1Write (s : State) (a : Acc) (sec : Nat) (ws : List (Nat × Byte)) : State :=
  let s := s.l2Write a sec ws
  match tfind s.ms.l1 (cacheKey a.core sec) with
  | some v =>
    (s.mem fun m => { m with l1 := tins m.l1 (cacheKey a.core sec) { v with data := secWrite v.data ws } }).l1Touch a.core sec
  | none => s

/-- Read a sector where its page's path performs a read (R283). -/
def State.pathRead (s : State) (p : Path) (a : Acc) (sec : Nat) : Sec × State :=
  match p with
  | .cached => s.l1Read a sec
  | .msc => s.mscRead a sec
  | .window => s.pkgRead a sec

/-- Write bytes where the page's path performs a write (R257, R283). -/
def State.pathWrite (s : State) (p : Path) (a : Acc) (ws : List (Nat × Byte)) : State :=
  match p with
  | .cached => ((bySector ws).foldl (fun s w => s.l1Write a w.1 w.2) s).aliens (secsOf (bySector ws))
  | .msc => (s.mscWrite a 1 (bySector ws)).aliens (secsOf (bySector ws))
  | .window => s.rawWrite (bySector ws)

/-- Clean a sector from a stove's L2 and drop it from the levels of an acquire (R254, R257): `l2` for the L2 too. -/
def State.acquireSec (s : State) (a : Acc) (l2 : Bool) (sec : Nat) : State :=
  let s := s.l1Drop a.core sec
  if l2 then (s.l2Clean (stoveOf a.core) a sec).l2Drop (stoveOf a.core) sec else s

/-- A byte of a core's scratchpad; an unlisted one reads 0. -/
def State.spByte (s : State) (core off : Nat) : Byte := memByte s.ms.spad (core * 2 ^ 22 + off)

/-- Bytes of a core's scratchpad. -/
def State.spRead (s : State) (core off n : Nat) : List Byte := memBytes s.ms.spad (core * 2 ^ 22 + off) n

/-- Write bytes of a core's scratchpad. -/
def State.spWrite (s : State) (core off : Nat) (l : List Byte) : State :=
  s.mem fun m => { m with spad := memWrite m.spad (core * 2 ^ 22 + off) l }

end Sys2Proof.Machine
end

