-- ==== Sys2Proof/Machine/Translate.lean ====
section
/-! DEFINITION. Address translation and protection (spec/17): walks, held translations, permissions, the accessed and
dirty bits. -/
namespace Sys2Proof.Machine

/-- Fields of a leaf (R414). -/
def lfRd (e : Word) : Bool := bitAt e 4
@[inherit_doc lfRd] def lfWr (e : Word) : Bool := bitAt e 5
@[inherit_doc lfRd] def lfEx (e : Word) : Bool := bitAt e 6
@[inherit_doc lfRd] def lfMg (e : Word) : Bool := bitAt e 9
@[inherit_doc lfRd] def lfG (e : Word) : Nat := bits e 10 2
@[inherit_doc lfRd] def lfMs (e : Word) : Bool := bitAt e 12
@[inherit_doc lfRd] def lfTier (e : Word) : Nat := bits e 13 2
@[inherit_doc lfRd] def lfSt (e : Word) : Bool := bitAt e 15
@[inherit_doc lfRd] def lfFrame (e : Word) : Nat := bits e 16 36 * 2 ^ 16
@[inherit_doc lfRd] def lfKey (e : Word) : Nat := bits e 52 5
@[inherit_doc lfRd] def lfSize (e : Word) : Nat := bits e 2 2

/-- Mask bits of a leaf (R414, R416). -/
def maskLs : Nat := 57
@[inherit_doc maskLs] def maskHd : Nat := 58
@[inherit_doc maskLs] def maskCp : Nat := 59
@[inherit_doc maskLs] def maskGr : Nat := 60
@[inherit_doc maskLs] def maskLk : Nat := 62

/-- Bytes of a page of a size code (R414). -/
def pageBytes (size : Nat) : Nat := if size = 0 then 2 ^ 16 else if size = 1 then 2 ^ 21 else 2 ^ 30

/-- A leaf found at a level is valid (R414, R415). -/
def validLeaf (e : Word) (lvl : Nat) : Bool :=
  1 ≤ lvl && lfSize e + lvl == 3 && lfTier e != 3 && !bitAt e 63 &&
  (if lfTier e = 2 then bits e 44 8 == 0 && !lfSt e
   else
     lfFrame e % pageBytes (lfSize e) == 0 && rangeOk (lfTier e) (lfFrame e) (pageBytes (lfSize e)) &&
     (!isWin (lfFrame e) || lfSize e == 0) && (!lfSt e || lfTier e == 1))

/-- Index of a level (R412). -/
def walkIndex (lvl va : Nat) : Nat :=
  if lvl = 0 then va / 2 ^ 39 else if lvl = 1 then va / 2 ^ 30 % 512 else if lvl = 2 then va / 2 ^ 21 % 512 else va / 2 ^ 16 % 32

/-- A table entry is usable at a level: its reserved bits, and the place and alignment of the next table (R413, R415). -/
def validTable (e : Word) (lvl : Nat) : Bool :=
  bits e 52 12 == 0 && bits e 2 6 == 0 && isHbm (bits e 8 44 * 256) &&
  (bits e 8 44 * 256) % (if lvl = 2 then 256 else 4096) == 0

/-- A translation in hand: the page's first address and size, its leaf and where the leaf lies. -/
structure Xl where
  va : Nat
  size : Nat
  leaf : Word
  pte : Nat
  deriving DecidableEq, Repr

/-- What a walk gives (R412, R423). -/
inductive WalkRes where
  | ok (x : Xl)
  | fail (poisoned : Bool)
  /-- the frame is marked scrub-pending -/
  | pending
  deriving DecidableEq, Repr

/-- A frame overlaps one that is marked scrub-pending (R423). -/
def MemSt.scrubbing (m : MemSt) (pa n : Nat) : Bool :=
  (m.scrubs.take 64).any fun r =>
    let b := bits r 16 36 * 2 ^ 16
    decide (b < pa + n) && decide (pa < b + pageBytes (bits r 0 2))

/-- The levels of a walk from a table on (R412). -/
def walkFrom (va : Nat) : List Nat → Nat → State → WalkRes × State
  | [], _, s => (.fail false, s)
  | lvl :: rest, t, s =>
    let pa := t + 8 * walkIndex lvl va
    if !isHbm pa then (.fail false, s)
    else
      let (e, poison, s) := s.pkgWord pa
      if poison then (.fail true, s)
      else if !bitAt e 0 then (.fail false, s)
      else if bitAt e 1 then
        if !validLeaf e lvl then (.fail false, s)
        else
          let n := pageBytes (lfSize e)
          if lfTier e < 2 && s.ms.scrubbing (lfFrame e) n then (.pending, s)
          else (.ok ⟨va / n * n, n, e, pa⟩, s)
      else if !validTable e lvl then (.fail false, s)
      else walkFrom va rest (bits e 8 44 * 256) s

/-- A walk of a virtual device's tables (R411, R412, R422). -/
def State.walk (s : State) (vdev va : Nat) : WalkRes × State :=
  let root := s.reg (0x30000 + 0x80 * vdev)
  if 2 ^ 54 ≤ va || !bitAt root 0 then (.fail false, s)
  else walkFrom va [0, 1, 2, 3] (bits root 18 34 * 2 ^ 18) s

/-- A walk of an address fails at a poisoned sector of a table (R415). -/
def State.walkHurt (s : State) (vdev va : Nat) : Bool := (s.walk vdev va).1 == .fail true

/-- A held entry covers an address. -/
def TlbEnt.covers (e : TlbEnt) (owner vdev va : Nat) : Bool :=
  e.owner == owner && e.vdev == vdev && decide (e.va ≤ va) && decide (va < e.va + e.size)

/-- Look a translation up in a TLB (R417). A held leaf that the access cannot use is passed over, and the access walks
again: no failure is held, so that a change that widens rights needs no shootdown (R417, R419; log 51). -/
def tlbFind (l : List TlbEnt) (owner vdev va : Nat) (bad : Word → Bool) : Option Xl :=
  (l.find? fun e => e.covers owner vdev va && !bad e.leaf).map fun e => ⟨e.va, e.size, e.leaf, e.pte⟩

/-- A list without the n-th of its members that `p` names. -/
def dropNth {α : Type} (p : α → Bool) : Nat → List α → List α
  | _, [] => []
  | n, a :: t => if !p a then a :: dropNth p n t else if n = 0 then t else a :: dropNth p (n - 1) t

/-- Take an entry into a TLB that holds n of those that `same` names: where it is full, one of them goes, a free choice
(R417, log 12). -/
def tlbPut (n pick : Nat) (same : TlbEnt → Bool) (e : TlbEnt) (l : List TlbEnt) : List TlbEnt :=
  let l := l.filter fun q => !(q.covers e.owner e.vdev e.va)
  e :: (if l.length < n || (l.filter same).length < n then l else dropNth same (pick % n) l)

/-- What names a page to the sets of a stove TLB. -/
def TlbEnt.key (e : TlbEnt) : Nat := e.vdev * 2 ^ 54 + e.va

/-- Hold a translation in a core TLB, of 64 entries (R417). -/
def State.coreHold (s : State) (core vdev : Nat) (x : Xl) : State :=
  let e : TlbEnt := ⟨core, vdev, x.va, x.size, x.leaf, x.pte⟩
  s.mem fun m => { m with coreTlb := tlbPut 64 (Config.freeWay 4 e.key s.md.tick) (fun q => q.owner == core) e m.coreTlb }

/-- Hold a translation in a stove TLB, of 8192 entries in 8 ways (R417, R353). -/
def State.stoveHold (s : State) (stove vdev : Nat) (x : Xl) : State :=
  let e : TlbEnt := ⟨stove, vdev, x.va, x.size, x.leaf, x.pte⟩
  let same := fun (q : TlbEnt) => q.owner == stove && setOf 5 1024 q.key == setOf 5 1024 e.key
  s.mem fun m => { m with stoveTlb := tlbPut 8 (Config.freeWay 5 e.key s.md.tick) same e m.stoveTlb }

/-- Hold a translation in the TLBs of a core and its stove (R417). -/
def State.tlbHold (s : State) (core vdev : Nat) (x : Xl) : State := (s.coreHold core vdev x).stoveHold (stoveOf core) vdev x

/-- Drop a held translation of one leaf entry. -/
def State.tlbDrop (s : State) (pte : Nat) : State :=
  s.mem fun m =>
    { m with coreTlb := m.coreTlb.filter (fun e => e.pte != pte), stoveTlb := m.stoveTlb.filter (fun e => e.pte != pte) }

/-- Give held copies of a leaf entry a new value. -/
def State.tlbUpdate (s : State) (pte : Nat) (leaf : Word) : State :=
  let up := fun (e : TlbEnt) => if e.pte == pte then { e with leaf := leaf } else e
  s.mem fun m => { m with coreTlb := m.coreTlb.map up, stoveTlb := m.stoveTlb.map up }

/-- Translate through a stove's TLB (R353, R417): held there, or by a walk, whose result is then held. -/
def State.xlateStove (s : State) (stove vdev va : Nat) (bad : Word → Bool) : WalkRes × State :=
  match tlbFind s.ms.stoveTlb stove vdev va bad with
  | some x => (.ok x, s)
  | none =>
    match s.walk vdev va with
    | (.ok x, s) => (.ok x, s.stoveHold stove vdev x)
    | (r, s) => (r, s)

/-- Find a translation that the access can use: in the core TLB, or through the stove's, and then held in both (R417). -/
def State.xlateFor (s : State) (core vdev va : Nat) (bad : Word → Bool) : WalkRes × State :=
  match tlbFind s.ms.coreTlb core vdev va bad with
  | some x => (.ok x, s)
  | none =>
    match s.xlateStove (stoveOf core) vdev va bad with
    | (.ok x, s) => (.ok x, s.coreHold core vdev x)
    | (r, s) => (r, s)

/-- Find a translation: held, or by a walk that is then held (R417). -/
def State.xlate (s : State) (core vdev va : Nat) : WalkRes × State := s.xlateFor core vdev va fun _ => false

/-- What an access needs of its page (R416). -/
structure Need where
  rd : Bool
  wr : Bool
  ex : Bool
  /-- mask bit of its agent -/
  mask : Option Nat
  /-- sr.pkp to check the key against, for streams, heads and windows -/
  pkp : Option Word
  deriving DecidableEq, Repr

/-- Steps 2 to 4 of R416 on a leaf: the cause of a stream (an engine's status is 0x12). -/
def Need.check (n : Need) (e : Word) : Option (BitVec 8) :=
  if (n.rd && !lfRd e) || (n.wr && !lfWr e) || (n.ex && !lfEx e) then some 0x16
  else if (match n.mask with
    | some b => !bitAt e b
    | none => false) then some 0x16
  else
    match n.pkp with
    | none => none
    | some p => if bitAt p (2 * lfKey e) || (n.wr && bitAt p (2 * lfKey e + 1)) then some 0x17 else none

/-- An access cannot use a leaf: it lacks a right, or it writes and the page is migrating (R416, R421). -/
def Need.bars (n : Need) (e : Word) : Bool := (n.check e).isSome || (n.wr && lfMg e)

/-- What translating and checking one access gives. -/
inductive Reach where
  | ok (x : Xl)
  | trap (cause : BitVec 8) (poisoned : Bool)
  | wait
  deriving DecidableEq, Repr

/-- Whether the device has to set the accessed or dirty bit (R418). -/
def adMissing (e : Word) (wr : Bool) : Bool := !bitAt e 7 || (wr && !bitAt e 8)

/-- The leaf with its accessed and dirty bits set (R418). -/
def adSet (e : Word) (wr : Bool) : Word := e ||| 0x80 ||| (if wr then 0x100 else 0)

/-- Set the accessed and dirty bits by a compare-and-swap at the MSC (R418): whether the entry still had the held
value, the leaf, the state. -/
def State.adUpdate (s : State) (x : Xl) (wr : Bool) : Bool × Xl × State :=
  if !adMissing x.leaf wr then (true, x, s)
  else
    let (e, _, s) := s.pkgWord x.pte
    if e = x.leaf then
      let e := adSet e wr
      (true, { x with leaf := e }, (s.leafPut x.pte e).tlbUpdate x.pte e)
    else (false, x, s.tlbDrop x.pte)

/-- Translate and check an access (R416), set the bits of R418, and walk again if the entry has changed. -/
def State.reachN : Nat → State → Nat → Nat → Nat → Need → Reach × State
  | 0, s, _, _, _, _ => (.wait, s)
  | fuel + 1, s, core, vdev, va, n =>
    match s.xlateFor core vdev va n.bars with
    | (.fail p, s) => (.trap 0x15 p, s)
    | (.pending, s) => (.wait, s)
    | (.ok x, s) =>
      match n.check x.leaf with
      | some c => (.trap c false, s)
      | none =>
        if n.wr && lfMg x.leaf then (.wait, s)
        else
          match s.adUpdate x n.wr with
          | (true, x, s) => (.ok x, s)
          | (false, _, s) => State.reachN fuel s core vdev va n

/-- Translate and check an access. -/
def State.reach (s : State) (core vdev va : Nat) (n : Need) : Reach × State := State.reachN 2 s core vdev va n

/-- The tag of a page (R306): its granule and memory-side bit, which only HBM pages have (R414). -/
def lfTag (e : Word) : Nat :=
  if lfTier e = 0 && isHbm (lfFrame e) then 1 + lfG e + 4 * b2n (lfMs e) else 0

/-- Physical address of a virtual address in a page. -/
def Xl.pa (x : Xl) (va : Nat) : Nat := lfFrame x.leaf + (va - x.va)

/-- The path of an access to a page (R283, R363). -/
def pathOf (e : Word) : Path :=
  if isWin (lfFrame e) then .window else if lfTier e = 0 && lfMs e then .msc else .cached

/-- How a context's access reaches a page. -/
def Ctx.acc (k : Ctx) (core : Nat) (e : Word) (cls : Nat) : Acc := ⟨core, k.bd.vdev, lfTag e, cls⟩

/-- An access to an expander that has stopped responding (R466). -/
def State.expDead (s : State) (pa : Nat) : Bool := isCxl pa && s.ms.expDown.contains (cxlPort pa)

/-- A translated access of one context. -/
structure Target where
  pa : Nat
  path : Path
  acc : Acc
  leaf : Word
  deriving DecidableEq, Repr

/-- What a stream's access to global memory meets. -/
inductive Look where
  | ok (t : Target)
  | trap (cause : BitVec 8)
  | wait (w : Why)
  deriving DecidableEq, Repr

/-- The sectors that an access of n bytes touches. -/
def sectorsOf (pa n : Nat) : List Nat := (upTo ((pa + n - 1) / 64 + 1 - pa / 64)).map fun i => pa / 64 + i

/-- Translate a stream's access (R277, R283, R421): a remote page is cause 0x14. -/
def State.look (s : State) (core : Nat) (k : Ctx) (va : Word) (n : Need) : Look × State :=
  match s.reach core k.bd.vdev va.toNat n with
  | (.trap c _, s) => (.trap c, s)
  | (.wait, s) => (.wait .migrating, s)
  | (.ok x, s) =>
    if lfTier x.leaf = 2 then (.trap 0x14, s)
    else (.ok ⟨x.pa va.toNat, pathOf x.leaf, k.acc core x.leaf 0, x.leaf⟩, s)

/-- An access of n bytes goes beyond the stove's L2 to an expander (R285). -/
def State.farAt (s : State) (core pa n : Nat) : Bool :=
  isCxl pa && (sectorsOf pa n).any fun sec => (tfind s.ms.l2 (cacheKey (stoveOf core) sec)).isNone

/-- Bytes at a physical address through a path, across sectors: with poison. -/
def State.pathBytes (s : State) (p : Path) (a : Acc) (pa n : Nat) : List Byte × Bool × State :=
  (sectorsOf pa n).foldl (fun (r : List Byte × Bool × State) sec =>
    let (v, s) := r.2.2.pathRead p a sec
    let lo := if 64 * sec < pa then pa % 64 else 0
    let hi := min 64 (pa + n - 64 * sec)
    (r.1 ++ secBytes v.data lo (hi - lo), r.2.1 || v.poison, s)) ([], false, s)

/-- A sector of the range is poisoned where the access reads it (R305), and the state that looking leaves: its counters and
what the caches have taken in. -/
def State.poisonAt (s : State) (t : Target) (n : Nat) : Bool × State := (s.pathBytes t.path t.acc t.pa n).2

end Sys2Proof.Machine
end

