-- ==== Sys2Proof/Machine/Turn.lean ====
section
/-! DEFINITION. Fetching a word (R57, R143, R424), and what passes with every step: time and the stall counters. -/
namespace Sys2Proof.Machine

/-- A byte of text as a fetch finds it: in the stove's L2, in the MSC, in memory (log 21). A poisoned sector reads
as free bytes (log 16). -/
def State.textByte (s : State) (core : Nat) (e : Word) (pa : Nat) : Byte :=
  let sec := pa / 64
  let free := Config.freeByte (s.md.tick * 2 ^ 52 + pa)
  let beyond : Byte :=
    match (if isHbm pa then tfind s.ms.msc sec else none) with
    | some v => if v.poison then free else secByte v.data (pa % 64)
    | none => if s.ms.poison.contains sec then free else memByte s.ms.mem pa
  match pathOf e with
  | .cached =>
    match tfind s.ms.l2 (cacheKey (stoveOf core) sec) with
    | some v => if v.poison then free else secByte v.data (pa % 64)
    | none => beyond
  | _ => beyond

/-- What a fetch gives. -/
inductive Fetched where
  | word (w : Word)
  /-- the cause; sr.epc and sr.tval hold the address -/
  | trap (cause : BitVec 8)
  | wait
  deriving DecidableEq, Repr

/-- An address lies in a stream's text section (R57, R143). -/
def Binding.inText (b : Binding) (st : Stream) (a : Word) : Bool :=
  let base := (tget 0 b.textBase st.num).toNat
  decide (base ≤ a.toNat) && decide (a.toNat + 8 ≤ base + (tget 0 b.textSize st.num).toNat)

/-- What a fetch of a page needs: execute permission alone (R416). -/
def Need.fetch : Need := ⟨false, false, true, none, none⟩

/-- Fetch the word at an address of the stream's text (R57, R143). -/
def Mach.fetchAt (m : Mach) (a : Word) : Fetched × Mach :=
  if !m.k.bd.inText m.st a then (.trap 0x10, m)
  else
    let core := m.x.core.toNat
    match m.s.reach core m.k.bd.vdev a.toNat Need.fetch with
    | (.trap c _, s) => (.trap c, { m with s := s })
    | (.wait, s) => (.wait, { m with s := s })
    | (.ok x, s) =>
      if lfTier x.leaf = 2 then (.trap 0x14, { m with s := s })
      else
        let pa := x.pa a.toNat
        (.word (wordOfBytes ((upTo 8).map fun i => s.textByte core x.leaf (pa + i))), { m with s := s })

/-- Take the trap of a fetch (R143, R424): sr.epc and sr.tval hold the address. -/
def Mach.fetchTrap (m : Mach) (c : BitVec 8) : State := (m.takeTrap c m.t.pc m.t.pc).leave (.trapped c)

/-- The stream cannot take its next word yet: a push is owed, a delay runs (R115, R145). -/
def Mach.heldUp (m : Mach) : Option Why :=
  if m.payOwed.t.owed != 0 then some .push else if m.delayed then some .delay else none

/-- A counter that saturates at 2^64 − 1 (R250). -/
def satAdd (w : Word) (n : Nat) : Word := W (min (w.toNat + n) (2 ^ 64 - 1))

/-- Cycles pass while the words of a running context wait: MSTAT's damper and flue stalls (R250), DSTAT's crossing
waits (R217). -/
def Ctx.countStall (k : Ctx) (dt : Nat) : Ctx :=
  let k := match k.m.stalled with
    | some .damper => { k with mat := { k.mat with dstall := satAdd k.mat.dstall dt, dwait := k.mat.dwait + dt } }
    | some .headRecord | some .crossing | some .tier | some .queue => { k with mat := { k.mat with fstall := satAdd k.mat.fstall dt } }
    | _ => k
  if k.d.stalled == some .crossing then { k with xw := satAdd k.xw dt } else k

/-- The counters of all contexts that may issue. -/
def State.countStall (s : State) (dt : Nat) : State :=
  { s with ctxs := s.ctxs.map fun p =>
      if p.2.run == .ready && !p.2.held && s.runsAt (keyCtx p.1) then (p.1, p.2.countStall dt) else p }

/-- The damper levels refill, up to their caps (R248, R408). -/
def State.refill (s : State) (dt : Nat) : State :=
  { s with damper := (upTo 4).foldl (fun t n =>
      let r := s.reg (0x40 * n)
      tset 0 t n (min (bits r 16 32) (tget 0 t n + dt * bits r 0 16))) s.damper }

/-- Cycles pass: time, the stall counters, the dampers. -/
def State.pass (s : State) (dt : Nat) : State :=
  let s := (s.countStall dt).refill dt
  { s with time := s.time + dt }

/-- The model's own tick (log 2). -/
def State.ticked (s : State) : State := { s with md := { s.md with tick := s.md.tick + 1 } }

/-- What every step adds: the tick, and the cycles it takes (log 2); none pass once the clocks have stopped (R409). -/
def State.elapse (s : State) : State := (if s.frozen then s else s.pass (Config.freeCycles s.md.tick)).ticked

/-- The turn that the agenda names, or a free one (log 1). -/
def State.nextTurn (s : State) : Turn × State :=
  match s.md.agenda with
  | t :: rest => (t, { s with md := { s.md with agenda := rest } })
  | [] => (Config.freeTurn s.md.tick, s)

/-- A binding for one word of one stream (log 22): its text is the word, in the page at virtual address 0x10000. -/
def Binding.forWord (st : Stream) : Binding :=
  { vdev := 0, task := 0, kdesc := 0, stats := 0, comp := 0, recAddr := 0, det := 0, dormant := false, rank := 0, gsize := 1,
    split := 0, second := false, sbase := 0, ssize := 0x10000, lq := 20, weight := 1, entry := [(st.num, 0x10000)],
    textBase := [(st.num, 0x10000)], textSize := [(st.num, 8)], twoBuf := true, slot0 := 0, slots := 8, wins := [] }

/-- Place one word so that the next step fetches and runs it (log 22): a context with fresh registers is bound in
bank 0 of core 0, its text page is held in the core TLB, the word stands in HBM, and the agenda names the stream. -/
def State.placeWord (s : State) (nbits w : Nat) : State :=
  let v : Word := BitVec.ofNat 64 (w % 2 ^ nbits)
  let st := Stream.ofCl (v.extractLsb' 50 2)
  let x : CtxRef := ⟨0, false⟩
  let k := Ctx.init (Binding.forWord st) false 0 false 0 (fun n => if n = st.num then 0x10000 else 0) (fun _ => 0)
  let leaf : Word := W (hbmBase + 0xC3)
  let s := (s.setCtx x k).runBank x
  let s := s.mem fun m =>
    { m with mem := memWrite m.mem hbmBase (bytesOfWord v), coreTlb := ⟨0, 0, 0x10000, 0x10000, leaf, hbmBase + 0x10000⟩ :: m.coreTlb }
  { s with md := { s.md with agenda := [.issue x st], rdv := 0 } }

/-- The steps that a frozen package still takes: readout over Brotin, reset, and the loss of power (R409, R410, R476, log 40). -/
def frozenStep (i : Instr) : Bool :=
  match i with
  | .chsel _ | .chrd | .bypass | .samplePreload | .extest | .idcode | .packageReset | .thermalPowerOff => true
  | _ => false

end Sys2Proof.Machine
end

