-- ==== Sys2Proof/Machine/Scalar.lean ====
section
/-! DEFINITION. The scalar instructions of spec/06: arithmetic, logic, immediates, bit fields, compares, guards. -/
namespace Sys2Proof.Machine

/-- Ports of an S3 word with two sources (R65, R127). -/
def s3Ports (o : S3) : Ports := { Ports.none with srcs := [o.s1, o.s2], dsts := [o.dst] }

/-- Ports of an S3 word with one source. -/
def s3Ports1 (o : S3) : Ports := { Ports.none with srcs := [o.s1], dsts := [o.dst] }

/-- Ports of an SI word with a source and a destination. -/
def siPorts (o : SI) : Ports := { Ports.none with srcs := [o.s1], dsts := [o.dst] }

/-- Body of a word that writes a function of two sources (R127 to R129). -/
def binBody (dst : BitVec 6) (f : Word → Word → Word) (m : Mach) (a : Opnds) : Res :=
  .done (m.put dst a.act (f (a.v 0) (a.v 1)) a.valid)

/-- Body of a word that writes a function of one source. -/
def unBody (dst : BitVec 6) (f : Word → Word) (m : Mach) (a : Opnds) : Res :=
  .done (m.put dst a.act (f (a.v 0)) a.valid)

/-- Meaning of a two-source S3 word. -/
def runBin (i : Instr) (h : Hdr) (o : S3) (f : Word → Word → Word) (s : State) : Out :=
  issueWord i h (s3Ports o) (binBody o.dst f) s

/-- Meaning of a one-source S3 word. -/
def runUn (i : Instr) (h : Hdr) (o : S3) (f : Word → Word) (s : State) : Out := issueWord i h (s3Ports1 o) (unBody o.dst f) s

/-- Meaning of an SI word that combines S1 with its immediate. -/
def runImm (i : Instr) (h : Hdr) (o : SI) (f : Word → Word) (s : State) : Out := issueWord i h (siPorts o) (unBody o.dst f) s

/-- The immediate of an SI word, sign-extended (R76). -/
def siImm (o : SI) : Word := o.imm.signExtend 64

/-- High half of an unsigned product (R132). -/
def mulHiU (a b : Word) : Word := W (a.toNat * b.toNat / 2 ^ 64)

/-- High half of a signed product (R132). -/
def mulHiS (a b : Word) : Word := WI (a.toInt * b.toInt / 2 ^ 64)

/-- Unsigned quotient; all ones for a zero divisor (R132). -/
def divU (a b : Word) : Word := if b = 0 then BitVec.allOnes 64 else W (a.toNat / b.toNat)

/-- Unsigned remainder; the dividend for a zero divisor (R132). -/
def remU (a b : Word) : Word := if b = 0 then a else W (a.toNat % b.toNat)

/-- Signed quotient, truncated (R132). -/
def divS (a b : Word) : Word := if b = 0 then BitVec.allOnes 64 else WI (a.toInt.tdiv b.toInt)

/-- Signed remainder, with the sign of the dividend (R132). -/
def remS (a b : Word) : Word := if b = 0 then a else WI (a.toInt.tmod b.toInt)

/-- ADD (R132). -/
def execAdd (h : Hdr) (o : S3) (s : State) : Out := runBin (.add h o) h o (fun a b => a + b) s
/-- SUB (R132). -/
def execSub (h : Hdr) (o : S3) (s : State) : Out := runBin (.sub h o) h o (fun a b => a - b) s
/-- MUL (R132). -/
def execMul (h : Hdr) (o : S3) (s : State) : Out := runBin (.mul h o) h o (fun a b => a * b) s
/-- MULHI (R132). -/
def execMulhi (h : Hdr) (o : S3) (s : State) : Out := runBin (.mulhi h o) h o mulHiU s
/-- MULHIS (R132). -/
def execMulhis (h : Hdr) (o : S3) (s : State) : Out := runBin (.mulhis h o) h o mulHiS s
/-- DIV (R132). -/
def execDiv (h : Hdr) (o : S3) (s : State) : Out := runBin (.div h o) h o divU s
/-- DIVS (R132). -/
def execDivs (h : Hdr) (o : S3) (s : State) : Out := runBin (.divs h o) h o divS s
/-- REM (R132). -/
def execRem (h : Hdr) (o : S3) (s : State) : Out := runBin (.rem h o) h o remU s
/-- REMS (R132). -/
def execRems (h : Hdr) (o : S3) (s : State) : Out := runBin (.rems h o) h o remS s

/-- A shift amount: bits [5:0] (R133). -/
def shAmt (b : Word) : Nat := bits b 0 6

/-- Rotation left (R133). -/
def rolWord (a b : Word) : Word := a.rotateLeft (shAmt b)

/-- AND (R133). -/
def execAnd (h : Hdr) (o : S3) (s : State) : Out := runBin (.and h o) h o (fun a b => a &&& b) s
/-- OR (R133). -/
def execOr (h : Hdr) (o : S3) (s : State) : Out := runBin (.or h o) h o (fun a b => a ||| b) s
/-- XOR (R133). -/
def execXor (h : Hdr) (o : S3) (s : State) : Out := runBin (.xor h o) h o (fun a b => a ^^^ b) s
/-- ANDN (R133). -/
def execAndn (h : Hdr) (o : S3) (s : State) : Out := runBin (.andn h o) h o (fun a b => a &&& ~~~b) s
/-- SHL (R133). -/
def execShl (h : Hdr) (o : S3) (s : State) : Out := runBin (.shl h o) h o (fun a b => a <<< shAmt b) s
/-- SHR (R133). -/
def execShr (h : Hdr) (o : S3) (s : State) : Out := runBin (.shr h o) h o (fun a b => a >>> shAmt b) s
/-- SRA (R133). -/
def execSra (h : Hdr) (o : S3) (s : State) : Out := runBin (.sra h o) h o (fun a b => a.sshiftRight (shAmt b)) s
/-- ROL (R133). -/
def execRol (h : Hdr) (o : S3) (s : State) : Out := runBin (.rol h o) h o rolWord s
/-- MIN, unsigned (R133). -/
def execMin (h : Hdr) (o : S3) (s : State) : Out := runBin (.min h o) h o (fun a b => if a.ult b then a else b) s
/-- MINS, signed (R133). -/
def execMins (h : Hdr) (o : S3) (s : State) : Out := runBin (.mins h o) h o (fun a b => if a.slt b then a else b) s
/-- MAX, unsigned (R133). -/
def execMax (h : Hdr) (o : S3) (s : State) : Out := runBin (.max h o) h o (fun a b => if a.ult b then b else a) s
/-- MAXS, signed (R133). -/
def execMaxs (h : Hdr) (o : S3) (s : State) : Out := runBin (.maxs h o) h o (fun a b => if a.slt b then b else a) s

/-- ADDI (R134). -/
def execAddi (h : Hdr) (o : SI) (s : State) : Out := runImm (.addi h o) h o (fun a => a + siImm o) s
/-- ANDI (R134). -/
def execAndi (h : Hdr) (o : SI) (s : State) : Out := runImm (.andi h o) h o (fun a => a &&& siImm o) s
/-- ORI (R134). -/
def execOri (h : Hdr) (o : SI) (s : State) : Out := runImm (.ori h o) h o (fun a => a ||| siImm o) s
/-- XORI (R134). -/
def execXori (h : Hdr) (o : SI) (s : State) : Out := runImm (.xori h o) h o (fun a => a ^^^ siImm o) s
/-- SHLI (R134). -/
def execShli (h : Hdr) (o : SI) (s : State) : Out := runImm (.shli h o) h o (fun a => a <<< shAmt (siImm o)) s
/-- SHRI (R134). -/
def execShri (h : Hdr) (o : SI) (s : State) : Out := runImm (.shri h o) h o (fun a => a >>> shAmt (siImm o)) s
/-- SRAI (R134). -/
def execSrai (h : Hdr) (o : SI) (s : State) : Out := runImm (.srai h o) h o (fun a => a.sshiftRight (shAmt (siImm o))) s
/-- LI (R134); its S1 field is 0 and names no register (R89). -/
def execLi (h : Hdr) (o : SI) (s : State) : Out :=
  issueWord (.li h o) h { Ports.none with dsts := [o.dst] } (unBody o.dst fun _ => siImm o) s
/-- LIH (R134). -/
def execLih (h : Hdr) (o : SI) (s : State) : Out := runImm (.lih h o) h o (fun a => a + (siImm o <<< 31)) s

/-- The low w bits set. -/
def lowMask (w : Nat) : Word := W (2 ^ w - 1)

/-- Width field of a bit-field word (R136). -/
def s3Width (o : S3) : Nat := o.fn.toNat % 64 + 1

/-- Bit field (R136). -/
def bfxWord (w : Nat) (a b : Word) : Word := (a >>> shAmt b) &&& lowMask w

/-- Signed bit field: its sign is bit w − 1 (R136). -/
def bfxsWord (w : Nat) (a b : Word) : Word :=
  let f := bfxWord w a b
  if bitAt f (w - 1) then f ||| ~~~(lowMask w) else f

/-- Bit-field insert into the old value (R136). -/
def bfiWord (w : Nat) (old a b : Word) : Word :=
  (old &&& ~~~(lowMask w <<< shAmt b)) ||| ((a &&& lowMask w) <<< shAmt b)

/-- Funnel shift left of the pair a:b (R137). -/
def fshlWord (n : Nat) (a b : Word) : Word := if n = 0 then a else (a <<< n) ||| (b >>> (64 - n))

/-- Funnel shift right of the pair a:b (R137). -/
def fshrWord (n : Nat) (a b : Word) : Word := if n = 0 then b else (b >>> n) ||| (a <<< (64 - n))

/-- BFX (R136). -/
def execBfx (h : Hdr) (o : S3) (s : State) : Out := runBin (.bfx h o) h o (bfxWord (s3Width o)) s
/-- BFXS (R136). -/
def execBfxs (h : Hdr) (o : S3) (s : State) : Out := runBin (.bfxs h o) h o (bfxsWord (s3Width o)) s
/-- BFI (R136). -/
def execBfi (h : Hdr) (o : S3) (s : State) : Out :=
  issueWord (.bfi h o) h (s3Ports o) (fun m a => binBody o.dst (bfiWord (s3Width o) (m.t.reg o.dst.toNat)) m a) s

/-- The shift amount of a funnel shift: FN, or the old value of DST (R137). -/
def s3Funnel (o : S3) (m : Mach) : Nat := if o.fn.getLsbD 6 then shAmt (m.t.reg o.dst.toNat) else o.fn.toNat % 64

/-- FSHL (R137). -/
def execFshl (h : Hdr) (o : S3) (s : State) : Out :=
  issueWord (.fshl h o) h (s3Ports o) (fun m a => binBody o.dst (fshlWord (s3Funnel o m)) m a) s
/-- FSHR (R137). -/
def execFshr (h : Hdr) (o : S3) (s : State) : Out :=
  issueWord (.fshr h o) h (s3Ports o) (fun m a => binBody o.dst (fshrWord (s3Funnel o m)) m a) s

/-- Zero bits above the highest set bit (R138). -/
def clzWord (a : Word) : Word := if a = 0 then 64 else W (63 - Nat.log2 a.toNat)

/-- Zero bits below the lowest set bit (R138). -/
def ctzWord (a : Word) : Word := if a = 0 then 64 else W (Nat.log2 (a &&& -a).toNat)

/-- POPC (R138). -/
def execPopc (h : Hdr) (o : S3) (s : State) : Out := runUn (.popc h o) h o (fun a => W (popCount 64 a.toNat)) s
/-- CLZ (R138). -/
def execClz (h : Hdr) (o : S3) (s : State) : Out := runUn (.clz h o) h o clzWord s
/-- CTZ (R138). -/
def execCtz (h : Hdr) (o : S3) (s : State) : Out := runUn (.ctz h o) h o ctzWord s
/-- BREV (R138). -/
def execBrev (h : Hdr) (o : S3) (s : State) : Out := runUn (.brev h o) h o BitVec.reverse s

/-- The compare conditions (R139). -/
def condHolds (c : Nat) (a b : Word) : Bool :=
  match c with
  | 0 => a == b
  | 1 => a != b
  | 2 => a.slt b
  | 3 => !a.slt b
  | 4 => a.ult b
  | 5 => !a.ult b
  | 6 => (a &&& b) != 0
  | _ => (a &&& b) == 0

/-- What a compare writes (R140): DST, and a guard or every bit of a mask. -/
def cmpBody (dst : BitVec 6) (mk : Bool) (gd : Nat) (t : Word → Word → Bool) (m : Mach) (a : Opnds) : Res :=
  let b := t (a.v 0) (a.v 1)
  let m := m.put dst a.act (W (b2n b)) a.valid
  .done <|
    if !a.act then m
    else if mk then
      m.ctx fun k =>
        { k with vec := k.vec.setMaskRows gd (List.replicate 16 (if b then BitVec.allOnes 64 else 0)) }
    else m.str fun t => t.setGuard gd b

/-- CMP (R139, R140). -/
def execCmp (h : Hdr) (o : S3) (s : State) : Out :=
  let gd := o.fn.toNat / 16 % 8
  let mk := o.fn.getLsbD 7
  issueWord (.cmp h o) h { s3Ports o with grds := if mk then [] else [gd] }
    (cmpBody o.dst mk gd (condHolds (o.fn.toNat % 16))) s

/-- CMPI (R139, R140). -/
def execCmpi (h : Hdr) (o : SI) (s : State) : Out :=
  let v := o.imm.toNat
  let gd := v / 2 ^ 24 % 8
  let mk := o.imm.getLsbD 27
  let k : Word := (o.imm.extractLsb' 0 20).signExtend 64
  issueWord (.cmpi h o) h { siPorts o with grds := if mk then [] else [gd] }
    (cmpBody o.dst mk gd fun a _ => condHolds (v / 2 ^ 20 % 16) a k) s

/-- The guards as `GOP.rd` reads them (R141). -/
def StreamSt.guardWord (t : StreamSt) : Word := (t.guards ||| 1).setWidth 64

/-- Write g1 to g7 from a value (R141). -/
def StreamSt.setGuards (t : StreamSt) (v : Word) : StreamSt := { t with guards := v.setWidth 8 ||| 1 }

/-- Body of `GOP` (R141). -/
def gopBody (o : S3) (m : Mach) (a : Opnds) : Res :=
  let mode := o.fn.toNat / 16 % 4
  if mode = 0 then
    let i := 2 * b2n (m.t.guard o.s1.toNat) + b2n (m.t.guard o.s2.toNat)
    .done (if a.act then m.str fun t => t.setGuard o.dst.toNat (o.fn.getLsbD i) else m)
  else if mode = 1 then .done (m.put o.dst a.act m.t.guardWord a.valid)
  else .done (if a.act then m.str fun t => t.setGuards (a.v 0) else m)

/-- Ports of `GOP`: its fields are guard numbers in logic mode (R141). -/
def gopPorts (o : S3) : Ports :=
  let mode := o.fn.toNat / 16 % 4
  if mode = 0 then { Ports.none with grds := [o.dst.toNat, o.s1.toNat, o.s2.toNat] }
  else if mode = 1 then { Ports.none with dsts := [o.dst], grds := [1, 2, 3, 4, 5, 6, 7] }
  else { Ports.none with srcs := [o.s1], grds := [1, 2, 3, 4, 5, 6, 7] }

/-- GOP (R141). -/
def execGop (h : Hdr) (o : S3) (s : State) : Out := issueWord (.gop h o) h (gopPorts o) (gopBody o) s

/-- SEL (R142). -/
def execSel (h : Hdr) (o : S3) (s : State) : Out :=
  issueWord (.sel h o) h { s3Ports o with grds := [o.fn.toNat % 8] }
    (fun m a => binBody o.dst (fun x y => if m.t.guard (o.fn.toNat % 8) != o.fn.getLsbD 3 then x else y) m a) s

end Sys2Proof.Machine
end

