-- ==== Sys2Proof/Machine/Flags.lean ====
section
/-! DEFINITION. Numbers: the encodings of R24 to R33, the one rounding of R34 to R41, the exact accumulator of R42 to
R47, vector arithmetic of R48 to R50, and the flags and events of R51 and R55 that each of them raises. -/
namespace Sys2Proof.Machine

/-- An exact value: a NaN (signalling or not), an infinity, or ±m × 2^e. -/
inductive FVal where
  | nan (sig : Bool)
  | inf (neg : Bool)
  | fin (neg : Bool) (m : Nat) (e : Int)
  deriving DecidableEq, Repr

/-- The floating-point and integer formats (R24, R29, R30). -/
inductive Fmt where
  | f32 | bf16 | fp16 | e4m3 | e5m2 | e3m2 | e2m3 | e2m1 | lns6
  | int (w : Nat) (signed : Bool)
  deriving DecidableEq, Repr

/-- What an element adds to the counters of R55. -/
inductive Ev where
  | none | sat | flush | nan
  deriving DecidableEq, Repr

/-- The flags of R51 as bits of sr.status. -/
def fInv : BitVec 5 := 1
@[inherit_doc fInv] def fDz : BitVec 5 := 2
@[inherit_doc fInv] def fOvf : BitVec 5 := 4
@[inherit_doc fInv] def fUnf : BitVec 5 := 8
@[inherit_doc fInv] def fInx : BitVec 5 := 16

/-- A flag under a condition. -/
def fIf (c : Bool) (f : BitVec 5) : BitVec 5 := if c then f else 0

/-- Mantissa width, exponent bits and bias of a binary format (R24). -/
def Fmt.par : Fmt → Nat × Nat × Nat
  | .f32 => (23, 8, 127) | .bf16 => (7, 8, 127) | .fp16 => (10, 5, 15) | .e4m3 => (3, 4, 7) | .e5m2 => (2, 5, 15)
  | .e3m2 => (2, 3, 3) | .e2m3 => (3, 2, 1) | .e2m1 => (1, 2, 1) | .lns6 => (0, 5, 0) | .int _ _ => (0, 0, 0)

/-- Largest finite magnitude as m × 2^e (R24). -/
def Fmt.max : Fmt → Nat × Int
  | .f32 => (2 ^ 24 - 1, 104) | .bf16 => (255, 120) | .fp16 => (2047, 5) | .e4m3 => (7, 6) | .e5m2 => (7, 13)
  | .e3m2 => (7, 2) | .e2m3 => (15, -1) | .e2m1 => (3, 1) | .lns6 => (0xD745, -12) | .int _ _ => (0, 0)

/-- Width of an element in bits (R185, R243). -/
def Fmt.width : Fmt → Nat
  | .f32 => 32 | .bf16 => 16 | .fp16 => 16 | .e4m3 => 8 | .e5m2 => 8 | .e3m2 => 6 | .e2m3 => 6 | .e2m1 => 4 | .lns6 => 6
  | .int w _ => w

/-- The format has infinities (R24). -/
def Fmt.hasInf : Fmt → Bool
  | .f32 | .bf16 | .fp16 | .e5m2 => true
  | _ => false

/-- The canonical NaN of a format, if it has one (R25). -/
def Fmt.nanCode : Fmt → Option Nat
  | .f32 => some 0x7FC00000 | .bf16 => some 0x7FC0 | .fp16 => some 0x7E00 | .e4m3 => some 0x7F | .e5m2 => some 0x7E
  | .lns6 => some 0x20 | _ => none

/-- The table q of R30. -/
def lnsQ (f : Nat) : Nat := if f = 0 then 0x8000 else if f = 1 then 0x9838 else if f = 2 then 0xB505 else 0xD745

/-- The value of an LNS6 code (R30). -/
def lnsValue (c : Nat) : FVal :=
  if c = 0 then .fin false 0 0
  else if c = 0x20 then .nan false
  else .fin (decide (32 ≤ c)) (lnsQ (c % 4)) (Int.ofNat (c % 32 / 4) - 19)

/-- The product of two LNS6 codes (R30). -/
def lnsProduct (a b : Nat) : FVal :=
  if a = 0x20 ∨ b = 0x20 then .nan false
  else if a = 0 ∨ b = 0 then .fin false 0 0
  else
    let t : Int := Int.ofNat (a % 32) + Int.ofNat (b % 32) - 32
    let i := t / 4
    .fin (decide (32 ≤ a) != decide (32 ≤ b)) (lnsQ (t - 4 * i).toNat) (i - 15)

/-- The value of a code (R24, R25, R29, R30). -/
def Fmt.decode (f : Fmt) (c : Nat) : FVal :=
  match f with
  | .lns6 => lnsValue (c % 64)
  | .int w signed =>
    let c := c % 2 ^ w
    if signed && decide (2 ^ (w - 1) ≤ c) then .fin true (2 ^ w - c) 0 else .fin false c 0
  | f =>
    let (man, eb, bias) := f.par
    let m := c % 2 ^ man
    let ex := c / 2 ^ man % 2 ^ eb
    let neg := decide (c / 2 ^ (man + eb) % 2 = 1)
    if f.hasInf && ex == 2 ^ eb - 1 then
      (if m = 0 then .inf neg else .nan (decide (m < 2 ^ (man - 1))))
    else if f == .e4m3 && c % 128 == 127 then .nan false
    else if ex = 0 then .fin neg m (1 - Int.ofNat bias - Int.ofNat man)
    else .fin neg (2 ^ man + m) (Int.ofNat ex - Int.ofNat bias - Int.ofNat man)

/-- The code of an exactly representable magnitude with a sign (R24). -/
def Fmt.encodeMag (f : Fmt) (neg : Bool) (m : Nat) (e : Int) : Nat :=
  let (man, eb, bias) := f.par
  let s := if neg then 2 ^ (man + eb) else 0
  if m = 0 then s
  else
    let l := Nat.log2 m
    let emin : Int := 1 - Int.ofNat bias
    if Int.ofNat l + e < emin then
      let d := e - (emin - Int.ofNat man)
      s + (if 0 ≤ d then m <<< d.toNat else m >>> (-d).toNat)
    else
      let full := if l ≤ man then m <<< (man - l) else m >>> (l - man)
      s + (Int.ofNat l + e + Int.ofNat bias).toNat * 2 ^ man + (full - 2 ^ man)

/-- Compare m1 × 2^e1 with m2 × 2^e2. -/
def magCmp (m1 : Nat) (e1 : Int) (m2 : Nat) (e2 : Int) : Ordering :=
  let e := min e1 e2
  compare (m1 <<< (e1 - e).toNat) (m2 <<< (e2 - e).toNat)

/-- Whether the mode takes the upper neighbour: `r` of 2^d units above lo, `k` the code of lo, a sticky amount
below any unit, one draw (R34, R37, R47). -/
def roundsUp (mode : Nat) (neg : Bool) (k r d : Nat) (sticky : Bool) (draw : Nat) : Bool :=
  match mode with
  | 0 => decide (2 ^ d < 2 * r) || (decide (2 * r = 2 ^ d) && (sticky || k % 2 == 1))
  | 1 => false
  | 2 => !neg && (decide (r ≠ 0) || sticky)
  | 3 => neg && (decide (r ≠ 0) || sticky)
  | _ => decide (2 ^ 32 ≤ (r <<< 32) >>> d + draw)

/-- Round m × 2^e (plus a sticky amount) to a multiple of 2^g: the multiple, and whether it is inexact. -/
def roundGrid (mode : Nat) (neg : Bool) (m : Nat) (e g : Int) (sticky : Bool) (draw : Nat) : Nat × Bool :=
  if g ≤ e then
    let k := m <<< (e - g).toNat
    (if roundsUp mode neg k 0 0 sticky draw then k + 1 else k, sticky)
  else
    let d := (g - e).toNat
    let k := m >>> d
    let r := m % 2 ^ d
    (if roundsUp mode neg k r d sticky draw then k + 1 else k, sticky || decide (r ≠ 0))

/-- A rounded result: its code, the flags it raises, its event. -/
structure RRes where
  code : Nat
  fl : BitVec 5
  ev : Ev
  deriving DecidableEq, Repr

/-- The code of ±max (R40). -/
def Fmt.maxCode (f : Fmt) (neg : Bool) : Nat :=
  match f with
  | .lns6 => if neg then 0x3F else 0x1F
  | .int w signed => if neg then (if signed then 2 ^ (w - 1) else 0) else (if signed then 2 ^ (w - 1) - 1 else 2 ^ w - 1)
  | f => f.encodeMag neg f.max.1 f.max.2

/-- The code of ±∞. -/
def Fmt.infCode (f : Fmt) (neg : Bool) : Nat :=
  let (man, eb, _) := f.par
  (2 ^ eb - 1) * 2 ^ man + (if neg then 2 ^ (man + eb) else 0)

/-- Conversion saturates (R40): E4M3, the MX elements, LNS6, and E5M2 with sat5 = 1. -/
def Fmt.saturates (f : Fmt) (sat5 : Bool) : Bool := !f.hasInf || (f == .e5m2 && sat5)

/-- A rounded magnitude above max (R37, R40). An IEEE-style destination that delivers ±max counts a saturation, as
R55's words have it and R40's cell does not say (log 52, DESIGN CHOICE). -/
def overflowRes (f : Fmt) (mode : Nat) (sat5 neg : Bool) : RRes :=
  let toMax := f.saturates sat5 || mode == 1 || (mode == 2 && neg) || (mode == 3 && !neg)
  if toMax then ⟨f.maxCode neg, fOvf ||| fInx, .sat⟩ else ⟨f.infCode neg, fOvf ||| fInx, .none⟩

/-- Round a finite value to a binary format (R37, R40). -/
def roundBin (f : Fmt) (mode : Nat) (sat5 : Bool) (draw : Nat) (neg : Bool) (m : Nat) (e : Int) (sticky : Bool) : RRes :=
  let (man, _, bias) := f.par
  let emin : Int := 1 - Int.ofNat bias
  let top : Int := if m = 0 then emin else Int.ofNat (Nat.log2 m) + e
  let g := max (top - Int.ofNat man) (emin - Int.ofNat man)
  let (k, inx) := roundGrid mode neg m e g sticky draw
  if magCmp k g f.max.1 f.max.2 == .gt then overflowRes f mode sat5 neg
  else
    let tiny :=
      if mode == 4 then magCmp k g 1 emin == .lt
      else
        let gu := top - Int.ofNat man
        let (ku, _) := roundGrid mode neg m e gu sticky draw
        m == 0 || magCmp ku gu 1 emin == .lt
    ⟨f.encodeMag neg k g, fIf inx fInx ||| fIf (inx && tiny) fUnf, if k = 0 && inx then .flush else .none⟩

/-- Round a finite value to an integer type (R29, R40); zero with a sticky amount gives 0 in every mode (R47). Stochastic
rounding has raised inexact before it finds the chosen magnitude above the limit (R37). -/
def roundInt (w : Nat) (signed : Bool) (mode : Nat) (draw : Nat) (neg : Bool) (m : Nat) (e : Int) (sticky : Bool) : RRes :=
  let (k, inx) := if m = 0 then (0, sticky) else roundGrid mode neg m e 0 sticky draw
  let big :=
    if neg then (if signed then decide (2 ^ (w - 1) < k) else decide (0 < k))
    else (if signed then decide (2 ^ (w - 1) ≤ k) else decide (2 ^ w ≤ k))
  if big then ⟨Fmt.maxCode (.int w signed) neg, fInv ||| fIf (decide (4 ≤ mode) && inx) fInx, .sat⟩
  else ⟨if neg && k ≠ 0 then 2 ^ w - k else k, fIf inx fInx, .none⟩

/-- The value of the LNS6 ladder at L, also beyond the codes (R32, R37); 0 at L = 0. -/
def lnsLadder (l : Nat) : Nat × Int := if l = 0 then (0, 0) else (lnsQ (l % 4), Int.ofNat (l / 4) - 19)

/-- The highest step of the ladder not above m × 2^e (R32). -/
def lnsBelow (m : Nat) (e : Int) : Nat :=
  if m = 0 then 0
  else
    let i := Int.ofNat (Nat.log2 m) + e + 4
    if i < 0 then 0
    else
      let b := 4 * i.toNat
      let le (f : Nat) : Bool := magCmp (lnsQ f) (i - 19) m e != .gt
      b + (if le 3 then 3 else if le 2 then 2 else if le 1 then 1 else 0)

/-- Round a finite value to LNS6 (R32, R37, R40); a value that only its sticky amount makes nonzero raises underflow
in every mode (R47). -/
def roundLns (mode : Nat) (draw : Nat) (neg : Bool) (m : Nat) (e : Int) (sticky : Bool) : RRes :=
  if m = 0 && !sticky then ⟨0, 0, .none⟩
  else
    let lo := lnsBelow m e
    let (lm, le) := lnsLadder lo
    let (hm, he) := lnsLadder (lo + 1)
    let base := min e (min le he)
    let x := m <<< (e - base).toNat
    let l := lm <<< (le - base).toNat
    let h := hm <<< (he - base).toNat
    let exact := decide (x = l) && !sticky
    let up :=
      match mode with
      | 0 => decide (h - l < 2 * (x - l)) || (decide (2 * (x - l) = h - l) && (sticky || lo % 2 == 1))
      | 1 => false
      | 2 => !neg && !exact
      | 3 => neg && !exact
      | _ => decide (2 ^ 32 ≤ ((x - l) <<< 32) / (h - l) + draw)
    let r := if up then lo + 1 else lo
    if 31 < r then ⟨Fmt.maxCode .lns6 neg, fOvf ||| fInx, .sat⟩
    else if r = 0 then ⟨0, fIf (!exact) (fInx ||| fUnf), if exact then .none else .flush⟩
    else ⟨r + (if neg then 32 else 0), fIf (!exact) fInx ||| fIf (m = 0) fUnf, .none⟩

/-- The one conversion of R40: an exact value (with a sticky amount, R47) to a format under a mode. -/
def convert (f : Fmt) (mode : Nat) (sat5 : Bool) (draw : Nat) (x : FVal) (sticky : Bool) : RRes :=
  match x with
  | .nan sig =>
    match f with
    | .int _ _ => ⟨0, fInv, .sat⟩
    | f =>
      match f.nanCode with
      | some c => ⟨c, fIf sig fInv, .nan⟩
      | none => ⟨f.maxCode false, fInv, .nan⟩
  | .inf neg =>
    match f with
    | .int _ _ => ⟨f.maxCode neg, fInv, .sat⟩
    | f => if f.saturates sat5 then ⟨f.maxCode neg, fOvf, .sat⟩ else ⟨f.infCode neg, 0, .none⟩
  | .fin neg m e =>
    match f with
    | .int w signed => roundInt w signed mode draw neg m e sticky
    | .lns6 => roundLns mode draw neg m e sticky
    | f => roundBin f mode sat5 draw neg m e sticky

/-- One step of the shift register (R38). -/
def lfsrStep (s : BitVec 32) : BitVec 32 :=
  (s <<< 1) ||| (BitVec.ofBool (s.getLsbD 31 ^^ s.getLsbD 21 ^^ s.getLsbD 1 ^^ s.getLsbD 0)).setWidth 32

/-- n steps. -/
def lfsrSteps : Nat → BitVec 32 → BitVec 32
  | 0, s => s
  | n + 1, s => lfsrSteps n (lfsrStep s)

/-- A draw: the value, and the register after it (R38). -/
def lfsrDraw (s : BitVec 32) : Nat × BitVec 32 := (s.toNat, lfsrSteps 32 s)

/-- The draw of one element in a mode: SR takes one, the others none (R39). -/
def drawFor (mode : Nat) (s : BitVec 32) : Nat × BitVec 32 := if mode = 4 then lfsrDraw s else (0, s)

/-- The negation of a value. -/
def FVal.neg : FVal → FVal
  | .nan s => .nan s
  | .inf n => .inf (!n)
  | .fin n m e => .fin (!n) m e

/-- Signalling NaN. -/
def FVal.isSnan : FVal → Bool
  | .nan s => s
  | _ => false

/-- NaN. -/
def FVal.isNan : FVal → Bool
  | .nan _ => true
  | _ => false

/-- Exact sum (IEEE 754-2019; a zero sum of opposite signs is −0 only when rounding down). -/
def fAdd (mode : Nat) (a b : FVal) : FVal × BitVec 5 :=
  match a, b with
  | .nan s, b => (.nan false, fIf (s || b.isSnan) fInv)
  | a, .nan s => (.nan false, fIf (s || a.isSnan) fInv)
  | .inf x, .inf y => if x = y then (.inf x, 0) else (.nan false, fInv)
  | .inf x, _ => (.inf x, 0)
  | _, .inf y => (.inf y, 0)
  | .fin n1 m1 e1, .fin n2 m2 e2 =>
    let e := min e1 e2
    let x := m1 <<< (e1 - e).toNat
    let y := m2 <<< (e2 - e).toNat
    if n1 = n2 then (.fin n1 (x + y) e, 0)
    else if x = y then (.fin (mode == 3) 0 e, 0)
    else if y < x then (.fin n1 (x - y) e, 0)
    else (.fin n2 (y - x) e, 0)

/-- Exact product (IEEE 754-2019). -/
def fMul (a b : FVal) : FVal × BitVec 5 :=
  match a, b with
  | .nan s, b => (.nan false, fIf (s || b.isSnan) fInv)
  | a, .nan s => (.nan false, fIf (s || a.isSnan) fInv)
  | .inf x, .inf y => (.inf (x != y), 0)
  | .inf x, .fin n m _ => if m = 0 then (.nan false, fInv) else (.inf (x != n), 0)
  | .fin n m _, .inf y => if m = 0 then (.nan false, fInv) else (.inf (n != y), 0)
  | .fin n1 m1 e1, .fin n2 m2 e2 => (.fin (n1 != n2) (m1 * m2) (e1 + e2), 0)

/-- Exact a × b + c (R159). -/
def fFma (mode : Nat) (a b c : FVal) : FVal × BitVec 5 :=
  let (p, f1) := fMul a b
  let (r, f2) := fAdd mode p c
  (r, f1 ||| f2)

/-- The mode of arithmetic: SR rounds RNE (R36). -/
def arithMode (mode : Nat) : Nat := if mode = 4 then 0 else mode

/-- Round an arithmetic result to f32, bf16 or fp16 (R48). -/
def arithRound (f : Fmt) (mode : Nat) (r : FVal × BitVec 5) : Nat × BitVec 5 :=
  let q := convert f (arithMode mode) false 0 r.1 false
  (q.code, r.2 ||| q.fl)

/-- f32 sum of two codes, RNE (R49, R319, R343). -/
def addF32 (a b : Nat) : Nat × BitVec 5 := arithRound .f32 0 (fAdd 0 (Fmt.decode .f32 a) (Fmt.decode .f32 b))

/-- Quotient bits of 1 / (m × 2^e), with the remainder as sticky. -/
def recipMag (m : Nat) (e : Int) : Nat × Int × Bool :=
  let k := Nat.log2 m + 64
  (2 ^ k / m, -(Int.ofNat k) - e, decide (2 ^ k % m ≠ 0))

/-- Integer square root, bit by bit from bit n − 1. -/
def isqrtFrom : Nat → Nat → Nat → Nat
  | 0, _, r => r
  | n + 1, x, r =>
    let c := r + 2 ^ n
    isqrtFrom n x (if c * c ≤ x then c else r)

/-- Integer square root. -/
def isqrt (x : Nat) : Nat := isqrtFrom (Nat.log2 x / 2 + 1) x 0

/-- Square root of m × 2^e to more than 64 bits, with sticky. -/
def sqrtMag (m : Nat) (e : Int) : Nat × Int × Bool :=
  let (m, e) := if e % 2 = 0 then (m, e) else (2 * m, e - 1)
  let x := m <<< 140
  let r := isqrt x
  (r, e / 2 - 70, decide (r * r ≠ x))

/-- 1 / √(m × 2^e) to more than 64 bits, with sticky. -/
def rsqrtMag (m : Nat) (e : Int) : Nat × Int × Bool :=
  let (m, e) := if e % 2 = 0 then (m, e) else (2 * m, e - 1)
  let k := 2 * (Nat.log2 m + 80)
  let x := 2 ^ k / m
  let r := isqrt x
  (r, -(e / 2) - Int.ofNat (k / 2), decide (r * r * m ≠ 2 ^ k))

/-- Product of 2^(2^−i) over the set bits i of a fraction of n bits, in 256-bit fixed point; `c` is 2^(2^−i). -/
def exp2Frac : Nat → Nat → Nat → Nat → Nat
  | 0, _, _, acc => acc
  | n + 1, f, c, acc =>
    let acc := if f / 2 ^ n % 2 = 1 then (acc * c) >>> 256 else acc
    exp2Frac n f (isqrt (c <<< 256)) acc

/-- 2^x of a finite x: its magnitude with sticky (R48). Values far outside f32 are replaced by one that rounds alike. -/
def exp2Mag (neg : Bool) (m : Nat) (e : Int) : Nat × Int × Bool :=
  if magCmp m e 1 9 != .lt then (if neg then (1, -300, true) else (1, 300, false))
  else if 0 ≤ e then
    let n := Int.ofNat (m <<< e.toNat)
    (1, if neg then -n else n, false)
  else
    let d := (-e).toNat
    let i := m >>> d
    let f := m % 2 ^ d
    if f = 0 then (1, if neg then -(Int.ofNat i) else Int.ofNat i, false)
    else
      let n : Int := if neg then -(Int.ofNat i) - 1 else Int.ofNat i
      let f := if neg then 2 ^ d - f else f
      (exp2Frac d f (isqrt (2 <<< 512)) (1 <<< 256), n - 256, true)

/-- n bits of log2 y, y in 512-bit fixed point from 1 to 2, by repeated squaring. -/
def log2Bits : Nat → Nat → Nat → Nat
  | 0, _, acc => acc
  | n + 1, y, acc =>
    let z := (y * y) >>> 512
    if 2 <<< 512 ≤ z then log2Bits n (z >>> 1) (2 * acc + 1) else log2Bits n z (2 * acc)

/-- log2 of m × 2^e: sign, magnitude, exponent, sticky (R48, R167). -/
def log2Mag (m : Nat) (e : Int) : Bool × Nat × Int × Bool :=
  let l := Nat.log2 m
  let top := Int.ofNat l + e
  if m = 2 ^ l then (decide (top < 0), top.natAbs, 0, false)
  else
    let y := if l ≤ 512 then m <<< (512 - l) else m >>> (l - 512)
    let v : Int := top * 2 ^ 200 + Int.ofNat (log2Bits 200 y 0)
    if v < 0 then (true, v.natAbs - 1, -200, true) else (false, v.natAbs, -200, true)

/-- The special functions of R167 by number: 0 rcp, 1 sqrt, 2 rsq, 3 exp2, 4 log2; f32 code to f32 code. -/
def specialF32 (fn mode : Nat) (c : Nat) : Nat × BitVec 5 :=
  let md := arithMode mode
  let out (neg : Bool) (r : Nat × Int × Bool) : Nat × BitVec 5 :=
    let q := convert .f32 md false 0 (.fin neg r.1 r.2.1) r.2.2
    (q.code, q.fl)
  let nan (f : BitVec 5) : Nat × BitVec 5 := (0x7FC00000, f)
  let inf (n : Bool) (f : BitVec 5) : Nat × BitVec 5 := (Fmt.infCode .f32 n, f)
  let one : Nat × BitVec 5 := (0x3F800000, 0)
  match Fmt.decode .f32 c with
  | .nan s => nan (fIf s fInv)
  | .inf n =>
    match fn with
    | 0 => (if n then 0x80000000 else 0, 0)
    | 1 => if n then nan fInv else inf false 0
    | 2 => if n then nan fInv else (0, 0)
    | 3 => if n then (0, 0) else inf false 0
    | _ => if n then nan fInv else inf false 0
  | .fin n m e =>
    match fn with
    | 0 => if m = 0 then inf n fDz else out n (recipMag m e)
    | 1 => if m = 0 then (c, 0) else if n then nan fInv else out false (sqrtMag m e)
    | 2 => if m = 0 then inf n fDz else if n then nan fInv else out false (rsqrtMag m e)
    | 3 => if m = 0 then one else out false (exp2Mag n m e)
    | _ =>
      if m = 0 then inf true fDz
      else if n then nan fInv
      else
        let r := log2Mag m e
        out r.1 r.2

/-- The format of an ENC code, tbl8 held as BF16 (R73, R437). -/
def encFmt (enc : Nat) : Fmt :=
  match enc with
  | 0 => .e4m3 | 1 => .e5m2 | 2 => .e3m2 | 3 => .e2m3 | 4 => .e2m1 | 5 => .lns6 | 6 => .int 8 true | 7 => .bf16
  | 8 => .fp16 | _ => .bf16

/-- Bits of a code of an ENC (R185, R224). -/
def encWidth (enc : Nat) : Nat :=
  match enc with
  | 2 | 3 | 5 => 6
  | 4 => 4
  | 7 | 8 => 16
  | _ => 8

/-- The type of a TY code (R72). -/
def tyFmt (ty : Nat) : Fmt :=
  match ty with
  | 0 => .f32 | 1 => .bf16 | 2 => .fp16 | 3 => .int 32 true | 4 => .int 32 false | 5 => .int 16 true | 6 => .int 16 false
  | 7 => .int 8 true | 8 => .int 8 false | 9 => .e4m3 | _ => .e5m2

/-- A decoded matrix operand: its value and, for LNS6, its code (R225). -/
structure Elt where
  val : FVal
  lns : Option Nat
  deriving DecidableEq, Repr

/-- A code under an ENC as an operand; tbl8 codes are given as their BF16 entries. -/
def eltOf (enc code : Nat) : Elt :=
  { val := (encFmt enc).decode code, lns := if enc = 5 then some (code % 64) else none }

/-- The exact product of two operands (R43, R225). -/
def eltMul (a b : Elt) : FVal :=
  match a.lns, b.lns with
  | some x, some y => lnsProduct x y
  | _, _ => (fMul a.val b.val).1

/-- Finite. -/
def FVal.isFin : FVal → Bool
  | .fin _ _ _ => true
  | _ => false

/-- The clear entry (R42). -/
def AccEnt.clear : AccEnt := ⟨0, false, false⟩

/-- The exact sum of finite values. -/
def sumFin : List FVal → Bool × Nat × Int
  | [] => (false, 0, 0)
  | x :: t =>
    let (n, m, e) := sumFin t
    match (fAdd 0 x (.fin n m e)).1 with
    | .fin n m e => (n, m, e)
    | _ => (n, m, e)

/-- One contribution (R43): a signed magnitude in window units, or an overflow. -/
structure Contrib where
  ovf : Bool
  sticky : Bool
  n : BitVec 104
  deriving DecidableEq, Repr

/-- The contribution of a block: the products, the block scales, the operation, the anchor (R43). -/
def contribution (prods : List FVal) (finite : Bool) (sa sb : Byte) (sub : Bool) (anchor : Int) : Contrib :=
  if !finite || sa == 0xFF || sb == 0xFF then ⟨true, false, 0⟩
  else
    let (neg, m, e) := sumFin prods
    let e := e + Int.ofNat sa.toNat + Int.ofNat sb.toNat - 254 - (anchor - 64)
    let neg := neg != sub
    let n := if 0 ≤ e then m <<< e.toNat else m >>> (-e).toNat
    let sticky := if 0 ≤ e then false else decide (m % 2 ^ (-e).toNat ≠ 0)
    if 2 ^ 102 ≤ n then ⟨true, sticky, 0⟩
    else ⟨false, sticky, if neg then -(BitVec.ofNat 104 n) else BitVec.ofNat 104 n⟩

/-- An entry takes a contribution in (R43). -/
def addContribution (a : AccEnt) (c : Contrib) : AccEnt :=
  ⟨a.v + c.n, a.sticky || c.sticky, a.ovf || c.ovf⟩

/-- The exact value of an entry's v times the tensor scale (R46, step 7): a value, and flags. -/
def drainExact (a : AccEnt) (anchor : Int) (ts : Nat) : FVal × BitVec 5 :=
  let i := a.v.toInt
  let x := FVal.fin (decide (i < 0)) i.natAbs (anchor - 64)
  match Fmt.decode .f32 ts with
  | .nan _ => (.nan false, fInv)
  | t => fMul x t

/-- The code that a format without NaN delivers for one (R46): canonical NaN, or +max. -/
def nanOrMax (f : Fmt) : Nat := (f.nanCode).getD (f.maxCode false)

/-- drain_entry (R46): the delivered code, its flags and its event. Where a NaN ts, or an infinite ts with v = 0, meets
a format without NaN, the drain counts a saturation; an entry with ovf, or one that such a ts makes a NaN, raises no
inexact whatever its sticky bit (log 53, DESIGN CHOICE). -/
def drainEntry (a : AccEnt) (anchor : Int) (ts : Nat) (f : Fmt) (mode : Nat) (sat5 : Bool) (draw : Nat) : RRes :=
  if a.ovf then ⟨nanOrMax f, fOvf, if f.nanCode.isSome then .nan else .sat⟩
  else
    let (y, fl) := drainExact a anchor ts
    match y with
    | .nan _ => ⟨nanOrMax f, fl, if f.nanCode.isSome then .nan else .sat⟩
    | y =>
      let q := convert f mode sat5 draw y (a.sticky && y.isFin)
      ⟨q.code, fl ||| q.fl ||| fIf a.sticky fInx, q.ev⟩

/-- The exponent of the largest finite magnitude of a list, none when all are zero (R28). -/
def maxExp : List FVal → Option Int
  | [] => none
  | .fin _ m e :: t =>
    if m = 0 then maxExp t
    else
      let x := Int.ofNat (Nat.log2 m) + e
      match maxExp t with
      | none => some x
      | some y => some (max x y)
  | _ :: t => maxExp t

/-- emax of an element format (R28). -/
def Fmt.emax : Fmt → Int
  | .e4m3 => 8 | .e5m2 => 15 | .e3m2 => 4 | _ => 2

/-- A converted block: its scale, codes, ORed flags, events, and the shift register after it. -/
structure BlockRes where
  scale : Byte
  codes : List Nat
  fl : BitVec 5
  evs : List Ev
  lfsr : BitVec 32
  deriving DecidableEq, Repr

/-- Convert the elements of a block one after another under a common exponent (R28, R39). -/
def blockElems (f : Fmt) (mode : Nat) (ex : Int) : List (FVal × Bool) → List Bool → BitVec 32 → List RRes × BitVec 32
  | [], _, l => ([], l)
  | (x, st) :: t, acts, l =>
    let (d, l) := if acts.headD true then drawFor mode l else (0, l)
    let y := match x with
      | .fin n m e => FVal.fin n m (e - ex)
      | x => x
    let q := convert f mode true d y st
    let q := if q.fl &&& fOvf ≠ 0 then ⟨q.code, fInx, .sat⟩ else q
    let (rest, l) := blockElems f mode ex t (acts.drop 1) l
    (q :: rest, l)

/-- n draws. -/
def drawN (mode : Nat) : Nat → BitVec 32 → BitVec 32
  | 0, l => l
  | n + 1, l => drawN mode n (drawFor mode l).2

/-- The shared scale and the element codes of a block (R28): values with their sticky amounts, and which elements
draw. A sticky value raises inexact in a block of scale 0xFF too (R47, R241), but for a NaN (log 53, DESIGN CHOICE). -/
def blockScale (f : Fmt) (mode : Nat) (xs : List (FVal × Bool)) (acts : List Bool) (lfsr : BitVec 32) : BlockRes :=
  let drawn := drawN mode ((acts.filter id).length) lfsr
  if xs.any (fun x => !x.1.isFin) then
    ⟨0xFF, xs.map fun _ => 0, fInv ||| fIf (xs.any fun x => x.2 && !x.1.isNan) fInx, xs.map fun _ => .nan, drawn⟩
  else
    match maxExp (xs.map (·.1)) with
    | none =>
      let st := xs.any (·.2)
      ⟨0, xs.map fun _ => 0, fIf st (fInx ||| fUnf), xs.map fun x => if x.2 then .flush else .none, drawn⟩
    | some t =>
      let ex := max (-127) (min 127 (t - f.emax))
      let (rs, l) := blockElems f mode ex xs acts lfsr
      ⟨BitVec.ofInt 8 (ex + 127), rs.map (·.code), rs.foldl (fun a r => a ||| r.fl) 0, rs.map (·.ev), l⟩

/-- The balanced tree of adjacent pairs of R49 over 2^n values, with its flags. -/
def treeSum : Nat → List Nat → Nat × BitVec 5
  | 0, l => (l.headD 0, 0)
  | n + 1, l =>
    let (x, f1) := treeSum n (l.take (2 ^ n))
    let (y, f2) := treeSum n (l.drop (2 ^ n))
    let (s, f3) := addF32 x y
    (s, f1 ||| f2 ||| f3)

/-- The scan of R50: lane i of `VSCANR`, blocks following the set bits of i + 1 from bit n − 1 down. -/
def scanLane : Nat → Nat → List Nat → Option (Nat × BitVec 5) → Nat × BitVec 5
  | 0, _, _, acc => acc.getD (0, 0)
  | n + 1, c, l, acc =>
    if c / 2 ^ n % 2 = 1 then
      let b := treeSum n (l.take (2 ^ n))
      let acc := match acc with
        | none => b
        | some a =>
          let s := addF32 a.1 b.1
          (s.1, a.2 ||| b.2 ||| s.2)
      scanLane n c (l.drop (2 ^ n)) (some acc)
    else scanLane n c l acc

end Sys2Proof.Machine
end

