-- ==== Sys2Proof/Machine/Special.lean ====
section
/-! DEFINITION. The special registers: the map of R397 to R399 read by `SRR` and written by `SRW` (R144), and the flags
and counters that instructions raise (R51 to R55). -/
namespace Sys2Proof.Machine

/-- The gang of a task (R17). -/
def State.gang? (s : State) (vdev : Nat) (task : Word) : Option Gang :=
  s.gangs.find? fun g => g.vdev == vdev && g.task == task

/-- Change the gang of a task. -/
def State.gangUpd (s : State) (vdev : Nat) (task : Word) (f : Gang → Gang) : State :=
  { s with gangs := s.gangs.map fun g => if g.vdev == vdev && g.task == task then f g else g }

/-- Raise flags in sr.status and in the task's flags (R51, R54). -/
def Mach.raise (m : Mach) (f : BitVec 5) : Mach :=
  if f = 0 then m
  else
    let m := m.ctx fun k => { k with sr := { k.sr with flags := k.sr.flags ||| f } }
    { m with s := m.s.gangUpd m.k.bd.vdev m.k.bd.task fun g => { g with flags := g.flags ||| f } }

/-- Key of a counter of R55. -/
def evKey (tid : Nat) : Ev → Option Nat
  | .none => none
  | .sat => some tid
  | .flush => some (256 + tid)
  | .nan => some (512 + tid)

/-- Count events under a tensor identifier (R55); the counters saturate at 2^32 − 1. -/
def Mach.count (m : Mach) (tid : Nat) (evs : List Ev) : Mach :=
  let keys := evs.filterMap (evKey tid)
  if keys.isEmpty then m
  else
    { m with s := m.s.gangUpd m.k.bd.vdev m.k.bd.task fun g =>
        { g with counts := keys.foldl (fun t n => tset 0 t n (min (tget 0 t n + 1) (2 ^ 32 - 1))) g.counts } }

/-- The end of a word that has raised flags: completion, or the trap of R53. -/
def Mach.afterFlags (m : Mach) (f : BitVec 5) : Res :=
  let m := m.raise f
  let en := m.t.fpmode
  let tval : Word := f.setWidth 64
  if f &&& fInv != 0 && bitAt en 4 then .trapAfter m 0x50 tval
  else if f &&& fDz != 0 && bitAt en 5 then .trapAfter m 0x51 tval
  else if f &&& fOvf != 0 && bitAt en 6 then .trapAfter m 0x52 tval
  else .done m

/-- A mask with a bit for every stream that has a property. -/
def Ctx.mask4 (k : Ctx) (f : StreamSt → Bool) : Nat :=
  b2n (f k.a) + 2 * b2n (f k.v) + 4 * b2n (f k.m) + 8 * b2n (f k.d)

/-- sr.status (R398). -/
def Mach.status (m : Mach) : Word :=
  W (m.k.sr.flags.toNat + m.k.mask4 (·.halted) * 2 ^ 8 + m.k.mask4 (·.plev) * 2 ^ 12 + b2n m.x.bank * 2 ^ 16)

/-- sr.ctx (R399). -/
def State.ctxWord (s : State) (x : CtxRef) (k : Ctx) : Word :=
  W (k.bd.vdev + b2n x.bank * 2 ^ 8 + b2n k.bd.dormant * 2 ^ 9 + b2n (s.ctx? (otherBank x)).isSome * 2 ^ 10 + b2n k.sr.tst * 2 ^ 11)

/-- sr.perm p (R71). -/
def CtxSr.permReg (r : CtxSr) (p : Nat) : Word := tget 0x00FAC688 r.perm p

/-- sr.eqst (R329). -/
def CtxSr.eqst (r : CtxSr) : Word := W (r.eqUsed * 2 ^ 32 + r.eqDepth)

/-- sr.evst (R366). -/
def Ctx.evst (k : Ctx) : Word := W (k.sr.evRef * 2 ^ 16 + k.sr.evDrop * 2 ^ 8 + k.evq.length)

/-- The value of sr.time that a read gives (R399, log 4). -/
def State.timeRead (s : State) : Nat := max s.md.timeSeen (s.time - Config.freeLag s.md.tick % 9)

/-- The value of a special register (R397). -/
def Mach.srValue (m : Mach) (n : Nat) : Word :=
  let t := m.t
  let r := m.k.sr
  match n with
  | 0x001 => m.status
  | 0x002 => t.fpmode
  | 0x003 => r.lfsr.setWidth 64
  | 0x004 => r.syncmask.setWidth 64
  | 0x005 => r.seq.setWidth 64
  | 0x006 => m.x.core.setWidth 64
  | 0x007 => W m.k.bd.rank
  | 0x008 => W m.k.bd.gsize
  | 0x009 => m.k.bd.task
  | 0x00A => W m.s.timeRead
  | 0x00B => r.npd
  | 0x00C => r.pkp
  | 0x00D => m.k.bd.stats
  | 0x020 => r.vtid
  | 0x021 => r.dtid
  | 0x022 => r.eqpar
  | 0x023 => r.eqsz
  | 0x024 => r.eqlog
  | 0x025 => r.eqst
  | 0x026 => r.spkin
  | 0x027 => m.k.evst
  | 0x101 => t.cause
  | 0x102 => t.epc
  | 0x103 => t.tval
  | 0x104 => t.tvec
  | 0x105 => m.s.ctxWord m.x m.k
  | 0x106 => W m.k.bd.det
  | 0x107 => if r.tst then r.inject else 0
  | 0x108 => r.pkmask.setWidth 64
  | 0x109 => r.tdir
  | 0x110 => t.mloop
  | 0x111 => t.mround
  | 0x112 => t.mtrip
  | 0x113 => r.mrow
  | 0x114 => r.bdone
  | 0x118 => t.psave0
  | 0x119 => t.psave1
  | n => if 0x10 ≤ n ∧ n < 0x20 then r.permReg (n - 0x10) else if 0x28 ≤ n ∧ n < 0x30 then tget 0 r.eqw (n - 0x28) else 0

/-- A read of sr.time is remembered, so that reads do not decrease (R399). -/
def Mach.srSeen (m : Mach) (n : Nat) : Mach :=
  if n = 0x00A then { m with s := { m.s with md := { m.s.md with timeSeen := m.s.timeRead } } } else m

/-- SRR (R144). -/
def execSrr (h : Hdr) (o : SI) (s : State) : Out :=
  issueWord (.srr h o) h { Ports.none with dsts := [o.dst] }
    (fun m a =>
      let v := m.srValue o.srIndex
      .done ((if a.act then m.srSeen o.srIndex else m).put o.dst a.act v a.valid)) s

/-- Bits [hi:lo] of a word in place. -/
def keep (v : Word) (hi lo : Nat) : Word := v &&& W (2 ^ (hi + 1) - 2 ^ lo)

/-- What a write of sr.fpmode stores (R35). -/
def fpmodeOf (v : Word) : Word := if 5 ≤ bits v 0 3 then keep v 6 3 else keep v 6 0

/-- What a write of sr.mloop stores: the old value when it sets act with an impossible slot (R123). -/
def mloopOf (old v : Word) : Word :=
  let v := keep v 63 42
  if mlAct v && (mlLen v ≤ mlJ v || mlLen v == 0 || mlII v == 0) then old else v

/-- What a write of sr.mrow stores (R246). -/
def mrowOf (v : Word) : Word :=
  let row := bits v 0 7
  if row = 0 then 0 else keep v 63 63 ||| keep v 6 0

/-- The undo log is emptied and every watch disarmed (R328). -/
def CtxSr.eqReset (r : CtxSr) : CtxSr :=
  { r with eqUsed := 0, eqDepth := 0, eqw := r.eqw.foldl (fun t p => tset 0 t p.1 (keep p.2 62 0)) [] }

/-- A write of a context register under its own rules (R144, R397). -/
def CtxSr.write (r : CtxSr) (n : Nat) (v : Word) : CtxSr :=
  match n with
  | 0x001 => { r with flags := v.setWidth 5 }
  | 0x003 => { r with lfsr := if bits v 0 32 = 0 then 1 else v.setWidth 32 }
  | 0x004 => { r with syncmask := v.setWidth 4 }
  | 0x00B => { r with npd := W (min (2 ^ 30) (max 64 (bits v 0 32))) }
  | 0x020 => { r with vtid := keep v 7 0 }
  | 0x021 => { r with dtid := keep v 7 0 }
  | 0x022 => { r with eqpar := W (min (bits v 32 21) (2 ^ 20) * 2 ^ 32) ||| keep v 21 2 }.eqReset
  | 0x023 => { r with eqsz := keep v 21 2 }.eqReset
  | 0x024 => { r with eqlog := (if bits v 32 4 < 4 then 0 else keep v 35 32) ||| keep v 21 4 }.eqReset
  | 0x026 => { r with spkin := keep r.spkin 36 32 ||| keep v 28 24 ||| keep v 22 22 ||| keep v 21 6 }
  | 0x027 => { r with evRef := bits v 16 8, evDrop := bits v 8 8 }
  | 0x108 => { r with pkmask := v.setWidth 32 }
  | 0x113 => { r with mrow := mrowOf v }
  | 0x114 => { r with bdone := keep v 63 63 ||| keep v 15 0, bbase := none }
  | n => if 0x10 ≤ n ∧ n < 0x20 then { r with perm := tset 0x00FAC688 r.perm (n - 0x10) (keep v 23 0) } else r

/-- A write of a stream register under its own rules (R35, R123, R398). -/
def StreamSt.srWrite (t : StreamSt) (n : Nat) (v : Word) : StreamSt :=
  match n with
  | 0x002 => { t with fpmode := fpmodeOf v }
  | 0x101 => { t with cause := keep v 7 0 }
  | 0x102 => { t with epc := epcMask v }
  | 0x103 => { t with tval := v }
  | 0x104 => { t with tvec := keep v 53 3 ||| keep v 0 0 }
  | 0x110 => { t with mloop := mloopOf t.mloop v }
  | 0x111 => { t with mround := v }
  | 0x112 => { t with mtrip := v }
  | 0x118 => { t with psave0 := v }
  | 0x119 => { t with psave1 := v }
  | _ => t

/-- A write of a special register (R144). -/
def Mach.srWrite (m : Mach) (n : Nat) (v : Word) : Mach :=
  (m.ctx fun k => { k with sr := k.sr.write n v }).str fun t => t.srWrite n v

/-- A register that the equivalence commands must have left first (R328). -/
def eqSr (n : Nat) : Bool := n == 0x22 || n == 0x23 || n == 0x24

/-- An unretired command of the equivalence engine. -/
def Ctx.eqBusy (k : Ctx) : Bool := k.eng.cmds.any fun c => decide (0x65 ≤ c.opc) && decide (c.opc ≤ 0x6B)

/-- A run of unions that has not ended (R332). -/
def EngSt.running (e : EngSt) : Bool := e.runOpen || e.runs != e.ended

/-- A run-closing word issues (R332). -/
def Ctx.closeRun (k : Ctx) : Ctx :=
  if k.eng.runOpen then { k with eng := { k.eng with runOpen := false, runs := k.eng.runs + 1 } } else k

/-- SRW of sr.inject (R407): ignored without tst; with go it holds the stream until the injection is done. -/
def Mach.srwInject (m : Mach) (v : Word) : Res :=
  if !m.k.sr.tst then .done m
  else
    let kept := keep v 57 56 ||| keep v 53 6
    let set := fun (r : CtxSr) (w : Word) (b : Bool) => { r with inject := w, injecting := b }
    if !bitAt v 63 then .done (m.ctx fun k => { k with sr := set k.sr (kept ||| keep k.sr.inject 62 62) false })
    else if 2 ≤ bits v 56 2 then .done (m.ctx fun k => { k with sr := set k.sr (kept ||| W (2 ^ 62)) false })
    else
      .hold ((m.ctx fun k => { k with sr := set k.sr kept true }).str fun t => { t with prog := some ⟨0, 0, none⟩ }) .row

/-- SRW (R144). -/
def execSrw (h : Hdr) (o : SI) (s : State) : Out :=
  let n := o.srIndex
  issueWord (.srw h o) h { Ports.none with srcs := [o.s1], resumes := fun p => n == 0x107 && p.k == 0 && p.n == 0 }
    (fun m a =>
      if m.t.prog.isSome then (if m.k.sr.injecting then .hold m .row else .done m)
      else if eqSr n && (m.k.eqBusy || m.k.eng.running) then .park .engine fun m => m.ctx Ctx.closeRun
      else if !a.act then .done m
      else if n = 0x107 then m.srwInject (a.v 0)
      else .done (m.srWrite n (a.v 0))) s

end Sys2Proof.Machine
end

