-- ==== Sys2Proof/Machine/Tape.lean ====
section
/-! DEFINITION. Tapes and heads (spec/08): the directory, records and their pieces, positions, crossing, the flue,
page translation, consumption; posting an event and starting a dormant context (R365, R368, R369). -/
namespace Sys2Proof.Machine

/-- End the yielding wait of the A stream when it is one that `p` names. -/
def Ctx.wake (k : Ctx) (p : Instr → Bool) : Ctx :=
  match k.a.waiting with
  | some i => if p i then { k with a := { k.a with waiting := none } } else k
  | none => k

/-- Start a dormant context at a handler (R369), every stream at U (R396). -/
def Ctx.start (k : Ctx) (handler a1 a2 a3 : Word) : Ctx :=
  let go := fun (t : StreamSt) (pc : Word) =>
    { t with pc := pc, plev := false, halted := false, prog := none, waiting := none, inBody := false, owed := 0, wakeAt := none }
  let a := ((k.a.setReg 1 a1).setReg 2 a2).setReg 3 a3
  { k with
    run := .ready, started := true, sq := [], rq := [], tok := [], a := go a handler, v := go k.v (tget 0 k.bd.entry 1),
    m := go k.m (tget 0 k.bd.entry 2), d := go k.d (tget 0 k.bd.entry 3) }

/-- Put an event into a context's queue; a full one drops it (R365). -/
def Ctx.queueEvent (k : Ctx) (info value : Word) : Ctx :=
  if k.evq.length < 32 then { k with evq := k.evq ++ [(info, value)] }
  else { k with sr := { k.sr with evDrop := min 255 (k.sr.evDrop + 1) } }

/-- An `EVW` of a class (R367). -/
def wantsClass (cls : Nat) : Instr → Bool
  | .evw _ o => o.fn.getLsbD cls
  | _ => false

/-- Post an event (R365, R368): a dormant context of the other bank starts when the class is armed. -/
def State.postEvent (s : State) (x : CtxRef) (cls detail : Nat) (value : Word) : State :=
  match s.ctx? x with
  | none => s
  | some k =>
    let info := W (cls * 2 ^ 56 + detail)
    let arm := tget 0 k.arms cls
    let queued := s.setCtx x ((k.queueEvent info value).wake (wantsClass cls))
    match s.ctx? (otherBank x) with
    | none => queued
    | some d =>
      if arm != 0 && d.run == .dormant && d.bd.vdev == k.bd.vdev then
        (s.setCtx x { k with arms := tset 0 k.arms cls 0 }).setCtx (otherBank x) (d.start arm 2 info value)
      else queued

/-- A tape descriptor (R182). -/
structure Desc where
  ctl : Word
  len : Nat
  recorded : Nat
  recBytes : Nat
  plist : Nat
  pcount : Nat
  psize : Nat
  comp : Nat
  off0 : Nat
  upd : Word
  nheads : Nat
  deriving DecidableEq, Repr

/-- Fields of the control dword (R183). -/
def Desc.enc (d : Desc) : Nat := bits d.ctl 0 4
@[inherit_doc Desc.enc] def Desc.shape (d : Desc) : Nat := bits d.ctl 4 2
@[inherit_doc Desc.enc] def Desc.pl (d : Desc) : Nat := bits d.ctl 6 3
@[inherit_doc Desc.enc] def Desc.scl (d : Desc) : Nat := bits d.ctl 9 2
@[inherit_doc Desc.enc] def Desc.sp (d : Desc) : Nat := bits d.ctl 11 2
@[inherit_doc Desc.enc] def Desc.state (d : Desc) : Nat := bits d.ctl 13 2
@[inherit_doc Desc.enc] def Desc.cp (d : Desc) : Bool := bitAt d.ctl 15

/-- Read a descriptor from its dwords (R182); reserved bits are ignored (R5). -/
def Desc.ofWords (l : List Word) : Desc :=
  let w := fun i => l.getD i 0
  { ctl := W (bits (w 0) 0 16), len := bits (w 1) 0 32, recorded := bits (w 2) 0 32, recBytes := bits (w 3) 0 32, plist := bits (w 4) 0 54,
    pcount := bits (w 5) 0 32, psize := bits (w 5) 32 2, comp := bits (w 6) 0 24, off0 := bits (w 7) 0 30, upd := W (bits (w 8) 0 14),
    nheads := bits (w 9) 0 8 }

/-- Kept elements of a 16-lane group (R185). -/
def keptOf (sp : Nat) : Nat := if sp = 0 then 16 else if sp = 1 then 8 else 4

/-- Bytes of a row image (R185). -/
def rowBytesOf (enc scl sp : Nat) : Nat :=
  4 * keptOf sp * encWidth enc / 8 + (if scl = 1 then 2 else 0) + (if sp ≠ 0 then 8 else 0)

/-- Bytes of a record (R185). -/
def recBytesOf (shape enc scl sp pl : Nat) : Nat :=
  match shape with
  | 0 => encWidth enc / 8
  | 1 => rowBytesOf enc scl sp
  | 2 => 64 * rowBytesOf enc scl sp
  | _ => 512 * (pl + 1)

/-- The legal combinations of R184. -/
def Desc.legal (d : Desc) : Bool :=
  decide (d.enc ≤ 9) && decide (d.scl ≤ 2) && decide (d.sp ≤ 2) &&
  (match d.shape with
   | 0 => [0, 1, 6, 7, 8, 9].contains d.enc && d.scl == 0 && d.sp == 0 && d.pl == 0
   | 3 => [0, 1, 6].contains d.enc && d.scl == 0 && d.sp == 0
   | _ => d.pl == 0 && (d.scl == 0 || [2, 3, 4].contains d.enc))

/-- Page size of a tape (R182). -/
def Desc.pageSize (d : Desc) : Nat := pageBytes d.psize

/-- Where a directory entry stands (R181, R422); none for handle 0 and one beyond the directory. -/
def tdirVa (tdir : Word) (handle : Nat) : Option Nat :=
  if handle = 0 || 2 ^ bits tdir 58 5 ≤ handle then none else some (bits tdir 7 47 * 128 + 128 * handle)

/-- What the device needs of a directory page, to read or to write it (R422). -/
def Need.dir (wr : Bool) : Need := ⟨true, wr, false, some maskLs, none⟩

/-- A look at a directory entry: its descriptor and its place. -/
inductive Entry where
  | ok (d : Desc) (t : Target)
  | bad
  | wait
  deriving DecidableEq, Repr

/-- The 16 dwords of a 128-byte structure at the package point. -/
def State.pkgDwords (s : State) (a : Acc) (pa n : Nat) : List Word × Bool × State :=
  (upTo n).foldl (fun (r : List Word × Bool × State) i =>
    let (v, s) := r.2.2.pkgRead a ((pa + 8 * i) / 64)
    (r.1 ++ [W (leNat (secBytes v.data ((pa + 8 * i) % 64) 8))], r.2.1 || v.poison, s)) ([], false, s)

/-- Read a directory entry at the package point (R181, R422). -/
def State.entryAt (s : State) (core vdev va : Nat) (wr : Bool) : Entry × State :=
  match s.reach core vdev va (Need.dir wr) with
  | (.trap _ _, s) => (.bad, s)
  | (.wait, s) => (.wait, s)
  | (.ok x, s) =>
    if lfTier x.leaf = 2 then (.bad, s)
    else
      let t : Target := ⟨x.pa va, pathOf x.leaf, ⟨core, vdev, lfTag x.leaf, 0⟩, x.leaf⟩
      let (ws, poison, s) := s.pkgDwords t.acc t.pa 16
      if poison then (.bad, s) else (.ok (Desc.ofWords ws) t, s)

/-- Read the descriptor of a handle; a free one is no tape (R181). -/
def State.tapeEntry (s : State) (core : Nat) (k : Ctx) (handle : Nat) (wr : Bool) : Entry × State :=
  match tdirVa k.sr.tdir handle with
  | none => (.bad, s)
  | some va =>
    match s.entryAt core k.bd.vdev va wr with
    | (.ok d t, s) => (if d.state = 0 then .bad else .ok d t, s)
    | r => r

/-- The descriptor of a bound head's tape, for the device's own use: nothing of the look is kept. -/
def State.tape? (s : State) (core : Nat) (k : Ctx) (handle : Nat) : Option Desc :=
  match (s.tapeEntry core k handle false).1 with
  | .ok d _ => some d
  | _ => none

/-- Write dword i of a directory entry. -/
def State.descPut (s : State) (t : Target) (i : Nat) (v : Word) : State :=
  (bySector (bytesAt (t.pa + 8 * i) (leBytes 8 v.toNat))).foldl (fun s w => s.pkgWrite t.acc 1 [w]) s

/-- A piece of a record: its page of the page list, its offset in the page, its bytes, its offset in the record. -/
structure Piece where
  page : Nat
  off : Nat
  n : Nat
  pos : Nat
  deriving DecidableEq, Repr

/-- The pieces of record r (R188), cut where two pages of any size can meet. -/
def Desc.pieces (d : Desc) (r : Nat) : List Piece :=
  let b := d.off0 + r * d.recBytes
  let ps := d.pageSize
  let first := 65536 - b % 65536
  if d.recBytes ≤ first then [⟨b / ps, b % ps, d.recBytes, 0⟩]
  else [⟨b / ps, b % ps, first, 0⟩, ⟨(b + first) / ps, (b + first) % ps, d.recBytes - first, first⟩]

/-- A page register covers a byte of a page. -/
def PageReg.covers (g : PageReg) (page off : Nat) : Bool :=
  g.page == page && decide (g.va ≤ g.base + off) && decide (g.base + off < g.va + g.size)

/-- Physical address of a byte of its page. -/
def PageReg.pa (g : PageReg) (off : Nat) : Nat := lfFrame g.leaf + (g.base + off - g.va)

/-- The page register that a head holds for a byte. -/
def Head.regFor (h : Head) (page off : Nat) : Option PageReg :=
  match h.cur with
  | some g => if g.covers page off then some g else h.nxt.filter fun g => g.covers page off
  | none => h.nxt.filter fun g => g.covers page off

/-- A stop covers a piece. -/
def HStop.covers (st : HStop) (p : Piece) : Bool :=
  match st with
  | .none => false
  | .tier pg lo hi _ | .fault pg lo hi _ _ _ => pg == p.page && decide (lo < p.off + p.n) && decide (p.off < hi)

/-- A position kept in its range (R191). -/
def Desc.clamp (d : Desc) (v : Int) : Int := max (-1) (min (Int.ofNat d.len) v)

/-- The direction as ±1. -/
def Head.dir (h : Head) : Int := if h.back then -1 else 1

/-- The visible position (R191). -/
def Head.pos (h : Head) (len : Nat) : Nat := (min (max h.v 0) (Int.ofNat len - 1)).toNat

/-- End of tape (R191). -/
def Head.eot (h : Head) (len : Nat) : Bool := decide (h.v < 0) || decide (Int.ofNat len ≤ h.v)

/-- A head in read or zero-fill mode. -/
def Head.reads (h : Head) : Bool := h.mode == .read || h.mode == .zeroFill

/-- A head in an update mode. -/
def Head.updates (h : Head) : Bool := h.mode == .rmw || h.mode == .overwrite

/-- The record that the flue fetches next (R211). -/
def Head.fetchPoint (h : Head) : Int :=
  match h.flue.getLast? with
  | none => h.v
  | some r => Int.ofNat r.idx + h.dir

/-- The page of a stop is the one after a piece's page in the direction of travel: the head has looked ahead to it (R213). -/
def HStop.next (st : HStop) (back : Bool) (p : Piece) : Bool :=
  match st with
  | .none => false
  | .tier pg _ _ _ | .fault pg _ _ _ _ _ => if back then pg + 1 == p.page else pg == p.page + 1

/-- A piece of the record at the fetch point is such a one. -/
def Head.fetches (h : Head) (d : Desc) (q : Piece → Bool) : Bool :=
  let f := h.fetchPoint
  0 ≤ f && decide (f < Int.ofNat d.len) && (d.pieces f.toNat).any q

/-- A stop ends when the fetch point leaves its page (R364). It stays while the record there touches the page; and while the
fetch point, which has not reached the page yet, lies just before it (R213). `old` is the head before it moved. -/
def Head.settle (h old : Head) (d : Desc) : Head :=
  if h.fetches d h.stop.covers || (!old.fetches d h.stop.covers && h.fetches d (h.stop.next h.back)) then h
  else { h with stop := .none }

/-- Move a head to a position; the flue keeps the records at and beyond it (R211). `old` is the head with its whole flue. -/
def Head.moveFrom (h old : Head) (d : Desc) (v : Int) : Head :=
  let v := d.clamp v
  ({ h with v := v,
            flue := h.flue.filter fun r => if h.back then decide (Int.ofNat r.idx ≤ v) else decide (v ≤ Int.ofNat r.idx) }).settle old d

/-- Move a head to a position. -/
def Head.moveTo (h : Head) (d : Desc) (v : Int) : Head := h.moveFrom h d v

/-- Step a head by one record (R193). -/
def Head.stepped (h : Head) (d : Desc) : Head := h.moveTo d (h.v + h.dir)

/-- A head has passed a record, from position v (R207). -/
def Head.passed (h : Head) (v : Int) (r : Nat) : Bool := if h.back then decide (v < Int.ofNat r) else decide (Int.ofNat r < v)

/-- A head bound to a tape, wherever its context is: the records it has written that are not performed. -/
structure HeadAt where
  h : Head
  pending : List Nat
  deriving DecidableEq, Repr

/-- It has passed a record, as other heads see it (R207): its step past a record that it has written takes effect for them
once the write is performed. -/
def HeadAt.passed (a : HeadAt) (r : Nat) : Bool := a.h.passed a.h.v r && a.pending.all fun i => a.h.passed (Int.ofNat i) r

/-- Head n of a context; an unlisted one is unbound. -/
def Ctx.head (k : Ctx) (n : Nat) : Head := tget Head.unbound k.heads n

/-- Write head n. -/
def Ctx.setHead (k : Ctx) (n : Nat) (h : Head) : Ctx := { k with heads := tset Head.unbound k.heads n h }

/-- The records that a head has written and that are not performed (R189). -/
def Ctx.pendingWrites (k : Ctx) (n : Nat) : List Nat := (k.hwrites.filter fun w => w.hd == n).map (·.idx)

/-- The heads bound to a tape in the package (R191, R219). -/
def State.headsOn (s : State) (vdev handle : Nat) : List HeadAt :=
  (s.ctxs.map (·.2) ++ s.saved.map (·.k)).flatMap fun (k : Ctx) =>
    if k.bd.vdev = vdev then
      k.heads.filterMap fun q => if q.2.bound && q.2.handle == handle then some ⟨q.2, k.pendingWrites q.1⟩ else none
    else []

/-- Every reader of a tape has passed a record (R208). -/
def State.readersPassed (s : State) (vdev handle r : Nat) : Bool :=
  (s.headsOn vdev handle).all fun a => !a.h.reads || a.passed r

/-- The tape's updater has passed a record, or there is none (R208). -/
def State.updaterPassed (s : State) (vdev handle r : Nat) : Bool :=
  (s.headsOn vdev handle).all fun a => !a.h.updates || a.passed r

/-- Under UPDATE_FIRST a reader has to wait for the record (R208). -/
def State.readerHeld (s : State) (vdev : Nat) (d : Desc) (h : Head) (r : Nat) : Bool :=
  h.reads && d.cp && !s.updaterPassed vdev h.handle r

/-- sr.tval of the head causes (R195); an unbound head gives its number alone. -/
def headTval (h : Head) (n len : Nat) : Word :=
  if !h.bound then W n else W (2 ^ 60 + h.handle * 2 ^ 36 + h.pos len * 2 ^ 4 + n)

/-- sr.tval of a tape cause without a head (R195). -/
def tapeTval (handle : Nat) : Word := W (handle % 2 ^ 24 * 2 ^ 36)

/-- What a head needs of a page (R416). -/
def Head.need (h : Head) : Need :=
  match h.mode with
  | .read | .zeroFill => ⟨true, false, false, some maskHd, none⟩
  | .rmw => ⟨true, true, false, some maskHd, none⟩
  | _ => ⟨false, true, false, some maskHd, none⟩

/-- The piece that a head's flue needs a translation for (R213): one of the record at the fetch point, or the next page
when the fetch point is within `dist` bytes of the end of its page. -/
def Head.wanted (h : Head) (d : Desc) (dist : Nat) : Option Piece :=
  let f := h.fetchPoint
  if f < 0 || decide (Int.ofNat d.len ≤ f) then none
  else
    let r := f.toNat
    let ps := d.pageSize
    let pieces := if h.back then (d.pieces r).reverse else d.pieces r
    match pieces.find? fun p => (h.regFor p.page p.off).isNone with
    | some p => some p
    | none =>
      let b := d.off0 + r * d.recBytes
      let last := b + d.recBytes - 1
      let ahead : Option Piece :=
        if !h.back then
          if ps - b % ps ≤ dist && decide ((b / ps + 1) * ps < d.off0 + d.len * d.recBytes) then some ⟨b / ps + 1, 0, 1, 0⟩ else none
        else if last % ps + 1 ≤ dist && decide (d.off0 < last / ps * ps) then some ⟨last / ps - 1, ps - 1, 1, 0⟩
        else none
      ahead.filter fun p => (h.regFor p.page p.off).isNone

/-- Take a new page register in, keeping the one that the fetch point still needs (R213). -/
def Head.takeReg (h : Head) (d : Desc) (g : PageReg) : Head :=
  let r := h.fetchPoint.toNat
  let keep := [h.cur, h.nxt].filterMap fun o =>
    o.filter fun q => (d.pieces r).any fun p => q.covers p.page p.off
  match keep.getLast? with
  | some q => { h with cur := some q, nxt := some g }
  | none => { h with cur := some g, nxt := none }

/-- Read an entry of a page list through the head's rights (R188, R416). -/
inductive ListRes where
  | ok (base key : Nat)
  | fault (cause : BitVec 8)
  | wait
  deriving DecidableEq, Repr

/-- Read page-list entry `page` (R188): traffic class TC1, at the MSC (R189). An address of 2^54 or more fails its
translation (R411). -/
def State.pageList (s : State) (core vdev : Nat) (d : Desc) (page : Nat) : ListRes × State :=
  let va := d.plist + 8 * page
  match s.reach core vdev va ⟨true, false, false, some maskHd, none⟩ with
  | (.trap c _, s) => (.fault c, s)
  | (.wait, s) => (.wait, s)
  | (.ok x, s) =>
    if lfTier x.leaf = 2 || isWin (lfFrame x.leaf) then (.fault 0x14, s)
    else
      let pa := x.pa va
      let (v, s) := s.pkgRead ⟨core, vdev, lfTag x.leaf, 1⟩ (pa / 64)
      if v.poison then (.fault 0x1B, s)
      else (.ok (leNat (secBytes v.data (pa % 64) 8) / d.pageSize * d.pageSize) (lfKey x.leaf), s)

/-- What a head's translation of a page comes to (R213, R362, R364). -/
inductive PageRes where
  | reg (g : PageReg)
  | stop (st : HStop) (event : Option Nat)
  | wait
  deriving DecidableEq, Repr

/-- A `CPGI` moves the page of an address (R361): it has its frame. -/
def Cmd.moves (c : Cmd) (va : Nat) : Bool :=
  let lo := (c.o1 + W (c.acts * c.size)).toNat
  c.opc == 0x5C && c.frame.isSome && decide (lo ≤ va) && decide (va < lo + c.size)

/-- The page of an address of a virtual device is being moved by a `CPGI` (R361, R362). -/
def State.pagingIn (s : State) (vdev va : Nat) : Bool :=
  (s.ctxs.map (·.2) ++ s.saved.map (·.k)).any fun (k : Ctx) => k.bd.vdev == vdev && k.eng.cmds.any fun (c : Cmd) => c.moves va

/-- Translate the page of a piece for a head (R213). One that a `CPGI` moves is waited for (R362). -/
def State.headPage (s : State) (core vdev : Nat) (d : Desc) (h : Head) (p : Piece) : PageRes × State :=
  let lo := p.off / 65536 * 65536
  match s.pageList core vdev d p.page with
  | (.wait, s) => (.wait, s)
  | (.fault c, s) => (.stop (.fault p.page lo (lo + 65536) c true (d.plist + 8 * p.page)) none, s)
  | (.ok base key, s) =>
    match s.xlateFor core vdev (base + p.off) fun e => h.need.bars e || (lfTier e == 1 && !lfSt e) with
    | (.pending, s) => (.wait, s)
    | (.fail _, s) => (.stop (.fault p.page lo (lo + 65536) 0x15 false base) none, s)
    | (.ok x, s) =>
      match h.need.check x.leaf with
      | some c => (.stop (.fault p.page lo (lo + 65536) c false base) none, s)
      | none =>
        if lfTier x.leaf = 2 || isWin (lfFrame x.leaf) then (.stop (.fault p.page lo (lo + 65536) 0x14 false base) none, s)
        else if lfTier x.leaf = 1 && s.pagingIn vdev (base + p.off) then (.wait, s)
        else if lfTier x.leaf = 1 && !lfSt x.leaf then
          (if lfMg x.leaf then .wait
           else .stop (.tier p.page (x.va - base) (x.va + x.size - base) x.va) (some x.va), s)
        else (.reg ⟨p.page, base, (key, d.plist + 8 * p.page), x.va, x.size, x.leaf, x.pte⟩, s)

/-- A head as its flue looks at the page again at which it has met a fault: no failure is held (R417). -/
def Head.retry (h : Head) : Head :=
  match h.stop with
  | .fault _ _ _ _ _ _ => { h with stop := .none }
  | _ => h

/-- A head translates the next page that its flue needs (R213), unless it has stopped at it; a CXL page without stream-tier
posts one event (R364). -/
def State.headTranslate (s : State) (x : CtxRef) (k : Ctx) (n : Nat) : State :=
  let h := (k.head n).retry
  let core := x.core.toNat
  if !h.bound then s
  else
    match s.tape? core k h.handle with
    | none => s
    | some d =>
      match h.wanted d (bits k.sr.npd 0 32) with
      | none => s
      | some p =>
        if h.stop.covers p then s
        else
        match s.headPage core k.bd.vdev d h p with
        | (.wait, s) => s
        | (.reg g, s) => s.setCtx x (k.setHead n (h.takeReg d g))
        | (.stop st ev, s) =>
          let s := s.setCtx x (k.setHead n { h with stop := st })
          match ev with
          | some va => s.postEvent x 0 (n * 2 ^ 24 + h.handle) (W va)
          | none => s

/-- FLUE_PAGE_TRANSLATE (R213). -/
def execFluePageTranslate (x : CtxRef) (hd : BitVec 4) (s : State) : Out :=
  match s.ctx? x with
  | none => .next s
  | some k => .next (s.headTranslate x k hd.toNat)

/-- Another path than a head has written a sector since a tick (R189). -/
def State.alienSince (s : State) (since sec : Nat) : Bool := decide (since < tget 0 s.ms.alien sec)

/-- The tick at which a tape began: the last write of its directory entry by a loader or `TOPEN` (R189, log 42). -/
def State.tapeSince (s : State) (t : Target) : Nat := max (tget 0 s.ms.alien (t.pa / 64)) (tget 0 s.ms.alien (t.pa / 64 + 1))

/-- Read the bytes of a piece for a head, at the MSC or the expander with traffic class TC1 (R189, R364). A sector that
another path has written since a tick is undefined, but where system software has written the page's leaf after that: the page
has moved to the frame that it had copied it to (R421, log 42). -/
def State.headBytes (s : State) (core vdev since : Nat) (g : PageReg) (off n : Nat) : List Byte × Bool × State :=
  let pa := g.pa off
  let since := max since (tget 0 s.ms.alien (g.pte / 64))
  (sectorsOf pa n).foldl (fun (r : List Byte × Bool × State) sec =>
    let (v, s) := r.2.2.pkgRead ⟨core, vdev, lfTag g.leaf, 1⟩ sec
    let data := if s.alienSince since sec then s.freeSector sec else v.data
    let lo := if 64 * sec < pa then pa % 64 else 0
    let hi := min 64 (pa + n - 64 * sec)
    (r.1 ++ secBytes data lo (hi - lo), r.2.1 || v.poison, s)) ([], false, s)

/-- Where the bytes of a piece lie: sector, offset in the record, number. -/
def partsOf (l : List (Piece × PageReg)) : List (Nat × Nat × Nat) :=
  l.flatMap fun q =>
    let pa := q.2.pa q.1.off
    (sectorsOf pa q.1.n).map fun sec =>
      let lo := max pa (64 * sec)
      (sec, q.1.pos + (lo - pa), min (pa + q.1.n) (64 * sec + 64) - lo)

/-- The bytes of a held record as they are consumed: a sector that another path has written meanwhile is undefined (R189). -/
def FlueRec.now (e : FlueRec) (s : State) : List Byte :=
  e.parts.foldl (fun (l : List Byte) p =>
    if s.alienSince e.since p.1 then
      l.take p.2.1 ++ (upTo p.2.2).map (fun i => Config.freeByte (s.md.tick * 2 ^ 52 + 64 * p.1 + i)) ++ l.drop (p.2.1 + p.2.2)
    else l) e.bytes

/-- The page registers of a record's pieces, all held. -/
def Head.regsOf (h : Head) (d : Desc) (r : Nat) : Option (List (Piece × PageReg)) :=
  (d.pieces r).mapM fun p => (h.regFor p.page p.off).map fun g => (p, g)

/-- Set the accessed or dirty bits of the pages of a record (R418): whether every entry still had its held value. -/
def State.headAd (s : State) (wr : Bool) (l : List (Piece × PageReg)) : Bool × State :=
  l.foldl (fun (r : Bool × State) q =>
    let (ok, _, s) := r.2.adUpdate ⟨q.2.va, q.2.size, q.2.leaf, q.2.pte⟩ wr
    (r.1 && ok, s)) (true, s)

/-- A held register after the bits of its leaf are set. -/
def PageReg.seen (g : PageReg) (wr : Bool) : PageReg := { g with leaf := adSet g.leaf wr }

/-- The head's registers after an access through some of them. -/
def Head.seen (h : Head) (wr : Bool) (l : List (Piece × PageReg)) : Head :=
  let up := fun (o : Option PageReg) => o.map fun g => if l.any (fun q => q.2.pte == g.pte) then g.seen wr else g
  { h with cur := up h.cur, nxt := up h.nxt }

/-- Keys and addresses of an access to a record's pages (R406). -/
def keysOf (l : List (Piece × PageReg)) : List (Nat × Nat) :=
  l.flatMap fun q => [q.2.listKey, (lfKey q.2.leaf, q.2.base + q.1.off)]

/-- The flue of a head fetches its next record (R211), within the crossing rule, once its pages are translated. -/
def State.flueFetch (s : State) (x : CtxRef) (k : Ctx) (n : Nat) : State :=
  let h := k.head n
  let core := x.core.toNat
  let f := h.fetchPoint
  if !h.bound || h.mode == .recorder || 64 ≤ h.flue.length || decide (f < 0) then s
  else
    match (s.tapeEntry core k h.handle false).1 with
    | .bad | .wait => s
    | .ok d t =>
      let r := f.toNat
      if d.len ≤ r || s.readerHeld k.bd.vdev d h r || k.hwrites.any (fun w => w.hd == n && w.idx == r) then s
      else
        match h.regsOf d r with
        | none => s
        | some l =>
          if l.any fun q => s.expDead (q.2.pa q.1.off) then s
          else
            match s.headAd false l with
            | (false, s) => s.setCtx x (k.setHead n { h with cur := none, nxt := none })
            | (true, s) =>
              let (bytes, poison, s) := l.foldl (fun (a : List Byte × Bool × State) q =>
                let (b, p, s) := a.2.2.headBytes core k.bd.vdev (s.tapeSince t) q.2 q.1.off q.1.n
                (a.1 ++ b, a.2.1 || p, s)) ([], false, s)
              let h := h.seen false l
              s.setCtx x (k.setHead n { h with flue := h.flue ++ [⟨r, bytes, poison, keysOf l, partsOf l, s.md.tick + 1⟩] })

/-- FLUE_FETCH (R211). -/
def execFlueFetch (x : CtxRef) (hd : BitVec 4) (s : State) : Out :=
  match s.ctx? x with
  | none => .next s
  | some k => .next (s.flueFetch x k hd.toNat)

/-- What consuming a record comes to (R193). -/
inductive Eat where
  /-- a record -/
  | got (d : Desc) (bytes : List Byte) (m : Mach)
  /-- the zero record of a zero-fill head at EOT -/
  | zero (d : Desc) (m : Mach)
  /-- a skip under a false guard -/
  | skip (d : Desc) (m : Mach)
  | trap (f : Mach → Mach) (cause : BitVec 8) (tval : Word)
  | wait (w : Why)

/-- Clear a head's stop: the word that needs its page has taken the fault. -/
def clearStop (n : Nat) (m : Mach) : Mach := m.ctx fun k => k.setHead n { k.head n with stop := .none }

/-- The fault of the first of a record's pieces that meets one now: cause, tval. -/
def Mach.pieceFault (m : Mach) (n : Nat) (d : Desc) (l : List Piece) : Option (BitVec 8 × Word) :=
  l.findSome? fun p =>
    match (m.s.headPage m.x.core.toNat m.k.bd.vdev d (m.k.head n) p).1 with
    | .stop (.fault _ _ _ c list va) _ => some (c, W (if list then va else va + p.off))
    | _ => none

/-- Why a word cannot have record r yet, or the fault that it takes (R213), at the first byte of the record that meets it.
No failure is held (R417): the page is translated again, and the fault is the one that it takes now (log 51). -/
def Mach.notHeld (m : Mach) (n : Nat) (d : Desc) (r : Nat) : Eat :=
  let h := m.k.head n
  match (d.pieces r).find? h.stop.covers with
  | none => .wait .headRecord
  | some _ =>
    match h.stop with
    | .none => .wait .headRecord
    | .tier _ _ _ _ => .wait .tier
    | .fault _ _ _ _ _ _ =>
      match m.pieceFault n d (d.pieces r) with
      | some (c, v) => .trap (clearStop n) c v
      | none => .wait .headRecord

/-- The key check of an access (R406): the address of the first denied page. -/
def keyDenied (pkp : Word) (wr : Bool) (l : List (Nat × Nat)) : Option Nat :=
  (l.find? fun q => bitAt pkp (2 * q.1) || (wr && bitAt pkp (2 * q.1 + 1))).map (·.2)

/-- The packed-sparse masks of a row image are well formed (R186). -/
def rowMasksOk (enc scl sp : Nat) (row : List Byte) : Bool :=
  sp == 0 ||
  (let at_ := rowBytesOf enc scl sp - 8
   (upTo 4).all fun g => popCount 16 (leNat ((row.drop (at_ + 2 * g)).take 2)) == keptOf sp)

/-- The metadata of a record is well formed (R186). -/
def Desc.masksOk (d : Desc) (bytes : List Byte) : Bool :=
  d.sp == 0 ||
  (let n := rowBytesOf d.enc d.scl d.sp
   let rows := if d.shape = 2 then 64 else 1
   (chunks n bytes rows).all (rowMasksOk d.enc d.scl d.sp))

/-- The checks of R193 that a false guard does not waive, and the descriptor: 0x20, 0x29. -/
def Mach.headCheck (m : Mach) (n : Nat) : Except (BitVec 8 × Word) (Head × Desc) :=
  let h := m.k.head n
  let d := (m.close.tape? m.x.core.toNat m.k h.handle).getD (Desc.ofWords [])
  if !h.bound || h.owner != m.st then .error (0x20, headTval h n d.len)
  else if !h.reads then .error (0x29, headTval h n d.len)
  else .ok (h, d)

/-- What a consumption is to take, by the checks that wait for nothing (R193). -/
inductive HeadUse where
  | skip (d : Desc)
  | zero (d : Desc)
  | record (d : Desc) (r : Nat)
  deriving DecidableEq, Repr

/-- The checks of R193 that wait for nothing; `use` is the check of the record's shape and encoding by the word (0x22). -/
def Mach.headUse (m : Mach) (n : Nat) (act : Bool) (use : Desc → Bool) : Except (BitVec 8 × Word) HeadUse :=
  match m.headCheck n with
  | .error e => .error e
  | .ok (h, d) =>
    if !act then .ok (.skip d)
    else if h.eot d.len then (if h.mode == .zeroFill then .ok (.zero d) else .error (0x23, headTval h n d.len))
    else if !use d then .error (0x22, headTval h n d.len)
    else .ok (.record d h.v.toNat)

/-- Step head n by one record. -/
def Mach.stepHead (m : Mach) (n : Nat) (d : Desc) : Mach := m.ctx fun k => k.setHead n ((k.head n).stepped d)

/-- What waiting for a record comes to: the record, with its bytes as they are consumed (R189). -/
inductive Awaited where
  | record (bytes : List Byte) (poison : Bool)
  | stop (e : Eat)

/-- A record is waited for, and its keys and masks are checked (R186, R193, R208, R213, R406). -/
def Mach.await (m : Mach) (n : Nat) (d : Desc) (r : Nat) : Awaited :=
  let h := m.k.head n
  if m.close.readerHeld m.k.bd.vdev d h r then .stop (.wait .crossing)
  else
    match h.flue.find? fun e => e.idx == r with
    | none => .stop (m.notHeld n d r)
    | some e =>
      match keyDenied m.k.sr.pkp false e.keys with
      | some va => .stop (.trap id 0x17 (W va))
      | none => if d.masksOk (e.now m.s) then .record (e.now m.s) e.poison else .stop (.trap id 0x24 (headTval h n d.len))

/-- A record is waited for and checked, and the head steps (R193, R214): poison comes last. -/
def Mach.eat (m : Mach) (n : Nat) (u : HeadUse) : Eat :=
  match u with
  | .skip d => .skip d (m.stepHead n d)
  | .zero d => .zero d m
  | .record d r =>
    match m.await n d r with
    | .stop e => e
    | .record bytes poison =>
      if poison then .trap id 0x21 (headTval (m.k.head n) n d.len) else .got d bytes (m.stepHead n d)

/-- consume (R193). -/
def Mach.consume (m : Mach) (n : Nat) (act : Bool) (use : Desc → Bool) : Eat :=
  match m.headUse n act use with
  | .error (c, v) => .trap id c v
  | .ok u => m.eat n u

/-- The checks of several consumptions of one word, made for the whole word (R194): the fault of the first that fails. -/
def Mach.headsBad (m : Mach) (act : Bool) : List (Nat × (Desc → Bool)) → Option (BitVec 8 × Word)
  | [] => none
  | (n, use) :: t =>
    match m.headUse n act use with
    | .error e => some e
    | .ok (.zero _) => m.headsBad act t
    | .ok (.skip d) | .ok (.record d _) => (m.stepHead n d).headsBad act t

/-- Codes of a row's data part (R186): n codes of w bits, packed from the low end. -/
def codesOf (w n : Nat) (bytes : List Byte) : List Nat :=
  let v := leNat bytes
  (upTo n).map fun i => (v >>> (w * i)) % 2 ^ w

/-- Pack codes of w bits (R186). -/
def packCodes (w : Nat) : List Nat → Nat
  | [] => 0
  | c :: t => c % 2 ^ w + 2 ^ w * packCodes w t

/-- Spread kept codes over the 64 lanes of a mask, zeros elsewhere (R186, R229). -/
def spread : Nat → Nat → List Nat → List Nat
  | 0, _, _ => []
  | n + 1, mask, codes =>
    if mask % 2 = 1 then codes.headD 0 :: spread n (mask / 2) (codes.drop 1) else 0 :: spread n (mask / 2) codes

/-- A decoded row image: 64 codes, which lanes it keeps, its two block scales. -/
structure RowImg where
  codes : List Nat
  kept : BitVec 64
  scale0 : Byte
  scale1 : Byte
  deriving DecidableEq, Repr

/-- Read a row image (R186). -/
def rowImage (enc scl sp : Nat) (row : List Byte) : RowImg :=
  let n := 4 * keptOf sp
  let w := encWidth enc
  let data := n * w / 8
  let codes := codesOf w n (row.take data)
  let sc := row.drop data
  let mask := leNat ((row.drop (rowBytesOf enc scl sp - 8)).take 8)
  { codes := if sp = 0 then codes else spread 64 mask codes
    kept := if sp = 0 then BitVec.allOnes 64 else BitVec.ofNat 64 mask
    scale0 := if scl = 1 then sc.getD 0 0x7F else 0x7F
    scale1 := if scl = 1 then sc.getD 1 0x7F else 0x7F }

/-- The element codes of a PTILE record, the first `planes` planes read (R187). -/
def planeCodes (planes : Nat) (bytes : List Byte) : List Nat :=
  (upTo 4096).map fun j =>
    ((upTo 8).map fun p =>
      if p < planes && (bytes.getD (512 * p + j / 8) 0).getLsbD (j % 8) then 2 ^ (7 - p) else 0).sum

/-- The row images of a record: one for ROW, 64 for TILE and PTILE (R186, R187). -/
def Desc.rows (d : Desc) (planes : Nat) (bytes : List Byte) : List RowImg :=
  match d.shape with
  | 0 => [⟨List.replicate 64 (leNat bytes), BitVec.allOnes 64, 0x7F, 0x7F⟩]
  | 1 => [rowImage d.enc d.scl d.sp bytes]
  | 2 => (chunks (rowBytesOf d.enc d.scl d.sp) bytes 64).map (rowImage d.enc d.scl d.sp)
  | _ =>
    (chunks 64 (planeCodes (min planes (d.pl + 1)) bytes) 64).map fun c => ⟨c, BitVec.allOnes 64, 0x7F, 0x7F⟩

/-- The row of a zero record: +0 in every lane, whatever the encoding (R193); `codes` is read as zero values. -/
def RowImg.zero : RowImg := ⟨List.replicate 64 0, BitVec.allOnes 64, 0x7F, 0x7F⟩

end Sys2Proof.Machine
end

