-- ==== Sys2Proof/Machine/Heads.lean ====
section
/-! DEFINITION. The words on heads and tapes: HSTEP, HMARK, HREW, HSTAT, HBIND, HUNB, TOPEN, TSEAL, TSTAT (spec/08). -/
namespace Sys2Proof.Machine

/-- The core that the word issues on. -/
def Mach.core (m : Mach) : Nat := m.x.core.toNat

/-- The descriptor of a bound head's tape. -/
def Mach.tapeOf (m : Mach) (handle : Nat) : Desc := (m.s.tape? m.core m.k handle).getD (Desc.ofWords [])

/-- sr.tval of a head fault (R195). -/
def Mach.headTv (m : Mach) (n : Nat) : Word := headTval (m.k.head n) n (m.tapeOf (m.k.head n).handle).len

/-- A word that moves a head: 0x20 for a stream that is not the owner, 0x29 for a recorder (R204, R205). -/
def Mach.mover (m : Mach) (n : Nat) (f : Head → Desc → Head) : Res :=
  let h := m.k.head n
  if !h.bound || h.owner != m.st then .trap 0x20 (m.headTv n)
  else if h.mode == .recorder then .trap 0x29 (m.headTv n)
  else .done (m.ctx fun k => k.setHead n (f h (m.tapeOf h.handle)))

/-- Step a head by a signed count (R204, R211). -/
def Head.stepBy (n : Int) (h : Head) (d : Desc) : Head :=
  (if n < 0 then { h with flue := [] } else h).moveFrom h d (h.v + n * h.dir)

/-- Mark i of a head (R191). -/
def Head.mark (h : Head) (i : Nat) : Int := match i with | 0 => h.mk0 | 1 => h.mk1 | 2 => h.mk2 | _ => h.mk3

/-- Set mark i. -/
def Head.setMark (h : Head) (i : Nat) (v : Int) : Head :=
  match i with
  | 0 => { h with mk0 := v } | 1 => { h with mk1 := v } | 2 => { h with mk2 := v } | _ => { h with mk3 := v }

/-- HSTEP (R204). -/
def execHstep (h : Hdr) (o : H) (s : State) : Out :=
  issueWord (.hstep h o) h { Ports.none with srcs := [o.cnt] }
    (fun m a =>
      let n := if o.cnt = 48 then o.imm.toInt else (a.v 0).toInt
      if a.act then m.mover o.hd.toNat (Head.stepBy n) else .done m) s

/-- HMARK (R205). -/
def execHmark (h : Hdr) (o : H) (s : State) : Out :=
  issueWord (.hmark h o) h Ports.none
    (fun m a => if a.act then m.mover o.hd.toNat (fun q _ => q.setMark o.mark.toNat q.v) else .done m) s

/-- HREW (R205). -/
def execHrew (h : Hdr) (o : H) (s : State) : Out :=
  issueWord (.hrew h o) h Ports.none
    (fun m a =>
      if a.act then m.mover o.hd.toNat (fun q d => { q with flue := [] }.moveFrom q d (q.mark o.mark.toNat)) else .done m) s

/-- Code of a head's mode in `HSTAT.st` (R206). -/
def HMode.code : HMode → Nat
  | .read | .recorder => 0 | .rmw => 1 | .overwrite => 2 | .zeroFill => 3

/-- The state word of `HSTAT.st` (R206). -/
def Ctx.headState (k : Ctx) (h : Head) (len : Nat) : Word :=
  if !h.bound then 0
  else
    let pzn := h.flue.any fun e => e.idx == h.pos len && e.poison
    let tier := match h.stop with
      | .tier _ _ _ _ => true
      | _ => false
    W (1 + b2n (h.eot len) * 2 + h.owner.num * 4 + b2n h.back * 16 + h.mode.code * 32 + b2n (h.mode == .recorder) * 128 +
       b2n ((k.str h.owner).stalled == some .crossing) * 256 + b2n tier * 512 + b2n pzn * 1024)

/-- The value of `HSTAT` (R206); an unbound head reads 0. -/
def Mach.hstat (m : Mach) (n sel mk : Nat) : Word :=
  let h := m.k.head n
  let len := (m.tapeOf h.handle).len
  if !h.bound then 0
  else
    match sel with
    | 0 => W (h.pos len)
    | 1 => m.k.headState h len
    | 2 => WI (h.mark mk)
    | 3 => W h.handle
    | 4 => WI (if h.back then max (h.v + 1) 0 else max (Int.ofNat len - h.v) 0)
    | _ => W h.flue.length

/-- HSTAT (R206, R89; log 47). -/
def execHstat (h : Hdr) (o : H) (s : State) : Out :=
  issueWord (.hstat h o) h { Ports.none with dsts := [o.cnt] }
    (fun m a => .done (m.put o.cnt a.act (m.hstat o.hd.toNat (o.fl.toNat % 8) o.mark.toNat) true)) s

/-- Every load of the context is performed, and every fill that reads memory (R295). -/
def Ctx.loadsDone (k : Ctx) : Bool := k.loads.isEmpty && k.fills.all fun f => !f.orders

/-- Everything that precedes a release of the context is performed (R261, R266): loads, stores, head writes. -/
def Ctx.released (k : Ctx) : Bool := k.loadsDone && k.stores.isEmpty && k.hwrites.isEmpty

/-- The upd field for an updater (R182). -/
def updField (x : CtxRef) (n : Nat) : Word := W (1 + x.core.toNat * 2 + b2n x.bank * 2 ^ 9 + n * 2 ^ 10)

/-- A head fresh at a bind (R197). -/
def Head.fresh (handle : Nat) (owner : Stream) (back : Bool) (mode : HMode) (v : Int) : Head :=
  { Head.unbound with
    bound := true, handle := handle, owner := owner, back := back, mode := mode, v := v, mk0 := v, mk1 := v, mk2 := v, mk3 := v }

/-- Owner of an `HBIND` (R197). -/
def hOwner (o : H) : Stream := match o.fl.toNat / 32 % 4 with | 1 => .V | 2 => .M | _ => .D

/-- Mode of an `HBIND` (R197). -/
def hMode (o : H) : HMode := match o.fl.toNat / 8 % 4 with | 0 => .read | 1 => .rmw | 2 => .overwrite | _ => .zeroFill

/-- The limits of R191 admit another head. -/
def Mach.bindFits (m : Mach) (handle : Nat) (update : Bool) : Bool :=
  let all := m.close.headsOn m.k.bd.vdev handle
  let mine := (m.k.heads.filter fun q => q.2.bound && q.2.handle == handle).length
  let readers := (all.filter fun a => a.h.reads).length
  let updater := all.any fun a => a.h.updates
  decide (mine < 4) && (if update then !updater && decide (readers ≤ 16) else !updater || decide (readers < 16))

/-- Body of `HBIND` (R197): an acquire, which waits for the loads before it (R218, R269). -/
def hbindBody (o : H) (m : Mach) (a : Opnds) : Res :=
  let n := o.hd.toNat
  let handle := (a.v 0).toNat
  let mode := hMode o
  let update := mode == .rmw || mode == .overwrite
  if !a.act then .done m
  else
    if !m.k.loadsDone then .wait .earlier
    else
    match m.s.tapeEntry m.core m.k handle true with
    | (.wait, _) => .wait .migrating
    | (.bad, _) => .trap 0x25 (tapeTval handle)
    | (.ok d t, s) =>
      if (m.k.head n).bound then .trap 0x27 (m.headTv n)
      else if d.state != 3 && (update || d.state != 2) then .trap 0x26 (tapeTval handle)
      else if !m.bindFits handle update then .trap 0x27 (tapeTval handle)
      else
        let back := o.fl.getLsbD 2
        let s := s.descPut t 9 (W ((d.nheads + 1) % 256))
        let s := if update then s.descPut t 8 (updField m.x n) else s
        let h := Head.fresh handle (hOwner o) back mode (if back then Int.ofNat d.len - 1 else 0)
        .done ({ m with s := s }.ctx fun k => k.setHead n h)

/-- HBIND (R197). -/
def execHbind (h : Hdr) (o : H) (s : State) : Out :=
  issueWord (.hbind h o) h { Ports.none with srcs := [o.cnt] } (hbindBody o) s

/-- Unbind head n of a context: the flue goes, and the head's place in nheads and upd (R198). None while the directory
page is migrating or its frame is being scrubbed (R421, R423). -/
def State.unbindHead (s : State) (core : Nat) (k : Ctx) (n : Nat) : Option (Ctx × State) :=
  let h := k.head n
  if !h.bound then some (k, s)
  else
    match s.tapeEntry core k h.handle true with
    | (.ok d t, s) =>
      let s := s.descPut t 9 (W ((d.nheads + 255) % 256))
      some (k.setHead n Head.unbound, if h.updates then s.descPut t 8 0 else s)
    | (.bad, s) => some (k.setHead n Head.unbound, s)
    | (.wait, _) => none

/-- Unbind every head of a context (R219), or none of them. -/
def State.unbindHeads (s : State) (core : Nat) (k : Ctx) : Option (Ctx × State) :=
  (upTo 16).foldl (fun (r : Option (Ctx × State)) n => r.bind fun r => r.2.unbindHead core r.1 n) (some (k, s))

/-- Body of `HUNB` (R198). -/
def hunbBody (o : H) (m : Mach) (a : Opnds) : Res :=
  let n := o.hd.toNat
  if !a.act then .done m
  else if m.k.hwrites.any (fun w => w.hd == n) then .wait .earlier
  else
    match m.s.unbindHead m.core m.k n with
    | some (k, s) => .done { m with s := s, k := k }
    | none => .wait .migrating

/-- HUNB (R198). -/
def execHunb (h : Hdr) (o : H) (s : State) : Out := issueWord (.hunb h o) h Ports.none (hunbBody o) s

/-- The descriptor image is one that `TOPEN` takes (R182, R184, R199). -/
def Desc.imageOk (d : Desc) : Bool :=
  d.legal && decide (1 ≤ d.len) && decide (1 ≤ d.pcount) && d.plist % 8 == 0 && decide (d.psize ≤ 2) &&
  decide (d.off0 < d.pageSize) &&
  decide (d.off0 + d.len * recBytesOf d.shape d.enc d.scl d.sp d.pl ≤ d.pcount * d.pageSize)

/-- The entry that `TOPEN` writes (R199), with its recorder bound. -/
def Desc.opened (d : Desc) : List Word :=
  [keep d.ctl 12 0 ||| W (2 ^ 13), W d.len, 0, W (recBytesOf d.shape d.enc d.scl d.sp d.pl), W d.plist,
   W (d.pcount + d.psize * 2 ^ 32), W d.comp, W d.off0, 0, 1, 0, 0, 0, 0, 0, 0]

/-- What the search for a free entry finds. -/
inductive FreeEntry where
  | at_ (handle : Nat) (t : Target)
  | full
  | wait
  deriving DecidableEq, Repr

/-- The lowest-numbered free directory entry from `n` on (R199). -/
def State.freeEntry (s : State) (core : Nat) (k : Ctx) : Nat → Nat → FreeEntry × State
  | 0, _ => (.full, s)
  | fuel + 1, n =>
    match tdirVa k.sr.tdir n with
    | none => (.full, s)
    | some va =>
      match s.entryAt core k.bd.vdev va false with
      | (.wait, s) => (.wait, s)
      | (.bad, s) => State.freeEntry s core k fuel (n + 1)
      | (.ok d _, s) =>
        if d.state = 0 then
          (match s.entryAt core k.bd.vdev va true with
           | (.ok _ t, s) => (.at_ n t, s)
           | (.bad, s) => (.full, s)
           | (.wait, s) => (.wait, s))
        else State.freeEntry s core k fuel (n + 1)

/-- Write the whole of an entry. -/
def State.descPutAll (s : State) (t : Target) (ws : List Word) : State :=
  ws.zipIdx.foldl (fun s p => s.descPut t p.2 p.1) s

/-- A load of the A stream reads memory under `sr.pkp` with the mask bit ls (R416). -/
def Ctx.needLd (k : Ctx) : Need := ⟨true, false, false, some maskLs, some k.sr.pkp⟩

/-- Body of `TOPEN` (R199). -/
def topenBody (o : S3) (m : Mach) (a : Opnds) : Res :=
  let va := a.v 0
  let n := bits (a.v 1) 0 4
  if !a.act then .done (m.put o.dst false 0 false)
  else if bits (a.v 1) 5 59 ≠ 0 || va.toNat % 128 ≠ 0 then .trap 0x25 0
  else
    match m.s.look m.core m.k va m.k.needLd with
    | (.trap c, _) => .trap c va
    | (.wait w, _) => .wait w
    | (.ok t, s) =>
      if s.expDead t.pa then .wait (.expander va)
      else if !m.k.stores.isEmpty || !m.k.loadsDone then .wait .earlier
      else
        let (bytes, poison, s) := s.pathBytes t.path t.acc t.pa 128
        let d := Desc.ofWords ((chunks 8 bytes 16).map fun b => W (leNat b))
        if poison then .trap 0x1B va
        else if !d.imageOk then .trap 0x25 0
        else if (m.k.head n).bound then .trap 0x27 (m.headTv n)
        else
          match s.freeEntry m.core m.k (2 ^ bits m.k.sr.tdir 58 5) 1 with
          | (.wait, _) => .wait .migrating
          | (.full, _) => .trap 0x2A 0
          | (.at_ handle t, s) =>
            let owner := if bitAt (a.v 1) 4 then Stream.M else Stream.D
            let m := ({ m with s := (s.descPutAll t d.opened).aliens [t.pa / 64, t.pa / 64 + 1] }).ctx fun k =>
              k.setHead n (Head.fresh handle owner false .recorder 0)
            .done (m.put o.dst true (W handle) a.valid)

/-- TOPEN (R199). -/
def execTopen (h : Hdr) (o : S3) (s : State) : Out := issueWord (.topen h o) h (s3Ports o) (topenBody o) s

/-- A record write to the tape is still to be performed, by any context of the device. -/
def State.writesTo (s : State) (vdev handle : Nat) : Bool :=
  (s.ctxs.map (·.2) ++ s.saved.map (·.k)).any fun (k : Ctx) => k.bd.vdev == vdev && k.hwrites.any fun w => w.handle == handle

/-- Unbind every head of a tape in the package (the recorder of an open one; R190, R202). -/
def State.unbindTape (s : State) (vdev handle : Nat) : State :=
  let out := fun (k : Ctx) =>
    if k.bd.vdev = vdev then { k with heads := k.heads.filter fun q => !(q.2.bound && q.2.handle == handle) } else k
  { s with ctxs := s.ctxs.map fun p => (p.1, out p.2), saved := s.saved.map fun (p : Saved) => { p with k := out p.k } }

/-- The context at hand, put back, changed with the others, and taken out again. -/
def Mach.package (m : Mach) (f : State → State) : Mach :=
  let s := f m.close
  match s.ctx? m.x with
  | some k => { m with s := s, k := k }
  | none => { m with s := s }

/-- The control dword after a `TSEAL` (R183, R190). -/
def sealCtl (ctl : Word) (to_ : Nat) (cp : Bool) : Word :=
  if to_ = 2 then ctl &&& ~~~(W (3 * 2 ^ 13))
  else keep ctl 12 0 ||| W ((2 + to_) * 2 ^ 13 + b2n cp * 2 ^ 15)

/-- Why a `TSEAL` fails (R190); `bound`: a head of the package is bound to the tape, however many the eight bits of nheads
count. -/
def Desc.sealFault (d : Desc) (to_ : Nat) (cp bound : Bool) : Option (BitVec 8) :=
  if d.state = 1 then (if to_ < 2 && d.recorded == 0 then some 0x26 else none)
  else if to_ = 2 then (if bound then some 0x27 else none)
  else if bitAt d.upd 0 && (cp != d.cp || (d.state == 3 && to_ == 0)) then some 0x27
  else none

/-- A head of the package is bound to the tape (R190). -/
def Mach.tapeBound (m : Mach) (handle : Nat) : Bool := !(m.close.headsOn m.k.bd.vdev handle).isEmpty

/-- Body of `TSEAL` (R190, R202): a release while the tape is open (R218). -/
def tsealBody (o : S3) (m : Mach) (a : Opnds) : Res :=
  let handle := (a.v 0).toNat
  let to_ := o.fn.toNat % 4
  let cp := o.fn.getLsbD 2
  if !a.act then .done (m.put o.dst false 0 false)
  else
    match m.s.tapeEntry m.core m.k handle true with
    | (.wait, _) => .wait .migrating
    | (.bad, _) => .trap 0x25 (tapeTval handle)
    | (.ok d t, s) =>
      match d.sealFault to_ cp (m.tapeBound handle) with
      | some c => .trap c (tapeTval handle)
      | none =>
        if d.state = 1 && (m.close.writesTo m.k.bd.vdev handle || !m.k.released) then .wait .earlier
        else
          let s := s.descPut t 0 (sealCtl d.ctl to_ cp)
          let s := if d.state = 1 then (if to_ = 2 then s else s.descPut t 1 (W d.recorded)).descPut t 9 0 else s
          let m := { m with s := s }
          let m := if d.state = 1 then m.package fun s => s.unbindTape m.k.bd.vdev handle else m
          .done (m.put o.dst true d.ctl a.valid)

/-- TSEAL (R202). -/
def execTseal (h : Hdr) (o : S3) (s : State) : Out := issueWord (.tseal h o) h (s3Ports1 o) (tsealBody o) s

/-- The field that `TSTAT` reads (R203). -/
def Desc.stat (d : Desc) (sel : Nat) : Word :=
  match sel with
  | 0 => d.ctl | 1 => W d.len | 2 => W d.recorded | 3 => W d.recBytes | 4 => W d.nheads | _ => d.upd

/-- Body of `TSTAT` (R203). -/
def tstatBody (o : S3) (m : Mach) (a : Opnds) : Res :=
  let handle := (a.v 0).toNat
  if !a.act then .done (m.put o.dst false 0 false)
  else
    match m.s.tapeEntry m.core m.k handle false with
    | (.wait, _) => .wait .migrating
    | (.bad, _) => .trap 0x25 (tapeTval handle)
    | (.ok d _, s) => .done ({ m with s := s }.put o.dst true (d.stat (o.fn.toNat % 8)) a.valid)

/-- TSTAT (R203). -/
def execTstat (h : Hdr) (o : S3) (s : State) : Out := issueWord (.tstat h o) h (s3Ports1 o) (tstatBody o) s

end Sys2Proof.Machine
end

