-- ==== Sys2Proof/Machine/Operands.lean ====
section
/-! DEFINITION. The operand forms: the vector specifiers of R66 to R71 and their reading (R152 to R154), the writing
of vector results (R155), the address operand of format L (R276). -/
namespace Sys2Proof.Machine

/-- A vector source as it has been read: one row or sixteen, and the lanes that count as valid. -/
structure VSrc where
  rows : List Row
  valid : BitVec 64
  deriving DecidableEq, Repr

/-- Element (r, l). -/
def VSrc.elem (v : VSrc) (r l : Nat) : Lane := (v.rows.getD r zeroRow).getD l 0

/-- Row r of vector register n. -/
def VecSt.row (v : VecSt) (n r : Nat) : Row := tget zeroRow v.regs (16 * n + r)

/-- Write row r of vector register n. -/
def VecSt.setRow (v : VecSt) (n r : Nat) (x : Row) : VecSt := { v with regs := tset zeroRow v.regs (16 * n + r) x }

/-- Width of a TY code (R151). -/
def tyWidth (ty : Nat) : Nat := (tyFmt ty).width

/-- The type is an unsigned integer (R68). -/
def tyUnsigned (ty : Nat) : Bool := ty == 4 || ty == 6 || ty == 8

/-- The code of an immediate operand (R68). R68 calls every immediate representable in every type, but ±9, ±11, ±13 and ±15
have four significant bits and E5M2 holds three: there the code is the nearest one, ties to even (log 54, DESIGN CHOICE). -/
def immCode (ty imm : Nat) : Nat :=
  let i : Int := if tyUnsigned ty || imm < 16 then Int.ofNat imm else Int.ofNat imm - 32
  match tyFmt ty with
  | .int w _ => (BitVec.ofInt w i).toNat
  | f => (convert f 0 false 0 (.fin (decide (i < 0)) i.natAbs 0) false).code

/-- An index operand (R153). -/
def Mach.index (m : Mach) (x : BitVec 8) : Int :=
  if vIsImm x then (x.extractLsb' 0 5).toInt else (m.t.reg (vNum x)).toInt

/-- The element type that a tape encoding supplies to a V word (R154). -/
def encTy (enc : Nat) : Option Nat :=
  match enc with
  | 7 => some 1 | 8 => some 2 | 0 => some 9 | 1 => some 10 | 6 => some 7 | _ => none

/-- A head record is usable as an operand of type ty (R154). -/
def vUsable (ty : Nat) (d : Desc) : Bool := decide (d.shape ≤ 1) && encTy d.enc == some ty

/-- A source field of a V word, with the element type that it is read in. -/
structure VField where
  spec : BitVec 8
  ty : Nat
  deriving DecidableEq, Repr

/-- The heads that the fields name, with their checks (R194). -/
def vHeads (fs : List VField) : List (Nat × (Desc → Bool)) :=
  fs.filterMap fun f => if vIsHead f.spec then some (vNum f.spec, vUsable f.ty) else none

/-- The row queues that the fields pop, in order (R65). -/
def vQueues (fs : List VField) : List Nat := fs.filterMap fun f => if vIsQueue f.spec then some (vNum f.spec) else none

/-- A row of element codes as lanes. -/
def laneRow (codes : List Nat) : Row := codes.map fun c => BitVec.ofNat 32 c

/-- Lanes that a skipped head leaves open (R119, R166): free values (log 19). -/
def freeRow (tick : Nat) : Row := (upTo 64).map fun l => (Config.freeWord (tick * 64 + l)).setWidth 32

/-- What reading the sources comes to. -/
inductive VRead where
  | ok (srcs : List VSrc) (m : Mach)
  | stop (r : Res)

/-- Read the source fields in order (R153): `n` rows; the entries popped stand in `rows`. -/
def Mach.vread (m : Mach) (act : Bool) (n : Nat) : List VField → List RowEnt → VRead
  | [], _ => .ok [] m
  | f :: fs, rows =>
    let next := fun (v : VSrc) (m : Mach) (rows : List RowEnt) =>
      match Mach.vread m act n fs rows with
      | .ok vs m => VRead.ok (v :: vs) m
      | .stop r => .stop r
    let same := fun (x : Row) => List.replicate n x
    if vIsReg f.spec then next ⟨(upTo n).map fun r => m.k.vec.row f.spec.toNat r, BitVec.allOnes 64⟩ m rows
    else if vIsQueue f.spec then
      let e := rows.headD ⟨zeroRow, 0⟩
      next ⟨same e.lanes, e.mask⟩ m (rows.drop 1)
    else if vIsHead f.spec then
      match m.consume (vNum f.spec) act (vUsable f.ty) with
      | .wait w => .stop (.wait w)
      | .trap g c v => .stop (.trapWith g c v)
      | .skip _ m' => next ⟨same (freeRow m.s.md.tick), BitVec.allOnes 64⟩ m' rows
      | .zero _ m' => next ⟨same zeroRow, BitVec.allOnes 64⟩ m' rows
      | .got d bytes m' =>
        let img := (d.rows 8 bytes).headD RowImg.zero
        next ⟨same (laneRow img.codes), BitVec.allOnes 64⟩ m' rows
    else if vIsBcast f.spec then next ⟨same (List.replicate 64 ((m.t.reg (vNum f.spec)).setWidth 32)), BitVec.allOnes 64⟩ m rows
    else next ⟨same (List.replicate 64 (BitVec.ofNat 32 (immCode f.ty (f.spec.toNat % 32)))), BitVec.allOnes 64⟩ m rows

/-- The source lane of an output lane under a lane pattern (R70); `sel` is the value of the pattern register. -/
def lpLane (op p : Nat) (sel : Word) (l : Nat) : Nat :=
  let b := l / 32 * 32
  let j := l % 32
  match op with
  | 1 => b + (j + p) % 32
  | 2 => b + 31 - j
  | 3 => 8 * (l / 8) + bits sel (3 * (l % 8)) 3
  | 4 => b + p
  | 5 => if l < 32 then l + 32 else l - 32
  | _ => l

/-- Rearrange a row: lane l takes lane `f l`. -/
def moveRow (f : Nat → Nat) (x : Row) : Row := (upTo 64).map fun l => x.getD (f l) 0

/-- Rearrange a lane mask. -/
def moveMask (f : Nat → Bool) : BitVec 64 := BitVec.ofNat 64 (((upTo 64).map fun l => if f l then 2 ^ l else 0).sum)

/-- Apply the word's lane pattern to the source that LPS names (R69, R70). -/
def applyLp (o : V3) (perm : Nat → Word) (i : Nat) (v : VSrc) : VSrc :=
  if o.lps.toNat = i + 1 then
    let f := lpLane (o.lp.toNat / 32) (o.lp.toNat % 32) (perm (o.lp.toNat % 16))
    ⟨v.rows.map (moveRow f), moveMask fun l => v.valid.getLsbD (f l)⟩
  else v

/-- A V word pushes its result to a row queue (R67). -/
def v3Pushes (o : V3) : Bool := vIsQueue o.s3

/-- Row shape (R152): a queue or a head among the sources, or a queue destination; `three` tells that S3 is a source. -/
def rowShaped (fs : List VField) (o : V3) (three : Bool) : Bool :=
  fs.any (fun f => vIsQueue f.spec || vIsHead f.spec) || (!three && v3Pushes o)

/-- Ports of a V word. -/
def v3Ports (fs : List VField) (o : V3) (three : Bool) : Ports :=
  { Ports.none with rowSrcs := vQueues fs, rowDsts := if !three && v3Pushes o then [vNum o.s3] else [] }

/-- What a V word reads, gathered for its computation. -/
structure VIn where
  srcs : List VSrc
  /-- rows of its shape -/
  n : Nat
  /-- row r of the effective mask -/
  mask : Nat → BitVec 64
  /-- lanes of a pushed entry that its row-queue sources leave valid (R155) -/
  valid : BitVec 64

/-- Source i, element (r, l). -/
def VIn.elem (v : VIn) (i r l : Nat) : Lane := (v.srcs.getD i ⟨[], 0⟩).elem r l

/-- A lane of a row that the word writes: under the effective mask, and valid when it is pushed (R155). A lane pushed invalid,
which carries zero, counts as not written: it takes no draw and raises no flag and no event (R55, R156; log 56). -/
def VIn.writes (v : VIn) (push : Bool) (r l : Nat) : Bool := (v.mask r).getLsbD l && (!push || v.valid.getLsbD l)

/-- Read the operands of a V word (R152 to R154, R194), then compute. -/
def vIn (h : Hdr) (o : V3) (fs : List VField) (rowsOnly : Bool) (m : Mach) (a : Opnds) (body : Mach → VIn → Res) : Res :=
  match m.headsBad a.act (vHeads fs) with
  | some (c, v) => .trap c v
  | none =>
    let n := if rowsOnly then 1 else 16
    let mask := effMask m.k.vec h
    match m.vread a.act n fs a.rows with
    | .stop r => r
    | .ok vs m =>
      let vs := lmapIdx (applyLp o m.k.sr.permReg) vs
      body m ⟨vs, n, mask, vs.foldl (fun b v => b &&& v.valid) (BitVec.allOnes 64)⟩

/-- Write rows of vector register n where the mask says (R155), from row `at_` on. -/
def Mach.putRows (m : Mach) (n at_ : Nat) (mask : Nat → BitVec 64) (rows : List Row) : Mach :=
  m.ctx fun k =>
    { k with vec := rows.zipIdx.foldl (fun v p =>
        let old := v.row n (at_ + p.2)
        v.setRow n (at_ + p.2) (lmapIdx (fun l x => if (mask p.2).getLsbD l then p.1.getD l 0 else x) old)) k.vec }

/-- Deliver the result rows of a V word: to its register, or to the queue that S3 names (R67, R155); `valid` is the
mask of the source lanes that feed each lane. -/
def Mach.putV (m : Mach) (o : V3) (v : VIn) (valid : BitVec 64) (rows : List Row) : Mach :=
  if v3Pushes o then m.ctx fun k => k.pushR (vNum o.s3) (rows.headD zeroRow) (v.mask 0 &&& valid)
  else m.putRows o.dst.toNat 0 v.mask rows

/-- Write mask bits of k(n) under the effective mask (R162, R165). -/
def Mach.putMask (m : Mach) (n : Nat) (v : VIn) (bitsAt : Nat → Nat → Bool) : Mach :=
  m.ctx fun k =>
    { k with vec := (upTo v.n).foldl (fun w r =>
        w.setMask n r ((w.mask n r &&& ~~~(v.mask r)) ||| (moveMask (bitsAt r) &&& v.mask r))) k.vec }

/-- Compute the written elements of rows one after another (R156): lanes that are not written give 0 and no flag. -/
def elemRow (wr : Nat → Bool) (f : Nat → BitVec 32 → RRes × BitVec 32) : Nat → Nat → BitVec 32 → List RRes × BitVec 32
  | 0, _, s => ([], s)
  | n + 1, l, s =>
    let (r, s) := if wr l then f l s else (⟨0, 0, .none⟩, s)
    let (rs, s) := elemRow wr f n (l + 1) s
    (r :: rs, s)

/-- Compute rows of elements. -/
def elemRows (wr : Nat → Nat → Bool) (f : Nat → Nat → BitVec 32 → RRes × BitVec 32) :
    Nat → Nat → BitVec 32 → List (List RRes) × BitVec 32
  | 0, _, s => ([], s)
  | n + 1, r, s =>
    let (x, s) := elemRow (wr r) (f r) 64 0 s
    let (xs, s) := elemRows wr f n (r + 1) s
    (x :: xs, s)

/-- The flags of computed rows. -/
def rowsFlags (l : List (List RRes)) : BitVec 5 := l.foldl (fun a x => x.foldl (fun a r => a ||| r.fl) a) 0

/-- The lanes of computed rows. -/
def rowsLanes (l : List (List RRes)) : List Row := l.map fun x => x.map fun r => BitVec.ofNat 32 r.code

/-- The address of an L word (R276): BASE, INDEX scaled by SC, OFF. -/
def lAddr (o : L) (base index : Word) : Word := base + (index <<< o.sc.toNat) + o.off.signExtend 64

/-- Bytes of an access of size code SZ (R275). -/
def szBytes (sz : Nat) : Nat := match sz with | 0 | 4 => 1 | 1 | 5 => 2 | 2 | 6 => 4 | 3 => 8 | _ => 256

end Sys2Proof.Machine
end

