-- ==== Sys2Proof/Machine/Vector.lean ====
section
/-! DEFINITION. The vector instructions of spec/07. -/
namespace Sys2Proof.Machine

/-- Fields of a V word with one, two or three vector sources of one type. -/
def vf1 (o : V3) (ty : Nat) : List VField := [⟨o.s1, ty⟩]
@[inherit_doc vf1] def vf2 (o : V3) (ty : Nat) : List VField := [⟨o.s1, ty⟩, ⟨o.s2, ty⟩]
@[inherit_doc vf1] def vf3 (o : V3) (ty : Nat) : List VField := [⟨o.s1, ty⟩, ⟨o.s2, ty⟩, ⟨o.s3, ty⟩]

/-- Run a V word: its ports, its shape, its operands, then its computation. -/
def runV (i : Instr) (h : Hdr) (o : V3) (fs : List VField) (three rowsOnly : Bool) (body : Mach → VIn → Res) (s : State) : Out :=
  issueWord i h (v3Ports fs o three) (fun m a => vIn h o fs rowsOnly m a body) s

/-- The end of a word that has computed elements: its draws, its flags, its events (R51, R53, R55, R156). -/
def Mach.vEnd (m : Mach) (lfsr : BitVec 32) (evs : List Ev) (fl : BitVec 5) : Res :=
  ((m.ctx fun k => { k with sr := { k.sr with lfsr := lfsr } }).count (m.k.sr.vtid.toNat % 256) evs).afterFlags fl

/-- Element-wise body (R155): `f` computes an element from the codes of its sources and a draw. -/
def elemBody (o : V3) (three : Bool) (ws : List Nat) (mode : Nat) (f : Mach → List Nat → Nat → RRes) (m : Mach) (v : VIn) : Res :=
  let push := !three && v3Pushes o
  let elem := fun (r l : Nat) (s : BitVec 32) =>
    let (d, s) := drawFor mode s
    (f m (lmapIdx (fun i w => (v.elem i r l).toNat % 2 ^ w) ws) d, s)
  let (res, s) := elemRows (v.writes push) elem v.n 0 m.k.sr.lfsr
  let out := rowsLanes res
  let m := if three then m.putRows o.dst.toNat 0 v.mask out else m.putV o v v.valid out
  m.vEnd s (res.flatMap fun x => x.map (·.ev)) (rowsFlags res)

/-- A result without flag or event. -/
def plain (c : Nat) : RRes := ⟨c, 0, .none⟩

/-- A result with flags. -/
def flagged (r : Nat × BitVec 5) : RRes := ⟨r.1, r.2, .none⟩

/-- The rounding mode of the stream (R34). -/
def Mach.rmode (m : Mach) : Nat := bits m.t.fpmode 0 3

/-- A rounding-mode field (R34): 7 reads the stream's own. -/
def Mach.rmField (m : Mach) (rm : Nat) : Nat := if rm = 7 then m.rmode else rm

/-- sr.fpmode.sat5 (R35). -/
def Mach.sat5 (m : Mach) : Bool := bitAt m.t.fpmode 3

/-- Sign-extended value of a w-bit pattern. -/
def sPat (w c : Nat) : Int := if 2 ^ (w - 1) ≤ c then Int.ofNat c - 2 ^ w else Int.ofNat c

/-- A w-bit pattern of an integer. -/
def toPat (w : Nat) (i : Int) : Nat := (i % 2 ^ w).toNat

/-- Meaning of an arithmetic word of class F or I (R159). -/
def runArith (i : Instr) (h : Hdr) (o : V3) (n : Nat) (ff : Nat → List FVal → FVal × BitVec 5) (fi : List Int → Int) (s : State) : Out :=
  let ty := o.ty.toNat
  let fs := if n = 3 then vf3 o ty else vf2 o ty
  let w := tyWidth ty
  runV i h o fs (n == 3) (rowShaped fs o (n == 3))
    (elemBody o (n == 3) (List.replicate n w) 0 fun m cs _ =>
      if ty ≤ 2 then flagged (arithRound (tyFmt ty) m.rmode (ff (arithMode m.rmode) (cs.map (tyFmt ty).decode)))
      else plain (toPat w (fi (cs.map fun c => Int.ofNat c)))) s

/-- Element i of a list of values. -/
def fArg (l : List FVal) (i : Nat) : FVal := l.getD i (.nan false)
@[inherit_doc fArg] def iArg (l : List Int) (i : Nat) : Int := l.getD i 0

/-- VADD (R159). -/
def execVadd (h : Hdr) (o : V3) (s : State) : Out :=
  runArith (.vadd h o) h o 2 (fun md l => fAdd md (fArg l 0) (fArg l 1)) (fun l => iArg l 0 + iArg l 1) s
/-- VSUB (R159). -/
def execVsub (h : Hdr) (o : V3) (s : State) : Out :=
  runArith (.vsub h o) h o 2 (fun md l => fAdd md (fArg l 0) (fArg l 1).neg) (fun l => iArg l 0 - iArg l 1) s
/-- VMUL (R159). -/
def execVmul (h : Hdr) (o : V3) (s : State) : Out :=
  runArith (.vmul h o) h o 2 (fun _ l => fMul (fArg l 0) (fArg l 1)) (fun l => iArg l 0 * iArg l 1) s
/-- VFMA (R159). -/
def execVfma (h : Hdr) (o : V3) (s : State) : Out :=
  runArith (.vfma h o) h o 3 (fun md l => fFma md (fArg l 0) (fArg l 1) (fArg l 2)) (fun l => iArg l 0 * iArg l 1 + iArg l 2) s
/-- VFMS (R159). -/
def execVfms (h : Hdr) (o : V3) (s : State) : Out :=
  runArith (.vfms h o) h o 3 (fun md l => fFma md (fArg l 0) (fArg l 1) (fArg l 2).neg) (fun l => iArg l 0 * iArg l 1 - iArg l 2) s

/-- Order of the codes of a format with sign and magnitude, −0 below +0 (R160). -/
def codeKey (w c : Nat) : Int := if 2 ^ (w - 1) ≤ c then -(Int.ofNat (c - 2 ^ (w - 1))) - 1 else Int.ofNat c

/-- The smaller or the larger of two floating-point codes (R160). -/
def fPick (larger : Bool) (f : Fmt) (a b : Nat) : Nat × BitVec 5 :=
  let x := f.decode a
  let y := f.decode b
  if x.isNan || y.isNan then (nanOrMax f, fIf (x.isSnan || y.isSnan) fInv)
  else (if decide (codeKey f.width a ≤ codeKey f.width b) != larger then a else b, 0)

/-- The smaller or the larger of two integer codes, signed for signed types (R159). -/
def iPick (larger : Bool) (ty a b : Nat) : Nat :=
  let w := tyWidth ty
  let le := if tyUnsigned ty then decide (a ≤ b) else decide (sPat w a ≤ sPat w b)
  if le != larger then a else b

/-- The smaller or the larger of two codes of an arithmetic type. -/
def pick (larger : Bool) (ty a b : Nat) : Nat × BitVec 5 :=
  if ty ≤ 2 then fPick larger (tyFmt ty) a b else (iPick larger ty a b, 0)

/-- Meaning of `VMIN` and `VMAX`. -/
def runPick (i : Instr) (h : Hdr) (o : V3) (larger : Bool) (s : State) : Out :=
  let ty := o.ty.toNat
  let fs := vf2 o ty
  runV i h o fs false (rowShaped fs o false)
    (elemBody o false [tyWidth ty, tyWidth ty] 0 fun _ cs _ => flagged (pick larger ty (cs.getD 0 0) (cs.getD 1 0))) s

/-- VMIN (R159, R160). -/
def execVmin (h : Hdr) (o : V3) (s : State) : Out := runPick (.vmin h o) h o false s
/-- VMAX (R159, R160). -/
def execVmax (h : Hdr) (o : V3) (s : State) : Out := runPick (.vmax h o) h o true s

/-- Meaning of a word that computes codes from codes, without flags; `n` sources of type TY. -/
def runCode (i : Instr) (h : Hdr) (o : V3) (n : Nat) (f : Nat → List Nat → Nat) (s : State) : Out :=
  let ty := o.ty.toNat
  let fs := if n = 1 then vf1 o ty else vf2 o ty
  runV i h o fs false (rowShaped fs o false)
    (elemBody o false (List.replicate n (tyWidth ty)) 0 fun _ cs _ => plain (f (tyWidth ty) cs)) s

/-- Argument i of a list of codes. -/
def cArg (l : List Nat) (i : Nat) : Nat := l.getD i 0

/-- VABS (R159). -/
def execVabs (h : Hdr) (o : V3) (s : State) : Out :=
  let ty := o.ty.toNat
  runCode (.vabs h o) h o 1 (fun w l =>
    if ty ≤ 2 then cArg l 0 % 2 ^ (w - 1) else if tyUnsigned ty then cArg l 0 else toPat w (sPat w (cArg l 0)).natAbs) s
/-- VNEG (R159). -/
def execVneg (h : Hdr) (o : V3) (s : State) : Out :=
  let ty := o.ty.toNat
  runCode (.vneg h o) h o 1 (fun w l => if ty ≤ 2 then cArg l 0 ^^^ 2 ^ (w - 1) else toPat w (-(Int.ofNat (cArg l 0)))) s
/-- VAND (R161). -/
def execVand (h : Hdr) (o : V3) (s : State) : Out := runCode (.vand h o) h o 2 (fun _ l => cArg l 0 &&& cArg l 1) s
/-- VOR (R161). -/
def execVor (h : Hdr) (o : V3) (s : State) : Out := runCode (.vor h o) h o 2 (fun _ l => cArg l 0 ||| cArg l 1) s
/-- VXOR (R161). -/
def execVxor (h : Hdr) (o : V3) (s : State) : Out := runCode (.vxor h o) h o 2 (fun _ l => cArg l 0 ^^^ cArg l 1) s
/-- VSHL (R161). -/
def execVshl (h : Hdr) (o : V3) (s : State) : Out := runCode (.vshl h o) h o 2 (fun w l => (cArg l 0 <<< (cArg l 1 % w)) % 2 ^ w) s
/-- VSHR (R161). -/
def execVshr (h : Hdr) (o : V3) (s : State) : Out := runCode (.vshr h o) h o 2 (fun w l => cArg l 0 >>> (cArg l 1 % w)) s
/-- VSRA (R161). -/
def execVsra (h : Hdr) (o : V3) (s : State) : Out :=
  runCode (.vsra h o) h o 2 (fun w l => toPat w (sPat w (cArg l 0) / 2 ^ (cArg l 1 % w))) s

/-- A compare of `VCMP` (R162): the bit, and its flags. -/
def vCompare (ty cnd a b : Nat) : Bool × BitVec 5 :=
  let test := fun (x y : Int) => match cnd with
    | 0 => decide (x = y) | 1 => decide (x ≠ y) | 2 => decide (x < y) | _ => decide (x ≤ y)
  let w := tyWidth ty
  if ty ≤ 2 then
    let x := (tyFmt ty).decode a
    let y := (tyFmt ty).decode b
    let num := fun (c : Nat) => if 2 ^ (w - 1) ≤ c then -(Int.ofNat (c - 2 ^ (w - 1))) else Int.ofNat c
    (if x.isNan || y.isNan then cnd == 1 else test (num a) (num b), fIf (x.isSnan || y.isSnan) fInv)
  else if ty ≤ 8 && !tyUnsigned ty then (test (sPat w a) (sPat w b), 0)
  else (test (Int.ofNat a) (Int.ofNat b), 0)

/-- The flags of the elements that are written. -/
def maskFlags (v : VIn) (f : Nat → Nat → BitVec 5) : BitVec 5 :=
  (upTo v.n).foldl (fun a r => (upTo 64).foldl (fun a l => if (v.mask r).getLsbD l then a ||| f r l else a) a) 0

/-- VCMP (R162). -/
def execVcmp (h : Hdr) (o : V3) (s : State) : Out :=
  let ty := o.ty.toNat
  let w := tyWidth ty
  let fs := vf2 o ty
  runV (.vcmp h o) h o fs false (rowShaped fs o false)
    (fun m v =>
      let c := fun (r l : Nat) =>
        vCompare ty (o.dst.toNat / 8) ((v.elem 0 r l).toNat % 2 ^ w) ((v.elem 1 r l).toNat % 2 ^ w)
      (m.putMask (o.dst.toNat % 8) v fun r l => (c r l).1).afterFlags (maskFlags v fun r l => (c r l).2)) s

/-- Run a word on whole masks, without vector operands. -/
def runMasks (i : Instr) (h : Hdr) (body : Mach → VIn → Res) (s : State) : Out :=
  issueWord i h Ports.none (fun m _ => body m ⟨[], 16, effMask m.k.vec h, BitVec.allOnes 64⟩) s

/-- KOP (R163). -/
def execKop (h : Hdr) (o : V3) (s : State) : Out :=
  runMasks (.kop h o) h (fun m v =>
    let tt := o.s2.toNat / 16
    let bit := fun (r l : Nat) =>
      tt.testBit (2 * b2n ((m.k.vec.mask (o.s1.toNat % 8) r).getLsbD l) + b2n ((m.k.vec.mask (o.s2.toNat % 8) r).getLsbD l))
    .done (m.putMask (o.dst.toNat % 8) v bit)) s

/-- KPOP (R164). -/
def execKpop (h : Hdr) (o : V3) (s : State) : Out :=
  runMasks (.kpop h o) h (fun m v =>
    let n := ((upTo 16).map fun r => popCount 64 (m.k.vec.mask (o.s1.toNat % 8) r &&& v.mask r).toNat).sum
    .done (if m.active h then m.str fun t => t.setReg o.dst.toNat (W n) else m)) s

/-- KMOV (R165). -/
def execKmov (h : Hdr) (o : V3) (s : State) : Out :=
  let ty := o.ty.toNat
  let fs := vf1 o ty
  runV (.kmov h o) h o fs false (rowShaped fs o false)
    (fun m v => .done (m.putMask o.dst.toNat v fun r l => (v.elem 0 r l).toNat % 2 ^ tyWidth ty != 0)) s

/-- VSEL (R166): every element of the shape is written whatever the mask, but under G = 0 with GN = 1, where the word makes
its traffic and nothing else (R60, log 54). -/
def execVsel (h : Hdr) (o : V3) (s : State) : Out :=
  let fs := vf2 o o.ty.toNat
  runV (.vsel h o) h o fs false (rowShaped fs o false)
    (fun m v =>
      let rows := (upTo v.n).map fun r =>
        (upTo 64).map fun l => if (v.mask r).getLsbD l then v.elem 0 r l else v.elem 1 r l
      .done (if h.g = 0 && h.gn then m else m.putRows o.dst.toNat 0 (fun _ => BitVec.allOnes 64) rows)) s

/-- Meaning of a special function (R167). -/
def runSpecial (i : Instr) (h : Hdr) (o : V3) (fn : Nat) (s : State) : Out :=
  let fs := vf1 o 0
  runV i h o fs false (rowShaped fs o false)
    (elemBody o false [32] 0 fun m cs _ => flagged (specialF32 fn m.rmode (cArg cs 0))) s

/-- VRCP (R167). -/
def execVrcp (h : Hdr) (o : V3) (s : State) : Out := runSpecial (.vrcp h o) h o 0 s
/-- VSQRT (R167). -/
def execVsqrt (h : Hdr) (o : V3) (s : State) : Out := runSpecial (.vsqrt h o) h o 1 s
/-- VRSQ (R167). -/
def execVrsq (h : Hdr) (o : V3) (s : State) : Out := runSpecial (.vrsq h o) h o 2 s
/-- VEXP2 (R167). -/
def execVexp2 (h : Hdr) (o : V3) (s : State) : Out := runSpecial (.vexp2 h o) h o 3 s
/-- VLOG2 (R167). -/
def execVlog2 (h : Hdr) (o : V3) (s : State) : Out := runSpecial (.vlog2 h o) h o 4 s

/-- Convert one element (R168): a conversion to the same F or Q type changes NaNs alone. -/
def cvtElem (src dst mode : Nat) (sat5 : Bool) (c d : Nat) : RRes :=
  let x := (tyFmt src).decode c
  if src = dst && (src ≤ 2 || 9 ≤ src) && !x.isNan then plain c else convert (tyFmt dst) mode sat5 d x false

/-- VCVT (R168). -/
def execVcvt (h : Hdr) (o : V3) (s : State) : Out :=
  let src := parSel o.s2
  let fs := vf1 o src
  runV (.vcvt h o) h o fs false (rowShaped fs o false)
    (fun m v =>
      let mode := m.rmField (parRm o.s2).toNat
      elemBody o false [tyWidth src] mode (fun m cs d => cvtElem src o.ty.toNat mode m.sat5 (cArg cs 0) d) m v) s

/-- Element format of `VQMX` (R169). -/
def qmxFmt (sel : Nat) : Fmt :=
  match sel with
  | 0 => .e4m3 | 1 => .e5m2 | 2 => .e3m2 | 3 => .e2m3 | _ => .e2m1

/-- One block of `VQMX` (R169): source values, active lanes; the lanes, flags, events and the register after it. -/
def qmxBlock (f : Fmt) (mode : Nat) (xs : List FVal) (acts : List Bool) (lfsr : BitVec 32) : Row × BitVec 5 × List Ev × BitVec 32 :=
  if !acts.any id then (List.replicate 32 0, 0, [], lfsr)
  else
    let b := blockScale f mode ((xs.zip acts).map fun p => (if p.2 then p.1 else .fin false 0 0, false)) acts lfsr
    (b.codes.map fun c => BitVec.ofNat 32 (c + 256 * b.scale.toNat), b.fl,
     ((b.evs.zip acts).filter (·.2)).map (·.1), b.lfsr)

/-- A row of `VQMX`. -/
def qmxRow (f : Fmt) (mode : Nat) (xs : List FVal) (acts : List Bool) (lfsr : BitVec 32) : Row × BitVec 5 × List Ev × BitVec 32 :=
  let (a, f1, e1, s) := qmxBlock f mode (xs.take 32) (acts.take 32) lfsr
  let (b, f2, e2, s) := qmxBlock f mode (xs.drop 32) (acts.drop 32) s
  (a ++ b, f1 ||| f2, e1 ++ e2, s)

/-- Lanes of a mask whose feeding lanes, `feeds l`, are all valid (R155). -/
def fedMask (valid : BitVec 64) (feeds : Nat → Nat → Bool) : BitVec 64 :=
  moveMask fun l => (upTo 64).all fun j => !feeds l j || valid.getLsbD j

/-- The rows of `VQMX` one after another: lanes, flags, events, the register of draws (R156, R169); a lane that is not written
takes no part. -/
def Mach.qmxRows (m : Mach) (o : V3) (v : VIn) : List Row × BitVec 5 × List Ev × BitVec 32 :=
  (upTo v.n).foldl (fun (a : List Row × BitVec 5 × List Ev × BitVec 32) r =>
    let acts := (upTo 64).map (v.writes (v3Pushes o) r)
    let xs := (upTo 64).map fun l => (tyFmt o.ty.toNat).decode ((v.elem 0 r l).toNat % 2 ^ tyWidth o.ty.toNat)
    let (x, f, e, s) := qmxRow (qmxFmt (parSel o.s2)) (m.rmField (parRm o.s2).toNat) xs acts a.2.2.2
    (a.1 ++ [x], a.2.1 ||| f, a.2.2.1 ++ e, s)) ([], 0, [], m.k.sr.lfsr)

/-- VQMX (R169). -/
def execVqmx (h : Hdr) (o : V3) (s : State) : Out :=
  let fs := vf1 o o.ty.toNat
  runV (.vqmx h o) h o fs false (rowShaped fs o false)
    (fun m v =>
      let fed := fedMask v.valid fun l j => l / 32 == j / 32 && (v.mask 0).getLsbD j
      let out := m.qmxRows o { v with valid := fed }
      (m.putV o v fed out.1).vEnd out.2.2.2 out.2.2.1 out.2.1) s

/-- VTBL (R171). -/
def execVtbl (h : Hdr) (o : V3) (s : State) : Out :=
  let fs := vf1 o o.ty.toNat
  runV (.vtbl h o) h o fs false (rowShaped fs o false)
    (elemBody o false [8] 0 fun m cs _ =>
      let e := (tget 0 m.k.vec.tbl (cArg cs 0)).toNat
      plain (if o.ty = 0 then e * 2 ^ 16 else e)) s

/-- Write the quarter of a TBL8 table from a row (R172, R238). -/
def tblWrite (t : Tab (BitVec 16)) (q : Nat) (row : Row) (mask : BitVec 64) : Tab (BitVec 16) :=
  row.zipIdx.foldl (fun t p => if mask.getLsbD p.2 then tset 0 t (64 * q + p.2) (p.1.setWidth 16) else t) t

/-- VTBLW (R172). -/
def execVtblw (h : Hdr) (o : V3) (s : State) : Out :=
  runV (.vtblw h o) h o (vf1 o 1) false true
    (fun m v =>
      let row := (upTo 64).map fun l => v.elem 0 0 l
      .done (m.ctx fun k => { k with vec := { k.vec with tbl := tblWrite k.vec.tbl (o.dst.toNat % 4) row (v.mask 0) } })) s

/-- Meaning of a move of lanes (R173 to R176): out(r, l) is the source lane at `from_ r l`; `feeds l` is the lane of a
pushed row that feeds lane l. -/
def runMove (i : Instr) (h : Hdr) (o : V3) (block : Bool) (n : Mach → Int) (from_ : Int → Nat → Nat → Nat × Nat) (s : State) : Out :=
  let fs := vf1 o o.ty.toNat
  runV i h o fs false (!block && rowShaped fs o false)
    (fun m v =>
      let at_ := from_ (n m)
      let rows := (upTo v.n).map fun r => (upTo 64).map fun l => v.elem 0 (at_ r l).1 (at_ r l).2
      .done (m.putV o v (moveMask fun l => v.valid.getLsbD (at_ 0 l).2) rows)) s

/-- A non-negative remainder. -/
def imod (n : Int) (k : Nat) : Nat := (n % Int.ofNat k).toNat

/-- VROTR (R173). -/
def execVrotr (h : Hdr) (o : V3) (s : State) : Out :=
  runMove (.vrotr h o) h o false (fun m => m.index o.s2) (fun n r l => (r, imod (Int.ofNat l + n) 64)) s
/-- VROTC (R173). -/
def execVrotc (h : Hdr) (o : V3) (s : State) : Out :=
  runMove (.vrotc h o) h o true (fun m => m.index o.s2) (fun n r l => (imod (Int.ofNat r + n) 16, l)) s
/-- VBCR (R173). -/
def execVbcr (h : Hdr) (o : V3) (s : State) : Out :=
  runMove (.vbcr h o) h o false (fun m => m.index o.s2) (fun n r _ => (r, imod n 64)) s
/-- VBCC (R173). -/
def execVbcc (h : Hdr) (o : V3) (s : State) : Out :=
  runMove (.vbcc h o) h o true (fun m => m.index o.s2) (fun n _ l => (imod n 16, l)) s
/-- VTRB (R174). -/
def execVtrb (h : Hdr) (o : V3) (s : State) : Out :=
  runMove (.vtrb h o) h o true (fun _ => 0) (fun _ r l => (l % 16, l / 16 * 16 + r)) s
/-- VMOV (R175). -/
def execVmov (h : Hdr) (o : V3) (s : State) : Out :=
  runMove (.vmov h o) h o false (fun _ => 0) (fun _ r l => (r, l)) s

/-- VSPL (R178). -/
def execVspl (h : Hdr) (o : V3) (s : State) : Out :=
  let ty := o.ty.toNat
  let w := tyWidth ty
  runV (.vspl h o) h o (vf1 o ty) false false
    (fun m v =>
      let e := imod (m.index o.s2) 1024
      let c := (v.elem 0 (e / 64) (e % 64)).toNat % 2 ^ w
      let x := if ty = 3 || ty = 5 || ty = 7 then WI (sPat w c) else W c
      .done (if m.active h then m.str fun t => t.setReg o.dst.toNat x else m)) s

/-- VIOTA (R176). -/
def execViota (h : Hdr) (o : V3) (s : State) : Out :=
  runV (.viota h o) h o [] false (v3Pushes o)
    (fun m v =>
      let b := m.index o.s1
      let rows := (upTo v.n).map fun r => (upTo 64).map fun l =>
        BitVec.ofNat 32 (toPat (tyWidth o.ty.toNat) (b + Int.ofNat (64 * r + l)))
      .done (m.putV o v v.valid rows)) s

/-- VEXT (R177). -/
def execVext (h : Hdr) (o : V3) (s : State) : Out :=
  runV (.vext h o) h o (vf1 o o.ty.toNat) false false
    (fun m v =>
      let rho := imod (m.index o.s2) 16
      .done (m.putV o v v.valid [(upTo 64).map fun l => v.elem 0 rho l])) s

/-- VINS (R177). -/
def execVins (h : Hdr) (o : V3) (s : State) : Out :=
  runV (.vins h o) h o (vf1 o o.ty.toNat) false true
    (fun m v =>
      let rho := imod (m.index o.s2) 16
      .done (m.putRows o.dst.toNat rho v.mask [(upTo 64).map fun l => v.elem 0 0 l])) s

/-- The identity of a reduction (R179): what an inactive element enters as. -/
def redIdentity (sel ty : Nat) : Nat :=
  match sel with
  | 0 => if ty = 0 then 0x80000000 else 0
  | 1 => if ty ≤ 2 then Fmt.infCode (tyFmt ty) true else Fmt.maxCode (tyFmt ty) true
  | _ => if ty ≤ 2 then Fmt.infCode (tyFmt ty) false else Fmt.maxCode (tyFmt ty) false

/-- A NaN sum is delivered as the canonical NaN (R179); a signalling NaN that is the whole sum raises invalid (R25). -/
def canonF32 (r : Nat × BitVec 5) : Nat × BitVec 5 :=
  let x := Fmt.decode .f32 r.1
  (if x.isNan then 0x7FC00000 else r.1, r.2 ||| fIf x.isSnan fInv)

/-- Reduce 2^n elements (R179, R49). -/
def reduceAll (sel ty n : Nat) (l : List Nat) : Nat × BitVec 5 :=
  match sel with
  | 0 => if ty = 0 then canonF32 (treeSum n l) else (l.sum % 2 ^ tyWidth ty, 0)
  | _ => l.foldl (fun a c => let r := pick (sel == 1) ty a.1 c; (r.1, a.2 ||| r.2)) (redIdentity sel ty, 0)

/-- Reduce lanes 0 to i of a row (R179, R50). -/
def reduceScan (sel ty : Nat) (l : List Nat) (i : Nat) : Nat × BitVec 5 :=
  if sel = 0 && ty = 0 then canonF32 (scanLane 7 (i + 1) l none) else reduceAll sel ty 6 (l.take (i + 1))

/-- An element as a reduction takes it in. -/
def VIn.redElem (v : VIn) (sel ty r l : Nat) : Nat :=
  if (v.mask r).getLsbD l then (v.elem 0 r l).toNat % 2 ^ tyWidth ty else redIdentity sel ty

/-- The row sums, minima or maxima of `VREDR` (R179). -/
def VIn.redRows (v : VIn) (sel ty : Nat) : List (Nat × BitVec 5) :=
  (upTo v.n).map fun r => reduceAll sel ty 6 ((upTo 64).map (v.redElem sel ty r))

/-- The column sums, minima or maxima of `VREDC` (R179). -/
def VIn.redCols (v : VIn) (sel ty : Nat) : List (Nat × BitVec 5) :=
  (upTo 64).map fun l => reduceAll sel ty 4 ((upTo 16).map fun r => v.redElem sel ty r l)

/-- The scans of `VSCANR` (R179): lane i of row r reduces lanes 0 to i. -/
def VIn.scanRows (v : VIn) (sel ty : Nat) : List (List (Nat × BitVec 5)) :=
  (upTo v.n).map fun r =>
    let l := (upTo 64).map (v.redElem sel ty r)
    (upTo 64).map (reduceScan sel ty l)

/-- The flags of reductions: those of rows with an element that is written (R155). -/
def VIn.redRowsFlags (v : VIn) (push : Bool) (res : List (Nat × BitVec 5)) : BitVec 5 :=
  (lmapIdx (fun r x => if (upTo 64).any (v.writes push r) then x.2 else 0) res).foldl (fun a b => a ||| b) 0

@[inherit_doc VIn.redRowsFlags] def VIn.redColsFlags (v : VIn) (res : List (Nat × BitVec 5)) : BitVec 5 :=
  let act := fun (l : Nat) => (upTo 16).any fun r => (v.mask r).getLsbD l
  (lmapIdx (fun l x => if act l then x.2 else 0) res).foldl (fun a b => a ||| b) 0

@[inherit_doc VIn.redRowsFlags] def VIn.scanFlags (v : VIn) (push : Bool) (res : List (List (Nat × BitVec 5))) : BitVec 5 :=
  (lmapIdx (fun r x => (lmapIdx (fun l y => if v.writes push r l then y.2 else 0) x).foldl (fun a b => a ||| b) 0) res).foldl
    (fun a b => a ||| b) 0

/-- VREDR (R179). -/
def execVredr (h : Hdr) (o : V3) (s : State) : Out :=
  let fs := vf1 o o.ty.toNat
  runV (.vredr h o) h o fs false (rowShaped fs o false)
    (fun m v =>
      let res := v.redRows (parSel o.s2) o.ty.toNat
      let fed := fedMask v.valid fun _ j => (v.mask 0).getLsbD j
      (m.putV o v fed (res.map fun x => List.replicate 64 (BitVec.ofNat 32 x.1))).afterFlags
        (VIn.redRowsFlags { v with valid := fed } (v3Pushes o) res)) s

/-- VREDC (R179). -/
def execVredc (h : Hdr) (o : V3) (s : State) : Out :=
  runV (.vredc h o) h o (vf1 o o.ty.toNat) false false
    (fun m v =>
      let res := v.redCols (parSel o.s2) o.ty.toNat
      (m.putV o v v.valid (List.replicate 16 (res.map fun x => BitVec.ofNat 32 x.1))).afterFlags (v.redColsFlags res)) s

/-- VSCANR (R179). -/
def execVscanr (h : Hdr) (o : V3) (s : State) : Out :=
  let fs := vf1 o o.ty.toNat
  runV (.vscanr h o) h o fs false (rowShaped fs o false)
    (fun m v =>
      let res := v.scanRows (parSel o.s2) o.ty.toNat
      let fed := fedMask v.valid fun l j => decide (j ≤ l) && (v.mask 0).getLsbD j
      (m.putV o v fed (res.map fun x => x.map fun y => BitVec.ofNat 32 y.1)).afterFlags
        (VIn.scanFlags { v with valid := fed } (v3Pushes o) res)) s

end Sys2Proof.Machine
end

