-- ==== Sys2Proof/Machine/Drain.lean ====
section
/-! DEFINITION. Record writes through heads, their performance (R189), and the words of the D cluster: TREC, TUPD, TFLSH,
DSTAT (spec/08). -/
namespace Sys2Proof.Machine

/-- What asking to write a record comes to. -/
inductive CanWrite where
  | ok (l : List (Piece × PageReg)) (m : Mach)
  | trap (f : Mach → Mach) (cause : BitVec 8) (tval : Word)
  | wait (w : Why)
  /-- the head has to translate its pages again -/
  | again (w : Why) (f : Mach → Mach)

/-- Let go of a head's translations. -/
def dropRegs (n : Nat) (m : Mach) : Mach := m.ctx fun k => k.setHead n { k.head n with cur := none, nxt := none }

/-- The first page that the keys deny to a record write (R406): page-list entries are read, record bytes written. -/
def writeDenied (pkp : Word) (l : List (Piece × PageReg)) : Option Nat :=
  let acc := l.flatMap fun q => [(q.2.listKey, false), ((lfKey q.2.leaf, q.2.base + q.1.off), true)]
  (acc.find? fun a => bitAt pkp (2 * a.1.1) || (a.2 && bitAt pkp (2 * a.1.1 + 1))).map (·.1.2)

/-- The pages of record r are at hand for a write through head n (R213, R406, R418, R421). -/
def Mach.canWrite (m : Mach) (n : Nat) (d : Desc) (r : Nat) : CanWrite :=
  let h := m.k.head n
  match h.regsOf d r with
  | none =>
    match m.notHeld n d r with
    | .trap f c v => .trap f c v
    | .wait w => .wait w
    | _ => .wait .headRecord
  | some l =>
    match writeDenied m.k.sr.pkp l with
    | some va => .trap id 0x17 (W va)
    | none =>
      if l.any fun q => lfMg q.2.leaf then .again .migrating (dropRegs n)
      else
        match m.s.headAd true l with
        | (false, _) => .again .headRecord (dropRegs n)
        | (true, s) => .ok l ({ m with s := s }.ctx fun k => k.setHead n (h.seen true l))

/-- Issue the write of record r through head n (R189), and move the head on. -/
def Mach.issueWrite (m : Mach) (n : Nat) (d : Desc) (r : Nat) (l : List (Piece × PageReg)) (bytes : List Byte) : Mach :=
  let h := m.k.head n
  let w : HeadWrite :=
    { id := m.k.nextId, hd := n, handle := h.handle, idx := r, dstream := m.st == .D,
      pieces := l.map fun q => ⟨q.2.base + q.1.off, q.2.pa q.1.off, lfTag q.2.leaf, (bytes.drop q.1.pos).take q.1.n⟩ }
  let m := m.ctx fun k => { k with hwrites := k.hwrites ++ [w], nextId := k.nextId + 1 }
  let m := if m.st == .D then m.ctx fun k => { k with wr := satAdd k.wr 1 } else m
  m.ctx fun k => k.setHead n (if h.mode == .recorder then { h with v := h.v + 1 } else h.stepped d)

/-- Append a record through recorder head n (R200): recorded and v advance by one. -/
inductive Append where
  | ok (m : Mach)
  | trap (f : Mach → Mach) (cause : BitVec 8) (tval : Word)
  | wait (w : Why)
  | again (w : Why) (f : Mach → Mach)

@[inherit_doc Append] def Mach.append (m : Mach) (n : Nat) (d : Desc) (bytes : List Byte) : Append :=
  let h := m.k.head n
  match m.canWrite n d d.recorded with
  | .trap f c v => .trap f c v
  | .wait w => .wait w
  | .again w f => .again w f
  | .ok l m =>
    match m.s.tapeEntry m.core m.k h.handle true with
    | (.ok _ t, s) => .ok ({ m with s := s.descPut t 2 (W (d.recorded + 1)) }.issueWrite n d d.recorded l bytes)
    | (.wait, _) => .wait .migrating
    | (.bad, _) => .trap id 0x25 (tapeTval h.handle)

/-- The head checks of an appending word (R200): 0x20, 0x29. -/
def Mach.recorderBad (m : Mach) (n : Nat) : Option (BitVec 8) :=
  let h := m.k.head n
  if !h.bound || h.owner != m.st then some 0x20 else if h.mode != .recorder then some 0x29 else none

/-- The scale of a 32-lane block of a queue or register row (R200, R226): bits [15:8] of its lowest valid lane. -/
def laneScale (lanes : Row) (mask : BitVec 64) (blk : Nat) : Byte :=
  match (upTo 32).find? fun i => mask.getLsbD (32 * blk + i) with
  | some i => (lanes.getD (32 * blk + i) 0).extractLsb' 8 8
  | none => 0x7F

/-- The codes of a row entry: an invalid lane gives 0 (R200). -/
def rowCodes (w : Nat) (e : RowEnt) : List Nat :=
  lmapIdx (fun l x => if e.mask.getLsbD l then x.toNat % 2 ^ w else 0) e.lanes

/-- A dense row image of codes with its scales (R186). -/
def rowBytes (enc : Nat) (codes : List Nat) (scales : List Byte) : List Byte :=
  leBytes (8 * encWidth enc) (packCodes (encWidth enc) codes) ++ scales

/-- The row image of a row entry (R200). -/
def entryBytes (d : Desc) (e : RowEnt) : List Byte :=
  rowBytes d.enc (rowCodes (encWidth d.enc) e) (if d.scl = 1 then [laneScale e.lanes e.mask 0, laneScale e.lanes e.mask 1] else [])

/-- Bytes of a plane of 4096 codes (R187). -/
def planeBytes (codes : List Nat) (p : Nat) : List Byte :=
  (chunks 8 codes 512).map fun c => BitVec.ofNat 8 ((lmapIdx (fun i x => x / 2 ^ (7 - p) % 2 * 2 ^ i) c).sum)

/-- Entries that a record takes (R200). -/
def Desc.entries (d : Desc) (raw : Bool) : Nat :=
  if raw then (d.recBytes + 255) / 256 else if d.shape ≤ 1 then 1 else 64

/-- Bytes of a lane row, whole (R200). -/
def laneBytes (lanes : Row) : List Byte := lanes.flatMap fun x => leBytes 4 x.toNat

/-- Build a record from its entries (R200). -/
def Desc.build (d : Desc) (raw : Bool) (es : List RowEnt) : List Byte :=
  if raw then (es.flatMap fun e => laneBytes e.lanes).take d.recBytes
  else
    match d.shape with
    | 0 => leBytes d.recBytes ((rowCodes (encWidth d.enc) (es.headD ⟨zeroRow, 0⟩)).headD 0)
    | 1 => entryBytes d (es.headD ⟨zeroRow, 0⟩)
    | 2 => es.flatMap (entryBytes d)
    | _ => (upTo (d.pl + 1)).flatMap (planeBytes (es.flatMap (rowCodes 8)))

/-- Pop entries of row queue q until `n` are held (R200). -/
def Ctx.popHeld (q n : Nat) : Nat → Ctx → Ctx
  | 0, k => k
  | fuel + 1, k =>
    if n ≤ k.dpopped.length then k
    else
      match popSlot (k.rq? q) with
      | none => k
      | some (e, l) => Ctx.popHeld q n fuel { k.setRq q l with dpopped := k.dpopped ++ [e] }

/-- A multi-entry pop of a D word (R200, R215): `first` is tried before the first pop, `last` once all `n` entries are
held; a word that waits in between keeps what it has popped. -/
def popAll (q n : Nat) (resumed : Bool) (first : Mach → Option Res) (last : Mach → List RowEnt → Res) (m : Mach) : Res :=
  let m := if resumed then m else m.ctx fun k => { k with dpopped := [], dlfsr := none }
  let early := if m.k.dpopped.isEmpty then first m else none
  match early with
  | some r => r
  | none =>
    if m.k.dpopped.isEmpty && present (m.k.rq? q) = 0 then .wait .queue
    else
      let m := m.ctx (Ctx.popHeld q n n)
      let m := m.str fun t => { t with prog := some ⟨m.k.dpopped.length, n, none⟩ }
      if m.k.dpopped.length < n then .hold m .queue
      else
        match last (m.ctx fun k => { k with dpopped := [] }) (m.k.dpopped.take n) with
        | .trap c v => if n = 1 then .trap c v else .trapIn m c v
        | .trapWith f c v => if n = 1 then .trapWith f c v else .trapIn (f m) c v
        | .wait w => if n = 1 then .wait w else .hold m w
        | .park w f => if n = 1 then .park w f else .hold (f m) w
        | r => r

/-- Ports of a word that goes on from entries popped. -/
def dPorts : Ports := { Ports.none with resumes := fun p => decide (1 ≤ p.k) }

/-- Body of `TREC` (R200). -/
def trecBody (o : H) (m : Mach) (a : Opnds) : Res :=
  let n := o.hd.toNat
  let h := m.k.head n
  let d := m.tapeOf h.handle
  let raw := o.fl.getLsbD 0
  match m.recorderBad n with
  | some c => .trap c (m.headTv n)
  | none =>
    if d.sp ≠ 0 && !raw then .trap 0x22 (m.headTv n)
    else
      let early := fun (m : Mach) =>
        if !a.act then none
        else if d.len ≤ d.recorded then some (Res.trap 0x28 (m.headTv n))
        else if 64 ≤ (m.k.hwrites.filter (·.dstream)).length then some (Res.wait .earlier)
        else
          match m.canWrite n d d.recorded with
          | .ok _ _ => none
          | .trap f c v => some (Res.trapWith f c v)
          | .wait w => some (Res.wait w)
          | .again w f => some (Res.park w f)
      popAll (qNum o.cnt) (d.entries raw) m.t.prog.isSome early (fun m es =>
        if !a.act then .done m
        else
          match m.append n d (d.build raw es) with
          | .ok m => .done m
          | .trap f c v => .trapWith f c v
          | .wait w => .wait w
          | .again w f => .park w f) m

/-- TREC (R200). -/
def execTrec (h : Hdr) (o : H) (s : State) : Out := issueWord (.trec h o) h dPorts (trecBody o) s

/-- Fields of `TUPD` (R215). -/
def uRaw (o : H) : Bool := o.fl.getLsbD 0
@[inherit_doc uRaw] def uSrc (o : H) : Nat := o.fl.toNat / 4 % 16
@[inherit_doc uRaw] def uReg (o : H) : Nat := o.fl.toNat / 64 % 16
@[inherit_doc uRaw] def uOp (o : H) : Nat := o.fl.toNat / 1024 % 4
@[inherit_doc uRaw] def uRm (o : H) : Nat := o.fl.toNat / 4096 % 8

/-- Encodings that `.add` and `.sub` take (R215). -/
def accEnc (enc : Nat) : Bool := enc == 7 || enc == 8 || enc == 0 || enc == 1

/-- Shape and encoding of a `TUPD` (R215, item 2); `src` is the descriptor of a head source. -/
def tupdFits (o : H) (d : Desc) (src : Option Desc) : Bool :=
  let plain := fun (e : Desc) => accEnc e.enc && e.shape != 3 && e.scl == 0 && e.sp == 0
  if uOp o = 0 then
    match src with
    | some e => e.enc == d.enc && e.shape == d.shape && e.pl == d.pl && e.scl == d.scl && e.sp == d.sp
    | none => uRaw o || d.sp == 0
  else
    plain d &&
    (match src with
     | some e => plain e && e.shape == d.shape
     | none => true)

/-- Element codes of a dense record, rows then lanes (R186). -/
def Desc.elemCodes (d : Desc) (bytes : List Byte) : List Nat :=
  let w := encWidth d.enc
  codesOf w (d.recBytes * 8 / w) bytes

/-- Update elements one after another (R215): the code, flags and event of each, and the register of draws. -/
def updElems (f : Fmt) (mode : Nat) (sat5 sub : Bool) (a : FVal) : List (Nat × FVal) → BitVec 32 → List RRes × BitVec 32
  | [], l => ([], l)
  | (old, s) :: t, l =>
    let (d, l) := drawFor mode l
    let (p, f1) := fMul a s
    let (x, f2) := fAdd mode (f.decode old) (if sub then p.neg else p)
    let q := convert f mode sat5 d x false
    let (rs, l) := updElems f mode sat5 sub a t l
    (⟨q.code, f1 ||| f2 ||| q.fl, q.ev⟩ :: rs, l)

/-- The checks of `TUPD` (R215, items 1 and 2) in their order; a false guard waives those of EOT (R215, item 7). -/
def Mach.tupdBad (m : Mach) (o : H) (act : Bool) : Option (BitVec 8 × Word) :=
  let n := o.hd.toNat
  let h := m.k.head n
  if !h.bound || h.owner != m.st then some (0x20, m.headTv n)
  else if !h.updates || (uOp o != 0 && h.mode != .rmw) then some (0x29, m.headTv n)
  else if act && h.eot (m.tapeOf h.handle).len then some (0x23, m.headTv n)
  else if o.cnt = 48 then
    match m.headCheck (uSrc o) with
    | .error e => some e
    | .ok (g, e) =>
      if act && g.eot e.len && g.mode != .zeroFill then some (0x23, m.headTv (uSrc o))
      else if tupdFits o (m.tapeOf h.handle) (some e) then none else some (0x22, m.headTv n)
  else if tupdFits o (m.tapeOf h.handle) none then none
  else some (0x22, m.headTv n)

/-- The target's old record, as `.add` and `.sub` need it (R213, R406). -/
inductive OldRec where
  | ok (bytes : List Byte)
  | stop (r : Res)

@[inherit_doc OldRec] def Mach.oldRec (m : Mach) (n : Nat) (d : Desc) (r : Nat) : OldRec :=
  let h := m.k.head n
  match h.flue.find? fun e => e.idx == r with
  | none =>
    match m.notHeld n d r with
    | .trap f c v => .stop (.trapWith f c v)
    | .wait w => .stop (.wait w)
    | _ => .stop (.wait .headRecord)
  | some e =>
    match keyDenied m.k.sr.pkp false e.keys with
    | some va => .stop (.trap 0x17 (W va))
    | none => .ok (e.now m.s)

/-- Byte j of a zero record that is copied (R193, R215): +0 in every element. The spec gives no bytes of one; what it leaves open
is free (log 56, DESIGN CHOICE): the codes of a tbl8 tape, which has no code of +0; an inline scale other than the NaN 0xFF; the
kept lanes of a packed row, N in each group. -/
def Desc.zeroByte (d : Desc) (free : Nat → Byte) (j : Nat) : Byte :=
  let i := if d.shape = 0 || d.shape = 3 then 0 else j % rowBytesOf d.enc d.scl d.sp
  let data := 4 * keptOf d.sp * encWidth d.enc / 8
  let meta0 := data + (if d.scl = 1 then 2 else 0)
  if i < data then (if d.enc = 9 then free j else 0)
  else if i < meta0 then (if free j = 0xFF then 0x7F else free j)
  else
    let first := j - (i - meta0) % 2
    if popCount 16 (leNat [free first, free (first + 1)]) = keptOf d.sp then free j
    else (leBytes 2 (2 ^ keptOf d.sp - 1)).getD (j - first) 0

/-- The bytes of a zero record that is copied. -/
def Desc.zeroBytes (d : Desc) (tick : Nat) : List Byte :=
  (upTo d.recBytes).map (d.zeroByte fun j => Config.freeByte (tick * 2 ^ 52 + j))

/-- The effect of a `TUPD` (R215, item 5): the new record, from the source's elements or bytes. -/
def Mach.updated (m : Mach) (o : H) (d : Desc) (old : List Byte) (src : List FVal) (copy : List Byte) : List Byte × List RRes × Mach :=
  if uOp o = 0 then (copy, [], m)
  else
    let f := encFmt d.enc
    let a := Fmt.decode .f32 ((m.t.reg (uReg o)).toNat % 2 ^ 32)
    let (rs, l) := updElems f (m.rmField (uRm o)) m.sat5 (uOp o == 2) a ((d.elemCodes old).zip src)
      (m.k.dlfsr.getD m.k.sr.lfsr)
    let w := encWidth d.enc
    (leBytes d.recBytes (packCodes w (rs.map (·.code))), rs, m.ctx fun k => if k.dlfsr.isSome then { k with dlfsr := none } else { k with sr := { k.sr with lfsr := l } })

/-- Write the updated record: the last part of a `TUPD`. -/
def Mach.tupdWrite (m : Mach) (o : H) (d : Desc) (r : Nat) (old : List Byte) (src : List FVal) (copy : List Byte) : Res :=
  let n := o.hd.toNat
  match m.canWrite n d r with
  | .trap f c v => .trapWith f c v
  | .wait w => .wait w
  | .again w f => .park w f
  | .ok l m =>
    let (bytes, rs, m) := m.updated o d old src copy
    ((m.issueWrite n d r l bytes).count (m.k.sr.dtid.toNat % 256) (rs.map (·.ev))).afterFlags
      (rs.foldl (fun f q => f ||| q.fl) 0)

/-- Values of the lanes of queue entries as f32 (R215). -/
def entryVals (d : Desc) (es : List RowEnt) : List FVal :=
  let vs := es.flatMap fun e => (rowCodes 32 e).map (Fmt.decode .f32)
  if d.shape = 0 then vs.take 1 else vs

/-- The old record that `.add` and `.sub` read is poisoned (R214, R215 item 4). -/
def Mach.oldPoison (m : Mach) (o : H) : Bool :=
  let h := m.k.head o.hd.toNat
  uOp o != 0 && h.flue.any fun e => e.idx == h.v.toNat && e.poison

/-- What has to hold before a `TUPD` under a true guard goes on (R215, items 1 and 3), and the old record. -/
def Mach.tupdReady (m : Mach) (o : H) (d : Desc) : OldRec :=
  let n := o.hd.toNat
  let h := m.k.head n
  if h.eot d.len then .stop (.trap 0x23 (m.headTv n))
  else
    let r := h.v.toNat
    if 64 ≤ (m.k.hwrites.filter (·.dstream)).length then .stop (.wait .earlier)
    else if !d.cp && !m.close.readersPassed m.k.bd.vdev h.handle r then .stop (.wait .crossing)
    else
      match m.canWrite n d r with
      | .trap f c v => .stop (.trapWith f c v)
      | .wait w => .stop (.wait w)
      | .again w f => .stop (.park w f)
      | .ok _ _ => if uOp o = 0 then .ok [] else m.oldRec n d r

/-- The first wait, or the fault before its poison, of what a `TUPD` consumes (R215, item 3). -/
def Mach.srcStop (m : Mach) (n : Nat) (u : HeadUse) : Option Res :=
  match u with
  | .record d r =>
    match m.await n d r with
    | .stop (.trap f c v) => some (.trapWith f c v)
    | .stop (.wait w) => some (.wait w)
    | _ => none
  | _ => none

/-- `TUPD` with a head source (R215): the waits of both heads, the target's poison, the source's. -/
def tupdHead (o : H) (d : Desc) (m : Mach) (a : Opnds) : Res :=
  let n := o.hd.toNat
  let src := uSrc o
  if !a.act then .done ((m.stepHead n d).stepHead src (m.tapeOf (m.k.head src).handle))
  else if (m.k.head n).eot d.len then .trap 0x23 (m.headTv n)
  else
    match m.headUse src true fun _ => true with
    | .error (c, v) => .trap c v
    | .ok u =>
      match m.tupdReady o d with
      | .stop r => r
      | .ok old =>
        let r := (m.k.head n).v.toNat
        match m.srcStop src u with
        | some r => r
        | none =>
        if m.oldPoison o then .trap 0x21 (m.headTv n)
        else
        match m.eat src u with
        | .trap f c v => .trapWith f c v
        | .wait w => .wait w
        | .got e bytes m => m.tupdWrite o d r old ((e.elemCodes bytes).map (encFmt e.enc).decode) bytes
        | .zero e m | .skip e m =>
          m.tupdWrite o d r old (List.replicate (8 * d.recBytes / encWidth d.enc) (.fin false 0 0)) (e.zeroBytes m.s.md.tick)

/-- A `TUPD` that waits between entries, or stops: the draws it has still to take are passed over in sr.lfsr (R39). -/
def Mach.passUpdates (m : Mach) (o : H) (d : Desc) (act : Bool) : Mach :=
  let n := if d.shape = 0 then 1 else if d.shape = 1 then 64 else 4096
  if act && uOp o != 0 && m.rmField (uRm o) == 4 && m.k.dlfsr.isNone then
    m.ctx fun k => { k with dlfsr := some k.sr.lfsr, sr := { k.sr with lfsr := drawN 4 n k.sr.lfsr } }
  else m

/-- The result of a `TUPD` with a queue source. -/
def tupdRes (o : H) (d : Desc) (act : Bool) (r : Res) : Res :=
  match r with
  | .hold m w => .hold (m.passUpdates o d act) w
  | .trapIn m c v => .trapIn (m.passUpdates o d act) c v
  | r => r

/-- `TUPD` with a queue source (R215). -/
def tupdQueue (o : H) (d : Desc) (m : Mach) (a : Opnds) : Res :=
  let n := o.hd.toNat
  let early := fun (m : Mach) =>
    if !a.act then none
    else
      match m.tupdReady o d with
      | .stop r => some r
      | .ok _ => if m.oldPoison o then some (.trap 0x21 (m.headTv n)) else none
  tupdRes o d a.act <| popAll (qNum o.cnt) (d.entries (uRaw o)) m.t.prog.isSome early (fun m es =>
    if !a.act then .done (m.stepHead n d)
    else
      match m.tupdReady o d with
      | .stop r => r
      | .ok old =>
        if m.oldPoison o then .trap 0x21 (m.headTv n)
        else m.tupdWrite o d (m.k.head n).v.toNat old (entryVals d es) (d.build (uRaw o) es)) m

/-- Body of `TUPD` (R215). -/
def tupdBody (o : H) (m : Mach) (a : Opnds) : Res :=
  match m.tupdBad o a.act with
  | some (c, v) => .trap c v
  | none =>
    let d := m.tapeOf (m.k.head o.hd.toNat).handle
    if o.cnt = 48 then tupdHead o d m a else tupdQueue o d m a

/-- TUPD (R215). -/
def execTupd (h : Hdr) (o : H) (s : State) : Out := issueWord (.tupd h o) h dPorts (tupdBody o) s

/-- Body of `TFLSH` (R201). -/
def tflshBody (o : H) (m : Mach) (a : Opnds) : Res :=
  let n := o.hd.toNat
  let all := o.fl.getLsbD 0
  if !a.act then .done m
  else if !all && (!(m.k.head n).bound || (m.k.head n).owner != .D) then .trap 0x20 (m.headTv n)
  else if m.k.hwrites.any fun w => w.dstream && (all || w.hd == n) then .wait .earlier
  else .done m

/-- TFLSH (R201). -/
def execTflsh (h : Hdr) (o : H) (s : State) : Out := issueWord (.tflsh h o) h Ports.none (tflshBody o) s

/-- DSTAT (R217). -/
def execDstat (h : Hdr) (o : S3) (s : State) : Out :=
  issueWord (.dstat h o) h { Ports.none with dsts := [o.dst] }
    (fun m a =>
      let v := match o.fn.toNat % 4 with
        | 0 => W (m.k.hwrites.filter (·.dstream)).length
        | 1 => m.k.xw
        | _ => m.k.wr
      .done (m.put o.dst a.act v true)) s

/-- A head's write of bytes of sectors at the package point, under the write policy of its class; the poison of the sectors goes
(R189, R214, R300). -/
def State.putWhole (s : State) (a : Acc) (ws : List (Nat × List (Nat × Byte))) : State :=
  (s.pkgWrite a 3 ws).mem fun m =>
    { m with alien := ws.foldl (fun t w => if w.2.length = 64 then tset 0 t w.1 0 else t) m.alien }

/-- Flues that hold the written record fetch it again (R209, R211). -/
def State.refetch (s : State) (vdev handle r : Nat) : State :=
  { s with ctxs := s.ctxs.map fun p =>
      if p.2.bd.vdev = vdev then
        (p.1, { p.2 with heads := p.2.heads.map fun q =>
          if q.2.bound && q.2.handle == handle then (q.1, { q.2 with flue := q.2.flue.takeWhile fun e => e.idx != r }) else q })
      else p }

/-- HEAD_WRITE_PERFORMED (R189): the oldest write of its head reaches the MSC or the expander. -/
def execHeadWritePerformed (x : CtxRef) (n : Nat) (s : State) : Out :=
  match s.ctx? x with
  | none => .next s
  | some k =>
    match k.hwrites.find? fun w => w.id == n with
    | none => .next s
    | some w =>
      if (k.hwrites.find? fun v => v.hd == w.hd) != some w || w.pieces.any (fun p => s.expDead p.pa) then .next s
      else
        let k := { k with hwrites := k.hwrites.filter fun v => v.id != n }
        let s := w.pieces.foldl (fun s p => s.putWhole ⟨x.core.toNat, k.bd.vdev, p.tag, 1⟩ (bySector (bytesAt p.pa p.bytes))) (s.setCtx x k)
        .next (s.refetch k.bd.vdev w.handle w.idx)

end Sys2Proof.Machine
end

