-- ==== Sys2Proof/Machine/Matrix.lean ====
section
/-! DEFINITION. The matrix engine and its drain (spec/09): the operand chain, the stationary buffers, streaming, tile
control, drains, the damper, the counters. -/
namespace Sys2Proof.Machine

/-- A decoded row of the operand chain (R224 to R226): 64 codes, the lanes that hold one, the block scales. -/
structure MRow where
  codes : List Nat
  valid : BitVec 64
  s0 : Byte
  s1 : Byte
  deriving DecidableEq, Repr

/-- An M word's operand (R224 to R227). -/
structure MSrc where
  src : BitVec 8
  enc : Nat
  scl : Nat
  rows : Nat
  /-- planes read of a PTILE record -/
  planes : Nat
  /-- the tape's shape and sparsity are usable -/
  fits : Desc → Bool

/-- What taking a row comes to. -/
inductive MGet where
  | row (x : MRow) (m : Mach)
  /-- nothing is delivered under a false guard -/
  | skip (m : Mach)
  | trap (f : Mach → Mach) (cause : BitVec 8) (tval : Word)
  | wait (w : Why)

/-- The companion head of R226. -/
def companion (n : Nat) : Nat := (n + 1) % 16

/-- The companion head is M's, reads, and is bound to the tape of block scales (R226). -/
def Mach.companionOk (m : Mach) (n : Nat) (d : Desc) : Bool :=
  let h := m.k.head (companion n)
  h.bound && h.owner == .M && h.mode == .read && h.handle == d.comp &&
  (let e := m.tapeOf h.handle
   e.shape == 0 && e.enc == 6)

/-- The check of a head record by an M word (R225, R226). -/
def Mach.mUsable (m : Mach) (q : MSrc) (n : Nat) (d : Desc) : Bool :=
  d.enc == q.enc && d.scl == q.scl && q.fits d && (q.scl != 2 || m.companionOk n d)

/-- The row of a zero record: +0 in every lane (R193). -/
def MRow.zero : MRow := ⟨List.replicate 64 0, 0, 0x7F, 0x7F⟩

/-- A row of a record. -/
def MRow.ofImg (x : RowImg) : MRow := ⟨x.codes, x.kept, x.scale0, x.scale1⟩

/-- A row of unpacked codes in lanes (R224, R226). -/
def MRow.ofLanes (q : MSrc) (lanes : Row) (valid : BitVec 64) : MRow :=
  let sc := fun (b : Nat) => if q.scl = 1 then laneScale lanes valid b else 0x7F
  ⟨rowCodes (encWidth q.enc) ⟨lanes, valid⟩, valid, sc 0, sc 1⟩

/-- One record of the companion head: a block scale (R226). -/
def Mach.blockScaleOf (m : Mach) (n : Nat) (act : Bool) : MGet :=
  match m.consume (companion n) act fun _ => true with
  | .trap f c v => .trap f c v
  | .wait w => .wait w
  | .skip _ m => .skip m
  | .zero _ m => .row ⟨[0], 0, 0x7F, 0x7F⟩ m
  | .got _ bytes m => .row ⟨[leNat bytes], 0, 0x7F, 0x7F⟩ m

/-- The two companion records of a row (R226). -/
def Mach.withScales (m : Mach) (q : MSrc) (n : Nat) (act : Bool) (x : Option MRow) : MGet :=
  let out := fun (m : Mach) (x : Option MRow) => match x with
    | some x => MGet.row x m
    | none => .skip m
  if q.scl ≠ 2 then out m x
  else
    match m.blockScaleOf n act with
    | .trap f c v => .trap f c v
    | .wait w => .wait w
    | .skip m =>
      (match m.blockScaleOf n act with
       | .skip m | .row _ m => out m x
       | r => r)
    | .row a m =>
      match m.blockScaleOf n act with
      | .trap f c v => .trap f c v
      | .wait w => .wait w
      | .skip m => out m x
      | .row b m => out m (x.map fun x => { x with s0 := BitVec.ofNat 8 (a.codes.headD 0), s1 := BitVec.ofNat 8 (b.codes.headD 0) })

/-- The record that rows 0 to 63 come from, once for the word: kept in `mat.held` (R224, R246); no bytes stand for a
zero record or a skip. -/
def Mach.heldRecord (m : Mach) (q : MSrc) (n : Nat) (act : Bool) : MGet :=
  match m.k.mat.held with
  | some _ => .skip m
  | none =>
    let hold := fun (m : Mach) (b : List Byte) => m.ctx fun k => { k with mat := { k.mat with held := some b } }
    match m.consume n act (m.mUsable q n) with
    | .trap f c v => .trap f c v
    | .wait w => .wait w
    | .skip _ m | .zero _ m => .skip (hold m [])
    | .got _ bytes m => .skip (hold m bytes)

/-- Take row r of an M word's operand (R224). -/
def Mach.mrow (m : Mach) (q : MSrc) (act : Bool) (r : Nat) : MGet :=
  if vIsReg q.src then
    if act then .row (MRow.ofLanes q (m.k.vec.row (q.src.toNat + r / 16) (r % 16)) (BitVec.allOnes 64)) m else .skip m
  else if vIsQueue q.src then
    match popSlot (m.k.rq? (vNum q.src)) with
    | none => .wait .queue
    | some (e, l) =>
      let m := m.ctx fun k => k.setRq (vNum q.src) l
      if act then .row (MRow.ofLanes q e.lanes e.mask) m else .skip m
  else
    let n := vNum q.src
    let d := m.tapeOf (m.k.head n).handle
    if d.shape ≤ 1 then
      match m.consume n act (m.mUsable q n) with
      | .trap f c v => .trap f c v
      | .wait w => .wait w
      | .skip _ m => m.withScales q n act none
      | .zero _ m => m.withScales q n act (some MRow.zero)
      | .got d bytes m => m.withScales q n act (some (MRow.ofImg ((d.rows q.planes bytes).headD RowImg.zero)))
    else
      match m.heldRecord q n act with
      | .skip m =>
        let bytes := m.k.mat.held.getD []
        m.withScales q n act
          (if !act then none
           else if bytes.isEmpty then some MRow.zero
           else some (MRow.ofImg ((d.rows q.planes bytes).getD r RowImg.zero)))
      | r => r

/-- The element that a code enters the arrays as, with its encoding above its code (R225): tbl8 codes are looked up. -/
def MatSt.enter (t : MatSt) (enc code : Nat) : BitVec 20 :=
  if enc = 9 then BitVec.ofNat 20 (7 * 2 ^ 16 + (tget 0 t.tbl code).toNat) else BitVec.ofNat 20 (enc * 2 ^ 16 + code)

/-- Read an entered element. -/
def eltAt (c : BitVec 20) : Elt := eltOf (c.toNat / 2 ^ 16) (c.toNat % 2 ^ 16)

/-- The elements of a row as they enter the arrays: an invalid lane is an exact zero (R224). -/
def MatSt.enterRow (t : MatSt) (enc : Nat) (x : MRow) : List (BitVec 20) :=
  lmapIdx (fun l c => if x.valid.getLsbD l then t.enter enc c else 0) x.codes

/-- A context with one buffer per array, whose front and back buffer it is (R222). -/
def Ctx.backOf (k : Ctx) (a : Nat) : Nat := if k.bd.twoBuf then 2 * a + (1 - tget 0 k.mat.front a) else k.mat.frontOf a

/-- Buffer n. -/
def MatSt.buf (t : MatSt) (n : Nat) : StatBuf := tget StatBuf.clear t.bufs n

/-- Write buffer n. -/
def MatSt.setBuf (t : MatSt) (n : Nat) (b : StatBuf) : MatSt := { t with bufs := tset StatBuf.clear t.bufs n b }

/-- Change the matrix state. -/
def Mach.mat (m : Mach) (f : MatSt → MatSt) : Mach := m.ctx fun k => { k with mat := f k.mat }

/-- What the context holds belongs to the word at pc, or is let go of (R246). -/
def Mach.ownWord (m : Mach) : Mach :=
  m.mat fun t => if t.word = m.t.pc then t else { t.forget with word := m.t.pc }

/-- The row at which the word starts (R246). -/
def Mach.row0 (m : Mach) : Nat := match m.t.prog with
  | some p => p.k
  | none => 0

/-- What performing one row comes to. -/
inductive RowDo where
  | done (m : Mach)
  | trap (f : Mach → Mach) (cause : BitVec 8) (tval : Word)
  | wait (w : Why)
  | again (w : Why) (f : Mach → Mach)

/-- Set the progress of the word. -/
def Mach.atRow (m : Mach) (r rows : Nat) : Mach := m.str fun t => { t with prog := some ⟨r, rows, none⟩ }

/-- Perform rows in order (R246): a stop or a fault falls between rows, and before row 0 the word has no effect. -/
def rowLoop (rows : Nat) (f : Nat → Mach → RowDo) (last : Mach → Res) : Nat → Nat → Mach → Res
  | 0, _, m => last m
  | fuel + 1, r, m =>
    if rows ≤ r then last m
    else
      match f r m with
      | .done m => rowLoop rows f last fuel (r + 1) m
      | .trap g c v => if r = 0 then .trapWith g c v else .trapIn (g (m.atRow r rows)) c v
      | .wait w => if r = 0 then .wait w else .hold (m.atRow r rows) w
      | .again w g => if r = 0 then .park w g else .hold (g (m.atRow r rows)) w

/-- A row word from the row at which it starts; `last` ends it. -/
def Mach.rowWord (m : Mach) (rows : Nat) (f : Nat → Mach → RowDo) (last : Mach → Res) : Res :=
  let m := m.ownWord
  let m := if m.t.prog.isSome then m else m.mat fun t => { t with held := none, fl := 0, own := none }
  rowLoop rows f last rows m.row0 m

/-- The word is done with what it held. -/
def Mach.forget (m : Mach) : Mach := m.mat MatSt.forget

/-- Ports of a row word: it goes on from row 1 to ROWS − 1 (R246). -/
def rowPorts (rows : BitVec 7) : Ports :=
  { Ports.none with resumes := fun p => decide (1 ≤ p.k) && decide (p.k < rows.toNat) }

/-- Perform a row that is taken from the operand. -/
def Mach.withRow (m : Mach) (q : MSrc) (act : Bool) (r : Nat) (f : MRow → Mach → Mach) : RowDo :=
  match m.mrow q act r with
  | .row x m => .done (f x m)
  | .skip m => .done m
  | .trap g c v => .trap g c v
  | .wait w => .wait w

/-- Load a row into buffer n: row r of S, or its column r with the block scales (R229). -/
def StatBuf.load (b : StatBuf) (west : Bool) (r : Nat) (enc : Nat) (es : List (BitVec 20)) (s0 s1 : Byte) : StatBuf :=
  let key := fun (l : Nat) => if west then 64 * l + r else 64 * r + l
  { b with
    codes := es.zipIdx.foldl (fun t p => tset 0 t (key p.2) p.1) b.codes
    scales := if west then tset 0x7F (tset 0x7F b.scales (2 * r) s0) (2 * r + 1) s1 else []
    enc := some (if enc = 9 then 7 else enc) }

/-- Load a row into the back buffer of every array (R229). -/
def Mach.loadRow (m : Mach) (o : MF) (r enc : Nat) (es : List (BitVec 20)) (s0 s1 : Byte) : Mach :=
  m.ctx fun k => { k with mat := (amArrays o.am).foldl (fun t a =>
    t.setBuf (k.backOf a) ((t.buf (k.backOf a)).load o.edge r enc es s0 s1)) k.mat }

/-- The rows that a load does not have are +0 with scales 127, and the buffer is tagged (R229, R230). -/
def Mach.loadEnd (m : Mach) (o : MF) (tag : Nat) : Mach :=
  let m := ((upTo 64).drop o.rows.toNat).foldl
    (fun m r => m.loadRow o r o.enc.toNat (List.replicate 64 0) 0x7F 0x7F) m
  m.ctx fun k => { k with mat := (amArrays o.am).foldl (fun t a =>
    t.setBuf (k.backOf a) { t.buf (k.backOf a) with tag := tag }) k.mat }

/-- Body of the loads (R229, R230). -/
def loadBody (o : MF) (tag : Nat) (fits : Desc → Bool) (m : Mach) (a : Opnds) : Res :=
  let q : MSrc := ⟨o.src, o.enc.toNat, o.scl.toNat, o.rows.toNat, o.pl.toNat + 1, fits⟩
  m.rowWord o.rows.toNat
    (fun r m => m.withRow q a.act r fun x m => m.loadRow o r q.enc (m.k.mat.enterRow q.enc x) x.s0 x.s1)
    (fun m => .done (if a.act then m.forget.loadEnd o tag else m.forget))

/-- Tapes that `MLD` takes, by LAY (R229). -/
def mldFits (lay : Nat) (d : Desc) : Bool :=
  match lay with
  | 0 => (d.shape == 1 || d.shape == 2) && d.sp == 0
  | 1 => d.shape == 3
  | _ => (d.shape == 1 || d.shape == 2) && d.sp != 0

/-- LAY = 1 or 2 with a source that is no head (R229). -/
def layNeedsHead (o : MF) : Bool := o.lay != 0 && !vIsHead o.src

/-- MLD (R229). -/
def execMld (h : Hdr) (o : MF) (s : State) : Out :=
  issueWord (.mld h o) h (rowPorts o.rows)
    (fun m a => if a.act && layNeedsHead o then .trap 0x22 0 else loadBody o 0 (mldFits o.lay.toNat) m a) s

/-- MLDS (R230). -/
def execMlds (h : Hdr) (o : MF) (s : State) : Out :=
  issueWord (.mlds h o) h (rowPorts o.rows)
    (loadBody o o.sp.toNat fun d => (d.shape == 1 || d.shape == 2) && d.sp == o.sp.toNat) s

/-- MSWAP (R231). -/
def execMswap (h : Hdr) (o : MF) (s : State) : Out :=
  issueWord (.mswap h o) h Ports.none
    (fun m a =>
      .done (if a.act && m.k.bd.twoBuf then
        m.mat fun t => { t with front := (amArrays o.am).foldl (fun f a => tset 0 f a (1 - tget 0 f a)) t.front }
      else m)) s

/-- Row r of tile c. -/
def MatSt.tileRow (t : MatSt) (c r : Nat) : List AccEnt := tget (List.replicate 64 AccEnt.clear) t.tiles (64 * c + r)

/-- Write row r of tile c. -/
def MatSt.setTileRow (t : MatSt) (c r : Nat) (es : List AccEnt) : MatSt :=
  { t with tiles := tset (List.replicate 64 AccEnt.clear) t.tiles (64 * c + r) es }

/-- Anchor of tile c (R42). -/
def MatSt.anchor (t : MatSt) (c : Nat) : Int := (tget 0 t.anchors c).toInt

/-- One streamed row into one entry (R43, R232): both blocks of column j. -/
def accEntry (b : StatBuf) (x : List Elt) (sa : Nat → Byte) (sub : Bool) (anchor : Int) (j : Nat) (e : AccEnt) : AccEnt :=
  [0, 1].foldl (fun e blk =>
    let ps := (upTo 32).map fun i => (x.getD (32 * blk + i) ⟨.fin false 0 0, none⟩, eltAt (tget 0 b.codes (64 * (32 * blk + i) + j)))
    addContribution e (contribution (ps.map fun p => eltMul p.1 p.2) (ps.all fun p => p.1.val.isFin && p.2.val.isFin)
      (sa blk) (tget 0x7F b.scales (2 * j + blk)) sub anchor)) e

/-- Stream row r into every array (R232). -/
def MatSt.stream (t : MatSt) (o : MF) (r : Nat) (x : MRow) : MatSt :=
  let elts := (t.enterRow o.enc.toNat x).map eltAt
  let sa := fun (b : Nat) => if b = 0 then x.s0 else x.s1
  (amArrays o.am).foldl (fun t a =>
    let c := 8 * a + o.acc.toNat % 8
    let old := if o.aop = 0 then List.replicate 64 AccEnt.clear else t.tileRow c r
    let t := t.setTileRow c r (lmapIdx (accEntry (t.buf (t.frontOf a)) elts sa (o.aop == 2) (t.anchor c)) old)
    { t with rows := tset 0 t.rows a (satAdd (tget 0 t.rows a) 1) }) t

/-- Twice the rows per cycle of an encoding against dense data (R233). -/
def rate2 (enc : Nat) : Nat := match enc with
  | 7 | 8 | 9 => 1
  | 4 | 5 => 4
  | _ => 2

/-- Twice the rows per cycle of a word on a buffer (R233). -/
def wordRate (enc : Nat) (b : StatBuf) (sp : Nat) : Nat :=
  (match b.enc with
   | some e => min (rate2 enc) (rate2 e)
   | none => rate2 enc) * (if sp = 1 then 2 else if sp = 2 then 4 else 1)

/-- Bits that differ between two rows of codes. -/
def toggles (w : Nat) (a b : List Nat) : Nat := ((a.zip b).map fun p => popCount w (p.1 ^^^ p.2)).sum

/-- Toggles between consecutive rows. -/
def togglesAll (w : Nat) : List (List Nat) → Nat
  | a :: b :: t => toggles w a b + togglesAll w (b :: t)
  | _ => 0

/-- The toggle estimate E of an array (R248). -/
def estimate (w : Nat) (rows : List (List Nat)) (b : StatBuf) : Nat :=
  let (tog, den) := if rows.length ≤ 1 then (1, 2) else (togglesAll w rows, (rows.length - 1) * 64 * w)
  let nz := (b.codes.filter fun p => match (eltAt p.2).val with
    | .fin _ m _ => m != 0
    | _ => true).length
  -- ceil(256 · (nz / 4096) · (1 + tog / den) / 2) = ceil(nz · (den + tog) / (32 · den))
  min 255 ((nz * (den + tog) + 32 * den - 1) / (32 * den))

/-- Rows fetched ahead of the estimate (R248): nothing of the look is kept; the cause of row r itself is. -/
def peekRows (q : MSrc) : Nat → Nat → Mach → List (List Nat) × Option Why
  | 0, _, _ => ([], none)
  | n + 1, r, m =>
    match m.mrow q true r with
    | .row x m =>
      let (t, w) := peekRows q n (r + 1) m
      ((lmapIdx (fun l c => if x.valid.getLsbD l then c else 0) x.codes) :: t, w)
    | .skip _ | .trap _ _ _ => ([], none)
    | .wait w => ([], some w)

/-- What a word asks of the damper (R248): array, E, charge. -/
def Mach.damperAsk (m : Mach) (o : MF) (rows : Nat) (peeked : List (List Nat)) : List (Nat × Nat × Nat) :=
  (amArrays o.am).map fun a =>
    let b := m.k.mat.buf (m.k.mat.frontOf a)
    let e := estimate (encWidth o.enc.toNat) peeked b
    let r := wordRate o.enc.toNat b o.sp.toNat
    (a, e, e * ((2 * rows + r - 1) / r))

/-- Stream the rows of a word (R232). -/
def Mach.streamRows (m : Mach) (o : MF) (q : MSrc) (act : Bool) : Res :=
  m.rowWord q.rows (fun r m => m.withRow q act r fun x m => m.mat fun t => t.stream o r x) (fun m => .done m.forget)

/-- Body of `MMA` and `MMAS` (R232, R245, R248). One that goes on at row r without a grant asks for one over the rows still to
come, of which the first are fetched: E over them, and their charge (log 56, DESIGN CHOICE: R248 speaks of a whole word). -/
def mmaBody (o : MF) (m : Mach) (a : Opnds) : Res :=
  let q : MSrc := ⟨o.src, o.enc.toNat, o.scl.toNat, o.rows.toNat, 8, fun d => (d.shape == 1 || d.shape == 2) && d.sp == 0⟩
  let mine := m.ownWord
  if !a.act || mine.k.mat.granted then mine.streamRows o q a.act
  else
    let r := mine.row0
    let stop := fun (w : Why) => if r = 0 then Res.wait w else .hold mine w
    match mine.mrow q true r with
    | .trap g c v => if r = 0 then .trapWith g c v else .trapIn (g mine) c v
    | .wait w => stop w
    | _ =>
      match peekRows q (min (q.rows - r) 8) r mine with
      | (_, some w) => stop w
      | (rows, none) =>
        let ask := mine.damperAsk o (q.rows - r) rows
        .park .damper fun m => m.ownWord.mat fun t => { t with ask := ask }

/-- MMA (R232). -/
def execMma (h : Hdr) (o : MF) (s : State) : Out := issueWord (.mma h o) h (rowPorts o.rows) (mmaBody o) s

/-- MMAS (R232); its check of the tags is made with those of R90 (`Ctx.matrixBad`). -/
def execMmas (h : Hdr) (o : MF) (s : State) : Out := issueWord (.mmas h o) h (rowPorts o.rows) (mmaBody o) s

/-- The M stream of a context waits for the damper (R248). -/
def State.asks (s : State) (stove : Nat) (p : Nat × Ctx) : Bool :=
  let x := keyCtx p.1
  stoveOf x.core.toNat == stove && p.2.run == .ready && s.runsAt x && p.2.m.stalled == some .damper && !p.2.mat.ask.isEmpty

/-- One waiting word goes before another (R248): one that has waited more than 4096 cycles, the longest first; then the
lowest E (the sum over its arrays); then the lowest place. -/
def grantBefore (p q : Nat × Ctx) : Bool :=
  let late := fun (k : Ctx) => decide (4096 < k.mat.dwait)
  let e := fun (k : Ctx) => ((k.mat.ask.map fun q => q.2.1).sum : Nat)
  if late p.2 != late q.2 then late p.2
  else if late p.2 && p.2.mat.dwait != q.2.mat.dwait then decide (q.2.mat.dwait < p.2.mat.dwait)
  else if !late p.2 && e p.2 != e q.2 then decide (e p.2 < e q.2)
  else decide (p.1 ≤ q.1)

/-- The first of the waiting words. -/
def firstAsk : List (Nat × Ctx) → Option (Nat × Ctx)
  | [] => none
  | p :: t =>
    match firstAsk t with
    | none => some p
    | some q => if grantBefore p q then some p else some q

/-- DAMPER_GRANT (R248): the first waiting word is granted when the level covers its charge, or is full. A charge above the level
leaves the level at 0 (log 56, DESIGN CHOICE: R248 gives no level below it). -/
def execDamperGrant (stove : BitVec 2) (s : State) : Out :=
  match firstAsk (s.ctxs.filter (s.asks stove.toNat)) with
  | none => .next s
  | some (n, k) =>
    let r := s.reg (0x40 * stove.toNat)
    let cap := bits r 16 32
    let level := tget 0 s.damper stove.toNat
    let charge := (k.mat.ask.map (·.2.2)).sum
    if keep r 47 0 ≠ 0 && (charge ≤ level || (cap < charge && cap ≤ level)) then
      let t := { k.mat with
        granted := true, dwait := 0, ask := []
        lastE := k.mat.ask.foldl (fun t q => tset 0 t q.1 q.2.1) k.mat.lastE }
      .next { s.setCtx (keyCtx n) { k with mat := t } with damper := tset 0 s.damper stove.toNat (level - charge) }
    else .next s

/-- MZERO (R235). -/
def execMzero (h : Hdr) (o : MF) (s : State) : Out :=
  issueWord (.mzero h o) h Ports.none
    (fun m a =>
      .done (if a.act then
        m.mat fun t => (amArrays o.am).foldl (fun t a => (upTo o.rows.toNat).foldl (fun t r =>
          t.setTileRow (8 * a + o.acc.toNat % 8) r (List.replicate 64 AccEnt.clear)) t) t
      else m)) s

/-- MANC (R236). -/
def execManc (h : Hdr) (o : S3) (s : State) : Out :=
  let c := o.fn.toNat % 32
  let ro := o.fn.getLsbD 5
  issueWord (.manc h o) h { Ports.none with srcs := if ro then [] else [o.s1], dsts := [o.dst] }
    (fun m a =>
      let old := tget 0 m.k.mat.anchors c
      let m := if a.act && !ro then m.mat fun t => { t with anchors := tset 0 t.anchors c ((a.v 0).setWidth 16) } else m
      .done (m.put o.dst a.act (old.signExtend 64) a.valid)) s

/-- Register ts(n) (R237). -/
def MatSt.tsReg (t : MatSt) (n : Nat) : Word := tget 0x3F800000 t.ts n

/-- MTSC (R237). -/
def execMtsc (h : Hdr) (o : S3) (s : State) : Out :=
  let n := o.fn.toNat % 4
  let ro := o.fn.getLsbD 2
  issueWord (.mtsc h o) h { Ports.none with srcs := if ro then [] else [o.s1], dsts := [o.dst] }
    (fun m a =>
      let old := m.k.mat.tsReg n
      let m := if a.act && !ro then m.mat fun t => { t with ts := tset 0x3F800000 t.ts n (keep (a.v 0) 39 0) } else m
      .done (m.put o.dst a.act old a.valid)) s

/-- Nothing of a record is held. -/
def Mach.dropHeld (m : Mach) : Mach := m.mat fun t => { t with held := none }

/-- Body of `MTBLW` (R238). -/
def mtblwBody (o : MF) (m : Mach) (a : Opnds) : Res :=
  let q : MSrc := ⟨o.src, 7, 0, 1, 8, fun d => d.shape == 1 && d.sp == 0⟩
  match m.dropHeld.mrow q a.act 0 with
  | .trap g c v => .trapWith g c v
  | .wait w => .wait w
  | .skip m => .done m.dropHeld
  | .row x m => .done (m.dropHeld.mat fun t => { t with tbl := tblWrite t.tbl o.acc.toNat (laneRow x.codes) (BitVec.allOnes 64) })

/-- MTBLW (R238). -/
def execMtblw (h : Hdr) (o : MF) (s : State) : Out := issueWord (.mtblw h o) h Ports.none (mtblwBody o) s

/-- MEST (R249). -/
def execMest (h : Hdr) (o : S3) (s : State) : Out :=
  issueWord (.mest h o) h { Ports.none with dsts := [o.dst] }
    (fun m a => .done (m.put o.dst a.act (W (tget 0 m.k.mat.lastE (o.fn.toNat % 4))) true)) s

/-- The item that `MSTAT` reads (R250). -/
def Ctx.mstat (k : Ctx) (item n : Nat) : Word :=
  match item with
  | 0 => k.mat.dstall
  | 1 => k.mat.fstall
  | 2 => tget 0 k.mat.rows n
  | 3 => (tget 0 k.mat.anchors n).signExtend 64
  | 4 => W ((k.mat.buf (k.mat.frontOf n)).tag + 4 * (k.mat.buf (k.backOf n)).tag + 16 * b2n !k.bd.twoBuf)
  | _ => W (k.bd.slot0 + 16 * k.bd.slots)

/-- MSTAT (R250); a tile outside the partition is refused with the checks of R90 (`Ctx.matrixBad`). -/
def execMstat (h : Hdr) (o : S3) (s : State) : Out :=
  issueWord (.mstat h o) h { Ports.none with dsts := [o.dst] }
    (fun m a => .done (m.put o.dst a.act (m.k.mstat (o.fn.toNat / 32) (o.fn.toNat % 32)) true)) s

/-- Format of a DF code (R240). -/
def dfFmt (df : Nat) : Fmt :=
  match df with
  | 11 => .e3m2 | 12 => .e2m3 | 13 => .e2m1 | 14 => .lns6 | n => tyFmt n

/-- A drained row: codes, block scales, residuals, flags, events, and the register of draws after it (R241). -/
structure DRow where
  codes : List Nat
  scales : List Byte
  res : List Nat
  fl : BitVec 5
  evs : List Ev
  lfsr : BitVec 32
  deriving DecidableEq, Repr

/-- The residual of an element (R242), as an f32 code. -/
def residual (ovf : Bool) (y q : FVal) : Nat :=
  if ovf || !y.isFin || q.isNan then 0 else (convert .f32 0 false 0 (fAdd 0 y q.neg).1 false).code

/-- Drain elements one after another (R241). -/
def drainElems (f : Fmt) (mode : Nat) (sat5 : Bool) (anchor : Int) (ts : Nat) : List AccEnt → BitVec 32 → List (RRes × Nat) × BitVec 32
  | [], l => ([], l)
  | e :: t, l =>
    let (d, l) := drawFor mode l
    let q := drainEntry e anchor ts f mode sat5 d
    let (rs, l) := drainElems f mode sat5 anchor ts t l
    ((q, residual e.ovf (drainExact e anchor ts).1 (f.decode q.code)) :: rs, l)

/-- Drain one block under a computed scale (R28, R241). -/
def drainBlock (f : Fmt) (mode : Nat) (anchor : Int) (ts : Nat) (es : List AccEnt) (lfsr : BitVec 32) : DRow :=
  let ys := es.map fun e => if e.ovf then FVal.nan false else (drainExact e anchor ts).1
  let r := blockScale f mode ((ys.zip es).map fun p => (p.1, p.2.sticky)) (es.map fun _ => true) lfsr
  let val := fun (c : Nat) =>
    if r.scale = 0xFF then FVal.nan false
    else match f.decode c with
      | .fin n m e => .fin n m (e + Int.ofNat r.scale.toNat - 127)
      | x => x
  { codes := r.codes, scales := [r.scale], evs := r.evs, lfsr := r.lfsr
    res := ((es.zip ys).zip r.codes).map fun p => residual p.1.1.ovf p.1.2 (val p.2)
    fl := r.fl ||| fIf (es.any (·.ovf)) fOvf }

/-- Drain a row (R241). -/
def drainRow (o : DR) (mode : Nat) (sat5 : Bool) (anchor : Int) (ts : Nat) (es : List AccEnt) (lfsr : BitVec 32) : DRow :=
  let f := dfFmt o.df.toNat
  if (11 ≤ o.df.toNat && o.df.toNat ≤ 13) || o.mxs then
    let a := drainBlock f mode anchor ts (es.take 32) lfsr
    let b := drainBlock f mode anchor ts (es.drop 32) a.lfsr
    ⟨a.codes ++ b.codes, a.scales ++ b.scales, a.res ++ b.res, a.fl ||| b.fl, a.evs ++ b.evs, b.lfsr⟩
  else
    let (rs, l) := drainElems f mode sat5 anchor ts es lfsr
    ⟨rs.map (·.1.code), [], rs.map (·.2), rs.foldl (fun a r => a ||| r.1.fl) 0, rs.map (·.1.ev), l⟩

/-- The lanes of a drained row (R243). -/
def DRow.lanes (d : DRow) : Row :=
  lmapIdx (fun l c => BitVec.ofNat 32 (c + 256 * (d.scales.getD (l / 32) 0).toNat)) d.codes

/-- The queue that RSD names (R239). -/
def rsdQueue (o : DR) : Option Nat := if o.rsd = 1 then some 12 else if o.rsd = 2 then some 13 else none

/-- The queues that a drain pushes per row. -/
def drainQueues (o : DR) (tape : Bool) : List Nat :=
  (if !tape && vIsQueue o.dst then [vNum o.dst] else []) ++ (rsdQueue o).toList

/-- The register of draws after some of a row word's: its own, once sr.lfsr has passed over them, else sr.lfsr. -/
def Mach.setDraw (m : Mach) (l : BitVec 32) : Mach :=
  m.ctx fun k => if k.mat.own.isSome then { k with mat := { k.mat with own := some l } } else { k with sr := { k.sr with lfsr := l } }

/-- A drain stops between rows: the draws it has still to take are passed over in sr.lfsr, so that they stay consecutive
and come before those of every word that issues later (R39). -/
def Mach.passDraws (m : Mach) (o : DR) (act : Bool) : Mach :=
  let left := 64 * (o.rows.toNat - m.row0)
  if act && m.rmField o.rm.toNat == 4 && m.k.mat.own.isNone && m.row0 != 0 then
    m.ctx fun k => { k with mat := { k.mat with own := some k.sr.lfsr }, sr := { k.sr with lfsr := drawN 4 left k.sr.lfsr } }
  else m

/-- The result of a drain, which may stop between rows. -/
def drainRes (o : DR) (act : Bool) (r : Res) : Res :=
  match r with
  | .hold m w => .hold (m.passDraws o act) w
  | .trapIn m c v => .trapIn (m.passDraws o act) c v
  | r => r

/-- Drain row r of the tile into the machine: the row, and its flags, events and draws taken (R241); CLR clears it. -/
def Mach.drainOne (m : Mach) (o : DR) (r : Nat) : DRow × Mach :=
  let c := o.acc.toNat
  let ts := m.k.mat.tsReg o.ts.toNat
  let d := drainRow o (m.rmField o.rm.toNat) m.sat5 (m.k.mat.anchor c) (bits ts 0 32) (m.k.mat.tileRow c r)
    (m.k.mat.own.getD m.k.sr.lfsr)
  let m := ((m.setDraw d.lfsr).count (bits ts 32 8) d.evs).raise d.fl
  let m := m.mat fun t => { t with fl := t.fl ||| d.fl }
  (d, if o.clr then m.mat fun t => t.setTileRow c r (List.replicate 64 AccEnt.clear) else m)

/-- Write row r of the vector registers from v(n) on (R243). -/
def Mach.putVRow (m : Mach) (n r : Nat) (x : Row) : Mach :=
  m.ctx fun k => { k with vec := k.vec.setRow (n + r / 16) (r % 16) x }

/-- Deliver the residuals of row r (R243). -/
def Mach.putResidual (m : Mach) (o : DR) (r : Nat) (d : DRow) : Mach :=
  match rsdQueue o with
  | some q => m.ctx fun k => k.pushR q (laneRow d.res) (BitVec.allOnes 64)
  | none => if o.rsd = 3 then m.putVRow (o.dst.toNat + 4) r (laneRow d.res) else m

/-- The rows of a drain under a false guard: invalid entries (R245). -/
def Mach.drainSkip (m : Mach) (o : DR) (tape : Bool) : Mach :=
  (drainQueues o tape).foldl (fun m q => m.ctx fun k => k.pushR q zeroRow 0) m

/-- Every queue of the drain has a free slot (R117); where DST and RSD both name queues, the row waits for room in both
before it pushes either (log 54, DESIGN CHOICE). -/
def Mach.drainRoom (m : Mach) (o : DR) (tape : Bool) : Bool :=
  (drainQueues o tape).all fun q => decide (0 < freeSlots q (m.k.rq? q))

/-- The end of a drain: the traps of all its rows (R53, R241). -/
def Mach.drainEnd (m : Mach) : Res := m.forget.afterFlags m.k.mat.fl

/-- Body of `MDR` (R239 to R245). -/
def mdrBody (o : DR) (m : Mach) (a : Opnds) : Res :=
  drainRes o a.act <| m.rowWord o.rows.toNat
    (fun r m =>
      if !m.drainRoom o false then .wait .slot
      else if !a.act then .done (m.drainSkip o false)
      else
        let (d, m) := m.drainOne o r
        let m := if vIsQueue o.dst then m.ctx fun k => k.pushR (vNum o.dst) d.lanes (BitVec.allOnes 64)
          else m.putVRow o.dst.toNat r d.lanes
        .done (m.putResidual o r d))
    Mach.drainEnd

/-- MDR (R239). -/
def execMdr (h : Hdr) (o : DR) (s : State) : Out := issueWord (.mdr h o) h (rowPorts o.rows) (mdrBody o) s

/-- Tape encoding of a DF (R240). -/
def dfEnc (df : Nat) : Option Nat :=
  match df with
  | 1 => some 7 | 2 => some 8 | 7 => some 6 | 9 => some 0 | 10 => some 1 | 11 => some 2 | 12 => some 3 | 13 => some 4
  | 14 => some 5 | _ => none

/-- The tape takes the records of an `MDRT` (R244). -/
def mdrtFits (o : DR) (d : Desc) : Bool :=
  let scaled := 11 ≤ o.df.toNat && o.df.toNat ≤ 13
  dfEnc o.df.toNat == some d.enc && (d.shape == 1 || (d.shape == 2 && o.rows == 64)) && d.sp == 0 && d.scl == (if scaled then 1 else 0)

/-- Append through the recorder, as a row of an `MDRT`. -/
def Mach.appendRow (m : Mach) (n : Nat) (d : Desc) (bytes : List Byte) : RowDo :=
  match m.append n d bytes with
  | .ok m => .done m
  | .trap f c v => .trap f c v
  | .wait w => .wait w
  | .again w f => .again w f

/-- Rows 0 to r − 1 of the TILE record that the word has built (R246). A row that it has not built (its sr.mrow was changed, or
a save has not kept it) is open: free bytes. -/
def Mach.builtBytes (m : Mach) (r rowLen : Nat) : List Byte :=
  let held := (m.k.mat.held.getD []).take (r * rowLen)
  held ++ ((upTo (r * rowLen)).drop held.length).map fun j => Config.freeByte (m.s.md.tick * 2 ^ 52 + j)

/-- Row r of an `MDRT` (R244). -/
def mdrtRow (o : DR) (act : Bool) (r : Nat) (m : Mach) : RowDo :=
  let n := vNum o.dst
  let d := m.tapeOf (m.k.head n).handle
  let tile := d.shape == 2
  if !m.drainRoom o true then .wait .slot
  else if !act then .done (m.drainSkip o true)
  else
    let (x, m') := m.drainOne o r
    let row := rowBytes d.enc x.codes x.scales
    let early := if tile && r = 0 then m.canWrite n d d.recorded else .ok [] m
    match early with
    | .trap f c v => .trap f c v
    | .wait w => .wait w
    | .again w f => .again w f
    | .ok _ _ =>
      if !tile then
        (match m'.appendRow n d row with
         | .done m => .done (m.putResidual o r x)
         | r => r)
      else
        let bytes := m.builtBytes r row.length ++ row
        let m' := m'.mat fun t => { t with held := some bytes }
        if r + 1 < 64 then .done (m'.putResidual o r x)
        else
          match m'.appendRow n d bytes with
          | .done m => .done (m.putResidual o r x)
          | r => r

/-- Body of `MDRT` (R244, R245). Under a false guard a packed-sparse tape takes 0x22 as a `TREC` does, whose fault rules it shares
(R200); the other tape checks, which stand in its own rule without a word about the guard, are made under a true one (log 56,
DEDUCED). -/
def mdrtBody (o : DR) (m : Mach) (a : Opnds) : Res :=
  let n := vNum o.dst
  let d := m.tapeOf (m.k.head n).handle
  let left := if d.shape = 2 then 1 else o.rows.toNat - m.row0
  match m.recorderBad n with
  | some c => .trap c (m.headTv n)
  | none =>
    if (a.act && !mdrtFits o d) || d.sp != 0 then .trap 0x22 (m.headTv n)
    else if a.act && d.len < d.recorded + left then (if m.row0 = 0 then .trap 0x28 (m.headTv n) else .trapIn m 0x28 (m.headTv n))
    else drainRes o a.act (m.rowWord o.rows.toNat (mdrtRow o a.act) Mach.drainEnd)

/-- MDRT (R244). -/
def execMdrt (h : Hdr) (o : DR) (s : State) : Out := issueWord (.mdrt h o) h (rowPorts o.rows) (mdrtBody o) s

end Sys2Proof.Machine
end

