-- ==== Sys2Proof/Machine/Memory.lean ====
section
/-! DEFINITION. The A stream's accesses to scratchpad and global memory, its loads in flight and its store buffer, latches,
barriers, fences and cache maintenance (spec/10, spec/11). -/
namespace Sys2Proof.Machine

/-- Alignment of an access of size code SZ (R277). -/
def szAlign (sz : Nat) : Nat := if sz = 7 then 64 else szBytes sz

/-- Extend a loaded number of n bytes (R275). -/
def extLoad (n : Nat) (signed : Bool) (v : Nat) : Word :=
  if signed && decide (2 ^ (8 * n - 1) ≤ v) then W (v + (2 ^ 64 - 2 ^ (8 * n))) else W v

/-- A loaded scalar (R275). -/
def loadValue (sz : Nat) (bytes : List Byte) : Word := extLoad (szBytes sz) (4 ≤ sz && sz ≤ 6) (leNat bytes)

/-- A loaded row (R275). -/
def loadLanes (bytes : List Byte) : Row := (chunks 4 bytes 64).map fun b => BitVec.ofNat 32 (leNat b)

/-- Ports of a load (R275). -/
def loadPorts (o : L) : Ports :=
  { Ports.none with
    srcs := [o.base, o.index]
    dsts := if o.sz = 7 then [] else [o.data]
    rowDsts := if o.sz = 7 then [qNum o.data] else [] }

/-- Ports of a store (R275). -/
def storePorts (o : L) : Ports :=
  { Ports.none with
    srcs := [o.base, o.index] ++ (if o.sz = 7 then [] else [o.data])
    rowSrcs := if o.sz = 7 then [qNum o.data] else [] }

/-- What a load under a false guard leaves (R276). -/
def Mach.loadSkip (m : Mach) (o : L) : Res :=
  .done (if o.sz = 7 then m.ctx fun k => k.pushR (qNum o.data) zeroRow 0 else m.put o.data false 0 false)

/-- A load delivers its bytes at once (R278, R290). -/
def Mach.loadNow (m : Mach) (o : L) (bytes : List Byte) : Res :=
  .done (if o.sz = 7 then m.ctx fun k => k.pushR (qNum o.data) (loadLanes bytes) (BitVec.allOnes 64)
    else m.put o.data true (loadValue o.sz.toNat bytes) true)

/-- The bytes that a store writes, by offset (R120, R275). -/
def storeBytes (o : L) (a : Opnds) : List (Nat × Byte) :=
  if o.sz = 7 then
    (a.row 0).lanes.zipIdx.flatMap fun p =>
      if (a.row 0).mask.getLsbD p.2 then (leBytes 4 p.1.toNat).zipIdx.map fun b => (4 * p.2 + b.2, b.1) else []
  else if a.valids.getD 2 true then (leBytes (szBytes o.sz.toNat) (a.v 2).toNat).zipIdx.map fun b => (b.2, b.1)
  else []

/-- The check of a scratchpad access (R277, R278): its cause. -/
def Mach.spBad (m : Mach) (ea n align : Nat) : Option (BitVec 8) :=
  if ea % align ≠ 0 then some 0x11 else if m.k.bd.ssize < ea + n then some 0x12 else none

/-- Bytes of the partition (R272). -/
def Mach.spGet (m : Mach) (ea n : Nat) : List Byte := m.s.spRead m.core (m.k.bd.sbase + ea) n

/-- The fill, or the fault of one, that makes a byte of the partition undefined to a store (R293). -/
def Fill.covers (f : Fill) (off : Nat) : Bool := decide (f.off ≤ off) && decide (off < f.off + f.n)
@[inherit_doc Fill.covers] def RowFault.covers (f : RowFault) (off : Nat) : Bool := decide (f.off ≤ off) && decide (off < f.off + f.n)

/-- A byte of the partition belongs to a row that no `LDW` has read since its fill began (R293). -/
def Ctx.ringOpen (k : Ctx) (off : Nat) : Bool := (k.fills.any fun f => f.covers off) || k.rowFaults.any fun f => f.covers off

/-- The offsets are noted with the fills, and the faults of fills, whose bytes an `STS` writes (R293). -/
def Ctx.touch (k : Ctx) (offs : List Nat) : Ctx :=
  { k with
    fills := k.fills.map fun f => if f.done then f else { f with touched := f.touched ++ offs.filter f.covers }
    rowFaults := k.rowFaults.map fun f => { f with touched := f.touched ++ offs.filter f.covers } }

/-- The A stream writes bytes of its partition (R278); those of a row that no `LDW` has read since its fill began are
undefined (R293, log 17). -/
def Mach.spPut (m : Mach) (ea : Nat) (bytes : List (Nat × Byte)) : Mach :=
  let val := fun (b : Nat × Byte) =>
    if m.k.ringOpen (ea + b.1) then Config.freeByte (m.s.md.tick * 2 ^ 52 + ea + b.1) else b.2
  (m.mem fun t => { t with spad := memPut t.spad (bytes.map fun b => (m.core * 2 ^ 22 + m.k.bd.sbase + ea + b.1, val b)) }).ctx
    fun k => k.touch (bytes.map fun b => ea + b.1)

/-- LDS (R278). -/
def execLds (h : Hdr) (o : L) (s : State) : Out :=
  issueWord (.lds h o) h (loadPorts o)
    (fun m a =>
      let ea := lAddr o (a.v 0) (a.v 1)
      if !a.act then m.loadSkip o
      else
        match m.spBad ea.toNat (szBytes o.sz.toNat) (szAlign o.sz.toNat) with
        | some c => .trap c ea
        | none => m.loadNow o (m.spGet ea.toNat (szBytes o.sz.toNat))) s

/-- STS (R278). -/
def execSts (h : Hdr) (o : L) (s : State) : Out :=
  issueWord (.sts h o) h (storePorts o)
    (fun m a =>
      let ea := lAddr o (a.v 0) (a.v 1)
      if !a.act then .done m
      else
        match m.spBad ea.toNat (szBytes o.sz.toNat) (szAlign o.sz.toNat) with
        | some c => .trap c ea
        | none => .done (m.spPut ea.toNat (storeBytes o a))) s

/-- Address of element k of a burst (R279). -/
def burstAt (o : L) (ea k : Nat) : Nat := ea + k * (szBytes o.sz.toNat * 2 ^ o.sc.toNat)

/-- Ports of a burst (R279, R280). -/
def burstPorts (o : L) : Ports := { Ports.none with srcs := [o.base, o.index], resumes := fun p => decide (1 ≤ p.k) && decide (p.k < p.n) }

/-- One element of a burst: `none` while it waits. -/
def Mach.burstElem (m : Mach) (o : L) (load act : Bool) (ea : Nat) : Option Mach :=
  let q := qNum o.data
  let row := o.sz == 7
  if load then
    (if (if row then freeSlots q (m.k.rq? q) else freeSlots q (m.k.sq? q)) = 0 then none
     else
       let bytes := m.spGet ea (szBytes o.sz.toNat)
       some (m.ctx fun k =>
         if row then k.pushR q (if act then loadLanes bytes else zeroRow) (if act then BitVec.allOnes 64 else 0)
         else k.pushS q (if act then loadValue o.sz.toNat bytes else 0) act))
  else if row then
    (match popSlot (m.k.rq? q) with
     | none => none
     | some (e, l) =>
       let m := m.ctx fun k => k.setRq q l
       some (if act then m.spPut ea (storeBytes o ⟨true, [], true, [], [e]⟩) else m))
  else
    match popSlot (m.k.sq? q) with
    | none => none
    | some (e, l) =>
      let m := m.ctx fun k => k.setSq q l
      some (if act then m.spPut ea (storeBytes o ⟨true, [0, 0, e.val], true, [true, true, e.valid], []⟩) else m)

/-- Elements k to n − 1, as many as can be done now. -/
def Mach.burstLoop (o : L) (load act : Bool) (ea n : Nat) : Nat → Nat → Mach → Nat × Mach
  | 0, k, m => (k, m)
  | fuel + 1, k, m =>
    if n ≤ k then (k, m)
    else
      match m.burstElem o load act (burstAt o ea k) with
      | none => (k, m)
      | some m => Mach.burstLoop o load act ea n fuel (k + 1) m

/-- Body of `LDQ` and `STQ` (R279, R280). -/
def burstBody (o : L) (load : Bool) (m : Mach) (a : Opnds) : Res :=
  let size := szBytes o.sz.toNat
  let (k, n, ea) : Nat × Nat × Word :=
    match m.t.prog with
    | some p => (p.k, p.n, p.base.getD (lAddr { o with sc := 0 } (a.v 0) 0))
    | none => (0, (a.v 1).toNat, lAddr { o with sc := 0 } (a.v 0) 0)
  let bad :=
    if k ≠ 0 then none
    else if 65535 < n then some ((0x12 : BitVec 8), W n)
    else if n = 0 || !a.act then none
    else if ea.toNat % szAlign o.sz.toNat ≠ 0 then some (0x11, ea)
    else if m.k.bd.ssize < burstAt o ea.toNat (n - 1) + size then some (0x12, ea)
    else none
  match bad with
  | some (c, v) => .trap c v
  | none =>
    if n = 0 then .done m
    else
      let (k', m) := Mach.burstLoop o load a.act ea.toNat n n k m
      let w := if load then Why.slot else .queue
      if k' = n then .done m
      else if k' = 0 then .wait w
      else .hold (m.str fun t => { t with prog := some ⟨k', n, some ea⟩ }) w

/-- LDQ (R279). -/
def execLdq (h : Hdr) (o : L) (s : State) : Out := issueWord (.ldq h o) h (burstPorts o) (burstBody o true) s

/-- STQ (R279). -/
def execStq (h : Hdr) (o : L) (s : State) : Out := issueWord (.stq h o) h (burstPorts o) (burstBody o false) s

/-- Address of an atomic: BASE plus 18 bits of OFF (R281). -/
def atomAddr (o : L) (base : Word) : Word := base + (o.off.extractLsb' 0 18).signExtend 64

/-- An ordered atomic (R282). -/
def atomOrd (o : L) : Bool := o.off.getLsbD 18

/-- Bytes of an atomic (R281). -/
def atomBytes (o : L) : Nat := if o.sz = 3 then 8 else 4

/-- The new value of an atomic on n bytes, if it writes one (R281). -/
def atomNew (op n : Nat) (signed : Bool) (old v cmp : Nat) : Option Nat :=
  let w := 8 * n
  let v := v % 2 ^ w
  let less := fun (a b : Nat) => if signed then decide (sPat w a < sPat w b) else decide (a < b)
  match op with
  | 0 => some v
  | 1 => some ((old + v) % 2 ^ w)
  | 2 => some (old &&& v)
  | 3 => some (old ||| v)
  | 4 => some (old ^^^ v)
  | 5 => some (if less v old then v else old)
  | 6 => some (if less old v then v else old)
  | _ => if old = cmp % 2 ^ w then some v else none

/-- The atomic is signed: 64 bits, or SZ = 6 (R281). -/
def atomSigned (o : L) : Bool := o.sz != 2

/-- The old value of an atomic, extended (R281). -/
def atomOld (n : Nat) (signed : Bool) (old : Nat) : Word := extLoad n signed old

/-- Ports of an atomic (R281): `.cas` reads DATA too. -/
def atomPorts (o : L) : Ports :=
  { Ports.none with srcs := [o.base, o.index] ++ (if o.sc = 7 then [o.data] else []), dsts := [o.data] }

/-- Every class of `FENCE.all` is done (R264, R282). -/
def Ctx.fencedAll (k : Ctx) : Bool := k.loadsDone && k.stores.isEmpty && k.eng.cmds.all (·.left)

/-- SATOM (R281). -/
def execSatom (h : Hdr) (o : L) (s : State) : Out :=
  issueWord (.satom h o) h (atomPorts o)
    (fun m a =>
      let ea := atomAddr o (a.v 0)
      let n := atomBytes o
      if !a.act then .done (m.put o.data false 0 false)
      else
        match m.spBad ea.toNat n n with
        | some c => .trap c ea
        | none =>
          if atomOrd o && !m.k.fencedAll then .wait .earlier
          else
            let old := leNat (m.spGet ea.toNat n)
            let m := match atomNew o.sc.toNat n (atomSigned o) old (a.v 1).toNat (a.v 2).toNat with
              | some v => m.spPut ea.toNat ((leBytes n v).zipIdx.map fun (b : Byte × Nat) => (b.2, b.1))
              | none => m
            .done (m.put o.data true (atomOld n (atomSigned o) old) true)) s

/-- What a store needs of its page, and what an atomic needs (R416). -/
def Ctx.needSt (k : Ctx) : Need := ⟨false, true, false, some maskLs, some k.sr.pkp⟩
@[inherit_doc Ctx.needSt] def Ctx.needRw (k : Ctx) : Need := ⟨true, true, false, some maskLs, some k.sr.pkp⟩

/-- The pieces of an access that lie in pages of 64 KiB: address and length. -/
def pagePieces (va n : Nat) : List (Nat × Nat) :=
  (upTo ((va + n - 1) / 65536 + 1 - va / 65536)).map fun i =>
    let lo := max va (65536 * (va / 65536 + i))
    (lo, min (va + n) (65536 * (va / 65536 + i + 1)) - lo)

/-- Bytes of a load. -/
def LoadEnt.size (l : LoadEnt) : Nat := match l.kind with
  | .plain n _ => n
  | .row => 256
  | .atomic _ n _ _ _ => n

/-- The physical address of an offset of a load. -/
def Seg.at_ (g : Seg) (off : Nat) : Nat := g.pa + (off - g.off)

/-- What a load reads from the page of an offset. -/
def LoadEnt.seg (l : LoadEnt) (off : Nat) : Seg :=
  (l.segs.find? fun g => decide (g.off ≤ off) && decide (off < g.off + g.n)).getD ⟨0, 0, 0, 0, .cached⟩

/-- What a fill needs of its page: sr.pkp is that of the word that started it (R406, R416). -/
def Fill.need (f : Fill) : Need := ⟨true, false, false, some maskLs, some f.pkp⟩

/-- Translate a piece of a window row, whose address R287 gives as an exact number: one of 2^54 or more fails its translation
(R411). -/
def State.lookRow (s : State) (core : Nat) (k : Ctx) (va : Nat) (n : Need) : Look × State :=
  if 2 ^ 54 ≤ va then (.trap 0x15, s) else s.look core k (W va) n

/-- Where a fill reads (R289): physical address, length, whether it is the window. -/
def State.fillSpans (s : State) (core : Nat) (k : Ctx) (f : Fill) : List (Nat × Nat × Bool) :=
  if !f.live then []
  else
    (pagePieces f.va f.n).filterMap fun p =>
      match (s.lookRow core k p.1 f.need).1 with
      | .ok t => some (t.pa, p.2, t.path == .window)
      | _ => none

/-- Sectors of a range that go beyond the L2 to an expander (R256, R285). -/
def State.farCount (s : State) (core pa n : Nat) : Nat := ((sectorsOf pa n).filter fun sec => s.farAt core (64 * sec) 1).length

/-- Accesses of a load to an expander. -/
def State.farLoad (s : State) (core : Nat) (l : LoadEnt) : Nat :=
  (l.parts.map fun p => s.farCount core ((l.seg p.1).at_ p.1) p.2).sum

/-- Accesses of a context that go beyond the L2 to an expander, sector by sector, of its words and fills with a number below
`id` (R256, R285). -/
def State.cxlBefore (s : State) (core : Nat) (k : Ctx) (id : Nat) : Nat :=
  ((k.loads.filter fun l => decide (l.id < id)).map (s.farLoad core)).sum +
  (k.stores.filter fun e => decide (e.id < id) && s.farAt core e.pa 1).length +
  ((k.fills.filter fun f => decide (f.id < id)).flatMap fun f => (s.fillSpans core k f).map fun r => s.farCount core r.1 r.2.1).sum

/-- All of them. -/
def State.cxlOut (s : State) (core : Nat) (k : Ctx) : Nat := s.cxlBefore core k k.nextId

/-- Those of a core, whose running context stands as `k`. -/
def State.coreCxl (s : State) (x : CtxRef) (k : Ctx) : Nat :=
  s.cxlOut x.core.toNat k + match s.ctx? (otherBank x) with
    | some o => s.cxlOut x.core.toNat o
    | none => 0

/-- A fill or a write-back has its turn at the expander: fewer than 256 of the accesses issued before it are outstanding, the
loads of the other context among them (R285). -/
def State.cxlTurn (s : State) (x : CtxRef) (k : Ctx) (id : Nat) : Bool :=
  let core := x.core.toNat
  decide (s.cxlBefore core k id + (match s.ctx? (otherBank x) with
    | some o => (o.loads.map (s.farLoad core)).sum
    | none => 0) < 256)

/-- The core has no room for n more accesses to an expander beside those outstanding (R285). -/
def Mach.cxlFull (m : Mach) (n : Nat) : Bool := decide (256 < m.s.coreCxl m.x m.k + n)

/-- A word has started more of them than may be outstanding: the later words of the A stream wait behind it (R285). -/
def Mach.cxlMark (m : Mach) : Mach := m.ctx fun k => { k with cxlOver := decide (256 < m.s.coreCxl m.x k) }

/-- The contexts of a core whose A stream waits so go on once at most 256 are outstanding (R285). -/
def State.cxlSettle (s : State) (x : CtxRef) : State :=
  [x, otherBank x].foldl (fun s x =>
    match s.ctx? x with
    | some k => if k.cxlOver then s.setCtx x { k with cxlOver := decide (256 < s.coreCxl x k) } else s
    | none => s) s

/-- A translated piece of an access: its address, its bytes, its offset in the access or in the partition. -/
structure GPiece where
  va : Nat
  n : Nat
  off : Nat
  t : Target
  deriving DecidableEq, Repr

/-- Translate and check an access of the A stream, up to what it may wait for (R277, R283, R285, R305). Cause 0x14 reports the
effective address (R277). -/
inductive GAcc where
  | ok (l : List GPiece) (s : State)
  | stop (r : Res)

/-- Translate the pieces of an access in order: address, length, offset. One that issues whole wants room for every access of
it to an expander, of which `used` have been counted; another wants room for one (R285). The address of a fault is that of the
piece that meets it (R401, log 55). -/
def Mach.reachPieces (m : Mach) (need : Need) (whole : Bool) : Nat → List (Nat × Nat × Nat) → State → GAcc
  | _, [], s => .ok [] s
  | used, (va, n, off) :: rest, s =>
    match s.lookRow m.core m.k va need with
    | (.trap c, _) => .stop (.trap c (W va))
    | (.wait w, _) => .stop (.wait w)
    | (.ok t, s) =>
      if s.farAt m.core t.pa n && s.expDead t.pa then .stop (.wait (.expander (W va)))
      else if s.farAt m.core t.pa n && m.cxlFull (if whole then used + s.farCount m.core t.pa n else 1) then .stop (.wait .cxl)
      else if need.rd && (s.poisonAt t n).1 then .stop (.trapWith (fun m => { m with s := (s.poisonAt t n).2 }) 0x1B (W va))
      else
        match Mach.reachPieces m need whole (used + s.farCount m.core t.pa n) rest s with
        | .ok l s => .ok (⟨va, n, off, t⟩ :: l) s
        | r => r

@[inherit_doc GAcc] def Mach.gAccess (m : Mach) (ea : Word) (n align : Nat) (need : Need) : GAcc :=
  if ea.toNat % align ≠ 0 then .stop (.trap 0x11 ea)
  else
    match m.reachPieces need true 0 ((pagePieces ea.toNat n).map fun p => (p.1, p.2, p.1 - ea.toNat)) m.s with
    | .stop (.trap c va) => .stop (.trap c (if c = 0x14 then ea else va))
    | r => r

/-- A result register or a reserved slot for a load (R117, R130). -/
def Ctx.loadDst (k : Ctx) (data : BitVec 6) (row : Bool) : Dst × Ctx :=
  if isQ data then (if row then k.reserveR (qNum data) else k.reserveS (qNum data))
  else if isR data then (.reg data.toNat, k)
  else (.none, k)

/-- Issue a load (R283). -/
def Mach.issueLoad (m : Mach) (l : List GPiece) (ea : Word) (data : BitVec 6) (kind : LoadKind) (parts : List (Nat × Nat)) : Mach :=
  m.ctx fun k =>
    let (d, k) := k.loadDst data (kind == .row)
    { k with
      loads := k.loads ++ [{ id := k.nextId, va := ea.toNat, segs := l.map fun p => ⟨p.off, p.n, p.t.pa, p.t.acc.tag, p.t.path⟩,
                             kind := kind, dst := d, parts := parts, got := [], late := false }]
      nextId := k.nextId + 1 }

/-- LDG (R283). -/
def execLdg (h : Hdr) (o : L) (s : State) : Out :=
  issueWord (.ldg h o) h (loadPorts o)
    (fun m a =>
      let ea := lAddr o (a.v 0) (a.v 1)
      let n := szBytes o.sz.toNat
      if !a.act then m.loadSkip o
      else
        match m.gAccess ea n (szAlign o.sz.toNat) m.k.needLd with
        | .stop r => r
        | .ok l s =>
          let m := { m with s := s }
          if o.sz = 7 then .done (m.issueLoad l ea o.data .row [(0, 64), (64, 64), (128, 64), (192, 64)])
          else .done (m.issueLoad l ea o.data (.plain n (4 ≤ o.sz.toNat && o.sz.toNat ≤ 6)) [(0, n)])) s

/-- Put a store into the store buffer (R257). -/
def Ctx.issueStore (k : Ctx) (va pa tag : Nat) (path : Path) (bytes : List (Nat × Byte)) : Ctx :=
  if bytes.isEmpty then k
  else { k with stores := k.stores ++ [⟨k.nextId, va, pa, tag, path, bytes⟩], nextId := k.nextId + 1 }

/-- Put an access of n bytes into the store buffer, sector by sector (R256, R257). -/
def Ctx.issueStores (k : Ctx) (va pa n tag : Nat) (path : Path) (bytes : List (Nat × Byte)) : Ctx :=
  (sectorsOf pa n).foldl (fun (k : Ctx) sec =>
    let lo := 64 * sec - pa
    k.issueStore (va + lo) (pa + lo) tag path
      ((bytes.filter fun (b : Nat × Byte) => (pa + b.1) / 64 == sec).map fun (b : Nat × Byte) => (b.1 - lo, b.2))) k

/-- Put the translated pieces of an access into the store buffer; `bytes` by offset in the access. -/
def Ctx.issuePieces (k : Ctx) (l : List GPiece) (bytes : List (Nat × Byte)) : Ctx :=
  l.foldl (fun (k : Ctx) p =>
    k.issueStores p.va p.t.pa p.n p.t.acc.tag p.t.path
      ((bytes.filter fun (b : Nat × Byte) => decide (p.off ≤ b.1) && decide (b.1 < p.off + p.n)).map fun (b : Nat × Byte) =>
        (b.1 - p.off, b.2))) k

/-- STG (R283). -/
def execStg (h : Hdr) (o : L) (s : State) : Out :=
  issueWord (.stg h o) h (storePorts o)
    (fun m a =>
      let ea := lAddr o (a.v 0) (a.v 1)
      if !a.act then .done m
      else
        match m.gAccess ea (szBytes o.sz.toNat) (szAlign o.sz.toNat) m.k.needSt with
        | .stop r => r
        | .ok l s => .done ({ m with s := s }.ctx fun k => k.issuePieces l (storeBytes o a))) s

/-- GATOM (R281, R284). -/
def execGatom (h : Hdr) (o : L) (s : State) : Out :=
  issueWord (.gatom h o) h (atomPorts o)
    (fun m a =>
      let ea := atomAddr o (a.v 0)
      let n := atomBytes o
      if !a.act then .done (m.put o.data false 0 false)
      else
        match m.gAccess ea n n m.k.needRw with
        | .stop r => r
        | .ok l s =>
          if atomOrd o && !m.k.fencedAll then .wait .earlier
          else
            let m := { m with s := s }.issueLoad l ea o.data
              (.atomic o.sc.toNat n (atomSigned o) (a.v 1) (a.v 2)) [(0, n)]
            .done (m.ctx fun k => { k with fenced := k.fenced || atomOrd o })) s

/-- Two ranges of bytes meet. -/
def rangesMeet (a n b l : Nat) : Bool := decide (a < b + l) && decide (b < a + n)

/-- Bytes from the start of a store to its last one. -/
def StoreEnt.size (e : StoreEnt) : Nat := e.bytes.foldl (fun n b => max n (b.1 + 1)) 0

/-- A load is an atomic. -/
def LoadEnt.atomic (l : LoadEnt) : Bool := match l.kind with
  | .atomic _ _ _ _ _ => true
  | _ => false

/-- A load that has not returned meets an access of n bytes, or both are to the window. -/
def LoadEnt.meets (e : LoadEnt) (pa n : Nat) (win : Bool) : Bool :=
  e.segs.any fun g => rangesMeet g.pa g.n pa n || (win && g.path == .window)

/-- An earlier access of the stream keeps an access of n bytes waiting, issued as number `id` (R255, R268, R269): a load or a
fill that meets it, a store that does when it waits for stores, any window access before one to the window. -/
def State.held (s : State) (core : Nat) (k : Ctx) (id pa n : Nat) (win stores : Bool) : Bool :=
  k.loads.any (fun e => decide (e.id < id) && e.meets pa n win) ||
  k.stores.any (fun e => decide (e.id < id) && ((stores && rangesMeet e.pa e.size pa n) || (win && e.path == .window))) ||
  k.fills.any (fun f => f.orders && decide (f.id < id) &&
    (s.fillSpans core k f).any fun r => rangesMeet r.1 r.2.1 pa n || (win && r.2.2))

/-- A part of a load waits for an earlier access; its own earlier stores supply a load, and hold an atomic (R255). -/
def State.loadHeld (s : State) (core : Nat) (k : Ctx) (l : LoadEnt) (off len : Nat) : Bool :=
  s.held core k l.id ((l.seg off).at_ off) len ((l.seg off).path == .window) l.atomic

/-- A byte of the stream's own earlier stores, if one of them holds it (R255). -/
def Ctx.ownByte (k : Ctx) (id pa : Nat) : Option Byte :=
  k.stores.foldl (fun r e => if id ≤ e.id then r else
    match e.bytes.find? fun b => e.pa + b.1 == pa with
    | some b => some b.2
    | none => r) none

/-- An atomic on a sector at the stove's L2 (R284). -/
def State.l2Atomic (s : State) (a : Acc) (sec : Nat) (f : Sec → List (Nat × Byte)) : Sec × State :=
  let (v, s) := s.l2Read a sec
  (v, if (f v).isEmpty then s else s.l2Write a sec (f v))

/-- Read a sector where atomics and latch operations on a page are performed, and write the bytes that `f` says (R284): `far`
past the L2. The line leaves the issuing core's L1. -/
def State.pointAtomic (s : State) (p : Path) (far : Bool) (a : Acc) (sec : Nat) (f : Sec → List (Nat × Byte)) : Sec × State :=
  let (v, s) := match p with
    | .cached =>
      let (v, s) := if far then s.pkgAtomic a sec f else s.l2Atomic a sec f
      (v, s.l1Drop a.core sec)
    | .msc => s.mscAtomic a sec f
    | .window => s.pkgAtomic a sec f
  (v, if (f v).isEmpty || p == .window then s else s.aliens [sec])

/-- An atomic on n bytes at its point (R256, R284): the old value, and whether its sector is poisoned, when it has no effect
(R305). -/
def State.atomicAt (s : State) (p : Path) (far : Bool) (a : Acc) (pa n : Nat) (f : Nat → Option Nat) : Nat × Bool × State :=
  let old := fun (v : Sec) => leNat (secBytes v.data (pa % 64) n)
  let (v, s) := s.pointAtomic p far a (pa / 64) fun v =>
    match (if v.poison then none else f (old v)) with
    | none => []
    | some x => (leBytes n x).zipIdx.map fun (b : Byte × Nat) => (pa % 64 + b.2, b.1)
  (old v, v.poison, s)

/-- One part of a load is read (R256): its bytes, and whether a sector of them is poisoned. -/
def State.loadPart (s : State) (core : Nat) (k : Ctx) (l : LoadEnt) (off len : Nat) : List Byte × Bool × State :=
  let g := l.seg off
  let a : Acc := ⟨core, k.bd.vdev, g.tag, 0⟩
  match l.kind with
  | .atomic op n signed v cmp =>
    let (old, poison, s) := s.atomicAt g.path false a (g.at_ off) n (fun old => atomNew op n signed old v.toNat cmp.toNat)
    (leBytes n old, poison, s)
  | _ =>
    let (bytes, poison, s) := s.pathBytes g.path a (g.at_ off) len
    (lmapIdx (fun i b => (k.ownByte l.id (g.at_ off + i)).getD b) bytes, poison, s)

/-- Deliver a load that has all its bytes (R275, R281). -/
def Ctx.loaded (k : Ctx) (l : LoadEnt) : Ctx :=
  let bytes := (upTo l.size).map fun i => tget 0 l.got i
  match l.kind with
  | .plain n signed => k.deliver l.dst (extLoad n signed (leNat bytes)) true
  | .row => k.deliverRow l.dst (loadLanes bytes) (BitVec.allOnes 64)
  | .atomic _ n signed _ _ => k.deliver l.dst (atomOld n signed (leNat bytes)) true

/-- An access at a physical address that would go to an expander that does not respond (R466). -/
def State.deadAt (s : State) (core pa n : Nat) : Bool := s.expDead pa && s.farAt core pa n

/-- A part of a load would have to come from an expander that does not respond (R466). -/
def State.partDead (s : State) (core : Nat) (l : LoadEnt) (off len : Nat) : Bool := s.deadAt core ((l.seg off).at_ off) len

/-- A load of which a part would. -/
def State.loadDead (s : State) (core : Nat) (l : LoadEnt) : Bool := l.parts.any fun p => s.partDead core l p.1 p.2

/-- A part of a load is found poisoned after its word has issued (R305, log 18): the load has no effect and stays outstanding,
and the A stream takes cause 0x1B before its next word. The fence of an ordered atomic is put aside for the handler. -/
def Mach.latePoison (m : Mach) (va : Word) : Mach :=
  let n := m.takeTrap 0x1B va m.t.pc
  if n.t.plev && m.k.fenced then
    (n.ctx fun k => { k with fenced := false, fparked := some n.t.owed }).str fun t => { t with owed := 0 }
  else n

/-- The A stream can take a cause that is no word's at issue: it runs, or its context is being stopped (R425 step 3). -/
def Ctx.alive (k : Ctx) (st : Stream) : Bool :=
  !k.smask.getLsbD st.num &&
  (match k.run with
   | .ready | .stopping _ => true
   | _ => false)

/-- LOAD_DATA_RETURN (R285): a part of an outstanding load is read, and the last part delivers it. The cause of a poisoned one
is taken once, and again when the handler has returned (R305, log 18); met at level P it escalates (R402). An A stream that has
halted or ended takes none, and the load is dropped. -/
def execLoadDataReturn (x : CtxRef) (n part : Nat) (s : State) : Out :=
  match s.ctx? x with
  | none => .next s
  | some k =>
    match k.loads.find? fun (l : LoadEnt) => l.id == n with
    | none => .next s
    | some l =>
      match l.parts[part]? with
      | none => .next s
      | some (off, len) =>
        if s.loadHeld x.core.toNat k l off len || s.partDead x.core.toNat l off len then .next s
        else
          let (bytes, poison, t) := s.loadPart x.core.toNat k l off len
          if poison then
            let others := k.loads.filter fun (e : LoadEnt) => e.id != n
            if k.a.halted then .next ((s.setCtx x { k with loads := others }).cxlSettle x)
            else if k.alive .A && !(l.late && k.a.plev) then
              let k := { k with loads := k.loads.map fun (e : LoadEnt) => if e.id = n then { e with late := true } else e }
              .next (Mach.latePoison ⟨{ t with md := { t.md with cur := x, curSt := .A } }, k, .A⟩ (W (l.va + off))).close
            else .next s
          else
          let s := t
          let l := { l with parts := l.parts.eraseIdx part, got := (bytes.zipIdx).foldl (fun t b => tset 0 t (off + b.2) b.1) l.got }
          let k := if l.parts.isEmpty then { k with loads := k.loads.filter fun (e : LoadEnt) => e.id != n }.loaded l
            else { k with loads := k.loads.map fun (e : LoadEnt) => if e.id = n then l else e }
          .next ((s.setCtx x k).cxlSettle x)

/-- An earlier access keeps a store in the buffer (R255, R268, R289). -/
def State.storeHeld (s : State) (core : Nat) (k : Ctx) (e : StoreEnt) : Bool :=
  s.held core k e.id e.pa e.size (e.path == .window) true

/-- The stores that leave the buffer with one: at the MSC, whole sectors that cover a granule go as one write, which reads
nothing (R299). -/
def State.drainMates (s : State) (core : Nat) (k : Ctx) (e : StoreEnt) : List StoreEnt :=
  let whole := fun (q : StoreEnt) => q.pa % 64 = 0 && q.bytes.length = 64
  let secs := granuleOf (gOf e.tag) (e.pa / 64)
  let l := k.stores.filter fun q =>
    q.id == e.id || (q.path == .msc && q.tag == e.tag && whole q && secs.contains (q.pa / 64) && !s.storeHeld core k q)
  if e.path = .msc && whole e && secs.all fun x => l.any fun q => q.pa / 64 == x then l else [e]

/-- STORE_DRAIN (R257): a store leaves the store buffer. -/
def execStoreDrain (x : CtxRef) (n : Nat) (s : State) : Out :=
  match s.ctx? x with
  | none => .next s
  | some k =>
    match k.stores.find? fun (e : StoreEnt) => e.id == n with
    | none => .next s
    | some e =>
      let a : Acc := ⟨x.core.toNat, k.bd.vdev, e.tag, 0⟩
      if s.storeHeld x.core.toNat k e || s.deadAt x.core.toNat e.pa 1 || (s.farAt x.core.toNat e.pa 1 && !s.cxlTurn x k e.id) then .next s
      else
        let l := s.drainMates x.core.toNat k e
        let s := s.setCtx x { k with stores := k.stores.filter fun (q : StoreEnt) => !(l.any fun d => d.id == q.id) }
        let bytes := fun (d : StoreEnt) => d.bytes.map fun b => (d.pa + b.1, b.2)
        let l := (granuleOf (gOf e.tag) (e.pa / 64)).flatMap fun x => l.filter fun d => d.pa / 64 == x
        .next ((s.pathWrite e.path a (l.flatMap bytes)).cxlSettle x)

/-- PAGE_WALK (R412): a walk completes, and its stove and core hold what it has found (R417). -/
def execPageWalk (core : BitVec 8) (vdev : BitVec 6) (va : Word) (s : State) : Out :=
  match s.walk vdev.toNat va.toNat with
  | (.ok x, s) => .next (s.tlbHold core.toNat vdev.toNat x)
  | (_, s) => .next s

/-- Physical ranges of a region of virtual addresses, page by page of 64 KiB; unmapped ones hold no line. -/
def State.regionRanges (s : State) (core vdev base n : Nat) : List (Nat × Nat) :=
  let first := base / 65536
  (upTo ((base + n - 1) / 65536 + 1 - first)).filterMap fun i =>
    let lo := max base (65536 * (first + i))
    let hi := min (base + n) (65536 * (first + i + 1))
    match (s.xlate core vdev lo).1 with
    | .ok x => if lfTier x.leaf = 2 then none else some (x.pa lo, hi - lo)
    | _ => none

/-- A sector lies in one of the ranges. -/
def inRanges (rs : List (Nat × Nat)) (sec : Nat) : Bool := rs.any fun r => rangesMeet (64 * sec) 64 r.1 r.2

/-- Sectors that a stove's L2 holds in the ranges. -/
def State.l2Held (s : State) (stove : Nat) (rs : List (Nat × Nat)) : List (Nat × Sec) :=
  (s.ms.l2.filter fun p => p.1 / 2 ^ 46 == stove && inRanges rs (p.1 % 2 ^ 46)).map fun p => (p.1 % 2 ^ 46, p.2)

/-- Drop the ranges from a core's L1. -/
def State.l1DropRanges (s : State) (core : Nat) (rs : List (Nat × Nat)) : State :=
  s.mem fun m => { m with l1 := m.l1.filter fun p => !(p.1 / 2 ^ 46 == core && inRanges rs (p.1 % 2 ^ 46)) }

/-- Write the dirty sectors of the ranges that a stove's L2 holds to the MSC or the expander (R254). -/
def State.l2CleanRanges (s : State) (core vdev : Nat) (rs : List (Nat × Nat)) : State :=
  (s.l2Held (stoveOf core) rs).foldl (fun s p => s.l2Clean (stoveOf core) ⟨core, vdev, p.2.tag, 0⟩ p.1) s

/-- Drop the ranges from a stove's L2, discarding them. -/
def State.l2DropRanges (s : State) (stove : Nat) (rs : List (Nat × Nat)) : State :=
  (s.l2Held stove rs).foldl (fun s p => s.l2Drop stove p.1) s

/-- Drop the ranges from the MSC, written back when dirty (R265). -/
def State.mscDropRanges (s : State) (rs : List (Nat × Nat)) : State :=
  (s.ms.msc.filter fun p => inRanges rs p.1).foldl (fun s p => s.mscDrop p.1) s

/-- A dirty line of the ranges belongs to an expander that does not respond (R466). -/
def State.rangesDead (s : State) (stove : Nat) (rs : List (Nat × Nat)) : Bool :=
  (s.l2Held stove rs).any fun p => p.2.dirty && s.expDead (64 * p.1)

/-- The gang of a context lies on more than one stove (R254). -/
def State.gangSpread (s : State) (k : Ctx) : Bool :=
  match s.gang? k.bd.vdev k.bd.task with
  | none => false
  | some g =>
    match g.members ++ g.dormants with
    | [] => false
    | x :: t => t.any fun y => stoveOf y.core.toNat != stoveOf x.core.toNat

/-- The point of a scope lies past the L2 (R254): 0 core, 1 gang, 2 stove, 3 package, 4 system. -/
def State.scopeFar (s : State) (k : Ctx) (scope : Nat) : Bool :=
  if scope = 1 then s.gangSpread k else decide (3 ≤ scope)

/-- Invalidate ranges as an acquire at a scope does (R254). -/
def State.acquireRanges (s : State) (core : Nat) (k : Ctx) (scope : Nat) (rs : List (Nat × Nat)) : State :=
  if scope = 0 then s
  else
    let s := s.l1DropRanges core rs
    if s.scopeFar k scope then (s.l2CleanRanges core k.bd.vdev rs).l2DropRanges (stoveOf core) rs else s

/-- Clean ranges as a release at a scope does (R254). -/
def State.releaseRanges (s : State) (core : Nat) (k : Ctx) (scope : Nat) (rs : List (Nat × Nat)) : State :=
  if s.scopeFar k scope then s.l2CleanRanges core k.bd.vdev rs else s

/-- Physical ranges of a slot's region. -/
def State.latchRanges (s : State) (core : Nat) (k : Ctx) (q : Latch) : List (Nat × Nat) :=
  s.regionRanges core k.bd.vdev q.base.toNat (2 ^ q.n)

/-- Latch slot n. -/
def Ctx.latch? (k : Ctx) (n : Nat) : Option Latch := tget none k.latches n

/-- LBIND (R259). -/
def execLbind (h : Hdr) (o : S3) (s : State) : Out :=
  let slot := o.fn.toNat % 16
  issueWord (.lbind h o) h (s3Ports o)
    (fun m a =>
      let r := a.v 1
      let n := bits r 0 6
      let base := keep r 53 6
      if !a.act then .done (m.put o.dst false 0 false)
      else if bits r 54 10 ≠ 0 || (n ≠ 0 && (n < 6 || 53 < n)) || (n ≠ 0 && (a.v 0).toNat % 8 ≠ 0) || 2 ^ 54 < base.toNat + 2 ^ n then
        .trap 0x18 m.s.freeTval
      else
        let old := match m.k.latch? slot with
          | some q => q.latch
          | none => 0
        let new := if n = 0 then none else some ⟨a.v 0, base, n, o.fn.toNat / 32⟩
        .done ((m.ctx fun k => { k with latches := tset none k.latches slot new }).put o.dst true old a.valid)) s

/-- A latch operation up to its access: the slot, the latch's target, the region. -/
inductive LatchAt where
  | ok (q : Latch) (t : Target) (rs : List (Nat × Nat)) (s : State)
  | stop (r : Res)

/-- The checks and waits of a latch instruction (R260 to R262): bound slot, translation, loads returned. -/
def Mach.latchAt (m : Mach) (slot : Nat) (need : Need) (release : Bool) : LatchAt :=
  match m.k.latch? slot with
  | none => .stop (.trap 0x19 m.s.freeTval)
  | some q =>
    match m.s.look m.core m.k q.latch need with
    | (.trap c, _) => .stop (.trap c q.latch)
    | (.wait w, _) => .stop (.wait w)
    | (.ok t, s) =>
      let rs := s.latchRanges m.core m.k q
      let far := s.scopeFar m.k q.scope
      if s.expDead t.pa && (far || s.farAt m.core t.pa 8) then .stop (.wait (.expander q.latch))
      else if !m.k.loadsDone || (release && !m.k.released) then .stop (.wait .earlier)
      else if (s.pointAtomic t.path far t.acc (t.pa / 64) fun _ => []).1.poison then .stop (.trap 0x1B q.latch)
      else .ok q t rs s

/-- A clean or an invalidation of the slot's region would have to write a line of it to an expander that does not respond
(R254, R466). -/
def Mach.cleanDead (m : Mach) (q : Latch) (rs : List (Nat × Nat)) (s : State) : Bool :=
  s.scopeFar m.k q.scope && s.rangesDead (stoveOf m.core) rs

/-- The atomic operation of a latch at the point of its scope (R260). -/
def State.latchOp (s : State) (k : Ctx) (q : Latch) (t : Target) (f : Nat → Option Nat) : Word × State :=
  let (old, _, s) := s.atomicAt t.path (s.scopeFar k q.scope) t.acc t.pa 8 f
  (W old, s)

/-- ACQ (R260). -/
def execAcq (h : Hdr) (o : S3) (s : State) : Out :=
  issueWord (.acq h o) h (s3Ports1 o)
    (fun m a =>
      if !a.act then .done (m.put o.dst false 0 false)
      else
        match m.latchAt (o.fn.toNat % 16) m.k.needRw false with
        | .stop r => r
        | .ok q t rs s =>
          let v := (a.v 0).toNat
          if m.cleanDead q rs s then .wait (.expander s.freeTval)
          else
          let (old, s) := s.latchOp m.k q t fun old =>
            match o.fn.toNat / 64 with
            | 1 => if old = 0 then some v else none
            | 2 => some ((old + v) % 2 ^ 64)
            | _ => none
          .done ({ m with s := s.acquireRanges m.core m.k q.scope rs }.put o.dst true old a.valid)) s

/-- REL (R261). -/
def execRel (h : Hdr) (o : S3) (s : State) : Out :=
  issueWord (.rel h o) h (s3Ports1 o)
    (fun m a =>
      if !a.act then .done (m.put o.dst false 0 false)
      else
        match m.latchAt (o.fn.toNat % 16) m.k.needRw true with
        | .stop r => r
        | .ok q t rs s =>
          let v := (a.v 0).toNat
          if m.cleanDead q rs s then .wait (.expander s.freeTval)
          else
          let s := s.releaseRanges m.core m.k q.scope rs
          let (old, s) := s.latchOp m.k q t fun old => some (if o.fn.toNat / 64 = 1 then (old + v) % 2 ^ 64 else v)
          .done ({ m with s := s }.put o.dst true old a.valid)) s

/-- The condition of a `WAITW` (R262). -/
def waitwHolds (cond : Nat) (latch v : Word) : Bool :=
  match cond with
  | 0 => latch == v
  | 1 => latch != v
  | 2 => decide (v.toNat ≤ latch.toNat)
  | _ => decide (latch.toNat < v.toNat)

/-- A yielding wait begins, or goes on (R22, R431). -/
def yieldWait (i : Instr) (m : Mach) : Mach :=
  if m.t.waiting.isSome then m else (m.str fun t => { t with waiting := some i }).offerSwitch

/-- WAITW (R262). -/
def execWaitw (h : Hdr) (o : S3) (s : State) : Out :=
  issueWord (.waitw h o) h (s3Ports1 o)
    (fun m a =>
      if !a.act then .done (m.put o.dst false 0 false)
      else
        match m.latchAt (o.fn.toNat % 16) m.k.needLd false with
        | .stop r => r
        | .ok q t rs s =>
          let (old, s) := s.latchOp m.k q t fun _ => none
          if waitwHolds (o.fn.toNat / 32) old (a.v 0) then
            if m.cleanDead q rs s then .wait (.expander s.freeTval)
            else .done ({ m with s := s.acquireRanges m.core m.k q.scope rs }.put o.dst true old a.valid)
          else .park .latch (yieldWait (.waitw h o))) s

/-- Go on with the yielding wait of a context's A stream, whichever bank the core runs (R262, R263). -/
def State.retryWait (s : State) (x : CtxRef) (p : Instr → Bool) (run : Instr → State → Out) : Out :=
  match s.ctx? x with
  | none => .next s
  | some k =>
    match k.a.waiting with
    | none => .next s
    | some i =>
      if k.run != .ready || k.held || !p i then .next s
      else
        let old := s.running
        match run i ({ s with md := { s.md with cur := x, curSt := .A, rdv := 0 } }.runBank x) with
        | .next t => .next { t with running := tset 0 t.running x.core.toNat (tget 0 old x.core.toNat) }
        | r => r

/-- A `WAITW`. -/
def isWaitw : Instr → Bool
  | .waitw _ _ => true
  | _ => false

/-- WAITW_WAKE (R262): the condition is looked at, and when it holds the `WAITW` completes. -/
def execWaitwWake (x : CtxRef) (s : State) : Out :=
  s.retryWait x isWaitw fun i s =>
    match i with
    | .waitw h o => execWaitw h o s
    | _ => .next s

/-- Where the other contexts of a gang stand at the barrier that a context has reached (R263). -/
inductive Meet where
  | all
  | notYet
  | halted (rank : Nat)
  deriving DecidableEq, Repr

/-- A member of the gang has arrived at barrier k − 1, or has halted before it. -/
def State.memberAt (s : State) (me : CtxRef) (task : Word) (k : Nat) (p : CtxRef × Nat) : Meet :=
  if p.1 = me then .all
  else
    match s.ctx? p.1 with
    | none => if s.saved.any fun (q : Saved) => q.x == p.1 && q.k.bd.task == task then .notYet else .halted p.2
    | some c =>
      if c.bd.task ≠ task then .halted p.2
      else if k ≤ c.garrived then .all
      else if c.a.halted then .halted p.2
      else .notYet

/-- The meeting of a barrier (R263). A `GBAR` in a dormant context completes without waiting (R448). -/
def State.meet (s : State) (x : CtxRef) (k : Ctx) (n : Nat) : Meet :=
  match s.gang? k.bd.vdev k.bd.task with
  | none => .all
  | some g =>
    if k.bd.dormant then .all
    else
      let ms := g.members.zipIdx.map fun p => s.memberAt x k.bd.task n p
      if ms.all (· == .all) then .all
      else
        match ms.find? fun r => match r with
          | .halted _ => true
          | _ => false with
        | some r => r
        | none => .notYet

/-- Physical ranges of every bound region (R263). -/
def State.allRanges (s : State) (core : Nat) (k : Ctx) : List (Nat × Nat) :=
  (upTo 16).flatMap fun n => match k.latch? n with
    | some q => s.latchRanges core k q
    | none => []

/-- Body of `GBAR` (R263). -/
def gbarBody (i : Instr) (o : S3) (m : Mach) (a : Opnds) : Res :=
  if !a.act then .done (m.put o.dst false 0 false)
  else
    let here := m.k.gbars < m.k.garrived
    let rs := m.s.allRanges m.core m.k
    let dead := m.s.gangSpread m.k && m.s.rangesDead (stoveOf m.core) rs
    if !here && !m.k.released then .wait .earlier
    else if !here && o.fn.getLsbD 0 && dead then .wait (.expander m.s.freeTval)
    else
      let arrive := fun (m : Mach) =>
        if here then m
        else
          let s := if o.fn.getLsbD 0 then m.s.releaseRanges m.core m.k 1 rs else m.s
          { m with s := s }.ctx fun k => { k with garrived := k.gbars + 1 }
      let depart := fun (m : Mach) =>
        let m := arrive m
        let s := if o.fn.getLsbD 1 then m.s.acquireRanges m.core m.k 1 rs else m.s
        ({ m with s := s }.ctx fun k => { k with gbars := k.gbars + 1 }).put o.dst true (W m.k.gbars) true
      match m.s.meet m.x m.k (m.k.gbars + 1) with
      | .all =>
        if o.fn.getLsbD 1 && dead then .park (.expander m.s.freeTval) arrive
        else .done (depart m)
      | .halted rank => .trapWith (fun m => (arrive m).ctx fun k => { k with garrived := k.gbars }) 0x1A (W rank)
      | .notYet => .park .barrier fun m => yieldWait i (arrive m)

/-- GBAR (R263). -/
def execGbar (h : Hdr) (o : S3) (s : State) : Out :=
  issueWord (.gbar h o) h { Ports.none with dsts := [o.dst] } (gbarBody (.gbar h o) o) s

/-- A `GBAR`. -/
def isGbar : Instr → Bool
  | .gbar _ _ => true
  | _ => false

/-- GBAR_DEPART (R263): a waiting `GBAR` leaves when the gang has arrived, or takes cause 0x1A. -/
def execGbarDepart (x : CtxRef) (s : State) : Out :=
  s.retryWait x isGbar fun i s =>
    match i with
    | .gbar h o => execGbar h o s
    | _ => .next s

/-- A command of a grate. -/
def Cmd.isGrate (c : Cmd) : Bool := decide (0x5F ≤ c.opc) && decide (c.opc ≤ 0x64)

/-- The selected waits of a `FENCE` are over (R264). -/
def Ctx.fenceDone (k : Ctx) (fn : BitVec 8) : Bool :=
  let atoms := k.loads.any LoadEnt.atomic
  (!fn.getLsbD 0 || k.loadsDone) && (!fn.getLsbD 1 || (k.stores.isEmpty && !atoms)) &&
  (!fn.getLsbD 3 || k.eng.cmds.all fun c => c.isGrate || c.left) &&
  (!fn.getLsbD 4 || k.eng.cmds.all fun c => !c.isGrate || c.left)

/-- FENCE (R264). -/
def execFence (h : Hdr) (o : S3) (s : State) : Out :=
  issueWord (.fence h o) h Ports.none
    (fun m a => if !a.act || m.k.fenceDone o.fn then .done m else .wait .earlier) s

/-- What `CMO` does to one page of its range (R265): op 1 clean, 2 invalidate, 3 both. -/
def State.cmoPage (s : State) (core vdev op level : Nat) (rs : List (Nat × Nat)) : State :=
  let s := if op ≠ 2 && level = 2 then s.l2CleanRanges core vdev rs else s
  if op = 1 then s
  else
    let s := s.l1DropRanges core rs
    let s := if 1 ≤ level then s.l2DropRanges (stoveOf core) rs else s
    if level = 2 then s.mscDropRanges rs else s

/-- Translate a page of a `CMO` (R265): it writes no byte of the page, so it does not wait for one that is migrating. Where the
leaf has changed under a held copy, it walks again (R418). -/
def State.cmoReach (core vdev va : Nat) (need : Need) : Nat → State → Reach × State
  | 0, s => (.wait, s)
  | fuel + 1, s =>
    match s.xlateFor core vdev va fun e => (need.check e).isSome with
    | (.fail p, s) => (.trap 0x15 p, s)
    | (.pending, s) => (.wait, s)
    | (.ok x, s) =>
      match need.check x.leaf with
      | some e => (.trap e false, s)
      | none =>
        match s.adUpdate x false with
        | (true, x, s) => (.ok x, s)
        | (false, _, s) => State.cmoReach core vdev va need fuel s

/-- What going over the pages of a `CMO` comes to. -/
inductive CmoRes where
  | ok (s : State)
  | trap (cause : BitVec 8) (va : Word) (s : State)
  | wait (w : Why)

/-- The pages of a `CMO`, 64 KiB at a time from chunk `c` on, over the bytes lo to hi − 1 (R265). The word is a store to them:
an earlier load, store, atomic or fill of the stream that meets them comes first (R255, R269). -/
def State.cmoPages (core : Nat) (k : Ctx) (op level lo hi : Nat) : Nat → Nat → State → CmoRes
  | 0, _, s => .ok s
  | fuel + 1, c, s =>
    let va := max lo (65536 * c)
    match State.cmoReach core k.bd.vdev va ⟨op == 1, op != 1, false, some maskLs, some k.sr.pkp⟩ 2 s with
    | (.trap e _, s) => .trap e (W va) s
    | (.wait, _) => .wait .migrating
    | (.ok x, s) =>
      let rs := if lfTier x.leaf = 2 then [] else [(x.pa va, min hi (65536 * (c + 1)) - va)]
      if rs.any fun r => s.held core k k.nextId r.1 r.2 false true then .wait .earlier
      else if op ≠ 2 && level = 2 && s.rangesDead (stoveOf core) rs then .wait (.expander (W va))
      else State.cmoPages core k op level lo hi fuel (c + 1) (s.cmoPage core k.bd.vdev op level rs)

/-- CMO (R265): of class ST (R269); a clean waits for every earlier store. -/
def execCmo (h : Hdr) (o : L) (s : State) : Out :=
  issueWord (.cmo h o) h { Ports.none with srcs := [o.base, o.data] }
    (fun m a =>
      let size := (a.v 1).toNat
      let op := o.sz.toNat
      if !a.act || size = 0 then .done m
      else if 2 ^ 40 < size then .trap 0x18 m.s.freeTval
      else if op ≠ 2 && !m.k.stores.isEmpty then .wait .earlier
      else
        let ea := (a.v 0 + o.off.signExtend 64).toNat
        let lo := ea / 64 * 64
        let hi := (ea + size + 63) / 64 * 64
        match State.cmoPages m.core m.k op o.sc.toNat lo hi ((hi - 1) / 65536 + 1 - lo / 65536) (lo / 65536) m.s with
        | .ok s => .done { m with s := s }
        | .trap c va s => .trapWith (fun m => { m with s := s }) c va
        | .wait w => .wait w) s

end Sys2Proof.Machine
end

