-- ==== Sys2Proof/Machine/Windows.lean ====
section
/-! DEFINITION. Windows: WBIND, WADV, WREL, LDW, and the completion of a fill (spec/11 R287 to R295). -/
namespace Sys2Proof.Machine

/-- sr.tval of cause 0x13 (R294). -/
def winTval (reason slot value : Nat) : Word := W (reason * 2 ^ 60 + slot * 2 ^ 56 + value % 2 ^ 56)

/-- The declared shape of a slot (R274, R287). -/
def Ctx.winShape (k : Ctx) (slot : Nat) : Option WinShape := tfind k.bd.wins slot

/-- The bound window of a slot (R287). -/
def Ctx.win? (k : Ctx) (slot : Nat) : Option Win := tget none k.wins slot

/-- Write a slot. -/
def Ctx.setWin (k : Ctx) (slot : Nat) (w : Option Win) : Ctx := { k with wins := tset none k.wins slot w }

/-- Offset in the partition of the ring slot of a row (R287). -/
def WinShape.slotOf (sh : WinShape) (t : Nat) : Nat := sh.ring + t % sh.ringRows * sh.rowBytes

/-- Virtual address of a row (R287). -/
def Win.rowVa (w : Win) (t : Nat) : Nat := w.base.toNat + t * w.stride.toNat

/-- Start the fill of a row (R289): whatever was held for its ring slot is over, once complete. A fill that starts again
after a fault of the row keeps the note of what `STS` words have written meanwhile (R293). -/
def Ctx.startFill (k : Ctx) (slot : Nat) (sh : WinShape) (w : Win) (t : Nat) : Ctx :=
  { k with
    fills := (k.fills.filter fun (f : Fill) => !(f.done && f.off == sh.slotOf t)) ++
      [{ id := k.nextId, slot := slot, row := t, va := w.rowVa t, n := sh.rowBytes, off := sh.slotOf t,
         zero := decide (sh.rows ≤ t), pkp := k.sr.pkp, done := false,
         touched := (k.rowFaults.filter fun (f : RowFault) => f.slot == slot && f.row == t).flatMap RowFault.touched }]
    rowFaults := k.rowFaults.filter fun (f : RowFault) => !(f.slot == slot && f.off == sh.slotOf t)
    nextId := k.nextId + 1 }

/-- Start the fills of n rows from `t` on. -/
def Ctx.startFills (k : Ctx) (slot : Nat) (sh : WinShape) (w : Win) (t n : Nat) : Ctx :=
  (upTo n).foldl (fun (k : Ctx) i => k.startFill slot sh w (t + i)) k

/-- WBIND (R288). -/
def execWbind (h : Hdr) (o : S3) (s : State) : Out :=
  let slot := o.fn.toNat % 16
  issueWord (.wbind h o) h (s3Ports o)
    (fun m a =>
      let base := (a.v 0).toNat
      let stride := (a.v 1).toNat
      if !a.act then .done (m.put o.dst false 0 false)
      else
        match m.k.winShape slot with
        | none => .trap 0x13 (winTval 2 slot 0)
        | some sh =>
          if (m.k.win? slot).isSome then .trap 0x13 (winTval 3 slot 0)
          else if base % 64 ≠ 0 || 2 ^ 54 ≤ base || stride % 64 ≠ 0 || 2 ^ 32 ≤ stride || (sh.rw && stride < sh.rowBytes) then
            .trap 0x13 (winTval 4 slot 0)
          else
            let w : Win := ⟨a.v 0, a.v 1, 0, 0⟩
            .done ((m.ctx fun k => (k.setWin slot (some w)).startFills slot sh w 0 sh.ringRows).cxlMark.put o.dst true (W sh.ring)
              a.valid)) s

/-- Bytes of a ring as a window operation reads them: a sector that an engine has written and no `DEQ` has ordered is
undefined (R293). -/
def State.ringRead (s : State) (core : Nat) (k : Ctx) (off n : Nat) : List Byte :=
  lmapIdx (fun i b =>
    if k.eng.ringWrites.any fun w => decide (w.2.2.1 / 64 ≤ (off + i) / 64) && decide ((off + i) / 64 * 64 < w.2.2.1 + w.2.2.2) then
      Config.freeByte (s.md.tick * 2 ^ 52 + 2 ^ 51 + off + i)
    else b) (s.spRead core (k.bd.sbase + off) n)

/-- The same for the context at hand. -/
def Mach.ringGet (m : Mach) (off n : Nat) : List Byte := m.s.ringRead m.core m.k off n

/-- The rows from `t` on, n of them, that a write-back stores (R291): those within the bound, with their ring slots. -/
def backRows (sh : WinShape) (w : Win) (t n : Nat) : List (Nat × Nat) :=
  ((upTo n).filter fun i => decide (t + i < sh.rows)).map fun i => (w.rowVa (t + i), sh.slotOf (t + i))

/-- Their pieces: address, length, offset in the partition. -/
def backPieces (sh : WinShape) (w : Win) (t n : Nat) : List (Nat × Nat × Nat) :=
  (backRows sh w t n).flatMap fun r => (pagePieces r.1 sh.rowBytes).map fun p => (p.1, p.2, r.2 + (p.1 - r.1))

/-- Read the ring and store the pieces (R291, R293). -/
def Mach.storeBacks (m : Mach) (l : List GPiece) : Mach :=
  l.foldl (fun (m : Mach) p =>
    let bytes := (m.ringGet p.off p.n).zipIdx.map fun (b : Byte × Nat) => (b.2, b.1)
    m.ctx fun k => k.issueStores p.va p.t.pa p.n p.t.acc.tag p.t.path bytes) m

/-- A fill of one of the rows from `t` on is under way. -/
def Ctx.filling (k : Ctx) (slot t n : Nat) : Bool :=
  k.fills.any fun (f : Fill) => !f.done && f.slot == slot && decide (t ≤ f.row) && decide (f.row < t + n)

/-- Write back n rows from `t` on, and go on with `f` (R291). A row whose fill is under way is waited for, and one whose fill has
failed is written back with what its ring slot holds (log 56, DESIGN CHOICE). -/
def Mach.writeBack (m : Mach) (slot : Nat) (sh : WinShape) (w : Win) (t n : Nat) (f : Mach → Res) : Res :=
  if !sh.rw then f m
  else if m.k.filling slot t n then .wait .row
  else
    match m.reachPieces m.k.needSt false 0 (backPieces sh w t n) m.s with
    | .stop r => r
    | .ok l s => f ({ m with s := s }.storeBacks l).cxlMark

/-- WADV (R291). -/
def execWadv (h : Hdr) (o : SI) (s : State) : Out :=
  let slot := o.imm.toNat % 16
  issueWord (.wadv h o) h { Ports.none with srcs := [o.s1], dsts := [o.dst] }
    (fun m a =>
      let n := (a.v 0).toNat
      if !a.act then .done (m.put o.dst false 0 false)
      else
        match m.k.winShape slot, m.k.win? slot with
        | some sh, some w =>
          if sh.ringRows < n then .trap 0x13 (winTval 8 slot n)
          else
            m.writeBack slot sh w w.origin n fun m =>
              let w' := { w with origin := w.origin + n }
              .done ((m.ctx fun k =>
                (k.setWin slot (some w')).startFills slot sh w' (w'.origin + sh.ringRows - n) n).cxlMark.put o.dst true
                (W w'.origin) a.valid)
        | _, _ => .trap 0x13 (winTval 1 slot 0)) s

/-- Release a slot: fills under way go on into the ring, and nothing is held against its rows (R292). -/
def Ctx.releaseWin (k : Ctx) (slot : Nat) : Ctx :=
  { k.setWin slot none with
    fills := (k.fills.filter fun (f : Fill) => !(f.done && f.slot == slot)).map fun (f : Fill) =>
      if f.slot = slot then { f with slot := 16 } else f
    rowFaults := k.rowFaults.filter fun (f : RowFault) => f.slot != slot }

/-- WREL (R292). -/
def execWrel (h : Hdr) (o : S3) (s : State) : Out :=
  let slot := o.fn.toNat % 16
  issueWord (.wrel h o) h { Ports.none with dsts := [o.dst] }
    (fun m a =>
      if !a.act then .done (m.put o.dst false 0 false)
      else
        match m.k.winShape slot, m.k.win? slot with
        | some sh, some w =>
          (match o.fn.toNat / 16 with
           | 0 => m.writeBack slot sh w w.origin sh.ringRows fun m =>
               .done ((m.ctx fun k => k.releaseWin slot).put o.dst true (W w.vio) a.valid)
           | 1 => .done (m.put o.dst true (W w.origin) a.valid)
           | _ => .done (m.put o.dst true (W w.vio) a.valid))
        | _, _ => .trap 0x13 (winTval 1 slot 0)) s

/-- Window slot of an `LDW` (R290). -/
def ldwSlot (o : L) : Nat := o.off.toNat / 32768

/-- Byte position of an `LDW` in its row, an exact number (R290). -/
def ldwByte (o : L) (index : Word) : Nat := index.toNat * 2 ^ o.sc.toNat + o.off.toNat % 32768

/-- `LDW` of a mapped row at a byte position that passes the checks (R289, R290). -/
def ldwMapped (o : L) (slot t b : Nat) (sh : WinShape) (w : Win) (m : Mach) : Res :=
  match m.k.rowFaults.find? fun (f : RowFault) => f.slot == slot && f.row == t with
  | some f =>
    if f.taken then .park .row fun m => m.ctx fun k => k.startFill slot sh w t
    else
      .trapWith (fun m => m.ctx fun k => { k with rowFaults := k.rowFaults.map fun (g : RowFault) =>
        if g.slot == slot && g.row == t then { g with taken := true } else g, rowMark := some f.poisoned }) f.cause f.va
  | none =>
    if m.k.filling slot t 1 then .wait .row
    else
      let m := m.ctx fun k => { k with fills := k.fills.filter fun (f : Fill) => !(f.slot == slot && f.row == t) }
      m.loadNow o (m.ringGet (sh.slotOf t + b) (szBytes o.sz.toNat))

/-- LDW (R290). -/
def execLdw (h : Hdr) (o : L) (s : State) : Out :=
  let slot := ldwSlot o
  let size := szBytes o.sz.toNat
  issueWord (.ldw h o) h (loadPorts o)
    (fun m a =>
      let t := (a.v 0).toNat
      let b := ldwByte o (a.v 1)
      if !a.act then m.loadSkip o
      else
        match m.k.winShape slot, m.k.win? slot with
        | some sh, some w =>
          if sh.rows ≤ t then
            (if sh.faultPol then .trap 0x13 (winTval 5 slot t)
             else (m.ctx fun k => k.setWin slot (some { w with vio := w.vio + 1 })).loadNow o (List.replicate size 0))
          else if t < w.origin || w.origin + sh.ringRows ≤ t then .trap 0x13 (winTval 6 slot t)
          else if sh.rowBytes < b + size then .trap 0x13 (winTval 7 slot b)
          else if b % szAlign o.sz.toNat ≠ 0 then .trap 0x11 (W (sh.slotOf t + b))
          else ldwMapped o slot t b sh w m
        | _, _ => .trap 0x13 (winTval 1 slot 0)) s

/-- What reading the memory of a fill comes to (R289). -/
inductive FillRes where
  | ok (bytes : List Byte) (s : State)
  | fault (cause : BitVec 8) (va : Nat) (poisoned : Bool) (s : State)
  | wait

/-- The first poisoned sector of a piece. -/
def State.poisonedSec (s : State) (t : Target) (n : Nat) : Option Nat :=
  (sectorsOf t.pa n).find? fun sec => (s.pathRead t.path t.acc sec).1.poison

/-- Read the pieces of a fill, as loads issued by the word that started it (R255, R289). -/
def State.fillPieces (core : Nat) (k : Ctx) (f : Fill) : List (Nat × Nat) → State → FillRes
  | [], s => .ok [] s
  | (va, n) :: rest, s =>
    match s.lookRow core k va f.need with
    | (.trap c, t) => .fault c va (c == 0x15 && s.walkHurt k.bd.vdev va) t
    | (.wait _, _) => .wait
    | (.ok t, s) =>
      if s.deadAt core t.pa n then .wait
      else
        match s.poisonedSec t n with
        | some sec => .fault 0x1B (va + (64 * sec - t.pa)) false s
        | none =>
          let (bytes, _, s) := s.pathBytes t.path t.acc t.pa n
          let bytes := lmapIdx (fun i b => (k.ownByte f.id (t.pa + i)).getD b) bytes
          match State.fillPieces core k f rest s with
          | .ok l s => .ok (bytes ++ l) s
          | r => r

/-- Write the bytes of a fill into its ring slot; a byte that an `STS` has written meanwhile is undefined (R293). The slot lies
where the descriptor puts it: `sxld` keeps a ring within the partition (R274), and no rule has the device check that (log 56,
DESIGN CHOICE). -/
def State.fillRing (s : State) (core : Nat) (k : Ctx) (f : Fill) (bytes : List Byte) : State :=
  s.mem fun m =>
    { m with spad := memPut m.spad (bytes.zipIdx.map fun (b : Byte × Nat) =>
        (core * 2 ^ 22 + k.bd.sbase + f.off + b.2,
         if f.touched.contains (f.off + b.2) then Config.freeByte (s.md.tick * 2 ^ 52 + f.off + b.2) else b.1)) }

/-- A fill is over: released ones are forgotten, the others stay until an `LDW` has read the row (R293). -/
def Ctx.fillDone (k : Ctx) (f : Fill) : Ctx :=
  if f.slot = 16 then { k with fills := k.fills.filter fun (g : Fill) => g.id != f.id }
  else { k with fills := k.fills.map fun (g : Fill) => if g.id = f.id then { g with done := true, touched := [] } else g }

/-- A fill has failed: the fault is held against its row (R289). -/
def Ctx.fillFault (k : Ctx) (f : Fill) (cause : BitVec 8) (va : Nat) (poisoned : Bool) : Ctx :=
  { k with
    fills := k.fills.filter fun (g : Fill) => g.id != f.id
    rowFaults := if f.slot = 16 then k.rowFaults
                 else k.rowFaults ++ [⟨f.slot, f.row, f.off, f.n, cause, W va, poisoned, false, f.touched⟩] }

/-- The fill of a row that completes next: an earlier fill of the same ring slot precedes it, unless its window has been
released (R292), and so does an earlier access that its reads meet (R255, R268, R295); it waits for its turn at an expander
(R285). -/
def State.nextFill (s : State) (x : CtxRef) (k : Ctx) (slot row : Nat) : Option Fill :=
  let core := x.core.toNat
  (k.fills.find? fun (f : Fill) => !f.done && f.slot == slot && f.row == row).filter fun (f : Fill) =>
    !(k.fills.any fun (g : Fill) => !g.done && g.slot != 16 && decide (g.id < f.id) && rangesMeet g.off g.n f.off f.n) &&
    !((s.fillSpans core k f).any fun r => s.held core k f.id r.1 r.2.1 r.2.2 false) &&
    (((s.fillSpans core k f).all fun r => !s.farAt core r.1 r.2.1) || s.cxlTurn x k f.id)

/-- WINDOW_FILL_COMPLETE (R289): a fill of the row for the slot, or else one whose window has been released. -/
def execWindowFillComplete (x : CtxRef) (slot : BitVec 4) (row : Word) (s : State) : Out :=
  match s.ctx? x with
  | none => .next s
  | some k =>
    let core := x.core.toNat
    match (s.nextFill x k slot.toNat row.toNat).or (s.nextFill x k 16 row.toNat) with
    | none => .next s
    | some f =>
      if f.zero then .next ((s.fillRing core k f (List.replicate f.n 0)).setCtx x (k.fillDone f))
      else
        match State.fillPieces core k f (pagePieces f.va f.n) s with
        | .wait => .next s
        | .fault c va p s => .next ((s.setCtx x (k.fillFault f c va p)).cxlSettle x)
        | .ok bytes s => .next (((s.fillRing core k f bytes).setCtx x (k.fillDone f)).cxlSettle x)

end Sys2Proof.Machine
end

