-- ==== Sys2Proof/Machine/Area.lean ====
section
/-! DEFINITION. The layout of the context save area (spec/18 R435 to R437): what each dword of it holds. The places that
R435 does not give within the engine and queue sections are the model's (log 31). -/
namespace Sys2Proof.Machine

/-- sr.mrow as a stop leaves it (R246, R425): the row at which the M stream's word goes on. -/
def Ctx.mrowAt (k : Ctx) : Word :=
  match k.m.prog with
  | some p => if p.k = 0 then k.sr.mrow else W (2 ^ 63 + p.k)
  | none => k.sr.mrow

/-- sr.bdone and the count saved with it, as a stop leaves them (R280, R425). -/
def Ctx.bdoneAt (k : Ctx) : Word × Nat :=
  match k.a.prog with
  | some p => if p.k = 0 then (k.sr.bdone, k.sr.bcount) else (W (2 ^ 63 + p.k), p.n)
  | none => (k.sr.bdone, k.sr.bcount)

/-- MSTAT.part (R250); 0 for the second bank of the split 512/0, which has no slot (R433, log 31). -/
def Binding.part (b : Binding) : Word := if b.slots = 0 then 0 else W (b.slot0 + 16 * b.slots)

/-- Header dword i (R435). -/
def areaHeader (s : State) (x : CtxRef) (k : Ctx) (i : Nat) : Word :=
  match i with
  | 0 => s.ctxWord x k
  | 1 => W k.bd.det
  | 2 => k.sr.tdir
  | 3 => k.sr.pkmask.setWidth 64
  | 4 => k.mrowAt
  | 5 => k.bdoneAt.1
  | 6 => W k.bdoneAt.2
  | 7 => k.bd.part
  | 8 => k.bd.recAddr
  | 9 => k.sr.inject
  | _ => 0

/-- Scalar registers of a stream (R10). -/
def scalarRegs (st : Stream) : Nat := match st with | .A => 32 | _ => 16

/-- Dword i of a stream area (R436). A context that is dormant has no running stream: its streams are written as halted. -/
def areaStream (k : Ctx) (st : Stream) (i : Nat) : Word :=
  let t := k.str st
  if i < 0x20 then (if i < scalarRegs st then t.reg i else 0)
  else
    match i with
    | 0x20 => t.pc
    | 0x21 => W (b2n t.plev + 2 * b2n (t.halted || k.run == .dormant) + 256 * (t.guards ||| 1).toNat)
    | 0x22 => t.fpmode
    | 0x23 => t.tvec
    | 0x24 => t.cause
    | 0x25 => t.epc
    | 0x26 => t.tval
    | 0x27 => t.mloop
    | 0x28 => t.mround
    | 0x29 => t.mtrip
    | 0x2A => t.psave0
    | 0x2B => t.psave1
    | _ => 0

/-- Context register slot i (R397, R435): registers with one copy per stream stand in the stream areas. -/
def areaReg (s : State) (x : CtxRef) (k : Ctx) (i : Nat) : Word :=
  if i = 0x002 then 0
  else if i = 0x00A then W s.time
  else (Mach.mk { s with md := { s.md with cur := x } } k .A).srValue i

/-- Dword i of the latch slots (R258, R435). -/
def areaLatch (k : Ctx) (i : Nat) : Word :=
  match k.latch? (i / 4) with
  | none => 0
  | some q => (match i % 4 with
    | 0 => q.latch
    | 1 => q.base
    | 2 => W q.n
    | _ => W q.scope)

/-- Dword i of the window slots (R287, R435). -/
def areaWindow (k : Ctx) (i : Nat) : Word :=
  match k.win? (i / 4) with
  | none => 0
  | some w => (match i % 4 with
    | 0 => w.base
    | 1 => w.stride
    | 2 => W w.origin
    | _ => W w.vio)

/-- Dword i of the heads (R206, R435). -/
def areaHead (s : State) (x : CtxRef) (k : Ctx) (i : Nat) : Word :=
  let h := k.head (i / 8)
  if !h.bound then 0
  else
    match i % 8 with
    | 0 => k.headState h (match s.tape? x.core.toNat k h.handle with
      | some d => d.len
      | none => 0)
    | 1 => W h.handle
    | 2 => WI h.v
    | 3 => WI h.mk0
    | 4 => WI h.mk1
    | 5 => WI h.mk2
    | 6 => WI h.mk3
    | _ => 0

/-- A dword of a list of records of two dwords. -/
def pairDword (l : List (Word × Word)) (i : Nat) : Word :=
  match l[i / 2]? with
  | none => 0
  | some p => if i % 2 = 0 then p.1 else p.2

/-- Records of a result FIFO as pairs. -/
def recPairs (k : Ctx) (eng : Nat) : List (Word × Word) :=
  ((tget [] k.eng.recs eng).map fun (r : CRec) => (r.info, r.value))

/-- Unretired commands of an engine that will produce records. -/
def EngSt.reserved (e : EngSt) (eng : Nat) : Nat :=
  (e.cmds.filter fun (c : Cmd) =>
    (match eng with
     | 0 => decide (0x58 ≤ c.opc) && decide (c.opc ≤ 0x5E)
     | 1 => c.opc == 0x69 || c.opc == 0x6B
     | _ => [0x60, 0x61, 0x62, 0x64].contains c.opc)).length

/-- Unretired commands that hold a chimney credit (R318, R455). -/
def EngSt.credited (e : EngSt) (det : Nat) : Nat :=
  (e.cmds.filter fun (c : Cmd) => decide (0x5F ≤ c.opc) && decide (c.opc ≤ 0x64) && !(c.opc == 0x64 && det == 1)).length

/-- Dword i of the engine section (R435; its inner layout: log 31). -/
def areaEngine (k : Ctx) (i : Nat) : Word :=
  if i < 0x20 then pairDword (recPairs k 0) i
  else if i < 0x40 then pairDword (recPairs k 1) (i - 0x20)
  else if i < 0x80 then pairDword (recPairs k 2) (i - 0x40)
  else if i < 0x83 then W ((recPairs k (i - 0x80)).length + 256 * k.eng.reserved (i - 0x80))
  else if 0x88 ≤ i && i < 0xC8 then pairDword k.evq (i - 0x88)
  else if 0xC9 ≤ i && i < 0xD1 then tget 0 k.arms (i - 0xC9)
  else
    match i with
    | 0x83 => (match k.eng.eqFail with
      | some f => f.1.setWidth 64
      | none => 0)
    | 0x84 => (match k.eng.eqFail with
      | some f => f.2.1
      | none => 0)
    | 0x85 => (match k.eng.eqFail with
      | some f => f.2.2.setWidth 64
      | none => 0)
    | 0x86 => W (k.eng.gfail % 2 ^ 32 + k.eng.gfailSeq.toNat * 2 ^ 32 + k.eng.gfailStatus.toNat * 2 ^ 48)
    | 0x87 => W (64 - k.eng.credited k.bd.det)
    | 0xC8 => W k.evq.length
    | _ => 0

/-- A byte list as its dword i. -/
def bytesDword (l : List Byte) (i : Nat) : Word := W (leNat ((l.drop (8 * i)).take 8))

/-- A row as its dword i: lanes 2i and 2i + 1. -/
def rowDword (r : Row) (i : Nat) : Word := W ((r.getD (2 * i) 0).toNat + (r.getD (2 * i + 1) 0).toNat * 2 ^ 32)

/-- Entries and reserved slots of a queue, as its count dword; the oldest entry stands in slot 0. -/
def slotCount {α : Type} (l : List (Slot α)) : Word :=
  let full := (l.filter fun x => match x with
    | .full _ => true
    | .held _ => false).length
  W (full + (l.length - full) * 2 ^ 8)

/-- Dword i of a row entry of 0x108 bytes: 256 data bytes, then the mask. -/
def rowEntDword (e : RowEnt) (i : Nat) : Word := if i < 0x20 then rowDword e.lanes i else e.mask

/-- Tokens that a context's streams still owe a FIFO (R115): they are written with its count. -/
def Ctx.owedTokens (k : Ctx) (n : Nat) : Nat :=
  (Stream.all.filter fun st => (k.str st).owed != 0 && (fifosOut st (k.str st).owed).contains n).length

/-- Dword i of the queue section (R435). -/
def areaQueue (k : Ctx) (i : Nat) : Word :=
  if i < 0x100 then
    match (k.sq? (i / 0x20))[i % 0x20 / 2]? with
    | some (.full e) => if i % 2 = 0 then e.val else W (b2n e.valid)
    | _ => 0
  else if i < 0x940 then
    let j := i - 0x100
    match (k.rq? (8 + j / 0x108))[j % 0x108 / 0x21]? with
    | some (.full e) => rowEntDword e (j % 0x108 % 0x21)
    | _ => 0
  else if i < 0x948 then slotCount (k.sq? (i - 0x940))
  else if i < 0x950 then slotCount (k.rq? (i - 0x940))
  else if i = 0x950 then W (leNat ((upTo 8).map fun n => BitVec.ofNat 8 (k.tokens n + k.owedTokens n)))
  else 0

/-- The code that a buffer's encoding is saved as (R437): 15 for none (log 31). -/
def StatBuf.encCode (b : StatBuf) : Nat := b.enc.getD 15

/-- Buffer b of array a is in front (R222, R231). -/
def Ctx.isFront (k : Ctx) (a b : Nat) : Bool := tget 0 k.mat.front a == b

/-- Dword i of the descriptor of buffer n = 2a + b (R437). -/
def areaBuffer (x : CtxRef) (k : Ctx) (n i : Nat) : Word :=
  let b := tget StatBuf.clear k.mat.bufs n
  if i = 0 then
    W (b.encCode + b.tag * 16 + b2n (k.isFront (n / 2) (n % 2)) * 256 + b2n (k.bd.twoBuf || n % 2 == b2n x.bank) * 512)
  else if 2 ≤ i && i < 18 then
    W (leNat ((upTo 8).map fun l => tget (0x7F : Byte) b.scales (8 * (i - 2) + l)))
  else 0

/-- An accumulator row as one bit string (R437). -/
def accRowBits : List AccEnt → Nat
  | [] => 0
  | e :: t => e.v.toNat + b2n e.sticky * 2 ^ 104 + b2n e.ovf * 2 ^ 105 + 2 ^ 106 * accRowBits t

/-- Tile and row of accumulator row n of the partition (R437). -/
def Binding.accAt (b : Binding) (n : Nat) : Nat × Nat := (8 * (n / 64 / b.slots) + b.slot0 + n / 64 % b.slots, n % 64)

/-- Dword i of the accumulator rows. -/
def areaAcc (k : Ctx) (i : Nat) : Word :=
  let p := k.bd.accAt (i / 106)
  W (accRowBits (k.mat.tileRow p.1 p.2) / 2 ^ (64 * (i % 106)))

/-- Bytes of the area of a partition of n slots (R435). -/
def areaSize (slots : Nat) : Nat := 0x3C000 + 0x350 * 64 * 3 * slots

/-- The row entries popped by an unfinished `TREC` or `TUPD` (R200, R435), put aside while a handler runs or not. -/
def Ctx.dHeld (k : Ctx) : List RowEnt := if k.dpopped.isEmpty then (k.dparked.map (·.1)).getD [] else k.dpopped

/-- Dword at offset 8i of the save area (R435). -/
def areaWord (s : State) (x : CtxRef) (k : Ctx) (i : Nat) : Word :=
  if i < 0x20 then areaHeader s x k i
  else if i < 0x220 then areaStream k (Stream.ofCl (BitVec.ofNat 2 ((i - 0x20) / 0x80))) ((i - 0x20) % 0x80)
  else if i < 0x2A0 then areaReg s x k (i - 0x220)
  else if i < 0x2E0 then areaLatch k (i - 0x2A0)
  else if i < 0x320 then areaWindow k (i - 0x2E0)
  else if i < 0x3A0 then areaHead s x k (i - 0x320)
  else if i < 0x600 then areaEngine k (i - 0x3A0)
  else if i < 0x1000 then areaQueue k (i - 0x600)
  else if i < 0x1840 then
    match k.dHeld[(i - 0x1000) / 0x21]? with
    | some e => rowEntDword e ((i - 0x1000) % 0x21)
    | none => 0
  else if i < 0x18C0 then k.vec.mask ((i - 0x1840) / 16) ((i - 0x1840) % 16)
  else if i < 0x1940 then
    let t := if i < 0x1900 then k.vec.tbl else k.mat.tbl
    W (leNat ((upTo 4).flatMap fun l => leBytes 2 (tget 0 t (4 * ((i - 0x18C0) % 0x40) + l)).toNat))
  else if i < 0x1944 then k.mat.tsReg (i - 0x1940)
  else if i < 0x194A then W (leNat ((upTo 4).flatMap fun l => leBytes 2 (tget 0 k.mat.anchors (4 * (i - 0x1944) + l)).toNat))
  else if i < 0x1960 then 0
  else if i < 0x1A20 then areaBuffer x k ((i - 0x1960) / 0x20) ((i - 0x1960) % 0x20)
  else if i < 0x2000 then 0
  else if i < 0x6000 then
    let j := i - 0x2000
    rowDword (tget zeroRow k.vec.regs (16 * (j / 0x200) + j % 0x200 / 0x20)) (j % 0x20)
  else if i < 0x7800 then
    let j := i - 0x6000
    let b := tget StatBuf.clear k.mat.bufs (j / 0x400)
    W (leNat ((upTo 4).flatMap fun l => leBytes 2 ((tget 0 b.codes (4 * (j % 0x400) + l)).toNat % 2 ^ 16)))
  else areaAcc k (i - 0x7800)

/-- The dwords that an engine's result changes (R434): the A stream, the registers, the engine and queue sections. -/
def lateDwords : List Nat := (upTo 0x1000).filter fun i => (0x20 ≤ i && i < 0xA0) || (0x220 ≤ i && i < 0x2A0) || (0x3A0 ≤ i)

/-- A result delivered while a context is saved is written into its area (R434). -/
def State.areaUpdate (s : State) (p : Saved) (k : Ctx) : State :=
  lateDwords.foldl (fun (s : State) i =>
    let v := areaWord s p.x k i
    if i ≠ 0x22A && v ≠ areaWord s p.x p.k i then s.pkgPutWord (p.area + 8 * i) v else s) s

/-- A step of another agent on a context that is saved: it is put at its place, and what it gets is written into its
area. The context that is bound there meanwhile is not touched. -/
def State.onSaved (s : State) (p : Saved) (f : State → State) : State :=
  let s' := f (s.setCtx p.x p.k)
  let k := (s'.ctx? p.x).getD p.k
  let back : State :=
    match s.ctx? p.x with
    | some b => s'.setCtx p.x b
    | none => { s' with ctxs := tdel s'.ctxs (ctxKey p.x) }
  { back.areaUpdate p k with saved := s'.saved.map fun (q : Saved) => if q.x = p.x && q.area = p.area then { q with k := k } else q }

end Sys2Proof.Machine
end

