-- ==== Sys2Proof/Machine/Control.lean ====
section
/-! DEFINITION. Branches, the modulo sequencer, queue state, and stream control (spec/05 R121 to R125, spec/06 R143 to
R148, spec/16 R404 to R406). -/
namespace Sys2Proof.Machine

/-- Take a transfer, or cause 0x01 at a misaligned target (R92, R143). -/
def branchTo (m : Mach) (target : Word) (f : Mach → Mach) : Res :=
  if bits target 0 3 ≠ 0 then .trap 0x01 target else .stay ((f m).jump target)

/-- The word's target: its own address plus 8 × OFF (R77). -/
def sbTarget (o : SB) (pc : Word) : Word := pc + 8 * o.off.signExtend 64

/-- BR (R143). -/
def execBr (h : Hdr) (o : SB) (s : State) : Out :=
  issueWord (.br h o) h Ports.none (fun m a => if a.act then branchTo m (sbTarget o m.t.pc) id else .done m) s

/-- CALL (R143). -/
def execCall (h : Hdr) (o : SB) (s : State) : Out :=
  issueWord (.call h o) h { Ports.none with dsts := [o.s1] }
    (fun m a => if a.act then branchTo m (sbTarget o m.t.pc) (fun m' => m'.put o.s1 true (m.t.pc + 8) true) else .done m) s

/-- RET (R143). -/
def execRet (h : Hdr) (o : SB) (s : State) : Out :=
  issueWord (.ret h o) h { Ports.none with srcs := [o.s1] }
    (fun m a => if a.act then branchTo m (a.v 0) id else .done m) s

/-- JMPR (R143). -/
def execJmpr (h : Hdr) (o : SB) (s : State) : Out :=
  issueWord (.jmpr h o) h { Ports.none with srcs := [o.s1] }
    (fun m a => if a.act then branchTo m (sbTarget o (a.v 0)) id else .done m) s

/-- BRQ (R124): an invalid entry does not branch. -/
def execBrq (h : Hdr) (o : SB) (s : State) : Out :=
  issueWord (.brq h o) h { Ports.none with srcs := [o.s1] }
    (fun m a => if a.act && a.valid && a.v 0 != 0 then branchTo m (sbTarget o m.t.pc) id else .done m) s

/-- A word that may not stand in a modulo body (R93). -/
def bodyForbids (i : Instr) : Bool :=
  match i with
  | .br _ _ | .call _ _ | .ret _ _ | .jmpr _ _ | .brq _ _ | .modl _ _ | .eret _ _ | .halt _ _ => true
  | _ => false

/-- What the check of a body gives (R93). -/
inductive BodyCheck where
  /-- every word is legal; the highest stage -/
  | ok (s : Nat)
  | trap (cause : BitVec 8) (at_ : Word)
  | wait
  deriving DecidableEq, Repr

/-- Check n words of a body from an address on (R93, R121). A word that R91 forbids at the stream's level is illegal for
the check as well (log 54, DESIGN CHOICE). -/
def Mach.checkBody (m : Mach) : Nat → Word → Nat → BodyCheck
  | 0, _, s => .ok s
  | n + 1, a, s =>
    if !m.k.bd.inText m.st a then .trap 0x03 a
    else
      match m.fetchAt a with
      | (.trap c, _) => .trap c a
      | (.wait, _) => .wait
      | (.word w, m) =>
        match decode w with
        | .error _ => .trap 0x03 a
        | .ok i =>
          match i.hdr? with
          | none => .trap 0x03 a
          | some h =>
            if bodyForbids i || h.cl != m.st.cl || (!m.t.plev && privilegedAtU i m.k.sr.pkmask) then .trap 0x03 a
            else Mach.checkBody m n (a + 8) (max s h.ms.toNat)

/-- Body of `MODL` (R121, R123). -/
def modlBody (o : ML) (m : Mach) (a : Opnds) : Res :=
  let len := o.len.toNat
  match m.checkBody len (m.t.pc + 8) 0 with
  | .trap c at_ => .trap c at_
  | .wait => .wait .migrating
  | .ok st =>
    let trip := if a.act then min (a.v 0).toNat (2 ^ 64 - 8) else 0
    if trip = 0 then .stay (m.jump (m.t.pc + W (8 * (len + 1))))
    else
      let m := m.jump (m.t.pc + 8)
      .stay (m.str fun t =>
        { t with mloop := mlMake true st len o.ii.toNat 0, mround := 0, mtrip := W trip, inBody := true })

/-- MODL (R121). -/
def execModl (h : Hdr) (o : ML) (s : State) : Out :=
  issueWord (.modl h o) h { Ports.none with srcs := [o.trip] } (modlBody o) s

/-- Producer of a queue (R116). -/
def queueFrom (q : Nat) : Stream :=
  if q ∈ [0, 1, 2, 8, 10] then .A else if q ∈ [3, 6, 9, 11, 14] then .V else if q ∈ [4, 7, 12, 13] then .M else .D

/-- Consumer of a queue (R116). -/
def queueTo (q : Nat) : Stream :=
  if q ∈ [3, 4, 5, 9, 15] then .A else if q ∈ [0, 8, 12] then .V else if q ∈ [1, 6, 10, 11] then .M else .D

/-- From and To of a token FIFO (R115). -/
def fifoEnds (n : Nat) : Stream × Stream :=
  match n with
  | 0 => (.A, .V) | 1 => (.V, .A) | 2 => (.V, .M) | 3 => (.M, .V) | 4 => (.M, .D) | 5 => (.D, .M) | 6 => (.D, .A)
  | _ => (.A, .D)

/-- The word of `QSTAT` for a queue or a FIFO (R125). -/
def Ctx.qstat (k : Ctx) (fifo : Bool) (n : Nat) : Word :=
  let hb := fun (st : Stream) => b2n (k.str st).halted
  if fifo then
    let (f, t) := fifoEnds n
    W (k.tokens n + (8 - k.tokens n) * 2 ^ 8 + hb f * 2 ^ 16 + hb t * 2 ^ 17)
  else
    let (p, free, v) :=
      if n < 8 then
        (present (k.sq? n), freeSlots n (k.sq? n), match popSlot (k.sq? n) with
          | some (e, _) => e.valid
          | none => false)
      else
        (present (k.rq? n), freeSlots n (k.rq? n), match popSlot (k.rq? n) with
          | some (e, _) => e.mask != 0
          | none => false)
    W (p + free * 2 ^ 8 + hb (queueFrom n) * 2 ^ 16 + hb (queueTo n) * 2 ^ 17 + b2n v * 2 ^ 24)

/-- The context whose queues a word sees: in a rendezvous, the one that stood before the set issued, with the word's own
tokens popped (R114). -/
def Mach.seen (m : Mach) (h : Hdr) : Ctx :=
  match m.s.md.view with
  | some k => ((⟨m.s, k, m.st⟩ : Mach).payOwed.k).popTokens (fifosIn m.st h.pb)
  | none => m.k

/-- QSTAT (R125): the slot that its own push has reserved at its issue is not free (R117). -/
def execQstat (h : Hdr) (o : S3) (s : State) : Out :=
  issueWord (.qstat h o) h { Ports.none with dsts := [o.dst] }
    (fun m a =>
      let k := m.seen h
      let k := if isQ o.dst then (k.reserveS (qNum o.dst)).2 else k
      .done (m.put o.dst a.act (k.qstat (o.fn.getLsbD 5) (o.fn.toNat % 16)) true)) s

/-- Set a key's two bits in sr.pkp: ad from bit 0, wd from bit 1 (R406). -/
def pkpSet (p : Word) (key : Nat) (v : Word) : Word :=
  (p &&& ~~~((3 : Word) <<< (2 * key))) ||| ((v &&& 3) <<< (2 * key))

/-- PKW (R406). -/
def execPkw (h : Hdr) (o : S3) (s : State) : Out :=
  let key := o.fn.toNat % 32
  issueWord (.pkw h o) h (s3Ports1 o)
    (fun m a =>
      let old := (m.k.sr.pkp >>> (2 * key)) &&& 3
      let m := m.put o.dst a.act old a.valid
      .done (if a.act then m.ctx fun k => { k with sr := { k.sr with pkp := pkpSet k.sr.pkp key (a.v 0) } } else m)) s

/-- TRAP (R405). -/
def execTrap (h : Hdr) (o : SI) (s : State) : Out :=
  issueWord (.trap h o) h { Ports.none with srcs := [o.s1] }
    (fun m a =>
      if a.act then .trapAfter m 0x60 (((o.imm.extractLsb' 0 16).setWidth 64 <<< 48) ||| (a.v 0 &&& lowMask 48)) else .done m) s

/-- ERET (R404). -/
def execEret (h : Hdr) (o : S3) (s : State) : Out :=
  issueWord (.eret h o) h Ports.none (fun m a => if a.act then .stay m.eret else .done m) s

/-- YIELD (R146, R431). -/
def execYield (h : Hdr) (o : S3) (s : State) : Out :=
  issueWord (.yield h o) h Ports.none (fun m a => .done (if a.act then m.offerSwitch else m)) s

/-- Every earlier word of the stream has completed (R145): the A stream's loads have returned, and the engines have
accepted its commands and written their registers and guards. -/
def Mach.drained (m : Mach) : Bool :=
  m.st != .A ||
  (m.k.loads.isEmpty && m.k.eng.cmds.all fun c => c.left && c.dst == .none && c.opc != 0x6E && c.opc != 0x72)

/-- Ports of a `HALT`, which may have issued and wait for room for its pushes. -/
def haltPorts : Ports := { Ports.none with resumes := fun p => p.k == 0 && p.n == 0 }

/-- WAIT (R145). A `WAIT.drain` is held before its issue, its traffic not made, until the stream has drained, as the drain of
a `HALT` is (log 34). -/
def execWait (h : Hdr) (o : SI) (s : State) : Out :=
  let kind := o.imm.toNat / 2 ^ 28
  issueWord (.wait h o) h (if kind = 0 then { Ports.none with srcs := [o.s1] } else Ports.none)
    (fun m a =>
      if !a.act then .done m
      else if kind = 0 then
        let d := min ((a.v 0).toNat + o.imm.toNat % 2 ^ 28) (2 ^ 32)
        .done (if d = 0 then m else m.str fun t => { t with wakeAt := some (W (m.s.time + d)) })
      else if m.drained then .done m
      else .wait .register) s

/-- The trap of a pending equivalence failure, taken before an A-stream word issues (R348). -/
def Mach.eqPending (m : Mach) : Option Res :=
  m.k.eng.eqFail.map fun f => .trapWith (fun m => m.ctx fun k => { k with eng := { k.eng with eqFail := none } }) f.1 f.2.1

/-- An A-stream word that takes a pending equivalence failure and closes a run of unions (R332, R348). -/
def Mach.eqGate (m : Mach) (body : Mach → Res) : Res :=
  match m.eqPending with
  | some r => r
  | none => body (m.ctx Ctx.closeRun)

/-- HALT (R147); one that has issued and waits for room takes no pending failure any more (R348). -/
def execHalt (h : Hdr) (o : S3) (s : State) : Out :=
  issueWord (.halt h o) h haltPorts
    (fun m a => (if m.st == .A && m.t.prog.isNone then m.eqGate else fun body => body m) fun m =>
      if !a.act then .done m
      else if !m.drained then .wait .register
      else if !m.k.roomFor (fifosOut m.st h.pa) then .hold (m.str fun t => { t with prog := some ⟨0, 0, none⟩ }) .push
      else .done ((m.str fun t => { t with halted := true }).offerIfIdle)) s

/-- NOP (R148). -/
def execNop (h : Hdr) (o : S3) (s : State) : Out := issueWord (.nop h o) h Ports.none (fun m _ => .done m) s

/-- A word that is not an instruction takes cause 0x02 with the word in sr.tval (R88, R90). -/
def illegalWord (w : Word) (s : State) : Out :=
  match Mach.enter s with
  | (none, s) => .next (s.setNote (.waiting .notRunning))
  | (some m, _) => .next ((m.takeTrap 0x02 w m.t.pc).leave (.trapped 0x02))

/-- ILL (R90). -/
def execIll (w : Word) (s : State) : Out := illegalWord w s

/-- A word with an unassigned opcode, or that fails another check of R90 (R88 to R90). -/
def execUnassignedOpcodeWord (w : Word) (s : State) : Out := illegalWord w s

/-- A stream whose next word lies outside its text section takes cause 0x10; a fetch that fails translation takes its
cause (R143, R424). -/
def execInstructionFetchFault (x : CtxRef) (st : Stream) (s : State) : Out :=
  match Mach.enter { s with md := { s.md with cur := x, curSt := st } } with
  | (none, s) => .next (s.setNote (.waiting .notRunning))
  | (some m, _) =>
    match m.heldUp with
    | some w => .next (m.payOwed.leave (.waiting w))
    | none =>
      match m.fetchAt m.t.pc with
      | (.trap c, m) => .next (m.fetchTrap c)
      | (_, m) => .next (m.leave .idle)

end Sys2Proof.Machine
end

