-- ==== Sys2Proof/Machine/Engine.lean ====
section
/-! DEFINITION. What the engine commands have in common: numbers, predecessors, records, the overlap checker, retirement;
fault records of engines; DEQ and ENGST (spec/12 R307 to R317, spec/18 R428, R430). -/
namespace Sys2Proof.Machine

/-- Engine of an opcode (R307): 0 copy, 1 equivalence, 2 grate, 3 sparks and task enqueues. -/
def engOf (opc : Nat) : Nat :=
  if 0x58 ≤ opc ∧ opc ≤ 0x5E then 0 else if 0x65 ≤ opc ∧ opc ≤ 0x6B then 1 else if 0x5F ≤ opc ∧ opc ≤ 0x64 then 2 else 3

/-- Commands that produce records (R310, R334, R353). -/
def producesRec (opc : Nat) : Bool :=
  engOf opc == 0 || [0x60, 0x61, 0x62, 0x64, 0x69, 0x6B].contains opc

/-- Depth of a result FIFO (R310). -/
def recDepth (eng : Nat) : Nat := if eng = 2 then 32 else 16

/-- Records that wait in a result FIFO. -/
def Ctx.recsOf (k : Ctx) (eng : Nat) : List CRec := tget [] k.eng.recs eng

/-- Outstanding records: issued and not taken (R316). -/
def Ctx.recsOut (k : Ctx) (eng : Nat) : Nat :=
  (k.recsOf eng).length + (k.eng.cmds.filter fun (c : Cmd) => engOf c.opc == eng && producesRec c.opc).length

/-- A command that holds a chimney credit (R318, R455): not a `GFEN` in det mode. -/
def Cmd.holdsCredit (c : Cmd) (det : Nat) : Bool := engOf c.opc == 2 && !(c.opc == 0x64 && det == 1)

/-- Free chimney credits (R318). -/
def Ctx.credits (k : Ctx) : Nat := 64 - (k.eng.cmds.filter fun (c : Cmd) => c.holdsCredit k.bd.det).length

/-- The numbers that P1 and P2 name (R308). -/
def predsOf (o : E) (seq : BitVec 16) : List (BitVec 16) :=
  [o.p1, o.p2].filterMap fun p => if p = 0 then none else some (seq - p.setWidth 16)

/-- An unretired command by its number. -/
def Ctx.cmd? (k : Ctx) (seq : BitVec 16) : Option Cmd := k.eng.cmds.find? fun (c : Cmd) => c.seq == seq

/-- Change a command. -/
def Ctx.setCmd (k : Ctx) (c : Cmd) : Ctx :=
  { k with eng := { k.eng with cmds := k.eng.cmds.map fun (d : Cmd) => if d.seq = c.seq then c else d } }

/-- The commands that a `GFEN` parts from a later one of number `epoch` (R314). -/
def Ctx.fencedFrom (k : Ctx) (opc epoch : Nat) : List (BitVec 16) :=
  if engOf opc = 2 then (k.eng.cmds.filter fun (c : Cmd) => decide (c.epoch < epoch)).map (·.seq) else []

/-- The ancestors of commands, among the unretired (R314): by predecessor links, and across a `GFEN` for a grate command. -/
def Ctx.ancestors (k : Ctx) : Nat → List (BitVec 16) → List (BitVec 16)
  | 0, l => l
  | fuel + 1, l =>
    k.ancestors fuel (l ++ l.flatMap fun p => match k.cmd? p with
      | some c => c.preds ++ k.fencedFrom c.opc c.epoch
      | none => []).eraseDups

/-- The lowest offset that two ranges share, when one of them is written (R314). -/
def Range.clash (r q : Range) : Option Nat :=
  if (r.write || q.write) && decide (0 < r.len) && decide (0 < q.len) && rangesMeet r.lo r.len q.lo q.len then some (max r.lo q.lo) else none

/-- Smallest of a list. -/
def leastOf (l : List Nat) : Option Nat := l.foldl (fun r n => match r with
  | none => some n
  | some m => some (min m n)) none

/-- The overlap checker (R314): sr.tval of cause 0x31, of the oldest command that clashes. -/
def Ctx.overlap (k : Ctx) (opc : Nat) (preds : List (BitVec 16)) (ranges : List Range) : Option Word :=
  let anc := k.ancestors k.eng.cmds.length (preds ++ k.fencedFrom opc k.eng.gfens)
  let clash := fun (c : Cmd) =>
    if anc.contains c.seq || (engOf opc == 1 && engOf c.opc == 1) then none
    else (leastOf (ranges.flatMap fun r => c.ranges.filterMap r.clash)).map fun off => W (off * 2 ^ 32 + c.seq.toNat)
  k.eng.cmds.findSome? clash

/-- A command as it issues (R307, R308): predecessors that have failed already cancel it (R313). -/
def Ctx.newCmd (k : Ctx) (o : E) (opc : Nat) (g : BitVec 3) (gn : Bool) (o1 o2 o3 : Word) (dst : Dst) (ranges : List Range) : Cmd :=
  let preds := predsOf o k.sr.seq
  { seq := k.sr.seq, opc := opc, preds := preds.filter fun p => (k.cmd? p).isSome, cancel := preds.find? k.eng.failed.contains,
    o1 := o1, o2 := o2, o3 := o3, fl := o.fl, dst := dst, ranges := ranges, g := g.toNat, gn := gn, vals := [], need := 0,
    epoch := k.eng.gfens, run := k.eng.runs, left := engOf opc != 2, src := [], sent := false, begun := false, reads := [], writes := [],
    acts := 0, aux := 0, size := 0, frame := none, logged := 0 }

/-- Take a number (R307); failures too far back for any predecessor field are forgotten. -/
def Ctx.takeNumber (k : Ctx) : Ctx :=
  { k with
    sr := { k.sr with seq := k.sr.seq + 1 }
    eng := { k.eng with failed := k.eng.failed.filter fun f => decide ((k.sr.seq - f).toNat < 255) } }

/-- A record (R311). -/
def recInfo (seq : BitVec 16) (status opc aux : Nat) : Word :=
  W (seq.toNat * 2 ^ 48 + status * 2 ^ 40 + engOf opc * 2 ^ 38 + opc * 2 ^ 31 + aux % 2 ^ 31)

/-- A `DEQ` of an engine. -/
def isDeq (eng : Nat) : Instr → Bool
  | .deq _ o => o.fn.toNat % 4 == eng
  | _ => false

/-- Put a record into its FIFO; a `DEQ` that waits for it goes on (R310, R316). -/
def Ctx.pushRec (k : Ctx) (opc : Nat) (r : CRec) : Ctx :=
  if producesRec opc then
    ({ k with eng := { k.eng with recs := tset [] k.eng.recs (engOf opc) (k.recsOf (engOf opc) ++ [r]) } }).wake (isDeq (engOf opc))
  else k

/-- A status that is a failure (R312). -/
def isFailure (status : Nat) : Bool := decide (2 ≤ status)

/-- `GADD` and `GAXPY` failures are counted, with the first of them in issue order (R320). -/
def EngSt.countFail (e : EngSt) (seq : BitVec 16) (status opc : Nat) : EngSt :=
  if isFailure status && (opc == 0x5F || opc == 0x63) then
    let first := e.gfail = 0 || !(seq - e.gfailSeq).toNat < 2 ^ 15
    { e with
      gfail := e.gfail + 1
      gfailSeq := if first then seq else e.gfailSeq
      gfailStatus := if first then BitVec.ofNat 8 status else e.gfailStatus }
  else e

/-- What a command leaves in the declared rings of its context until a `DEQ` orders it (R293). -/
def Ctx.ringWritten (k : Ctx) (c : Cmd) (status : Nat) : List (Nat × BitVec 16 × Nat × Nat) :=
  if engOf c.opc < 2 && status != 0x02 then
    (c.ranges.filter fun r => r.write && k.bd.wins.any fun p => rangesMeet p.2.ring (p.2.ringRows * p.2.rowBytes) r.lo r.len).map
      fun r => (engOf c.opc, c.seq, r.lo, r.len)
  else []

/-- A command retires (R308, R311, R313): its record, its successors, its failure. -/
def Ctx.retire (k : Ctx) (c : Cmd) (status : Nat) (value : Word) (aux : Nat) (sectors : List Nat) : Ctx :=
  let fail := isFailure status
  let next := fun (d : Cmd) =>
    if d.preds.contains c.seq then
      { d with preds := d.preds.filter (· != c.seq), cancel := if fail then d.cancel.or (some c.seq) else d.cancel }
    else d
  let e := k.eng.countFail c.seq status c.opc
  let e := { e with
    cmds := (e.cmds.filter fun (d : Cmd) => d.seq != c.seq).map next
    failed := if fail then c.seq :: e.failed else e.failed
    ringWrites := e.ringWrites ++ k.ringWritten c status }
  { k with eng := e }.pushRec c.opc ⟨recInfo c.seq status c.opc aux, value, sectors⟩

/-- A fault record as 16 dwords (R428): `slots` gives cause, epc and tval of A, V, M, D. -/
def recWords (x : CtxRef) (smask kind vdev : Nat) (task : Word) (slots : List (Word × Word × Word)) (time : Nat) : List Word :=
  [W (x.core.toNat + b2n x.bank * 2 ^ 8 + smask * 2 ^ 12 + vdev * 2 ^ 16 + kind * 2 ^ 22), task] ++
  (slots.flatMap fun p => [p.1, p.2.1, p.2.2]) ++ [W time, 0]

/-- Post a record of kind 1 (R430): it waits in the device until `FAULT_RECORD_POST` writes it. -/
def State.postKind1 (s : State) (x : CtxRef) (k : Ctx) (status : Nat) (tval : Word) : State :=
  { s with frecs := s.frecs ++ [⟨recWords x 0 1 k.bd.vdev k.bd.task [(W status, 0, tval), (0, 0, 0), (0, 0, 0), (0, 0, 0)] s.time, false⟩] }

/-- Retire a command of the context at a place (R308, R430). -/
def State.retireCmd (s : State) (x : CtxRef) (k : Ctx) (c : Cmd) (status : Nat) (value : Word) (aux : Nat) (sectors : List Nat) :
    State :=
  let s := if status = 0x10 || status = 0x13 then s.postKind1 x k status (W (c.seq.toNat + engOf c.opc * 2 ^ 16)) else s
  s.setCtx x (k.retire c status value aux sectors)

/-- What the record of a command that has not started says of it: a `CPGI` names the first page that it has not switched
(R358). -/
def Cmd.notDone (c : Cmd) : Word := if c.opc = 0x5C then c.o1 else 0

/-- A command that is cancelled (R313): status 0x02, with the number of the failed one; a register or a slot that waits
for its value gets the value of a failure (R336). -/
def State.cancelCmd (s : State) (x : CtxRef) (k : Ctx) (c : Cmd) (by_ : BitVec 16) : State :=
  s.retireCmd x (k.deliver c.dst (BitVec.allOnes 64) false) c 0x02 c.notDone by_.toNat []

/-- The command of a place that a step names: of the context bound there, or else of one saved from there (R434). -/
def State.atCmd (s : State) (x : CtxRef) (seq : BitVec 16) (p : Cmd → Bool) (f : State → Ctx → Cmd → State) : State :=
  let run := fun (s : State) =>
    match s.ctx? x with
    | none => s
    | some k =>
      match (k.cmd? seq).filter p with
      | none => s
      | some c => f s k c
  let here := (s.ctx? x).any fun k => ((k.cmd? seq).filter p).isSome
  if here then run s
  else
    match s.saved.find? fun (q : Saved) => q.x == x && ((q.k.cmd? seq).filter p).isSome with
    | none => s
    | some q => s.onSaved q run

/-- A step of one command. -/
def State.withCmd (s : State) (x : CtxRef) (seq : BitVec 16) (p : Cmd → Bool) (f : State → Ctx → Cmd → State) : Out :=
  .next (s.atCmd x seq p f)

/-- Earlier unretired equivalence commands of the context. -/
def Ctx.earlierEq (k : Ctx) (c : Cmd) : List Cmd :=
  (k.eng.cmds.takeWhile fun (d : Cmd) => d.seq != c.seq).filter fun (d : Cmd) => engOf d.opc == 1

/-- The engine may perform an equivalence command (R332, R344), after every earlier one. The unions of a run are performed in
their issue order: R332 allows any, and an order that hung on timing would vary the count that the record of an `EQUND` holds,
against R350 (log 48, DESIGN CHOICE). -/
def Ctx.mayPerform (k : Ctx) (c : Cmd) : Bool := c.run == k.eng.ended && c.need == 0 && (k.earlierEq c).isEmpty

/-- A command whose predecessors have retired starts, or is cancelled (R308, R313). What an equivalence command delivers, one that
is cancelled too, is an acquire of every earlier one: it comes after them (R336, R349). -/
def State.startCmd (s : State) (x : CtxRef) (k : Ctx) (c : Cmd) (f : State → State) : State :=
  match c.cancel with
  | some p => if engOf c.opc != 1 || k.mayPerform c then s.cancelCmd x k c p else s
  | none => if c.preds.isEmpty then f s else s

/-- What an engine word gives its command. -/
structure EngArgs where
  /-- the failure of the word's own checks -/
  bad : Option (BitVec 8 × Word)
  o1 : Word
  o2 : Word
  o3 : Word
  ranges : List Range
  /-- destination of a value (R336) -/
  out : Option (BitVec 6)

/-- The false-guard form of an engine word (R309): a number, a record of status 0x01, nothing else. -/
def Mach.skipCmd (m : Mach) (opc : Nat) (out : Option (BitVec 6)) : Mach :=
  let m := match out with
    | some d => m.put d false 0 false
    | none => m
  m.ctx fun k => k.takeNumber.pushRec opc ⟨recInfo k.sr.seq 0x01 opc 0, 0, []⟩

/-- What a `GFEN` and an `EQU` change as they issue (R325, R332). -/
def Ctx.noteIssue (k : Ctx) (opc : Nat) : Ctx :=
  if opc = 0x64 then { k with eng := { k.eng with gfens := k.eng.gfens + 1 } }
  else if opc = 0x66 then { k with eng := { k.eng with runOpen := true } }
  else k

/-- Issue a command (R307, R308). -/
def Mach.issueCmd (m : Mach) (h : Hdr) (o : E) (opc : Nat) (a : EngArgs) : Mach :=
  m.ctx fun k =>
    let (dst, k) := match a.out with
      | some d => k.loadDst d false
      | none => (.none, k)
    let c := k.newCmd o opc h.g h.gn a.o1 a.o2 a.o3 dst a.ranges
    { k with eng := { k.eng with cmds := k.eng.cmds ++ [c] } }.takeNumber.noteIssue opc

/-- The body of every E-format word: waits, checks, the overlap checker, issue (R309, R310, R314, R315, R318). -/
def Mach.engineWord (m : Mach) (h : Hdr) (o : E) (opc : Nat) (act : Bool) (out : Option (BitVec 6)) (args : EngArgs) : Res :=
  if producesRec opc && decide (recDepth (engOf opc) ≤ m.k.recsOut (engOf opc)) then .wait .resultFifo
  else if !act then .done (m.skipCmd opc out)
  else if !m.k.released then .wait .earlier
  else if engOf opc == 2 && !(opc == 0x64 && m.k.bd.det == 1) && m.k.credits == 0 then .wait .credit
  else
    match args.bad with
    | some (c, v) => .trap c v
    | none =>
      match m.k.overlap opc (predsOf o m.k.sr.seq) args.ranges with
      | some v => .trap 0x31 v
      | none => .done (m.issueCmd h o opc { args with out := out })

/-- The check of a scratchpad operand (R315): alignment, then range. -/
def Mach.spCheck (m : Mach) (off : Word) (n align : Nat) : Option (BitVec 8 × Word) :=
  (m.spBad off.toNat n align).map fun c => (c, off)

/-- A scratchpad range of a command. -/
def rangeOf (off : Word) (n : Nat) (write : Bool) : Range := ⟨off.toNat, n, write⟩

/-- Ports of an E-format word with three sources (R65, R80). -/
def ePorts (o : E) : Ports := { Ports.none with srcs := [o.o1, o.o2, o.o3] }

/-- A number of the scratchpad that a command reads or writes for its context. -/
def Ctx.spAt (k : Ctx) (off : Nat) : Nat := k.bd.sbase + off

/-- Ports of a word with two results: a queue that takes both is pushed entry by entry, and not reserved for the second at issue
(R117). -/
def ports2 (o : S3) : Ports :=
  { Ports.none with
    dsts := if isQ o.dst && o.dst == o.s1 then [o.dst] else [o.dst, o.s1]
    resumes := fun p => isQ o.dst && o.dst == o.s1 && p.k == 1 && p.n == 2 }

/-- The second of two entries that go into one queue: it waits for a free slot (R117). -/
def Mach.put2nd (m : Mach) (q : Nat) (act : Bool) (w : Word) : Res :=
  if freeSlots q (m.k.sq? q) = 0 then .hold (m.str fun t => { t with prog := some ⟨1, 2, some w⟩ }) .slot
  else .done (m.ctx fun k => k.pushS q (if act then w else 0) act)

/-- The two results of `DEQ`, `EVW` and `EVQ` (R117, R316, R367). -/
def Mach.put2 (m : Mach) (o : S3) (act : Bool) (v w : Word) : Res :=
  if isQ o.dst && o.dst == o.s1 then (m.put o.dst act v act).put2nd (qNum o.dst) act w
  else .done ((m.put o.dst act v act).put o.s1 act w act)

/-- A word with two results, or the rest of one that has made the first of two pushes (R117). -/
def Mach.two (m : Mach) (o : S3) (act : Bool) (body : Mach → Res) : Res :=
  match m.t.prog with
  | some p => m.put2nd (qNum o.dst) act (p.base.getD 0)
  | none => body m

/-- A `DEQ` of a record orders its command's writes, and with them those of the earlier commands of the equivalence engine,
which it performs in order (R267, R293). -/
def EngSt.taken (e : EngSt) (eng : Nat) (r : CRec) (rest : List CRec) : EngSt :=
  let seq : BitVec 16 := r.info.extractLsb' 48 16
  { e with
    recs := tset [] e.recs eng rest
    ringWrites := e.ringWrites.filter fun w => !(w.1 == eng && (w.2.1 == seq || (eng == 1 && decide ((seq - w.2.1).toNat < 2 ^ 15)))) }

/-- Body of `DEQ` on an engine's FIFO (R267, R316). -/
def deqBody (i : Instr) (o : S3) (eng : Nat) (act : Bool) (m : Mach) : Res :=
  if !act then m.put2 o false 0 0
  else
    match m.k.recsOf eng with
    | r :: rest =>
      let m := { m with s := r.sectors.foldl (fun s sec => s.l1Drop m.core sec) m.s }
      (m.ctx fun k => { k with eng := k.eng.taken eng r rest }).put2 o true r.info r.value
    | [] =>
      if o.fn.getLsbD 2 then m.put2 o true (BitVec.allOnes 64) 0
      else if m.k.recsOut eng = 0 then .trap 0x30 (W eng)
      else .park .record fun m => yieldWait i (if eng = 1 then m.ctx Ctx.closeRun else m)

/-- DEQ (R316). -/
def execDeq (h : Hdr) (o : S3) (s : State) : Out :=
  let eng := o.fn.toNat % 4
  issueWord (.deq h o) h (ports2 o)
    (fun m a => m.two o a.act fun m =>
      if eng = 1 then m.eqGate (deqBody (.deq h o) o eng a.act) else deqBody (.deq h o) o eng a.act m) s

/-- What `ENGST` reads (R317). -/
def Ctx.engStat (k : Ctx) (eng item : Nat) : Word :=
  let mine := k.eng.cmds.filter fun (c : Cmd) => engOf c.opc == eng
  match item with
  | 0 => W (k.recsOf eng).length
  | 1 => W (k.recsOut eng)
  | 2 => W mine.length
  | 3 => (match mine with
    | c :: _ => c.seq.setWidth 64
    | [] => k.sr.seq.setWidth 64)
  | 4 => if eng = 2 then W k.eng.gfail else 0
  | _ => if eng = 2 then W k.credits else 0

/-- ENGST (R317). -/
def execEngst (h : Hdr) (o : S3) (s : State) : Out :=
  let eng := o.fn.toNat % 4
  issueWord (.engst h o) h { Ports.none with dsts := [o.dst] }
    (fun m a =>
      let body := fun (m : Mach) => Res.done (m.put o.dst a.act (m.k.engStat eng (o.fn.toNat / 4 % 8)) true)
      if eng = 1 then m.eqGate body else body m) s

end Sys2Proof.Machine
end

