-- ==== Sys2Proof/Machine/Port.lean ====
section
/-! DEFINITION. The Giyth ports as the engines use them: link state, routes, sending a message (spec/20 R467 to R472). -/
namespace Sys2Proof.Machine

/-- A port that is down (R472, log 9). -/
def Link.down : Link :=
  { up := false, retraining := false, retrains := 0, resends := 0, rxSeq := 0, asked := false, txSeq := 0, kept := [],
    pend := [], refused := [], key := [], keyNew := false, switched := false, under := 0 }

/-- Port p. -/
def State.link (s : State) (p : Nat) : Link := tget Link.down s.links p

/-- Write port p. -/
def State.setLink (s : State) (p : Nat) (l : Link) : State := { s with links := tset Link.down s.links p l }

/-- This device's identifier (R469). -/
def State.devId (s : State) : Nat := bits (s.reg 0xE1000) 0 22

/-- The port mask of a destination (R469). -/
def State.routeMask (s : State) (d : Nat) : Nat :=
  if d / 2 ^ 10 = s.devId / 2 ^ 10 then bits (s.reg (0xE2000 + 8 * (d % 2 ^ 10))) 0 16
  else bits (s.reg (0xE4000 + 8 * (d / 2 ^ 10))) 0 16

/-- The port that a command takes to a destination (R469, log 9): none when its mask is 0. -/
def State.route (s : State) (d core seq : Nat) : Option Nat :=
  let ports := (upTo 16).filter fun p => (s.routeMask d).testBit p
  ports[Config.linkHash core seq % ports.length]?

/-- Flits that a port holds unacknowledged (R468, R472). -/
def State.linkDepth (s : State) (p : Nat) : Nat :=
  if p < 4 && bitAt (s.reg (0xE0000 + 0x100 * p)) 1 then 2 ^ 21 else 4096

/-- What seals a port's flits (R472, R473): whether it encrypts, the number of its key switch, the next key. -/
structure Seal where
  enc : Bool
  ksw : Word
  next : List Word
  deriving DecidableEq, Repr

/-- What seals the flits of a port. -/
def State.sealOf (s : State) (p : Nat) : Seal :=
  let r := 0xE0000 + 0x100 * p
  ⟨bitAt (s.reg r) 2, s.reg (r + 0x40), (upTo 4).map fun i => s.reg (r + 0x20 + 8 * i)⟩

/-- The next flit is the first under the next key (R473). -/
def Link.switches (l : Link) (e : Seal) : Bool := e.enc && l.keyNew && l.txSeq == e.ksw

/-- The next sequence number of an encrypted port may have been used under its key, or is the last one and no key switch has
occurred (R473). -/
def Link.spent (l : Link) (e : Seal) : Bool :=
  e.enc && !l.switches e && (decide (2 ^ 64 ≤ l.under) || (l.txSeq == BitVec.allOnes 64 && !l.switched))

/-- Send one message as a flit, kept until it is acknowledged (R468), under the key in force at its number (R473). -/
def Link.sendOne (e : Seal) (l : Link) (m : LinkMsg) : Link :=
  let sw := l.switches e
  { l with
    kept := l.kept ++ [(⟨l.txSeq, true, m⟩, 0)]
    txSeq := l.txSeq + 1
    key := if sw then e.next else l.key
    keyNew := l.keyNew && !sw
    switched := l.switched || sw, under := if sw then 1 else l.under + 1 }

/-- A port has no sequence number left for its key (R473). -/
def State.seqSpent (s : State) (p : Nat) : Bool := (s.link p).spent (s.sealOf p)

/-- A port can take n more flits (R468, R473). -/
def State.linkRoom (s : State) (p n : Nat) : Bool :=
  decide ((s.link p).kept.length + n ≤ s.linkDepth p) &&
  ((upTo n).foldl (fun (r : Bool × Link) _ => (r.1 && !r.2.spent (s.sealOf p), r.2.sendOne (s.sealOf p) .idle)) (true, s.link p)).1

/-- Send messages on a port, one flit each. -/
def State.send (s : State) (p : Nat) (ms : List LinkMsg) : State := s.setLink p (ms.foldl (Link.sendOne (s.sealOf p)) (s.link p))

/-- A port that is neither up nor training (R468): commands that use it have lost it. -/
def Link.failed (l : Link) : Bool := !l.up && !l.retraining

/-- A port goes down and trains again (R468). -/
def Link.retrain (l : Link) : Link := { l with up := false, retraining := true, retrains := 0 }

/-- What a flit still means after its port has failed (R471): payload and its marks mean nothing. -/
def LinkMsgs.afterFail : LinkMsg → LinkMsg
  | .put .. | .get .. | .data .. | .putMark .. | .dataMark .. => .idle
  | m => m

/-- What a port that has failed still holds of what came in (R471): the payload of an `RGET` before a mark that has come in,
the mark, a spark. -/
def LinkMsgs.kept (l : List LinkMsg) : LinkMsg → Bool
  | .data x seq off _ => l.any fun m => match m with
    | .dataMark y q o => y == x && q == seq && decide (off < o)
    | _ => false
  | .dataMark .. | .spark .. => true
  | _ => false

/-- A port that has failed for good (R468, R471): payload beyond the last commit mark is dropped. -/
def Link.fail (l : Link) : Link :=
  { l with
    up := false, retraining := false, pend := l.pend.filter (LinkMsgs.kept l.pend)
    kept := l.kept.map fun (q : Flit × Nat) => ({ q.1 with msg := LinkMsgs.afterFail q.1.msg }, q.2) }

/-- A port fails under the remote copies that use it (R471). -/
def State.portFail (s : State) (p : Nat) : State :=
  { s.setLink p (s.link p).fail with xfers := s.xfers.map fun (f : Xfer) => if f.port = p then { f with lost := true } else f }

/-- A spark's flit that has not got through does nothing any more: it counts as refused (R371). -/
def State.sparkDrop (s : State) (p : Nat) (from_ : Word) (seq : BitVec 16) : State :=
  let l := s.link p
  s.setLink p { l with kept := l.kept.map fun (q : Flit × Nat) =>
    match q.1.msg with
    | .spark _ _ f n _ _ _ _ => if f = from_ ∧ n = seq then ({ q.1 with msg := .idle }, q.2) else q
    | .sparkRest _ f n _ => if f = from_ ∧ n = seq then ({ q.1 with msg := .idle }, q.2) else q
    | _ => q }

/-- Payload of one command that waits at a port for its mark. -/
def LinkMsgs.ofPut (dev : BitVec 22) (x : CtxRef) (seq : BitVec 16) : LinkMsg → Bool
  | .put d _ y q _ _ _ _ => d == dev && y == x && q == seq
  | _ => false

@[inherit_doc LinkMsgs.ofPut]
def LinkMsgs.ofData (x : CtxRef) (seq : BitVec 16) : LinkMsg → Bool
  | .data y q _ _ => y == x && q == seq
  | _ => false

/-- A mark of the payload of an `RGET` that waits: its offset. -/
def LinkMsgs.markOf (x : CtxRef) (seq : BitVec 16) : LinkMsg → Option Nat
  | .dataMark y q o => if y = x ∧ q = seq then some o else none
  | _ => none

/-- Bytes of payload. -/
def LinkMsgs.bytes : LinkMsg → List Byte
  | .put _ _ _ _ _ _ _ b => b
  | .data _ _ _ b => b
  | _ => []

/-- The offset at which payload ends. -/
def LinkMsgs.ending : LinkMsg → Nat
  | .put _ _ _ _ _ _ o b => o + b.length
  | .data _ _ o b => o + b.length
  | _ => 0

/-- The flits that a port keeps, cut before the one that has a sequence number: all of them where none has it. They stand in
the order in which they were sent, so that no comparison of numbers is needed when those wrap (R468, R473). -/
def Link.cutAt (l : Link) (n : Word) : List (Flit × Nat) × List (Flit × Nat) := l.kept.span fun q => q.1.seq != n

/-- Change a port. -/
def State.linkUpd (s : State) (p : Nat) (f : Link → Link) : State := s.setLink p (f (s.link p))

/-- The register lstat of a port (R472). -/
def State.lstat (s : State) (p : Nat) : Word :=
  let l := s.link p
  W (b2n l.up + b2n l.retraining * 2 + min l.resends (2 ^ 32 - 1) * 2 ^ 16)

end Sys2Proof.Machine
end

