-- ==== Sys2Proof/Machine/Events.lean ====
section
/-! DEFINITION. Events, sparks and tasks from device code: EVA, EVW, EVQ, SPK, TKENQ, TKSIG, and the delivery of sparks and
task records (spec/14 R365 to R374). -/
namespace Sys2Proof.Machine

/-- EVA (R368). -/
def execEva (h : Hdr) (o : S3) (s : State) : Out :=
  let cls := o.fn.toNat % 8
  issueWord (.eva h o) h (s3Ports1 o)
    (fun m a =>
      if !a.act then .done (m.put o.dst false 0 false)
      else if (a.v 0).toNat % 8 ≠ 0 then .trap 0x32 (a.v 0)
      else
        let old := tget 0 m.k.arms cls
        .done ((m.ctx fun k => { k with arms := tset 0 k.arms cls (a.v 0) }).put o.dst true old a.valid)) s

/-- Class of an event. -/
def eventClass (e : Word × Word) : Nat := bits e.1 56 8

/-- Take the oldest event of a selected class: the others keep their places (R367). -/
def takeEvent (mask : BitVec 8) : List (Word × Word) → Option ((Word × Word) × List (Word × Word))
  | [] => none
  | e :: t =>
    if mask.getLsbD (eventClass e) then some (e, t)
    else (takeEvent mask t).map fun r => (r.1, e :: r.2)

/-- Body of `EVW` and `EVQ` (R367); both close a run of unions (R332). -/
def eventBody (o : S3) (act : Bool) (m : Mach) (empty : Res) : Res :=
  let m := m.ctx Ctx.closeRun
  if !act then m.put2 o false 0 0
  else
    match takeEvent o.fn m.k.evq with
    | some (e, rest) => (m.ctx fun k => { k with evq := rest }).put2 o true e.1 e.2
    | none => empty

/-- EVW (R367). -/
def execEvw (h : Hdr) (o : S3) (s : State) : Out :=
  issueWord (.evw h o) h (ports2 o)
    (fun m a => m.two o a.act fun m => eventBody o a.act m (.park .event fun m => yieldWait (.evw h o) (m.ctx Ctx.closeRun))) s

/-- EVQ (R367). -/
def execEvq (h : Hdr) (o : S3) (s : State) : Out :=
  issueWord (.evq h o) h (ports2 o)
    (fun m a => m.two o a.act fun m => eventBody o a.act m ((m.ctx Ctx.closeRun).put2 o true (BitVec.allOnes 64) 0)) s

/-- Payload bytes of a spark (R370). -/
def spkLen (fl : BitVec 9) : Nat := 16 * (fl.toNat % 32)

/-- The operand checks of `SPK` (R370), then that of its payload (R315). -/
def Mach.spkCheck (m : Mach) (o : E) (o1 o2 o3 : Word) : Option (BitVec 8 × Word) :=
  if bits o1 32 32 ≠ 0 || (bitAt o1 31 && bits o1 9 22 ≠ 0) || 191 < bits o1 0 8 then some (0x32, o1)
  else if o2.toNat % 8 ≠ 0 then some (0x32, o2)
  else if o3.toNat % 16 ≠ 0 then some (0x32, o3)
  else m.spCheck o3 (spkLen o.fl) 1

/-- SPK (R370). -/
def execSpk (h : Hdr) (o : E) (s : State) : Out :=
  issueWord (.spk h o) h (ePorts o)
    (fun m a =>
      m.engineWord h o 0x6E a.act none
        ⟨m.spkCheck o (a.v 0) (a.v 1) (a.v 2), a.v 0, a.v 1, a.v 2, [rangeOf (a.v 2) (spkLen o.fl) false], none⟩) s

/-- TKENQ (R373). -/
def execTkenq (h : Hdr) (o : E) (s : State) : Out :=
  issueWord (.tkenq h o) h { Ports.none with srcs := [o.o1, o.o2] }
    (fun m a =>
      let bad : Option (BitVec 8 × Word) :=
        if 4095 < (a.v 0).toNat then some (0x33, m.s.freeTval) else if (a.v 1).toNat % 128 ≠ 0 then some (0x11, a.v 1) else none
      m.engineWord h o 0x72 a.act none ⟨bad, a.v 0, a.v 1, 0, [], none⟩) s

/-- A refusal (R371): the guard of the word reads false from now on, and `sr.evst.ref` counts it. -/
def Ctx.refused (k : Ctx) (c : Cmd) : Ctx :=
  { k with a := k.a.setGuard c.g c.gn, sr := { k.sr with evRef := min 255 (k.sr.evRef + 1) } }

/-- Offset of the next inbox entry of a context (R372). -/
def CtxSr.inboxEntry (r : CtxSr) (n : Nat) : Nat := bits r.spkin 6 16 * 64 + 320 * (n % 16)

/-- A context takes a spark of a virtual device (R371): its inbox is enabled, not full, and inside its partition. -/
def Ctx.takesSpark (k : Ctx) : Bool :=
  bitAt k.sr.spkin 22 && (bits k.sr.spkin 32 5 + 32 - bits k.sr.spkin 24 5) % 32 != 16 &&
  decide (k.sr.inboxEntry 0 + 5120 ≤ k.bd.ssize)

/-- The bytes of an inbox entry (R372). -/
def sparkEntry (from_ handler : Word) (payload : List Byte) : List Byte :=
  leBytes 8 from_.toNat ++ leBytes 8 handler.toNat ++ leBytes 8 payload.length ++ List.replicate 40 0 ++
  payload ++ List.replicate (256 - payload.length) 0

/-- Deliver a spark to a context that takes it (R372): a dormant one starts at the handler. -/
def State.deliverSpark (s : State) (x : CtxRef) (k : Ctx) (from_ handler : Word) (payload : List Byte) : State :=
  let wr := bits k.sr.spkin 32 5
  let off := k.sr.inboxEntry wr
  let s := s.spWrite x.core.toNat (k.bd.sbase + off) (sparkEntry from_ handler payload)
  let k := { k with sr := { k.sr with spkin := keep k.sr.spkin 31 0 ||| W ((wr + 1) % 32 * 2 ^ 32) } }
  s.setCtx x (if k.run = .dormant then k.start handler 1 (W off) 0 else k)

/-- The target word of a context of this device, with self = 0 (R372). -/
def State.targetWord (s : State) (x : CtxRef) : Word := W (x.core.toNat + b2n x.bank * 2 ^ 8 + s.devId * 2 ^ 9)

/-- The outcome of a spark or a task enqueue (R371, R373). -/
def State.enqueueDone (s : State) (x : CtxRef) (k : Ctx) (c : Cmd) (refused : Bool) : State :=
  s.retireCmd x (if refused then k.refused c else k) c 0x00 0 0 []

/-- A spark leaves for its target (R371, R372). -/
def State.sparkAct (s : State) (x : CtxRef) (k : Ctx) (c : Cmd) : State :=
  let to_ : CtxRef := ⟨BitVec.ofNat 8 (bits c.o1 0 8), bitAt c.o1 8⟩
  let payload := s.spRead x.core.toNat (k.spAt c.o3.toNat) (spkLen c.fl)
  if bitAt c.o1 31 then
    match s.ctx? to_ with
    | none => s.enqueueDone x k c true
    | some t =>
      if t.bd.vdev ≠ k.bd.vdev || !t.takesSpark then s.enqueueDone x k c true
      else if to_ = x then (s.retireCmd x k c 0x00 0 0 []).deliverSpark x (k.retire c 0x00 0 0 []) (s.targetWord x) c.o2 payload
      else (s.enqueueDone x k c false).deliverSpark to_ t (s.targetWord x) c.o2 payload
  else if c.sent then
    -- a port that has failed leaves the peer unreachable (R371, log 24)
    match s.route (bits c.o1 9 22) x.core.toNat c.seq.toNat with
    | none => s.enqueueDone x k c true
    | some p => if (s.link p).failed then (s.sparkDrop p (s.targetWord x) c.seq).enqueueDone x k c true else s
  else
    match s.route (bits c.o1 9 22) x.core.toNat c.seq.toNat with
    | none => s.enqueueDone x k c true
    | some p =>
      if (s.link p).failed then s.enqueueDone x k c true
      else if !(s.link p).up || !s.linkRoom p 2 then s
      else
        let dev := BitVec.ofNat 22 s.devId
        let rest := if payload.length ≤ 128 then [] else [.sparkRest dev (s.targetWord x) c.seq (payload.drop 128)]
        (s.setCtx x (k.setCmd { c with sent := true })).send p
          (.spark dev (BitVec.ofNat 6 k.bd.vdev) (s.targetWord x) c.seq to_ c.o2 payload.length (payload.take 128) :: rest)

/-- SPARK_DELIVER (R372). -/
def execSparkDeliver (x : CtxRef) (seq : BitVec 16) (s : State) : Out :=
  s.withCmd x seq (fun c => c.opc == 0x6E) fun s k c => s.startCmd x k c fun s => s.sparkAct x k c

/-- Registers of queue q (R438). -/
def qCfg (q : Nat) : Nat := 0x60000 + 0x20 * q

/-- A queue accepts records of a virtual device (R438). -/
def State.queueOpen (s : State) (q vdev : Nat) : Bool := bitAt (s.reg (qCfg q)) 63 && bits (s.reg (qCfg q)) 56 6 == vdev

/-- Physical address of slot i of a queue's ring (R438). -/
def State.queueSlot (s : State) (q i : Nat) : Nat :=
  bits (s.reg (qCfg q)) 7 45 * 128 + 128 * (i % 2 ^ bits (s.reg (qCfg q)) 0 5)

/-- Physical address of the tail word of a queue (R438). -/
def State.queueTailAt (s : State) (q : Nat) : Nat := winBase + bits (s.reg (qCfg q + 8)) 3 17 * 8

/-- The tail of a queue (R438). -/
def State.queueTail (s : State) (q : Nat) : Nat := leNat (memBytes s.ms.mem (s.queueTailAt q) 4)

/-- The head of a queue (R438). -/
def State.queueHead (s : State) (q : Nat) : Nat := bits (s.reg (qCfg q + 16)) 0 32

/-- A queue's ring is full (R439). -/
def State.queueFull (s : State) (q : Nat) : Bool :=
  decide (2 ^ bits (s.reg (qCfg q)) 0 5 ≤ (s.queueTail q + 2 ^ 32 - s.queueHead q) % 2 ^ 32)

/-- Append a record to a queue (R439): the record and the tail word in one step. -/
def State.queueAppend (s : State) (q : Nat) (bytes : List Byte) : State :=
  let tail := s.queueTail q
  (s.pkgPut (s.queueSlot q tail) bytes).pkgPut (s.queueTailAt q) (leBytes 4 (tail + 1))

/-- The record read of a `TKENQ` (R416, R424): its status when it fails. -/
inductive RecRead where
  | ok (bytes : List Byte) (s : State)
  | fail (status : Nat) (s : State)
  | wait

/-- Read the task record of a `TKENQ` at the package point (R373, R416). -/
def State.taskRecord (s : State) (core vdev va : Nat) : RecRead :=
  match s.reach core vdev va ⟨true, false, false, some maskLs, none⟩ with
  | (.trap c _, s) => .fail (if c = 0x15 then 0x10 else 0x12) s
  | (.wait, _) => .wait
  | (.ok x, s) =>
    if lfTier x.leaf = 2 then .fail 0x14 s
    else if s.expDead (x.pa va) then .wait
    else
      let (ws, poison, s) := s.pkgDwords ⟨core, vdev, lfTag x.leaf, 0⟩ (x.pa va) 16
      if poison then .fail 0x13 s else .ok (ws.flatMap fun w => leBytes 8 w.toNat) s

/-- A task enqueue acts (R373). -/
def State.tkenqAct (s : State) (x : CtxRef) (k : Ctx) (c : Cmd) : State :=
  let q := c.o1.toNat
  match s.taskRecord x.core.toNat k.bd.vdev c.o2.toNat with
  | .wait => s
  | .fail st s => s.retireCmd x k c st 0 0 []
  | .ok bytes s =>
    if !s.queueOpen q k.bd.vdev || s.queueFull q then s.enqueueDone x k c true
    else (s.enqueueDone x k c false).queueAppend q bytes

/-- TASK_ENQUEUE_APPEND (R373). -/
def execTaskEnqueueAppend (x : CtxRef) (seq : BitVec 16) (s : State) : Out :=
  s.withCmd x seq (fun c => c.opc == 0x72) fun s k c => s.startCmd x k c fun s => s.tkenqAct x k c

/-- A context has signalled to its gang (R374): one that is bound dormant is no member, and its signal stands apart (R17). -/
def Gang.signal (g : Gang) (dormant : Bool) (rank : Nat) (status : Byte) (v : Word) : Gang :=
  if dormant then { g with dsignals := g.dsignals ++ [(rank, status, v)] } else { g with signals := g.signals ++ [(rank, status, v)] }

/-- Every dirty line that the stove's L2 holds is written to its point: a release at system scope without a region
(R266, R374). -/
def State.cleanStove (s : State) (core vdev : Nat) : State := s.l2CleanRanges core vdev [(0, 2 ^ 54)]

/-- TKSIG (R374). -/
def execTksig (h : Hdr) (o : S3) (s : State) : Out :=
  issueWord (.tksig h o) h { Ports.none with srcs := [o.s1] }
    (fun m a =>
      if !a.act then .done m
      else if m.k.signalled then .trap 0x33 m.s.freeTval
      else if !m.k.released then .wait .earlier
      else if m.s.rangesDead (stoveOf m.core) [(0, 2 ^ 54)] then .wait (.expander m.s.freeTval)
      else
        let s := (m.s.cleanStove m.core m.k.bd.vdev).gangUpd m.k.bd.vdev m.k.bd.task fun g =>
          g.signal m.k.bd.dormant m.k.bd.rank o.fn (a.v 0)
        .done ({ m with s := s }.ctx fun k => { k with signalled := true })) s

end Sys2Proof.Machine
end

