-- ==== Sys2Proof/Machine/Grate.lean ====
section
/-! DEFINITION. The grates: GADD, GAMO, GQOP, GRED, GAXPY, GFEN, what a grate does with a command, det epochs, the order
log (spec/12 R318 to R326, spec/19 R454 to R457). -/
namespace Sys2Proof.Machine

/-- What translating and checking one page of an engine's command comes to. -/
inductive EReach where
  | ok (x : Xl) (s : State)
  | fail (status : Nat) (s : State)
  | wait (s : State)

/-- A page of a grate command (R318): translation, HBM with MS = 1, permission: to write for a target, to read for a row of
a `GRED`. A migrating page waits for its switch, and is checked as it then stands (R362). The issuing core's TLB is looked in
first (R318), then its stove's (R417; log 55). -/
def State.gratePage (s : State) (core vdev va : Nat) (wr : Bool) : EReach :=
  let need : Need := ⟨!wr, wr, false, some maskGr, none⟩
  match s.xlateFor core vdev va fun e => (need.check e).isSome || lfMg e with
  | (.fail _, s) => .fail 0x10 s
  | (.pending, s) => .wait s
  | (.ok x, s) =>
    if lfMg x.leaf then .wait s
    else if !(lfTier x.leaf == 0 && isHbm (lfFrame x.leaf) && lfMs x.leaf) then .fail 0x11 s
    else if (need.check x.leaf).isSome then .fail 0x12 s
    else .ok x s

/-- Elements of `size` bytes. -/
def elemsOf (size : Nat) (bytes : List Byte) : List Nat := (chunks size bytes (bytes.length / size)).map leNat

/-- Bytes of elements. -/
def elemBytes (size : Nat) (l : List Nat) : List Byte := l.flatMap (leBytes size)

/-- Bytes of an element type: 0 f32, 1 i32, 2 i64 (R321). -/
def gtSize (ty : Nat) : Nat := if ty = 2 then 8 else 4

/-- Addition of a grate (R319): the sum and the flags. -/
def gtAdd (ty a b : Nat) : Nat × BitVec 5 := if ty = 0 then addF32 a b else ((a + b) % 2 ^ (8 * gtSize ty), 0)

/-- a × b + c with one rounding (R321). -/
def gtAxpy (a b c : Nat) : Nat × BitVec 5 :=
  arithRound .f32 0 (fFma 0 (Fmt.decode .f32 a) (Fmt.decode .f32 b) (Fmt.decode .f32 c))

/-- Apply an operation to a row (R321). -/
def gtRow (f : Nat → Nat → Nat × BitVec 5) (w g : List Nat) : List Nat × BitVec 5 :=
  (w.zip g).foldl (fun r p => let q := f p.1 p.2; (r.1 ++ [q.1], r.2 ||| q.2)) ([], 0)

/-- Raise task flags (R54, R319). -/
def State.taskFlags (s : State) (k : Ctx) (f : BitVec 5) : State :=
  if f = 0 then s else s.gangUpd k.bd.vdev k.bd.task fun g => { g with flags := g.flags ||| f }

/-- The order log of a virtual device (R456). -/
def logReg (v : Nat) : Nat := 0xC0000 + 0x20 * v

/-- The log is in use: a ring of a legal size in HBM, without divergence (R456, R457). -/
def State.logOn (s : State) (v : Nat) : Bool :=
  let r := s.reg (logReg v)
  decide (10 ≤ bits r 0 5) && isHbm (bits r 12 40 * 4096) && !(bitAt r 63 && bitAt r 62)

/-- Address of entry i of the log. -/
def State.logAt (s : State) (v i : Nat) : Nat :=
  let r := s.reg (logReg v)
  bits r 12 40 * 4096 + 16 * (i % 2 ^ bits r 0 5)

/-- Head and tail of the log. -/
def State.logHead (s : State) (v : Nat) : Nat := bits (s.reg (logReg v + 8)) 32 32
@[inherit_doc State.logHead] def State.logTail (s : State) (v : Nat) : Nat := bits (s.reg (logReg v + 8)) 0 32

/-- An entry of the log (R456): sector, agent and the words that name the command. -/
def logEntry (x : CtxRef) (k : Ctx) (c : Cmd) (copy : Bool) (sec : Nat) : Word × Word :=
  (W (64 * sec + b2n copy * 2 ^ 52),
   W (x.core.toNat + b2n x.bank * 2 ^ 8 + c.seq.toNat * 2 ^ 16 + bits k.bd.task 0 32 * 2 ^ 32))

/-- Append an entry for an act on a sector, or wait for room (R457). -/
def State.logAppend (s : State) (x : CtxRef) (k : Ctx) (c : Cmd) (copy : Bool) (sec : Nat) : Option State :=
  let v := k.bd.vdev
  let n := (s.logTail v + 2 ^ 32 - s.logHead v) % 2 ^ 32
  if 2 ^ bits (s.reg (logReg v)) 0 5 ≤ n then none
  else
    let e := logEntry x k c copy sec
    let i := s.logTail v
    some (((s.pkgPutWord (s.logAt v i) e.1).pkgPutWord (s.logAt v i + 8) e.2).setReg (logReg v + 8)
      (W (s.logHead v * 2 ^ 32 + (i + 1) % 2 ^ 32)))

/-- The oldest unmatched entry of a sector. -/
def State.logOldest (s : State) (v sec : Nat) : Option (Nat × Word × Word) :=
  let n := (s.logTail v + 2 ^ 32 - s.logHead v) % 2 ^ 32
  (upTo n).findSome? fun j =>
    let i := (s.logHead v + j) % 2 ^ 32
    let (a, _, _) := s.pkgWord (s.logAt v i)
    let (b, _, _) := s.pkgWord (s.logAt v i + 8)
    if bits a 6 46 = sec && !s.matched.contains (v, i) then some (i, a, b) else none

/-- Match the oldest entry of a sector, or wait for its turn (R457). -/
def State.logMatch (s : State) (x : CtxRef) (k : Ctx) (c : Cmd) (copy : Bool) (sec : Nat) : Option State :=
  match s.logOldest k.bd.vdev sec with
  | none => none
  | some (i, a, b) =>
    let e := logEntry x k c copy sec
    if bitAt a 52 == copy && bits b 0 32 == bits e.2 0 32 then some { s with matched := (k.bd.vdev, i) :: s.matched } else none

/-- The acts of a context's commands on sectors are logged, or follow the log (R454, R457): they take place one by one. -/
def State.logging (s : State) (k : Ctx) : Bool := k.bd.det == 2 && s.logOn k.bd.vdev

/-- The act of a command on a sector takes its place in the order log (R454, R457); `none` while it waits. -/
def State.orderGate (s : State) (x : CtxRef) (k : Ctx) (c : Cmd) (copy : Bool) (sec : Nat) : Option State :=
  if !s.logging k then some s
  else if bitAt (s.reg (logReg k.bd.vdev)) 63 then s.logMatch x k c copy sec
  else s.logAppend x k c copy sec

/-- REPLAY_MATCH_TIMEOUT (R457): an unmatched entry has waited too long. -/
def execReplayMatchTimeout (vdev : BitVec 6) (s : State) : Out :=
  let v := vdev.toNat
  let r := s.reg (logReg v)
  let n := (s.logTail v + 2 ^ 32 - s.logHead v) % 2 ^ 32
  let open_ := (upTo n).find? fun j => !s.matched.contains (v, (s.logHead v + j) % 2 ^ 32)
  match open_ with
  | none => .next s
  | some j =>
    if !bitAt r 63 || !s.logOn v then .next s
    else
      let i := (s.logHead v + j) % 2 ^ 32
      let (a, _, _) := s.pkgWord (s.logAt v i)
      let (b, _, _) := s.pkgWord (s.logAt v i + 8)
      let x : CtxRef := ⟨BitVec.ofNat 8 (bits b 0 8), bitAt b 8⟩
      let tval := W (bits b 16 16 + (if bitAt a 52 then 0 else 2) * 2 ^ 16)
      let rec_ := recWords x 0 1 v (W (bits b 32 32)) [(0x14, 0, tval), (0, 0, 0), (0, 0, 0), (0, 0, 0)] s.time
      .next { s.setReg (logReg v) (r ||| W (2 ^ 62)) with frecs := s.frecs ++ [⟨rec_, false⟩] }

/-- GADD (R321). -/
def execGadd (h : Hdr) (o : E) (s : State) : Out :=
  let n := 4 * (o.fl.toNat % 128 + 1)
  issueWord (.gadd h o) h { Ports.none with srcs := [o.o1, o.o2] }
    (fun m a =>
      m.engineWord h o 0x5F a.act none
        ⟨m.spCheck (a.v 1) n (gtSize (o.fl.toNat / 128)), a.v 0, a.v 1, 0, [rangeOf (a.v 1) n false], none⟩) s

/-- GAXPY (R321). -/
def execGaxpy (h : Hdr) (o : E) (s : State) : Out :=
  let n := 4 * (o.fl.toNat % 128 + 1)
  issueWord (.gaxpy h o) h (ePorts o)
    (fun m a =>
      m.engineWord h o 0x63 a.act none ⟨m.spCheck (a.v 1) n 4, a.v 0, a.v 1, a.v 2, [rangeOf (a.v 1) n false], none⟩) s

/-- GAMO (R322). -/
def execGamo (h : Hdr) (o : E) (s : State) : Out :=
  issueWord (.gamo h o) h { Ports.none with srcs := [o.o1, o.o2] ++ (if o.fl.toNat / 64 = 4 then [o.o3] else []) }
    (fun m a => m.engineWord h o 0x60 a.act none ⟨none, a.v 0, a.v 1, a.v 2, [], none⟩) s

/-- GQOP (R323). -/
def execGqop (h : Hdr) (o : E) (s : State) : Out :=
  issueWord (.gqop h o) h { Ports.none with srcs := [o.o1, o.o2] }
    (fun m a => m.engineWord h o 0x61 a.act none ⟨none, a.v 0, a.v 1, 0, [], none⟩) s

/-- Fields of the FL of `GRED` (R324): row bytes, element type, rows, accumulate. -/
def grRb (fl : BitVec 9) : Nat := 32 * (fl.toNat % 16 + 1)
@[inherit_doc grRb] def grTy (fl : BitVec 9) : Nat := fl.toNat / 16 % 4
@[inherit_doc grRb] def grN (fl : BitVec 9) : Nat := fl.toNat / 64 % 4 + 1
@[inherit_doc grRb] def grAcc (fl : BitVec 9) : Bool := fl.getLsbD 8

/-- GRED (R324). -/
def execGred (h : Hdr) (o : E) (s : State) : Out :=
  let n := grRb o.fl
  issueWord (.gred h o) h (ePorts o)
    (fun m a =>
      m.engineWord h o 0x62 a.act none
        ⟨m.spCheck (a.v 2) n 32, a.v 0, a.v 1, a.v 2,
         rangeOf (a.v 2) n true :: (if grAcc o.fl then [rangeOf (a.v 2) n false] else []), none⟩) s

/-- GFEN (R325). -/
def execGfen (h : Hdr) (o : E) (s : State) : Out :=
  issueWord (.gfen h o) h Ports.none (fun m a => m.engineWord h o 0x64 a.act none ⟨none, 0, 0, 0, [], none⟩) s

/-- What a grate's act on its target comes to. -/
inductive GAct where
  /-- new contents of sectors of the target, the bytes written into scratchpad, flags, status, value, aux -/
  | did (ws : List (Nat × Byte)) (sp : List Byte) (fl : BitVec 5) (status : Nat) (value : Word) (aux : Nat)
  | fail (status : Nat)

/-- The access of a grate to a page: traffic class TC2 (R318). -/
def Ctx.grateAcc (k : Ctx) (core : Nat) (x : Xl) : Acc := k.acc core x.leaf 2

/-- Bytes at the MSC as a grate reads them to update them (R318, R453), and whether a sector of them is poisoned. -/
def State.grateRead (s : State) (acc : Acc) (kind pa n : Nat) : List Byte × Bool × State :=
  (sectorsOf pa n).foldl (fun (r : List Byte × Bool × State) sec =>
    let (v, s) := r.2.2.mscReadFor acc kind sec
    let lo := if 64 * sec < pa then pa % 64 else 0
    (r.1 ++ secBytes v.data lo (min 64 (pa + n - 64 * sec) - lo), r.2.1 || v.poison, s)) ([], false, s)

/-- What a grate writes at the MSC. -/
def State.grateWrite (s : State) (acc : Acc) (ws : List (Nat × Byte)) : State :=
  if ws.isEmpty then s else (s.mscWrite acc 2 (bySector ws)).aliens (secsOf (bySector ws))

/-- Finish a command: the writes at the MSC and in scratchpad, the flags, the retirement. -/
def State.grateDone (s : State) (x : CtxRef) (k : Ctx) (c : Cmd) (acc : Acc) (r : GAct) : State :=
  match r with
  | .fail st => s.retireCmd x k c st 0 0 []
  | .did ws sp fl st v aux =>
    let s := s.grateWrite acc ws
    let s := if sp.isEmpty then s else s.spWrite x.core.toNat (k.spAt c.o3.toNat) sp
    (s.taskFlags k fl).retireCmd x k c st v aux []

/-- `GADD` and `GAXPY` at the grate (R321). -/
def Cmd.rowAct (c : Cmd) (pa : Nat) (old : List Byte) : GAct :=
  let ty := if c.opc = 0x63 then 0 else c.fl.toNat / 128
  let size := gtSize ty
  let f := fun (w g : Nat) => if c.opc = 0x63 then gtAxpy (bits c.o3 0 32) g w else gtAdd ty w g
  let (l, fl) := gtRow f (elemsOf size old) (elemsOf size c.src)
  .did (bytesAt pa (elemBytes size l)) [] fl 0x00 0 0

/-- The new value of a `GAMO`, if it writes one (R322). -/
def gamoNew (op ty old v cmp : Nat) : Option Nat × BitVec 5 :=
  let w := if ty < 3 then 32 else 64
  let less := fun (a b : Nat) => if ty = 1 || ty = 3 then decide (sPat w a < sPat w b) else decide (a < b)
  match op with
  | 0 => if ty = 0 then (some (addF32 old v).1, (addF32 old v).2) else (some ((old + v) % 2 ^ w), 0)
  | 1 => if ty = 0 then (some (fPick false .f32 old v).1, (fPick false .f32 old v).2) else (some (if less v old then v else old), 0)
  | 2 => if ty = 0 then (some (fPick true .f32 old v).1, (fPick true .f32 old v).2) else (some (if less old v then v else old), 0)
  | 3 => (some v, 0)
  | _ => (if old = cmp then some v else none, 0)

/-- `GAMO` at the grate (R322). -/
def Cmd.amoAct (c : Cmd) (pa : Nat) (old : List Byte) : GAct :=
  let ty := c.fl.toNat / 8 % 8
  let n := if ty < 3 then 4 else 8
  let o := leNat old
  let (new, fl) := gamoNew (c.fl.toNat / 64) ty o (bits c.o2 0 (8 * n)) (bits c.o3 0 (8 * n))
  .did (match new with
    | some v => bytesAt pa (leBytes n v)
    | none => []) [] fl 0x00 (extLoad n (ty == 1) o) 0

/-- `GQOP` at the grate (R323): `old` holds the counter, and for `.fal` the limit after it. -/
def Cmd.qopAct (c : Cmd) (pa : Nat) (old : List Byte) : GAct :=
  let n := leNat (old.take 8)
  let v := c.o2.toNat
  let new : Option Nat :=
    match c.fl.toNat with
    | 0 => if n < v then some (n + 1) else none
    | 1 => some ((n + 1) % v)
    | 2 => if 0 < n then some (n - 1) else none
    | _ => if n + v ≤ leNat (old.drop 8) then some (n + v) else none
  match new with
  | some m => .did (bytesAt pa (leBytes 8 m)) [] 0 0x00 (W n) 0
  | none => .did [] [] 0 0x03 (W n) 0

/-- Bytes that a command reads at its target, and its own value checks (R321 to R323): status 0x14. -/
def Cmd.targetBytes (c : Cmd) : Nat :=
  match c.opc with
  | 0x60 => if c.fl.toNat / 8 % 8 < 3 then 4 else 8
  | 0x61 => if c.fl.toNat = 3 then 16 else 8
  | _ => 4 * (c.fl.toNat % 128 + 1)
@[inherit_doc Cmd.targetBytes] def Cmd.targetBad (c : Cmd) : Bool :=
  let va := c.o1.toNat
  match c.opc with
  | 0x60 => va % c.targetBytes ≠ 0
  | 0x61 => va % c.targetBytes ≠ 0 || (c.fl.toNat = 1 && c.o2.toNat = 0)
  | 0x63 => va % 4 ≠ 0 || 512 < va % 512 + c.targetBytes
  | _ => va % gtSize (c.fl.toNat / 128) ≠ 0 || 512 < va % 512 + c.targetBytes

/-- What a command makes of the bytes of its target (R321 to R323). -/
def Cmd.actOn (c : Cmd) (pa : Nat) (old : List Byte) (poison : Bool) : GAct :=
  if poison then .fail 0x13
  else
    match c.opc with
    | 0x60 => c.amoAct pa old
    | 0x61 => c.qopAct pa old
    | _ => c.rowAct pa old

/-- What an act writes at its target. -/
def GAct.writes : GAct → Bool
  | .did (_ :: _) _ _ _ _ _ => true
  | _ => false

/-- The part of a row command that falls in sector number i of its target: the offset in the row, the bytes. -/
def rowPart (pa n i : Nat) : Nat × Nat :=
  let lo := max pa (64 * (pa / 64 + i))
  (lo - pa, min (pa + n) (64 * (pa / 64 + i + 1)) - lo)

/-- The acts of a command on its target, from sector number i on, each in its place of the order log (R457): the command
keeps its progress where one has to wait. A sector that is found poisoned by then takes no place in the log and ends the command
(R305), whose earlier acts stand (log 57). -/
def State.loggedActs (x : CtxRef) (acc : Acc) (pa n : Nat) : Nat → Nat → State → Ctx → Cmd → State
  | 0, _, s, _, _ => s
  | fuel + 1, i, s, k, c =>
    let (o, m) := rowPart pa n i
    let (old, poison, s1) := s.grateRead acc 2 (pa + o) m
    match { c with src := (c.src.drop o).take m }.actOn (pa + o) old poison with
    | .fail st => s1.retireCmd x k c st 0 0 []
    | .did ws _ fl st v aux =>
      match s1.orderGate x k c false (pa / 64 + i) with
      | none => s.setCtx x (k.setCmd { c with acts := i })
      | some s =>
        let s := (s.grateWrite acc ws).taskFlags k fl
        if fuel = 0 then s.retireCmd x k c st v aux [] else State.loggedActs x acc pa n fuel (i + 1) s k c

/-- A command that has begun its acts goes on with them, at the target it has found. -/
def State.targetGo (s : State) (x : CtxRef) (k : Ctx) (c : Cmd) : State :=
  match c.writes with
  | [] => s
  | t :: _ => State.loggedActs x ⟨x.core.toNat, k.bd.vdev, t.tag, 2⟩ t.pa t.n ((sectorsOf t.pa t.n).length - c.acts) c.acts s k c

/-- A command on one target acts (R318, R319): its own value checks, what it reads, the accessed and dirty bits of what it
does (R418), its writes. Its page is looked up once, as it begins. -/
def State.targetAct (s : State) (x : CtxRef) (k : Ctx) (c : Cmd) : State :=
  if c.begun then s.targetGo x k c
  else
  match s.gratePage x.core.toNat k.bd.vdev c.o1.toNat true with
  | .wait s => s
  | .fail st s => s.retireCmd x k c st 0 0 []
  | .ok xl s =>
    if c.targetBad then s.retireCmd x k c 0x14 0 0 []
    else
      let pa := xl.pa c.o1.toNat
      let acc := k.grateAcc x.core.toNat xl
      let (old, poison, s) := s.grateRead acc 2 pa c.targetBytes
      let r := c.actOn pa old poison
      match s.adUpdate xl r.writes with
      | (false, _, s) => s
      | (true, _, s) =>
        match r with
        | .fail _ => s.grateDone x k c acc r
        | _ =>
          if s.logging k then
            s.targetGo x k { c with begun := true, writes := [⟨c.o1.toNat, pa, c.targetBytes, lfTag xl.leaf, .msc⟩] }
          else s.grateDone x k c acc r

/-- What translating the rows of a `GRED` comes to. -/
inductive GRows where
  | ok (l : List CTgt) (s : State)
  | fail (status : Nat) (s : State)
  | wait (s : State)

/-- Translate the pieces of rows, each checked as a target of R318; `ad` sets the accessed bits of their pages (R418). -/
def State.gredPages (core : Nat) (k : Ctx) (ad : Bool) : List (Nat × Nat) → State → GRows
  | [], s => .ok [] s
  | p :: t, s =>
    match s.gratePage core k.bd.vdev p.1 false with
    | .wait s => .wait s
    | .fail st s => .fail st s
    | .ok xl s =>
      match (if ad then s.adUpdate xl false else (true, xl, s)) with
      | (false, _, s) => .wait s
      | (true, xl, s) =>
        match State.gredPages core k ad t s with
        | .ok l s => .ok (⟨p.1, xl.pa p.1, p.2, lfTag xl.leaf, .msc⟩ :: l) s
        | r => r

/-- The sum of a `GRED` (R324). -/
def gredSum (ty : Nat) (start : List Nat) (rows : List (List Nat)) : List Nat × BitVec 5 :=
  rows.foldl (fun r row => let q := gtRow (gtAdd ty) r.1 row; (q.1, r.2 ||| q.2)) (start, 0)

/-- The pieces of rows, sector by sector. -/
def sectorPieces (va n : Nat) : List (Nat × Nat) :=
  (upTo ((va + n - 1) / 64 + 1 - va / 64)).map fun i => let p := rowPart va n i; (va + p.1, p.2)

/-- The reads of a `GRED` one by one, each sector indivisibly and in its place of the order log (R324, R457): the bytes read so
far stay with the command. An error is the state in which one waits, or in which poison has ended the command (R305), whose read
takes no place in the log (log 57). -/
def State.gredReads (x : CtxRef) : List CTgt → State → Ctx → Cmd → Except State (List Byte × State)
  | [], s, _, c => .ok (c.src, s)
  | t :: rest, s, k, c =>
    let (bytes, poison, s1) := s.grateRead ⟨x.core.toNat, k.bd.vdev, t.tag, 2⟩ 0 t.pa t.n
    if poison then .error (s1.retireCmd x k c 0x13 0 0 [])
    else
      match s1.orderGate x k c false (t.pa / 64) with
      | none => .error (s.setCtx x (k.setCmd c))
      | some s => State.gredReads x rest s k { c with acts := c.acts + 1, src := c.src ++ bytes }

/-- A `GRED` that has found its rows reads what is left of them, and forms the sum (R324). -/
def State.gredGo (s : State) (x : CtxRef) (k : Ctx) (c : Cmd) : State :=
  let rb := grRb c.fl
  let ty := grTy c.fl
  match State.gredReads x (c.reads.drop c.acts) s k c with
  | .error s => s
  | .ok (bytes, s) =>
    let rows := (chunks rb bytes (grN c.fl)).map (elemsOf (gtSize ty))
    let dst := elemsOf (gtSize ty) (s.spRead x.core.toNat (k.spAt c.o3.toNat) rb)
    let (l, fl) := if grAcc c.fl then gredSum ty dst rows else gredSum ty (rows.headD []) rows.tail
    s.grateDone x k c ⟨x.core.toNat, k.bd.vdev, 0, 2⟩ (.did [] (elemBytes (gtSize ty) l) fl 0x00 0 (grN c.fl))

/-- `GRED` at the grate (R324): the pages of its rows are looked up once, as it begins. -/
def State.gredAct (s : State) (x : CtxRef) (k : Ctx) (c : Cmd) : State :=
  if c.begun then s.gredGo x k c
  else
    let core := x.core.toNat
    let rb := grRb c.fl
    let pieces := (upTo (grN c.fl)).flatMap fun j => sectorPieces ((c.o1.toNat + bits c.o2 (16 * j) 16 * rb) % 2 ^ 64) rb
    match State.gredPages core k false pieces s with
    | .wait s => s
    | .fail st s => s.retireCmd x k c st 0 0 []
    | .ok _ s =>
      if c.o1.toNat % 32 ≠ 0 then s.retireCmd x k c 0x14 0 0 []
      else
        match State.gredPages core k true pieces s with
        | .wait s => s
        | .fail st s => s.retireCmd x k c st 0 0 []
        | .ok l s => s.gredGo x k { c with begun := true, reads := l }

/-- A command of the grates acts. -/
def State.grateAct (s : State) (x : CtxRef) (k : Ctx) (c : Cmd) : State :=
  if c.opc = 0x62 then s.gredAct x k c else s.targetAct x k c

/-- Earlier unretired grate commands of the context. -/
def Ctx.earlierGrate (k : Ctx) (c : Cmd) : List Cmd :=
  (k.eng.cmds.takeWhile fun (d : Cmd) => d.seq != c.seq).filter fun (d : Cmd) => engOf d.opc == 2

/-- A command may leave its core (R318, R325): no earlier `GFEN` is unretired; a `GFEN` leaves after all earlier ones. -/
def Ctx.mayLeave (k : Ctx) (c : Cmd) : Bool :=
  let l := k.earlierGrate c
  (l.all fun (d : Cmd) => d.opc != 0x64) && (c.opc != 0x64 || l.all (·.left))

/-- A `GFEN` leaves its core: it closes an epoch (R455). -/
def Ctx.gfenLeft (k : Ctx) (c : Cmd) : Ctx :=
  if c.opc = 0x64 then { k with eng := { k.eng with gfensLeft := k.eng.gfensLeft + 1 } } else k

/-- A grate command leaves its core, with its scratchpad source (R318). -/
def State.grateLeave (s : State) (x : CtxRef) (k : Ctx) (c : Cmd) : State :=
  let src := if c.opc = 0x5F || c.opc = 0x63 then s.spRead x.core.toNat (k.spAt c.o2.toNat) c.targetBytes else []
  s.setCtx x ((k.setCmd { c with left := true, src := src }).gfenLeft c)

/-- The f32 commands that det mode orders (R454). -/
def Cmd.detF32 (c : Cmd) : Bool :=
  (c.opc == 0x5F && c.fl.toNat / 128 == 0) || c.opc == 0x63 || (c.opc == 0x60 && c.fl.toNat / 64 == 0 && c.fl.toNat / 8 % 8 == 0)

/-- A `GFEN` retires once every earlier grate command has, one that is cancelled too (R313, R320, R325). -/
def State.gfenAct (s : State) (x : CtxRef) (k : Ctx) (c : Cmd) : State :=
  if !(k.earlierGrate c).isEmpty then s
  else
    match c.cancel with
    | some p => s.cancelCmd x k c p
    | none =>
    let e := k.eng
    let st := if e.gfail = 0 then 0 else e.gfailStatus.toNat
    let v := if e.gfail = 0 then 0 else e.gfailSeq.setWidth 64
    s.retireCmd x { k with eng := { e with gfail := 0, gfailSeq := 0, gfailStatus := 0 } } c st v (min e.gfail (2 ^ 31 - 1)) []

/-- A grate command goes on: it leaves its core, or it is performed (R318); det mode holds its f32 commands (R455). -/
def State.grateStep (s : State) (x : CtxRef) (k : Ctx) (c : Cmd) : State :=
  if c.left then
    (if c.opc = 0x64 then s.gfenAct x k c
     else if k.bd.det = 1 && c.detF32 then s
     else s.grateAct x k c)
  else if !k.mayLeave c then s
  else
    match c.cancel with
    | some p => if c.opc = 0x64 then s.grateLeave x k c else s.cancelCmd x k c p
    | none => if c.preds.isEmpty then s.grateLeave x k c else s

/-- GRATE_COMMAND_ACT (R318). -/
def execGrateCommandAct (x : CtxRef) (seq : BitVec 16) (s : State) : Out :=
  s.withCmd x seq (fun c => engOf c.opc == 2) fun s k c => s.grateStep x k c

/-- A context is one of a gang's. -/
def Gang.owns (g : Gang) (k : Ctx) : Bool := k.bd.vdev == g.vdev && k.bd.task == g.task

/-- The contexts of a gang, bound and saved (R434). -/
def State.gangCtxs (s : State) (g : Gang) : List (CtxRef × Ctx) :=
  ((s.ctxs.map fun p => (keyCtx p.1, p.2)) ++ s.saved.map fun (q : Saved) => (q.x, q.k)).filter fun p => g.owns p.2

/-- A step of another agent on the context of a gang that is bound at a place, or was saved from there. -/
def State.onGang (s : State) (g : Gang) (x : CtxRef) (f : State → State) : State :=
  if (s.ctx? x).any g.owns then f s
  else
    match s.saved.find? fun (q : Saved) => q.x == x && g.owns q.k with
    | some q => s.onSaved q f
    | none => s

/-- The f32 commands of a gang that are not retired, with their contexts. -/
def State.heldCmds (s : State) (g : Gang) : List (CtxRef × Cmd) :=
  (s.gangCtxs g).flatMap fun p => (p.2.eng.cmds.filter Cmd.detF32).map fun c => (p.1, c)

/-- Insert by core number and command number (R455). -/
def insertHeld (a : CtxRef × Cmd) : List (CtxRef × Cmd) → List (CtxRef × Cmd)
  | [] => [a]
  | b :: t =>
    if a.1.core.toNat * 2 ^ 16 + a.2.seq.toNat < b.1.core.toNat * 2 ^ 16 + b.2.seq.toNat then a :: b :: t else b :: insertHeld a t

/-- Every non-dormant context of the gang has closed an epoch (R455). -/
def State.epochClosed (s : State) (g : Gang) (e : Nat) : Bool :=
  (s.gangCtxs g).all fun p => p.2.bd.dormant || p.2.allHalted || decide (e < p.2.eng.gfensLeft)

/-- Apply the commands of an epoch in order (R455). -/
def State.applyHeld (g : Gang) (l : List (CtxRef × Cmd)) (s : State) : State :=
  l.foldl (fun (s : State) p => s.onGang g p.1 fun s =>
    match s.ctx? p.1 with
    | none => s
    | some k =>
      match k.cmd? p.2.seq with
      | none => s
      | some c => s.grateAct p.1 k c) s

/-- Of the entries that the TLBs hold, those that still stand in t: one that a walk has dropped stays dropped (R418). -/
def State.dropsOf (s t : State) : State :=
  let still := fun (l : List TlbEnt) (e : TlbEnt) => l.any fun q => q.pte == e.pte && q.owner == e.owner
  s.mem fun m => { m with coreTlb := m.coreTlb.filter (still t.ms.coreTlb), stoveTlb := m.stoveTlb.filter (still t.ms.stoveTlb) }

/-- DET_EPOCH_RELEASE (R455): the oldest epoch of the task that holds commands is applied, when it is closed, every
command of it has left its core, and none has to wait. Where one has, only the stale TLB entries that were found are gone. -/
def execDetEpochRelease (vdev : BitVec 6) (task : Word) (s : State) : Out :=
  match s.gang? vdev.toNat task with
  | none => .next s
  | some g =>
    let held := s.heldCmds g
    match leastOf (held.map fun p => p.2.epoch) with
    | none => .next s
    | some e =>
      let mine := held.filter fun p => p.2.epoch == e
      if g.det ≠ 1 || !s.epochClosed g e || !(mine.all fun p => p.2.left) then .next s
      else
        let t := State.applyHeld g (mine.foldl (fun l a => insertHeld a l) []) s
        .next (if (t.heldCmds g).any fun p => p.2.epoch == e then s.dropsOf t else t)

end Sys2Proof.Machine
end

