-- ==== Sys2Proof/Machine/Copy.lean ====
section
/-! DEFINITION. The copy engine: CPYM, CPYS, CGTH, CSCT, CPGI, RPUT, RGET, and what it does with a command (spec/14 R353 to
R362). -/
namespace Sys2Proof.Machine

/-- A piece of a range of a copy command, in one page of 64 KiB. -/
structure CPiece where
  va : Nat
  n : Nat
  wr : Bool
  remote : Bool
  deriving DecidableEq, Repr

/-- The pieces of a global range. -/
def copyPieces (va : Word) (n : Nat) (wr remote : Bool) : List CPiece :=
  if n = 0 then [] else (pagePieces va.toNat n).map fun p => ⟨p.1, p.2, wr, remote⟩

/-- What translating the pages of a command comes to (R357). -/
inductive CReach where
  | ok (l : List (CPiece × Xl)) (s : State)
  | fail (status : Nat) (s : State)
  | wait (s : State)

/-- The tier of a page is usable (R357, second check). -/
def CPiece.tierOk (p : CPiece) (x : Xl) : Bool :=
  if p.remote then lfTier x.leaf == 2 else lfTier x.leaf != 2 && !isWin (lfFrame x.leaf)

/-- Its permissions (R357, third check). -/
def CPiece.permOk (p : CPiece) (e : Word) : Bool :=
  ((Need.mk (!p.wr) p.wr false (some maskCp) none).check e).isNone && (!p.remote || bitAt e maskLk)

/-- A piece cannot use a leaf: it lacks a right, or it writes and the page is migrating. -/
def CPiece.bars (p : CPiece) (e : Word) : Bool := !p.permOk e || (p.wr && !p.remote && lfMg e)

/-- Translate every piece (R357, first check). -/
def State.copyXlate (stove vdev : Nat) : List CPiece → State → CReach
  | [], s => .ok [] s
  | p :: t, s =>
    match s.xlateStove stove vdev p.va p.bars with
    | (.fail _, s) => .fail 0x10 s
    | (.pending, s) => .wait s
    | (.ok x, s) =>
      match State.copyXlate stove vdev t s with
      | .ok l s => .ok ((p, x) :: l) s
      | r => r

/-- Set the accessed and dirty bits of the pages, in order. -/
def State.copyAd : List (CPiece × Xl) → State → CReach
  | [], s => .ok [] s
  | (p, x) :: t, s =>
    match s.adUpdate x p.wr with
    | (false, _, s) => .wait s
    | (true, x, s) =>
      match State.copyAd t s with
      | .ok l s => .ok ((p, x) :: l) s
      | r => r

/-- A local page on an expander that does not respond (R466). -/
def State.copyDead (s : State) (l : List (CPiece × Xl)) : Bool :=
  l.any fun q => !q.1.remote && s.expDead (q.2.pa q.1.va)

/-- Translate and check the pages of a command (R356, R357): a write to a migrating page waits. -/
def State.copyReach (s : State) (stove vdev : Nat) (l : List CPiece) : CReach :=
  match State.copyXlate stove vdev l s with
  | .ok l s =>
    if !(l.all fun q => q.1.tierOk q.2) then .fail 0x14 s
    else if !(l.all fun q => q.1.permOk q.2.leaf) then .fail 0x12 s
    else if (l.any fun q => q.1.wr && !q.1.remote && lfMg q.2.leaf) || s.copyDead l then .wait s
    else .ok l s
  | r => r

/-- The targets of translated pieces. -/
def ctgtOf (q : CPiece × Xl) : CTgt := ⟨q.1.va, q.2.pa q.1.va, q.1.n, lfTag q.2.leaf, pathOf q.2.leaf⟩

/-- A read of the copy engine (R353): the stove's L2, or the MSC in class TC3. -/
def State.copyReadSec (s : State) (core vdev : Nat) (t : CTgt) (sec : Nat) : Sec × State :=
  match t.path with
  | .msc => s.mscRead ⟨core, vdev, t.tag, 3⟩ sec
  | _ => s.l2Read ⟨core, vdev, t.tag, 0⟩ sec

/-- Read sectors of a target up to a poisoned one (R357): the bytes, whether there was one. -/
def State.copyReadSecs (core vdev : Nat) (t : CTgt) : List Nat → State → List Byte × Bool × State
  | [], s => ([], false, s)
  | sec :: rest, s =>
    let (v, s) := s.copyReadSec core vdev t sec
    if v.poison then ([], true, s)
    else
      let lo := if 64 * sec < t.pa then t.pa % 64 else 0
      let hi := min 64 (t.pa + t.n - 64 * sec)
      let (l, p, s) := State.copyReadSecs core vdev t rest s
      (secBytes v.data lo (hi - lo) ++ l, p, s)

/-- Read targets in order up to a poisoned sector. -/
def State.copyRead (core vdev : Nat) : List CTgt → State → List Byte × Bool × State
  | [], s => ([], false, s)
  | t :: rest, s =>
    let (l, p, s) := State.copyReadSecs core vdev t (sectorsOf t.pa t.n) s
    if p then (l, true, s)
    else
      let (m, q, s) := State.copyRead core vdev rest s
      (l ++ m, q, s)

/-- Write bytes at a target (R353). -/
def State.copyWriteAt (s : State) (core vdev : Nat) (t : CTgt) (bytes : List Byte) : State :=
  let ws := bySector (bytesAt t.pa bytes)
  match t.path with
  | .msc => (s.mscWrite ⟨core, vdev, t.tag, 3⟩ 1 ws).aliens (secsOf ws)
  | _ => (ws.foldl (fun s w => s.l2Write ⟨core, vdev, t.tag, 0⟩ w.1 w.2) s).aliens (secsOf ws)

/-- Write bytes at targets in order, as far as they go. -/
def State.copyWrite (core vdev : Nat) : List CTgt → List Byte → State → State
  | [], _, s => s
  | t :: rest, bytes, s => State.copyWrite core vdev rest (bytes.drop t.n) (s.copyWriteAt core vdev t (bytes.take t.n))

/-- The sectors that n bytes at targets cover. -/
def copySectors : List CTgt → Nat → List Nat
  | [], _ => []
  | t :: rest, n => (if n = 0 then [] else sectorsOf t.pa (min n t.n)) ++ copySectors rest (n - t.n)

/-- The n bytes from an offset on. -/
def tgtSlice : List CTgt → Nat → Nat → List CTgt
  | [], _, _ => []
  | t :: rest, off, n =>
    if n = 0 then []
    else if t.n ≤ off then tgtSlice rest (off - t.n) n
    else { t with va := t.va + off, pa := t.pa + off, n := min n (t.n - off) } :: tgtSlice rest 0 (n - min n (t.n - off))

/-- Two lists of targets share a physical byte (R356). -/
def copyOverlap (a b : List CTgt) : Bool := a.any fun t => b.any fun u => rangesMeet t.pa t.n u.pa u.n

/-- Retire a copy command that has written (R357, R358). -/
def State.copyDone (s : State) (x : CtxRef) (k : Ctx) (c : Cmd) (poison : Bool) (aux : Nat) (secs : List Nat) : State :=
  s.retireCmd x k c (if poison then 0x13 else 0x00) 0 aux secs

/-- Targets lie at an expander that does not respond (R466). -/
def State.tgtsDead (s : State) (l : List CTgt) : Bool := l.any fun t => s.expDead t.pa

/-- Write sector by sector, each in its place of the order log (R457): the command keeps its progress where one has to wait.
`src` reads bytes of the source, at the targets `from_` if it has some; the record counts units. A sector of which poison leaves
nothing to write takes no place in the log. -/
def State.loggedCopy (x : CtxRef) (vdev : Nat) (src : Nat → Nat → State → List Byte × Bool × State) (from_ dst : List CTgt)
    (total unit : Nat) : Nat → State → Ctx → Cmd → State
  | 0, s, k, c => s.copyDone x k c false (c.aux / unit) (copySectors dst total)
  | fuel + 1, s, k, c =>
    match tgtSlice dst c.aux (total - c.aux) with
    | [] => s.copyDone x k c false (c.aux / unit) (copySectors dst total)
    | t :: _ =>
      let n := min t.n (64 - t.pa % 64)
      if s.tgtsDead ({ t with n := n } :: tgtSlice from_ c.aux n) then s.setCtx x (k.setCmd c)
      else
        let (bytes, poison, s1) := src c.aux n s
        if bytes.isEmpty then s1.copyDone x k c poison (c.aux / unit) (copySectors dst c.aux)
        else
          match s1.orderGate x k c true (t.pa / 64) with
          | none => s.setCtx x (k.setCmd c)
          | some s =>
            let s := s.copyWriteAt x.core.toNat vdev t bytes
            let aux := c.aux + bytes.length
            if poison then s.copyDone x k c true (aux / unit) (copySectors dst aux)
            else State.loggedCopy x vdev src from_ dst total unit fuel s k { c with aux := aux }

/-- Fields of a list word (R354). -/
def listN (w : Word) : Nat := bits w 32 16
@[inherit_doc listN] def listOff (w : Word) : Nat := bits w 0 22
@[inherit_doc listN] def listBad (w : Word) : Bool := bits w 48 16 != 0 || bits w 22 10 != 0 || listOff w % 4 != 0

/-- Row bytes of a gather or scatter (R354). -/
def copyRow (fl : BitVec 9) : Nat := 64 * (fl.toNat % 16 + 1)

/-- A byte count that is too large (R355). -/
def countBad (b : Word) : Bool := decide (2 ^ 31 ≤ b.toNat)

/-- CPYM (R354). -/
def execCpym (h : Hdr) (o : E) (s : State) : Out :=
  issueWord (.cpym h o) h (ePorts o)
    (fun m a =>
      m.engineWord h o 0x58 a.act none ⟨if countBad (a.v 2) then some (0x34, a.v 2) else none, a.v 0, a.v 1, a.v 2, [], none⟩) s

/-- The checks of a word with a byte count and one scratchpad range (R355). -/
def Mach.copyCheck (m : Mach) (b : Word) (sp : Option Word) : Option (BitVec 8 × Word) :=
  if countBad b then some (0x34, b) else sp.bind fun off => m.spCheck off b.toNat 1

/-- CPYS (R354). -/
def execCpys (h : Hdr) (o : E) (s : State) : Out :=
  issueWord (.cpys h o) h (ePorts o)
    (fun m a =>
      m.engineWord h o 0x59 a.act none
        ⟨m.copyCheck (a.v 2) (some (a.v 0)), a.v 0, a.v 1, a.v 2, [rangeOf (a.v 0) (a.v 2).toNat (!o.fl.getLsbD 0)], none⟩) s

/-- RPUT (R354). -/
def execRput (h : Hdr) (o : E) (s : State) : Out :=
  issueWord (.rput h o) h (ePorts o)
    (fun m a =>
      let sp := o.fl.getLsbD 0
      m.engineWord h o 0x5D a.act none
        ⟨m.copyCheck (a.v 2) (if sp then some (a.v 1) else none), a.v 0, a.v 1, a.v 2,
         if sp then [rangeOf (a.v 1) (a.v 2).toNat false] else [], none⟩) s

/-- RGET (R354). -/
def execRget (h : Hdr) (o : E) (s : State) : Out :=
  issueWord (.rget h o) h (ePorts o)
    (fun m a =>
      let sp := o.fl.getLsbD 0
      m.engineWord h o 0x5E a.act none
        ⟨m.copyCheck (a.v 2) (if sp then some (a.v 0) else none), a.v 0, a.v 1, a.v 2,
         if sp then [rangeOf (a.v 0) (a.v 2).toNat true] else [], none⟩) s

/-- The checks and ranges of a gather or a scatter (R355): the rows in scratchpad at `sp`, the list. -/
def Mach.listArgs (m : Mach) (o : E) (a : Opnds) (sp : Word) (wr : Bool) : EngArgs :=
  let w := a.v 2
  let n := listN w * copyRow o.fl
  let bad : Option (BitVec 8 × Word) :=
    if listBad w then some (0x34, w)
    else (m.spCheck sp n 1).or (m.spCheck (W (listOff w)) (4 * listN w) 1)
  ⟨bad, a.v 0, a.v 1, w, [rangeOf sp n wr, ⟨listOff w, 4 * listN w, false⟩], none⟩

/-- CGTH (R354). -/
def execCgth (h : Hdr) (o : E) (s : State) : Out :=
  issueWord (.cgth h o) h (ePorts o) (fun m a => m.engineWord h o 0x5A a.act none (m.listArgs o a (a.v 0) true)) s

/-- CSCT (R354). -/
def execCsct (h : Hdr) (o : E) (s : State) : Out :=
  issueWord (.csct h o) h (ePorts o) (fun m a => m.engineWord h o 0x5B a.act none (m.listArgs o a (a.v 1) false)) s

/-- CPGI (R354, R355). -/
def execCpgi (h : Hdr) (o : E) (s : State) : Out :=
  issueWord (.cpgi h o) h { Ports.none with srcs := [o.o1, o.o2] }
    (fun m a =>
      let bad := (a.v 1).toNat = 0 || 512 < (a.v 1).toNat
      m.engineWord h o 0x5C a.act none ⟨if bad then some (0x34, a.v 1) else none, a.v 0, a.v 1, 0, [], none⟩) s

/-- Read bytes of the source of a `CPYM` or a `CPYS`. -/
def State.bytesRead (core : Nat) (k : Ctx) (c : Cmd) (src : List CTgt) (off n : Nat) (s : State) : List Byte × Bool × State :=
  if c.opc ≠ 0x58 && c.fl.getLsbD 0 then (s.spRead core (k.spAt (c.o1.toNat + off)) n, false, s)
  else State.copyRead core k.bd.vdev (tgtSlice src off n) s

/-- A `CPYM` or a `CPYS` that has found its pages writes what is left, sector by sector. -/
def State.bytesGo (s : State) (x : CtxRef) (k : Ctx) (c : Cmd) : State :=
  State.loggedCopy x k.bd.vdev (State.bytesRead x.core.toNat k c c.reads) c.reads c.writes c.o3.toNat 1
    (copySectors c.writes c.o3.toNat).length s k c

/-- Local copies of bytes: `CPYM` and `CPYS` (R356). Their pages are looked up once, as they begin (R357). -/
def State.bytesAct (s : State) (x : CtxRef) (k : Ctx) (c : Cmd) : State :=
  let core := x.core.toNat
  let v := k.bd.vdev
  let b := c.o3.toNat
  let mem := c.opc = 0x58
  let out := c.fl.getLsbD 0
  if c.begun then s.bytesGo x k c
  else
  let src := if mem then copyPieces c.o2 b false false else if out then [] else copyPieces c.o2 b false false
  let dst := if mem then copyPieces c.o1 b true false else if out then copyPieces c.o2 b true false else []
  match s.copyReach (stoveOf core) v (src ++ dst) with
  | .wait s => s
  | .fail st s => s.retireCmd x k c st 0 0 []
  | .ok l s =>
    let src := (l.filter fun q => !q.1.wr).map ctgtOf
    let dst := (l.filter fun q => q.1.wr).map ctgtOf
    if mem && copyOverlap src dst then s.retireCmd x k c 0x23 0 0 []
    else
      match State.copyAd l s with
      | .wait s => s
      | .fail _ s => s
      | .ok _ s =>
        if s.logging k && !dst.isEmpty then s.bytesGo x k { c with begun := true, reads := src, writes := dst }
        else
          let (bytes, poison, s) := State.bytesRead core k c src 0 b s
          let s := if !mem && !out then s.spWrite core (k.spAt c.o1.toNat) bytes else State.copyWrite core v dst bytes s
          s.copyDone x k c poison bytes.length (copySectors dst bytes.length)

/-- The row indices that a command's list names, read as it starts (R356). -/
def State.listIdx (s : State) (core : Nat) (k : Ctx) (w : Word) : List Nat :=
  elemsOf 4 (s.spRead core (k.spAt (listOff w)) (4 * listN w))

/-- Pieces of the rows of a table (R356). -/
def rowPieces (base : Word) (rr : Nat) (wr : Bool) (idx : List Nat) : List (List CPiece) :=
  idx.map fun i => copyPieces (base + W (i * rr)) rr wr false

/-- Split a translated list into the rows it came from. -/
def splitRows : List (List CPiece) → List (CPiece × Xl) → List (List CTgt)
  | [], _ => []
  | r :: t, l => (l.take r.length).map ctgtOf :: splitRows t (l.drop r.length)

/-- Gather rows into scratchpad, up to a row with a poisoned sector (R356, R357). -/
def State.gatherRows (core vdev off rr : Nat) : List (List CTgt) → Nat → State → Nat × Bool × State
  | [], i, s => (i, false, s)
  | r :: t, i, s =>
    let (bytes, poison, s) := State.copyRead core vdev r s
    if poison then (i, true, s) else State.gatherRows core vdev off rr t (i + 1) (s.spWrite core (off + i * rr) bytes)

/-- A `CSCT` that has read its list and found its pages writes what is left, sector by sector. -/
def State.scatterGo (s : State) (x : CtxRef) (k : Ctx) (c : Cmd) : State :=
  let rr := copyRow c.fl
  let total := listN c.o3 * rr
  State.loggedCopy x k.bd.vdev (fun off n s => (s.spRead x.core.toNat (k.spAt c.o2.toNat + off) n, false, s)) [] c.writes total rr
    (copySectors c.writes total).length s k c

/-- `CGTH` and `CSCT` (R356). The list is read, and the pages are looked up, once, as they begin (R357). -/
def State.listAct (s : State) (x : CtxRef) (k : Ctx) (c : Cmd) : State :=
  let core := x.core.toNat
  let v := k.bd.vdev
  let gather := c.opc = 0x5A
  let rr := copyRow c.fl
  if c.begun then s.scatterGo x k c
  else
  let rows := rowPieces (if gather then c.o2 else c.o1) rr (!gather) (s.listIdx core k c.o3)
  match s.copyReach (stoveOf core) v rows.flatten with
  | .wait s => s
  | .fail st s => s.retireCmd x k c st 0 0 []
  | .ok l s =>
    let tgts := splitRows rows l
    match State.copyAd l s with
    | .wait s => s
    | .fail _ s => s
    | .ok _ s =>
      if gather then
        let (n, poison, s) := State.gatherRows core v (k.spAt c.o1.toNat) rr tgts 0 s
        s.copyDone x k c poison n []
      else
        if s.logging k then s.scatterGo x k { c with begun := true, writes := tgts.flatten }
        else
          let secs := tgts.flatMap fun r => copySectors r rr
          let s := tgts.zipIdx.foldl (fun (s : State) r =>
            State.copyWrite core v r.1 (s.spRead core (k.spAt c.o2.toNat + r.2 * rr) rr) s) s
          s.copyDone x k c false tgts.length secs.eraseDups

/-- Registers of a ring of the page-in pool (R422): 0 to 2 the pools by size code, 3 the return ring. -/
def poolReg (vdev p : Nat) : Nat := 0x30000 + 0x80 * vdev + 0x10 + 0x10 * p

/-- Head and tail of a ring. -/
def State.poolHead (s : State) (vdev p : Nat) : Nat := bits (s.reg (poolReg vdev p + 8)) 32 32
@[inherit_doc State.poolHead] def State.poolTail (s : State) (vdev p : Nat) : Nat := bits (s.reg (poolReg vdev p + 8)) 0 32

/-- Address of slot i of a ring. -/
def State.poolSlot (s : State) (vdev p i : Nat) : Nat :=
  let r := s.reg (poolReg vdev p)
  bits r 12 40 * 4096 + 8 * (i % 2 ^ bits r 0 5)

/-- Entries of a ring. -/
def State.poolCount (s : State) (vdev p : Nat) : Nat := (s.poolTail vdev p + 2 ^ 32 - s.poolHead vdev p) % 2 ^ 32

/-- A page's lines leave every L2 for the package point, and every L1 and L2 (R361, R420). -/
def State.flushRange (s : State) (rs : List (Nat × Nat)) : State :=
  let s := (upTo 4).foldl (fun (s : State) n => (s.l2CleanRanges (48 * n) 0 rs).l2DropRanges n rs) s
  s.mem fun m => { m with l1 := m.l1.filter fun p => !inRanges rs (p.1 % 2 ^ 46) }

/-- A head lets go of the page registers of a range of a virtual device (R361, R420). -/
def Head.drop (h : Head) (va n : Nat) : Head :=
  let meets := fun (g : PageReg) => rangesMeet g.va g.size va n
  { h with cur := h.cur.filter fun g => !meets g, nxt := h.nxt.filter fun g => !meets g }

/-- A head's translation of a range has changed: it lets go of the page registers, and a stop there ends (R364, R420). -/
def Head.forget (h : Head) (va n : Nat) : Head :=
  { h.drop va n with
    stop := match h.stop with
      | .tier pg lo hi a => if rangesMeet a 1 va n then .none else .tier pg lo hi a
      | st => st }

/-- Change the bound heads of a virtual device, in its contexts and in saved ones. -/
def State.headsUpd (s : State) (vdev : Nat) (f : Head → Head) : State :=
  let out := fun (k : Ctx) =>
    if k.bd.vdev = vdev then
      { k with heads := k.heads.map fun (q : Nat × Head) => (q.1, if q.2.bound then f q.2 else q.2) }
    else k
  { s with ctxs := s.ctxs.map fun p => (p.1, out p.2), saved := s.saved.map fun (p : Saved) => { p with k := out p.k } }

/-- The heads of a virtual device let go of their page registers of a range. -/
def State.headsDrop (s : State) (vdev va n : Nat) : State := s.headsUpd vdev fun h => h.drop va n

/-- The translation of a range has changed for the heads of a virtual device. -/
def State.headsForget (s : State) (vdev va n : Nat) : State := s.headsUpd vdev fun h => h.forget va n

/-- Drop the held translations of a range of a virtual device (R420). -/
def State.tlbForget (s : State) (vdev va n : Nat) : State :=
  let out := fun (e : TlbEnt) => !(e.vdev == vdev && rangesMeet e.va e.size va n)
  s.mem fun m => { m with coreTlb := m.coreTlb.filter out, stoveTlb := m.stoveTlb.filter out }

/-- A leaf marked migrating, or not so any more (R361, R421). -/
def mgSet (e : Word) (b : Bool) : Word := if lfMg e == b then e else e ^^^ (1 <<< 9)

/-- The leaf of a page that `CPGI` has switched (R361). -/
def cpgiLeaf (e : Word) (frame : Nat) (fl : BitVec 9) : Word :=
  let keepBits := (keep e 62 52) ||| (keep e 6 0)
  keepBits ||| W (frame + (fl.toNat % 4) * 2 ^ 10 + (fl.toNat / 4 % 2) * 2 ^ 12)

/-- A context has an access under way to ranges of physical bytes: a load, a store, a record write, a command that goes through
the pages it has found. -/
def Ctx.reaches (k : Ctx) (rs : List (Nat × Nat)) : Bool :=
  let hit := fun (pa n : Nat) => rs.any fun r => rangesMeet pa n r.1 r.2
  k.loads.any (fun (l : LoadEnt) => l.segs.any fun g => hit g.pa g.n) || k.stores.any (fun (e : StoreEnt) => hit e.pa e.size) ||
  k.hwrites.any (fun (w : HeadWrite) => w.pieces.any fun (p : WPiece) => hit p.pa p.bytes.length) ||
  k.eng.cmds.any fun (c : Cmd) => (c.reads ++ c.writes).any fun t => hit t.pa t.n

/-- An access that is already translated is under way to ranges of physical bytes (R420, R421): one of a context, bound or
saved, or a copy with a peer. -/
def State.translatedTo (s : State) (rs : List (Nat × Nat)) : Bool :=
  s.ctxs.any (fun p => p.2.reaches rs) || s.saved.any (fun (p : Saved) => p.k.reaches rs) ||
  s.xfers.any fun (f : Xfer) => f.loc.any fun p => rs.any fun r => rangesMeet p.2.1 p.2.2.1 r.1 r.2

/-- Outcome of one page of a `CPGI` (R361); the size of its pages. -/
inductive PageIn where
  | switched (size : Nat) (s : State)
  | skipped (size : Nat) (s : State)
  | fail (status : Nat) (c : Cmd) (s : State)
  | wait (c : Cmd) (s : State)

/-- The writes of a page's sectors, from number `c.logged` on, take their places in the order log (R457). -/
def State.logPage (x : CtxRef) (k : Ctx) (frame : Nat) : Nat → State → Cmd → Bool × State × Cmd
  | 0, s, c => (true, s, c)
  | fuel + 1, s, c =>
    match s.orderGate x k c true (frame / 64 + c.logged) with
    | none => (false, s, c)
    | some s => State.logPage x k frame fuel s { c with logged := c.logged + 1 }

/-- Copy a page to its frame through the MSC, and give its leaf the frame (R361). -/
def State.pageMove (s : State) (core vdev : Nat) (x : Xl) (fl : BitVec 9) (frame : Nat) : State :=
  let old := lfFrame x.leaf
  let leaf := cpgiLeaf x.leaf frame fl
  let secs := (sectorsOf old x.size).map fun sec => (sec, sec - old / 64 + frame / 64)
  let s := s.mscDropRanges [(frame, x.size)]
  let s := s.mscWrite ⟨core, vdev, lfTag leaf, 3⟩ 1 (secs.map fun p =>
    (p.2, (secBytes (memSector s.ms.mem p.1) 0 64).zipIdx.map fun (b : Byte × Nat) => (b.2, b.1)))
  let s := s.mem fun m => { m with alien := secs.foldl (fun t p => tset 0 t p.2 (tget 0 m.alien p.1)) m.alien }
  ((s.leafPut x.pte leaf).tlbForget vdev x.va x.size).headsForget vdev x.va x.size

/-- The frames that other `CPGI` commands of a virtual device have taken and not switched: a frame of the expander will come back
for each. -/
def State.framesOut (s : State) (x : CtxRef) (seq : BitVec 16) (vdev : Nat) : Nat :=
  ((s.ctxs ++ s.saved.map fun (q : Saved) => (512, q.k)).flatMap fun (p : Nat × Ctx) =>
    if p.2.bd.vdev = vdev then
      p.2.eng.cmds.filter fun (c : Cmd) => c.opc == 0x5C && c.frame.isSome && !(p.1 == ctxKey x && c.seq == seq)
    else []).length

/-- The return ring has no place for another frame, with n to come before it (R422). -/
def State.returnFull (s : State) (vdev n : Nat) : Bool :=
  decide (2 ^ bits (s.reg (poolReg vdev 3)) 0 5 ≤ s.poolCount vdev 3 + n)

/-- Take the next frame of a pool (R361, R422). -/
def State.poolTake (s : State) (vdev p size : Nat) : Nat × State :=
  let (e, _, s) := s.pkgWord (s.poolSlot vdev p (s.poolHead vdev p))
  (bits e 16 36 * 2 ^ 16 / size * size,
   s.setReg (poolReg vdev p + 8) (W ((s.poolHead vdev p + 1) % 2 ^ 32 * 2 ^ 32 + s.poolTail vdev p)))

/-- Give a frame to the return ring (R422). -/
def State.poolReturn (s : State) (vdev p frame : Nat) : State :=
  let tail := s.poolTail vdev 3
  (s.pkgPutWord (s.poolSlot vdev 3 tail) (W (frame + p))).setReg (poolReg vdev 3 + 8)
    (W (s.poolHead vdev 3 * 2 ^ 32 + (tail + 1) % 2 ^ 32))

/-- Put a frame that is not used back at the head of its pool, where there is room (R422, log 30). -/
def State.poolUntake (s : State) (vdev p frame : Nat) : State :=
  let head := (s.poolHead vdev p + 2 ^ 32 - 1) % 2 ^ 32
  if 2 ^ bits (s.reg (poolReg vdev p)) 0 5 ≤ s.poolCount vdev p then s
  else (s.pkgPutWord (s.poolSlot vdev p head) (W frame)).setReg (poolReg vdev p + 8) (W (head * 2 ^ 32 + s.poolTail vdev p))

/-- The page that a `CPGI` was moving, which it does not switch: it is not migrating any more, and its frame goes back
(log 30). -/
def State.pageUndo (s : State) (stove : Nat) (k : Ctx) (c : Cmd) : State :=
  let vdev := k.bd.vdev
  let va := (c.o1 + W (c.acts * c.size)).toNat
  match c.frame with
  | none => s
  | some f =>
    let s := match s.xlateStove stove vdev va fun e => lfMg e with
      | (.ok x, s) => if lfMg x.leaf then (s.leafPut x.pte (mgSet x.leaf false)).tlbForget vdev x.va x.size else s
      | (_, s) => s
    s.poolUntake vdev (if c.size = 2 ^ 16 then 0 else if c.size = 2 ^ 21 then 1 else 2) f

/-- Begin to move a page (R361): take its frame, mark it migrating, drop it from every TLB and head page register. -/
def State.pageBegin (s : State) (vdev : Nat) (c : Cmd) (xl : Xl) : Cmd × Xl × State :=
  let (f, s) := s.poolTake vdev (lfSize xl.leaf) xl.size
  let leaf := mgSet xl.leaf true
  ({ c with frame := some f, size := xl.size, logged := 0 }, { xl with leaf := leaf },
   ((s.leafPut xl.pte leaf).tlbForget vdev xl.va xl.size).headsDrop vdev xl.va xl.size)

/-- Switch a page that has its frame (R361): once every access translated to the old one is performed (R421), and the writes to
the new one stand in the order log. -/
def State.pageSwitch (s : State) (x : CtxRef) (k : Ctx) (c : Cmd) (xl : Xl) (frame : Nat) : PageIn :=
  let vdev := k.bd.vdev
  let old := lfFrame xl.leaf
  if s.translatedTo [(old, xl.size)] then .wait c s
  else
    let s := s.flushRange [(old, xl.size)]
    if (sectorsOf old xl.size).any s.ms.poison.contains then .fail 0x13 c s
    else if s.returnFull vdev 0 then .fail 0x22 c s
    else
      match State.logPage x k frame (if s.logging k then xl.size / 64 - c.logged else 0) s c with
      | (false, s, c) => .wait c s
      | (true, s, _) => .switched xl.size ((s.pageMove x.core.toNat vdev xl c.fl frame).poolReturn vdev (lfSize xl.leaf) old)

/-- One page of a `CPGI` (R361): its pages have the size of the first. It waits for another's switch of the page. -/
def State.pageIn (s : State) (x : CtxRef) (k : Ctx) (c : Cmd) (va : Nat) : PageIn :=
  let p : CPiece := ⟨va, 1, true, false⟩
  let vdev := k.bd.vdev
  match s.xlateStove (stoveOf x.core.toNat) vdev va p.bars with
  | (.fail _, s) => .fail 0x10 c s
  | (.pending, s) => .wait c s
  | (.ok xl, s) =>
    let n := if c.acts = 0 && c.frame.isNone then xl.size else c.size
    let (e, _, s) := s.pkgWord xl.pte
    if !p.tierOk xl || xl.size ≠ n || va % n ≠ 0 then .fail 0x14 c s
    else if !p.permOk xl.leaf then .fail 0x12 c s
    else if lfTier xl.leaf = 0 then .skipped n s
    else if (c.frame.isNone && lfMg xl.leaf) || s.expDead (lfFrame xl.leaf) then .wait c s
    else if e ≠ xl.leaf then .wait c (s.tlbDrop xl.pte)
    else
      match c.frame with
      | some f => s.pageSwitch x k c xl f
      | none =>
        if s.poolCount vdev (lfSize xl.leaf) = 0 || s.returnFull vdev (s.framesOut x c.seq vdev) then .fail 0x22 c s
        else
          let (c, xl, s) := s.pageBegin vdev c xl
          s.pageSwitch x k c xl (c.frame.getD 0)

/-- What going over the pages of a `CPGI` comes to: its end, with the address of a page that has failed; or the page that
has to wait, with what the command keeps. -/
inductive PagesIn where
  | ended (status aux : Nat) (va : Word) (s : State)
  | wait (va : Word) (c : Cmd) (s : State)

/-- The pages of a `CPGI` that are left. -/
def State.pagesIn (x : CtxRef) (k : Ctx) : Nat → State → Cmd → PagesIn
  | 0, s, c => .ended 0x00 c.aux 0 s
  | fuel + 1, s, c =>
    let va := c.o1 + W (c.acts * c.size)
    match s.pageIn x k c va.toNat with
    | .wait c s => .wait va c s
    | .fail st c s => .ended st c.aux va (s.pageUndo (stoveOf x.core.toNat) k c)
    | .skipped n s => State.pagesIn x k fuel s { c with acts := c.acts + 1, size := n }
    | .switched n s => State.pagesIn x k fuel s { c with acts := c.acts + 1, size := n, aux := c.aux + 1, frame := none, logged := 0 }

/-- `CPGI` (R361): the events of its pages are posted before it retires, since heads stop by themselves. -/
def State.cpgiAct (s : State) (x : CtxRef) (k : Ctx) (c : Cmd) : State :=
  match State.pagesIn x k (c.o2.toNat - c.acts) s c with
  | .wait _ c s =>
    (match s.ctx? x with
     | none => s
     | some k => s.setCtx x (k.setCmd c))
  | .ended st aux v s =>
    match s.ctx? x with
    | none => s
    | some k => s.retireCmd x k c st v aux []

/-- The pieces at the peer of a remote range (R359, R414): address, length, device, its virtual device. -/
def remOf (q : CPiece × Xl) : Nat × Nat × Nat × Nat := (q.1.va, q.1.n, bits q.2.leaf 16 22, bits q.2.leaf 38 6)

/-- The pieces here. -/
def locOf (q : CPiece × Xl) : Nat × Nat × Nat × Nat := (q.1.va, q.2.pa q.1.va, q.1.n, lfTag q.2.leaf)

/-- The part of pieces from an offset on, at most n bytes of one piece: its address fields moved on. -/
def pieceAt (len : Nat × Nat × Nat × Nat → Nat) (move : Nat × Nat × Nat × Nat → Nat → Nat → Nat × Nat × Nat × Nat) :
    List (Nat × Nat × Nat × Nat) → Nat → Nat → Option (Nat × Nat × Nat × Nat)
  | [], _, _ => none
  | p :: t, off, n => if off < len p then some (move p off (min n (len p - off))) else pieceAt len move t (off - len p) n

/-- A piece at the peer from an offset on. -/
def remAt (l : List (Nat × Nat × Nat × Nat)) (off n : Nat) : Option (Nat × Nat × Nat × Nat) :=
  pieceAt (fun p => p.2.1) (fun p o m => (p.1 + o, m, p.2.2.1, p.2.2.2)) l off n

/-- The local targets from an offset on, for n bytes. -/
def locTargets : List (Nat × Nat × Nat × Nat) → Nat → Nat → List CTgt
  | [], _, _ => []
  | (va, pa, m, tag) :: t, off, n =>
    if n = 0 then []
    else if m ≤ off then locTargets t (off - m) n
    else
      let l := min n (m - off)
      ⟨va + off, pa + off, l, tag, if 5 ≤ tag then .msc else .cached⟩ :: locTargets t 0 (n - l)

/-- Start a remote copy (R359, R469): the pages are checked, and the devices that they name; the port is chosen by the first
(log 9). -/
def State.remoteStart (s : State) (x : CtxRef) (k : Ctx) (c : Cmd) : State :=
  let core := x.core.toNat
  let get := c.opc = 0x5E
  let sp := c.fl.getLsbD 0
  let b := c.o3.toNat
  let rem := copyPieces (if get then c.o2 else c.o1) b (!get) true
  let loc := if sp then [] else copyPieces (if get then c.o1 else c.o2) b get false
  match s.copyReach (stoveOf core) k.bd.vdev (rem ++ loc) with
  | .wait s => s
  | .fail st s => s.retireCmd x k c st 0 0 []
  | .ok l s =>
    let rem := (l.filter (·.1.remote)).map remOf
    let loc := (l.filter fun q => !q.1.remote).map locOf
    match rem with
    | [] => s.retireCmd x k c 0x00 0 0 []
    | r :: _ =>
      match (if rem.any fun q => s.routeMask q.2.2.1 == 0 then none else s.route r.2.2.1 core c.seq.toNat) with
      | none => s.retireCmd x k c 0x20 0 0 []
      | some p =>
        if (s.link p).failed then s.retireCmd x k c 0x20 0 0 []
        else
          match State.copyAd l s with
          | .wait s => s
          | .fail _ s => s
          | .ok _ s =>
            { s.setCtx x (k.setCmd { c with sent := true }) with
              xfers := s.xfers ++ [⟨x, c.seq, p, b, 0, 0, get, false, loc, rem⟩] }

/-- The next bytes of an `RPUT` lie on an expander that does not respond (R466). -/
def State.putDead (s : State) (c : Cmd) (f : Xfer) (n : Nat) : Bool :=
  !c.fl.getLsbD 0 && (locTargets f.loc f.off n).any fun t => s.expDead t.pa

/-- The bytes that an `RPUT` sends next: at most n, up to a poisoned sector. -/
def State.putBytes (s : State) (k : Ctx) (c : Cmd) (f : Xfer) (n : Nat) : List Byte × Bool × State :=
  let core := f.x.core.toNat
  if c.fl.getLsbD 0 then (s.spRead core (k.spAt (c.o2.toNat + f.off)) n, false, s)
  else State.copyRead core k.bd.vdev (locTargets f.loc f.off n) s

/-- Change the entry of a remote copy. -/
def State.setXfer (s : State) (g : Xfer) : State :=
  { s with xfers := s.xfers.map fun (h : Xfer) => if h.x = g.x && h.seq = g.seq then g else h }

/-- Bytes that the next flit of a remote copy covers at most: a flit's payload or an answer, up to the next commit mark
(R467, R471). -/
def Xfer.chunk (f : Xfer) : Nat := min (min (f.total - f.off) (4096 - f.off % 4096)) (if f.isGet then 4096 else 224)

/-- A remote copy goes on (R359, R471): one flit of an `RPUT`, with its commit mark where one is due, or the request for a
piece of an `RGET`. -/
def State.remoteSend (s : State) (k : Ctx) (c : Cmd) (f : Xfer) : State :=
  let dev := BitVec.ofNat 22 s.devId
  if f.total ≤ f.off || f.lost || !s.linkRoom f.port 2 then s
  else
    match remAt f.rem f.off f.chunk with
    | none => s
    | some (va, n, _, pv) =>
      if f.isGet then
        let off := f.off + n
        (s.setXfer { f with off := off }).send f.port
          [.get dev (BitVec.ofNat 6 k.bd.vdev) f.x f.seq (BitVec.ofNat 6 pv) (W va) f.off n (off % 4096 = 0 || off = f.total)]
      else if s.putDead c f n then s
      else
        let (bytes, poison, s) := s.putBytes k c f n
        let off := f.off + bytes.length
        let total := if poison then off else f.total
        let put := if bytes.isEmpty then []
          else [.put dev (BitVec.ofNat 6 k.bd.vdev) f.x f.seq (BitVec.ofNat 6 pv) (W va) f.off bytes]
        let mark := if (off % 4096 = 0 && !bytes.isEmpty) || off = total then [.putMark dev f.x f.seq off] else []
        (s.setXfer { f with off := off, total := total }).send f.port (put ++ mark)

/-- A remote copy that has no byte left to perform retires (R357, R359): 0x13 when poison has cut it short. -/
def State.remoteEnd (s : State) (x : CtxRef) (k : Ctx) (c : Cmd) (f : Xfer) (status : Nat) : State :=
  let secs := if f.isGet then copySectors (locTargets f.loc 0 f.count) f.count else []
  { s with xfers := s.xfers.filter fun (h : Xfer) => !(h.x = x && h.seq = c.seq) }.retireCmd x k c status 0 f.count secs

/-- The remote copy of a command. -/
def State.xfer? (s : State) (x : CtxRef) (seq : BitVec 16) : Option Xfer := s.xfers.find? fun (f : Xfer) => f.x == x && f.seq == seq

/-- The mark of an `RGET` here that waits: for its payload's places in the order log, or for an expander. -/
def State.getMark (s : State) (f : Xfer) : Option Nat := (s.link f.port).pend.findSome? (LinkMsgs.markOf f.x f.seq)

/-- The payload of an `RGET` that has come in, from the first byte not written on. -/
def State.getPayload (s : State) (f : Xfer) : List Byte :=
  let l := (s.link f.port).pend.filter (LinkMsgs.ofData f.x f.seq)
  let bytes := l.flatMap LinkMsgs.bytes
  match l.getLast? with
  | none => []
  | some m => bytes.drop (f.count + bytes.length - LinkMsgs.ending m)

/-- Payload up to a mark is written: it and its mark are let go of. -/
def State.getClear (s : State) (f : Xfer) (mark : Nat) : State :=
  s.linkUpd f.port fun l => { l with pend := l.pend.filter fun m =>
    !((LinkMsgs.ofData f.x f.seq m && decide (LinkMsgs.ending m ≤ mark)) || LinkMsgs.markOf f.x f.seq m == some mark) }

/-- Write payload of an `RGET` where it goes here (R353, R359). -/
def State.getWrite (s : State) (k : Ctx) (c : Cmd) (f : Xfer) (bytes : List Byte) : State :=
  let core := f.x.core.toNat
  if c.fl.getLsbD 0 then s.spWrite core (k.spAt (c.o1.toNat + f.count)) bytes
  else State.copyWrite core k.bd.vdev (locTargets f.loc f.count bytes.length) bytes s

/-- The payload of an `RGET` up to a mark is written and counted (R471). -/
def State.getUpTo (s : State) (k : Ctx) (c : Cmd) (f : Xfer) (mark : Nat) : State :=
  let bytes := (s.getPayload f).take (mark - f.count)
  ((s.getClear f mark).getWrite k c f bytes).setXfer { f with count := f.count + bytes.length }

/-- The writes of an `RGET` that pass through the order log: not those to scratchpad. -/
def State.getLogged (s : State) (k : Ctx) (c : Cmd) : Bool := s.logging k && !c.fl.getLsbD 0

/-- The next n bytes of an `RGET` go to an expander that does not respond (R466). -/
def State.getDead (s : State) (c : Cmd) (f : Xfer) (n : Nat) : Bool :=
  !c.fl.getLsbD 0 && s.tgtsDead (locTargets f.loc f.count n)

/-- The payload of an `RGET` up to a mark, sector by sector, each in its place of the order log (R457). -/
def State.loggedGet (x : CtxRef) (k : Ctx) (c : Cmd) (mark : Nat) : Nat → State → Xfer → State
  | 0, s, f => (s.getClear f mark).setXfer f
  | fuel + 1, s, f =>
    match locTargets f.loc f.count (mark - f.count) with
    | [] => (s.getClear f mark).setXfer f
    | t :: _ =>
      match (if s.expDead t.pa then none else s.orderGate x k c true (t.pa / 64)) with
      | none => s.setXfer f
      | some s =>
        let bytes := (s.getPayload f).take (min t.n (64 - t.pa % 64))
        State.loggedGet x k c mark fuel (s.getWrite k c f bytes) { f with count := f.count + bytes.length }

/-- `RPUT` and `RGET` (R359). -/
def State.remoteAct (s : State) (x : CtxRef) (k : Ctx) (c : Cmd) : State :=
  match s.xfer? x c.seq with
  | none => s.remoteStart x k c
  | some f =>
    match s.getMark f with
    | some mark =>
      if s.getLogged k c then State.loggedGet x k c mark 128 s f
      else if s.getDead c f (mark - f.count) then s
      else s.getUpTo k c f mark
    | none => if f.total ≤ f.count then s.remoteEnd x k c f (if f.total < c.o3.toNat then 0x13 else 0x00) else s.remoteSend k c f

/-- The copy engine performs a command (R353). -/
def State.copyAct (s : State) (x : CtxRef) (k : Ctx) (c : Cmd) : State :=
  match c.opc with
  | 0x58 | 0x59 => s.bytesAct x k c
  | 0x5A | 0x5B => s.listAct x k c
  | 0x5C => s.cpgiAct x k c
  | _ => s.remoteAct x k c

/-- COPY_COMMAND_ACT (R357). -/
def execCopyCommandAct (x : CtxRef) (seq : BitVec 16) (s : State) : Out :=
  s.withCmd x seq (fun c => engOf c.opc == 0) fun s k c => s.startCmd x k c fun s => s.copyAct x k c

end Sys2Proof.Machine
end

