-- ==== Sys2Proof/Machine/Equiv.lean ====
section
/-! DEFINITION. The equivalence engine: EQCLR, EQU, EQF, EQZ, EQR, EQSNP, EQUND, the forest, runs and watches (spec/13). -/
namespace Sys2Proof.Machine

/-- Number of elements (R328). -/
def CtxSr.eqN (r : CtxSr) : Nat := bits r.eqpar 32 21
/-- Offsets of the parent array, the size array and the log (R328). -/
def CtxSr.parOff (r : CtxSr) : Nat := bits r.eqpar 0 22
@[inherit_doc CtxSr.parOff] def CtxSr.sizOff (r : CtxSr) : Nat := bits r.eqsz 0 22
@[inherit_doc CtxSr.parOff] def CtxSr.logOff (r : CtxSr) : Nat := bits r.eqlog 0 22
/-- Entries of the log; 0 for no log (R328). -/
def CtxSr.logCap (r : CtxSr) : Nat := if bits r.eqlog 32 4 = 0 then 0 else 2 ^ bits r.eqlog 32 4

/-- The regions of the forest (R334, R335): offset and length. -/
def CtxSr.forest (r : CtxSr) : List (Nat × Nat) := [(r.parOff, 4 * r.eqN), (r.sizOff, 4 * r.eqN), (r.logOff, 16 * r.logCap)]

/-- The forest of a context in the hands of its engine: the state, the context, the number of the command. -/
structure Fr where
  s : State
  k : Ctx
  core : Nat
  seq : BitVec 16
  deriving DecidableEq, Repr

/-- A 32-bit word of the partition. -/
def Fr.word (f : Fr) (off : Nat) : Nat := leNat (f.s.spRead f.core (f.k.spAt off) 4)

/-- Write a 32-bit word of the partition. -/
def Fr.setWord (f : Fr) (off v : Nat) : Fr := { f with s := f.s.spWrite f.core (f.k.spAt off) (leBytes 4 v) }

/-- Parent and size of an element (R328). -/
def Fr.par (f : Fr) (x : Nat) : Nat := f.word (f.k.sr.parOff + 4 * x)
@[inherit_doc Fr.par] def Fr.siz (f : Fr) (x : Nat) : Nat := f.word (f.k.sr.sizOff + 4 * x)
/-- Write a parent or a size. -/
def Fr.setPar (f : Fr) (x v : Nat) : Fr := f.setWord (f.k.sr.parOff + 4 * x) v
@[inherit_doc Fr.setPar] def Fr.setSiz (f : Fr) (x v : Nat) : Fr := f.setWord (f.k.sr.sizOff + 4 * x) v

/-- Change the special registers. -/
def Fr.sr (f : Fr) (g : CtxSr → CtxSr) : Fr := { f with k := { f.k with sr := g f.k.sr } }

/-- Free log entries. -/
def Fr.free (f : Fr) : Nat := f.k.sr.logCap - f.k.sr.eqUsed

/-- Append an entry to the undo log (R345). -/
def Fr.append (f : Fr) (idx opar osz : Nat) : Fr :=
  let at_ := f.k.sr.logOff + 16 * f.k.sr.eqUsed
  ((((f.setWord at_ idx).setWord (at_ + 4) opar).setWord (at_ + 8) osz).setWord (at_ + 12) f.seq.toNat).sr
    fun r => { r with eqUsed := r.eqUsed + 1 }

/-- Log an element's parent and size, while a snapshot is open (R345). -/
def Fr.logEntry (f : Fr) (y : Nat) : Fr := if f.k.sr.eqDepth = 0 then f else f.append y (f.par y) (f.siz y)

/-- Write a parent by compression or flattening (R345). -/
def Fr.writePar (f : Fr) (y r : Nat) : Fr :=
  if f.k.sr.eqDepth = 0 then f.setPar y r else if 3 ≤ f.free then (f.logEntry y).setPar y r else f

/-- Follow parents to the root (R331): the root, or the element where the walk stops. -/
def Fr.rootOf (f : Fr) : Nat → Nat → Except Nat Nat
  | 0, r => .error r
  | fuel + 1, r =>
    let p := f.par r
    if p = r then .ok r
    else if r < p || f.k.sr.eqN ≤ p then .error r
    else f.rootOf fuel p

/-- Compress the path from an element to its root (R331). -/
def Fr.compress (r : Nat) : Nat → Nat → Fr → Fr
  | 0, _, f => f
  | fuel + 1, y, f =>
    let next := f.par y
    if next = r then f else Fr.compress r fuel next (f.writePar y r)

/-- find (R331). -/
def Fr.find (f : Fr) (x : Nat) : Except Nat (Nat × Fr) :=
  match f.rootOf (x + 1) x with
  | .error e => .error e
  | .ok r => .ok (r, Fr.compress r (x + 1) x f)

/-- What performing a command comes to: a value, an aux, a status; or a failure with its cause and detail (R348). -/
inductive FrRes where
  | done (f : Fr) (status : Nat) (value : Word) (aux : Nat)
  | fail (f : Fr) (cause detail : Nat)

/-- unite (R331). -/
def Fr.unite (f : Fr) (a b : Nat) : FrRes :=
  match f.find a with
  | .error x => .fail f 0x42 x
  | .ok (ra, f) =>
    match f.find b with
    | .error x => .fail f 0x42 x
    | .ok (rb, f) =>
      if ra = rb then .done f 0x00 0 0
      else
        let lo := min ra rb
        let hi := max ra rb
        if 0 < f.k.sr.eqDepth && f.free < 2 then .fail f 0x41 f.k.sr.eqUsed
        else
          let f := ((f.logEntry hi).logEntry lo).setPar hi lo
          .done (f.setSiz lo ((f.siz lo + f.siz hi) % 2 ^ 32)) 0x00 0 0

/-- Roots before the range whose class has a member in it: their sizes are undefined once it is cleared (spec/13, EQCLR). -/
def Fr.spanning (f : Fr) (lo cnt : Nat) : List Nat :=
  (upTo cnt).filterMap fun i =>
    match f.rootOf (lo + i + 1) (lo + i) with
    | .ok r => if r < lo then some r else none
    | .error _ => none

/-- EQCLR (R337). -/
def Fr.clear (f : Fr) (lo cnt : Nat) : FrRes :=
  if cnt = 0 then .done f 0x00 0 0
  else
    let f := (f.spanning lo cnt).foldl (fun (g : Fr) r => g.setSiz r (Config.freeWord (2 ^ 85 + f.s.md.tick * 2 ^ 21 + r)).toNat) f
    let f := (upTo cnt).foldl (fun (f : Fr) i => (f.setPar (lo + i) (lo + i)).setSiz (lo + i) 1) f
    let disarm := fun (w : Word) => if decide (lo ≤ bits w 0 20) && decide (bits w 0 20 < lo + cnt) then keep w 62 0 else w
    .done (f.sr fun r => { r with eqUsed := 0, eqDepth := 0, eqw := r.eqw.foldl (fun t p => tset 0 t p.1 (disarm p.2)) [] }) 0x00 0 0

/-- Watch register w (R341). -/
def CtxSr.watch (r : CtxSr) (w : Nat) : Word := tget 0 r.eqw w

/-- Write watch register w. -/
def CtxSr.setWatch (r : CtxSr) (w : Nat) (v : Word) : CtxSr := { r with eqw := tset 0 r.eqw w v }

/-- Check watch w (R342): it fires when its class has reached the threshold; the event's value. -/
def Fr.fires (f : Fr) (w : Nat) : Option Word :=
  let v := f.k.sr.watch w
  let x := bits v 0 20
  if !bitAt v 63 then none
  else
    match f.rootOf (x + 1) x with
    | .error _ => none
    | .ok r => if bits v 20 21 ≤ f.siz r then some (W (f.siz r % 2 ^ 21 * 2 ^ 32 + r)) else none

/-- Fire watch w of the context at a place (R342, R365). -/
def Fr.checkWatch (f : Fr) (x : CtxRef) (w : Nat) : Fr :=
  match f.fires w with
  | none => f
  | some v =>
    let k := { f.k with sr := f.k.sr.setWatch w (keep (f.k.sr.watch w) 61 0 ||| W (2 ^ 62)) }
    let s := (f.s.setCtx x k).postEvent x 1 w v
    { f with s := s, k := (s.ctx? x).getD k }

/-- EQZ (R340): the size, and the watch that it arms. -/
def Fr.sizeOf (f : Fr) (x : CtxRef) (c : Cmd) : FrRes :=
  match f.find c.o2.toNat with
  | .error e => .fail f 0x42 e
  | .ok (r, f) =>
    let v := W (f.siz r)
    if c.fl.getLsbD 3 then
      let w := c.fl.toNat % 8
      let f := f.sr fun q => q.setWatch w (W (2 ^ 63 + bits c.o3 0 21 * 2 ^ 20 + c.o2.toNat))
      .done (f.checkWatch x w) 0x00 v 0
    else .done f 0x00 v 0

/-- Values per element of an `EQR` (R343). -/
def eqrW (fl : BitVec 9) : Nat := fl.toNat % 64 + 1

/-- Value j of element x of an `EQR.sum` (R343, R344). -/
def Fr.value (f : Fr) (c : Cmd) (x j : Nat) : Nat :=
  let i := x * eqrW c.fl + j
  if c.fl.toNat / 64 % 4 = 0 then f.word (c.o2.toNat + 4 * i) else (c.vals.getD i 0).toNat

/-- Where an `EQR` stands: labels given, label of each element so far, sums so far, flags. -/
structure EqrSt where
  f : Fr
  k : Nat
  lab : List Nat
  sums : List (List Nat)
  fl : BitVec 5

/-- Add the values of an element to its class's sums (R343). -/
def eqrAdd (old vals : List Nat) : List Nat × BitVec 5 := gtRow addF32 old vals

/-- One element of an `EQR` (R343). -/
def EqrSt.visit (q : EqrSt) (c : Cmd) (x : Nat) : Except (Fr × Nat) EqrSt :=
  match q.f.find x with
  | .error e => .error (q.f, e)
  | .ok (r, f) =>
    let f := f.writePar x r
    let l := if r = x then q.k else q.lab.getD r 0
    let q := { q with f := f, k := if r = x then q.k + 1 else q.k, lab := q.lab ++ [l] }
    if !c.fl.getLsbD 8 then .ok { q with f := f.setWord (c.o1.toNat + 4 * x) l }
    else
      let vals := (upTo (eqrW c.fl)).map (f.value c x)
      if r = x then .ok { q with sums := q.sums ++ [vals] }
      else
        let (s, fl) := eqrAdd (q.sums.getD l []) vals
        .ok { q with sums := q.sums.set l s, fl := q.fl ||| fl }

/-- Elements x to n − 1 of an `EQR`. -/
def EqrSt.visitAll (c : Cmd) : Nat → Nat → EqrSt → Except (Fr × Nat) EqrSt
  | 0, _, q => .ok q
  | fuel + 1, x, q =>
    match q.visit c x with
    | .error e => .error e
    | .ok q => EqrSt.visitAll c fuel (x + 1) q

/-- EQR (R343). -/
def Fr.relabel (f : Fr) (c : Cmd) : FrRes :=
  let n := f.k.sr.eqN
  match EqrSt.visitAll c n 0 ⟨f, 0, [], [], 0⟩ with
  | .error (f, e) => .fail f 0x42 e
  | .ok q =>
    let f := if c.fl.getLsbD 8 then
        q.sums.flatten.zipIdx.foldl (fun (f : Fr) v => f.setWord (c.o1.toNat + 4 * v.2) v.1) q.f
      else q.f
    .done { f with s := f.s.taskFlags f.k q.fl } 0x00 (W q.k) n

/-- EQSNP (R346). -/
def Fr.snapshot (f : Fr) : FrRes :=
  let r := f.k.sr
  if r.eqDepth = 16 || f.free = 0 then .fail f 0x41 r.eqUsed
  else .done ((f.append (2 ^ 32 - 1) (r.eqDepth + 1) 0).sr fun r => { r with eqDepth := r.eqDepth + 1 }) 0x00 (W (r.eqDepth + 1)) 0

/-- Fields of log entry p (R345). -/
def Fr.logIdx (f : Fr) (p : Nat) : Nat := f.word (f.k.sr.logOff + 16 * p)
@[inherit_doc Fr.logIdx] def Fr.logPar (f : Fr) (p : Nat) : Nat := f.word (f.k.sr.logOff + 16 * p + 4)
@[inherit_doc Fr.logIdx] def Fr.logSiz (f : Fr) (p : Nat) : Nat := f.word (f.k.sr.logOff + 16 * p + 8)

/-- Positions p to q − 1. -/
def posRange (p q : Nat) : List Nat := (upTo (q - p)).map fun i => p + i

/-- Replay entry p of the log, as it stands when its turn comes (R6, R347): the forest, and the entries replayed. An index
that the replay itself has brought out of the forest writes nothing (log 48). -/
def Fr.restore (q : Fr × Nat) (p : Nat) : Fr × Nat :=
  let g := q.1
  let idx := g.logIdx p
  if idx = 2 ^ 32 - 1 then q
  else if g.k.sr.eqN ≤ idx then (g, q.2 + 1)
  else
    let osz := g.logSiz p
    (((g.setPar idx (g.logPar p)).setSiz idx osz), q.2 + 1)

/-- EQUND (R347); the aux of a record without a mark: log 48. -/
def Fr.undo (f : Fr) (m : Nat) (keepMark : Bool) : FrRes :=
  let used := f.k.sr.eqUsed
  let depth := f.k.sr.eqDepth
  let m := if m = 0 then depth else m
  if depth = 0 || depth < m then .done f 0x14 0 depth
  else
    match (upTo used).reverse.find? fun p => f.logIdx p == 2 ^ 32 - 1 && f.logPar p == m with
    | none => .fail f 0x42 used
    | some q =>
      match (posRange (q + 1) used).find? fun p => f.logIdx p != 2 ^ 32 - 1 && decide (f.k.sr.eqN ≤ f.logIdx p) with
      | some p => .fail f 0x42 p
      | none =>
        let (g, n) := (posRange (q + 1) used).reverse.foldl Fr.restore (f, 0)
        let d := if keepMark then m else m - 1
        .done (g.sr fun r => { r with eqDepth := d, eqUsed := if keepMark then q + 1 else q }) 0x00 (W n) d

/-- Perform a command on the forest (R332). -/
def Fr.perform (f : Fr) (x : CtxRef) (c : Cmd) : FrRes :=
  match c.opc with
  | 0x65 => f.clear c.o1.toNat c.o2.toNat
  | 0x66 => f.unite c.o1.toNat c.o2.toNat
  | 0x67 => (match f.find c.o2.toNat with
    | .error e => .fail f 0x42 e
    | .ok (r, f) => .done f 0x00 (W r) 0)
  | 0x68 => f.sizeOf x c
  | 0x69 => f.relabel c
  | 0x6A => f.snapshot
  | _ => f.undo c.o1.toNat (c.fl.getLsbD 0)

/-- A failure is pending (R348): of two, the one of the earlier command. -/
def EngSt.pend (e : EngSt) (cause detail : Nat) (seq : BitVec 16) : EngSt :=
  match e.eqFail with
  | some (_, _, old) =>
    if (seq - old).toNat < 2 ^ 15 then e
    else { e with eqFail := some (BitVec.ofNat 8 cause, W (detail * 2 ^ 32 + seq.toNat), seq) }
  | none => { e with eqFail := some (BitVec.ofNat 8 cause, W (detail * 2 ^ 32 + seq.toNat), seq) }

/-- Commands after a failed one, in issue order. -/
def afterCmd (seq : BitVec 16) : List Cmd → List Cmd
  | [] => []
  | c :: t => if c.seq = seq then t else afterCmd seq t

/-- The equivalence commands issued after a failed one are cancelled, but for the unions of its run (R348). -/
def Ctx.eqCancelAfter (k : Ctx) (c : Cmd) : Ctx :=
  let later := (afterCmd c.seq k.eng.cmds).map (·.seq)
  let hit := fun (d : Cmd) => later.contains d.seq && engOf d.opc == 1 && !(c.opc == 0x66 && d.opc == 0x66 && d.run == c.run)
  { k with eng := { k.eng with cmds := k.eng.cmds.map fun (d : Cmd) => if hit d then { d with cancel := d.cancel.or (some c.seq) } else d } }

/-- A value goes to the register or the queue of a command (R336). -/
def Ctx.giveValue (k : Ctx) (c : Cmd) (v : Word) (ok : Bool) : Ctx :=
  k.deliver c.dst (if ok then v else BitVec.allOnes 64) ok

/-- A command has been performed, or has failed: its value, its record, what follows from a failure (R336, R348, R349). -/
def State.eqFinish (x : CtxRef) (c : Cmd) (r : FrRes) : State :=
  match r with
  | .done f st v aux => f.s.retireCmd x (f.k.giveValue c v true) c st v aux []
  | .fail f cause detail =>
    let k := (f.k.giveValue c 0 false).eqCancelAfter c
    f.s.retireCmd x { k with eng := k.eng.pend cause detail c.seq } c cause 0 0 []

/-- EQ_COMMAND_PERFORM (R332). -/
def execEqCommandPerform (x : CtxRef) (seq : BitVec 16) (s : State) : Out :=
  s.withCmd x seq (fun c => engOf c.opc == 1) fun s k c =>
    s.startCmd x k c fun s =>
      if k.mayPerform c then State.eqFinish x c (Fr.perform ⟨s, k, x.core.toNat, c.seq⟩ x c) else s

/-- The oldest closed run of unions has performed all its unions (R332). -/
def EngSt.runOver (e : EngSt) : Bool := e.ended != e.runs && !(e.cmds.any fun (c : Cmd) => c.opc == 0x66 && c.run == e.ended)

/-- A run ends, and the watches are checked in increasing number (R342). -/
def State.eqRunEnd (x : CtxRef) (s : State) : State :=
  match s.ctx? x with
  | none => s
  | some k =>
    if !k.eng.runOver then s
    else
      let f := (upTo 8).foldl (fun (f : Fr) w => f.checkWatch x w) ⟨s, k, x.core.toNat, 0⟩
      f.s.setCtx x { f.k with eng := { f.k.eng with ended := f.k.eng.ended + 1 } }

/-- EQ_RUN_END (R332, R342): of the context bound at the place, or of one saved from there. -/
def execEqRunEnd (x : CtxRef) (s : State) : Out :=
  if (s.ctx? x).any fun k => k.eng.runOver then .next (s.eqRunEnd x)
  else
    match s.saved.find? fun (q : Saved) => q.x == x && q.k.eng.runOver with
    | none => .next s
    | some q => .next (s.onSaved q (State.eqRunEnd x))

/-- sr.tval of cause 0x40 (R334). -/
def eqTval (reason : Nat) (v : Word) : Word := W (reason * 2 ^ 60 + bits v 0 60)

/-- The first check of every equivalence command (R334): the forest lies in the partition. -/
def Ctx.forestBad (k : Ctx) : Option (BitVec 8 × Word) :=
  (k.sr.forest.find? fun r => decide (0 < r.2) && decide (k.bd.ssize < r.1 + r.2)).map fun r => (0x12, W (max r.1 k.bd.ssize))

/-- The ranges of every equivalence command (R335). -/
def CtxSr.forestRanges (r : CtxSr) : List Range := r.forest.map fun p => ⟨p.1, p.2, true⟩

/-- An equivalence word (R332, R334, R348): its own checks are `bad`, its own ranges `more`. -/
def Mach.eqWord (m : Mach) (h : Hdr) (o : E) (opc : Nat) (act : Bool) (out : Option (BitVec 6)) (bad : Option (BitVec 8 × Word))
    (o1 o2 o3 : Word) (more : List Range) : Res :=
  match m.eqPending with
  | some r => r
  | none =>
    let m := if opc = 0x66 then m else m.ctx Ctx.closeRun
    m.engineWord h o opc act out ⟨m.k.forestBad.or bad, o1, o2, o3, m.k.sr.forestRanges ++ more, out⟩

/-- An element that does not exist (R334): reason 1. -/
def Ctx.elemBad (k : Ctx) (x : Word) : Option (BitVec 8 × Word) := if k.sr.eqN ≤ x.toNat then some (0x40, eqTval 1 x) else none

/-- EQCLR (R337). -/
def execEqclr (h : Hdr) (o : E) (s : State) : Out :=
  issueWord (.eqclr h o) h { Ports.none with srcs := [o.o1, o.o2] }
    (fun m a =>
      let bad := if m.k.sr.eqN < (a.v 0).toNat + (a.v 1).toNat then some ((0x40 : BitVec 8), eqTval 2 (a.v 1)) else none
      m.eqWord h o 0x65 a.act none bad (a.v 0) (a.v 1) 0 []) s

/-- EQU (R338). -/
def execEqu (h : Hdr) (o : E) (s : State) : Out :=
  issueWord (.equ h o) h { Ports.none with srcs := [o.o1, o.o2] }
    (fun m a => m.eqWord h o 0x66 a.act none ((m.k.elemBad (a.v 0)).or (m.k.elemBad (a.v 1))) (a.v 0) (a.v 1) 0 []) s

/-- EQF (R339). -/
def execEqf (h : Hdr) (o : E) (s : State) : Out :=
  issueWord (.eqf h o) h { Ports.none with srcs := [o.o2], dsts := [o.o1] }
    (fun m a => m.eqWord h o 0x67 a.act (some o.o1) (m.k.elemBad (a.v 0)) 0 (a.v 0) 0 []) s

/-- EQZ (R340). -/
def execEqz (h : Hdr) (o : E) (s : State) : Out :=
  let arm := o.fl.getLsbD 3
  issueWord (.eqz h o) h { Ports.none with srcs := o.o2 :: (if arm then [o.o3] else []), dsts := [o.o1] }
    (fun m a =>
      let thr := (a.v 1).toNat
      let bad := (m.k.elemBad (a.v 0)).or
        (if arm && (thr = 0 || 2 ^ 20 < thr) then some ((0x40 : BitVec 8), eqTval 3 (a.v 1)) else none)
      m.eqWord h o 0x68 a.act (some o.o1) bad 0 (a.v 0) (a.v 1) []) s

/-- EQSNP (R346). -/
def execEqsnp (h : Hdr) (o : E) (s : State) : Out :=
  issueWord (.eqsnp h o) h { Ports.none with dsts := [o.o1] }
    (fun m a =>
      let bad := if m.k.sr.logCap = 0 then some ((0x40 : BitVec 8), eqTval 4 0) else none
      m.eqWord h o 0x6A a.act (some o.o1) bad 0 0 0 []) s

/-- EQUND (R347); the aux of a record without a mark: log 48. -/
def execEqund (h : Hdr) (o : E) (s : State) : Out :=
  issueWord (.eqund h o) h { Ports.none with srcs := [o.o1] }
    (fun m a =>
      let bad := if 16 < (a.v 0).toNat then some ((0x40 : BitVec 8), eqTval 3 (a.v 0)) else none
      m.eqWord h o 0x6B a.act none bad (a.v 0) 0 0 []) s

/-- Queue of an `EQR` with a queue source (R343). -/
def eqrQueue (fl : BitVec 9) : Option Nat := match fl.toNat / 64 % 4 with
  | 1 => some 9
  | 2 => some 15
  | _ => none

/-- Entries that an `EQR` pops (R344). -/
def eqrNeed (n : Nat) (fl : BitVec 9) : Nat := (n * eqrW fl + 63) / 64

/-- The lanes of a popped entry go to the `EQR` that waits for them (R344). -/
def Ctx.feedEqr (k : Ctx) (lanes : Row) : Ctx :=
  { k with eng := { k.eng with cmds := k.eng.cmds.map fun (c : Cmd) =>
      if c.need = 0 then c else { c with vals := c.vals ++ lanes, need := c.need - 1 } } }

/-- Pop entries of an `EQR`, as many as there are (R344). -/
def Mach.popEqr (q : Nat) (act : Bool) : Nat → Mach → Nat × Mach
  | 0, m => (0, m)
  | n + 1, m =>
    match popSlot (m.k.rq? q) with
    | none => (0, m)
    | some (e, l) =>
      let m := m.ctx fun k => if act then (k.setRq q l).feedEqr e.lanes else k.setRq q l
      let (k, m) := Mach.popEqr q act n m
      (k + 1, m)

/-- An `EQR` goes on after k of n entries (R344). -/
def eqrGoOn (q : Nat) (act : Bool) (k n : Nat) (m : Mach) : Res :=
  let (d, m) := Mach.popEqr q act (n - k) m
  if k + d = n then .done m
  else .hold (m.str fun t => { t with prog := some ⟨k + d, n, none⟩ }) .queue

/-- Ports of `EQR`. -/
def eqrPorts (o : E) : Ports :=
  { Ports.none with
    srcs := o.o1 :: (if o.fl.getLsbD 8 && o.fl.toNat / 64 % 4 == 0 then [o.o2] else [])
    resumes := fun p => (eqrQueue o.fl).isSome && decide (1 ≤ p.k) && decide (p.k < p.n) }

/-- The command that has just issued awaits entries. -/
def Ctx.awaits (k : Ctx) (n : Nat) (seq : BitVec 16) : Ctx :=
  { k with eng := { k.eng with cmds := k.eng.cmds.map fun (c : Cmd) => if c.seq = seq then { c with need := n } else c } }

/-- Body of `EQR` (R343, R344). -/
def eqrBody (h : Hdr) (o : E) (m : Mach) (a : Opnds) : Res :=
  let n := m.k.sr.eqN
  let w := eqrW o.fl
  let sum := o.fl.getLsbD 8
  let bytes := if sum then 4 * n * w else 4 * n
  let fromSp := sum && (eqrQueue o.fl).isNone
  let issue := fun (m : Mach) =>
    m.eqWord h o 0x69 a.act none ((m.spCheck (a.v 0) bytes 4).or (if fromSp then m.spCheck (a.v 1) bytes 4 else none)) (a.v 0) (a.v 1) 0
      (rangeOf (a.v 0) bytes true :: (if fromSp then [rangeOf (a.v 1) bytes false] else []))
  match eqrQueue o.fl, m.t.prog with
  | some q, some p => eqrGoOn q a.act p.k p.n m
  | some q, none =>
    let need := eqrNeed n o.fl
    if 0 < need && (popSlot (m.k.rq? q)).isNone then .wait .queue
    else
      (match issue m with
       | .done m' => eqrGoOn q a.act 0 need (m'.ctx fun k => k.awaits need m.k.sr.seq)
       | r => r)
  | none, _ => issue m

/-- EQR (R343). -/
def execEqr (h : Hdr) (o : E) (s : State) : Out := issueWord (.eqr h o) h (eqrPorts o) (eqrBody h o) s

end Sys2Proof.Machine
end

