-- ==== Sys2Proof/Machine/Faults.lean ====
section
/-! DEFINITION. Stopping a context, fault records and Polpen's answers, machine checks, expanders that do not respond
(spec/18 R425 to R430, spec/20 R466). -/
namespace Sys2Proof.Machine

/-- A store that cannot leave the store buffer because its expander does not respond (R466). -/
def State.storeDead (s : State) (core : Nat) (e : StoreEnt) : Bool := s.deadAt core e.pa 1

/-- A record write to an expander that does not respond. -/
def State.writeDead (s : State) (w : HeadWrite) : Bool := w.pieces.any fun p => s.expDead p.pa

/-- The stream whose record write it is: the owner of its head (R191). -/
def Ctx.writer (k : Ctx) (w : HeadWrite) : Stream := (tget Head.unbound k.heads w.hd).owner

/-- The stream's own fault stands in the record being gathered: what it has outstanding is not waited for any more, and a
resume takes it up again (R425, R429). -/
def Ctx.reported (k : Ctx) (st : Stream) : Bool := k.smask.getLsbD st.num

/-- A load of which a part is poisoned (R305): the A stream takes its cause before its next word (log 18). -/
def State.loadPoisoned (s : State) (core : Nat) (k : Ctx) (l : LoadEnt) : Bool :=
  l.parts.any fun p => (s.loadPart core k l p.1 p.2).2.1

/-- A load that a stop does not wait for (R425, log 26): the A stream has its cause already, in this record or in the handler
that runs. -/
def State.loadLeft (s : State) (core : Nat) (k : Ctx) (l : LoadEnt) : Bool :=
  (k.reported .A && s.loadDead core l) || ((k.reported .A || (k.a.plev && l.late)) && s.loadPoisoned core k l)

/-- What R425 waits for: loads and window fills have returned, stores have left, record writes are performed, and no
issued word is on its way. An access to an expander that does not respond ends with its cause, in the same record (R466, log
26). -/
def State.settled (s : State) (x : CtxRef) (k : Ctx) : Bool :=
  k.loads.all (s.loadLeft x.core.toNat k) && k.stores.all (fun e => k.reported .A && s.storeDead x.core.toNat e) &&
  k.hwrites.all (fun w => k.reported (k.writer w) && s.writeDead w) && k.fills.all (fun (f : Fill) => f.done || f.zero) &&
  !k.sr.injecting && Stream.all.all fun st => !(k.str st).ending || (k.str st).stalled == some .push

/-- A stream at rest (R123, R425): its `WAIT` delay is over, and inside a body sr.epc holds the address of the resume slot,
but where the stream's own trap has written it. -/
def StreamSt.atRest (t : StreamSt) (own : Bool) : StreamSt :=
  { t with wakeAt := none, stalled := none, epc := if t.inBody && !own then epcMask t.pc else t.epc }

/-- The streams of a context that stops (R425). -/
def Ctx.atRest (k : Ctx) : Ctx :=
  Stream.all.foldl (fun (k : Ctx) st => k.setStr st ((k.str st).atRest (k.reported st))) k

/-- The fault record of a context (R428), with the mark of R415. -/
def State.faultRec (s : State) (x : CtxRef) (k : Ctx) : FRec :=
  ⟨recWords x k.smask.toNat 0 k.bd.vdev k.bd.task
    (Stream.all.map fun st =>
      if k.reported st then ((k.str st).cause, (k.str st).epc, (k.str st).tval) else (0, 0, 0)) s.time,
    k.wmark != 0⟩

/-- The stop of a context is complete (R425, R427, R431): it waits for its answer, or the core goes to the other bank. -/
def State.stopDone (s : State) (x : CtxRef) (k : Ctx) (fault : Bool) : State :=
  if fault then
    let hit := Stream.all.any fun st => k.reported st && (k.str st).cause == 0x62
    { s.setCtx x { k.atRest with run := .stopped, unanswered := true, machineChecked := hit, smask := 0, wmark := 0 } with
      frecs := s.frecs ++ [s.faultRec x k] }
  else
    let s := s.setCtx x { k.atRest with run := .ready }
    if s.runsAt x && s.readyAt (otherBank x) && !s.barred (otherBank x) then s.runBank (otherBank x) else s

/-- CONTEXT_STOP_COMPLETE (R425). -/
def execContextStopComplete (x : CtxRef) (s : State) : Out :=
  match s.ctx? x with
  | none => .next s
  | some k =>
    match k.run with
    | .stopping fault => .next (if s.settled x k then s.stopDone x k fault else s)
    | _ => .next s

/-- FAULT_RECORD_POST (R428): the oldest record is written into the ring, unless the ring is full. -/
def execFaultRecordPost (s : State) : Out :=
  match s.frecs with
  | [] => .next s
  | r :: rest =>
    let cfg := s.reg 0x50000
    let idx := s.reg 0x50008
    let size := 2 ^ bits cfg 0 5
    let tail := bits idx 0 32
    if size ≤ (tail + 2 ^ 32 - bits idx 32 32) % 2 ^ 32 then .next s
    else
      let at_ := bits cfg 12 40 * 4096 + tail % size * 128
      let s := s.pkgPut at_ (r.words.flatMap fun w => leBytes 8 w.toNat)
      .next { s.setReg 0x50008 (W (bits idx 32 32 * 2 ^ 32 + (tail + 1) % 2 ^ 32)) with frecs := rest }

/-- An access that has timed out is translated again as its context resumes (R429): where the page lies now. -/
def State.again (s : State) (core : Nat) (k : Ctx) (va : Nat) (n : Need) : Option Target :=
  match s.look core k (W va) n with
  | (.ok t, _) => some t
  | _ => none

/-- What a load needs of its pages. -/
def Ctx.loadNeed (k : Ctx) (l : LoadEnt) : Need := if l.atomic then k.needRw else k.needLd

/-- What a head's write needs of its pages (R416). -/
def Need.headWrite : Need := ⟨false, true, false, some maskHd, none⟩

/-- The accesses of a context to expanders that do not respond: stream, address, what each needs. -/
def State.deadAccesses (s : State) (core : Nat) (k : Ctx) : List (Stream × Nat × Need) :=
  (k.loads.flatMap fun (l : LoadEnt) =>
    (l.segs.filter fun g => s.deadAt core g.pa g.n).map fun g => (Stream.A, l.va + g.off, k.loadNeed l)) ++
  ((k.stores.filter (s.storeDead core)).map fun (e : StoreEnt) => (Stream.A, e.va, k.needSt)) ++
  k.hwrites.flatMap fun (w : HeadWrite) =>
    (w.pieces.filter fun (p : WPiece) => s.expDead p.pa).map fun (p : WPiece) => (k.writer w, p.va, Need.headWrite)

/-- The cause that executing one of them again meets first (R429). -/
def State.againFault (s : State) (core : Nat) (k : Ctx) : Option (Stream × BitVec 8 × Nat) :=
  (s.deadAccesses core k).findSome? fun p =>
    match (s.look core k (W p.2.1) p.2.2).1 with
    | .trap c => some (p.1, c, p.2.1)
    | _ => none

/-- The accesses of a context to expanders that do not respond, translated again (R429, log 26). -/
def State.retarget (s : State) (x : CtxRef) (k : Ctx) : Ctx :=
  let core := x.core.toNat
  { k with
    loads := k.loads.map fun (l : LoadEnt) =>
      { l with segs := l.segs.map fun (g : Seg) =>
          if !s.deadAt core g.pa g.n then g
          else
            match s.again core k (l.va + g.off) (k.loadNeed l) with
            | some t => { g with pa := t.pa, tag := t.acc.tag, path := t.path }
            | none => g }
    stores := k.stores.map fun (e : StoreEnt) =>
      if !s.storeDead core e then e
      else
        match s.again core k e.va k.needSt with
        | some t => { e with pa := t.pa, tag := t.acc.tag, path := t.path }
        | none => e
    hwrites := k.hwrites.map fun (w : HeadWrite) =>
      { w with pieces := w.pieces.map fun (p : WPiece) =>
          if !s.expDead p.pa then p
          else
            match s.again core k p.va Need.headWrite with
            | some t => { p with pa := t.pa, tag := t.acc.tag }
            | none => p } }

/-- A stream that ends without `HALT` (R429); no modulo body runs any more (R123). -/
def StreamSt.ended (t : StreamSt) : StreamSt :=
  { t with halted := true, waiting := none, prog := none, owed := 0, wakeAt := none, inBody := false, mloop := 0, mround := 0,
           mtrip := 0, stalled := none }

/-- A command has started: it is in a grate's hands, a transfer with a peer is under way, it has found its pages or performed
some of its acts, it moves a page. -/
def Cmd.started (c : Cmd) : Bool :=
  (engOf c.opc == 2 && c.left) || c.sent || c.begun || c.acts != 0 || c.aux != 0 || c.logged != 0 || c.frame.isSome

/-- Retire the commands of a context that have not started, with status 0x02 (R429). -/
def Ctx.dropCmds (k : Ctx) : Ctx :=
  (k.eng.cmds.filter fun (c : Cmd) => !c.started).foldl (fun (k : Ctx) c =>
    (k.deliver c.dst (BitVec.allOnes 64) false).retire c 0x02 c.notDone 0 []) k

/-- A context of a gang that Polpen ends (R429). -/
def Ctx.endNow (k : Ctx) : Ctx :=
  let k := Stream.all.foldl (fun (k : Ctx) st => k.setStr st (k.str st).ended) k
  let k := k.dropCmds
  let e := k.eng
  { k with run := .ready, unanswered := false, machineChecked := false, smask := 0, wmark := 0, fenced := false, fparked := none, cxlOver := false,
           eng := { e with runOpen := false, runs := if e.runOpen then e.runs + 1 else e.runs } }

/-- A context without what it has under way at expanders that do not respond: the accesses of an ended context are not
performed, since no stream is left that could take their cause (R429, R466, log 26). -/
def State.dropDead (s : State) (x : CtxRef) (k : Ctx) : Ctx :=
  let core := x.core.toNat
  { k with
    loads := k.loads.filter fun l => !s.loadDead core l
    stores := k.stores.filter fun e => !s.storeDead core e
    hwrites := k.hwrites.filter fun w => !s.writeDead w
    fills := k.fills.filter fun f => !(s.fillSpans core k f).any fun r => s.deadAt core r.1 r.2.1 }

/-- A context of a gang ends at a place (R429). -/
def State.endCtx (s : State) (x : CtxRef) (k : Ctx) : Ctx := s.dropDead x k.endNow

/-- Polpen has ended the gang of a context (R429). -/
def State.isEnded (s : State) (k : Ctx) : Bool := (s.gang? k.bd.vdev k.bd.task).any fun g => g.endStatus.isSome

/-- Every context of a gang ends, bound or saved, and the task's status is Polpen's (R429). -/
def State.endGang (s : State) (vdev : Nat) (task : Word) (status : Byte) : State :=
  let s := s.gangUpd vdev task fun g => { g with endStatus := g.endStatus.or (some status) }
  let mine := fun (k : Ctx) => k.bd.vdev = vdev && k.bd.task == task
  { s with
    ctxs := s.ctxs.map fun p => if mine p.2 then (p.1, s.endCtx (keyCtx p.1) p.2) else p
    saved := s.saved.map fun (q : Saved) => if mine q.k then { q with k := s.endCtx q.x q.k } else q }

/-- A bank holds a context that waits for its answer (R429). -/
def State.awaiting (s : State) (x : CtxRef) : Option Ctx := (s.ctx? x).filter fun k => k.run == .stopped && k.unanswered

/-- Polpen's answer in its register, applied: go reads 0 (R429). -/
def State.answerReg (s : State) (x : CtxRef) (end_ : Bool) (status : Byte) : State :=
  s.setReg 0x50010 (W (b2n end_ * 2 ^ 62 + status.toNat * 2 ^ 48 + b2n x.bank * 2 ^ 8 + x.core.toNat))

/-- A stream escalates a cause that is no word's own (R400, R427): its next unissued word is the resume address. -/
def State.escalateAt (s : State) (x : CtxRef) (k : Ctx) (st : Stream) (cause : BitVec 8) (tval : Word) : State :=
  let m : Mach := ⟨{ s with md := { s.md with cur := x, curSt := st } }, k, st⟩
  (m.escalate cause tval (k.str st).pc).close

/-- A stream takes a trap that is no word's own (R402, R429). -/
def State.trapAt (s : State) (x : CtxRef) (k : Ctx) (st : Stream) (cause : BitVec 8) (tval : Word) : State :=
  let m : Mach := ⟨{ s with md := { s.md with cur := x, curSt := st } }, k, st⟩
  (m.takeTrap cause tval (k.str st).pc).close

/-- A stopped context becomes ready, and executes again what has timed out (R429): where the new translation of it fails, its
stream takes that cause. -/
def State.resume (s : State) (x : CtxRef) (k : Ctx) : State :=
  let k' := { s.retarget x k with run := .ready, unanswered := false }
  let k' := { k' with loads := k'.loads.map fun (l : LoadEnt) => { l with late := false } }
  match s.againFault x.core.toNat k with
  | some (st, c, va) => s.trapAt x k' st c (W va)
  | none => s.setCtx x k'

/-- FAULT_ANSWER_RESUME (R429): a context whose record holds cause 0x62 ends with status 255. -/
def execFaultAnswerResume (x : CtxRef) (s : State) : Out :=
  let s := s.answerReg x false 0
  match s.awaiting x with
  | none => .next s
  | some k =>
    if k.machineChecked then .next (s.endGang k.bd.vdev k.bd.task 255)
    else .next (s.resume x k)

/-- FAULT_ANSWER_END (R429). -/
def execFaultAnswerEnd (x : CtxRef) (status : Byte) (s : State) : Out :=
  let s := s.answerReg x true status
  match s.awaiting x with
  | none => .next s
  | some k => .next (s.endGang k.bd.vdev k.bd.task status)

/-- MACHINE_CHECK (R400). -/
def execMachineCheck (x : CtxRef) (st : Stream) (s : State) : Out :=
  match s.ctx? x with
  | none => .next s
  | some k => .next (if k.alive st then s.escalateAt x k st 0x62 0 else s)

/-- The address of a record that a head of a stream waits for at an expander that does not respond. -/
def State.flueDead (s : State) (x : CtxRef) (k : Ctx) (st : Stream) : Option Nat :=
  if (k.str st).stalled != some .headRecord then none
  else
    (k.heads.filter fun (q : Nat × Head) => q.2.bound && q.2.owner == st).findSome? fun (q : Nat × Head) =>
      match s.tape? x.core.toNat k q.2.handle with
      | none => none
      | some d =>
        if q.2.fetchPoint < 0 then none
        else
          match q.2.regsOf d q.2.fetchPoint.toNat with
          | none => none
          | some l => (l.find? fun r => s.expDead (r.2.pa r.1.off)).map fun r => r.2.base + r.1.off

/-- The address of an access of a stream that an expander does not answer (R466): the word at issue, a record it waits
for, a load, a store, a record write. -/
def State.deadAccess (s : State) (x : CtxRef) (k : Ctx) (st : Stream) : Option Nat :=
  let core := x.core.toNat
  let word : Option Nat :=
    match (k.str st).stalled with
    | some (.expander va) => some va.toNat
    | _ => s.flueDead x k st
  let mem : Option Nat :=
    if st = .A then
      (k.loads.findSome? fun (l : LoadEnt) =>
        (l.parts.find? fun p => s.partDead core l p.1 p.2).map fun p => l.va + p.1).or
        ((k.stores.find? (s.storeDead core)).map fun (e : StoreEnt) => e.va)
    else
      (k.hwrites.filter fun (w : HeadWrite) => k.writer w == st).findSome? fun (w : HeadWrite) =>
        (w.pieces.find? fun (p : WPiece) => s.expDead p.pa).map fun (p : WPiece) => p.va
  if s.ms.expDown.isEmpty then none else word.or mem

/-- A window fill that an expander does not answer becomes a fault of its row, taken by the `LDW` that reads it (R289,
R466). -/
def State.fillDead (s : State) (x : CtxRef) (k : Ctx) : Option (Fill × Nat) :=
  (k.fills.filter Fill.live).findSome? fun (f : Fill) =>
    (pagePieces f.va f.n).findSome? fun p =>
      match (s.lookRow x.core.toNat k p.1 f.need).1 with
      | .ok t => if s.deadAt x.core.toNat t.pa p.2 then some (f, p.1) else none
      | _ => none

/-- The step of a command, whatever its engine. -/
def State.cmdStep (x : CtxRef) (k : Ctx) (c : Cmd) (s : State) : State :=
  s.startCmd x k c fun s =>
    match engOf c.opc with
    | 0 => s.copyAct x k c
    | 3 => if c.opc = 0x72 then s.tkenqAct x k c else s
    | _ => s

/-- A command waits for an expander that does not respond: it would go on if the expander did. -/
def State.cmdDead (s : State) (x : CtxRef) (k : Ctx) (c : Cmd) : Bool :=
  let live := s.mem fun m => { m with expDown := [] }
  let seen := fun (t : State) => ((t.ctx? x).map fun k => k.eng.cmds, t.xfers)
  !s.ms.expDown.isEmpty && seen (State.cmdStep x k c s) == (some k.eng.cmds, s.xfers) &&
  seen (State.cmdStep x k c live) != (some k.eng.cmds, s.xfers)

/-- What the record of a copy command counts of what it has done so far (R358). -/
def Cmd.progress (c : Cmd) : Nat := if c.opc = 0x5B then c.aux / copyRow c.fl else c.aux

/-- A command ends because its expander does not respond (R466): status 0x10. The record of a `CPGI` names the page that it
did not switch (R358). -/
def State.cmdTimeout (s : State) (x : CtxRef) (k : Ctx) (c : Cmd) : State :=
  if !s.cmdDead x k c then s
  else if c.opc = 0x5C then
    match State.pagesIn x k (c.o2.toNat - c.acts) s c with
    | .wait va c s =>
      let s := s.pageUndo (stoveOf x.core.toNat) k c
      ((s.ctx? x).map fun k => s.retireCmd x k c 0x10 va c.aux []).getD s
    | .ended _ _ _ _ => s
  else
    match s.xfer? x c.seq with
    | some f => s.remoteEnd x k c f 0x10
    | none => s.retireCmd x k c 0x10 0 c.progress []

/-- CXL_EXPANDER_TIMEOUT (R466): an engine command ends with status 0x10; a stream takes cause 0x63, which escalates. An access
of a context that Polpen has ended is not performed (log 26). -/
def execCxlExpanderTimeout (x : CtxRef) (st : Stream) (cmd : Option (BitVec 16)) (s : State) : Out :=
  match cmd with
  | some seq => s.withCmd x seq (fun _ => true) fun s k c => s.cmdTimeout x k c
  | none =>
    match s.ctx? x with
    | none => .next s
    | some k =>
      if s.isEnded k then .next (s.setCtx x (s.dropDead x k))
      else
      match s.deadAccess x k st with
      | some va => .next (if k.alive st then s.escalateAt x k st 0x63 (W va) else s)
      | none =>
        match (if st = .A then s.fillDead x k else none) with
        | some (f, va) => .next ((s.setCtx x (k.fillFault f 0x63 va false)).cxlSettle x)
        | none => .next s

end Sys2Proof.Machine
end

