-- ==== Sys2Proof/Machine/Task.lean ====
section
/-! DEFINITION. Work queues, the dependence unit, binding, completion, dormant contexts, quanta and calendars (spec/01 R17 to
R22, spec/14 R369, R374, spec/15 R387 to R389, spec/19 R438 to R449). -/
namespace Sys2Proof.Machine

/-- Two contexts are of one gang (R17). -/
def Ctx.mate (k o : Ctx) : Bool := k.bd.vdev == o.bd.vdev && k.bd.task == o.bd.task

/-- A context of the gang is saved. -/
def State.gangOut (s : State) (k : Ctx) : Bool := s.saved.any fun (q : Saved) => k.mate q.k

/-- Two contexts can stand in the banks of one core (R222, R433, R446; log 55): one split, of which each holds its own range,
scratchpad apart, neither alone on the core. -/
def Binding.beside (b o : Binding) : Bool :=
  !rangesMeet b.sbase b.ssize o.sbase o.ssize && b.split == o.split && b.second != o.second && !b.twoBuf && !o.twoBuf

/-- What an access of dispatch through a device's tables comes to. -/
inductive HwRead where
  | ok (bytes : List Byte) (s : State)
  | fail (s : State)
  | wait

/-- An access of an agent that is no stream and no engine has failed by now at an expander that does not respond (R466): a free
choice, since its cycles are not counted (log 26). -/
def State.givenUp (s : State) : Bool := (Config.freeWord (2 ^ 86 + s.md.tick)).getLsbD 0

/-- Translate an address for an agent without a TLB: a walk, the checks of R416 under a mask bit. An access to an expander that
does not respond waits, and fails as an untranslated one (R466). -/
def State.agentReach (s : State) (mask vdev va : Nat) (wr : Bool) : Reach × State :=
  match s.walk vdev va with
  | (.fail p, s) => (.trap 0x15 p, s)
  | (.pending, s) => (.wait, s)
  | (.ok x, s) =>
    match Need.check ⟨!wr, wr, false, some mask, none⟩ x.leaf with
    | some c => (.trap c false, s)
    | none =>
      if lfTier x.leaf = 2 then (.trap 0x14 false, s)
      else if s.expDead (x.pa va) then (if s.givenUp then .trap 0x15 false else .wait, s)
      else if wr && lfMg x.leaf then (.wait, s)
      else
        match s.adUpdate x wr with
        | (true, x, s) => (.ok x, s)
        | (false, _, s) => (.wait, s)

/-- Translate an address for dispatch (log 25). -/
def State.hwReach (s : State) (vdev va : Nat) (wr : Bool) : Reach × State := s.agentReach maskLs vdev va wr

/-- Read pieces of a device's memory at the package point. -/
def State.hwReadPieces (vdev : Nat) : List (Nat × Nat) → State → HwRead
  | [], s => .ok [] s
  | (va, n) :: rest, s =>
    match s.hwReach vdev va false with
    | (.trap _ _, s) => .fail s
    | (.wait, _) => .wait
    | (.ok x, s) =>
      let (bytes, poison, s) := s.pathBytes .window ⟨0, vdev, lfTag x.leaf, 0⟩ (x.pa va) n
      if poison then .fail s
      else
        match State.hwReadPieces vdev rest s with
        | .ok l s => .ok (bytes ++ l) s
        | r => r

/-- Read n bytes of a device's memory. -/
def State.hwRead (s : State) (vdev va n : Nat) : HwRead := State.hwReadPieces vdev (pagePieces va n) s

/-- Write bytes to a device's memory at the package point; a piece that cannot be translated is not written (log 25);
`none` when the write has to wait. -/
def State.hwWrite (vdev : Nat) : List (Nat × Nat) → List Byte → State → Option State
  | [], _, s => some s
  | (va, n) :: rest, bytes, s =>
    match s.hwReach vdev va true with
    | (.wait, _) => none
    | (.trap _ _, s) => State.hwWrite vdev rest (bytes.drop n) s
    | (.ok x, s) =>
      State.hwWrite vdev rest (bytes.drop n)
        ((s.pkgWrite ⟨0, vdev, lfTag x.leaf, 0⟩ 1 (bySector (bytesAt (x.pa va) (bytes.take n)))).aliens
          (secsOf (bySector (bytesAt (x.pa va) (bytes.take n)))))

/-- Write bytes from an address on. -/
def State.hwPut (s : State) (vdev va : Nat) (bytes : List Byte) : Option State :=
  State.hwWrite vdev (pagePieces va bytes.length) bytes s

/-- A placed kernel descriptor (R387). -/
structure KDesc where
  feat : Nat
  gmin : Nat
  gmax : Nat
  spread : Bool
  ssize : Nat
  slots : Nat
  entry : Tab Word
  textBase : Tab Word
  textSize : Tab Word
  wins : Tab WinShape
  /-- every field is in the range that R387 and R388 state for it (log 55, DESIGN CHOICE) -/
  usable : Bool
  deriving DecidableEq, Repr

/-- Window n of a descriptor (R388): its two dwords. -/
def winShapeOf (a b : Word) : WinShape :=
  { rows := bits a 0 32, rowBytes := if bits a 32 16 = 0 then 32768 else bits a 32 16, ringRows := bits a 48 16, ring := bits b 0 22,
    rw := bitAt b 32, faultPol := bitAt b 33 }

/-- A window entry is in range (R388). -/
def WinShape.ok (sh : WinShape) : Bool :=
  decide (1 ≤ sh.rows) && sh.rowBytes % 64 == 0 && decide (sh.rowBytes ≤ 32768) && (upTo 12).any fun e => sh.ringRows == 2 ^ (e + 1)

/-- Read a descriptor from its 64 dwords (R387). Its reserved fields, those of its windows and the entries of undeclared windows
are ignored: R387 and R388 give no fault, status or refusal for them (R5). A field out of its stated range makes the descriptor
unusable, which R443 answers with 0xE1 and does not define (log 55, DESIGN CHOICE). -/
def KDesc.ofWords (l : List Word) : KDesc :=
  let w := fun (i : Nat) => l.getD i 0
  let gmin := bits (w 1) 0 8
  let gmax := bits (w 1) 8 8
  let ssize := bits (w 1) 32 32
  let wmask := bits (w 3) 16 16
  let inText := fun (n : Nat) =>
    decide ((w (8 + 2 * n)).toNat ≤ (w (4 + n)).toNat) && decide ((w (4 + n)).toNat < (w (8 + 2 * n)).toNat + (w (9 + 2 * n)).toNat)
  { feat := bits (w 0) 32 32, gmin := gmin, gmax := gmax, spread := bitAt (w 1) 16, ssize := ssize, slots := bits (w 3) 0 8
    entry := (upTo 4).foldl (fun t n => tset 0 t n (w (4 + n))) []
    textBase := (upTo 4).foldl (fun t n => tset 0 t n (w (8 + 2 * n))) []
    textSize := (upTo 4).foldl (fun t n => tset 0 t n (w (9 + 2 * n))) []
    wins := ((upTo 16).filter fun n => wmask.testBit n).map fun n => (n, winShapeOf (w (16 + 2 * n)) (w (17 + 2 * n)))
    usable :=
      decide (1 ≤ gmin) && decide (gmin ≤ gmax) && decide (gmax ≤ 192) && decide (ssize ≤ 3 * 2 ^ 20) &&
      decide (bits (w 2) 0 16 ≤ 4096) && decide (bits (w 2) 16 16 ≤ 4096) && decide (bits (w 2) 48 16 ≤ 256) &&
      bits (w 3) 32 32 % 8 == 0 && (upTo 4).all inText &&
      (upTo 16).all fun n => !wmask.testBit n || (winShapeOf (w (16 + 2 * n)) (w (17 + 2 * n))).ok }

/-- The kernel asks for its core alone (R389): feat[0]. -/
def KDesc.alone (d : KDesc) : Bool := d.feat % 2 == 1

/-- What reading a descriptor comes to. -/
inductive DescRead where
  | ok (d : KDesc) (s : State)
  | bad (s : State)
  | wait

/-- Read a placed descriptor (R387, R393). -/
def State.kdesc (s : State) (vdev va : Nat) : DescRead :=
  match s.hwRead vdev va 512 with
  | .wait => .wait
  | .fail s => .bad s
  | .ok bytes s =>
    let d := KDesc.ofWords ((chunks 8 bytes 64).map fun b => W (leNat b))
    if d.usable then .ok d s else .bad s

/-- Floor of a device (R441). -/
def State.floor (s : State) (v : Nat) : Nat := (s.reg (0xD0000 + 0x10 * v)).toNat

/-- A sequence number counts as complete (R441). -/
def State.isComplete (s : State) (v : Nat) (seq : Word) : Bool := decide (seq.toNat < s.floor v) || s.complete.contains (v, seq)

/-- A record has been overrun in its slot (R439): the tail has passed its index by more than the ring holds. -/
def State.overrun (s : State) (q i : Nat) : Bool :=
  decide (2 ^ bits (s.reg (qCfg q)) 0 5 < (s.queueTail q + 2 ^ 32 - i) % 2 ^ 32)

/-- The dwords of a record as the device reads them in its slot (R439): free values once it is overrun, or where the read is
poisoned (log 16, log 55). -/
def State.slotWords (s : State) (vdev q i addr : Nat) : List Word × State :=
  let (l, poison, s) := s.pkgDwords (rawAcc s vdev 0 (addr / 64)) addr 16
  (if poison || s.overrun q i then (upTo 16).map fun j => Config.freeWord (s.md.tick * 2 ^ 10 + j) else l, s)

/-- A task whose record is in use in its slot, as the slot has it now (R439). -/
def State.inSlot (s : State) (t : Task) : Task :=
  let w := fun (i : Nat) => (s.slotWords t.vdev t.queue t.index t.addr).1.getD i 0
  { t with prio := bits (w 2) 0 4, det := bits (w 2) 24 2, preds := [w 6, w 7, w 8, w 9] }

/-- Every predecessor of a task is complete (R441). -/
def State.predsDone (s : State) (t : Task) : Bool := t.preds.all fun p => p == 0 || s.isComplete t.vdev p

/-- Append an entry to a device's ready ring (R442): `none` when it is full, or not in HBM. -/
def State.readyAppend (s : State) (t : Task) : Option State :=
  let r := 0xD1000 + 0x10 * t.vdev
  let base := bits (s.reg r) 12 40 * 4096
  let size := 2 ^ bits (s.reg r) 0 5
  let idx := s.reg (r + 8)
  let tail := bits idx 0 32
  if size ≤ (tail + 2 ^ 32 - bits idx 32 32) % 2 ^ 32 || !isHbm base then none
  else
    let entry := leBytes 8 t.addr ++ leBytes 8 (t.queue + t.prio * 2 ^ 16 + t.det * 2 ^ 24)
    some ((s.pkgPut (base + 16 * (tail % size)) entry).setReg (r + 8) (W (bits idx 32 32 * 2 ^ 32 + (tail + 1) % 2 ^ 32)))

/-- Tasks of a device whose predecessors are complete become ready, in the order of their acceptance (R441, R442). -/
def State.sweep (s : State) (v : Nat) : State :=
  s.tasks.foldl (fun (s : State) t =>
    if t.vdev ≠ v || t.ready || t.out || !s.predsDone (s.inSlot t) then s
    else
      match s.readyAppend (s.inSlot t) with
      | none => s
      | some s => { s with tasks := s.tasks.map fun (u : Task) => if u = t then { u with ready := true } else u }) s

/-- The head of a queue advances past records that have left it (R438). -/
def State.advanceHead (q : Nat) : Nat → State → State
  | 0, s => s
  | fuel + 1, s =>
    let h := s.queueHead q
    match s.tasks.find? fun (t : Task) => t.queue == q && t.index == h && t.out with
    | none => s
    | some t =>
      let tasks := if t.bound then s.tasks.map fun (u : Task) => if u = t then { u with index := 2 ^ 32 } else u else s.tasks.erase t
      State.advanceHead q fuel { s.setReg (qCfg q + 16) (W ((h + 1) % 2 ^ 32)) with tasks := tasks }

/-- A task leaves its queue (R439): bound, or completed without binding. -/
def State.leaveQueue (s : State) (t : Task) (bound : Bool) : State :=
  { s with tasks := s.tasks.map fun (u : Task) => if u = t then { u with out := true, bound := bound } else u }.advanceHead t.queue 8192

/-- The dwords of a completion (R444): value, then info. -/
def compInfo (dev : Bool) (status : Byte) (seq : Word) : Word := W (1 + b2n dev * 2 + status.toNat * 2 ^ 8 + bits seq 0 32 * 2 ^ 32)

/-- Write a status block and a completion pair (R444); `none` when a write has to wait. -/
def State.writeCompletion (s : State) (vdev : Nat) (stats comp : Word) (block : List Byte) (dev : Bool) (status : Byte)
    (value seq : Word) : Option State := do
  let s ← s.hwPut vdev stats.toNat block
  let s ← s.hwPut vdev comp.toNat (leBytes 8 value.toNat)
  s.hwPut vdev (comp + 8).toNat (leBytes 8 (compInfo dev status seq).toNat)

/-- A sequence number is complete in the map, and successors become ready (R441, R444). -/
def State.markComplete (s : State) (v : Nat) (seq : Word) : State :=
  let inside := decide (s.floor v ≤ seq.toNat) && decide (seq.toNat < s.floor v + 2 ^ 20)
  { s with complete := if inside && !s.complete.contains (v, seq) then (v, seq) :: s.complete else s.complete }.sweep v

/-- A task that is never bound completes (R443): zeros in the status block, dev = 1. -/
def State.neverBound (s : State) (vdev : Nat) (stats comp seq : Word) (status : Byte) : Option State :=
  s.writeCompletion vdev stats comp (List.replicate 3136 0) true status 0 seq

/-- The fields of a task record as it is accepted (R440). -/
def taskOf (vdev q index addr : Nat) (l : List Word) : Task :=
  let w := fun (i : Nat) => l.getD i 0
  { vdev := vdev, queue := q, index := index, addr := addr, seq := w 0, kdesc := w 1, prio := bits (w 2) 0 4, n := bits (w 2) 16 8,
    det := bits (w 2) 24 2, dorm := w 3, stats := w 4, comp := w 5, preds := [w 6, w 7, w 8, w 9], args := w 10, ready := false,
    bound := false, out := false }

/-- Reserved fields and ranges of a record that need no descriptor (R440, R441). The alignment of its addresses is none of the
cases of R441: they are used as they stand (log 55). -/
def recordOk (l : List Word) : Bool :=
  let w := fun (i : Nat) => l.getD i 0
  ([1, 3, 4, 5, 10].all fun i => bits (w i) 54 10 == 0) && bits (w 2) 4 12 == 0 && bits (w 2) 26 38 == 0 && bits (w 2) 24 2 != 3 &&
  [11, 12, 13, 14, 15].all fun i => w i == 0

/-- The record's sequence number is zero, out of the window or repeated (R440, R441). -/
def State.seqBad (s : State) (t : Task) : Bool :=
  t.seq == 0 || decide (t.seq.toNat < s.floor t.vdev) || decide (s.floor t.vdev + 2 ^ 20 ≤ t.seq.toNat) || s.complete.contains (t.vdev, t.seq) ||
  s.tasks.any fun (u : Task) => u.vdev == t.vdev && u.seq == t.seq && !(u.out && !u.bound)

/-- What checking a record comes to (R441, R443). -/
inductive RecCheck where
  | ok (s : State)
  | error (status : Byte) (s : State)
  | wait

/-- Check a record: its fields, its number, its kernels, its contexts (R441, R443). A kernel that asks for its core alone has
no core whose other bank can be emptied when a dormant kernel is bound beside it, or when it is the dormant one (log 55). -/
def State.checkRecord (s : State) (t : Task) (l : List Word) : RecCheck :=
  if !recordOk l then .error 0xE0 s
  else if s.seqBad t then .error 0xE4 s
  else
    match s.kdesc t.vdev t.kdesc.toNat with
    | .wait => .wait
    | .bad s => .error 0xE1 s
    | .ok d s =>
      let n := if t.n = 0 then d.gmax else t.n
      let rest := fun (s : State) =>
        if n < d.gmin || d.gmax < n then RecCheck.error 0xE0 s else if 48 < n && !d.spread then .error 0xE2 s else .ok s
      if t.dorm = 0 then rest s
      else
        match s.kdesc t.vdev t.dorm.toNat with
        | .wait => .wait
        | .bad s => .error 0xE1 s
        | .ok e s => if d.alone || e.alone then .error 0xE1 s else rest s

/-- TASK_RECORD_ACCEPT (R439, R441): the next record of a queue. -/
def execTaskRecordAccept (queue : BitVec 12) (s : State) : Out :=
  let q := queue.toNat
  let cfg := s.reg (qCfg q)
  let i := tget 0 s.accepted q
  if !bitAt cfg 63 || s.queueTail q == i then .next s
  else
    let vdev := bits cfg 56 6
    let addr := s.queueSlot q i
    let (l, s1) := s.slotWords vdev q i addr
    let t := taskOf vdev q i addr l
    let take := fun (s : State) => { s with accepted := tset 0 s.accepted q ((i + 1) % 2 ^ 32) }
    match s1.checkRecord t l with
    | .wait => .next s
    | .ok s => .next ({ take s with tasks := s.tasks ++ [t] }.sweep vdev)
    | .error st s2 =>
      match s2.neverBound vdev t.stats t.comp t.seq st with
      | none => .next s
      | some s =>
        let s := { take s with tasks := s.tasks ++ [{ t with out := true }] }.advanceHead q 8192
        .next (if st = 0xE4 then s else s.markComplete vdev t.seq)

/-- FLOOR_WRITE (R441): raising the floor clears the map below it. -/
def execFloorWrite (vdev : BitVec 6) (v : Word) (s : State) : Out :=
  let s := s.setReg (0xD0000 + 0x10 * vdev.toNat) v
  .next ({ s with complete := s.complete.filter fun p => !(p.1 == vdev.toNat && decide (p.2.toNat < v.toNat)) }.sweep vdev.toNat)

/-- A bind record (R445). -/
structure BindRec where
  seq : Word
  kdesc : Word
  args : Word
  stats : Word
  comp : Word
  vdev : Nat
  det : Nat
  bank : Bool
  dormant : Bool
  split : Nat
  second : Bool
  sbase : Nat
  ssize : Nat
  lq : Nat
  weight : Nat
  cores : List Nat
  tvecs : List Word
  /-- reserved bits are zero and fields in range -/
  ok : Bool
  deriving DecidableEq, Repr

/-- Read a bind record from its 32 dwords (R445). -/
def BindRec.ofWords (l : List Word) : BindRec :=
  let w := fun (i : Nat) => l.getD i 0
  let c := w 5
  let sbase := bits c 16 6
  let ssz := bits c 24 6
  let cores := (upTo 192).filter fun n => bitAt (w (8 + n / 64)) (n % 64)
  { seq := w 0, kdesc := w 1, args := w 2, stats := w 3, comp := w 4, vdev := bits c 0 6, det := bits c 6 2, bank := bitAt c 8,
    dormant := bitAt c 9, split := bits c 10 2, second := bitAt c 12, sbase := sbase * 2 ^ 16, ssize := ssz * 2 ^ 16, lq := bits c 32 5,
    weight := bits c 40 4, cores := cores, tvecs := [w 12, w 13, w 14, w 15]
    ok :=
      bits c 13 3 == 0 && bits c 22 2 == 0 && bits c 30 2 == 0 && bits c 37 3 == 0 && bits c 44 20 == 0 && w 6 == 0 && w 7 == 0 &&
      w 11 == 0 && ((upTo 16).all fun i => w (16 + i) == 0) && bits c 6 2 != 3 && bits c 10 2 != 3 && decide (1 ≤ ssz) &&
      decide (sbase + ssz ≤ 48) && decide (10 ≤ bits c 32 5) && decide (bits c 32 5 ≤ 20) && decide (1 ≤ bits c 40 4) &&
      !cores.isEmpty && ([w 1, w 2, w 3, w 4].all fun a => bits a 54 10 == 0) &&
      [w 12, w 13, w 14, w 15].all fun a => bits a 54 10 == 0 && bits a 1 2 == 0 }

/-- The cores of a mask are consecutive cores of one stove (R18). -/
def BindRec.together (b : BindRec) : Bool :=
  let c := b.cores.headD 0
  b.cores == (upTo b.cores.length).map (c + ·) && stoveOf c == stoveOf (c + b.cores.length - 1)

/-- First slot and number of slots of a range of a split (R433). -/
def splitSlots (split : Nat) (second : Bool) : Nat × Nat :=
  match split, second with
  | 0, false => (0, 8)
  | 0, true => (8, 0)
  | 1, false => (0, 6)
  | 1, true => (6, 2)
  | _, false => (0, 4)
  | _, true => (4, 4)

/-- The place of a record on a core. -/
def BindRec.at_ (b : BindRec) (core : Nat) : CtxRef := ⟨BitVec.ofNat 8 core, b.bank⟩

/-- Step 1 of R446 on one core: its bank is taken, or its other bank does not admit the context, whose range of the split it would
hold too (R433, log 55); the partition of a saved context stays reserved (R434). -/
def State.bindRefused (s : State) (b : BindRec) (core : Nat) : Bool :=
  let x := b.at_ core
  let overlaps := fun (k : Ctx) => rangesMeet b.sbase b.ssize k.bd.sbase k.bd.ssize
  (s.ctx? x).isSome || (s.ctx? (otherBank x)).any (fun k => overlaps k || k.bd.split != b.split || k.bd.second == b.second || k.bd.twoBuf) ||
  s.saved.any (fun (p : Saved) => p.x.core.toNat == core && overlaps p.k)

/-- The part of step 1 that the descriptor decides: feat[0] beside an occupied bank; and cores that no spread allows (R18, log
55). A dormant record lies where its gang lies (R17). -/
def State.placeRefused (s : State) (b : BindRec) (d : KDesc) : Bool :=
  (d.alone && b.cores.any fun c => (s.ctx? (otherBank (b.at_ c))).isSome) ||
  (!b.dormant && !d.spread && !b.together && decide (b.cores.length ≤ 48))

/-- The gang that a record's contexts belong to: for a dormant record, the gang bound beside it (R448). -/
def BindRec.gang (b : BindRec) : Gang :=
  { vdev := b.vdev, task := b.seq, stats := b.stats, comp := b.comp, det := b.det, members := b.cores.map b.at_, dormants := [],
    signals := [], dsignals := [], ended := [], flags := 0, counts := [], endStatus := none, done := false }

/-- The binding of the context of a core (R445 to R448). -/
def BindRec.binding (b : BindRec) (d : KDesc) (recAddr rank gsize : Nat) : Binding :=
  let sl := splitSlots b.split b.second
  { vdev := b.vdev, task := b.seq, kdesc := b.kdesc, stats := b.stats, comp := b.comp, recAddr := W recAddr, det := b.det,
    dormant := b.dormant, rank := rank, gsize := gsize, split := b.split, second := b.second, sbase := b.sbase, ssize := b.ssize,
    lq := b.lq, weight := b.weight, entry := d.entry, textBase := d.textBase, textSize := d.textSize, twoBuf := d.alone,
    slot0 := sl.1, slots := sl.2, wins := d.wins }

/-- Zero a scratchpad partition and drop the core's L1 (R272, R447). -/
def State.clearCore (s : State) (core sbase ssize : Nat) : State :=
  let lo := core * 2 ^ 22 + sbase
  s.mem fun m =>
    { m with
      spad := m.spad.filter fun c => !(decide (lo ≤ c.1) && decide (c.1 < lo + ssize))
      l1 := m.l1.filter fun p => p.1 / 2 ^ 46 != core }

/-- Slot table entry of a place (R446). -/
def slotEntry (x : CtxRef) : Nat := 0x81000 + 8 * (2 * x.core.toNat + b2n x.bank)

/-- Bind the context of a core (R447); it is held while one of its gang is saved (R17). -/
def State.bindCore (s : State) (b : BindRec) (d : KDesc) (recAddr core rank gsize : Nat) : State :=
  let x := b.at_ core
  let tdir := s.reg (0x30008 + 0x80 * b.vdev)
  let tst := bitAt (s.reg (0x20000 + 8 * b.vdev)) 0
  let k := Ctx.init (b.binding d recAddr rank gsize) b.bank tdir tst b.args (fun n => tget 0 d.entry n)
    (fun n => b.tvecs.getD n 0 &&& 0x003FFFFFFFFFFFF9)
  ((s.clearCore core b.sbase b.ssize).setReg (slotEntry x) (W (recAddr + 1))).setCtx x { k with held := s.gangOut k }

/-- Bind every context of a record (R446, R448), and take the task from its queue. -/
def State.bindAll (s : State) (b : BindRec) (d : KDesc) (recAddr : Nat) : State :=
  if b.dormant then
    match s.gang? b.vdev b.seq with
    | none => s
    | some g =>
      let s := s.gangUpd b.vdev b.seq fun g => { g with dormants := g.dormants ++ b.cores.map b.at_ }
      b.cores.foldl (fun (s : State) c =>
        s.bindCore b d recAddr c (g.members.findIdx fun (y : CtxRef) => y.core.toNat == c) g.members.length) s
  else
    let s := { s with gangs := s.gangs ++ [b.gang] }
    let s := b.cores.zipIdx.foldl (fun (s : State) p => s.bindCore b d recAddr p.1 p.2 b.cores.length) s
    match s.tasks.find? fun (t : Task) => t.vdev == b.vdev && t.seq == b.seq && !t.out with
    | none => s
    | some t => s.leaveQueue t true

/-- The task of a record completes with a status of R443, never bound. -/
def State.bindFail (s : State) (b : BindRec) (status : Byte) : Option State :=
  (s.neverBound b.vdev b.stats b.comp b.seq status).map fun s =>
    let s := match s.tasks.find? fun (t : Task) => t.vdev == b.vdev && t.seq == b.seq && !t.out with
      | none => s
      | some t => s.leaveQueue t false
    s.markComplete b.vdev b.seq

/-- slotcmd while dispatch is at work: go reads 1 (R446). -/
def State.slotBusy (s : State) (v : Word) : State := s.setReg 0x80000 (keep v 51 8 ||| W (2 ^ 63))

/-- The record gives less than the descriptor needs: scratchpad or slots (R274, R389). -/
def BindRec.short (b : BindRec) (d : KDesc) : Bool :=
  let sl := splitSlots b.split b.second
  decide (b.ssize < d.ssize) || (upTo 8).any fun n => d.slots.testBit n && !(decide (sl.1 ≤ n) && decide (n < sl.1 + sl.2))

/-- Steps 2 and 3 of R446, once nothing refuses the commit: the task completes unbound with 0xE2 (R18) or 0xE3, or its contexts
are bound. -/
def State.bindOr (s : State) (b : BindRec) (d : KDesc) (addr : Nat) : Option State :=
  if 48 < b.cores.length && !b.dormant && !d.spread then s.bindFail b 0xE2
  else if b.short d then s.bindFail b 0xE3
  else some (s.bindAll b d addr)

/-- slotcmd once dispatch has finished (R446). -/
def State.slotDone (s : State) (v : Word) (err : Bool) : State := s.setReg 0x80000 (keep v 51 8 ||| W (b2n err * 2 ^ 62))

/-- BIND_COMMIT (R446): a write of slotcmd. A dormant record is refused where its gang's active context does not belong beside it
(log 25), and where its kernel cannot be bound: its task is bound, and does not complete as one that never was. A record of a task
that is bound or complete is refused (R443, log 55). -/
def execBindCommit (v : Word) (s : State) : Out :=
  let addr := bits v 8 44 * 256
  if !bitAt v 63 then .next (s.setReg 0x80000 (keep v 51 8))
  else if !isHbm addr then .next (s.slotDone v true)
  else
    let (l, poison, s1) := s.pkgDwords (rawAcc s 0 0 (addr / 64)) addr 32
    let b := BindRec.ofWords l
    let lost := b.dormant && !(b.cores.all fun c => (s1.gang? b.vdev b.seq).any fun g =>
      !g.done && g.members.contains (otherBank (b.at_ c)) && g.dormants.all fun (y : CtxRef) => y.core.toNat != c)
    let again := !b.dormant && ((s1.gang? b.vdev b.seq).isSome || s1.isComplete b.vdev b.seq)
    if poison || !b.ok || lost || again || b.cores.any (s1.bindRefused b) then .next (s1.slotDone v true)
    else
      let finish := fun (r : Option State) => Host.Outcome.next ((r.map fun (s : State) => s.slotDone v false).getD (s.slotBusy v))
      match s1.kdesc b.vdev b.kdesc.toNat with
      | .wait => .next (s.slotBusy v)
      | .bad s2 => if b.dormant then .next (s2.slotDone v true) else finish (s2.bindFail b 0xE1)
      | .ok d s2 => if s2.placeRefused b d || (b.dormant && b.short d) then .next (s2.slotDone v true) else finish (s2.bindOr b d addr)

/-- What the write-back of a window's row at a context's end comes to (R292). -/
inductive RowBack where
  | ok (l : List GPiece) (s : State)
  | fail (status : Nat) (va : Nat) (s : State)
  | wait

/-- Translate the pieces of a row for its write-back. A page of the remote tier denies the access, as permission and key do: R292
gives its record no status of its own (log 56, DESIGN CHOICE). -/
def State.rowBack (core : Nat) (k : Ctx) : List (Nat × Nat × Nat) → State → RowBack
  | [], s => .ok [] s
  | (va, n, off) :: rest, s =>
    match s.lookRow core k va k.needSt with
    | (.trap c, s) => .fail (if c = 0x15 then 0x10 else 0x12) va s
    | (.wait _, _) => .wait
    | (.ok t, s) =>
      if s.deadAt core t.pa n then (if s.givenUp then .fail 0x10 va s else .wait)
      else
        match State.rowBack core k rest s with
        | .ok l s => .ok (⟨va, n, off, t⟩ :: l) s
        | r => r

/-- Write back rows at a context's end: a row that fails posts a record, the others are written (R292, R430). -/
def State.endRows (x : CtxRef) (k : Ctx) : List (Nat × List (Nat × Nat × Nat)) → State → Option State
  | [], s => some s
  | (va, pieces) :: rest, s =>
    match State.rowBack x.core.toNat k pieces s with
    | .wait => none
    | .fail st _ s => State.endRows x k rest (s.postKind1 x k st (W va))
    | .ok l s =>
      State.endRows x k rest (l.foldl (fun (s : State) p =>
        s.pathWrite p.t.path p.t.acc (bytesAt p.t.pa (s.ringRead x.core.toNat k p.off p.n))) s)

/-- Rows that the windows of a context write back as they are released: the address of each, and its pieces. -/
def Ctx.endBacks (k : Ctx) : List (Nat × List (Nat × Nat × Nat)) :=
  (upTo 16).flatMap fun slot =>
    match k.winShape slot, k.win? slot with
    | some sh, some w =>
      if !sh.rw then []
      else (backRows sh w w.origin sh.ringRows).map fun r => (r.1, (pagePieces r.1 sh.rowBytes).map fun p => (p.1, p.2, r.2 + (p.1 - r.1)))
    | _, _ => []

/-- Heads and windows of a context are released (R198, R219, R292): `none` when a write-back or a directory page has to wait. -/
def State.release (s : State) (x : CtxRef) (k : Ctx) : Option (Ctx × State) :=
  (State.endRows x k k.endBacks s).bind fun s =>
    (s.unbindHeads x.core.toNat k).map fun r => ((upTo 16).foldl Ctx.releaseWin r.1, r.2)

/-- Nothing of a context is on its way (R21): loads, stores, record writes, fills. -/
def State.quiet (s : State) (x : CtxRef) (k : Ctx) : Bool := s.settled x k && k.eng.cmds.isEmpty && !k.eng.running

/-- The gang of a context. -/
def State.gangOf (s : State) (k : Ctx) : Option Gang := s.gang? k.bd.vdev k.bd.task

/-- A gang that has nothing left, in a bank or saved, is forgotten. -/
def State.dropGang (s : State) (vdev : Nat) (task : Word) : State :=
  { s with gangs := s.gangs.filter fun g =>
      !(g.vdev == vdev && g.task == task && g.done && g.ended.length == g.members.length && g.dormants.isEmpty &&
        !(s.saved.any fun (q : Saved) => g.owns q.k)) }

/-- A context leaves its bank. -/
def State.unbind (s : State) (x : CtxRef) : State := { s with ctxs := tdel s.ctxs (ctxKey x) }

/-- The context of a gang leaves its bank, if the bank holds it. -/
def State.unbindOf (s : State) (g : Gang) (x : CtxRef) : State := if (s.ctx? x).any g.owns then s.unbind x else s

/-- The end of a context that was not bound dormant (R20, R21): it stays in its bank until its task has completed (R17). -/
def State.endActive (s : State) (x : CtxRef) (k : Ctx) (g : Gang) : State :=
  if g.ended.contains k.bd.rank then (if g.done then (s.unbind x).dropGang g.vdev g.task else s)
  else if !k.allHalted || k.run != .ready || !s.quiet x k then s
  else
    match s.release x k with
    | none => s
    | some (k, s) =>
      let e := { k.eng with recs := [], gfail := 0, gfailSeq := 0, gfailStatus := 0, eqFail := none }
      let s := (s.setCtx x { k with eng := e }).setReg (slotEntry x) 0
      let s := s.gangUpd g.vdev g.task fun g => { g with ended := g.ended ++ [k.bd.rank] }
      if g.done then (s.unbind x).dropGang g.vdev g.task else s

/-- The end of a dormant context, once every context of its gang that was not bound dormant has ended (R369). -/
def State.endDormant (s : State) (x : CtxRef) (k : Ctx) (g : Gang) : State :=
  let rests := k.run == .dormant || (k.run == .ready && k.allHalted)
  if g.ended.length ≠ g.members.length || !rests || !s.quiet x k then s
  else
    match s.release x k with
    | none => s
    | some (_, s) =>
      let s := (s.setReg (slotEntry x) 0).unbind x
      (s.gangUpd g.vdev g.task fun g => { g with dormants := g.dormants.filter (· != x) }).dropGang g.vdev g.task

/-- The end of the context bound at a place. -/
def State.endAt (s : State) (x : CtxRef) : State :=
  match s.ctx? x with
  | none => s
  | some k =>
    match s.gangOf k with
    | none => s
    | some g => if k.bd.dormant then s.endDormant x k g else s.endActive x k g

/-- The end of a context that is saved while Polpen has ended its gang (R429): the device holds nothing of it any more. -/
def State.endSaved (s : State) (q : Saved) : State :=
  let t := s.onSaved q fun s => s.endAt q.x
  let t := if (s.ctx? q.x).isSome then t.setReg (slotEntry q.x) (s.reg (slotEntry q.x)) else t
  let left := (t.gangOf q.k).any fun g => if q.k.bd.dormant then g.dormants.contains q.x else !g.ended.contains q.k.bd.rank
  if left then t
  else { t with saved := t.saved.filter fun (p : Saved) => !(p.x == q.x && p.area == q.area) }.dropGang q.k.bd.vdev q.k.bd.task

/-- CONTEXT_END (R20, R21): of the context bound at a place, or of one saved from there that Polpen has ended. -/
def execContextEnd (x : CtxRef) (s : State) : Out :=
  match s.saved.find? fun (q : Saved) => q.x == x && ((s.gangOf q.k).any fun g => g.endStatus.isSome) with
  | some q => .next (s.endSaved q)
  | none => .next (s.endAt x)

/-- DORMANT_RETURN (R369): with an unread entry in its inbox the context starts at once. -/
def execDormantReturn (x : CtxRef) (s : State) : Out :=
  match s.ctx? x with
  | none => .next s
  | some k =>
    if !k.bd.dormant || !k.started || k.run != .ready || !k.allHalted || !s.settled x k then .next s
    else
      match s.release x k with
      | none => .next s
      | some (k, s) =>
        let k := { k with run := .dormant, started := false }
        let rd := bits k.sr.spkin 24 5
        let off := k.sr.inboxEntry rd
        let handler := W (leNat (s.spRead x.core.toNat (k.bd.sbase + off + 8) 8))
        let unread := bits k.sr.spkin 32 5 != rd
        .next (s.setCtx x (if unread then k.start handler 1 (W off) 0 else k))

/-- A context of the gang has signalled or ended (R374). -/
def Gang.isDone (g : Gang) (rank : Nat) : Bool := g.signals.any (fun p => p.1 == rank) || g.ended.contains rank

/-- Status and value of the signals: the highest status, from the lowest rank (R374); a context that ends without one counts as
status 0, value 0. A dormant context's signal stands after that of the active one of its rank (log 55). -/
def Gang.result (g : Gang) : Byte × Word :=
  let of := fun (rank : Nat) => (match g.signals.find? fun p => p.1 == rank with
    | some p => p.2
    | none => ((0 : Byte), (0 : Word))) :: (g.dsignals.filter fun p => p.1 == rank).map (·.2)
  (((upTo g.members.length).flatMap of).foldl (fun (r : Option (Byte × Word)) (p : Byte × Word) => match r with
    | none => some p
    | some q => some (if q.1.toNat < p.1.toNat then p else q)) none).getD (0, 0)

/-- The status block of a task (R56). -/
def Gang.block (g : Gang) : List Byte :=
  (upTo 3).flatMap (fun i => (upTo 256).flatMap fun n => leBytes 4 (tget 0 g.counts (256 * i + n))) ++ leBytes 8 g.flags.toNat ++
  List.replicate 56 0

/-- Stoves on which a gang runs. -/
def Gang.stoves (g : Gang) : List Nat := (upTo 4).filter fun n => (g.members ++ g.dormants).any fun (x : CtxRef) => stoveOf x.core.toNat == n

/-- A drain, a conversion or another word of V, M or D is under way (R56), one of which a trap has put aside while its handler runs
too. -/
def Ctx.converting (k : Ctx) : Bool :=
  ([Stream.V, .M, .D].any fun st => (k.str st).prog.any fun p => p.k != 0) || (k.mat.parked.isSome && !k.m.halted) ||
  (k.dparked.isSome && !k.d.halted)

/-- A gang may complete its task (R374, R429, R444): its contexts are done, and what their words and commands do, bound or saved,
is done too (R21, R56). -/
def State.mayComplete (s : State) (g : Gang) : Bool :=
  !g.done && (upTo g.members.length).all g.isDone && (g.endStatus.isNone || g.ended.length == g.members.length) &&
  ((s.gangCtxs g).all fun p => p.2.eng.cmds.isEmpty && !p.2.converting) &&
  !(g.stoves.any fun n => s.rangesDead n [(0, 2 ^ 54)])

/-- TASK_COMPLETE (R444). -/
def execTaskComplete (vdev : BitVec 6) (seq : Word) (s : State) : Out :=
  let v := vdev.toNat
  match s.gang? v seq with
  | none => .next s
  | some g =>
    if !s.mayComplete g then .next s
    else
      let (status, value) := match g.endStatus with
        | some st => (st, match g.signals.find? fun (p : Nat × Byte × Word) => p.2.1 == st with
          | some p => p.2.2
          | none => 0)
        | none => g.result
      let s1 := g.stoves.foldl (fun (s : State) n => s.cleanStove (48 * n) v) s
      match s1.writeCompletion v g.stats g.comp g.block false status value seq with
      | none => .next s
      | some s =>
        let s := { s with tasks := s.tasks.filterMap fun (t : Task) =>
          if t.vdev == v && t.seq == seq && t.bound then (if t.index = 2 ^ 32 then none else some { t with bound := false }) else some t }
        let s := s.gangUpd v seq fun g => { g with done := true }
        let gone := g.members.zipIdx.filter fun (p : CtxRef × Nat) => g.ended.contains p.2
        .next (((gone.foldl (fun (s : State) (p : CtxRef × Nat) => s.unbindOf g p.1) s).dropGang v seq).markComplete v seq)

/-- QUANTUM_RUN_END (R431, R432). -/
def execQuantumRunEnd (core : BitVec 8) (s : State) : Out :=
  let x : CtxRef := ⟨core, tget 0 s.running core.toNat == 1⟩
  match s.ctx? x with
  | none => .next s
  | some k =>
    if k.run == .ready && s.readyAt (otherBank x) && !s.barred (otherBank x) then .next (s.setCtx x { k with run := .stopping false })
    else .next s

/-- A core whose running bank the calendar bars is stopped (R449). -/
def State.slotSwitch (s : State) (core : Nat) : State :=
  let x : CtxRef := ⟨BitVec.ofNat 8 core, tget 0 s.running core == 1⟩
  match s.ctx? x with
  | none => s
  | some k => if k.run == .ready && s.barred x then s.setCtx x { k with run := .stopping false } else s

/-- CALENDAR_SLOT_START (R449). -/
def execCalendarSlotStart (s : State) : Out := .next ((upTo 192).foldl State.slotSwitch s)

end Sys2Proof.Machine
end

