-- ==== Sys2Proof/Machine/Device.lean ====
section
/-! DEFINITION. The device control space, shootdowns, scrubbing, error injection, memory errors, the management core's
stores, freeze and thermal limits (spec/10 R304, spec/16 R407 to R409, spec/17 R418 to R423, spec/20 R476). -/
namespace Sys2Proof.Machine

/-- The kept bits of a register: fields as high and low bit. -/
def fieldMask (l : List (Nat × Nat)) : Word := W (l.foldl (fun n p => n + (2 ^ (p.1 + 1) - 2 ^ p.2)) 0)

/-- Fields that a write of a register of a virtual device's page-in block keeps (R422). -/
def poolMask (r : Nat) : Word :=
  if r = 0 then fieldMask [(51, 18), (0, 0)]
  else if r = 8 then fieldMask [(62, 58), (53, 7)]
  else if r < 0x50 then (if r % 16 = 0 then fieldMask [(51, 12), (4, 0)] else fieldMask [(63, 0)])
  else 0

/-- Fields that a write of a link port's register keeps (R472). -/
def portMask (p r : Nat) : Word :=
  if r = 0 then (if p < 4 then 7 else 5)
  else if r = 0x10 then fieldMask [(51, 29)]
  else if r = 0x20 ∨ r = 0x28 ∨ r = 0x30 ∨ r = 0x38 ∨ r = 0x40 then fieldMask [(63, 0)]
  else 0

/-- A slot of a stove's network calendar (R451): one byte at each offset. -/
def isCalSlot (off : Nat) : Bool := decide (0x90400 ≤ off) && decide (off < 0x90600) && decide (off % 0x80 < 0x40)

/-- The order log's configuration of a device (R456). -/
def isLogCfg (off : Nat) : Bool := decide (0xC0000 ≤ off) && decide (off < 0xC0800) && off % 0x20 == 0

/-- The owner of page p of the window (R459), where the model places it: [6] assigned, [5:0] the function (log 29). -/
def ownerReg (p : Nat) : Nat := 0xF0000 + 8 * p
/-- The virtual address that a function's aperture begins at (R459), where the model places it: [53:16] (log 29). -/
def apertureReg (fn : Nat) : Nat := 0xF0800 + 0x10 * fn

/-- The bits that a write of a control register without a step of its own keeps (R408, R420 to R422, R428, R434, R438,
R442, R449 to R453, R456, R469, R470, R472); 0 where there is no such register, or where it is read-only. -/
def ctlMask (off : Nat) : Word :=
  if isCalSlot off then 0x7F
  else if off % 8 ≠ 0 then 0
  else if off < 0x100 then (if off % 0x40 = 0 then fieldMask [(47, 0)] else 0)
  else if 0x20000 ≤ off ∧ off < 0x20200 then 1
  else if 0x30000 ≤ off ∧ off < 0x32000 then poolMask (off % 0x80)
  else if off = 0x40000 then fieldMask [(53, 16)]
  else if off = 0x50000 then fieldMask [(51, 12), (4, 0)]
  else if off = 0x50008 then fieldMask [(63, 0)]
  else if off = 0x50028 then fieldMask [(51, 16)]
  else if 0x60000 ≤ off ∧ off < 0x80000 then
    (if off % 0x20 = 0 then fieldMask [(63, 63), (61, 56), (51, 7), (4, 0)] else if off % 0x20 = 8 then fieldMask [(19, 3)] else 0)
  else if 0x90000 ≤ off ∧ off < 0x90200 then fieldMask [(7, 0)]
  else if 0x90400 ≤ off ∧ off < 0x90600 then (if off % 0x80 = 0x40 then 1 else 0)
  else if 0xA0000 ≤ off ∧ off < 0xA0800 then fieldMask [(15, 0)]
  else if 0xB0000 ≤ off ∧ off < 0xB1000 then fieldMask [(21, 0)]
  else if 0xC0000 ≤ off ∧ off < 0xC0800 then
    (if off % 0x20 = 0 then fieldMask [(63, 62), (51, 12), (4, 0)] else if off % 0x20 = 8 then fieldMask [(63, 0)] else 0)
  else if 0xD1000 ≤ off ∧ off < 0xD1400 then (if off % 16 = 0 then fieldMask [(51, 12), (4, 0)] else fieldMask [(63, 0)])
  else if 0xD2000 ≤ off ∧ off < 0xD2200 then fieldMask [(24, 24), (21, 16), (3, 0)]
  else if 0xE0000 ≤ off ∧ off < 0xE1000 then portMask (off / 0x100 % 16) (off % 0x100)
  else if off = 0xE1000 then fieldMask [(21, 0)]
  else if 0xE2000 ≤ off ∧ off < 0xEC000 then fieldMask [(15, 0)]
  else if 0xEC000 ≤ off ∧ off < 0xEE000 then fieldMask [(63, 63), (61, 56), (52, 48), (21, 0)]
  else if ownerReg 0 ≤ off ∧ off < ownerReg 16 then fieldMask [(6, 0)]
  else if apertureReg 0 ≤ off ∧ off < apertureReg 64 then (if off % 0x10 = 0 then fieldMask [(53, 16)] else 0)
  else 0

/-- An allocation policy of 3 stores 0 (R453). -/
def policyFix (v : Word) : Word :=
  let fix := fun (lo : Nat) => if bits v lo 2 = 3 then 0 else bits v lo 2 * 2 ^ lo
  W (bits v 0 16 + fix 16 + fix 18 + fix 20)

/-- CONTROL_REGISTER_WRITE (R408): the value under the register's own fields. A port that is disabled goes
down, one that is enabled begins to train (log 24); room in a ready ring lets ready tasks enter it (R442); a write of an order
log's configuration begins a log in which nothing is matched yet (R457, log 29). -/
def execControlRegisterWrite (off : BitVec 20) (v : Word) (s : State) : Out :=
  let o := off.toNat
  let w := v &&& ctlMask o
  if ctlMask o = 0 then .next s
  else
    let s := s.setReg o (if 0xB0000 ≤ o ∧ o < 0xB1000 then policyFix w else w)
    let s := if 0xE0000 ≤ o ∧ o < 0xE1000 ∧ 0x20 ≤ o % 0x100 ∧ o % 0x100 < 0x40 then
        s.linkUpd (o / 0x100 % 16) fun l => { l with keyNew := true }
      else s
    if 0xE0000 ≤ o ∧ o < 0xE1000 ∧ o % 0x100 = 0 then
      let p := o / 0x100 % 16
      let l := s.link p
      .next (if !bitAt w 0 then s.portFail p else s.setLink p (if l.up then l else l.retrain))
    else if 0xD1000 ≤ o ∧ o < 0xD1400 then .next (s.sweep ((o - 0xD1000) / 16))
    else if isLogCfg o then .next { s with matched := s.matched.filter fun p => p.1 != (o - 0xC0000) / 0x20 }
    else .next s

/-- ERASURE_MARK_WRITE (R304, R408). -/
def execErasureMarkWrite (quad : BitVec 5) (v : Word) (s : State) : Out :=
  .next (s.setReg (0x10000 + 0x20 * quad.toNat) (keep v 5 0))

/-- CORRECTED_COUNT_CLEAR (R408). -/
def execCorrectedCountClear (quad : BitVec 5) (s : State) : Out := .next (s.setReg (0x10008 + 0x20 * quad.toNat) 0)

/-- UNCORRECTABLE_COUNT_CLEAR (R408). -/
def execUncorrectableCountClear (quad : BitVec 5) (s : State) : Out := .next (s.setReg (0x10010 + 0x20 * quad.toNat) 0)

/-- The injection of a context that its `SRW` waits for (R407). -/
def State.injection (s : State) (x : CtxRef) (kind : Nat) : Option Ctx :=
  (s.ctx? x).filter fun k => k.sr.injecting && bits k.sr.inject 56 2 == kind

/-- An injection is over (R407). -/
def Ctx.injected (k : Ctx) (err : Bool) : Ctx :=
  { k with sr := { k.sr with injecting := false, inject := k.sr.inject ||| W (b2n err * 2 ^ 62) } }

/-- Perform an injection on the sector that sr.inject names, through the context's translation (R407). -/
def State.inject (s : State) (x : CtxRef) (kind : Nat) (f : Xl → Nat → State → State) : State :=
  match s.injection x kind with
  | none => s
  | some k =>
    let va := bits k.sr.inject 6 48 * 64
    match s.xlate x.core.toNat k.bd.vdev va with
    | (.pending, s) => s
    | (.fail _, s) => s.setCtx x (k.injected true)
    | (.ok l, s) =>
      if lfTier l.leaf = 0 && isHbm (l.pa va) then (f l (l.pa va / 64) s).setCtx x (k.injected false)
      else s.setCtx x (k.injected true)

/-- Write a granule to HBM anew with every codeword's check symbols complemented: its sectors are poisoned (R305, R407). -/
def State.poisonGranule (s : State) (tag sec : Nat) : State :=
  s.hbmWrite ((granuleOf (gOf tag) sec).map fun x => (x, ⟨memSector s.ms.mem x, false, true, tag⟩))

/-- INJECT_POISON (R407). -/
def execInjectPoison (x : CtxRef) (s : State) : Out :=
  .next (s.inject x 0 fun l sec s => ((granuleOf (lfG l.leaf) sec).foldl State.mscDrop s).poisonGranule (lfTag l.leaf) sec)

/-- More symbols are in error, in the codeword and on the channel of the byte at an address (R303, R304, log 20). -/
def State.addSymbols (s : State) (pa n : Nat) : State :=
  s.mem fun m => { m with symErr := tset 0 m.symErr pa (tget 0 m.symErr pa + n) }

/-- INJECT_SYMBOL (R407): a symbol of the first codeword that holds the sector, at its first byte (R303). -/
def execInjectSymbol (x : CtxRef) (s : State) : Out := .next (s.inject x 1 fun _ sec s => s.addSymbols (64 * sec) 1)

/-- MANAGEMENT_CORE_STORE (R418): performed at the MSC, or at the window or the expander, the only memory there is
(R411). -/
def execManagementCoreStore (pa : Word) (bytes : List Byte) (s : State) : Out :=
  let a := pa.toNat
  if rangeOk 0 a bytes.length || rangeOk 1 a bytes.length then .next (s.pkgPut a bytes) else .next s

/-- An expander indicates poison: its sector is poisoned (R363, R466). -/
def State.cxlPoison (s : State) (sec : Nat) : State :=
  s.mem fun m => { m with poison := if m.poison.contains sec then m.poison else sec :: m.poison }

/-- MEMORY_SYMBOL_ERROR (R304). The memory of an expander answers for its own errors: with a poison indication (R466,
log 20). -/
def execMemorySymbolError (pa : Word) (symbols : Nat) (s : State) : Out :=
  let a := pa.toNat
  .next (if isHbm a then s.addSymbols a symbols else if rangeOk 1 a 1 then s.cxlPoison (a / 64) else s)

/-- PSEUDO_CHANNEL_FAILURE (R304). -/
def execPseudoChannelFailure (quad pc : BitVec 5) (s : State) : Out :=
  let n := 32 * quad.toNat + pc.toNat
  .next (s.mem fun m => { m with deadPc := if m.deadPc.contains n then m.deadPc else n :: m.deadPc })

/-- EXPANDER_STOPS_RESPONDING (R466). -/
def execExpanderStopsResponding (port : BitVec 2) (s : State) : Out :=
  .next (s.mem fun m => { m with expDown := if m.expDown.contains port.toNat then m.expDown else port.toNat :: m.expDown })

/-- EXPANDER_RETURN (R429). -/
def execExpanderReturn (port : BitVec 2) (s : State) : Out :=
  .next (s.mem fun m => { m with expDown := m.expDown.filter (· != port.toNat) })

/-- The held translations of a shootdown are dropped (R420 step 1). -/
def State.shoot (s : State) (d : Shootdown) : State :=
  match d.kind with
  | 2 => (upTo 64).foldl (fun s v => (s.tlbForget v 0 (2 ^ 54)).headsForget v 0 (2 ^ 54)) s
  | 1 => (s.tlbForget d.vdev 0 (2 ^ 54)).headsForget d.vdev 0 (2 ^ 54)
  | _ => (s.tlbForget d.vdev d.va d.bytes).headsForget d.vdev d.va d.bytes

/-- A shootdown covers an address of a virtual device. -/
def Shootdown.covers (d : Shootdown) (vdev va n : Nat) : Bool := (d.kind == 2 || d.vdev == vdev) && rangesMeet va n d.va d.bytes

/-- The pages whose translations a shootdown drops: from the TLBs and from the page registers of heads (R420). -/
def State.heldSpans (s : State) (d : Shootdown) : List Span :=
  let tlb := (s.ms.coreTlb ++ s.ms.stoveTlb).map fun (e : TlbEnt) => (⟨e.vdev, e.va, e.size, lfFrame e.leaf⟩ : Span)
  let regs := ((s.ctxs.map fun p => p.2) ++ s.saved.map fun (q : Saved) => q.k).flatMap fun (k : Ctx) =>
    k.heads.flatMap fun (h : Nat × Head) =>
      (h.2.cur.toList ++ h.2.nxt.toList).map fun (g : PageReg) => (⟨k.bd.vdev, g.va, g.size, lfFrame g.leaf⟩ : Span)
  ((tlb ++ regs).filter fun (p : Span) => d.covers p.vdev p.va p.size).eraseDups

/-- A write of sdcmd with go = 1 (R420); it is ignored while go reads 1. -/
def State.shootStart (s : State) (d : Shootdown) (pages : Nat) : State :=
  if s.sd.isSome then s
  else
    let cmd := W (2 ^ 63 + d.kind * 2 ^ 61 + b2n d.cl * 2 ^ 60 + d.vdev * 2 ^ 32 + pages)
    { (s.shoot d).setReg 0x40008 cmd with sd := some { d with spans := s.heldSpans d } }

/-- SHOOTDOWN_RANGE (R420). -/
def execShootdownRange (cl : Bool) (vdev : BitVec 6) (pages : BitVec 32) (s : State) : Out :=
  .next (s.shootStart ⟨cl, 0, vdev.toNat, bits (s.reg 0x40000) 16 38 * 2 ^ 16, pages.toNat * 2 ^ 16, []⟩ pages.toNat)

/-- SHOOTDOWN_VDEV (R420). -/
def execShootdownVdev (cl : Bool) (vdev : BitVec 6) (s : State) : Out := .next (s.shootStart ⟨cl, 1, vdev.toNat, 0, 2 ^ 54, []⟩ 0)

/-- SHOOTDOWN_ALL (R420). -/
def execShootdownAll (cl : Bool) (s : State) : Out := .next (s.shootStart ⟨cl, 2, 0, 0, 2 ^ 54, []⟩ 0)

/-- A shootdown waits for an access to an address: it lies in the range, or in a page whose translation was dropped. -/
def Shootdown.awaits (d : Shootdown) (vdev va n : Nat) : Bool :=
  d.covers vdev va n || d.spans.any fun (p : Span) => p.vdev == vdev && rangesMeet va n p.va p.size

/-- A command of a context goes through pages that it has found in the range of a shootdown. -/
def Shootdown.awaitsCmds (d : Shootdown) (k : Ctx) : Bool :=
  k.eng.cmds.any fun (c : Cmd) => (c.reads ++ c.writes).any fun t => d.awaits k.bd.vdev t.va t.n

/-- Accesses of a context that were translated in the range of a shootdown and are neither performed nor faulted
(R420): those of a stopped context to an expander that does not answer stand in its fault record. -/
def State.shootBusy (s : State) (d : Shootdown) (x : CtxRef) (k : Ctx) : Bool :=
  let core := x.core.toNat
  let open_ := fun (st : Stream) (dead : Bool) => !(dead && (k.run == .stopped || k.reported st))
  k.loads.any (fun (l : LoadEnt) => d.awaits k.bd.vdev l.va l.size && open_ .A (s.loadDead core l)) ||
  k.stores.any (fun (e : StoreEnt) => d.awaits k.bd.vdev e.va e.size && open_ .A (s.storeDead core e)) ||
  k.hwrites.any (fun (w : HeadWrite) =>
    w.pieces.any (fun (p : WPiece) => d.awaits k.bd.vdev p.va p.bytes.length) && open_ (k.writer w) (s.writeDead w)) ||
  d.awaitsCmds k

/-- The context at a place, bound or saved from there, that gave a copy with a peer. -/
def State.xferCtx (s : State) (f : Xfer) : Option Ctx :=
  match s.ctx? f.x with
  | some k => some k
  | none => (s.saved.find? fun (q : Saved) => q.x == f.x).map fun (q : Saved) => q.k

/-- The range of a root port (R411). -/
def portRange (p : Nat) : Nat × Nat := (cxlBase + p * 2 ^ 41, 2 ^ 41)

/-- SHOOTDOWN_COMPLETE (R420): with cl the lines are cleaned and dropped. The model drops every line but those of expanders
that do not respond, of which it waits for the dirty ones of the pages of the range (R466, log 27). -/
def execShootdownComplete (s : State) : Out :=
  match s.sd with
  | none => .next s
  | some d =>
    let frames := d.spans.map fun (p : Span) => (p.frame, p.size)
    let busy := s.ctxs.any (fun p => s.shootBusy d (keyCtx p.1) p.2) || s.saved.any (fun (q : Saved) => d.awaitsCmds q.k) ||
      s.xfers.any (fun (f : Xfer) => match s.xferCtx f with
        | some k => f.loc.any fun p => d.awaits k.bd.vdev p.1 p.2.2.1
        | none => false) ||
      (d.cl && (upTo 4).any fun n => s.rangesDead n frames)
    if busy then .next s
    else
      let lines := [(0, cxlBase)] ++ ((upTo 4).filter fun p => !s.ms.expDown.contains p).map portRange ++ frames
      let s := if d.cl then s.flushRange lines else s
      .next { s.setReg 0x40008 (keep (s.reg 0x40008) 62 0) with sd := none }

/-- scrst shows how many requests are queued (R423). -/
def State.scrubState (s : State) : State := s.setReg 0x40028 (W (min 64 s.ms.scrubs.length))

/-- SCRUB_REQUEST (R423): the write is held while 64 requests are pending. -/
def execScrubRequest (v : Word) (s : State) : Out :=
  .next (s.mem fun m => { m with scrubs := m.scrubs ++ [keep v 51 16 ||| keep v 1 0] }).scrubState

/-- Drop the sectors lo to hi − 1 from caches, without write-back (R423). -/
def dropSectors (lo hi : Nat) (l : Tab Sec) : Tab Sec :=
  l.filter fun p => !(decide (lo ≤ p.1 % 2 ^ 46) && decide (p.1 % 2 ^ 46 < hi))

/-- SCRUB_COMPLETE (R423): the oldest request. -/
def execScrubComplete (s : State) : Out :=
  match s.ms.scrubs with
  | [] => .next s
  | r :: rest =>
    let pa := bits r 16 36 * 2 ^ 16
    let n := pageBytes (bits r 0 2)
    let lo := pa / 64
    let hi := (pa + n) / 64
    let out := fun (sec : Nat) => !(decide (lo ≤ sec) && decide (sec < hi))
    .next (s.mem fun m =>
      { m with
        mem := m.mem.filter fun c => out (c.1 / 64)
        poison := m.poison.filter out
        symErr := m.symErr.filter fun p => out (p.1 / 64)
        tags := m.tags.filter fun p => out p.1
        msc := dropSectors lo hi m.msc, l2 := dropSectors lo hi m.l2, l1 := dropSectors lo hi m.l1
        scrubs := rest }).scrubState

/-- FREEZE (R409): the links drop, and nothing but readout and reset takes place any more. -/
def execFreeze (s : State) : Out :=
  .next { s with frozen := true, links := (upTo 16).foldl (fun t p => tset Link.down t p { tget Link.down t p with up := false }) s.links }

/-- THERMAL_THROTTLE (R476): Polpen lowers the refill of a damper. -/
def execThermalThrottle (stove : BitVec 2) (refill : BitVec 16) (s : State) : Out :=
  let off := 0x40 * stove.toNat
  let old := s.reg off
  .next (s.setReg off (keep old 47 16 ||| W (min (bits old 0 16) refill.toNat)))

/-- THERMAL_POWER_OFF (R476): the state is lost. -/
def execThermalPowerOff (s : State) : Out :=
  .next { State.reset with off := true, host := { State.reset.host with flash := s.host.flash, imageSize := s.host.imageSize } }

end Sys2Proof.Machine
end

