-- ==== Sys2Proof/Machine/Save.lean ====
section
/-! DEFINITION. Saving and restoring a context (spec/18 R434 to R437). -/
namespace Sys2Proof.Machine

/-- Save area named by the register 0x5_0028 (R434). -/
def State.saveArea (s : State) : Nat := bits (s.reg 0x50028) 16 36 * 2 ^ 16

/-- The save and restore register (R434): err is of the last restore. -/
def State.saveReg (s : State) (x : CtxRef) (go : Bool) (op : Nat) (err : Bool) : State :=
  s.setReg 0x50020 (W (b2n go * 2 ^ 63 + op * 2 ^ 61 + b2n err * 2 ^ 60 + b2n x.bank * 2 ^ 8 + x.core.toNat))

/-- A save is over, or still under way (R434). -/
def State.saveEnd (s : State) (x : CtxRef) (busy : Bool) : State := s.saveReg x busy 0 (bitAt (s.reg 0x50020) 60)

/-- A restore is over (R434). -/
def State.restoreEnd (s : State) (x : CtxRef) (err : Bool) : State := s.saveReg x false 1 err

/-- The bound contexts of a gang, changed. -/
def State.gangMap (s : State) (k : Ctx) (f : Ctx → Ctx) : State :=
  { s with ctxs := s.ctxs.map fun p => if k.mate p.2 then (p.1, f p.2) else p }

/-- A context that is stopped because one of its gang is saved (R17, R434). -/
def Ctx.hold (k : Ctx) : Ctx := { k with held := true, run := if k.run == .ready && !k.held then .stopping false else k.run }

/-- A context of the gang is still being stopped (R425). -/
def State.gangStopping (s : State) (k : Ctx) : Bool :=
  s.ctxs.any fun p => k.mate p.2 && (match p.2.run with
    | .stopping _ => true
    | _ => false)

/-- Write a context to its area, sector by sector (R435). -/
def State.writeArea (s : State) (x : CtxRef) (k : Ctx) (area : Nat) : State :=
  (upTo (areaSize k.bd.slots / 64)).foldl (fun (t : State) j =>
    t.pkgPut (area + 64 * j) ((upTo 8).flatMap fun i => leBytes 8 (areaWord s x k (8 * j + i)).toNat)) s

/-- A head as its context is saved: flue and page registers are discarded (R211, R434). -/
def Head.parked (h : Head) : Head := { h with flue := [], cur := none, nxt := none, stop := .none }

/-- A context as it leaves its bank for memory (R434). -/
def Ctx.leaving (k : Ctx) : Ctx :=
  { k with held := false, heads := k.heads.map fun (q : Nat × Head) => (q.1, q.2.parked) }

/-- CONTEXT_SAVE (R434): every context of the gang is stopped before the first of them is saved (R17, R425). -/
def execContextSave (x : CtxRef) (s : State) : Out :=
  match s.ctx? x with
  | none => .next (s.saveEnd x false)
  | some k =>
    if !isHbm s.saveArea then
      .next ((if s.gangOut k then s else s.gangMap k fun o => { o with held := false }).saveEnd x false)
    else
      let s1 := s.gangMap k Ctx.hold
      if s1.gangStopping k then .next (s1.saveEnd x true)
      else
        let k := k.leaving
        let s2 := (s1.writeArea x k s.saveArea).unbind x
        .next ({ s2 with saved := s2.saved ++ [(⟨x, s.saveArea, k⟩ : Saved)] }.saveEnd x false)

/-- A dword of an area as memory holds it. -/
def State.areaGet (s : State) (area i : Nat) : Word := (s.pkgWord (area + 8 * i)).1

/-- The words of an area by dword index. -/
abbrev AreaGet := Nat → Word

/-- The binding that an area states (R434, R435). -/
def Binding.overlay (b : Binding) (g : AreaGet) : Binding :=
  { b with
    vdev := bits (g 0) 0 6, dormant := bitAt (g 0) 9, det := bits (g 1) 0 2, slot0 := if bits (g 7) 4 4 = 0 then b.slot0 else bits (g 7) 0 3, slots := bits (g 7) 4 4
    recAddr := g 8, rank := (g 0x227).toNat, gsize := (g 0x228).toNat, task := g 0x229, stats := keep (g 0x22D) 53 0 }

/-- The context registers that an area states. -/
def CtxSr.overlay (r : CtxSr) (g : AreaGet) : CtxSr :=
  let reg := fun (i : Nat) => g (0x220 + i)
  { r with
    flags := (reg 1).setWidth 5, lfsr := (reg 3).setWidth 32, syncmask := (reg 4).setWidth 4, seq := (reg 5).setWidth 16,
    npd := (reg 0xB) &&& 0xFFFFFFFF, pkp := reg 0xC, perm := (upTo 16).foldl (fun t n => tset 0x00FAC688 t n (keep (reg (0x10 + n)) 23 0)) []
    vtid := keep (reg 0x20) 7 0, dtid := keep (reg 0x21) 7 0, eqpar := keep (reg 0x22) 52 32 ||| keep (reg 0x22) 21 2
    eqsz := keep (reg 0x23) 21 2, eqlog := keep (reg 0x24) 35 32 ||| keep (reg 0x24) 21 4
    eqUsed := bits (reg 0x25) 32 16, eqDepth := bits (reg 0x25) 0 5
    eqw := (upTo 8).foldl (fun t n => tset 0 t n (keep (reg (0x28 + n)) 63 62 ||| keep (reg (0x28 + n)) 40 0)) []
    spkin := keep (reg 0x26) 36 32 ||| keep (reg 0x26) 28 24 ||| keep (reg 0x26) 22 6
    evRef := bits (reg 0x27) 16 8, evDrop := bits (reg 0x27) 8 8
    inject := keep (g 9) 62 62 ||| keep (g 9) 57 56 ||| keep (g 9) 53 6, injecting := false
    pkmask := (g 3).setWidth 32, tdir := keep (g 2) 62 58 ||| keep (g 2) 53 7, mrow := mrowOf (g 4)
    bdone := keep (g 5) 63 63 ||| keep (g 5) 15 0, bcount := bits (g 6) 0 16, bbase := none, tst := bitAt (g 0) 11 }

/-- A stream that an area states (R436). The place that its word has reached, and what the area has no room for, stay as
the device holds them while the pc and the resume registers are as they were saved (log 31); token pushes that the stream owes stay
owed. -/
def Ctx.overlayStr (k : Ctx) (st : Stream) (same : Bool) (g : AreaGet) : StreamSt :=
  let t := k.str st
  let w := fun (i : Nat) => g (0x20 + 0x80 * st.num + i)
  let halted := bitAt (w 0x21) 1
  let plev := bitAt (w 0x21) 0
  let kept := same && w 0x20 == t.pc
  let prog : Option Prog :=
    if plev then none
    else
      match st with
      | .M => if bitAt (g 4) 63 then some ⟨bits (g 4) 0 7, 0, none⟩ else none
      | .A => if bitAt (g 5) 63 then some ⟨bits (g 5) 0 16, bits (g 6) 0 16, none⟩ else none
      | _ => none
  { regs := (upTo (scalarRegs st)).foldl (fun r n => tset 0 r n (w n)) []
    pc := w 0x20, plev := plev, halted := halted, guards := (w 0x21).extractLsb' 8 8 ||| 1, fpmode := fpmodeOf (w 0x22)
    tvec := w 0x23 &&& 0x003FFFFFFFFFFFF9, cause := keep (w 0x24) 7 0, epc := epcMask (w 0x25), tval := w 0x26
    mloop := keep (w 0x27) 63 42, mround := w 0x28, mtrip := w 0x29, psave0 := w 0x2A, psave1 := w 0x2B
    inBody := if kept then t.inBody else mlAct (w 0x27) && !plev
    owed := t.owed
    wakeAt := none
    prog := if kept then t.prog else prog
    waiting := if kept then t.waiting else none
    stalled := none }

/-- The resume registers of the header of a context that has kept its place: a word in progress stands in the stream. -/
def CtxSr.settle (r : CtxSr) (old : Ctx) (keptM keptA : Bool) : CtxSr :=
  let m := keptM && old.m.prog.any fun p => p.k != 0
  let a := keptA && old.a.prog.any fun p => p.k != 0
  { r with
    mrow := if m then old.sr.mrow else r.mrow
    bdone := if a then old.sr.bdone else r.bdone
    bcount := if a then old.sr.bcount else r.bcount
    bbase := if r.bdone == old.sr.bdone then old.sr.bbase else none }

/-- A resume register that its stream has taken up, at level U, reads 0 again (R246, R280). -/
def Ctx.takeUp (k : Ctx) (keptM keptA : Bool) : Ctx :=
  let r := k.sr
  let r := if !keptM && k.m.prog.isSome then { r with mrow := 0 } else r
  { k with sr := if !keptA && k.a.prog.isSome then { r with bdone := 0, bcount := 0 } else r }

/-- Latch slot n of an area. -/
def latchOf (g : AreaGet) (n : Nat) : Option Latch :=
  let w := fun (i : Nat) => g (0x2A0 + 4 * n + i)
  if w 2 = 0 then none else some ⟨w 0, w 1, (w 2).toNat, (w 3).toNat⟩

/-- Window slot n of an area: one whose four dwords are zero is bound when the device holds it so. -/
def windowOf (g : AreaGet) (old : Option Win) (n : Nat) : Option Win :=
  let w := fun (i : Nat) => g (0x2E0 + 4 * n + i)
  if (upTo 4).all (fun i => w i == 0) && old.isNone then none else some ⟨w 0, w 1, (w 2).toNat, (w 3).toNat⟩

/-- Head n of an area; a head that the device has unbound meanwhile stays unbound (R190). -/
def headOf (g : AreaGet) (old : Head) (held : Bool) (n : Nat) : Head :=
  let w := fun (i : Nat) => g (0x320 + 8 * n + i)
  let st := w 0
  if !bitAt st 0 || (held && !old.bound) then Head.unbound
  else
    { bound := true, handle := (w 1).toNat, owner := Stream.ofCl (st.extractLsb' 2 2), back := bitAt st 4
      mode := if bitAt st 7 then .recorder else (match bits st 5 2 with
        | 0 => .read | 1 => .rmw | 2 => .overwrite | _ => .zeroFill)
      v := (w 2).toInt, mk0 := (w 3).toInt, mk1 := (w 4).toInt, mk2 := (w 5).toInt, mk3 := (w 6).toInt
      flue := [], cur := none, nxt := none, stop := .none }

/-- Records of a result FIFO of an area; a record that the device holds keeps what its effects wrote (R267). -/
def recsOfArea (g : AreaGet) (old : List CRec) (base count : Nat) : List CRec :=
  (upTo (bits (g count) 0 8)).map fun j =>
    let r : CRec := ⟨g (base + 2 * j), g (base + 2 * j + 1), []⟩
    match old.find? fun (q : CRec) => q.info == r.info && q.value == r.value with
    | some q => q
    | none => r

/-- The engines' state of an area; commands stay with the engines. A pending failure is one of R348. -/
def EngSt.overlay (e : EngSt) (g : AreaGet) : EngSt :=
  let w := fun (i : Nat) => g (0x3A0 + i)
  { e with
    recs := (upTo 3).foldl (fun t n => tset [] t n (recsOfArea w (tget [] e.recs n) ([0, 0x20, 0x40].getD n 0) (0x80 + n))) []
    eqFail := if w 0x83 = 0x41 ∨ w 0x83 = 0x42 then some ((w 0x83).setWidth 8, keep (w 0x84) 52 32 ||| keep (w 0x84) 15 0, (w 0x85).setWidth 16)
      else none
    gfail := bits (w 0x86) 0 32, gfailSeq := (w 0x86).extractLsb' 32 16, gfailStatus := (w 0x86).extractLsb' 48 8 }

/-- The slots of a queue of n entries, of which `get` reads the one at a place from the oldest slot on: the reserved places stay
as the device holds them, and come after the entries where their number has changed (log 31). -/
def slotsOf {α : Type} (old : List (Slot α)) (n : Nat) (get : Nat → α) : List (Slot α) :=
  let isFull := fun (x : Slot α) => match x with
    | .full _ => true
    | .held _ => false
  if (old.filter isFull).length = n then
    lmapIdx (fun j x => match x with
      | .full _ => Slot.full (get j)
      | x => x) old
  else ((upTo n).map fun j => Slot.full (get j)) ++ old.filter fun x => !isFull x

/-- A row entry at a dword index. -/
def rowEntOf (g : AreaGet) (i : Nat) : RowEnt :=
  ⟨(upTo 64).map fun l => (g (i + l / 2)).extractLsb' (l % 2 * 32) 32, g (i + 0x20)⟩

/-- Entry j of queue q of an area, counted from the oldest slot. -/
def areaSlot (g : AreaGet) (q depth j : Nat) : Nat := (bits (g (0x600 + 0x940 + q)) 16 5 + j) % depth

/-- Number of entries of queue q. -/
def areaEntries (g : AreaGet) (q : Nat) : Nat := bits (g (0x600 + 0x940 + q)) 0 5

/-- The entry of scalar queue q at a place; an invalid one holds zero (R116). -/
def sqOfArea (g : AreaGet) (q j : Nat) : QEnt :=
  let i := 0x600 + 0x20 * q + 2 * areaSlot g q 16 j
  ⟨if bitAt (g (i + 1)) 0 then g i else 0, bitAt (g (i + 1)) 0⟩

/-- The entry of row queue q at a place; its invalid lanes hold zero (R116). -/
def rqOfArea (g : AreaGet) (q j : Nat) : RowEnt :=
  let e := rowEntOf g (0x700 + 0x108 * (q - 8) + 0x21 * areaSlot g q 8 j)
  ⟨maskRow e.lanes e.mask, e.mask⟩

/-- Count dwords and valid bits of the queues are in range; reserved slots belong to commands that the device holds. -/
def queuesOk (k : Ctx) (g : AreaGet) : Bool :=
  (upTo 16).all fun q =>
    let c := g (0x600 + 0x940 + q)
    let held := if q < 8 then slotCount (k.sq? q) else slotCount (k.rq? q)
    let n := bits c 0 5
    let depth := queueDepth q
    c == keep c 20 16 ||| keep c 12 8 ||| keep c 4 0 && bits c 8 5 == bits held 8 5 && decide (n + bits c 8 5 ≤ depth) &&
    decide (bits c 16 5 < depth) &&
    (q ≥ 8 || (upTo (n + bits c 8 5)).all fun j => decide ((g (0x600 + 0x20 * q + 2 * areaSlot g q 16 j + 1)).toNat < 2))

/-- Tokens of FIFO n of an area: more than 8 are pushes that their stream still owes (log 31). -/
def tokenOf (g : AreaGet) (n : Nat) : Nat := bits (g (0x600 + 0x950)) (8 * n) 8

/-- An accumulator entry at a bit string. -/
def accEntOf (v : Nat) : AccEnt := ⟨BitVec.ofNat 104 v, v.testBit 104, v.testBit 105⟩

/-- The matrix state of an area: the codes are decoded under their saved encoding (R437). -/
def MatSt.overlay (m : MatSt) (b : Binding) (g : AreaGet) : MatSt :=
  let half := fun (base n : Nat) => (g (base + n / 4)).extractLsb' (n % 4 * 16) 16
  let buf := fun (n : Nat) =>
    let d := g (0x1960 + 0x20 * n)
    let enc := bits d 0 4
    { codes := (upTo 4096).foldl (fun t i =>
        let c := (half (0x6000 + 0x400 * n) i).toNat
        tset 0 t i (if c = 0 then 0 else BitVec.ofNat 20 (enc * 2 ^ 16 + c))) []
      scales := (upTo 128).foldl (fun t i => tset (0x7F : Byte) t i ((g (0x1962 + 0x20 * n + i / 8)).extractLsb' (i % 8 * 8) 8)) []
      tag := bits d 4 2, enc := if enc = 15 then none else some enc : StatBuf }
  { m with
    bufs := (upTo 6).foldl (fun t n => tset StatBuf.clear t n (buf n)) []
    front := (upTo 3).foldl (fun t a => tset 0 t a (if bitAt (g (0x1960 + 0x40 * a + 0x20)) 8 then 1 else 0)) []
    tiles := (upTo (192 * b.slots)).foldl (fun t r =>
      let p := b.accAt r
      let v := (upTo 106).foldl (fun v i => v + (g (0x7800 + 106 * r + i)).toNat * 2 ^ (64 * i)) 0
      tset (List.replicate 64 AccEnt.clear) t (64 * p.1 + p.2) ((upTo 64).map fun j => accEntOf (v / 2 ^ (106 * j)))) []
    anchors := (upTo 24).foldl (fun t n => tset 0 t n (half 0x1944 n)) []
    ts := (upTo 4).foldl (fun t n => tset 0x3F800000 t n (keep (g (0x1940 + n)) 39 0)) []
    tbl := (upTo 256).foldl (fun t n => tset 0 t n (half 0x1900 n)) [] }

/-- The vector state of an area. -/
def vecOf (g : AreaGet) : VecSt :=
  { regs := (upTo 512).foldl (fun t r => tset zeroRow t r ((upTo 64).map fun l =>
      (g (0x2000 + 0x20 * r + l / 2)).extractLsb' (l % 2 * 32) 32)) []
    masks := ((upTo 128).drop 16).foldl (fun t r => tset 0 t r (g (0x1840 + r))) []
    tbl := (upTo 256).foldl (fun t n => tset 0 t n ((g (0x18C0 + n / 4)).extractLsb' (n % 4 * 16) 16)) [] }

/-- A context as an area states it, over what the device holds of it (R434). -/
def Ctx.overlay (k : Ctx) (held : Bool) (g : AreaGet) : Ctx :=
  let sameM := held && k.mrowAt == g 4
  let sameA := held && k.bdoneAt == (g 5, bits (g 6) 0 16)
  let bd := k.bd.overlay g
  let str := fun (st : Stream) => k.overlayStr st (match st with
    | .M => sameM
    | .A => sameA
    | _ => held) g
  let keptM := sameM && g 0x140 == k.m.pc
  let keptA := sameA && g 0x40 == k.a.pc
  let popped := (upTo k.dHeld.length).map fun j => rowEntOf g (0x1000 + 0x21 * j)
  let e : Ctx :=
    { k with
      bd := bd, a := str .A, v := str .V, m := str .M, d := str .D, sr := (k.sr.overlay g).settle k keptM keptA
      sq := (upTo 8).foldl (fun t q => tset [] t q (slotsOf (k.sq? q) (areaEntries g q) (sqOfArea g q))) []
      rq := ((upTo 16).drop 8).foldl (fun t q => tset [] t q (slotsOf (k.rq? q) (areaEntries g q) (rqOfArea g q))) []
      tok := (upTo 8).foldl (fun t n => tset 0 t n (tokenOf g n - k.owedTokens n)) []
      vec := vecOf g, mat := k.mat.overlay bd g
      heads := (upTo 16).foldl (fun t n => tset Head.unbound t n (headOf g (k.head n) held n)) []
      dpopped := if k.dpopped.isEmpty then [] else popped
      dparked := k.dparked.map fun p => (if k.dpopped.isEmpty then popped else p.1, p.2)
      latches := (upTo 16).foldl (fun t n => tset none t n (latchOf g n)) []
      wins := (upTo 16).foldl (fun t n => tset none t n (windowOf g (k.win? n) n)) []
      eng := k.eng.overlay g
      evq := (upTo (bits (g 0x468) 0 6)).map fun j => (g (0x428 + 2 * j), g (0x428 + 2 * j + 1))
      arms := (upTo 8).foldl (fun t n => tset 0 t n (g (0x469 + n))) [] }
  e.takeUp keptM keptA

/-- Bits of a dword of the area that a restore compares with what it has reinstated: counts, reservations and states that
the device derives are not fields to be set (R434, log 31). -/
def areaMask (i : Nat) : Word :=
  if i = 0 then W (2 ^ 64 - 1 - 2 ^ 10)
  else if i = 9 then W (2 ^ 63 - 1)
  else if i = 4 ∨ i = 5 ∨ i = 6 ∨ i = 0x22A then 0
  else if 0x320 ≤ i ∧ i < 0x3A0 ∧ i % 8 = 0 then W (2 ^ 64 - 1 - 0x702)
  else if i = 0x427 then 0
  else if 0x600 ≤ i ∧ i < 0xF50 then 0
  else if i = 0xF50 then 0
  else if 0x1000 ≤ i ∧ i < 0x1840 then 0
  else W (2 ^ 64 - 1)

/-- The resume registers of an area are in range (R246, R280). -/
def resumeOk (g : AreaGet) : Bool :=
  bits (g 4) 7 56 == 0 && bits (g 5) 16 47 == 0 && bits (g 6) 16 48 == 0 &&
  (!bitAt (g 4) 63 || (decide (1 ≤ bits (g 4) 0 7) && decide (bits (g 4) 0 7 ≤ 63))) &&
  (!bitAt (g 5) 63 || (decide (1 ≤ bits (g 5) 0 16) && decide (bits (g 5) 0 16 ≤ 65534)))

/-- The modulo registers of a stream hold what an `SRW` stores (R123). -/
def StreamSt.areaOk (t : StreamSt) : Bool := mloopOf 0 t.mloop == t.mloop

/-- The context registers of an area are in their ranges (R38, R212, R328, R329, R341). -/
def CtxSr.areaOk (r : CtxSr) : Bool :=
  decide (64 ≤ bits r.npd 0 32) && decide (bits r.npd 0 32 ≤ 2 ^ 30) && r.lfsr != 0 && decide (bits r.eqpar 32 21 ≤ 2 ^ 20) &&
  (bits r.eqlog 32 4 == 0 || decide (4 ≤ bits r.eqlog 32 4)) && decide (r.eqUsed ≤ 2 ^ 15) && decide (r.eqDepth ≤ 16) &&
  r.eqw.all fun p => decide (bits p.2 20 21 ≤ 2 ^ 20) && (!bitAt p.2 63 || decide (1 ≤ bits p.2 20 21))

/-- A latch slot is one that `LBIND` writes (R258, R259). -/
def Latch.areaOk (l : Latch) : Bool :=
  l.latch.toNat % 8 == 0 && l.base.toNat % 64 == 0 && decide (6 ≤ l.n) && decide (l.n ≤ 53) && decide (l.base.toNat + 2 ^ l.n ≤ 2 ^ 54) &&
  decide (l.scope ≤ 4)

/-- A window slot is declared, and bound as `WBIND` binds (R288). -/
def Win.areaOk (w : Win) (sh : Option WinShape) : Bool :=
  sh.any fun h => w.base.toNat % 64 == 0 && decide (w.base.toNat < 2 ^ 54) && w.stride.toNat % 64 == 0 && decide (w.stride.toNat < 2 ^ 32) &&
    (!h.rw || decide (h.rowBytes ≤ w.stride.toNat))

/-- A stationary buffer has a tag and an encoding that there are, and codes of its width (R221, R437). -/
def StatBuf.areaOk (b : StatBuf) : Bool :=
  decide (b.tag ≤ 2) && b.enc.all (fun n => decide (n ≤ 8)) &&
  b.codes.all fun p => p.2.toNat % 2 ^ 16 < (match b.enc with
    | some n => 2 ^ encWidth n
    | none => 1)

/-- The slot of head n of an area holds no reserved bit and a handle (R181, R206), bound or not. -/
def headSlotOk (g : AreaGet) (n : Nat) : Bool :=
  let w := fun (i : Nat) => g (0x320 + 8 * n + i)
  bits (w 0) 11 53 == 0 && bits (w 1) 24 40 == 0 && w 7 == 0

/-- Events and records of an area are of the kinds that there are (R311, R365). -/
def recordsOk (e : Ctx) : Bool :=
  e.evq.all (fun p => bits p.1 56 8 ≤ 1) &&
  (upTo 3).all fun n => (tget [] e.eng.recs n).all fun (r : CRec) => bits r.info 38 2 == n

/-- The fields of the binding that an area states are in their ranges (R17, R399); its slots are those of the bank's range (R433). -/
def Binding.areaOk (b : Binding) (g : AreaGet) : Bool :=
  (b.slot0, b.slots) == splitSlots b.split b.second && decide (b.det ≤ 2) && decide (bits (g 2) 58 5 ≤ 24) && decide (b.rank < b.gsize) && decide (b.gsize ≤ 192)

/-- A reserved field is zero and every field is in its range: the context reads back as the area stands (R434). -/
def State.areaOk (s : State) (x : CtxRef) (k e : Ctx) (g : AreaGet) : Bool :=
  queuesOk k g && resumeOk g && (upTo 8).all (fun n => decide (tokenOf g n ≤ 8 + k.owedTokens n)) && bits (g 0x468) 6 58 == 0 &&
  decide (bits (g 0x468) 0 6 ≤ 32) && e.bd.areaOk g && (upTo 16).all (headSlotOk g) && recordsOk e &&
  ((upTo 3).all fun n => decide ((tget [] e.eng.recs n).length + e.eng.reserved n ≤ recDepth n)) &&
  (e.heads.all fun (q : Nat × Head) => q.2.owner != .A) &&
  (e.latches.all fun (q : Nat × Option Latch) => q.2.all Latch.areaOk) &&
  (e.wins.all fun (q : Nat × Option Win) => q.2.all fun (w : Win) => w.areaOk (e.winShape q.1)) &&
  e.sr.areaOk && Stream.all.all (fun st => (e.str st).areaOk) && (e.mat.bufs.all fun (q : Nat × StatBuf) => q.2.areaOk) &&
  (e.bd.twoBuf || (upTo 3).all fun a => tget 0 e.mat.front a == b2n x.bank) &&
  (upTo (areaSize e.bd.slots / 8)).all fun i =>
    let goneHead := decide (0x320 ≤ i) && decide (i < 0x3A0) && !(e.head ((i - 0x320) / 8)).bound && !(k.head ((i - 0x320) / 8)).bound
    goneHead || (areaWord s x e i &&& areaMask i) == (g i &&& areaMask i)

/-- What the device holds of the context of an area: it was saved from the place, under the bind record that the area
names; or it is rebuilt from that record. -/
def State.savedAt (s : State) (x : CtxRef) (g : AreaGet) : Option Saved :=
  s.saved.find? fun (p : Saved) => p.x == x && p.k.bd.recAddr == g 8

/-- A context rebuilt from its bind record (R435): for an area that the device holds nothing of. -/
def State.rebuilt (s : State) (x : CtxRef) (g : AreaGet) : Option Ctx :=
  let addr := (g 8).toNat
  if !isHbm addr then none
  else
    let b := BindRec.ofWords (s.pkgDwords (rawAcc s 0 0 (addr / 64)) addr 32).1
    if !b.ok || b.bank != x.bank || !b.cores.contains x.core.toNat then none
    else
      match s.kdesc b.vdev b.kdesc.toNat with
      | .ok d _ => some (Ctx.init (b.binding d addr 0 1) b.bank 0 false 0 (fun _ => 0) (fun _ => 0))
      | _ => none

/-- The run state that a restored context comes back in (R434). -/
def Ctx.backRun (e : Ctx) : Run :=
  if e.unanswered then .stopped else if e.bd.dormant && e.allHalted && !e.started then .dormant else .ready

/-- A context is bound again (R17, R429): its gang goes on once all of it is back, and ends if Polpen has ended it meanwhile. One
that has ended leaves its bank if its task has completed meanwhile. -/
def State.comeBack (s : State) (x : CtxRef) (e : Ctx) : State :=
  let e := if s.isEnded e then s.endCtx x e else e
  let out := s.gangOut e
  let t := (s.setCtx x e).gangMap e fun o => { o with held := out }
  if !e.bd.dormant && (s.gangOf e).any (fun g => g.done && g.ended.contains e.bd.rank) then
    (t.unbind x).dropGang e.bd.vdev e.bd.task
  else t

/-- The bank beside a restored context does not admit it (R222, R433); of a context that the device does not hold, neither does the
partition of a saved one (R434, log 31). -/
def State.restoreClash (s : State) (x : CtxRef) (held : Bool) (e : Ctx) : Bool :=
  (s.ctx? (otherBank x)).any (fun o => !e.bd.beside o.bd) ||
  (!held && s.saved.any fun (q : Saved) => q.x.core == x.core && rangesMeet e.bd.sbase e.bd.ssize q.k.bd.sbase q.k.bd.ssize)

/-- CONTEXT_RESTORE (R434). -/
def execContextRestore (x : CtxRef) (s : State) : Out :=
  let g := s.areaGet s.saveArea
  let p := s.savedAt x g
  match (p.map fun (q : Saved) => q.k).or (s.rebuilt x g) with
  | none => .next (s.restoreEnd x true)
  | some k =>
    let e := k.overlay p.isSome g
    if (s.ctx? x).isSome || !isHbm s.saveArea || bitAt (g 0) 8 != x.bank || !s.areaOk x k e g || s.restoreClash x p.isSome e then .next (s.restoreEnd x true)
    else
      let s := { s with saved := s.saved.filter fun (q : Saved) => !(some q == p) }
      let s := s.mem fun m => { m with l1 := m.l1.filter fun q => q.1 / 2 ^ 46 != x.core.toNat }
      .next ((s.comeBack x { e with run := e.backRun }).restoreEnd x false)

end Sys2Proof.Machine
end

