-- ==== Sys2Proof/Machine/Brotin.lean ====
section
/-! DEFINITION. Brotin, the IEEE 1149.1 test access port (spec/16 R410). -/
namespace Sys2Proof.Machine

/-- Load an instruction and its data register. -/
def State.jtagTo (s : State) (ir : Byte) (dr : List Word) : State := { s with jtag := { s.jtag with ir := ir, dr := dr } }

/-- BYPASS (R410): the bypass register. -/
def execBypass (s : State) : Out := .next (s.jtagTo 0xFF [0])

/-- SAMPLE/PRELOAD (R410): the boundary register, whose cells the spec does not give: a free value (log 28). -/
def execSamplePreload (s : State) : Out := .next (s.jtagTo 0x02 [Config.freeWord (2 ^ 81 + s.md.tick)])

/-- EXTEST (R410): the boundary register. -/
def execExtest (s : State) : Out := .next (s.jtagTo 0x00 [Config.freeWord (2 ^ 81 + s.md.tick)])

/-- IDCODE (R410). -/
def execIdcode (s : State) : Out := .next (s.jtagTo 0x01 [0x17192A8B])

/-- CHSEL (R410). -/
def execChsel (chain : BitVec 16) (s : State) : Out :=
  .next { s with jtag := { s.jtag with ir := 0x20, chain := chain.toNat, dr := [chain.setWidth 64] } }

/-- Dword i of the readout of a cache of 16 ways (R410): two dwords of tag for each set and way, then 64 of data for each. A
tag is the line with [63] set, then a bit for each of its sectors that is valid, dirty, poisoned, in a byte each (log 28). -/
def cacheDword (sets : Nat) (lineAt : Nat → Nat → Option Nat) (held : Nat → Option Sec) (i : Nat) : Word :=
  let flags := fun (line : Nat) (p : Sec → Bool) => (upTo 8).foldl (fun n j => n + b2n ((held (8 * line + j)).any p) * 2 ^ j) 0
  if i < 32 * sets then
    match lineAt (i / 32) (i / 2 % 16) with
    | none => 0
    | some line =>
      if i % 2 = 0 then W (2 ^ 63 + line)
      else W (flags line (fun _ => true) + 2 ^ 8 * flags line (fun v => v.dirty) + 2 ^ 16 * flags line fun v => v.poison)
  else
    let j := i - 32 * sets
    match lineAt (j / 1024) (j / 64 % 16) with
    | none => 0
    | some line =>
      match held (8 * line + j % 64 / 8) with
      | none => 0
      | some v => W (leNat (secBytes v.data (8 * (j % 8)) 8))

/-- Dwords of such a readout. -/
def cacheDwords (sets : Nat) : Nat := (2 + 64) * 16 * sets

/-- The line in a set and way of the L2 of a stove. -/
def State.l2LineAt (s : State) (stove set way : Nat) : Option Nat :=
  (s.ms.l2Line.find? fun p => p.1 / 2 ^ 46 == stove && p.2.1 == way && setOf 2 6144 (p.1 % 2 ^ 46) == set).map fun p => p.1 % 2 ^ 46

/-- The line in a set and way of the MSC of a quadrant. -/
def State.mscLineAt (s : State) (u set way : Nat) : Option Nat :=
  (s.ms.mscLine.find? fun p => quadrantOf (512 * p.1) == u && p.2 == way && setOf 3 1024 p.1 == set).map (·.1)

/-- A dword of the device control space: the slots of a calendar are byte registers (R408, R451); a port's lstat says how the
port is, and its key cannot be read (R472). -/
def State.ctlDword (s : State) (off : Nat) : Word :=
  if isCalSlot off then W (leNat ((upTo 8).map fun i => (s.reg (off + i)).setWidth 8))
  else if 0xE0000 ≤ off ∧ off < 0xE1000 then
    (if off % 0x100 = 8 then s.lstat (off / 0x100 % 16)
     else if 0x20 ≤ off % 0x100 ∧ off % 0x100 < 0x40 then 0
     else s.reg off)
  else s.reg off

/-- Dwords of a chain (R410). How many registers the management core has is a free number (log 28). -/
def State.chainLen (s : State) (n : Nat) : Nat :=
  if n < 384 then
    (match s.ctx? (keyCtx n) with
     | some k => areaSize k.bd.slots / 8
     | none => areaSize 8 / 8)
  else if n < 576 then 3 * 2 ^ 20 / 8
  else if n < 580 then cacheDwords 6144
  else if n < 612 then cacheDwords 1024
  else if n = 612 then Config.chainLength n + 2 ^ 17
  else 1

/-- Dword i of a chain (R410): a context, a scratchpad, an L2, an MSC; the management core's registers, which are free values,
then the device control space. -/
def State.chainWord (s : State) (n i : Nat) : Word :=
  if n < 384 then
    (match s.ctx? (keyCtx n) with
     | some k => areaWord s (keyCtx n) k i
     | none => 0)
  else if n < 576 then W (leNat (s.spRead (n - 384) (8 * i) 8))
  else if n < 580 then cacheDword 6144 (s.l2LineAt (n - 576)) (fun sec => tfind s.ms.l2 (cacheKey (n - 576) sec)) i
  else if n < 612 then cacheDword 1024 (s.mscLineAt (n - 580)) (tfind s.ms.msc) i
  else if n = 612 then
    (if i < Config.chainLength n then Config.freeWord (2 ^ 82 + n * 2 ^ 64 + i) else s.ctlDword (8 * (i - Config.chainLength n)))
  else 0

/-- CHRD (R410): zeros unless the package is frozen. -/
def execChrd (s : State) : Out :=
  .next (s.jtagTo 0x21 ((upTo (s.chainLen s.jtag.chain)).map fun i => if s.frozen then s.chainWord s.jtag.chain i else 0))

end Sys2Proof.Machine
end

