-- ==== Sys2Proof/Machine/Crypto.lean ====
section
/-! DEFINITION. The SM3 digest and the SM2 signature check that the device performs (spec/15 R391, spec/20 R463, R474, R475), by
GM/T 0004 and GM/T 0003, which the spec names and does not print (log 6). -/
namespace Sys2Proof.Machine

/-- A word of SM3. -/
abbrev U32 := BitVec 32

/-- A number as n bytes, most significant first. -/
def beBytes (n v : Nat) : List Byte := (leBytes n v).reverse

/-- A number from its bytes, most significant first. -/
def beNat (l : List Byte) : Nat := leNat l.reverse

/-- The two permutations of SM3. -/
def sm3P0 (x : U32) : U32 := x ^^^ x.rotateLeft 9 ^^^ x.rotateLeft 17
@[inherit_doc sm3P0] def sm3P1 (x : U32) : U32 := x ^^^ x.rotateLeft 15 ^^^ x.rotateLeft 23

/-- The two Boolean functions of SM3 in round j. -/
def sm3FF (j : Nat) (x y z : U32) : U32 := if j < 16 then x ^^^ y ^^^ z else (x &&& y) ||| (x &&& z) ||| (y &&& z)
@[inherit_doc sm3FF] def sm3GG (j : Nat) (x y z : U32) : U32 := if j < 16 then x ^^^ y ^^^ z else (x &&& y) ||| (~~~x &&& z)

/-- The constant of SM3 in round j. -/
def sm3T (j : Nat) : U32 := (if j < 16 then 0x79CC4519 else 0x7A879D8A : U32).rotateLeft (j % 32)

/-- The next word of the message expansion, after the sixteen words `w`. -/
def sm3Next (w : List U32) : U32 :=
  let g := fun (i : Nat) => w.getD i 0
  sm3P1 (g 0 ^^^ g 7 ^^^ (g 13).rotateLeft 15) ^^^ (g 3).rotateLeft 7 ^^^ g 10

/-- The n words of the message expansion from the sixteen words `w` on. -/
def sm3Expand : Nat → List U32 → List U32
  | 0, _ => []
  | n + 1, w => w.headD 0 :: sm3Expand n (w.drop 1 ++ [sm3Next w])

/-- The state of SM3. -/
structure Sm3 where
  a : U32
  b : U32
  c : U32
  d : U32
  e : U32
  f : U32
  g : U32
  h : U32
  deriving DecidableEq, Repr

/-- A round of SM3 on the words W(j) and W(j) ⊕ W(j + 4). -/
def Sm3.round (v : Sm3) (j : Nat) (w w' : U32) : Sm3 :=
  let s1 := (v.a.rotateLeft 12 + v.e + sm3T j).rotateLeft 7
  let s2 := s1 ^^^ v.a.rotateLeft 12
  let t1 := sm3FF j v.a v.b v.c + v.d + s2 + w'
  let t2 := sm3GG j v.e v.f v.g + v.h + s1 + w
  ⟨t1, v.a, v.b.rotateLeft 9, v.c, sm3P0 t2, v.e, v.f.rotateLeft 19, v.g⟩

/-- Take a block of 64 bytes into the state. -/
def Sm3.block (v : Sm3) (l : List Byte) : Sm3 :=
  let w := sm3Expand 68 ((upTo 16).map fun i => BitVec.ofNat 32 (beNat ((l.drop (4 * i)).take 4)))
  let r := ((w.take 64).zip (w.drop 4)).zipIdx.foldl (fun (v : Sm3) p => v.round p.2 p.1.1 (p.1.1 ^^^ p.1.2)) v
  ⟨v.a ^^^ r.a, v.b ^^^ r.b, v.c ^^^ r.c, v.d ^^^ r.d, v.e ^^^ r.e, v.f ^^^ r.f, v.g ^^^ r.g, v.h ^^^ r.h⟩

/-- The first state of SM3. -/
def Sm3.start : Sm3 :=
  ⟨0x7380166F, 0x4914B2B9, 0x172442D7, 0xDA8A0600, 0xA96F30BC, 0x163138AA, 0xE38DEE4D, 0xB0FB0E4E⟩

/-- A message with its padding: a bit 1, zeros, its length in bits as eight bytes. -/
def sm3Pad (l : List Byte) : List Byte :=
  l ++ [0x80] ++ List.replicate ((119 - l.length % 64) % 64) 0 ++ beBytes 8 (8 * l.length)

/-- The SM3 digest of a message, as 32 bytes. -/
def sm3 (l : List Byte) : List Byte :=
  let m := sm3Pad l
  let v := (upTo (m.length / 64)).foldl (fun (v : Sm3) i => v.block ((m.drop (64 * i)).take 64)) Sm3.start
  [v.a, v.b, v.c, v.d, v.e, v.f, v.g, v.h].flatMap fun (x : U32) => beBytes 4 x.toNat

/-- The field, the coefficients, the order and the base point of the SM2 curve. -/
def sm2p : Nat := 0xFFFFFFFEFFFFFFFFFFFFFFFFFFFFFFFFFFFFFFFF00000000FFFFFFFFFFFFFFFF
@[inherit_doc sm2p] def sm2a : Nat := sm2p - 3
@[inherit_doc sm2p] def sm2b : Nat := 0x28E9FA9E9D9F5E344D5A9E4BCF6509A7F39789F515AB8F92DDBCBD414D940E93
@[inherit_doc sm2p] def sm2n : Nat := 0xFFFFFFFEFFFFFFFFFFFFFFFFFFFFFFFF7203DF6B21C6052B53BBF40939D54123
@[inherit_doc sm2p] def sm2g : Nat × Nat :=
  (0x32C4AE2C1F1981195F9904466A39C9948FE30BBFF2660BE1715A4589334C74C7,
   0xBC3736A2F4F6779C59BDCEE36B692153D0A9877CC62A474002DF32E52139F0A0)

/-- b^e modulo m, on the low n bits of e. -/
def powMod (m : Nat) : Nat → Nat → Nat → Nat
  | 0, _, _ => 1 % m
  | n + 1, b, e => (if e % 2 = 1 then b else 1) * powMod m n (b * b % m) (e / 2) % m

/-- The inverse in the field, by Fermat. -/
def fieldInv (x : Nat) : Nat := powMod sm2p 256 x (sm2p - 2)

/-- A difference in the field. -/
def fieldSub (x y : Nat) : Nat := (x + (sm2p - y % sm2p)) % sm2p

/-- A point of the curve; none is the point at infinity. -/
abbrev Pt := Option (Nat × Nat)

/-- The sum of two points. -/
def Pt.add (u v : Pt) : Pt :=
  match u, v with
  | none, _ => v
  | _, none => u
  | some (x, y), some (x', y') =>
    if x = x' ∧ (y + y') % sm2p = 0 then none
    else
      let k := if x = x' then (3 * x * x + sm2a) * fieldInv (2 * y % sm2p) % sm2p else fieldSub y' y * fieldInv (fieldSub x' x) % sm2p
      let z := fieldSub (k * k) (x + x')
      some (z, fieldSub (k * fieldSub x z) y)

/-- k times a point, on the low n bits of k. -/
def Pt.times : Nat → Nat → Pt → Pt
  | 0, _, _ => none
  | n + 1, k, u => Pt.add (if k % 2 = 1 then u else none) (Pt.times n (k / 2) (Pt.add u u))

/-- Whether 64 bytes, x then y, are a point of the curve (R463). -/
def sm2OnCurve (key : List Byte) : Bool :=
  let x := beNat (key.take 32)
  let y := beNat ((key.drop 32).take 32)
  decide (x < sm2p) && decide (y < sm2p) && y * y % sm2p == (x * x * x + sm2a * x + sm2b) % sm2p

/-- The default distinguishing identifier of GM/T 0009: the digits 1 to 8 in ASCII, twice. -/
def sm2Id : List Byte := let l : List Byte := [0x31, 0x32, 0x33, 0x34, 0x35, 0x36, 0x37, 0x38]; l ++ l

/-- The digest that stands for the signer: its identifier, the curve, its key. -/
def sm2Signer (key : List Byte) : List Byte :=
  sm3 (beBytes 2 (8 * sm2Id.length) ++ sm2Id ++ beBytes 32 sm2a ++ beBytes 32 sm2b ++ beBytes 32 sm2g.1 ++ beBytes 32 sm2g.2 ++ key.take 64)

/-- The SM2 signature check of a message under a key, x then y (R391, R463). -/
def sm2Verify (key msg r s : List Byte) : Bool :=
  let r := beNat r
  let s := beNat s
  let t := (r + s) % sm2n
  let e := beNat (sm3 (sm2Signer key ++ msg))
  decide (1 ≤ r) && decide (r < sm2n) && decide (1 ≤ s) && decide (s < sm2n) && t != 0 &&
  (match Pt.add (Pt.times 256 s (some sm2g)) (Pt.times 256 t (some (beNat (key.take 32), beNat ((key.drop 32).take 32)))) with
   | none => false
   | some (x, _) => (e + x) % sm2n == r)

end Sys2Proof.Machine
end

