-- ==== Sys2Proof/Machine/Host.lean ====
section
/-! DEFINITION. The host port: mailboxes, keys, attestation, the aperture and the window, reset and bring-up (spec/20 R458 to
R465, R474, R475). -/
namespace Sys2Proof.Machine

/-- Change the host port's state. -/
def State.hostUpd (s : State) (f : HostSt → HostSt) : State := { s with host := f s.host }

/-- Raise an MSI-X vector of a function (R459). -/
def HostSt.raise (h : HostSt) (fn vec : Nat) : HostSt := { h with msix := h.msix ++ [(fn, vec)] }

/-- A mailbox that has carried no message. -/
def Mail.empty : Mail := { bytes := List.replicate 256 0, go := false, len := 0, status := 0, tag := 0 }

/-- Bytes with others written over them from the first on. -/
def overBytes (old new : List Byte) : List Byte := new ++ old.drop new.length

/-- Field n bytes long at an offset of a message, little-endian. -/
def msgField (m : List Byte) (off n : Nat) : Nat := leNat ((m.drop off).take n)

/-- The host writes a message into the mailbox bytes, then mbcmd with go = 1 and its length (R460). -/
def Mail.post (m : Mail) (msg : List Byte) : Mail :=
  { m with bytes := overBytes m.bytes (msg.take 256), go := true, len := msg.length % 2 ^ 9 }

/-- The message that stands in a mailbox: mbcmd.len bytes. -/
def Mail.msg (m : Mail) : List Byte := m.bytes.take m.len ++ List.replicate (m.len - 256) 0

/-- Type of the message in a mailbox (R460). -/
def Mail.type (m : Mail) : Nat := msgField m.bytes 0 2

/-- What a message is answered with. -/
structure Answer where
  status : Byte
  body : List Byte
  deriving DecidableEq, Repr

/-- A status without a body. -/
def Answer.plain (status : Byte) : Answer := ⟨status, []⟩

/-- An answer written over the mailbox bytes; then mbstat is written and go cleared (R460). -/
def Mail.answer (m : Mail) (a : Answer) : Mail :=
  let tag := msgField m.bytes 4 4
  let head := leBytes 2 (m.type + 0x8000) ++ [a.status, 0] ++ leBytes 4 tag
  { bytes := (overBytes m.bytes (head ++ a.body)).take 256, go := false, len := m.len, status := a.status, tag := BitVec.ofNat 16 tag }

/-- The mailbox of a function. -/
def State.mailbox (s : State) (fn : Nat) : Mail := tget Mail.empty s.host.mail fn

/-- Change the mailbox of a function. -/
def State.setMail (s : State) (fn : Nat) (m : Mail) : State := s.hostUpd fun h => { h with mail := tset Mail.empty h.mail fn m }

/-- A message is answered, and vector 1 of its function is raised (R460). -/
def State.answer (s : State) (fn : Nat) (a : Answer) : State :=
  (s.setMail fn ((s.mailbox fn).answer a)).hostUpd fun h => h.raise fn 1

/-- The functions that can send a message (R459, R462, R474): all of them once they are enabled; the physical function
during recovery. -/
def State.mailOpen (s : State) (fn : Nat) : Bool := if s.host.recovery then fn == 0 else s.host.enabled

/-- The checks that every message of a listed type passes first (R460, R461; their order: log 29): the state, the
function, the length and the reserved bits. -/
def State.mailCheck (s : State) (msg : List Byte) (inRecovery permitted : Bool) (lenOk fieldsOk : Bool) : Option Byte :=
  if s.host.recovery != inRecovery then some 0x04
  else if !permitted then some 0x02
  else if !lenOk || msgField msg 2 2 != 0 || !fieldsOk then some 0x03
  else none

/-- The two steps of a message (R460, log 29). With go = 0 the host posts it; with go = 1 what the host writes is ignored, and
the message that stands in the mailbox is answered, if the row is that of its type: with a status that its checks give, or
with what `f` makes of it. -/
def State.mailMsg (s : State) (fn : BitVec 6) (msg : List Byte) (mine : Nat → Bool) (bad : List Byte → Option Byte)
    (f : List Byte → State → Answer × State) : Out :=
  let m := s.mailbox fn.toNat
  if !s.mailOpen fn.toNat then .next s
  else if !m.go then .next (if mine (m.post msg).type then s.setMail fn.toNat (m.post msg) else s)
  else if !mine m.type then .next s
  else
    match bad m.msg with
    | some st => .next (s.answer fn.toNat (.plain st))
    | none =>
      let (a, s) := f m.msg s
      .next (s.answer fn.toNat a)

/-- Bytes of the image area (R462). -/
def imageArea : Nat := 2 ^ 26

/-- IMGPUT (R462). -/
def execImgput (fn : BitVec 6) (msg : List Byte) (s : State) : Out :=
  let off := fun (m : List Byte) => msgField m 8 8
  s.mailMsg fn msg (· == 0x0001)
    (fun m => s.mailCheck m true (fn == 0) (decide (17 ≤ m.length) && decide (m.length ≤ 256))
      (decide (off m < 2 ^ 26) && decide (off m + (m.length - 16) ≤ imageArea)))
    fun m s => (.plain 0x00, s.hostUpd fun h => { h with flash := (m.drop 16).zipIdx.foldl (fun t b => tset 0 t (off m + b.2) b.1) h.flash })

/-- The image in the flash. -/
def HostSt.image (h : HostSt) : List Byte := (upTo h.imageSize).map fun i => tget 0 h.flash i

/-- Step 2 of bring-up (R474): the image verifies and its version is not below the rollback counter. -/
def HostSt.imageGood (h : HostSt) : Bool := Config.imageVerifies h.image && decide (Config.rollback.toNat ≤ Config.imageVersion h.image)

/-- IMGGO (R462): a good image leaves recovery where a good package reset leaves the boot ROM. -/
def execImggo (fn : BitVec 6) (msg : List Byte) (s : State) : Out :=
  s.mailMsg fn msg (· == 0x0002)
    (fun m => s.mailCheck m true (fn == 0) (m.length == 16) (decide (msgField m 8 8 < 2 ^ 26)))
    fun m s =>
      let s := s.hostUpd fun h => { h with imageSize := msgField m 8 8 }
      if s.host.imageGood then (.plain 0x00, s.hostUpd fun h => { h with recovery := false, boot := 2 }) else (.plain 0x05, s)

/-- The report of R475 for a nonce. -/
def State.report (s : State) (nonce : List Byte) : List Byte :=
  let head := leBytes 8 s.devId ++ sm3 s.host.image ++ leBytes 8 Config.rollback.toNat ++ nonce
  head ++ (upTo 64).map fun i => (Config.identitySign (sm3 head)).getD i 0

/-- ATTEST (R475). -/
def execAttest (fn : BitVec 6) (msg : List Byte) (s : State) : Out :=
  s.mailMsg fn msg (· == 0x0010) (fun m => s.mailCheck m false true (m.length == 40) true)
    fun m s => (⟨0x00, s.report ((m.drop 8).take 32)⟩, s)

/-- Key slot named by a message (R461). -/
def keySlot (msg : List Byte) : Nat := 4 * (msgField msg 8 1 % 64) + msgField msg 9 1 % 4

/-- The fields that name a slot have no reserved bit set. -/
def slotFieldsOk (msg : List Byte) : Bool := decide (msgField msg 8 1 < 64) && decide (msgField msg 9 1 < 4) && msgField msg 10 6 == 0

/-- KEYADD (R463). -/
def execKeyadd (fn : BitVec 6) (msg : List Byte) (s : State) : Out :=
  let key := fun (m : List Byte) => (m.drop 16).take 64
  s.mailMsg fn msg (· == 0x0020) (fun m => s.mailCheck m false (fn == 0) (m.length == 80) (slotFieldsOk m && sm2OnCurve (key m)))
    fun m s => (⟨0x00, sm3 (key m)⟩, s.hostUpd fun h => { h with keys := tset [] h.keys (keySlot m) (key m) })

/-- KEYDEL (R463). -/
def execKeydel (fn : BitVec 6) (msg : List Byte) (s : State) : Out :=
  s.mailMsg fn msg (· == 0x0021) (fun m => s.mailCheck m false (fn == 0) (m.length == 16) (slotFieldsOk m))
    fun m s => (.plain 0x00, s.hostUpd fun h => { h with keys := tset [] h.keys (keySlot m) [] })

/-- Write the require bit of a device (R463). -/
def HostSt.setRequire (h : HostSt) (vdev : Nat) (on : Bool) : HostSt :=
  { h with require := if !on then h.require.filter (· != vdev) else if h.require.contains vdev then h.require else vdev :: h.require }

/-- SIGPOL (R463): a virtual function reads its own bit only. -/
def execSigpol (fn : BitVec 6) (msg : List Byte) (s : State) : Out :=
  let body := fun (m : List Byte) => msgField m 8 8
  let vdev := fun (m : List Byte) => body m % 64
  s.mailMsg fn msg (· == 0x0022)
    (fun m => s.mailCheck m false (fn == 0 || (vdev m == fn.toNat && !(body m).testBit 17)) (m.length == 16)
      (body m / 64 % 2 ^ 10 == 0 && body m / 2 ^ 18 == 0))
    fun m s =>
      let s := if (body m).testBit 17 then s.hostUpd fun h => h.setRequire (vdev m) ((body m).testBit 16) else s
      (⟨0x00, leBytes 8 (b2n (s.host.require.contains (vdev m)))⟩, s)

/-- What VERIFY answers (R463): the key with the given keyid among those installed for a device, and its signature check. -/
def State.verify (s : State) (vdev : Nat) (keyid d r sig : List Byte) : Byte :=
  let keys := (upTo 4).map fun n => tget [] s.host.keys (4 * vdev + n)
  let named := keys.filter fun key => !key.isEmpty && sm3 key == keyid
  if named.isEmpty then 0x06 else if named.any fun key => sm2Verify key d r sig then 0x00 else 0x05

/-- VERIFY (R463). -/
def execVerify (fn : BitVec 6) (msg : List Byte) (s : State) : Out :=
  let vdev := fun (m : List Byte) => msgField m 8 8 % 64
  let part := fun (m : List Byte) (off : Nat) => (m.drop off).take 32
  s.mailMsg fn msg (· == 0x0023)
    (fun m => s.mailCheck m false (fn == 0 || vdev m == fn.toNat) (m.length == 144) (decide (msgField m 8 8 < 64)))
    fun m s => (.plain (s.verify (vdev m) (part m 0x10) (part m 0x30) (part m 0x50) (part m 0x70)), s)

/-- The types that R461 lists. -/
def listedTypes : List Nat := [0x0001, 0x0002, 0x0010, 0x0020, 0x0021, 0x0022, 0x0023]

/-- MAILBOX_UNKNOWN_TYPE (R461): during recovery every other type is answered with 0x04 (R462). -/
def execMailboxUnknownType (fn : BitVec 6) (msg : List Byte) (s : State) : Out :=
  s.mailMsg fn msg (fun t => !listedTypes.contains t) (fun _ => some (if s.host.recovery then 0x04 else 0x01))
    fun _ s => (.plain 0x01, s)

/-- Status of an aperture access that fails (R416). -/
def hostStatus (cause : BitVec 8) : Nat := if cause = 0x15 then 0x10 else if cause = 0x14 then 0x14 else 0x12

/-- What translating an aperture access comes to. -/
inductive HostReach where
  | ok (l : List (Xl × Nat × Nat)) (s : State)
  | fail (status : Nat) (s : State)
  | wait

/-- Translate the pieces of an aperture access (R464). -/
def State.hostReach (vdev : Nat) (wr : Bool) : List (Nat × Nat) → State → HostReach
  | [], s => .ok [] s
  | (va, n) :: rest, s =>
    match s.hwReach vdev va wr with
    | (.trap c _, s) => .fail (hostStatus c) s
    | (.wait, _) => .wait
    | (.ok x, s) =>
      match State.hostReach vdev wr rest s with
      | .ok l s => .ok ((x, x.pa va, n) :: l) s
      | r => r

/-- An aperture access fails (R464): a completion abort, and a record of kind 1, of which the spec gives the kind, smask,
and the status; its other fields are free values (log 29). -/
def State.hostAbort (s : State) (vdev status : Nat) : State :=
  let w := Config.freeWord (2 ^ 83 + s.md.tick)
  let x : CtxRef := ⟨w.extractLsb' 0 8, w.getLsbD 8⟩
  let rec_ := recWords x 0 1 vdev (Config.freeWord (2 ^ 84 + s.md.tick))
    [(W status, 0, s.freeTval), (0, 0, 0), (0, 0, 0), (0, 0, 0)] s.time
  { s with frecs := s.frecs ++ [(⟨rec_, false⟩ : FRec)] }.hostUpd fun h => { h with aborted := true, readData := [] }

/-- Read translated pieces at the package point: bytes, poison. -/
def State.hostBytes (vdev : Nat) (l : List (Xl × Nat × Nat)) (s : State) : List Byte × Bool × State :=
  l.foldl (fun (r : List Byte × Bool × State) p =>
    let (bytes, poison, s) := r.2.2.pathBytes .window ⟨0, vdev, lfTag p.1.leaf, 0⟩ p.2.1 p.2.2
    (r.1 ++ bytes, r.2.1 || poison, s)) ([], false, s)

/-- The virtual range that a function's aperture maps to (R459): an access of n bytes from an offset of BAR4, which has 64 GiB. -/
def State.aperture (s : State) (fn off n : Nat) : Option Nat :=
  if s.host.enabled && decide (off + n ≤ 2 ^ 36) then some ((s.reg (apertureReg fn)).toNat + off) else none

/-- APERTURE_READ (R464). -/
def execApertureRead (fn : BitVec 6) (off : Word) (n : Nat) (s : State) : Out :=
  let v := fn.toNat
  match s.aperture v off.toNat n with
  | none => .next s
  | some va =>
    match State.hostReach v false (pagePieces va n) s with
    | .wait => .next s
    | .fail st s => .next (s.hostAbort v st)
    | .ok l s =>
      let (bytes, poison, s) := State.hostBytes v l s
      if poison then .next (s.hostAbort v 0x13) else .next (s.hostUpd fun h => { h with aborted := false, readData := bytes })

/-- APERTURE_WRITE (R464): performed at the package point in the order of arrival. -/
def execApertureWrite (fn : BitVec 6) (off : Word) (bytes : List Byte) (s : State) : Out :=
  let v := fn.toNat
  match s.aperture v off.toNat bytes.length with
  | none => .next s
  | some va =>
    match State.hostReach v true (pagePieces va bytes.length) s with
    | .wait => .next s
    | .fail st s => .next (s.hostAbort v st)
    | .ok l s =>
      let r := l.foldl (fun (r : List Byte × State) p =>
        let ws := bySector (bytesAt p.2.1 (r.1.take p.2.2))
        (r.1.drop p.2.2, (r.2.pkgWrite ⟨0, v, lfTag p.1.leaf, 0⟩ 1 ws).aliens (secsOf ws))) (bytes, s)
      .next (r.2.hostUpd fun h => { h with aborted := false })

/-- The window pages that a function owns, as its BAR2 shows them one after another (R459, log 29). -/
def State.ownedPages (s : State) (fn : Nat) : List Nat :=
  (upTo 16).filter fun p => bitAt (s.reg (ownerReg p)) 6 && bits (s.reg (ownerReg p)) 0 6 == fn

/-- HOST_WINDOW_WRITE (R464): performed at the window, on the pages that the function owns (R459). -/
def execHostWindowWrite (off : BarOff) (bytes : List Byte) (s : State) : Out :=
  let pages := s.ownedPages off.fn.toNat
  if !s.host.enabled || 2 ^ 16 * pages.length < off.off.toNat + bytes.length then .next s
  else
    let at_ := fun (a : Nat) => winBase + 2 ^ 16 * pages.getD (a / 2 ^ 16) 0 + a % 2 ^ 16
    .next (s.rawWrite (bySector (bytes.zipIdx.map fun p => (at_ (off.off.toNat + p.2), p.1))))

/-- Memory as a package reset leaves it: what lies in expanders stays, HBM is scrubbed before it is used (R474, log 11). -/
def MemSt.afterReset (m : MemSt) : MemSt :=
  { State.reset.ms with
    mem := m.mem.filter fun c => isCxl c.1, poison := m.poison.filter fun sec => isCxl (64 * sec), deadPc := m.deadPc, expDown := m.expDown }

/-- PACKAGE_RESET (R474): steps 1 and 2 of bring-up, by the boot ROM. The model's own tick and agenda go on. -/
def execPackageReset (s : State) : Out :=
  let h := { State.reset.host with flash := s.host.flash, imageSize := s.host.imageSize, boot := 2 }
  let h := if h.imageGood then h else { h with recovery := true }.raise 0 0
  .next { State.reset with
    md := { State.reset.md with agenda := s.md.agenda, tick := s.md.tick }
    host := h
    ms := s.ms.afterReset }

/-- The scrub of every HBM frame (R423, R474). -/
def MemSt.scrubHbm (m : MemSt) : MemSt :=
  { m with
    mem := m.mem.filter fun c => !isHbm c.1, poison := m.poison.filter fun sec => !isHbm (64 * sec), symErr := [], tags := [], msc := [], mscLine := [], mscLow := []
    l2 := m.l2.filter fun p => !isHbm (64 * (p.1 % 2 ^ 46)), l1 := m.l1.filter fun p => !isHbm (64 * (p.1 % 2 ^ 46)) }

/-- BRINGUP_ENABLE (R474): steps 3 to 5, one at a time, once the image has verified; each is recorded (log 38). -/
def execBringupEnable (s : State) : Out :=
  if s.host.recovery then .next s
  else
    match s.host.boot.toNat with
    | 2 => .next ((s.setReg 0xE1000 (Config.deviceId.setWidth 64)).hostUpd fun h => { h with boot := 3 })
    | 3 => .next ((s.mem MemSt.scrubHbm).hostUpd fun h => { h with boot := 4 })
    | 4 => .next (s.hostUpd fun h => HostSt.raise { h with boot := 5, enabled := true, ready := true } 0 0)
    | _ => .next s

end Sys2Proof.Machine
end

