-- ==== Sys2Proof/Machine/Links.lean ====
section
/-! DEFINITION. The Giyth links: flits in, acknowledgements, resends, retrains, what a peer's request does here, and how a
remote copy counts its bytes (spec/20 R467 to R473, log 24). -/
namespace Sys2Proof.Machine

/-- Virtual device v admits virtual device u of device dev (R470). -/
def State.admits (s : State) (v dev u : Nat) : Bool :=
  (upTo 16).any fun i =>
    let e := s.reg (0xEC000 + 0x80 * v + 8 * i)
    let ign := min 22 (bits e 48 5)
    bitAt e 63 && bits e 56 6 == u && dev / 2 ^ ign == bits e 0 22 / 2 ^ ign

/-- What performing payload here comes to. -/
inductive PeerAct where
  | ok (s : State)
  | refused (s : State)
  | wait

/-- Write a peer's bytes at the package point (R359): translation, permission, the links bit. -/
def State.peerWrite (vdev : Nat) : List (Nat × Nat) → List Byte → State → PeerAct
  | [], _, s => .ok s
  | (va, n) :: rest, bytes, s =>
    match s.agentReach maskLk vdev va true with
    | (.wait, _) => .wait
    | (.trap _ _, s) => .refused s
    | (.ok x, s) =>
      if isWin (lfFrame x.leaf) then .refused s
      else
        State.peerWrite vdev rest (bytes.drop n)
          ((s.pkgWrite ⟨0, vdev, lfTag x.leaf, 3⟩ 1 (bySector (bytesAt (x.pa va) (bytes.take n)))).aliens
            (secsOf (bySector (bytesAt (x.pa va) (bytes.take n)))))

/-- Read bytes for a peer at the package point (R359): `none` in the first place when it is refused. -/
def State.peerRead (vdev : Nat) : List (Nat × Nat) → State → Option (Option (List Byte) × State)
  | [], s => some (some [], s)
  | (va, n) :: rest, s =>
    match s.agentReach maskLk vdev va false with
    | (.wait, _) => none
    | (.trap _ _, s) => some (none, s)
    | (.ok x, s) =>
      if isWin (lfFrame x.leaf) then some (none, s)
      else
        let (bytes, poison, s) := s.pathBytes .window ⟨0, vdev, lfTag x.leaf, 3⟩ (x.pa va) n
        if poison then some (none, s)
        else
          match State.peerRead vdev rest s with
          | some (some l, s) => some (some (bytes ++ l), s)
          | r => r

/-- Perform payload up to a mark, in order (R471): the answer's count and status, and the state; `none` to wait. -/
def State.peerPerform : List LinkMsg → Nat → State → Option (Nat × Byte × State)
  | [], off, s => some (off, 0, s)
  | .put _ _ _ _ vdev va o bytes :: t, off, s =>
    match State.peerWrite vdev.toNat (if bytes.isEmpty then [] else pagePieces va.toNat bytes.length) bytes s with
    | .ok s => State.peerPerform t off s
    | .refused s => some (o, 0x21, s)
    | .wait => none
  | _ :: t, off, s => State.peerPerform t off s

/-- Refuse a command of a peer (R358, R470): it is answered once, and nothing more of it is performed. -/
def State.peerRefuse (s : State) (p : Nat) (dev : BitVec 22) (x : CtxRef) (seq : BitVec 16) (count : Nat) : State :=
  (s.linkUpd p fun l =>
    { l with
      refused := (dev.toNat, x, seq) :: l.refused
      pend := l.pend.filter fun m => !LinkMsgs.ofPut dev x seq m }).send p [.ack x seq count 0x21]

/-- Payload of a peer's `RPUT` arrives (R470, R471). -/
def State.putArrives (s : State) (p : Nat) (dev : BitVec 22) (pvdev : BitVec 6) (x : CtxRef) (seq : BitVec 16) (vdev : BitVec 6)
    (va : Word) (off : Nat) (bytes : List Byte) : Option State :=
  let s := if off = 0 then s.linkUpd p fun l =>
      { l with
        refused := l.refused.filter (fun r => r != (dev.toNat, x, seq))
        pend := l.pend.filter fun m => !LinkMsgs.ofPut dev x seq m }
    else s
  if (s.link p).refused.contains (dev.toNat, x, seq) then some s
  else if !s.admits vdev.toNat dev.toNat pvdev.toNat then
    if s.linkRoom p 1 then some (s.peerRefuse p dev x seq 0) else none
  else some (s.linkUpd p fun l => { l with pend := l.pend ++ [.put dev pvdev x seq vdev va off bytes] })

/-- A commit mark of a peer's `RPUT` (R471): its payload is performed and the mark is acknowledged. -/
def State.putMarkArrives (s : State) (p : Nat) (dev : BitVec 22) (x : CtxRef) (seq : BitVec 16) (off : Nat) : Option State :=
  if (s.link p).refused.contains (dev.toNat, x, seq) then some s
  else if !s.linkRoom p 1 then none
  else
    match State.peerPerform ((s.link p).pend.filter (LinkMsgs.ofPut dev x seq)) off s with
    | none => none
    | some (n, st, s) =>
      if st = 0 then
        some ((s.linkUpd p fun l => { l with pend := l.pend.filter fun m => !LinkMsgs.ofPut dev x seq m }).send p [.ack x seq n 0])
      else some (s.peerRefuse p dev x seq n)

/-- Flits of an answer: bytes in pieces of a flit's payload. -/
def dataFlits (x : CtxRef) (seq : BitVec 16) (off : Nat) (bytes : List Byte) : List LinkMsg :=
  (upTo ((bytes.length + 223) / 224)).map fun i => .data x seq (off + 224 * i) ((bytes.drop (224 * i)).take 224)

/-- A request of a peer's `RGET` (R359, R470, R471). -/
def State.getArrives (s : State) (p : Nat) (dev : BitVec 22) (pvdev : BitVec 6) (x : CtxRef) (seq : BitVec 16) (vdev : BitVec 6)
    (va : Word) (off n : Nat) (mark : Bool) : Option State :=
  if !s.linkRoom p ((n + 223) / 224 + 1) then none
  else if !s.admits vdev.toNat dev.toNat pvdev.toNat then some (s.send p [.ack x seq off 0x21])
  else
    match State.peerRead vdev.toNat (if n = 0 then [] else pagePieces va.toNat n) s with
    | none => none
    | some (none, s) => some (s.send p [.ack x seq off 0x21])
    | some (some bytes, s) => some (s.send p (dataFlits x seq off bytes ++ if mark then [.dataMark x seq (off + n)] else []))

/-- The next offset at which payload of an `RGET` of this device is taken. -/
def State.dataNext (s : State) (p : Nat) (f : Xfer) : Nat :=
  match ((s.link p).pend.filter (LinkMsgs.ofData f.x f.seq)).getLast? with
  | some m => LinkMsgs.ending m
  | none => f.count

/-- Payload of an `RGET` of this device arrives (R471): it waits for its mark. -/
def State.dataArrives (s : State) (p : Nat) (x : CtxRef) (seq : BitVec 16) (off : Nat) (bytes : List Byte) : State :=
  match s.xfer? x seq with
  | none => s
  | some f =>
    if f.isGet && f.port == p && off == s.dataNext p f && decide (off + bytes.length ≤ f.off) then
      s.linkUpd p fun l => { l with pend := l.pend ++ [.data x seq off bytes] }
    else s

/-- A command that has crossed a link. -/
def isRemote (opc : Nat) : Cmd → Bool := fun c => c.opc == opc && c.sent

/-- A commit mark of the payload of an `RGET` (R471): the payload is written and counted. Under replay the mark waits for the
command to write it in the places of the order log (R457), and it waits where the payload goes to an expander that does not
respond (R466). -/
def State.dataMarkArrives (s : State) (p : Nat) (x : CtxRef) (seq : BitVec 16) (off : Nat) : State :=
  s.atCmd x seq (isRemote 0x5E) fun s k c =>
    match s.xfer? x seq with
    | none => s
    | some f =>
      if f.port ≠ p || off ≠ s.dataNext p f then s
      else if s.getLogged k c || s.getDead c f (off - f.count) || (s.getMark f).isSome then
        s.linkUpd p fun l => { l with pend := l.pend ++ [.dataMark x seq off] }
      else s.getUpTo k c f off

/-- An answer to a remote copy of this device (R358, R471): bytes count as written; a refusal ends the command. -/
def State.markAck (s : State) (x : CtxRef) (seq : BitVec 16) (count : Nat) (status : Byte) : State :=
  s.atCmd x seq (fun c => isRemote 0x5D c || isRemote 0x5E c) fun s k c =>
    match s.xfer? x seq with
    | none => s
    | some f =>
      let f := if f.isGet then f else { f with count := max f.count (min count f.off) }
      if status = 0 then s.setXfer f else if status = 0x21 then s.remoteEnd x k c f 0x21 else s

/-- The sender of a spark, from its `from` field (R372). -/
def senderOf (from_ : Word) : CtxRef := ⟨BitVec.ofNat 8 (bits from_ 0 8), bitAt from_ 8⟩

/-- A peer's spark has come in whole (R371, R372). -/
def State.sparkWhole (s : State) (p : Nat) (dev : BitVec 22) (pvdev : BitVec 6) (from_ : Word) (seq : BitVec 16) (x : CtxRef)
    (handler : Word) (bytes : List Byte) : Option State :=
  if !s.linkRoom p 1 then none
  else
    match s.ctx? x with
    | none => some (s.send p [.sparkDone (senderOf from_) seq false])
    | some t =>
      if !s.admits t.bd.vdev dev.toNat pvdev.toNat || !t.takesSpark then some (s.send p [.sparkDone (senderOf from_) seq false])
      else some ((s.deliverSpark x t from_ handler (bytes.take 256)).send p [.sparkDone (senderOf from_) seq true])

/-- A spark of a sender. -/
def LinkMsgs.ofSpark (dev : BitVec 22) (from_ : Word) (seq : BitVec 16) : LinkMsg → Bool
  | .spark d _ f n _ _ _ _ => d == dev && f == from_ && n == seq
  | _ => false

/-- The first flit of a peer's spark (R467): one with more payload than the flit has waits for the rest. -/
def State.sparkArrives (s : State) (p : Nat) (dev : BitVec 22) (pvdev : BitVec 6) (from_ : Word) (seq : BitVec 16) (x : CtxRef)
    (handler : Word) (len : Nat) (bytes : List Byte) : Option State :=
  if len ≤ bytes.length then s.sparkWhole p dev pvdev from_ seq x handler (bytes.take len)
  else some (s.linkUpd p fun l =>
    { l with pend := l.pend.filter (fun m => !LinkMsgs.ofSpark dev from_ seq m) ++ [.spark dev pvdev from_ seq x handler len bytes] })

/-- The rest of a spark's payload. -/
def State.sparkRestArrives (s : State) (p : Nat) (dev : BitVec 22) (from_ : Word) (seq : BitVec 16) (bytes : List Byte) : Option State :=
  match (s.link p).pend.find? (LinkMsgs.ofSpark dev from_ seq) with
  | some (.spark _ pvdev _ _ x handler len first) =>
    (s.sparkWhole p dev pvdev from_ seq x handler ((first ++ bytes).take len)).map fun s =>
      s.linkUpd p fun l => { l with pend := l.pend.filter fun m => !LinkMsgs.ofSpark dev from_ seq m }
  | _ => some s

/-- The outcome of a spark of this device (R371). -/
def State.sparkAnswer (s : State) (x : CtxRef) (seq : BitVec 16) (delivered : Bool) : State :=
  s.atCmd x seq (isRemote 0x6E) fun s k c => s.enqueueDone x k c (!delivered)

/-- What a flit does here; `none` while it has to wait. -/
def State.flitAct (s : State) (p : Nat) : LinkMsg → Option State
  | .idle => some s
  | .put dev pvdev x seq vdev va off bytes => s.putArrives p dev pvdev x seq vdev va off bytes
  | .get dev pvdev x seq vdev va off n mark => s.getArrives p dev pvdev x seq vdev va off n mark
  | .data x seq off bytes => some (s.dataArrives p x seq off bytes)
  | .putMark dev x seq off => s.putMarkArrives p dev x seq off
  | .dataMark x seq off => some (s.dataMarkArrives p x seq off)
  | .ack x seq count status => some (s.markAck x seq count status)
  | .spark dev pvdev from_ seq x handler len bytes => s.sparkArrives p dev pvdev from_ seq x handler len bytes
  | .sparkRest dev from_ seq bytes => s.sparkRestArrives p dev from_ seq bytes
  | .sparkDone x seq delivered => some (s.sparkAnswer x seq delivered)

/-- LINK_FLIT_RECEIVE (R468): a good flit in sequence is accepted; another one has a resend asked for. -/
def execLinkFlitReceive (port : BitVec 4) (flit : Flit) (s : State) : Out :=
  let p := port.toNat
  if !(s.link p).up then .next s
  else if !flit.good || flit.seq ≠ (s.link p).rxSeq then .next (s.linkUpd p fun l => { l with asked := true })
  else
    match s.flitAct p flit.msg with
    | none => .next s
    | some s => .next (s.linkUpd p fun l => { l with rxSeq := flit.seq + 1, asked := false })

/-- LINK_ACK_RECEIVE (R468): every kept flit up to a sequence number is let go; a number that no kept flit has lets none go. -/
def execLinkAckReceive (port : BitVec 4) (upTo_ : Word) (s : State) : Out :=
  .next (s.linkUpd port.toNat fun l =>
    match (l.cutAt upTo_).2 with
    | [] => l
    | _ :: rest => { l with kept := rest })

/-- LINK_RESEND_REQUEST (R468): the flits from a sequence number on are sent again, in order; a flit that is sent again
for the 16th time takes the port down, and it trains again. -/
def execLinkResendRequest (port : BitVec 4) (from_ : Word) (s : State) : Out :=
  let l := s.link port.toNat
  if !l.up || !(l.kept.any fun q => q.1.seq == from_) then .next s
  else
    let kept := (l.cutAt from_).1 ++ (l.cutAt from_).2.map fun (q : Flit × Nat) => (q.1, q.2 + 1)
    let l := { l with kept := kept, resends := min (2 ^ 32 - 1) (l.resends + (l.cutAt from_).2.length) }
    .next (s.setLink port.toNat (if kept.any fun q => decide (16 ≤ q.2) then l.retrain else l))

/-- LINK_LOSS_OF_SIGNAL (R468). -/
def execLinkLossOfSignal (port : BitVec 4) (s : State) : Out :=
  .next (s.linkUpd port.toNat fun l => if l.up then l.retrain else l)

/-- LINK_RETRAIN_DONE (R468): the port is up again and replays what it has kept, or has tried once more; it gives up after
the third time. -/
def execLinkRetrainDone (port : BitVec 4) (ok : Bool) (s : State) : Out :=
  let p := port.toNat
  let l := s.link p
  if !l.retraining then .next s
  else if ok then
    .next (s.setLink p
      { l with up := true, retraining := false, retrains := 0, asked := false, kept := l.kept.map fun (q : Flit × Nat) => (q.1, 0) })
  else if 2 ≤ l.retrains then .next (s.portFail p)
  else .next (s.setLink p { l with retrains := l.retrains + 1 })

/-- LINK_SEQUENCE_EXHAUSTED (R473). -/
def execLinkSequenceExhausted (port : BitVec 4) (s : State) : Out :=
  .next (if s.seqSpent port.toNat then s.portFail port.toNat else s)

/-- COMMIT_MARK_ACK (R471). -/
def execCommitMarkAck (x : CtxRef) (seq : BitVec 16) (count : Nat) (status : Byte) (s : State) : Out :=
  .next (s.markAck x seq count status)

/-- The counts that two devices can agree on (R471): of an `RPUT`, what the peer may have performed up to a mark; of an
`RGET`, what has been written here. -/
def Xfer.agrees (f : Xfer) (count : Nat) : Bool :=
  if f.isGet then count == f.count
  else decide (f.count ≤ count) && decide (count ≤ f.off) && (count % 4096 == 0 || count == f.total)

/-- TRANSFER_COUNT_AGREE (R471): a command whose port has failed retires with the agreed count, once what came in up to a mark is
written. -/
def execTransferCountAgree (x : CtxRef) (seq : BitVec 16) (count : Nat) (s : State) : Out :=
  s.withCmd x seq (fun c => isRemote 0x5D c || isRemote 0x5E c) fun s k c =>
    match s.xfer? x seq with
    | none => s
    | some f =>
      if f.lost && f.agrees count && (s.getMark f).isNone then s.remoteEnd x k c { f with count := count } 0x20 else s

end Sys2Proof.Machine
end

