-- ==== Sys2Proof/Machine/Dispatch.lean ====
section
/-! DEFINITION. The meaning of every step: one arm per constructor of `Instr`. -/
namespace Sys2Proof.Machine

open Sys2Proof

/-- The meaning of one step of the machine, by its constructor. -/
def exec (i : Instr) (s : State) : Host.Outcome State Fault Refusal :=
  match i with
  | .ill w => Sys2Proof.Machine.execIll w s
  | .add h o => Sys2Proof.Machine.execAdd h o s
  | .sub h o => Sys2Proof.Machine.execSub h o s
  | .mul h o => Sys2Proof.Machine.execMul h o s
  | .mulhi h o => Sys2Proof.Machine.execMulhi h o s
  | .mulhis h o => Sys2Proof.Machine.execMulhis h o s
  | .div h o => Sys2Proof.Machine.execDiv h o s
  | .divs h o => Sys2Proof.Machine.execDivs h o s
  | .rem h o => Sys2Proof.Machine.execRem h o s
  | .rems h o => Sys2Proof.Machine.execRems h o s
  | .and h o => Sys2Proof.Machine.execAnd h o s
  | .or h o => Sys2Proof.Machine.execOr h o s
  | .xor h o => Sys2Proof.Machine.execXor h o s
  | .andn h o => Sys2Proof.Machine.execAndn h o s
  | .shl h o => Sys2Proof.Machine.execShl h o s
  | .shr h o => Sys2Proof.Machine.execShr h o s
  | .sra h o => Sys2Proof.Machine.execSra h o s
  | .rol h o => Sys2Proof.Machine.execRol h o s
  | .min h o => Sys2Proof.Machine.execMin h o s
  | .mins h o => Sys2Proof.Machine.execMins h o s
  | .max h o => Sys2Proof.Machine.execMax h o s
  | .maxs h o => Sys2Proof.Machine.execMaxs h o s
  | .sel h o => Sys2Proof.Machine.execSel h o s
  | .cmp h o => Sys2Proof.Machine.execCmp h o s
  | .gop h o => Sys2Proof.Machine.execGop h o s
  | .addi h o => Sys2Proof.Machine.execAddi h o s
  | .andi h o => Sys2Proof.Machine.execAndi h o s
  | .ori h o => Sys2Proof.Machine.execOri h o s
  | .xori h o => Sys2Proof.Machine.execXori h o s
  | .shli h o => Sys2Proof.Machine.execShli h o s
  | .shri h o => Sys2Proof.Machine.execShri h o s
  | .srai h o => Sys2Proof.Machine.execSrai h o s
  | .cmpi h o => Sys2Proof.Machine.execCmpi h o s
  | .li h o => Sys2Proof.Machine.execLi h o s
  | .lih h o => Sys2Proof.Machine.execLih h o s
  | .bfx h o => Sys2Proof.Machine.execBfx h o s
  | .bfxs h o => Sys2Proof.Machine.execBfxs h o s
  | .bfi h o => Sys2Proof.Machine.execBfi h o s
  | .fshl h o => Sys2Proof.Machine.execFshl h o s
  | .fshr h o => Sys2Proof.Machine.execFshr h o s
  | .popc h o => Sys2Proof.Machine.execPopc h o s
  | .clz h o => Sys2Proof.Machine.execClz h o s
  | .ctz h o => Sys2Proof.Machine.execCtz h o s
  | .brev h o => Sys2Proof.Machine.execBrev h o s
  | .br h o => Sys2Proof.Machine.execBr h o s
  | .call h o => Sys2Proof.Machine.execCall h o s
  | .ret h o => Sys2Proof.Machine.execRet h o s
  | .jmpr h o => Sys2Proof.Machine.execJmpr h o s
  | .brq h o => Sys2Proof.Machine.execBrq h o s
  | .modl h o => Sys2Proof.Machine.execModl h o s
  | .qstat h o => Sys2Proof.Machine.execQstat h o s
  | .hstep h o => Sys2Proof.Machine.execHstep h o s
  | .hmark h o => Sys2Proof.Machine.execHmark h o s
  | .hrew h o => Sys2Proof.Machine.execHrew h o s
  | .hstat h o => Sys2Proof.Machine.execHstat h o s
  | .pkw h o => Sys2Proof.Machine.execPkw h o s
  | .srr h o => Sys2Proof.Machine.execSrr h o s
  | .srw h o => Sys2Proof.Machine.execSrw h o s
  | .trap h o => Sys2Proof.Machine.execTrap h o s
  | .eret h o => Sys2Proof.Machine.execEret h o s
  | .yield h o => Sys2Proof.Machine.execYield h o s
  | .wait h o => Sys2Proof.Machine.execWait h o s
  | .halt h o => Sys2Proof.Machine.execHalt h o s
  | .nop h o => Sys2Proof.Machine.execNop h o s
  | .lds h o => Sys2Proof.Machine.execLds h o s
  | .sts h o => Sys2Proof.Machine.execSts h o s
  | .ldq h o => Sys2Proof.Machine.execLdq h o s
  | .stq h o => Sys2Proof.Machine.execStq h o s
  | .satom h o => Sys2Proof.Machine.execSatom h o s
  | .ldg h o => Sys2Proof.Machine.execLdg h o s
  | .stg h o => Sys2Proof.Machine.execStg h o s
  | .gatom h o => Sys2Proof.Machine.execGatom h o s
  | .cmo h o => Sys2Proof.Machine.execCmo h o s
  | .lbind h o => Sys2Proof.Machine.execLbind h o s
  | .acq h o => Sys2Proof.Machine.execAcq h o s
  | .rel h o => Sys2Proof.Machine.execRel h o s
  | .fence h o => Sys2Proof.Machine.execFence h o s
  | .gbar h o => Sys2Proof.Machine.execGbar h o s
  | .waitw h o => Sys2Proof.Machine.execWaitw h o s
  | .wbind h o => Sys2Proof.Machine.execWbind h o s
  | .wadv h o => Sys2Proof.Machine.execWadv h o s
  | .wrel h o => Sys2Proof.Machine.execWrel h o s
  | .ldw h o => Sys2Proof.Machine.execLdw h o s
  | .hbind h o => Sys2Proof.Machine.execHbind h o s
  | .hunb h o => Sys2Proof.Machine.execHunb h o s
  | .topen h o => Sys2Proof.Machine.execTopen h o s
  | .tseal h o => Sys2Proof.Machine.execTseal h o s
  | .tstat h o => Sys2Proof.Machine.execTstat h o s
  | .cpym h o => Sys2Proof.Machine.execCpym h o s
  | .cpys h o => Sys2Proof.Machine.execCpys h o s
  | .cgth h o => Sys2Proof.Machine.execCgth h o s
  | .csct h o => Sys2Proof.Machine.execCsct h o s
  | .cpgi h o => Sys2Proof.Machine.execCpgi h o s
  | .rput h o => Sys2Proof.Machine.execRput h o s
  | .rget h o => Sys2Proof.Machine.execRget h o s
  | .gadd h o => Sys2Proof.Machine.execGadd h o s
  | .gamo h o => Sys2Proof.Machine.execGamo h o s
  | .gqop h o => Sys2Proof.Machine.execGqop h o s
  | .gred h o => Sys2Proof.Machine.execGred h o s
  | .gaxpy h o => Sys2Proof.Machine.execGaxpy h o s
  | .gfen h o => Sys2Proof.Machine.execGfen h o s
  | .eqclr h o => Sys2Proof.Machine.execEqclr h o s
  | .equ h o => Sys2Proof.Machine.execEqu h o s
  | .eqf h o => Sys2Proof.Machine.execEqf h o s
  | .eqz h o => Sys2Proof.Machine.execEqz h o s
  | .eqr h o => Sys2Proof.Machine.execEqr h o s
  | .eqsnp h o => Sys2Proof.Machine.execEqsnp h o s
  | .eqund h o => Sys2Proof.Machine.execEqund h o s
  | .deq h o => Sys2Proof.Machine.execDeq h o s
  | .engst h o => Sys2Proof.Machine.execEngst h o s
  | .spk h o => Sys2Proof.Machine.execSpk h o s
  | .eva h o => Sys2Proof.Machine.execEva h o s
  | .evw h o => Sys2Proof.Machine.execEvw h o s
  | .evq h o => Sys2Proof.Machine.execEvq h o s
  | .tkenq h o => Sys2Proof.Machine.execTkenq h o s
  | .tksig h o => Sys2Proof.Machine.execTksig h o s
  | .vadd h o => Sys2Proof.Machine.execVadd h o s
  | .vsub h o => Sys2Proof.Machine.execVsub h o s
  | .vmul h o => Sys2Proof.Machine.execVmul h o s
  | .vfma h o => Sys2Proof.Machine.execVfma h o s
  | .vfms h o => Sys2Proof.Machine.execVfms h o s
  | .vmin h o => Sys2Proof.Machine.execVmin h o s
  | .vmax h o => Sys2Proof.Machine.execVmax h o s
  | .vabs h o => Sys2Proof.Machine.execVabs h o s
  | .vneg h o => Sys2Proof.Machine.execVneg h o s
  | .vand h o => Sys2Proof.Machine.execVand h o s
  | .vor h o => Sys2Proof.Machine.execVor h o s
  | .vxor h o => Sys2Proof.Machine.execVxor h o s
  | .vshl h o => Sys2Proof.Machine.execVshl h o s
  | .vshr h o => Sys2Proof.Machine.execVshr h o s
  | .vsra h o => Sys2Proof.Machine.execVsra h o s
  | .vcmp h o => Sys2Proof.Machine.execVcmp h o s
  | .kop h o => Sys2Proof.Machine.execKop h o s
  | .kpop h o => Sys2Proof.Machine.execKpop h o s
  | .kmov h o => Sys2Proof.Machine.execKmov h o s
  | .vsel h o => Sys2Proof.Machine.execVsel h o s
  | .vrcp h o => Sys2Proof.Machine.execVrcp h o s
  | .vsqrt h o => Sys2Proof.Machine.execVsqrt h o s
  | .vrsq h o => Sys2Proof.Machine.execVrsq h o s
  | .vexp2 h o => Sys2Proof.Machine.execVexp2 h o s
  | .vlog2 h o => Sys2Proof.Machine.execVlog2 h o s
  | .vcvt h o => Sys2Proof.Machine.execVcvt h o s
  | .vqmx h o => Sys2Proof.Machine.execVqmx h o s
  | .vtbl h o => Sys2Proof.Machine.execVtbl h o s
  | .vtblw h o => Sys2Proof.Machine.execVtblw h o s
  | .vrotr h o => Sys2Proof.Machine.execVrotr h o s
  | .vrotc h o => Sys2Proof.Machine.execVrotc h o s
  | .vbcr h o => Sys2Proof.Machine.execVbcr h o s
  | .vbcc h o => Sys2Proof.Machine.execVbcc h o s
  | .vredr h o => Sys2Proof.Machine.execVredr h o s
  | .vredc h o => Sys2Proof.Machine.execVredc h o s
  | .vscanr h o => Sys2Proof.Machine.execVscanr h o s
  | .vtrb h o => Sys2Proof.Machine.execVtrb h o s
  | .vmov h o => Sys2Proof.Machine.execVmov h o s
  | .vspl h o => Sys2Proof.Machine.execVspl h o s
  | .viota h o => Sys2Proof.Machine.execViota h o s
  | .vext h o => Sys2Proof.Machine.execVext h o s
  | .vins h o => Sys2Proof.Machine.execVins h o s
  | .mld h o => Sys2Proof.Machine.execMld h o s
  | .mlds h o => Sys2Proof.Machine.execMlds h o s
  | .mswap h o => Sys2Proof.Machine.execMswap h o s
  | .mma h o => Sys2Proof.Machine.execMma h o s
  | .mmas h o => Sys2Proof.Machine.execMmas h o s
  | .mzero h o => Sys2Proof.Machine.execMzero h o s
  | .manc h o => Sys2Proof.Machine.execManc h o s
  | .mdr h o => Sys2Proof.Machine.execMdr h o s
  | .mdrt h o => Sys2Proof.Machine.execMdrt h o s
  | .mest h o => Sys2Proof.Machine.execMest h o s
  | .mstat h o => Sys2Proof.Machine.execMstat h o s
  | .mtblw h o => Sys2Proof.Machine.execMtblw h o s
  | .mtsc h o => Sys2Proof.Machine.execMtsc h o s
  | .trec h o => Sys2Proof.Machine.execTrec h o s
  | .tupd h o => Sys2Proof.Machine.execTupd h o s
  | .tflsh h o => Sys2Proof.Machine.execTflsh h o s
  | .dstat h o => Sys2Proof.Machine.execDstat h o s
  | .contextStopComplete x => Sys2Proof.Machine.execContextStopComplete x s
  | .faultAnswerResume x => Sys2Proof.Machine.execFaultAnswerResume x s
  | .faultAnswerEnd x status => Sys2Proof.Machine.execFaultAnswerEnd x status s
  | .contextSave x => Sys2Proof.Machine.execContextSave x s
  | .contextRestore x => Sys2Proof.Machine.execContextRestore x s
  | .quantumRunEnd core => Sys2Proof.Machine.execQuantumRunEnd core s
  | .shootdownRange cl vdev pages => Sys2Proof.Machine.execShootdownRange cl vdev pages s
  | .shootdownVdev cl vdev => Sys2Proof.Machine.execShootdownVdev cl vdev s
  | .shootdownAll cl => Sys2Proof.Machine.execShootdownAll cl s
  | .scrubRequest v => Sys2Proof.Machine.execScrubRequest v s
  | .bindCommit v => Sys2Proof.Machine.execBindCommit v s
  | .floorWrite vdev v => Sys2Proof.Machine.execFloorWrite vdev v s
  | .taskRecordAccept queue => Sys2Proof.Machine.execTaskRecordAccept queue s
  | .taskComplete vdev seq => Sys2Proof.Machine.execTaskComplete vdev seq s
  | .contextEnd x => Sys2Proof.Machine.execContextEnd x s
  | .dormantReturn x => Sys2Proof.Machine.execDormantReturn x s
  | .erasureMarkWrite quad v => Sys2Proof.Machine.execErasureMarkWrite quad v s
  | .correctedCountClear quad => Sys2Proof.Machine.execCorrectedCountClear quad s
  | .uncorrectableCountClear quad => Sys2Proof.Machine.execUncorrectableCountClear quad s
  | .controlRegisterWrite off v => Sys2Proof.Machine.execControlRegisterWrite off v s
  | .injectPoison x => Sys2Proof.Machine.execInjectPoison x s
  | .injectSymbol x => Sys2Proof.Machine.execInjectSymbol x s
  | .copyCommandAct x seq => Sys2Proof.Machine.execCopyCommandAct x seq s
  | .grateCommandAct x seq => Sys2Proof.Machine.execGrateCommandAct x seq s
  | .detEpochRelease vdev task => Sys2Proof.Machine.execDetEpochRelease vdev task s
  | .replayMatchTimeout vdev => Sys2Proof.Machine.execReplayMatchTimeout vdev s
  | .eqCommandPerform x seq => Sys2Proof.Machine.execEqCommandPerform x seq s
  | .eqRunEnd x => Sys2Proof.Machine.execEqRunEnd x s
  | .sparkDeliver x seq => Sys2Proof.Machine.execSparkDeliver x seq s
  | .taskEnqueueAppend x seq => Sys2Proof.Machine.execTaskEnqueueAppend x seq s
  | .flueFetch x hd => Sys2Proof.Machine.execFlueFetch x hd s
  | .fluePageTranslate x hd => Sys2Proof.Machine.execFluePageTranslate x hd s
  | .windowFillComplete x slot row => Sys2Proof.Machine.execWindowFillComplete x slot row s
  | .damperGrant stove => Sys2Proof.Machine.execDamperGrant stove s
  | .waitwWake x => Sys2Proof.Machine.execWaitwWake x s
  | .gbarDepart x => Sys2Proof.Machine.execGbarDepart x s
  | .pageWalk core vdev va => Sys2Proof.Machine.execPageWalk core vdev va s
  | .storeDrain x n => Sys2Proof.Machine.execStoreDrain x n s
  | .machineCheck x st => Sys2Proof.Machine.execMachineCheck x st s
  | .cxlExpanderTimeout x st cmd => Sys2Proof.Machine.execCxlExpanderTimeout x st cmd s
  | .chsel chain => Sys2Proof.Machine.execChsel chain s
  | .imgput fn msg => Sys2Proof.Machine.execImgput fn msg s
  | .imggo fn msg => Sys2Proof.Machine.execImggo fn msg s
  | .attest fn msg => Sys2Proof.Machine.execAttest fn msg s
  | .keyadd fn msg => Sys2Proof.Machine.execKeyadd fn msg s
  | .keydel fn msg => Sys2Proof.Machine.execKeydel fn msg s
  | .sigpol fn msg => Sys2Proof.Machine.execSigpol fn msg s
  | .verify fn msg => Sys2Proof.Machine.execVerify fn msg s
  | .mailboxUnknownType fn msg => Sys2Proof.Machine.execMailboxUnknownType fn msg s
  | .apertureRead fn off n => Sys2Proof.Machine.execApertureRead fn off n s
  | .apertureWrite fn off bytes => Sys2Proof.Machine.execApertureWrite fn off bytes s
  | .hostWindowWrite off bytes => Sys2Proof.Machine.execHostWindowWrite off bytes s
  | .linkFlitReceive port flit => Sys2Proof.Machine.execLinkFlitReceive port flit s
  | .linkAckReceive port upTo => Sys2Proof.Machine.execLinkAckReceive port upTo s
  | .linkResendRequest port from_ => Sys2Proof.Machine.execLinkResendRequest port from_ s
  | .linkLossOfSignal port => Sys2Proof.Machine.execLinkLossOfSignal port s
  | .linkRetrainDone port ok => Sys2Proof.Machine.execLinkRetrainDone port ok s
  | .linkSequenceExhausted port => Sys2Proof.Machine.execLinkSequenceExhausted port s
  | .commitMarkAck x seq count status => Sys2Proof.Machine.execCommitMarkAck x seq count status s
  | .transferCountAgree x seq count => Sys2Proof.Machine.execTransferCountAgree x seq count s
  | .thermalThrottle stove refill => Sys2Proof.Machine.execThermalThrottle stove refill s
  | .unassignedOpcodeWord w => Sys2Proof.Machine.execUnassignedOpcodeWord w s
  | .instructionFetchFault x st => Sys2Proof.Machine.execInstructionFetchFault x st s
  | .loadDataReturn x n part => Sys2Proof.Machine.execLoadDataReturn x n part s
  | .headWritePerformed x n => Sys2Proof.Machine.execHeadWritePerformed x n s
  | .managementCoreStore pa bytes => Sys2Proof.Machine.execManagementCoreStore pa bytes s
  | .memorySymbolError pa symbols => Sys2Proof.Machine.execMemorySymbolError pa symbols s
  | .pseudoChannelFailure quad pc => Sys2Proof.Machine.execPseudoChannelFailure quad pc s
  | .expanderStopsResponding port => Sys2Proof.Machine.execExpanderStopsResponding port s
  | .expanderReturn port => Sys2Proof.Machine.execExpanderReturn port s
  | .faultRecordPost => Sys2Proof.Machine.execFaultRecordPost s
  | .calendarSlotStart => Sys2Proof.Machine.execCalendarSlotStart s
  | .shootdownComplete => Sys2Proof.Machine.execShootdownComplete s
  | .scrubComplete => Sys2Proof.Machine.execScrubComplete s
  | .freeze => Sys2Proof.Machine.execFreeze s
  | .packageReset => Sys2Proof.Machine.execPackageReset s
  | .bringupEnable => Sys2Proof.Machine.execBringupEnable s
  | .bypass => Sys2Proof.Machine.execBypass s
  | .samplePreload => Sys2Proof.Machine.execSamplePreload s
  | .extest => Sys2Proof.Machine.execExtest s
  | .idcode => Sys2Proof.Machine.execIdcode s
  | .chrd => Sys2Proof.Machine.execChrd s
  | .thermalPowerOff => Sys2Proof.Machine.execThermalPowerOff s

end Sys2Proof.Machine
end

