-- ==== Sys2Proof/Machine/Rendezvous.lean ====
section
/-! DEFINITION. A stream's turn: fetch, decode, R90, and the rendezvous of R113 in which the SY words of several
streams issue together. -/
namespace Sys2Proof.Machine

/-- The word at the head of a stream of the context at the cursor, when it is an instruction. -/
def State.headWord (s : State) (st : Stream) : Option Instr :=
  match s.ctx? s.md.cur with
  | none => none
  | some k =>
    let m : Mach := ⟨s, k, st⟩
    if (k.str st).halted || m.heldUp.isSome then none
    else
      match m.fetchAt (k.str st).pc with
      | (.word w, _) =>
        match decode w with
        | .ok i => some i
        | .error _ => none
      | _ => none

/-- The state with the cursor on a stream and a rendezvous set issuing. -/
def State.onStream (s : State) (st : Stream) (p : BitVec 4) : State := { s with md := { s.md with curSt := st, rdv := p } }

/-- A word presents itself for a rendezvous (R113): it has SY and has not issued, its checks are passed, its slot is not
squashed, no stream of its set has halted. -/
def Mach.presents (m : Mach) (i : Instr) (h : Hdr) : Bool :=
  h.sy && !m.partnerHalted && m.t.prog.isNone && (m.checkWord i h).isNone && !m.t.squashed h.ms.toNat

/-- What a member of a set would do if the set issued now (R113). -/
inductive Joins where
  /-- its word issues -/
  | issues
  /-- its word waits under its own rule, condition 7 of R112 -/
  | waits
  /-- its word takes a trap of its own before any effect, and takes no part (R90, R154, R195) -/
  | traps
  /-- it presents no word of a rendezvous, or one that conditions 1 to 5 hold back -/
  | absent
  deriving DecidableEq, Repr

/-- A wait under conditions 2 to 6 of R112. -/
def Why.early : Why → Bool
  | .token | .queue | .slot | .register | .sync | .push | .delay | .notRunning => true
  | _ => false

/-- What the word at the head of a stream would do as a member of the set p now (R112, R113). -/
def State.joins (s : State) (p : BitVec 4) (st : Stream) : Joins :=
  match s.ctx? s.md.cur, s.headWord st with
  | some k, some i =>
    match i.hdr? with
    | none => .absent
    | some h =>
      if !(⟨s, k, st⟩ : Mach).presents i h then .absent
      else
        match exec i (s.onStream st p) with
        | .next t =>
          (match t.md.note with
           | .waiting w => if w.early then .absent else .waits
           | .trapped _ => .traps
           | _ => .issues)
        | _ => .absent
  | _, _ => .absent

/-- A word with SY at the head of a stream that could issue as a member of the set now (R113). -/
def State.couldJoin (s : State) (p : BitVec 4) (st : Stream) : Bool := s.joins p st == .issues

/-- The streams of a set in the order A, V, M, D. -/
def setStreams (p : BitVec 4) : List Stream := Stream.all.filter fun st => p.getLsbD st.num

/-- Place of a word among those that issue together, which do not see one another (R113, R114): what reads special
registers or the queues' states comes first, and a `YIELD`, which stops all; then a write of sr.status, on top of which the
others raise their flags in later cycles (R51); then A, M, V and D, the order of their draws (R39); a `HALT` follows, and what
writes other special registers comes last (R144). -/
def setPlace (st : Stream) (i : Instr) : Nat :=
  match i with
  | .srr _ _ | .qstat _ _ | .yield _ _ => 0
  | .halt _ _ => 6
  | .srw _ o => if o.srIndex = 1 then 1 else 7
  | .pkw _ _ => 7
  | _ => match st with | .A => 2 | .M => 3 | .V => 4 | .D => 5

/-- The words of a set in the order in which they run. -/
def State.setWords (s : State) (p : BitVec 4) : List (Stream × Instr) :=
  let ws := (setStreams p).filterMap fun st => (s.headWord st).map fun i => (st, i)
  (upTo 8).flatMap fun n => ws.filter fun w => setPlace w.1 w.2 == n

/-- Run the words of a set one after another; none pops what another pushes, since each could issue before. -/
def State.runWords (p : BitVec 4) : List (Stream × Instr) → State → Out
  | [], s => .next { s with md := { s.md with rdv := 0, view := none } }
  | (st, i) :: t, s =>
    match exec i (s.onStream st p) with
    | .next s => State.runWords p t s
    | r => r

/-- Run the words of a set: each that reads the queues' states sees them as they stand now (R114). -/
def State.runSet (p : BitVec 4) (ws : List (Stream × Instr)) (s : State) : Out :=
  State.runWords p ws { s with md := { s.md with view := s.ctx? s.md.cur } }

/-- The streams whose words issue with those of the set p, which contains sr.syncmask: a stream outside it has the set of
sr.syncmask and itself, and issues in the cycle in which that is complete (R112, R113; log 49). -/
def State.group (s : State) (p : BitVec 4) : BitVec 4 :=
  Stream.all.foldl (fun g st =>
    if !p.getLsbD st.num && s.couldJoin (p ||| (1 <<< st.num)) st then g ||| (1 <<< st.num) else g) p

/-- The word i at the cursor tried as a member of the set p: a trap of its own, or what it does while it waits under its own
rule (it asks the damper, it arrives at a barrier). -/
def State.tryAlone (s : State) (i : Instr) (p : BitVec 4) : Out :=
  match exec i (s.onStream s.md.curSt p) with
  | .next s => .next { s with md := { s.md with rdv := 0 } }
  | r => r

/-- A rendezvous of the set p of the word i at the cursor (R113): the words of the set and of those that can join issue
together once each member can. A member that takes a trap of its own takes no part in it (R90, R195); one that waits under its
own rule does so once every other member waits for nothing else. -/
def State.rendezvous (s : State) (i : Instr) (p : BitVec 4) : Out :=
  let mine := s.joins p s.md.curSt
  if (setStreams p).all (s.couldJoin p) then State.runSet (s.group p) (s.setWords (s.group p)) s
  else if mine == .traps then s.tryAlone i p
  else if mine == .waits && (setStreams p).all (fun st => s.joins p st == .issues || s.joins p st == .waits) then s.tryAlone i p
  else exec i s

/-- A stream's turn with a decoded word: `exec` of it, or the rendezvous that it belongs to. -/
def State.runDecoded (s : State) (m : Mach) (i : Instr) : Out :=
  match i.hdr? with
  | none => exec i s
  | some h => if m.presents i h then s.rendezvous i m.syncSet else exec i s

/-- A stream's turn (R57, R88, R90, R143). -/
def State.issueTurn (s : State) (x : CtxRef) (st : Stream) : Out :=
  match Mach.enter { s with md := { s.md with cur := x, curSt := st } } with
  | (none, s) => .next (s.setNote (.waiting .notRunning))
  | (some m, _) =>
    match m.heldUp with
    | some w => .next (m.payOwed.leave (.waiting w))
    | none =>
      match m.fetchAt m.t.pc with
      | (.trap c, m) => .next (m.fetchTrap c)
      | (.wait, m) => .next (m.leave (.waiting .migrating))
      | (.word w, m) =>
        match decode w with
        | .ok i => State.runDecoded m.close m i
        | .error _ => exec (.unassignedOpcodeWord w) m.close

/-- A step of another agent; nothing of them moves once the package is frozen (R409). -/
def State.eventTurn (s : State) (i : Instr) : Out :=
  if i.hdr?.isSome then .next s else exec i s

/-- A context after a turn: each stream that has escalated in it with cause 0x15 has the mark of its walk (R415): that of the
held fault which it took, or what a walk at its sr.tval meets now. -/
def State.markWalks (s : State) (old : BitVec 4) (k : Ctx) : Ctx :=
  let hit := fun (st : Stream) =>
    k.reported st && !old.getLsbD st.num && (k.str st).cause == 0x15 &&
    k.rowMark.getD (s.walkHurt k.bd.vdev (k.str st).tval.toNat)
  { k with wmark := k.wmark ||| Stream.all.foldl (fun n st => if hit st then n ||| (1 <<< st.num) else n) 0, rowMark := none }

/-- The contexts whose streams have escalated in a turn, with their marks (R415). -/
def State.marked (s0 s : State) : State :=
  { s with ctxs := s.ctxs.map fun p =>
      let old := ((tfind s0.ctxs p.1).map fun k => k.smask).getD 0
      if p.2.smask = old && p.2.rowMark.isNone then p else (p.1, s.markWalks old p.2) }

/-- The state after a turn. -/
def State.after (s0 : State) (r : Out) : Out :=
  match r with
  | .next s => .next (s0.marked s)
  | r => r

/-- One turn of the machine. -/
def State.turn (s : State) (t : Turn) : Out :=
  match t with
  | .issue x st => if s.frozen then .next s else s.after (s.issueTurn x st)
  | .event i => if s.frozen && !frozenStep i then .next s else s.after (s.eventTurn i)

end Sys2Proof.Machine
end

