-- ==== Sys2Proof/Machine/Step.lean ====
section
/-! DEFINITION. One step: the turn that the agenda names, or a free one, and the time it takes. -/
namespace Sys2Proof.Machine

/-- One step of the machine (log 1). After a thermal power-off only a package reset has an effect (R474, R476). -/
def step (s : State) : Host.Outcome State Fault Refusal :=
  let (t, s) := s.nextTurn
  if s.off && t != .event .packageReset then .fault .stateLost
  else
    match s.turn t with
    | .next s => .next s.elapse
    | r => r

/-- `s` with an instruction of 64 bits placed where `step` fetches its next word (log 22). -/
def State.withFetchWord (s : State) (nbits w : Nat) : State := s.placeWord nbits w

end Sys2Proof.Machine
end

