-- ==== Sys2Proof/Safety.lean ====
section
/-! DEFINITION. What a safe run is, what it is for a word to be at its turn, and the notions in which the statements speak of
what a step leaves as it was. -/
namespace Sys2Proof.Machine

/-- A run of n steps stops nowhere. -/
def RunsOn : Nat → State → Prop
  | 0, _ => True
  | n + 1, s => ∃ t, step s = .next t ∧ RunsOn n t

/-- A run is safe while no step of it stops by a fault or a refusal. -/
def SafeRun (s : State) : Prop := ∀ n, RunsOn n s

/-- A machine whose delay is over and whose fence is passed. -/
def Mach.woken (m : Mach) : Mach :=
  (m.str fun t => { t with wakeAt := none }).ctx fun k => if m.st == .A then { k with fenced := false } else k

/-- A machine with what a word at its turn clears: a delay that is over, a fence that is passed, no progress left. -/
def Mach.armed (m : Mach) : Mach := m.woken.str fun t => { t with prog := none }

/-- A word stands at the head of the stream at the cursor of s, which is taken out as m: no push is owed, no delay runs, no
ordered atomic holds it, its core has not too much on its way to an expander, its slot is not squashed (R112, R115, R121, R282,
R285). Its checks come next (R90). -/
structure AtHead (s : State) (m : Mach) (h : Hdr) : Prop where
  enters : (Mach.enter s).1 = some m
  paid : m.t.owed = 0
  awake : m.delayed = false
  unfenced : m.atomicOut = false
  unfilled : (m.st == .A && m.k.cxlOver) = false
  slot : m.t.squashed h.ms.toNat = false

/-- The word i with ports p is at its turn in the stream at the cursor of s and issues now (R112): the stream is taken out
as m, no push is owed, no delay runs, no fence holds it, its slot is not squashed, it passes the checks of R90, it has not
issued before, no partner has halted, and nothing blocks it. -/
structure AtTurn (s : State) (m : Mach) (i : Instr) (h : Hdr) (p : Ports) : Prop extends AtHead s m h where
  legal : m.checkWord i h = none
  fresh : m.t.prog = none
  partners : (h.sy && m.partnerHalted) = false
  free : m.blocked h p = none

/-- The ports of a word, as the rules of its chapter give them: what it pops, pushes and reads before it has an effect (R65,
R112). An agent's step has none. -/
def portsOf (i : Instr) : Ports :=
  match i with
  | .add _ o | .sub _ o | .mul _ o | .mulhi _ o | .mulhis _ o | .div _ o | .divs _ o | .rem _ o | .rems _ o | .and _ o | .or _ o
  | .xor _ o | .andn _ o | .shl _ o | .shr _ o | .sra _ o | .rol _ o | .min _ o | .mins _ o | .max _ o | .maxs _ o | .bfx _ o
  | .bfxs _ o | .bfi _ o | .fshl _ o | .fshr _ o | .topen _ o | .lbind _ o | .wbind _ o => s3Ports o
  | .popc _ o | .clz _ o | .ctz _ o | .brev _ o | .pkw _ o | .tseal _ o | .tstat _ o | .acq _ o | .rel _ o | .waitw _ o
  | .eva _ o => s3Ports1 o
  | .addi _ o | .andi _ o | .ori _ o | .xori _ o | .shli _ o | .shri _ o | .srai _ o | .lih _ o => siPorts o
  | .cmp _ o => { s3Ports o with grds := if o.fn.getLsbD 7 then [] else [o.fn.toNat / 16 % 8] }
  | .cmpi _ o => { siPorts o with grds := if o.imm.getLsbD 27 then [] else [o.imm.toNat / 2 ^ 24 % 8] }
  | .gop _ o => gopPorts o
  | .sel _ o => { s3Ports o with grds := [o.fn.toNat % 8] }
  | .li _ o | .srr _ o => { Ports.none with dsts := [o.dst] }
  | .qstat _ o | .mest _ o | .mstat _ o | .dstat _ o | .gbar _ o | .wrel _ o | .engst _ o => { Ports.none with dsts := [o.dst] }
  | .wadv _ o => { Ports.none with srcs := [o.s1], dsts := [o.dst] }
  | .deq _ o | .evw _ o | .evq _ o => ports2 o
  | .tksig _ o => { Ports.none with srcs := [o.s1] }
  | .trap _ o => { Ports.none with srcs := [o.s1] }
  | .ret _ o | .jmpr _ o | .brq _ o => { Ports.none with srcs := [o.s1] }
  | .call _ o => { Ports.none with dsts := [o.s1] }
  | .modl _ o => { Ports.none with srcs := [o.trip] }
  | .wait _ o => if o.imm.toNat / 2 ^ 28 = 0 then { Ports.none with srcs := [o.s1] } else Ports.none
  | .halt _ _ => haltPorts
  | .srw _ o => { Ports.none with srcs := [o.s1], resumes := fun p => o.srIndex == 0x107 && p.k == 0 && p.n == 0 }
  | .br _ _ | .eret _ _ | .yield _ _ | .nop _ _ | .fence _ _ | .kop _ _ | .kpop _ _ | .mswap _ _ | .mzero _ _ | .mtblw _ _
  | .hmark _ _ | .hrew _ _ | .hunb _ _ | .tflsh _ _ | .gfen _ _ => Ports.none
  | .hstep _ o | .hbind _ o => { Ports.none with srcs := [o.cnt] }
  | .hstat _ o => { Ports.none with dsts := [o.cnt] }
  | .trec _ _ | .tupd _ _ => dPorts
  | .mld _ o | .mlds _ o | .mma _ o | .mmas _ o => rowPorts o.rows
  | .mdr _ o | .mdrt _ o => rowPorts o.rows
  | .manc _ o => { Ports.none with srcs := if o.fn.getLsbD 5 then [] else [o.s1], dsts := [o.dst] }
  | .mtsc _ o => { Ports.none with srcs := if o.fn.getLsbD 2 then [] else [o.s1], dsts := [o.dst] }
  | .lds _ o | .ldg _ o | .ldw _ o => loadPorts o
  | .sts _ o | .stg _ o => storePorts o
  | .ldq _ o | .stq _ o => burstPorts o
  | .satom _ o | .gatom _ o => atomPorts o
  | .cmo _ o => { Ports.none with srcs := [o.base, o.data] }
  | .cpym _ o | .cpys _ o | .cgth _ o | .csct _ o | .rput _ o | .rget _ o | .gaxpy _ o | .gred _ o | .spk _ o => ePorts o
  | .cpgi _ o | .gadd _ o | .gqop _ o | .eqclr _ o | .equ _ o | .tkenq _ o => { Ports.none with srcs := [o.o1, o.o2] }
  | .gamo _ o => { Ports.none with srcs := [o.o1, o.o2] ++ (if o.fl.toNat / 64 = 4 then [o.o3] else []) }
  | .eqf _ o => { Ports.none with srcs := [o.o2], dsts := [o.o1] }
  | .eqz _ o => { Ports.none with srcs := o.o2 :: (if o.fl.getLsbD 3 then [o.o3] else []), dsts := [o.o1] }
  | .eqsnp _ o => { Ports.none with dsts := [o.o1] }
  | .eqund _ o => { Ports.none with srcs := [o.o1] }
  | .eqr _ o => eqrPorts o
  | .vadd _ o | .vsub _ o | .vmul _ o | .vmin _ o | .vmax _ o | .vand _ o | .vor _ o | .vxor _ o | .vshl _ o | .vshr _ o
  | .vsra _ o | .vcmp _ o | .vsel _ o => v3Ports (vf2 o o.ty.toNat) o false
  | .vfma _ o | .vfms _ o => v3Ports (vf3 o o.ty.toNat) o true
  | .vabs _ o | .vneg _ o | .kmov _ o | .vqmx _ o | .vtbl _ o | .vrotr _ o | .vrotc _ o | .vbcr _ o | .vbcc _ o | .vtrb _ o
  | .vmov _ o | .vspl _ o | .vext _ o | .vins _ o | .vredr _ o | .vredc _ o | .vscanr _ o => v3Ports (vf1 o o.ty.toNat) o false
  | .vrcp _ o | .vsqrt _ o | .vrsq _ o | .vexp2 _ o | .vlog2 _ o => v3Ports (vf1 o 0) o false
  | .vcvt _ o => v3Ports (vf1 o (parSel o.s2)) o false
  | .vtblw _ o => v3Ports (vf1 o 1) o false
  | .viota _ o => v3Ports [] o false
  | .ill _ | .contextStopComplete _ | .faultAnswerResume _ | .faultAnswerEnd _ _ | .contextSave _ | .contextRestore _
  | .quantumRunEnd _ | .shootdownRange _ _ _ | .shootdownVdev _ _ | .shootdownAll _ | .scrubRequest _ | .bindCommit _
  | .floorWrite _ _ | .taskRecordAccept _ | .taskComplete _ _ | .contextEnd _ | .dormantReturn _ | .erasureMarkWrite _ _
  | .correctedCountClear _ | .uncorrectableCountClear _ | .controlRegisterWrite _ _ | .injectPoison _ | .injectSymbol _
  | .copyCommandAct _ _ | .grateCommandAct _ _ | .detEpochRelease _ _ | .replayMatchTimeout _ | .eqCommandPerform _ _
  | .eqRunEnd _ | .sparkDeliver _ _ | .taskEnqueueAppend _ _ | .flueFetch _ _ | .fluePageTranslate _ _
  | .windowFillComplete _ _ _ | .damperGrant _ | .waitwWake _ | .gbarDepart _ | .pageWalk _ _ _ | .storeDrain _ _
  | .machineCheck _ _ | .cxlExpanderTimeout _ _ _ | .chsel _ | .imgput _ _ | .imggo _ _ | .attest _ _ | .keyadd _ _
  | .keydel _ _ | .sigpol _ _ | .verify _ _ | .mailboxUnknownType _ _ | .apertureRead _ _ _ | .apertureWrite _ _ _
  | .hostWindowWrite _ _ | .linkFlitReceive _ _ | .linkAckReceive _ _ | .linkResendRequest _ _ | .linkLossOfSignal _
  | .linkRetrainDone _ _ | .linkSequenceExhausted _ | .commitMarkAck _ _ _ _ | .transferCountAgree _ _ _
  | .thermalThrottle _ _ | .unassignedOpcodeWord _ | .instructionFetchFault _ _ | .loadDataReturn _ _ _
  | .headWritePerformed _ _ | .managementCoreStore _ _ | .memorySymbolError _ _ | .pseudoChannelFailure _ _
  | .expanderStopsResponding _ | .expanderReturn _ | .faultRecordPost | .calendarSlotStart | .shootdownComplete
  | .scrubComplete | .freeze | .packageReset | .bringupEnable | .bypass | .samplePreload | .extest | .idcode | .chrd
  | .thermalPowerOff => Ports.none

/-- The word i with ports p waits whenever it stands at the head of its stream, passes its checks and is blocked (R112): the
stream keeps its place, and nothing is popped, pushed or written. -/
def Waits (i : Instr) (h : Hdr) (p : Ports) : Prop :=
  ∀ s m w, AtHead s m h → m.checkWord i h = none → m.t.prog = none → (h.sy && m.partnerHalted) = false → m.blocked h p = some w →
    exec i s = .next (m.armed.leave (.waiting w))

/-- The state in which the wait of the A stream at a place is looked at: its word at the cursor alone, its bank the one that its
core runs (R262, R263). -/
def State.waking (s : State) (x : CtxRef) : State := { s with md := { s.md with cur := x, curSt := .A, rdv := 0 } }.runBank x

/-- The state t with the core of a place running the bank that it runs in s. -/
def State.bankAsIn (t s : State) (x : CtxRef) : State :=
  { t with running := tset 0 t.running x.core.toNat (tget 0 s.running x.core.toNat) }

/-- The machine that the body of a word runs on: its tokens and queue sources are popped. -/
def Mach.taken (m : Mach) (h : Hdr) (p : Ports) : Mach := (m.armed.take h p).2

/-- The operands that the body of a word gets. -/
def Mach.opnds (m : Mach) (h : Hdr) (p : Ports) : Opnds := (m.armed.take h p).1

/-- The state after a word that has completed with machine m: its PA pushes, its next word. -/
def Mach.completed (m : Mach) (h : Hdr) : State := (m.retire h).leave .issued

/-- The state after a word that has completed and set where its stream goes on. -/
def Mach.moved (m : Mach) (h : Hdr) : State := (m.pushPA h.pa).leave .issued

/-- The state after a word that takes a trap in place of its effect. -/
def Mach.trapped (m : Mach) (cause : BitVec 8) (tval : Word) : State := (m.armed.takeTrap cause tval m.t.pc).leave (.trapped cause)

/-- The result of a word with one scalar destination x: the value v is delivered, and the word completes. -/
def Mach.gives (m : Mach) (h : Hdr) (p : Ports) (x : BitVec 6) (v : Word) : State :=
  ((m.taken h p).put x (m.opnds h p).act v (m.opnds h p).valid).completed h

/-- The word i completes whenever it is at its turn and c holds of its operands and of the machine that its pops leave: that
machine becomes what f makes of it, and the stream goes on. -/
def RunsIf (i : Instr) (h : Hdr) (p : Ports) (c : Mach → Opnds → Prop) (f : Mach → Opnds → Mach) : Prop :=
  ∀ s m, AtTurn s m i h p → c (m.taken h p) (m.opnds h p) → exec i s = .next ((f (m.taken h p) (m.opnds h p)).completed h)

/-- The word i completes whenever it is at its turn. -/
def Runs (i : Instr) (h : Hdr) (p : Ports) (f : Mach → Opnds → Mach) : Prop := RunsIf i h p (fun _ _ => True) f

/-- The word i completes, and has set where its stream goes on. -/
def MovesIf (i : Instr) (h : Hdr) (p : Ports) (c : Mach → Opnds → Prop) (f : Mach → Opnds → Mach) : Prop :=
  ∀ s m, AtTurn s m i h p → c (m.taken h p) (m.opnds h p) → exec i s = .next ((f (m.taken h p) (m.opnds h p)).moved h)

/-- The word i takes a trap in place of its effect (R402): the cause and sr.tval that f gives. -/
def TrapsIf (i : Instr) (h : Hdr) (p : Ports) (c : Mach → Opnds → Prop) (f : Mach → Opnds → BitVec 8 × Word) : Prop :=
  ∀ s m, AtTurn s m i h p → c (m.taken h p) (m.opnds h p) →
    exec i s = .next (m.trapped (f (m.taken h p) (m.opnds h p)).1 (f (m.taken h p) (m.opnds h p)).2)

/-- The guard of the word is true (R60, R128). -/
def isAct : Mach → Opnds → Prop := fun _ a => a.act = true

/-- The guard of the word is false. -/
def isOff : Mach → Opnds → Prop := fun _ a => a.act = false

/-- What a word with scalar destination x and result f does (R127 to R129). -/
def writes (x : BitVec 6) (f : Mach → Opnds → Word) (m : Mach) (a : Opnds) : Mach := m.put x a.act (f m a) a.valid

/-- What a word does that leaves the machine as its pops have left it. -/
def nothing (m : Mach) (_ : Opnds) : Mach := m

/-- The operands of a V word, as they are read (R152 to R154): none when a head's check fails or a source has to wait. -/
def Mach.vOperands (m : Mach) (h : Hdr) (o : V3) (fs : List VField) (rowsOnly : Bool) (a : Opnds) : Option (Mach × VIn) :=
  match m.headsBad a.act (vHeads fs) with
  | some _ => none
  | none =>
    match m.vread a.act (if rowsOnly then 1 else 16) fs a.rows with
    | .stop _ => none
    | .ok vs m' =>
      let vs := lmapIdx (applyLp o m'.k.sr.permReg) vs
      some (m', ⟨vs, if rowsOnly then 1 else 16, effMask m.k.vec h, vs.foldl (fun b v => b &&& v.valid) (BitVec.allOnes 64)⟩)

/-- A V word completes whenever it is at its turn and c holds of the operands it reads: the machine becomes what f makes of
it. -/
def VRunsIf (i : Instr) (h : Hdr) (o : V3) (fs : List VField) (three rowsOnly : Bool) (c : Mach → VIn → Prop)
    (f : Mach → VIn → Mach) : Prop :=
  ∀ s m m1 v, AtTurn s m i h (v3Ports fs o three) →
    (m.taken h (v3Ports fs o three)).vOperands h o fs rowsOnly (m.opnds h (v3Ports fs o three)) = some (m1, v) → c m1 v →
    exec i s = .next ((f m1 v).completed h)

/-- A V word that completes on any operands. -/
def VRuns (i : Instr) (h : Hdr) (o : V3) (fs : List VField) (three rowsOnly : Bool) (f : Mach → VIn → Mach) : Prop :=
  VRunsIf i h o fs three rowsOnly (fun _ _ => True) f

/-- Flags of which sr.fpmode enables a trap (R53). -/
def trapsOn (fpmode : Word) (fl : BitVec 5) : Bool :=
  (fl &&& fInv != 0 && bitAt fpmode 4) || (fl &&& fDz != 0 && bitAt fpmode 5) || (fl &&& fOvf != 0 && bitAt fpmode 6)

/-- The results of an element-wise word: f of the codes of each element that is written, nothing elsewhere (R155). -/
def VIn.grid (v : VIn) (push : Bool) (n w : Nat) (f : List Nat → RRes) : List (List RRes) :=
  (upTo v.n).map fun r => (upTo 64).map fun l =>
    if v.writes push r l then f ((upTo n).map fun i => (v.elem i r l).toNat % 2 ^ w) else ⟨0, 0, .none⟩

/-- What an element-wise word with n sources of w bits does (R51, R53, R55, R155): its rows are delivered, its events
counted, its flags raised. -/
def Mach.elems (m : Mach) (o : V3) (v : VIn) (n w : Nat) (f : List Nat → RRes) : Mach :=
  let g := v.grid (n != 3 && v3Pushes o) n w f
  let m := if n = 3 then m.putRows o.dst.toNat 0 v.mask (rowsLanes g) else m.putV o v v.valid (rowsLanes g)
  (m.count (m.k.sr.vtid.toNat % 256) (g.flatMap fun x => x.map (·.ev))).raise (rowsFlags g)

/-- An element-wise word raises no flag whose trap is enabled (R53). -/
def Mach.calm (m : Mach) (o : V3) (v : VIn) (n w : Nat) (f : List Nat → RRes) : Prop :=
  trapsOn m.t.fpmode (rowsFlags (v.grid (n != 3 && v3Pushes o) n w f)) = false

/-- The source fields of a V word with n sources of one type. -/
def vfN (n : Nat) (o : V3) (ty : Nat) : List VField := if n = 1 then vf1 o ty else if n = 2 then vf2 o ty else vf3 o ty

/-- An element-wise word with n sources of type ty, read as w bits, completes with the results f. -/
def ElemRuns (i : Instr) (h : Hdr) (o : V3) (n ty w : Nat) (f : Mach → List Nat → RRes) : Prop :=
  VRunsIf i h o (vfN n o ty) (n == 3) (rowShaped (vfN n o ty) o (n == 3)) (fun m v => m.calm o v n w (f m)) (fun m v => m.elems o v n w (f m))

/-- The machine after rows r to n − 1 of a row word, when every one of them can be performed now (R246). -/
def rowsTo (f : Nat → Mach → RowDo) : Nat → Nat → Mach → Option Mach
  | 0, _, m => some m
  | n + 1, r, m =>
    match f r m with
    | .done m => rowsTo f n (r + 1) m
    | _ => none

/-- A row word as it starts: what an earlier word held is let go of (R246). -/
def Mach.rowStart (m : Mach) : Mach := m.ownWord.mat fun t => { t with held := none, fl := 0, own := none }

/-- An engine word meets none of its waits, its own checks pass, and no unretired command overlaps it (R309, R310, R314,
R315, R318). -/
structure EngineFree (m : Mach) (a : Opnds) (o : E) (opc : Nat) (args : EngArgs) : Prop where
  act : a.act = true
  room : producesRec opc = true → m.k.recsOut (engOf opc) < recDepth (engOf opc)
  released : m.k.released = true
  credit : engOf opc = 2 → ¬ (opc = 0x64 ∧ m.k.bd.det = 1) → m.k.credits ≠ 0
  checks : args.bad = none
  clear : m.k.overlap opc (predsOf o m.k.sr.seq) args.ranges = none

/-- A context keeps everything but its stream st, its queues and its token FIFOs (and the fence of an ordered atomic that
has been passed). -/
structure SameButStream (k k' : Ctx) (st : Stream) : Prop where
  streams : ∀ st', st' ≠ st → k'.str st' = k.str st'
  rest : k' = { k with a := k'.a, v := k'.v, m := k'.m, d := k'.d, sq := k'.sq, rq := k'.rq, tok := k'.tok, fenced := k'.fenced }

/-- A stream keeps every register but x, and everything but its place in its text and what it waits for: its guards, its
level, its trap, floating-point and save registers. -/
structure SameButReg (t t' : StreamSt) (x : BitVec 6) : Prop where
  regs : ∀ n, (isR x = true → n ≠ x.toNat) → t'.reg n = t.reg n
  rest : t' = { t with regs := t'.regs, pc := t'.pc, mloop := t'.mloop, mround := t'.mround, mtrip := t'.mtrip, inBody := t'.inBody,
                       owed := t'.owed, wakeAt := t'.wakeAt, prog := t'.prog, waiting := t'.waiting, stalled := t'.stalled }

/-- A state keeps everything outside its contexts: memory, caches, device registers, gangs, tasks, the host port. -/
def SameDevice (s t : State) : Prop := t = { s with ctxs := t.ctxs, running := t.running, md := t.md }

/-- A word of the context at the cursor with scalar destination x leaves everything else as it was: the device, every other
context, the other streams and units of its own, and its stream's other registers; the queues and FIFOs that it does not
name keep their entries. -/
structure ScalarFrame (s : State) (m : Mach) (h : Hdr) (p : Ports) (x : BitVec 6) (t : State) : Prop where
  device : SameDevice s t
  others : ∀ y, ctxKey y ≠ ctxKey s.md.cur → t.ctx? y = s.ctx? y
  mine : ∃ k, t.ctx? s.md.cur = some k ∧ SameButStream m.k k m.st ∧ SameButReg m.t (k.str m.st) x ∧
    (∀ q, (∀ y ∈ p.srcs ++ p.dsts, isQ y = true → qNum y ≠ q) → k.sq? q = m.k.sq? q) ∧
    (∀ q, q ∉ p.rowSrcs ++ p.rowDsts → k.rq? q = m.k.rq? q) ∧
    (∀ n, n ∉ fifosIn m.st h.pb ++ fifosOut m.st h.pa → k.tokens n = m.k.tokens n)

end Sys2Proof.Machine
end

