-- ==== Sys2Proof/Certificates/Slice0/Obligations.lean ====
section
/-! DEFINITION. The statements for the provers. -/
open Sys2Proof Sys2Proof.Machine

/-- R57, R58, R62 to R89: the word of a well-formed instruction decodes to that instruction, every field at every value; ILL
included. -/
def Obligations.DecodingAnEncodedWordGivesItBack : Prop :=
  ∀ i : Instr, (i.hdr?.isSome = true ∨ ∃ w, i = .ill w) → i.wf = true → decode (encode i) = .ok i

/-- R88, R89: an instruction that decodes from a word has exactly that word, reserved bits 0, and is well formed. -/
def Obligations.DecodedInstructionsHaveThatWord : Prop :=
  ∀ w i, decode w = .ok i → encode i = w ∧ i.wf = true

/-- R57 to R89: words written out from the tables of the spec decode to what they stand for. -/
def Obligations.SpecWordsDecode : Prop :=
  decode 0x0000082184000000 = .ok (.add ⟨false, 0, 0, 0, false, 0, 0⟩ ⟨1, 3, 2, 0⟩) ∧
  decode 0x010D66007FFFFFFD = .ok (.br ⟨false, 0, 0, 1, false, 0, 3⟩ ⟨48, 0x7FFFFFFD⟩) ∧
  decode 0x928600C060800000 = .ok (.vadd ⟨true, 0, 2, 2, true, 0, 1⟩ ⟨3, 1, 0x82, 0, 0, 0, 0⟩) ∧
  decode 0x0002006084900010 = .ok (.lds ⟨false, 0, 0, 0, false, 0, 0⟩ ⟨3, 1, 2, 2, 2, 16⟩) ∧
  decode 0x000A191400008080 = .ok (.mma ⟨false, 0, 0, 0, false, 0, 2⟩ ⟨1, 2, 0x80, 0, 0, 0, 0, 64, 1, false, 0⟩) ∧
  decode 0x000E025C00000000 = .ok (.trec ⟨false, 0, 0, 0, false, 0, 3⟩ ⟨4, 46, 0, 0, 0⟩) ∧
  decode 0x0002C02106000000 = .ok (.cpym ⟨false, 0, 0, 0, false, 0, 0⟩ ⟨1, 2, 3, 0, 0, 0⟩) ∧
  decode 0x00000000DEADBEEF = .ok (.ill 0x00000000DEADBEEF) ∧
  decode 0xFFFFFFFFFFFFFFFF = .ok (.unassignedOpcodeWord 0xFFFFFFFFFFFFFFFF)

/-- R57, R88, R90, R113: when the agenda names a stream that can issue and the word at its pc decodes to an instruction without
SY, a step is the meaning of that instruction on the state that the fetch leaves, and then time goes on; a word that decodes to
none is run as an illegal word. With SY, when each word of its rendezvous set could issue, those words run together; a word that
takes a trap of its own, or waits under its own rule while the others of its set wait for nothing else, is tried alone; else it
is the meaning of the word alone, which waits or traps. When the agenda names an event, a step is the meaning of that event. The
agenda is the model's own (log 1), and so is that the words of streams outside sr.syncmask whose own sets are complete issue with
a set (`State.group`; log 49, DEDUCED): no rule says either. What a step adds around a meaning is the mark of R415 on a stream that has
escalated in it (`State.marked`; log 26): where no stream has, and no word has taken a held fault, it adds nothing. -/
def Obligations.StepRunsTheDecodedInstruction : Prop :=
  (∀ s x st rest m m' w i,
    s.off = false → s.frozen = false → s.md.agenda = .issue x st :: rest →
    (Mach.enter { s with md := { s.md with agenda := rest, cur := x, curSt := st } }).1 = some m →
    m.heldUp = none → m.fetchAt m.t.pc = (.word w, m') → decode w = .ok i → i.hdr?.any (·.sy) = false →
    step s = (match exec i m'.close with
      | .next t => .next (s.marked t).elapse
      | r => r)) ∧
  (∀ s x st rest m m' w e,
    s.off = false → s.frozen = false → s.md.agenda = .issue x st :: rest →
    (Mach.enter { s with md := { s.md with agenda := rest, cur := x, curSt := st } }).1 = some m →
    m.heldUp = none → m.fetchAt m.t.pc = (.word w, m') → decode w = .error e →
    step s = (match exec (.unassignedOpcodeWord w) m'.close with
      | .next t => .next (s.marked t).elapse
      | r => r)) ∧
  (∀ s x st rest m m' w i h,
    s.off = false → s.frozen = false → s.md.agenda = .issue x st :: rest →
    (Mach.enter { s with md := { s.md with agenda := rest, cur := x, curSt := st } }).1 = some m →
    m.heldUp = none → m.fetchAt m.t.pc = (.word w, m') → decode w = .ok i → i.hdr? = some h → h.sy = true →
    let p := m'.syncSet
    let mine := m'.close.joins p m'.close.md.curSt
    let group := m'.close.group p
    step s = (match (if m'.presents i h = false then exec i m'.close
        else if (setStreams p).all (m'.close.couldJoin p) = true then State.runSet group (m'.close.setWords group) m'.close
        else if mine = .traps ∨ (mine = .waits ∧ (setStreams p).all (fun st' =>
          m'.close.joins p st' == .issues || m'.close.joins p st' == .waits) = true) then m'.close.tryAlone i p
        else exec i m'.close) with
      | .next t => .next (s.marked t).elapse
      | r => r)) ∧
  (∀ s i rest, s.off = false → s.frozen = false → s.md.agenda = .event i :: rest → i.hdr? = none →
    step s = (match exec i { s with md := { s.md with agenda := rest } } with
      | .next t => .next (s.marked t).elapse
      | r => r)) ∧
  (∀ s t : State, (∀ p ∈ t.ctxs, p.2.rowMark = none ∧ p.2.smask = ((tfind s.ctxs p.1).map fun k => k.smask).getD 0) → s.marked t = t)

/-- R90: ILL and a word that is no instruction take cause 0x02 with the word in sr.tval; so do an instruction of another cluster,
one that is not well formed, and one with a modulo stage outside a body, whatever the queues hold. R88: a word of an unassigned
opcode decodes to such a word. -/
def Obligations.IllegalWordsTakeCause02 : Prop :=
  (∀ w : Word, (bits w 50 2 = 0 ∧ 0x74 ≤ bits w 43 7) ∨ (bits w 50 2 = 1 ∧ 0x6A ≤ bits w 43 7) ∨ (bits w 50 2 = 2 ∧ 0x4D ≤ bits w 43 7) ∨
    (bits w 50 2 = 3 ∧ 0x44 ≤ bits w 43 7) → decode w = .ok (.unassignedOpcodeWord w)) ∧
  (∀ s m w, (Mach.enter s).1 = some m →
    exec (.ill w) s = .next ((m.takeTrap 0x02 w m.t.pc).leave (.trapped 0x02)) ∧
    exec (.unassignedOpcodeWord w) s = .next ((m.takeTrap 0x02 w m.t.pc).leave (.trapped 0x02))) ∧
  (∀ s m i h, AtHead s m h → i.hdr? = some h → (h.cl ≠ m.st.cl ∨ i.wf = false ∨ (h.ms ≠ 0 ∧ m.t.inBody = false)) →
    exec i s = .next ((m.woken.takeTrap 0x02 (encode i) m.t.pc).leave (.trapped 0x02)))

/-- R91, R406: at level U, ERET, a read or write of a register from 0x100 on, and a PKW of a key that sr.pkmask does not
give, take cause 0x04. -/
def Obligations.PrivilegedWordsTakeCause04 : Prop :=
  ∀ s m i h, AtHead s m h → i.hdr? = some h → h.cl = m.st.cl → i.wf = true → (h.ms = 0 ∨ m.t.inBody = true) →
    m.t.plev = false → privilegedAtU i m.k.sr.pkmask = true →
    exec i s = .next ((m.woken.takeTrap 0x04 (encode i) m.t.pc).leave (.trapped 0x04))

/-- R113: a word with SY whose rendezvous set holds a halted stream takes cause 0x05, the set in sr.tval. -/
def Obligations.RendezvousWithAHaltedStreamTakesCause05 : Prop :=
  ∀ s m i h, AtHead s m h → i.hdr? = some h → m.checkWord i h = none → m.t.prog = none → h.sy = true → m.partnerHalted = true →
    exec i s = .next ((m.armed.takeTrap 0x05 (m.syncSet.setWidth 64) m.t.pc).leave (.trapped 0x05))

/-- R112: a word of any instruction that waits for a token, a queue entry, a free slot, a register or its rendezvous (conditions 2
to 6), with the ports that its rule gives it (`portsOf`), takes nothing and changes nothing but what its stream waits for. -/
def Obligations.ABlockedWordTakesNothing : Prop :=
  ∀ i h, i.hdr? = some h → Waits i h (portsOf i)

/-- R402: a trap of a stream at level U whose sr.tvec.en is set: the cause, the address, the value are saved, the level
becomes P, the stream goes on at the handler; its registers and guards, and the context's other parts, keep their values. -/
def Obligations.TrapEntrySavesAndGoesToTheHandler : Prop :=
  ∀ (m : Mach) (cause : BitVec 8) (tval epc : Word), m.t.prog = none → routeM cause = false → m.t.plev = false →
    bitAt m.t.tvec 0 = true →
    (m.takeTrap cause tval epc).t =
      { m.t with cause := cause.setWidth 64, tval := tval, epc := epc &&& 0x003FFFFFFFFFFFF8, plev := true,
                 pc := m.t.tvec &&& 0x003FFFFFFFFFFFF8, inBody := false, waiting := none } ∧
    (m.takeTrap cause tval epc).s = m.s ∧ (m.takeTrap cause tval epc).k = m.k.setStr m.st (m.takeTrap cause tval epc).t

/-- R427: a trap of a stream at level P, or with sr.tvec.en clear, escalates with cause 0x61 and the first cause in sr.tval;
a cause that is routed to the management core escalates itself; the level stays, and the context's stop begins. -/
def Obligations.TrapsThatNoHandlerTakesEscalate : Prop :=
  ∀ (m : Mach) (cause : BitVec 8) (tval epc : Word), m.t.prog = none →
    (routeM cause = false → (m.t.plev = true ∨ bitAt m.t.tvec 0 = false) →
      (m.takeTrap cause tval epc).t =
        { m.t with cause := 0x61, tval := cause.setWidth 64, epc := epc &&& 0x003FFFFFFFFFFFF8, waiting := none } ∧
      (m.takeTrap cause tval epc).k.run = .stopping true ∧
      (m.takeTrap cause tval epc).k.smask = m.k.smask ||| (1 <<< m.st.num)) ∧
    (routeM cause = true →
      (m.takeTrap cause tval epc).t =
        { m.t with cause := cause.setWidth 64, tval := tval, epc := epc &&& 0x003FFFFFFFFFFFF8, waiting := none } ∧
      (m.takeTrap cause tval epc).k.run = .stopping true)

/-- R404, R405: TRAP completes and takes cause 0x60 with the next word's address in sr.epc and its immediate above bits 47:0
of S1 in sr.tval; ERET puts its stream back to level U at sr.epc. -/
def Obligations.TrapAndEretWords : Prop :=
  (∀ s m h o, AtTurn s m (.trap h o) h { Ports.none with srcs := [o.s1] } →
    (m.opnds h { Ports.none with srcs := [o.s1] }).act = true →
    let m' := (m.taken h { Ports.none with srcs := [o.s1] }).retire h
    exec (.trap h o) s = .next ((m'.takeTrap 0x60
      (((o.imm.extractLsb' 0 16).setWidth 64 <<< 48) ||| ((m.opnds h { Ports.none with srcs := [o.s1] }).v 0 &&& 0xFFFFFFFFFFFF))
      m'.t.pc).leave .issued)) ∧
  (∀ h o, RunsIf (.trap h o) h { Ports.none with srcs := [o.s1] } isOff nothing) ∧
  (∀ h o, MovesIf (.eret h o) h Ports.none isAct fun m _ => m.eret) ∧
  (∀ h o, RunsIf (.eret h o) h Ports.none isOff nothing) ∧
  (∀ m : Mach, m.eret.t.plev = false ∧ m.eret.t.pc = m.t.epc ∧ m.eret.t.regs = m.t.regs ∧ m.eret.t.guards = m.t.guards)

/-- R408, R447, R474: what a package reset leaves: no context bound, memory and control space at their reset values, no
device enabled. That every byte of memory and of the scratchpads reads 0 (log 11), what the registers of control space without a
stated reset value read (log 8), and what a freeze before the reset leaves (log 38) are the model's choices; so are time 0, its
agenda and its cursor (logs 1, 2). -/
def Obligations.ResetState : Prop :=
  State.reset.ctxs = [] ∧ State.reset.gangs = [] ∧ State.reset.tasks = [] ∧ State.reset.frozen = false ∧ State.reset.off = false ∧
  (∀ a, memByte State.reset.ms.mem a = 0) ∧ (∀ core off, State.reset.spByte core off = 0) ∧
  (∀ off, State.reset.reg off = ctlDefault off) ∧ State.reset.host.enabled = false ∧ State.reset.host.ready = false

/-- An invariant of the model's memory (log 11): addresses strictly rising and no entry that reads as an unlisted one. Every step
keeps it, and it holds after reset. -/
def Obligations.EveryStepKeepsMemoryCanonical : Prop :=
  (Memory.wf State.reset.ms.mem = true ∧ Memory.wf State.reset.ms.spad = true) ∧
  (∀ s t, Memory.wf s.ms.mem = true ∧ Memory.wf s.ms.spad = true → step s = .next t → Memory.wf t.ms.mem = true ∧ Memory.wf t.ms.spad = true)

/-- R409: once the package is frozen, every step that is neither a package reset nor a thermal power-off leaves everything but the
model's own tick and agenda and the scan port: memory, contexts, control space, the host port, time; it stays frozen. That the
memories' own errors and whatever else comes from outside have no effect while it is frozen is the model's choice (log 40). R476: a
thermal power-off takes a frozen package as any other: all state is lost. -/
def Obligations.AFrozenPackageKeepsItsState : Prop :=
  (∀ s t, s.frozen = true → s.off = false → (s.nextTurn).1 ≠ .event .packageReset → (s.nextTurn).1 ≠ .event .thermalPowerOff →
    step s = .next t → t = { s with md := t.md, jtag := t.jtag } ∧ t.frozen = true) ∧
  (∀ s, s.off = false → (s.nextTurn).1 = .event .thermalPowerOff → ∃ t, step s = .next t ∧ t.off = true)

/-- R476: after a thermal power-off a step stops with stateLost, unless it is a package reset; that goes on. -/
def Obligations.PowerOffStopsTheMachine : Prop :=
  ∀ s, s.off = true →
    ((s.nextTurn).1 ≠ .event .packageReset → step s = .fault .stateLost) ∧
    ((s.nextTurn).1 = .event .packageReset → ∃ t, step s = .next t ∧ t.off = false)

/-- R143: a stream whose pc lies outside its text section takes cause 0x10 as it fetches, the address in sr.epc and sr.tval. -/
def Obligations.FetchOutsideTheTextTakesCause10 : Prop :=
  ∀ s x st m, (Mach.enter { s with md := { s.md with cur := x, curSt := st } }).1 = some m → m.heldUp = none →
    m.k.bd.inText m.st m.t.pc = false →
    exec (.instructionFetchFault x st) s = .next ((m.takeTrap 0x10 m.t.pc m.t.pc).leave (.trapped 0x10)) ∧
    s.issueTurn x st = .next ((m.takeTrap 0x10 m.t.pc m.t.pc).leave (.trapped 0x10))

/-- R127 to R129, R132: the arithmetic words write their result; a zero divisor gives all ones, and the dividend as its
remainder. -/
def Obligations.ArithmeticWordsWriteTheirResult : Prop :=
  ∀ h o,
    Runs (.add h o) h (s3Ports o) (writes o.dst fun _ a => a.v 0 + a.v 1) ∧
    Runs (.sub h o) h (s3Ports o) (writes o.dst fun _ a => a.v 0 - a.v 1) ∧
    Runs (.mul h o) h (s3Ports o) (writes o.dst fun _ a => a.v 0 * a.v 1) ∧
    Runs (.mulhi h o) h (s3Ports o) (writes o.dst fun _ a => BitVec.ofNat 64 ((a.v 0).toNat * (a.v 1).toNat / 2 ^ 64)) ∧
    Runs (.mulhis h o) h (s3Ports o) (writes o.dst fun _ a => BitVec.ofInt 64 ((a.v 0).toInt * (a.v 1).toInt / 2 ^ 64)) ∧
    Runs (.div h o) h (s3Ports o) (writes o.dst fun _ a => if a.v 1 = 0 then BitVec.allOnes 64 else a.v 0 / a.v 1) ∧
    Runs (.divs h o) h (s3Ports o)
      (writes o.dst fun _ a => if a.v 1 = 0 then BitVec.allOnes 64 else BitVec.ofInt 64 ((a.v 0).toInt.tdiv (a.v 1).toInt)) ∧
    Runs (.rem h o) h (s3Ports o) (writes o.dst fun _ a => if a.v 1 = 0 then a.v 0 else a.v 0 % a.v 1) ∧
    Runs (.rems h o) h (s3Ports o)
      (writes o.dst fun _ a => if a.v 1 = 0 then a.v 0 else BitVec.ofInt 64 ((a.v 0).toInt.tmod (a.v 1).toInt))

/-- R127 to R129, R133: the logic, shift and selection words write their result; a shift takes bits 5:0 of S2. -/
def Obligations.LogicWordsWriteTheirResult : Prop :=
  ∀ h o,
    Runs (.and h o) h (s3Ports o) (writes o.dst fun _ a => a.v 0 &&& a.v 1) ∧
    Runs (.or h o) h (s3Ports o) (writes o.dst fun _ a => a.v 0 ||| a.v 1) ∧
    Runs (.xor h o) h (s3Ports o) (writes o.dst fun _ a => a.v 0 ^^^ a.v 1) ∧
    Runs (.andn h o) h (s3Ports o) (writes o.dst fun _ a => a.v 0 &&& ~~~(a.v 1)) ∧
    Runs (.shl h o) h (s3Ports o) (writes o.dst fun _ a => a.v 0 <<< ((a.v 1).toNat % 64)) ∧
    Runs (.shr h o) h (s3Ports o) (writes o.dst fun _ a => a.v 0 >>> ((a.v 1).toNat % 64)) ∧
    Runs (.sra h o) h (s3Ports o) (writes o.dst fun _ a => (a.v 0).sshiftRight ((a.v 1).toNat % 64)) ∧
    Runs (.rol h o) h (s3Ports o) (writes o.dst fun _ a => (a.v 0).rotateLeft ((a.v 1).toNat % 64)) ∧
    Runs (.min h o) h (s3Ports o) (writes o.dst fun _ a => if (a.v 0).toNat ≤ (a.v 1).toNat then a.v 0 else a.v 1) ∧
    Runs (.mins h o) h (s3Ports o) (writes o.dst fun _ a => if (a.v 0).toInt ≤ (a.v 1).toInt then a.v 0 else a.v 1) ∧
    Runs (.max h o) h (s3Ports o) (writes o.dst fun _ a => if (a.v 0).toNat ≤ (a.v 1).toNat then a.v 1 else a.v 0) ∧
    Runs (.maxs h o) h (s3Ports o) (writes o.dst fun _ a => if (a.v 0).toInt ≤ (a.v 1).toInt then a.v 1 else a.v 0)

/-- R76, R134: the words with an immediate write their result; the immediate is sign-extended. -/
def Obligations.ImmediateWordsWriteTheirResult : Prop :=
  ∀ h o,
    let k : Word := o.imm.signExtend 64
    Runs (.addi h o) h (siPorts o) (writes o.dst fun _ a => a.v 0 + k) ∧
    Runs (.andi h o) h (siPorts o) (writes o.dst fun _ a => a.v 0 &&& k) ∧
    Runs (.ori h o) h (siPorts o) (writes o.dst fun _ a => a.v 0 ||| k) ∧
    Runs (.xori h o) h (siPorts o) (writes o.dst fun _ a => a.v 0 ^^^ k) ∧
    Runs (.shli h o) h (siPorts o) (writes o.dst fun _ a => a.v 0 <<< (k.toNat % 64)) ∧
    Runs (.shri h o) h (siPorts o) (writes o.dst fun _ a => a.v 0 >>> (k.toNat % 64)) ∧
    Runs (.srai h o) h (siPorts o) (writes o.dst fun _ a => (a.v 0).sshiftRight (k.toNat % 64)) ∧
    Runs (.li h o) h { Ports.none with dsts := [o.dst] } (writes o.dst fun _ _ => k) ∧
    Runs (.lih h o) h (siPorts o) (writes o.dst fun _ a => a.v 0 + (k <<< 31))

/-- R136 to R138: the bit-field, funnel and count words write their result; the fields are those of FN, and the old value of
DST where it is a source. -/
def Obligations.BitFieldWordsWriteTheirResult : Prop :=
  ∀ h o,
    let w := o.fn.toNat % 64 + 1
    let ones : Word := BitVec.ofNat 64 (2 ^ w - 1)
    let sh : Opnds → Nat := fun a => (a.v 1).toNat % 64
    let old : Mach → Word := fun m => m.t.reg o.dst.toNat
    let n : Mach → Nat := fun m => if o.fn.getLsbD 6 then (old m).toNat % 64 else o.fn.toNat % 64
    Runs (.bfx h o) h (s3Ports o) (writes o.dst fun _ a => (a.v 0 >>> sh a) &&& ones) ∧
    Runs (.bfxs h o) h (s3Ports o) (writes o.dst fun _ a =>
      if ((a.v 0 >>> sh a) &&& ones).getLsbD (w - 1) then ((a.v 0 >>> sh a) &&& ones) ||| ~~~ones else (a.v 0 >>> sh a) &&& ones) ∧
    Runs (.bfi h o) h (s3Ports o) (writes o.dst fun m a => (old m &&& ~~~(ones <<< sh a)) ||| ((a.v 0 &&& ones) <<< sh a)) ∧
    Runs (.fshl h o) h (s3Ports o) (writes o.dst fun m a => ((a.v 0 ++ a.v 1) <<< n m).extractLsb' 64 64) ∧
    Runs (.fshr h o) h (s3Ports o) (writes o.dst fun m a => ((a.v 0 ++ a.v 1) >>> n m).extractLsb' 0 64) ∧
    Runs (.popc h o) h (s3Ports1 o) (writes o.dst fun _ a => BitVec.ofNat 64 ((List.range 64).countP fun i => (a.v 0).getLsbD i)) ∧
    Runs (.clz h o) h (s3Ports1 o) (writes o.dst fun _ a => BitVec.ofNat 64 ((List.range 64).findIdx fun i => (a.v 0).getLsbD (63 - i))) ∧
    Runs (.ctz h o) h (s3Ports1 o) (writes o.dst fun _ a => BitVec.ofNat 64 ((List.range 64).findIdx fun i => (a.v 0).getLsbD i)) ∧
    Runs (.brev h o) h (s3Ports1 o) (writes o.dst fun _ a => (a.v 0).reverse)

/-- R139 to R142: a compare writes 0 or 1 to DST and the guard, or every row of the mask, that GD names, under a true guard;
GOP computes, reads or writes guards; SEL chooses by a guard. -/
def Obligations.CompareAndGuardWords : Prop :=
  (∀ a b : Word,
    condHolds 0 a b = decide (a = b) ∧ condHolds 1 a b = decide (a ≠ b) ∧ condHolds 2 a b = decide (a.toInt < b.toInt) ∧
    condHolds 3 a b = decide (b.toInt ≤ a.toInt) ∧ condHolds 4 a b = decide (a.toNat < b.toNat) ∧
    condHolds 5 a b = decide (b.toNat ≤ a.toNat) ∧ condHolds 6 a b = decide (a &&& b ≠ 0) ∧ condHolds 7 a b = decide (a &&& b = 0)) ∧
  ∀ h,
    (∀ o : S3, o.fn.getLsbD 7 = false →
      RunsIf (.cmp h o) h { s3Ports o with grds := [o.fn.toNat / 16 % 8] } isAct fun m a =>
        let b := condHolds (o.fn.toNat % 16) (a.v 0) (a.v 1)
        (m.put o.dst true (if b then 1 else 0) a.valid).str fun t => t.setGuard (o.fn.toNat / 16 % 8) b) ∧
    (∀ o : S3, o.fn.getLsbD 7 = true →
      RunsIf (.cmp h o) h (s3Ports o) isAct fun m a =>
        let b := condHolds (o.fn.toNat % 16) (a.v 0) (a.v 1)
        (m.put o.dst true (if b then 1 else 0) a.valid).ctx fun k =>
          { k with vec := k.vec.setMaskRows (o.fn.toNat / 16 % 8) (List.replicate 16 (if b then BitVec.allOnes 64 else 0)) }) ∧
    (∀ o : SI, o.imm.getLsbD 27 = false →
      RunsIf (.cmpi h o) h { siPorts o with grds := [o.imm.toNat / 2 ^ 24 % 8] } isAct fun m a =>
        let b := condHolds (o.imm.toNat / 2 ^ 20 % 16) (a.v 0) ((o.imm.extractLsb' 0 20).signExtend 64)
        (m.put o.dst true (if b then 1 else 0) a.valid).str fun t => t.setGuard (o.imm.toNat / 2 ^ 24 % 8) b) ∧
    (∀ o : SI, o.imm.getLsbD 27 = true →
      RunsIf (.cmpi h o) h (siPorts o) isAct fun m a =>
        let b := condHolds (o.imm.toNat / 2 ^ 20 % 16) (a.v 0) ((o.imm.extractLsb' 0 20).signExtend 64)
        (m.put o.dst true (if b then 1 else 0) a.valid).ctx fun k =>
          { k with vec := k.vec.setMaskRows (o.imm.toNat / 2 ^ 24 % 8) (List.replicate 16 (if b then BitVec.allOnes 64 else 0)) }) ∧
    (∀ (o : S3) (q : SI),
      RunsIf (.cmp h o) h { s3Ports o with grds := if o.fn.getLsbD 7 then [] else [o.fn.toNat / 16 % 8] } isOff (fun m _ => m.put o.dst false 0 false) ∧
      RunsIf (.cmpi h q) h { siPorts q with grds := if q.imm.getLsbD 27 then [] else [q.imm.toNat / 2 ^ 24 % 8] } isOff
        (fun m _ => m.put q.dst false 0 false) ∧
      RunsIf (.gop h o) h (gopPorts o) (fun _ a => a.act = false ∧ o.fn.toNat / 16 % 4 ≠ 1) nothing) ∧
    (∀ o : S3, o.fn.toNat / 16 % 4 = 0 →
      RunsIf (.gop h o) h (gopPorts o) isAct fun m _ =>
        m.str fun t => t.setGuard o.dst.toNat
          (o.fn.getLsbD (2 * b2n (m.t.guard o.s1.toNat) + b2n (m.t.guard o.s2.toNat)))) ∧
    (∀ o : S3, o.fn.toNat / 16 % 4 = 1 → Runs (.gop h o) h (gopPorts o) (writes o.dst fun m _ => (m.t.guards ||| 1).setWidth 64)) ∧
    (∀ o : S3, o.fn.toNat / 16 % 4 = 2 →
      RunsIf (.gop h o) h (gopPorts o) isAct fun m a => m.str fun t => { t with guards := (a.v 0).setWidth 8 ||| 1 }) ∧
    (∀ o : S3, Runs (.sel h o) h { s3Ports o with grds := [o.fn.toNat % 8] }
      (writes o.dst fun m a => if m.t.guard (o.fn.toNat % 8) != o.fn.getLsbD 3 then a.v 0 else a.v 1))

/-- R62, R65, R116, R119, R120, R127 to R129: where the operands of a word come from and where a scalar result goes. An operand is
the stream's register, the entry popped from its queue (0 when that is invalid), the iteration index or 0, as its specifier says,
and the queues named lose the entries popped. A register takes the result under a true guard and keeps its value under a false
one; a queue takes one entry, which is invalid under a false guard or an invalid source; the specifier 48 takes nothing. That an
invalid entry holds zero (R116), where R129 speaks of the value computed, is the model's reading (log 33, DEDUCED). Nothing else of the device changes, no other context, no other stream, no other register of the
stream, and no queue or FIFO that the word does not name: `Mach.gives` is the next state of every word that
`ArithmeticWordsWriteTheirResult`, `LogicWordsWriteTheirResult`, `ImmediateWordsWriteTheirResult` and
`BitFieldWordsWriteTheirResult` name. -/
def Obligations.ScalarResultsReachTheirDestinationAlone : Prop :=
  (∀ s m i h p x v, AtTurn s m i h p → x ∈ p.dsts →
    let t := m.gives h p x v
    ScalarFrame s m h p x t ∧
    (isR x = true → ∃ k, t.ctx? s.md.cur = some k ∧
      (k.str m.st).reg x.toNat = if (m.opnds h p).act then v else m.t.reg x.toNat) ∧
    (isQ x = true → ∃ k, t.ctx? s.md.cur = some k ∧
      k.sq? (qNum x) = (m.taken h p).k.sq? (qNum x) ++
        [.full ⟨if (m.opnds h p).act && (m.opnds h p).valid then v else 0, (m.opnds h p).act && (m.opnds h p).valid⟩])) ∧
  (∀ s m i h p, AtTurn s m i h p →
    let a := m.opnds h p
    a.act = m.active h ∧ a.valid = a.valids.all id ∧
    (∀ n x, p.srcs[n]? = some x →
      (isR x = true → a.v n = m.t.reg x.toNat ∧ a.valids[n]? = some true) ∧
      (isQ x = true → ∃ e, (m.k.sq? (qNum x))[countIn x (p.srcs.take n)]? = some (.full e) ∧
        a.v n = (if e.valid then e.val else 0) ∧ a.valids[n]? = some e.valid) ∧
      (x = 48 → a.v n = 0 ∧ a.valids[n]? = some true) ∧
      (x = 49 → a.v n = m.t.it h.ms.toNat ∧ a.valids[n]? = some true)) ∧
    (∀ x ∈ p.srcs, isQ x = true → (m.taken h p).k.sq? (qNum x) = (m.k.sq? (qNum x)).drop (countIn x p.srcs)))

/-- R62, R112, R115: what a word does beside its own effect, whatever that is: before it, its tokens and queue sources are
popped; after it, its tokens are pushed and its stream goes on. Nothing else of the device changes, no other context, no other
stream, no register of the stream, no entry of a queue. With it, each statement that says what the machine becomes says what the
word leaves as it was. -/
def Obligations.AWordChangesNothingBesideItsEffect : Prop :=
  (∀ s m i h p, AtTurn s m i h p →
    let m' := m.taken h p
    m'.s = m.s ∧ m'.st = m.st ∧ m.x = s.md.cur ∧ SameDevice s m.s ∧ SameButStream m.k m'.k m.st ∧ SameButReg m.t m'.t 48 ∧
    (∀ q, (∀ y ∈ p.srcs, isQ y = true → qNum y ≠ q) → m'.k.sq? q = m.k.sq? q) ∧
    (∀ q, q ∉ p.rowSrcs → m'.k.rq? q = m.k.rq? q) ∧ (∀ n, n ∉ fifosIn m.st h.pb → m'.k.tokens n = m.k.tokens n)) ∧
  (∀ (m : Mach) h,
    let t := m.completed h
    SameDevice m.s t ∧ (∀ y, ctxKey y ≠ ctxKey m.x → t.ctx? y = m.s.ctx? y) ∧
    ∃ k, t.ctx? m.x = some k ∧ SameButStream m.k k m.st ∧ SameButReg m.t (k.str m.st) 48 ∧ k.sq = m.k.sq ∧ k.rq = m.k.rq ∧
      (∀ n, n ∉ fifosOut m.st h.pa → k.tokens n = m.k.tokens n))

/-- R60, R128, R129, R131, R276, R309: words under a false guard, beside those whose statements say it. They pop what they name and have
no effect of their own; where a word delivers results, its registers keep their values and its queues take an invalid entry; an
engine word takes its number, and a record of status 0x01 where it produces records. -/
def Obligations.WordsUnderAFalseGuard : Prop :=
  ∀ h,
    (∀ o : H,
      RunsIf (.hstep h o) h { Ports.none with srcs := [o.cnt] } isOff nothing ∧ RunsIf (.hmark h o) h Ports.none isOff nothing ∧
      RunsIf (.hrew h o) h Ports.none isOff nothing ∧ RunsIf (.hbind h o) h { Ports.none with srcs := [o.cnt] } isOff nothing ∧
      RunsIf (.hunb h o) h Ports.none isOff nothing ∧ RunsIf (.tflsh h o) h Ports.none isOff nothing) ∧
    (∀ o : MF, RunsIf (.mswap h o) h Ports.none isOff nothing ∧ RunsIf (.mzero h o) h Ports.none isOff nothing) ∧
    (∀ o : S3, RunsIf (.tksig h o) h { Ports.none with srcs := [o.s1] } isOff nothing) ∧
    (let none_ : Instr → Ports → BitVec 6 → Prop := fun i p x => RunsIf i h p isOff fun m _ => m.put x false 0 false
     (∀ o : S3,
       none_ (.topen h o) (s3Ports o) o.dst ∧ none_ (.tseal h o) (s3Ports1 o) o.dst ∧ none_ (.tstat h o) (s3Ports1 o) o.dst ∧
       none_ (.lbind h o) (s3Ports o) o.dst ∧ none_ (.acq h o) (s3Ports1 o) o.dst ∧ none_ (.rel h o) (s3Ports1 o) o.dst ∧
       none_ (.waitw h o) (s3Ports1 o) o.dst ∧ none_ (.gbar h o) { Ports.none with dsts := [o.dst] } o.dst ∧
       none_ (.wbind h o) (s3Ports o) o.dst ∧ none_ (.wrel h o) { Ports.none with dsts := [o.dst] } o.dst ∧ none_ (.eva h o) (s3Ports1 o) o.dst) ∧
     (∀ o : SI, none_ (.wadv h o) { Ports.none with srcs := [o.s1], dsts := [o.dst] } o.dst) ∧
     (∀ o : L, none_ (.satom h o) (atomPorts o) o.data ∧ none_ (.gatom h o) (atomPorts o) o.data ∧
       RunsIf (.ldw h o) h (loadPorts o) isOff
         (fun m _ => if o.sz = 7 then m.ctx fun k => k.pushR (qNum o.data) zeroRow 0 else m.put o.data false 0 false))) ∧
    (∀ (o : E),
      let skip : Instr → Ports → Nat → Prop := fun i p opc => RunsIf i h p
        (fun m a => a.act = false ∧ (producesRec opc = true → m.k.recsOut (engOf opc) < recDepth (engOf opc))) (fun m _ => m.skipCmd opc none)
      skip (.cpym h o) (ePorts o) 0x58 ∧ skip (.cpys h o) (ePorts o) 0x59 ∧ skip (.cgth h o) (ePorts o) 0x5A ∧ skip (.csct h o) (ePorts o) 0x5B ∧
      skip (.cpgi h o) { Ports.none with srcs := [o.o1, o.o2] } 0x5C ∧ skip (.rput h o) (ePorts o) 0x5D ∧ skip (.rget h o) (ePorts o) 0x5E ∧
      skip (.gadd h o) { Ports.none with srcs := [o.o1, o.o2] } 0x5F ∧ skip (.gred h o) (ePorts o) 0x62 ∧ skip (.gaxpy h o) (ePorts o) 0x63 ∧
      skip (.gamo h o) { Ports.none with srcs := [o.o1, o.o2] ++ (if o.fl.toNat / 64 = 4 then [o.o3] else []) } 0x60 ∧
      skip (.gqop h o) { Ports.none with srcs := [o.o1, o.o2] } 0x61 ∧ skip (.gfen h o) Ports.none 0x64 ∧ skip (.spk h o) (ePorts o) 0x6E ∧
      skip (.tkenq h o) { Ports.none with srcs := [o.o1, o.o2] } 0x72) ∧
    (∀ (o : S3),
      let two : Mach → Mach := fun m => (m.put o.dst false 0 false).put o.s1 false 0 false
      let off : Mach → Opnds → Prop := fun m a => a.act = false ∧
        (isQ o.dst = true → o.dst = o.s1 → 2 ≤ freeSlots (qNum o.dst) (m.k.sq? (qNum o.dst)))
      (o.fn.toNat % 4 ≠ 1 → RunsIf (.deq h o) h (ports2 o) off fun m _ => two m) ∧
      RunsIf (.evw h o) h (ports2 o) off (fun m _ => two (m.ctx Ctx.closeRun)) ∧
      RunsIf (.evq h o) h (ports2 o) off (fun m _ => two (m.ctx Ctx.closeRun))) ∧
    (∀ (o : E),
      let skip : Instr → Ports → Nat → Option (BitVec 6) → Prop := fun i p opc out => RunsIf i h p
        (fun m a => a.act = false ∧ m.k.eng.eqFail = none ∧
          (producesRec opc = true → (m.ctx Ctx.closeRun).k.recsOut (engOf opc) < recDepth (engOf opc)))
        (fun m _ => (if opc = 0x66 then m else m.ctx Ctx.closeRun).skipCmd opc out)
      skip (.eqclr h o) { Ports.none with srcs := [o.o1, o.o2] } 0x65 none ∧ skip (.equ h o) { Ports.none with srcs := [o.o1, o.o2] } 0x66 none ∧
      skip (.eqf h o) { Ports.none with srcs := [o.o2], dsts := [o.o1] } 0x67 (some o.o1) ∧
      skip (.eqz h o) { Ports.none with srcs := o.o2 :: (if o.fl.getLsbD 3 then [o.o3] else []), dsts := [o.o1] } 0x68 (some o.o1) ∧
      skip (.eqsnp h o) { Ports.none with dsts := [o.o1] } 0x6A (some o.o1) ∧ skip (.eqund h o) { Ports.none with srcs := [o.o1] } 0x6B none ∧
      (eqrQueue o.fl = none → skip (.eqr h o) (eqrPorts o) 0x69 none))

/-- R77, R92, R124, R143: the transfers. Under a true guard a stream goes on at the target, which is the word's address, or
S1, plus 8 × OFF; CALL leaves the address of the next word; BRQ goes on with the next word when its entry is invalid or 0.
Under a false guard a stream goes on with the next word. A target that is no multiple of 8 takes cause 0x01. -/
def Obligations.TransfersOfControl : Prop :=
  ∀ h (o : SB),
    let to_ : Word → Word := fun base => base + 8 * o.off.signExtend 64
    let src : Ports := { Ports.none with srcs := [o.s1] }
    let ok : Word → Prop := fun w => w.toNat % 8 = 0
    MovesIf (.br h o) h Ports.none (fun m a => a.act = true ∧ ok (to_ m.t.pc)) (fun m _ => m.jump (to_ m.t.pc)) ∧
    RunsIf (.br h o) h Ports.none isOff nothing ∧
    MovesIf (.call h o) h { Ports.none with dsts := [o.s1] } (fun m a => a.act = true ∧ ok (to_ m.t.pc))
      (fun m _ => (m.put o.s1 true (m.t.pc + 8) true).jump (to_ m.t.pc)) ∧
    RunsIf (.call h o) h { Ports.none with dsts := [o.s1] } isOff nothing ∧
    MovesIf (.ret h o) h src (fun _ a => a.act = true ∧ ok (a.v 0)) (fun m a => m.jump (a.v 0)) ∧
    RunsIf (.ret h o) h src isOff nothing ∧
    TrapsIf (.ret h o) h src (fun _ a => a.act = true ∧ ¬ ok (a.v 0)) (fun _ a => (0x01, a.v 0)) ∧
    MovesIf (.jmpr h o) h src (fun _ a => a.act = true ∧ ok (to_ (a.v 0))) (fun m a => m.jump (to_ (a.v 0))) ∧
    RunsIf (.jmpr h o) h src isOff nothing ∧
    TrapsIf (.jmpr h o) h src (fun _ a => a.act = true ∧ ¬ ok (to_ (a.v 0))) (fun _ a => (0x01, to_ (a.v 0))) ∧
    MovesIf (.brq h o) h src (fun m a => a.act = true ∧ a.valid = true ∧ a.v 0 ≠ 0 ∧ ok (to_ m.t.pc)) (fun m _ => m.jump (to_ m.t.pc)) ∧
    RunsIf (.brq h o) h src (fun _ a => a.act = false ∨ a.valid = false ∨ a.v 0 = 0) nothing

/-- R93, R121, R123: MODL with a legal body of LEN words starts round 0 of TRIP + S rounds, S the highest stage of a word; a trip of
0 goes on behind the body. A word of the body that lies outside the text, decodes to no instruction, may not stand in a body or
belongs to another cluster makes it illegal: MODL takes cause 0x03 with that word's address, and has no effect; so does a word
that R91 or R406 forbids at the stream's level (log 54, the model's choice). -/
def Obligations.ModuloLoopsStart : Prop :=
  (∀ (m : Mach) n a st, m.k.bd.inText m.st a = false → m.checkBody (n + 1) a st = .trap 0x03 a) ∧
  (∀ (m : Mach) n a st w m', m.k.bd.inText m.st a = true → m.fetchAt a = (.word w, m') →
    ((∀ i, decode w ≠ .ok i) → m.checkBody (n + 1) a st = .trap 0x03 a) ∧
    (∀ i, decode w = .ok i → i.hdr? = none → m.checkBody (n + 1) a st = .trap 0x03 a) ∧
    (∀ i h, decode w = .ok i → i.hdr? = some h →
      let bad := bodyForbids i = true ∨ h.cl ≠ m'.st.cl ∨ (m'.t.plev = false ∧ privilegedAtU i m'.k.sr.pkmask = true)
      (bad → m.checkBody (n + 1) a st = .trap 0x03 a) ∧
      (¬ bad → m.checkBody (n + 1) a st = m'.checkBody n (a + 8) (max st h.ms.toNat)))) ∧
  (∀ h (o : ML) c at_, TrapsIf (.modl h o) h { Ports.none with srcs := [o.trip] }
    (fun m _ => m.checkBody o.len.toNat (m.t.pc + 8) 0 = .trap c at_) (fun _ _ => (c, at_))) ∧
  ∀ h (o : ML) st,
    let len := o.len.toNat
    let trip : Opnds → Nat := fun a => if a.act then min (a.v 0).toNat (2 ^ 64 - 8) else 0
    MovesIf (.modl h o) h { Ports.none with srcs := [o.trip] } (fun m a => m.checkBody len (m.t.pc + 8) 0 = .ok st ∧ trip a ≠ 0)
      (fun m a => (m.jump (m.t.pc + 8)).str fun t =>
        { t with mloop := mlMake true st len o.ii.toNat 0, mround := 0, mtrip := BitVec.ofNat 64 (trip a), inBody := true }) ∧
    MovesIf (.modl h o) h { Ports.none with srcs := [o.trip] } (fun m a => m.checkBody len (m.t.pc + 8) 0 = .ok st ∧ trip a = 0)
      (fun m _ => m.jump (m.t.pc + BitVec.ofNat 64 (8 * (len + 1))))

/-- R114, R117, R125, R144, R406: QSTAT, SRR and PKW write what they read; a QSTAT counts the slot that its own push has reserved as
taken, and in a rendezvous it sees the queues as they stood before the set, its own tokens popped; PKW sets the two bits of its key
under a true guard, and none under a false one. How far a read of sr.time may lag is a free value within the bounds that R399 gives
(log 4). -/
def Obligations.StateReadingWords : Prop :=
  ∀ h,
    (∀ o : S3, Runs (.qstat h o) h { Ports.none with dsts := [o.dst] }
      (fun m a =>
        m.put o.dst a.act ((if isQ o.dst then ((m.seen h).reserveS (qNum o.dst)).2 else m.seen h).qstat (o.fn.getLsbD 5) (o.fn.toNat % 16)) true)) ∧
    (∀ m : Mach, m.s.md.view = none → m.seen h = m.k) ∧
    (∀ (m : Mach) k, m.s.md.view = some k → (k.str m.st).owed = 0 → m.seen h = k.popTokens (fifosIn m.st h.pb)) ∧
    (∀ o : SI, o.srIndex ≠ 0x00A → Runs (.srr h o) h { Ports.none with dsts := [o.dst] } (writes o.dst fun m _ => m.srValue o.srIndex)) ∧
    (∀ o : SI, o.srIndex = 0x00A → Runs (.srr h o) h { Ports.none with dsts := [o.dst] } fun m a =>
      (if a.act then { m with s := { m.s with md := { m.s.md with timeSeen := m.s.timeRead } } } else m).put o.dst a.act (W m.s.timeRead) a.valid) ∧
    (∀ s : State, s.md.timeSeen ≤ s.timeRead ∧ (s.md.timeSeen ≤ s.time → s.timeRead ≤ s.time) ∧ s.time ≤ s.timeRead + 8) ∧
    (∀ o : S3, RunsIf (.pkw h o) h (s3Ports1 o) isAct fun m a =>
      let key := o.fn.toNat % 32
      (m.put o.dst true ((m.k.sr.pkp >>> (2 * key)) &&& 3) a.valid).ctx fun k => { k with sr := { k.sr with pkp := pkpSet k.sr.pkp key (a.v 0) } }) ∧
    (∀ o : S3, RunsIf (.pkw h o) h (s3Ports1 o) isOff fun m _ => m.put o.dst false 0 false)

/-- R35, R38, R51, R71, R123, R144, R246, R280, R328, R366, R372, R397, R398, R407: what a write of a special register stores, by SRW
under a true guard, those of the equivalence engine once its commands have left; a written register reads back what its rule
keeps, and one that is not writable keeps its value; a write of a register of the equivalence engine empties the undo log and
disarms every watch. sr.inject is ignored without the tst bit, and stores its fields without go. -/
def Obligations.SpecialRegisterWrites : Prop :=
  (∀ h (o : SI),
    let p : Ports := { Ports.none with srcs := [o.s1], resumes := fun p => o.srIndex == 0x107 && p.k == 0 && p.n == 0 }
    let clear : Mach → Prop := fun m => eqSr o.srIndex = true → m.k.eqBusy = false ∧ m.k.eng.running = false
    RunsIf (.srw h o) h p (fun m a => a.act = true ∧ clear m ∧ o.srIndex ≠ 0x107) (fun m a => m.srWrite o.srIndex (a.v 0)) ∧
    RunsIf (.srw h o) h p (fun m a => a.act = false ∧ clear m) nothing ∧
    RunsIf (.srw h o) h p (fun m a => a.act = true ∧ o.srIndex = 0x107 ∧ m.k.sr.tst = false) nothing ∧
    RunsIf (.srw h o) h p (fun m a => a.act = true ∧ o.srIndex = 0x107 ∧ m.k.sr.tst = true ∧ bitAt (a.v 0) 63 = false)
      (fun m a => m.ctx fun k => { k with sr := { k.sr with
        inject := keep (a.v 0) 57 56 ||| keep (a.v 0) 53 6 ||| keep k.sr.inject 62 62, injecting := false } })) ∧
  (∀ (m : Mach) (v : Word),
    (m.srWrite 0x101 v).srValue 0x101 = v &&& 0xFF ∧ (m.srWrite 0x102 v).srValue 0x102 = v &&& 0x003FFFFFFFFFFFF8 ∧
    (m.srWrite 0x103 v).srValue 0x103 = v ∧ (m.srWrite 0x104 v).srValue 0x104 = v &&& 0x003FFFFFFFFFFFF9 ∧
    (m.srWrite 0x118 v).srValue 0x118 = v ∧ (m.srWrite 0x119 v).srValue 0x119 = v ∧
    (m.srWrite 0x004 v).srValue 0x004 = v &&& 0xF ∧ (m.srWrite 0x108 v).srValue 0x108 = v &&& 0xFFFFFFFF ∧
    (∀ n ∈ [0x005, 0x006, 0x007, 0x008, 0x009, 0x00C, 0x00D, 0x025, 0x105, 0x106, 0x109], (m.srWrite n v).srValue n = m.srValue n)) ∧
  (∀ (m : Mach) (v : Word),
    (m.srWrite 0x001 v).k.sr.flags = v.setWidth 5 ∧ bits ((m.srWrite 0x001 v).srValue 0x001) 0 5 = bits v 0 5 ∧
    bits ((m.srWrite 0x001 v).srValue 0x001) 8 9 = bits (m.srValue 0x001) 8 9 ∧
    (m.srWrite 0x002 v).srValue 0x002 = (if 5 ≤ v.toNat % 8 then v &&& 0x78 else v &&& 0x7F) ∧
    (m.srWrite 0x003 v).srValue 0x003 = (if v.toNat % 2 ^ 32 = 0 then 1 else v &&& 0xFFFFFFFF) ∧
    (m.srWrite 0x00B v).srValue 0x00B = BitVec.ofNat 64 (min (2 ^ 30) (max 64 (v.toNat % 2 ^ 32))) ∧
    (∀ p < 16, (m.srWrite (0x10 + p) v).srValue (0x10 + p) = v &&& 0xFFFFFF) ∧
    (m.srWrite 0x020 v).srValue 0x020 = v &&& 0xFF ∧ (m.srWrite 0x021 v).srValue 0x021 = v &&& 0xFF ∧
    (m.srWrite 0x026 v).srValue 0x026 = (m.srValue 0x026 &&& 0x1F00000000) ||| (v &&& 0x1F7FFFC0) ∧
    (m.srWrite 0x027 v).srValue 0x027 = BitVec.ofNat 64 (bits v 16 8 * 2 ^ 16 + bits v 8 8 * 2 ^ 8 + m.k.evq.length) ∧
    (m.srWrite 0x110 v).srValue 0x110 = (let w := v &&& 0xFFFFFC0000000000
      if bitAt w 63 = true ∧ (bits w 54 6 ≤ bits w 42 6 ∨ bits w 54 6 = 0 ∨ bits w 48 6 = 0) then m.srValue 0x110 else w) ∧
    (m.srWrite 0x111 v).srValue 0x111 = v ∧ (m.srWrite 0x112 v).srValue 0x112 = v ∧
    (m.srWrite 0x113 v).srValue 0x113 = (if v.toNat % 128 = 0 then 0 else v &&& 0x800000000000007F) ∧
    (m.srWrite 0x114 v).srValue 0x114 = v &&& 0x800000000000FFFF) ∧
  (∀ (m : Mach) (v : Word),
    (m.srWrite 0x022 v).srValue 0x022 = BitVec.ofNat 64 (min (bits v 32 21) (2 ^ 20) * 2 ^ 32) ||| (v &&& 0x3FFFFC) ∧
    (m.srWrite 0x023 v).srValue 0x023 = v &&& 0x3FFFFC ∧
    (m.srWrite 0x024 v).srValue 0x024 = (if bits v 32 4 < 4 then 0 else v &&& 0xF00000000) ||| (v &&& 0x3FFFF0) ∧
    ∀ n ∈ [0x022, 0x023, 0x024], (m.srWrite n v).srValue 0x025 = 0 ∧ ∀ w < 8, bitAt ((m.srWrite n v).srValue (0x28 + w)) 63 = false)

/-- R145 to R148, R431: NOP has no effect; YIELD offers the core; WAIT with a delay lets the stream sleep until its time is
over, and with kind 1 waits until every earlier word has completed; HALT, when its stream is drained and there is room for
its pushes, halts its stream. Under a false guard they have no effect; an A-stream HALT closes a run of unions then too. -/
def Obligations.StreamControlWords : Prop :=
  ∀ h,
    (∀ o : S3, Runs (.nop h o) h Ports.none nothing) ∧
    (∀ o : S3, Runs (.yield h o) h Ports.none fun m a => if a.act then m.offerSwitch else m) ∧
    (∀ o : SI, o.imm.toNat / 2 ^ 28 = 0 → RunsIf (.wait h o) h { Ports.none with srcs := [o.s1] } isAct fun m a =>
      let d := min ((a.v 0).toNat + o.imm.toNat % 2 ^ 28) (2 ^ 32)
      if d = 0 then m else m.str fun t => { t with wakeAt := some (BitVec.ofNat 64 (m.s.time + d)) }) ∧
    (∀ o : SI, o.imm.toNat / 2 ^ 28 = 0 → RunsIf (.wait h o) h { Ports.none with srcs := [o.s1] } isOff nothing) ∧
    (∀ o : S3, RunsIf (.halt h o) h haltPorts (fun m a => a.act = false ∧ m.st ≠ .A) nothing ∧
      RunsIf (.halt h o) h haltPorts (fun m a => a.act = false ∧ m.st = .A ∧ m.k.eng.eqFail = none) (fun m _ => m.ctx Ctx.closeRun)) ∧
    (∀ o : SI, o.imm.toNat / 2 ^ 28 ≠ 0 → RunsIf (.wait h o) h Ports.none (fun m a => a.act = false ∨ m.drained = true) nothing) ∧
    (∀ o : S3, RunsIf (.halt h o) h haltPorts
      (fun m a => a.act = true ∧ m.drained = true ∧ m.k.roomFor (fifosOut m.st h.pa) = true ∧ m.st ≠ .A)
      (fun m _ => (m.str fun t => { t with halted := true }).offerIfIdle)) ∧
    (∀ o : S3, RunsIf (.halt h o) h haltPorts
      (fun m a => a.act = true ∧ m.drained = true ∧ m.k.roomFor (fifosOut m.st h.pa) = true ∧ m.st = .A ∧ m.k.eng.eqFail = none)
      (fun m _ => ((m.ctx Ctx.closeRun).str fun t => { t with halted := true }).offerIfIdle))

/-- R60, R62, R119, R141, R150: what is hard-wired. g0 reads 1 and k0 reads all ones whatever is written; the specifier 48 reads
0 and takes nothing; a modulo stage of 0 outside a body reads index 0. -/
def Obligations.HardWiredState : Prop :=
  (∀ (t : StreamSt) n b, (t.setGuard n b).guard 0 = true) ∧ (∀ (v : VecSt) n r b r', (v.setMask n r b).mask 0 r' = BitVec.allOnes 64) ∧
  (∀ (k : Ctx) st it, k.source st it 48 = (0, true, k)) ∧ (∀ (m : Mach) act v b, m.put 48 act v b = m) ∧
  (∀ (t : StreamSt), t.inBody = false → t.it 0 = 0)

/-- R48, R159, R160: VADD, VSUB, VMUL, VFMA and VFMS on floating-point types compute exactly and round once in the stream's
mode; on integer types they compute modulo the width. VMIN and VMAX pick by the order of the codes. A word none of whose
flags is enabled to trap completes. -/
def Obligations.VectorArithmeticCompletes : Prop :=
  ∀ h (o : V3),
    let ty := o.ty.toNat
    let w := tyWidth ty
    let val : List Nat → Nat → FVal := fun c i => (tyFmt ty).decode (c.getD i 0)
    let int : List Nat → Nat → Int := fun c i => Int.ofNat (c.getD i 0)
    let out : Mach → FVal × BitVec 5 → Int → RRes := fun m x i =>
      if ty ≤ 2 then ⟨(arithRound (tyFmt ty) m.rmode x).1, (arithRound (tyFmt ty) m.rmode x).2, .none⟩
      else ⟨(i % 2 ^ w).toNat, 0, .none⟩
    let md : Mach → Nat := fun m => arithMode m.rmode
    ElemRuns (.vadd h o) h o 2 ty w (fun m c => out m (fAdd (md m) (val c 0) (val c 1)) (int c 0 + int c 1)) ∧
    ElemRuns (.vsub h o) h o 2 ty w (fun m c => out m (fAdd (md m) (val c 0) (val c 1).neg) (int c 0 - int c 1)) ∧
    ElemRuns (.vmul h o) h o 2 ty w (fun m c => out m (fMul (val c 0) (val c 1)) (int c 0 * int c 1)) ∧
    ElemRuns (.vfma h o) h o 3 ty w (fun m c => out m (fFma (md m) (val c 0) (val c 1) (val c 2)) (int c 0 * int c 1 + int c 2)) ∧
    ElemRuns (.vfms h o) h o 3 ty w (fun m c => out m (fFma (md m) (val c 0) (val c 1) (val c 2).neg) (int c 0 * int c 1 - int c 2)) ∧
    ElemRuns (.vmin h o) h o 2 ty w (fun _ c => ⟨(pick false ty (c.getD 0 0) (c.getD 1 0)).1, (pick false ty (c.getD 0 0) (c.getD 1 0)).2, .none⟩) ∧
    ElemRuns (.vmax h o) h o 2 ty w (fun _ c => ⟨(pick true ty (c.getD 0 0) (c.getD 1 0)).1, (pick true ty (c.getD 0 0) (c.getD 1 0)).2, .none⟩)

/-- R159, R161, R167, R168, R171: the words that compute codes from codes: sign, logic, shifts by S2 modulo the width, the
special functions, table look-ups, and conversions: in a mode that draws, each element written takes the next draw of sr.lfsr. -/
def Obligations.VectorCodeWordsComplete : Prop :=
  ∀ h (o : V3),
    let ty := o.ty.toNat
    let w := tyWidth ty
    let a : List Nat → Nat := fun c => c.getD 0 0
    let b : List Nat → Nat := fun c => c.getD 1 0
    let signed : Nat → Int := fun c => if 2 ^ (w - 1) ≤ c then Int.ofNat c - 2 ^ w else Int.ofNat c
    let code : Nat → RRes := fun c => ⟨c, 0, .none⟩
    ElemRuns (.vabs h o) h o 1 ty w (fun _ c => code (if ty ≤ 2 then a c % 2 ^ (w - 1) else if tyUnsigned ty then a c
      else (Int.ofNat (signed (a c)).natAbs % 2 ^ w).toNat)) ∧
    ElemRuns (.vneg h o) h o 1 ty w (fun _ c => code (if ty ≤ 2 then a c ^^^ 2 ^ (w - 1) else (-(Int.ofNat (a c)) % 2 ^ w).toNat)) ∧
    ElemRuns (.vand h o) h o 2 ty w (fun _ c => code (a c &&& b c)) ∧
    ElemRuns (.vor h o) h o 2 ty w (fun _ c => code (a c ||| b c)) ∧
    ElemRuns (.vxor h o) h o 2 ty w (fun _ c => code (a c ^^^ b c)) ∧
    ElemRuns (.vshl h o) h o 2 ty w (fun _ c => code ((a c <<< (b c % w)) % 2 ^ w)) ∧
    ElemRuns (.vshr h o) h o 2 ty w (fun _ c => code (a c >>> (b c % w))) ∧
    ElemRuns (.vsra h o) h o 2 ty w (fun _ c => code ((signed (a c) / 2 ^ (b c % w)) % 2 ^ w).toNat) ∧
    ElemRuns (.vrcp h o) h o 1 0 32 (fun m c => ⟨(specialF32 0 m.rmode (a c)).1, (specialF32 0 m.rmode (a c)).2, .none⟩) ∧
    ElemRuns (.vsqrt h o) h o 1 0 32 (fun m c => ⟨(specialF32 1 m.rmode (a c)).1, (specialF32 1 m.rmode (a c)).2, .none⟩) ∧
    ElemRuns (.vrsq h o) h o 1 0 32 (fun m c => ⟨(specialF32 2 m.rmode (a c)).1, (specialF32 2 m.rmode (a c)).2, .none⟩) ∧
    ElemRuns (.vexp2 h o) h o 1 0 32 (fun m c => ⟨(specialF32 3 m.rmode (a c)).1, (specialF32 3 m.rmode (a c)).2, .none⟩) ∧
    ElemRuns (.vlog2 h o) h o 1 0 32 (fun m c => ⟨(specialF32 4 m.rmode (a c)).1, (specialF32 4 m.rmode (a c)).2, .none⟩) ∧
    ElemRuns (.vtbl h o) h o 1 ty 8 (fun m c => code (if o.ty = 0 then (tget 0 m.k.vec.tbl (a c)).toNat * 2 ^ 16 else (tget 0 m.k.vec.tbl (a c)).toNat)) ∧
    (let src := parSel o.s2
     VRunsIf (.vcvt h o) h o (vf1 o src) false (rowShaped (vf1 o src) o false)
       (fun m v => m.rmField (parRm o.s2).toNat ≠ 4 ∧
         m.calm o v 1 (tyWidth src) fun c => cvtElem src ty (m.rmField (parRm o.s2).toNat) m.sat5 (a c) 0)
       (fun m v => m.elems o v 1 (tyWidth src) fun c => cvtElem src ty (m.rmField (parRm o.s2).toNat) m.sat5 (a c) 0)) ∧
    (let src := parSel o.s2
     let drawn : Mach → VIn → List (List RRes) × BitVec 32 := fun m v =>
       elemRows (v.writes (v3Pushes o)) (fun r l s => (cvtElem src ty 4 m.sat5 ((v.elem 0 r l).toNat % 2 ^ tyWidth src) (lfsrDraw s).1,
         (lfsrDraw s).2)) v.n 0 m.k.sr.lfsr
     VRunsIf (.vcvt h o) h o (vf1 o src) false (rowShaped (vf1 o src) o false)
       (fun m v => m.rmField (parRm o.s2).toNat = 4 ∧ trapsOn m.t.fpmode (rowsFlags (drawn m v).1) = false)
       (fun m v => (((m.putV o v v.valid (rowsLanes (drawn m v).1)).ctx fun k => { k with sr := { k.sr with lfsr := (drawn m v).2 } }).count
         (m.k.sr.vtid.toNat % 256) ((drawn m v).1.flatMap fun x => x.map (·.ev))).raise (rowsFlags (drawn m v).1)))

/-- R60, R128, R162 to R166: the words on masks, and VSEL. VCMP and KMOV write the bits of a mask under the effective mask, KOP
combines two masks, KPOP counts, VSEL chooses every element by the effective mask. That a VSEL under G = 0 with GN = 1 writes none,
as R60 says of such a word, is the model's reading (log 54, DEDUCED). -/
def Obligations.VectorMaskWordsComplete : Prop :=
  ∀ h (o : V3),
    let ty := o.ty.toNat
    let w := tyWidth ty
    let bit : Mach → Nat → Nat → Nat → Nat := fun m n r l => b2n ((m.k.vec.mask n r).getLsbD l)
    let cmp : VIn → Nat → Nat → Bool × BitVec 5 := fun v r l =>
      vCompare ty (o.dst.toNat / 8) ((v.elem 0 r l).toNat % 2 ^ w) ((v.elem 1 r l).toNat % 2 ^ w)
    VRunsIf (.vcmp h o) h o (vf2 o ty) false (rowShaped (vf2 o ty) o false)
      (fun m v => trapsOn m.t.fpmode (maskFlags v fun r l => (cmp v r l).2) = false)
      (fun m v => (m.putMask (o.dst.toNat % 8) v fun r l => (cmp v r l).1).raise (maskFlags v fun r l => (cmp v r l).2)) ∧
    Runs (.kop h o) h Ports.none (fun m _ =>
      m.putMask (o.dst.toNat % 8) ⟨[], 16, effMask m.k.vec h, BitVec.allOnes 64⟩ fun r l =>
        (o.s2.toNat / 16).testBit (2 * bit m (o.s1.toNat % 8) r l + bit m (o.s2.toNat % 8) r l)) ∧
    RunsIf (.kpop h o) h Ports.none (fun m _ => m.active h = true) (fun m _ => m.str fun t => t.setReg o.dst.toNat
      (W ((upTo 16).map fun r => popCount 64 (m.k.vec.mask (o.s1.toNat % 8) r &&& effMask m.k.vec h r).toNat).sum)) ∧
    VRuns (.kmov h o) h o (vf1 o ty) false (rowShaped (vf1 o ty) o false)
      (fun m v => m.putMask o.dst.toNat v fun r l => (v.elem 0 r l).toNat % 2 ^ w != 0) ∧
    VRuns (.vsel h o) h o (vf2 o ty) false (rowShaped (vf2 o ty) o false)
      (fun m v => if h.g = 0 && h.gn then m else m.putRows o.dst.toNat 0 (fun _ => BitVec.allOnes 64)
        ((upTo v.n).map fun r => (upTo 64).map fun l => if (v.mask r).getLsbD l then v.elem 0 r l else v.elem 1 r l))

/-- R172 to R178: the words that move lanes and rows: each output element is the source element that the rule names. -/
def Obligations.VectorMovesComplete : Prop :=
  ∀ h (o : V3),
    let ty := o.ty.toNat
    let fs := vf1 o ty
    let row := rowShaped fs o false
    let mod : Int → Nat → Nat := fun i k => (i % Int.ofNat k).toNat
    let moved : Mach → VIn → (Nat → Nat → Nat × Nat) → Mach := fun m v at_ =>
      m.putV o v (moveMask fun l => v.valid.getLsbD (at_ 0 l).2)
        ((upTo v.n).map fun r => (upTo 64).map fun l => v.elem 0 (at_ r l).1 (at_ r l).2)
    VRuns (.vrotr h o) h o fs false row (fun m v => moved m v fun r l => (r, mod (Int.ofNat l + m.index o.s2) 64)) ∧
    VRuns (.vrotc h o) h o fs false false (fun m v => moved m v fun r l => (mod (Int.ofNat r + m.index o.s2) 16, l)) ∧
    VRuns (.vbcr h o) h o fs false row (fun m v => moved m v fun r _ => (r, mod (m.index o.s2) 64)) ∧
    VRuns (.vbcc h o) h o fs false false (fun m v => moved m v fun _ l => (mod (m.index o.s2) 16, l)) ∧
    VRuns (.vtrb h o) h o fs false false (fun m v => moved m v fun r l => (l % 16, l / 16 * 16 + r)) ∧
    VRuns (.vmov h o) h o fs false row (fun m v => moved m v fun r l => (r, l)) ∧
    VRuns (.vext h o) h o fs false false (fun m v => m.putV o v v.valid [(upTo 64).map fun l => v.elem 0 (mod (m.index o.s2) 16) l]) ∧
    VRuns (.vins h o) h o fs false true
      (fun m v => m.putRows o.dst.toNat (mod (m.index o.s2) 16) v.mask [(upTo 64).map fun l => v.elem 0 0 l]) ∧
    VRuns (.viota h o) h o [] false (v3Pushes o) (fun m v => m.putV o v v.valid
      ((upTo v.n).map fun r => (upTo 64).map fun l =>
        BitVec.ofNat 32 ((m.index o.s1 + Int.ofNat (64 * r + l)) % 2 ^ tyWidth ty).toNat)) ∧
    VRunsIf (.vspl h o) h o fs false false (fun m _ => m.active h = true) (fun m v => m.str fun t => t.setReg o.dst.toNat
      (let c := (v.elem 0 (mod (m.index o.s2) 1024 / 64) (mod (m.index o.s2) 1024 % 64)).toNat % 2 ^ tyWidth ty
       if ty = 3 || ty = 5 || ty = 7 then WI (sPat (tyWidth ty) c) else W c)) ∧
    VRuns (.vtblw h o) h o (vf1 o 1) false true (fun m v => m.ctx fun k => { k with vec := { k.vec with
      tbl := tblWrite k.vec.tbl (o.dst.toNat % 4) ((upTo 64).map fun l => v.elem 0 0 l) (v.mask 0) } })

/-- R49, R50, R155, R169, R179: the reductions deliver their row, column or scan results, and VQMX its codes with their block scales;
a word none of whose flags is enabled to trap completes. That a lane pushed invalid counts as not written (`VIn.writes`), so that it
raises no flag and takes no draw, is the model's choice (log 56). -/
def Obligations.VectorReductionsComplete : Prop :=
  ∀ h (o : V3),
    let ty := o.ty.toNat
    let sel := parSel o.s2
    let fs := vf1 o ty
    let row := rowShaped fs o false
    let fed : (Nat → Nat → Bool) → VIn → VIn := fun feeds v => { v with valid := fedMask v.valid feeds }
    let inRow : VIn → VIn := fun v => fed (fun _ j => (v.mask 0).getLsbD j) v
    let before : VIn → VIn := fun v => fed (fun l j => decide (j ≤ l) && (v.mask 0).getLsbD j) v
    let block : VIn → VIn := fun v => fed (fun l j => l / 32 == j / 32 && (v.mask 0).getLsbD j) v
    let rowFlags : VIn → BitVec 5 := fun v => (inRow v).redRowsFlags (v3Pushes o) (v.redRows sel ty)
    let scanned : VIn → BitVec 5 := fun v => (before v).scanFlags (v3Pushes o) (v.scanRows sel ty)
    VRunsIf (.vredr h o) h o fs false row (fun m v => trapsOn m.t.fpmode (rowFlags v) = false)
      (fun m v => (m.putV o v (inRow v).valid
        ((v.redRows sel ty).map fun x => List.replicate 64 (BitVec.ofNat 32 x.1))).raise (rowFlags v)) ∧
    VRunsIf (.vredc h o) h o fs false false (fun m v => trapsOn m.t.fpmode (v.redColsFlags (v.redCols sel ty)) = false)
      (fun m v => (m.putV o v v.valid (List.replicate 16 ((v.redCols sel ty).map fun x => BitVec.ofNat 32 x.1))).raise
        (v.redColsFlags (v.redCols sel ty))) ∧
    VRunsIf (.vscanr h o) h o fs false row (fun m v => trapsOn m.t.fpmode (scanned v) = false)
      (fun m v => (m.putV o v (before v).valid
        ((v.scanRows sel ty).map fun x => x.map fun y => BitVec.ofNat 32 y.1)).raise (scanned v)) ∧
    VRunsIf (.vqmx h o) h o fs false row (fun m v => trapsOn m.t.fpmode (m.qmxRows o (block v)).2.1 = false)
      (fun m v => (((m.putV o v (block v).valid (m.qmxRows o (block v)).1).ctx
        fun k => { k with sr := { k.sr with lfsr := (m.qmxRows o (block v)).2.2.2 } }).count (m.k.sr.vtid.toNat % 256)
          (m.qmxRows o (block v)).2.2.1).raise (m.qmxRows o (block v)).2.1)

/-- R65, R67, R69, R70, R150, R152, R153, R155: rows that a V word reads and writes. An operand element that is not read through a
head is the register's, the popped row-queue entry's, the broadcast of a scalar register or the immediate, as its specifier says, of
the lane that the word's lane pattern names for it, and nothing changes but the queues that are popped before. A row of the
destination takes the result in the lanes of the mask and keeps its old value in the others, from row `at_` on; every other
register, every mask, the table, the queues, the other streams and the device keep theirs. Through a queue destination one entry is
pushed, and the registers keep theirs. -/
def Obligations.VectorOperandsAndResultsReachTheirPlaceAlone : Prop :=
  (∀ (m : Mach) n at_ (mask : Nat → BitVec 64) (rows : List Row) j r l, at_ + rows.length ≤ 16 → r < 16 → l < 64 →
    (∀ i < 16, (m.k.vec.row n i).length = 64) →
    ((m.putRows n at_ mask rows).k.vec.row j r).getD l 0 =
      (if j = n ∧ at_ ≤ r ∧ r < at_ + rows.length ∧ (mask (r - at_)).getLsbD l then (rows.getD (r - at_) []).getD l 0
       else (m.k.vec.row j r).getD l 0)) ∧
  (∀ (m : Mach) n at_ mask rows, (m.putRows n at_ mask rows).s = m.s ∧
    (m.putRows n at_ mask rows).k = { m.k with vec := { m.k.vec with regs := (m.putRows n at_ mask rows).k.vec.regs } }) ∧
  (∀ (m : Mach) (o : V3) v valid rows, v3Pushes o = true →
    (m.putV o v valid rows).s = m.s ∧ (m.putV o v valid rows).k = m.k.pushR (vNum o.s3) (rows.headD zeroRow) (v.mask 0 &&& valid)) ∧
  (∀ s m i h p, AtTurn s m i h p → ∀ n q, p.rowSrcs[n]? = some q →
    ∃ e, (m.k.rq? q)[countIn q (p.rowSrcs.take n)]? = some (.full e) ∧ (m.opnds h p).rows[n]? = some e) ∧
  (∀ (m : Mach) h (o : V3) fs rowsOnly a, (∀ f ∈ fs, vIsHead f.spec = false) →
    ∃ v, m.vOperands h o fs rowsOnly a = some (m, v) ∧ v.n = (if rowsOnly then 1 else 16) ∧ v.mask = effMask m.k.vec h ∧
      ∀ i f, fs[i]? = some f → ∀ r < v.n, ∀ l < 64,
        let from_ := if o.lps.toNat = i + 1 then lpLane (o.lp.toNat / 32) (o.lp.toNat % 32) (m.k.sr.permReg (o.lp.toNat % 16)) l else l
        let entry := a.rows.getD ((fs.take i).filter fun g => vIsQueue g.spec).length ⟨zeroRow, 0⟩
        (vIsReg f.spec = true → v.elem i r l = (m.k.vec.row f.spec.toNat r).getD from_ 0) ∧
        (vIsQueue f.spec = true → v.elem i r l = entry.lanes.getD from_ 0) ∧
        (vIsBcast f.spec = true → v.elem i r l = (m.t.reg (vNum f.spec)).setWidth 32) ∧
        (vIsReg f.spec = false → vIsQueue f.spec = false → vIsBcast f.spec = false →
          v.elem i r l = BitVec.ofNat 32 (immCode f.ty (f.spec.toNat % 32))))

/-- R191, R204 to R206: words on heads. A head that the stream owns and that is no recorder is stepped, marked or rewound; HSTAT
reads a head without changing it. -/
def Obligations.HeadWords : Prop :=
  ∀ h (o : H),
    let owned : Mach → Prop := fun m => (m.k.head o.hd.toNat).bound = true ∧ (m.k.head o.hd.toNat).owner = m.st ∧
      (m.k.head o.hd.toNat).mode ≠ .recorder
    let change : Mach → (Head → Desc → Head) → Mach := fun m f =>
      m.ctx fun k => k.setHead o.hd.toNat (f (m.k.head o.hd.toNat) (m.tapeOf (m.k.head o.hd.toNat).handle))
    RunsIf (.hstep h o) h { Ports.none with srcs := [o.cnt] } (fun m a => a.act = true ∧ owned m)
      (fun m a => change m (Head.stepBy (if o.cnt = 48 then o.imm.toInt else (a.v 0).toInt))) ∧
    RunsIf (.hmark h o) h Ports.none (fun m a => a.act = true ∧ owned m) (fun m _ => change m fun q _ => q.setMark o.mark.toNat q.v) ∧
    RunsIf (.hrew h o) h Ports.none (fun m a => a.act = true ∧ owned m)
      (fun m _ => change m fun q d => { q with flue := [] }.moveFrom q d (q.mark o.mark.toNat)) ∧
    TrapsIf (.hmark h o) h Ports.none (fun m a => a.act = true ∧ ((m.k.head o.hd.toNat).bound = false ∨ (m.k.head o.hd.toNat).owner ≠ m.st))
      (fun m _ => (0x20, m.headTv o.hd.toNat)) ∧
    Runs (.hstat h o) h { Ports.none with dsts := [o.cnt] }
      (fun m a => m.put o.cnt a.act (m.hstat o.hd.toNat (o.fl.toNat % 8) o.mark.toNat) true)

/-- R182, R190, R197 to R199, R202, R203, R218: binding a head to a sealed tape once the earlier loads are performed, unbinding it,
opening a tape into the lowest free entry, sealing one, which waits as a release while the tape is open, and reading its
descriptor. What of a directory entry the words leave unread or set to 0 follows log 42 where R182 to R203 do not say it. -/
def Obligations.TapeWords : Prop :=
  (∀ h (o : H) d t s1,
    RunsIf (.hbind h o) h { Ports.none with srcs := [o.cnt] }
      (fun m a => a.act = true ∧ m.k.loadsDone = true ∧ m.s.tapeEntry m.core m.k (a.v 0).toNat true = (.ok d t, s1) ∧
        (m.k.head o.hd.toNat).bound = false ∧ (d.state = 3 ∨ (d.state = 2 ∧ (hMode o == .rmw || hMode o == .overwrite) = false)) ∧
        m.bindFits (a.v 0).toNat (hMode o == .rmw || hMode o == .overwrite) = true)
      (fun m a =>
        let s2 := s1.descPut t 9 (W ((d.nheads + 1) % 256))
        let s2 := if hMode o == .rmw || hMode o == .overwrite then s2.descPut t 8 (updField m.x o.hd.toNat) else s2
        { m with s := s2 }.ctx fun k => k.setHead o.hd.toNat
          (Head.fresh (a.v 0).toNat (hOwner o) (o.fl.getLsbD 2) (hMode o) (if o.fl.getLsbD 2 then Int.ofNat d.len - 1 else 0)))) ∧
  (∀ h (o : H) k1 s1, RunsIf (.hunb h o) h Ports.none
    (fun m a => a.act = true ∧ (m.k.hwrites.any fun w => w.hd == o.hd.toNat) = false ∧
      m.s.unbindHead m.core m.k o.hd.toNat = some (k1, s1))
    (fun m _ => { m with s := s1, k := k1 })) ∧
  (∀ h (o : S3) tgt s1 bytes s2 handle e s3,
    RunsIf (.topen h o) h (s3Ports o)
      (fun m a => a.act = true ∧ bits (a.v 1) 5 59 = 0 ∧ (a.v 0).toNat % 128 = 0 ∧ m.s.look m.core m.k (a.v 0) m.k.needLd = (.ok tgt, s1) ∧
        s1.expDead tgt.pa = false ∧ m.k.stores = [] ∧ m.k.loadsDone = true ∧ s1.pathBytes tgt.path tgt.acc tgt.pa 128 = (bytes, false, s2) ∧
        (Desc.ofWords ((chunks 8 bytes 16).map fun b => W (leNat b))).imageOk = true ∧ (m.k.head (bits (a.v 1) 0 4)).bound = false ∧
        s2.freeEntry m.core m.k (2 ^ bits m.k.sr.tdir 58 5) 1 = (.at_ handle e, s3))
      (fun m a =>
        (({ m with s := (s3.descPutAll e (Desc.ofWords ((chunks 8 bytes 16).map fun b => W (leNat b))).opened).aliens [e.pa / 64, e.pa / 64 + 1] }).ctx fun k =>
          k.setHead (bits (a.v 1) 0 4) (Head.fresh handle (if bitAt (a.v 1) 4 then .M else .D) false .recorder 0)).put
          o.dst true (W handle) a.valid)) ∧
  (∀ h (o : S3) d t s1,
    RunsIf (.tseal h o) h (s3Ports1 o)
      (fun m a => a.act = true ∧ m.s.tapeEntry m.core m.k (a.v 0).toNat true = (.ok d t, s1) ∧
        d.sealFault (o.fn.toNat % 4) (o.fn.getLsbD 2) (m.tapeBound (a.v 0).toNat) = none ∧ d.state ≠ 1)
      (fun m a => { m with s := s1.descPut t 0 (sealCtl d.ctl (o.fn.toNat % 4) (o.fn.getLsbD 2)) }.put o.dst true d.ctl a.valid) ∧
    RunsIf (.tseal h o) h (s3Ports1 o)
      (fun m a => a.act = true ∧ m.s.tapeEntry m.core m.k (a.v 0).toNat true = (.ok d t, s1) ∧
        d.sealFault (o.fn.toNat % 4) (o.fn.getLsbD 2) (m.tapeBound (a.v 0).toNat) = none ∧ d.state = 1 ∧
        m.close.writesTo m.k.bd.vdev (a.v 0).toNat = false ∧ m.k.released = true)
      (fun m a =>
        let s2 := s1.descPut t 0 (sealCtl d.ctl (o.fn.toNat % 4) (o.fn.getLsbD 2))
        let s3 := (if o.fn.toNat % 4 = 2 then s2 else s2.descPut t 1 (W d.recorded)).descPut t 9 0
        ({ m with s := s3 }.package fun s => s.unbindTape m.k.bd.vdev (a.v 0).toNat).put o.dst true d.ctl a.valid)) ∧
  (∀ h (o : S3) d t s1,
    RunsIf (.tstat h o) h (s3Ports1 o)
      (fun m a => a.act = true ∧ m.s.tapeEntry m.core m.k (a.v 0).toNat false = (.ok d t, s1))
      (fun m a => { m with s := s1 }.put o.dst true (d.stat (o.fn.toNat % 8)) a.valid))

/-- R200, R201, R215, R217: the D words. A TREC whose record can be written pops the entries of the record and appends it
through its recorder; a TUPD rewrites the record its head stands on, from a head or from a queue, when none of its flags is
enabled to trap; TFLSH completes once the record writes it names are performed; DSTAT reads. -/
def Obligations.RecorderWords : Prop :=
  (∀ h (o : H) m1 s m, AtTurn s m (.trec h o) h dPorts →
    let m0 := (m.taken h dPorts).ctx fun k => { k with dpopped := [], dlfsr := none }
    let n := o.hd.toNat
    let raw := o.fl.getLsbD 0
    let d := m0.tapeOf (m0.k.head n).handle
    let q := qNum o.cnt
    let mp := m0.ctx (Ctx.popHeld q (d.entries raw) (d.entries raw))
    (m.opnds h dPorts).act = true → m0.recorderBad n = none → (d.sp = 0 ∨ raw = true) → d.recorded < d.len →
    (m0.k.hwrites.filter (·.dstream)).length < 64 → (∃ l m2, m0.canWrite n d d.recorded = .ok l m2) →
    0 < present (m0.k.rq? q) → mp.k.dpopped.length = d.entries raw →
    ((mp.str fun t => { t with prog := some ⟨mp.k.dpopped.length, d.entries raw, none⟩ }).ctx fun k => { k with dpopped := [] }).append n d
      (d.build raw (mp.k.dpopped.take (d.entries raw))) = .ok m1 →
    exec (.trec h o) s = .next (m1.completed h)) ∧
  (∀ h (o : H) u old vals copy l m2 m3 s m, AtTurn s m (.tupd h o) h dPorts →
    let m0 := m.taken h dPorts
    let n := o.hd.toNat
    let d := m0.tapeOf (m0.k.head n).handle
    let r := (m0.k.head n).v.toNat
    let took : Option (List FVal × List Byte × Mach) := match m0.eat (uSrc o) u with
      | .got e bytes m2 => some ((e.elemCodes bytes).map (encFmt e.enc).decode, bytes, m2)
      | .zero e m2 | .skip e m2 => some (List.replicate (8 * d.recBytes / encWidth d.enc) (.fin false 0 0), e.zeroBytes m2.s.md.tick, m2)
      | _ => none
    let out := m3.updated o d old vals copy
    let fl := out.2.1.foldl (fun (f : BitVec 5) (q : RRes) => f ||| q.fl) 0
    let m4 := (out.2.2.issueWrite n d r l out.1).count (out.2.2.k.sr.dtid.toNat % 256)
    o.cnt = 48 → (m.opnds h dPorts).act = true → m0.tupdBad o true = none → (m0.k.head n).eot d.len = false →
    m0.headUse (uSrc o) true (fun _ => true) = .ok u → m0.tupdReady o d = .ok old → m0.srcStop (uSrc o) u = none →
    m0.oldPoison o = false → took = some (vals, copy, m2) → m2.canWrite n d r = .ok l m3 →
    trapsOn (m4 (out.2.1.map (·.ev))).t.fpmode fl = false →
    exec (.tupd h o) s = .next (((m4 (out.2.1.map (·.ev))).raise fl).completed h)) ∧
  (∀ h (o : H) old l m3 s m, AtTurn s m (.tupd h o) h dPorts →
    let m0 := (m.taken h dPorts).ctx fun k => { k with dpopped := [], dlfsr := none }
    let n := o.hd.toNat
    let d := m0.tapeOf (m0.k.head n).handle
    let r := (m0.k.head n).v.toNat
    let q := qNum o.cnt
    let ents := d.entries (uRaw o)
    let mp := m0.ctx (Ctx.popHeld q ents ents)
    let m2 := (mp.str fun t => { t with prog := some ⟨mp.k.dpopped.length, ents, none⟩ }).ctx fun k => { k with dpopped := [] }
    let es := mp.k.dpopped.take ents
    let out := m3.updated o d old (entryVals d es) (d.build (uRaw o) es)
    let fl := out.2.1.foldl (fun (f : BitVec 5) (q : RRes) => f ||| q.fl) 0
    let m4 := (out.2.2.issueWrite n d r l out.1).count (out.2.2.k.sr.dtid.toNat % 256)
    o.cnt ≠ 48 → (m.opnds h dPorts).act = true → (m.taken h dPorts).tupdBad o true = none → m0.tupdReady o d = .ok old →
    m0.oldPoison o = false → 0 < present (m0.k.rq? q) → mp.k.dpopped.length = ents → m2.tupdReady o d = .ok old →
    m2.oldPoison o = false → (m2.k.head n).v.toNat = r → m2.canWrite n d r = .ok l m3 →
    trapsOn (m4 (out.2.1.map (·.ev))).t.fpmode fl = false →
    exec (.tupd h o) s = .next (((m4 (out.2.1.map (·.ev))).raise fl).completed h)) ∧
  (∀ h (o : H) s m, AtTurn s m (.trec h o) h dPorts →
    let m0 := (m.taken h dPorts).ctx fun k => { k with dpopped := [], dlfsr := none }
    let d := m0.tapeOf (m0.k.head o.hd.toNat).handle
    let ents := d.entries (o.fl.getLsbD 0)
    let mp := m0.ctx (Ctx.popHeld (qNum o.cnt) ents ents)
    (m.opnds h dPorts).act = false → m0.recorderBad o.hd.toNat = none → (d.sp = 0 ∨ o.fl.getLsbD 0 = true) →
    0 < present (m0.k.rq? (qNum o.cnt)) → mp.k.dpopped.length = ents →
    exec (.trec h o) s = .next (((mp.str fun t => { t with prog := some ⟨mp.k.dpopped.length, ents, none⟩ }).ctx fun k =>
      { k with dpopped := [] }).completed h)) ∧
  (∀ h (o : H) s m, AtTurn s m (.tupd h o) h dPorts →
    let m0 := (m.taken h dPorts).ctx fun k => { k with dpopped := [], dlfsr := none }
    let d := m0.tapeOf (m0.k.head o.hd.toNat).handle
    let ents := d.entries (uRaw o)
    let mp := m0.ctx (Ctx.popHeld (qNum o.cnt) ents ents)
    let m2 := (mp.str fun t => { t with prog := some ⟨mp.k.dpopped.length, ents, none⟩ }).ctx fun k => { k with dpopped := [] }
    o.cnt ≠ 48 → (m.opnds h dPorts).act = false → (m.taken h dPorts).tupdBad o false = none → 0 < present (m0.k.rq? (qNum o.cnt)) →
    mp.k.dpopped.length = ents → exec (.tupd h o) s = .next ((m2.stepHead o.hd.toNat d).completed h)) ∧
  (∀ h (o : H), o.cnt = 48 → RunsIf (.tupd h o) h dPorts (fun m a => a.act = false ∧ m.tupdBad o false = none)
    (fun m _ => (m.stepHead o.hd.toNat (m.tapeOf (m.k.head o.hd.toNat).handle)).stepHead (uSrc o) (m.tapeOf (m.k.head (uSrc o)).handle))) ∧
  (∀ h (o : H), RunsIf (.tflsh h o) h Ports.none
    (fun m a => a.act = true ∧ (o.fl.getLsbD 0 = true ∨ ((m.k.head o.hd.toNat).bound = true ∧ (m.k.head o.hd.toNat).owner = .D)) ∧
      (m.k.hwrites.any fun w => w.dstream && (o.fl.getLsbD 0 || w.hd == o.hd.toNat)) = false) nothing) ∧
  (∀ h (o : S3), Runs (.dstat h o) h { Ports.none with dsts := [o.dst] } fun m a => m.put o.dst a.act
    (if o.fn.toNat % 4 = 0 then W (m.k.hwrites.filter (·.dstream)).length else if o.fn.toNat % 4 = 1 then m.k.xw else m.k.wr) true)

/-- R229 to R232, R239 to R245, R248: the row words of the matrix engine. When each of its rows can be performed now, a load, a
multiply that its damper has granted, or a drain completes with all of them performed in order, row 0 first; a drain none of
whose flags is enabled to trap. Under a false guard they take their rows and change nothing else, and a drain pushes invalid
entries; that an MDRT makes its packed-sparse check then too is the model's reading (log 56, DEDUCED). Rows whose source is a vector
register can always be performed: row r comes from row r mod 16 of register r / 16 after the one that SRC names. -/
def Obligations.MatrixRowWordsComplete : Prop :=
  (∀ h (o : MF) act m1, act = false ∨ o.lay = 0 ∨ vIsHead o.src = true →
    let q : MSrc := ⟨o.src, o.enc.toNat, o.scl.toNat, o.rows.toNat, o.pl.toNat + 1, mldFits o.lay.toNat⟩
    RunsIf (.mld h o) h (rowPorts o.rows)
      (fun m a => a.act = act ∧ m.t.prog = none ∧ rowsTo (fun r m => m.withRow q act r fun x m =>
        m.loadRow o r q.enc (m.k.mat.enterRow q.enc x) x.s0 x.s1) o.rows.toNat 0 m.rowStart = some m1)
      (fun _ _ => if act then m1.forget.loadEnd o 0 else m1.forget)) ∧
  (∀ h (o : MF) act m1,
    let q : MSrc := ⟨o.src, o.enc.toNat, o.scl.toNat, o.rows.toNat, o.pl.toNat + 1,
      fun d => (d.shape == 1 || d.shape == 2) && d.sp == o.sp.toNat⟩
    RunsIf (.mlds h o) h (rowPorts o.rows)
      (fun m a => a.act = act ∧ m.t.prog = none ∧ rowsTo (fun r m => m.withRow q act r fun x m =>
        m.loadRow o r q.enc (m.k.mat.enterRow q.enc x) x.s0 x.s1) o.rows.toNat 0 m.rowStart = some m1)
      (fun _ _ => if act then m1.forget.loadEnd o o.sp.toNat else m1.forget)) ∧
  (∀ h (o : MF) act m1,
    let q : MSrc := ⟨o.src, o.enc.toNat, o.scl.toNat, o.rows.toNat, 8, fun d => (d.shape == 1 || d.shape == 2) && d.sp == 0⟩
    let c : Mach → Opnds → Prop := fun m a => a.act = act ∧ m.t.prog = none ∧ (act = true → m.ownWord.k.mat.granted = true) ∧
      rowsTo (fun r m => m.withRow q act r fun x m => m.mat fun t => t.stream o r x) o.rows.toNat 0 m.ownWord.rowStart = some m1
    RunsIf (.mma h o) h (rowPorts o.rows) c (fun _ _ => m1.forget) ∧ RunsIf (.mmas h o) h (rowPorts o.rows) c (fun _ _ => m1.forget)) ∧
  (∀ h (o : DR) act m1,
    RunsIf (.mdr h o) h (rowPorts o.rows)
      (fun m a => a.act = act ∧ m.t.prog = none ∧ rowsTo (fun r m =>
        if !m.drainRoom o false then .wait .slot
        else if !act then .done (m.drainSkip o false)
        else
          let d := (m.drainOne o r).1
          let m' := (m.drainOne o r).2
          .done ((if vIsQueue o.dst then m'.ctx fun k => k.pushR (vNum o.dst) d.lanes (BitVec.allOnes 64)
            else m'.putVRow o.dst.toNat r d.lanes).putResidual o r d)) o.rows.toNat 0 m.rowStart = some m1 ∧
        trapsOn m1.t.fpmode m1.k.mat.fl = false)
      (fun _ _ => m1.forget.raise m1.k.mat.fl)) ∧
  (∀ h (o : DR) act m1,
    RunsIf (.mdrt h o) h (rowPorts o.rows)
      (fun m a =>
        let d := m.tapeOf (m.k.head (vNum o.dst)).handle
        a.act = act ∧ m.t.prog = none ∧ m.recorderBad (vNum o.dst) = none ∧
        (act = false → d.sp = 0) ∧ (act = true → mdrtFits o d = true ∧ d.recorded + (if d.shape = 2 then 1 else o.rows.toNat) ≤ d.len) ∧
        rowsTo (mdrtRow o act) o.rows.toNat 0 m.rowStart = some m1 ∧ trapsOn m1.t.fpmode m1.k.mat.fl = false)
      (fun _ _ => m1.forget.raise m1.k.mat.fl)) ∧
  (∀ h (o : DR), TrapsIf (.mdrt h o) h (rowPorts o.rows)
    (fun m _ => m.recorderBad (vNum o.dst) = none ∧ (m.tapeOf (m.k.head (vNum o.dst)).handle).sp ≠ 0)
    (fun m _ => (0x22, m.headTv (vNum o.dst)))) ∧
  (∀ (m : Mach) (q : MSrc) f n, vIsReg q.src = true →
    (∀ r, m.mrow q true r = .row (MRow.ofLanes q (m.k.vec.row (q.src.toNat + r / 16) (r % 16)) (BitVec.allOnes 64)) m) ∧
    (∀ r, m.mrow q false r = .skip m) ∧ ∃ m1, rowsTo (fun r m => m.withRow q true r f) n 0 m = some m1)

/-- R42, R221, R222, R231, R235 to R238, R249, R250: the words on the matrix state that take no rows. MSWAP in a context with one
buffer per array has no effect; a false guard keeps what MANC, MTSC and MTBLW would write, and so does the read-only form of MANC and
MTSC, which gives the old value. -/
def Obligations.MatrixStateWords : Prop :=
  (∀ h (o : MF),
    RunsIf (.mswap h o) h Ports.none (fun m a => a.act = true ∧ m.k.bd.twoBuf = true)
      (fun m _ => m.mat fun t => { t with front := (amArrays o.am).foldl (fun f a => tset 0 f a (1 - tget 0 f a)) t.front }) ∧
    RunsIf (.mzero h o) h Ports.none isAct (fun m _ => m.mat fun t => (amArrays o.am).foldl (fun t a =>
      (upTo o.rows.toNat).foldl (fun t r => t.setTileRow (8 * a + o.acc.toNat % 8) r (List.replicate 64 ⟨0, false, false⟩)) t) t) ∧
    (∀ x m1,
      let q : MSrc := ⟨o.src, 7, 0, 1, 8, fun d => d.shape == 1 && d.sp == 0⟩
      RunsIf (.mtblw h o) h Ports.none (fun m a => a.act = true ∧ m.dropHeld.mrow q true 0 = .row x m1)
        (fun _ _ => m1.dropHeld.mat fun t => { t with tbl := tblWrite t.tbl o.acc.toNat (laneRow x.codes) (BitVec.allOnes 64) })) ∧
    (∀ m1,
      let q : MSrc := ⟨o.src, 7, 0, 1, 8, fun d => d.shape == 1 && d.sp == 0⟩
      RunsIf (.mtblw h o) h Ports.none (fun m a => a.act = false ∧ m.dropHeld.mrow q false 0 = .skip m1) (fun _ _ => m1.dropHeld)) ∧
    RunsIf (.mswap h o) h Ports.none (fun m _ => m.k.bd.twoBuf = false) nothing) ∧
  (∀ h (o : S3),
    RunsIf (.manc h o) h { Ports.none with srcs := if o.fn.getLsbD 5 then [] else [o.s1], dsts := [o.dst] }
      (fun _ a => a.act = true ∧ o.fn.getLsbD 5 = false)
      (fun m a => (m.mat fun t => { t with anchors := tset 0 t.anchors (o.fn.toNat % 32) ((a.v 0).setWidth 16) }).put o.dst true
        ((tget 0 m.k.mat.anchors (o.fn.toNat % 32)).signExtend 64) a.valid) ∧
    RunsIf (.mtsc h o) h { Ports.none with srcs := if o.fn.getLsbD 2 then [] else [o.s1], dsts := [o.dst] }
      (fun _ a => a.act = true ∧ o.fn.getLsbD 2 = false)
      (fun m a => (m.mat fun t => { t with ts := tset 0x3F800000 t.ts (o.fn.toNat % 4) (a.v 0 &&& 0xFFFFFFFFFF) }).put o.dst true
        (m.k.mat.tsReg (o.fn.toNat % 4)) a.valid) ∧
    (let p : Ports := { Ports.none with srcs := if o.fn.getLsbD 5 then [] else [o.s1], dsts := [o.dst] }
     RunsIf (.manc h o) h p (fun _ a => a.act = true ∧ o.fn.getLsbD 5 = true)
       (fun m a => m.put o.dst true ((tget 0 m.k.mat.anchors (o.fn.toNat % 32)).signExtend 64) a.valid) ∧
     RunsIf (.manc h o) h p isOff (fun m _ => m.put o.dst false 0 false)) ∧
    (let p : Ports := { Ports.none with srcs := if o.fn.getLsbD 2 then [] else [o.s1], dsts := [o.dst] }
     RunsIf (.mtsc h o) h p (fun _ a => a.act = true ∧ o.fn.getLsbD 2 = true)
       (fun m a => m.put o.dst true (m.k.mat.tsReg (o.fn.toNat % 4)) a.valid) ∧
     RunsIf (.mtsc h o) h p isOff (fun m _ => m.put o.dst false 0 false)) ∧
    Runs (.mest h o) h { Ports.none with dsts := [o.dst] } (fun m a => m.put o.dst a.act (W (tget 0 m.k.mat.lastE (o.fn.toNat % 4))) true) ∧
    Runs (.mstat h o) h { Ports.none with dsts := [o.dst] }
      (fun m a => m.put o.dst a.act (m.k.mstat (o.fn.toNat / 32) (o.fn.toNat % 32)) true))

/-- R272, R275 to R278: LDS and STS of a scalar or a row within the context's partition, aligned; a false guard delivers an
invalid entry, or stores nothing; a misaligned address takes cause 0x11 and one beyond the partition 0x12, with the address. -/
def Obligations.ScratchpadWords : Prop :=
  ∀ h (o : L),
    let ea : Opnds → Word := fun a => a.v 0 + (a.v 1 <<< o.sc.toNat) + o.off.signExtend 64
    let n := szBytes o.sz.toNat
    let bad : Mach → Opnds → Option (BitVec 8) := fun m a => m.spBad (ea a).toNat n (szAlign o.sz.toNat)
    (o.sz ≠ 7 → RunsIf (.lds h o) h (loadPorts o) (fun m a => a.act = true ∧ bad m a = none)
      (fun m a => m.put o.data true (loadValue o.sz.toNat (m.spGet (ea a).toNat n)) true)) ∧
    (o.sz = 7 → RunsIf (.lds h o) h (loadPorts o) (fun m a => a.act = true ∧ bad m a = none)
      (fun m a => m.ctx fun k => k.pushR (qNum o.data) (loadLanes (m.spGet (ea a).toNat 256)) (BitVec.allOnes 64))) ∧
    RunsIf (.lds h o) h (loadPorts o) isOff
      (fun m _ => if o.sz = 7 then m.ctx fun k => k.pushR (qNum o.data) zeroRow 0 else m.put o.data false 0 false) ∧
    RunsIf (.sts h o) h (storePorts o) (fun m a => a.act = true ∧ bad m a = none)
      (fun m a => m.spPut (ea a).toNat (storeBytes o a)) ∧
    RunsIf (.sts h o) h (storePorts o) isOff nothing ∧
    (∀ c, TrapsIf (.lds h o) h (loadPorts o) (fun m a => a.act = true ∧ bad m a = some c) (fun _ a => (c, ea a))) ∧
    (∀ c, TrapsIf (.sts h o) h (storePorts o) (fun m a => a.act = true ∧ bad m a = some c) (fun _ a => (c, ea a)))

/-- R272, R278, R293: what a store to scratchpad changes. The bytes that it writes, at the address that the access computes in the
context's partition, read as stored, free ones excepted that lie in a row that no LDW has read since its fill began (log 17); every other byte of every scratchpad
and all of memory read as before; registers, queues and the other streams keep theirs. -/
def Obligations.AScratchpadStoreWritesItsBytesAlone : Prop :=
  ∀ (m : Mach) (ea : Nat) (bytes : List (Nat × Byte)),
    let t := m.spPut ea bytes
    let at_ : Nat → Nat := fun off => m.k.bd.sbase + ea + off
    (∀ core off, (core * 2 ^ 22 + off ∉ bytes.map fun b => m.core * 2 ^ 22 + at_ b.1) → t.s.spByte core off = m.s.spByte core off) ∧
    ((bytes.map (·.1)).Nodup → (∀ b ∈ bytes, m.k.ringOpen (ea + b.1) = false) →
      ∀ b ∈ bytes, t.s.spByte m.core (at_ b.1) = b.2) ∧
    t.s = { m.s with ms := { m.s.ms with spad := t.s.ms.spad } } ∧ t.k = { m.k with fills := t.k.fills, rowFaults := t.k.rowFaults } ∧
    (Memory.wf m.s.ms.spad = true → Memory.wf t.s.ms.spad = true)

/-- R279, R280: LDQ and STQ move their elements, as many as the second operand says, when every one can be moved now; under a
false guard LDQ delivers as many invalid entries, and STQ takes as many and stores none; none is moved for a count of 0; a count above 65535 takes cause 0x12. -/
def Obligations.BurstWords : Prop :=
  ∀ h (o : L),
    let ea : Opnds → Word := fun a => lAddr { o with sc := 0 } (a.v 0) 0
    let fits : Mach → Opnds → Prop := fun m a => (ea a).toNat % szAlign o.sz.toNat = 0 ∧
      burstAt o (ea a).toNat ((a.v 1).toNat - 1) + szBytes o.sz.toNat ≤ m.k.bd.ssize
    let all : Bool → Mach → Opnds → Nat × Mach := fun load m a =>
      Mach.burstLoop o load a.act (ea a).toNat (a.v 1).toNat (a.v 1).toNat 0 m
    RunsIf (.ldq h o) h (burstPorts o) (fun m a => m.t.prog = none ∧ 0 < (a.v 1).toNat ∧ (a.v 1).toNat ≤ 65535 ∧
      (a.act = true → fits m a) ∧ (all true m a).1 = (a.v 1).toNat) (fun m a => (all true m a).2) ∧
    RunsIf (.stq h o) h (burstPorts o) (fun m a => m.t.prog = none ∧ 0 < (a.v 1).toNat ∧ (a.v 1).toNat ≤ 65535 ∧
      (a.act = true → fits m a) ∧ (all false m a).1 = (a.v 1).toNat) (fun m a => (all false m a).2) ∧
    RunsIf (.ldq h o) h (burstPorts o) (fun m a => m.t.prog = none ∧ a.v 1 = 0) nothing ∧
    RunsIf (.stq h o) h (burstPorts o) (fun m a => m.t.prog = none ∧ a.v 1 = 0) nothing ∧
    TrapsIf (.ldq h o) h (burstPorts o) (fun m a => m.t.prog = none ∧ 65535 < (a.v 1).toNat) (fun _ a => (0x12, a.v 1)) ∧
    TrapsIf (.stq h o) h (burstPorts o) (fun m a => m.t.prog = none ∧ 65535 < (a.v 1).toNat) (fun _ a => (0x12, a.v 1))

/-- R281, R282: an atomic on scratchpad writes the old value, extended, and replaces it by the new one in one step; an ordered one
once every earlier access is done. The new value is the operand, the sum, the and, or, exclusive or, minimum or maximum, or, where
the old value is the one compared with, the operand; minimum and maximum go by the signed or the unsigned order. A misaligned
address takes cause 0x11 and one beyond the partition 0x12, with the address; under a false guard nothing is stored. -/
def Obligations.ScratchpadAtomicsComplete : Prop :=
  (∀ n old v cmp, 0 < n → old < 2 ^ (8 * n) → v < 2 ^ (8 * n) →
    let sg : Nat → Int := fun x => if 2 ^ (8 * n - 1) ≤ x then Int.ofNat x - 2 ^ (8 * n) else Int.ofNat x
    atomNew 5 n true old v cmp = some (if sg v < sg old then v else old) ∧ atomNew 6 n true old v cmp = some (if sg old < sg v then v else old)) ∧
  (∀ n signed old v cmp, old < 2 ^ (8 * n) → v < 2 ^ (8 * n) → cmp < 2 ^ (8 * n) →
    atomNew 0 n signed old v cmp = some v ∧ atomNew 1 n signed old v cmp = some ((old + v) % 2 ^ (8 * n)) ∧
    atomNew 2 n signed old v cmp = some (old &&& v) ∧ atomNew 3 n signed old v cmp = some (old ||| v) ∧
    atomNew 4 n signed old v cmp = some (old ^^^ v) ∧
    atomNew 5 n false old v cmp = some (min old v) ∧ atomNew 6 n false old v cmp = some (max old v) ∧
    (old = cmp → atomNew 7 n signed old v cmp = some v) ∧ (old ≠ cmp → atomNew 7 n signed old v cmp = none)) ∧
  ∀ h (o : L),
    let ea : Opnds → Word := fun a => a.v 0 + (o.off.extractLsb' 0 18).signExtend 64
    let n := if o.sz = 3 then 8 else 4
    let old : Mach → Opnds → Nat := fun m a => leNat (m.spGet (ea a).toNat n)
    RunsIf (.satom h o) h (atomPorts o)
      (fun m a => a.act = true ∧ m.spBad (ea a).toNat n n = none ∧ (o.off.getLsbD 18 = true → m.k.fencedAll = true))
      (fun m a => (match atomNew o.sc.toNat n (o.sz != 2) (old m a) (a.v 1).toNat (a.v 2).toNat with
        | some v => m.spPut (ea a).toNat ((leBytes n v).zipIdx.map fun (b : Byte × Nat) => (b.2, b.1))
        | none => m).put o.data true (extLoad n (o.sz != 2) (old m a)) true) ∧
    TrapsIf (.satom h o) h (atomPorts o) (fun _ a => a.act = true ∧ (ea a).toNat % n ≠ 0) (fun _ a => (0x11, ea a)) ∧
    TrapsIf (.satom h o) h (atomPorts o) (fun m a => a.act = true ∧ (ea a).toNat % n = 0 ∧ m.k.bd.ssize < (ea a).toNat + n)
      (fun _ a => (0x12, ea a)) ∧
    RunsIf (.satom h o) h (atomPorts o) isOff (fun m _ => m.put o.data false 0 false)

/-- R277, R283 to R285: LDG, STG and GATOM through pages that their access may use: a load or an atomic joins the loads that have
not returned, with its destination reserved; a store joins the store buffer; a false guard issues none. A misaligned address takes
cause 0x11, and a page that the access may not use the cause that its translation gives, with the address of the piece that lies
in it (log 55). -/
def Obligations.GlobalMemoryWords : Prop :=
  ∀ h (o : L),
    let ea : Opnds → Word := fun a => a.v 0 + (a.v 1 <<< o.sc.toNat) + o.off.signExtend 64
    let at_ : Opnds → Word := fun a => a.v 0 + (o.off.extractLsb' 0 18).signExtend 64
    let n := szBytes o.sz.toNat
    let b := if o.sz = 3 then 8 else 4
    (∀ l s1, o.sz ≠ 7 → RunsIf (.ldg h o) h (loadPorts o)
      (fun m a => a.act = true ∧ m.gAccess (ea a) n (szAlign o.sz.toNat) m.k.needLd = .ok l s1)
      (fun m a => { m with s := s1 }.issueLoad l (ea a) o.data (.plain n (4 ≤ o.sz.toNat && o.sz.toNat ≤ 6)) [(0, n)])) ∧
    (∀ l s1, o.sz = 7 → RunsIf (.ldg h o) h (loadPorts o)
      (fun m a => a.act = true ∧ m.gAccess (ea a) n (szAlign o.sz.toNat) m.k.needLd = .ok l s1)
      (fun m a => { m with s := s1 }.issueLoad l (ea a) o.data .row [(0, 64), (64, 64), (128, 64), (192, 64)])) ∧
    (∀ l s1, RunsIf (.stg h o) h (storePorts o)
      (fun m a => a.act = true ∧ m.gAccess (ea a) n (szAlign o.sz.toNat) m.k.needSt = .ok l s1)
      (fun m a => { m with s := s1 }.ctx fun k => k.issuePieces l (storeBytes o a))) ∧
    RunsIf (.ldg h o) h (loadPorts o) isOff
      (fun m _ => if o.sz = 7 then m.ctx fun k => k.pushR (qNum o.data) zeroRow 0 else m.put o.data false 0 false) ∧
    RunsIf (.stg h o) h (storePorts o) isOff nothing ∧
    (∀ l s1, RunsIf (.gatom h o) h (atomPorts o)
      (fun m a => a.act = true ∧ m.gAccess (at_ a) b b m.k.needRw = .ok l s1 ∧ (o.off.getLsbD 18 = true → m.k.fencedAll = true))
      (fun m a => ({ m with s := s1 }.issueLoad l (at_ a) o.data (.atomic o.sc.toNat b (o.sz != 2) (a.v 1) (a.v 2)) [(0, b)]).ctx
        fun k => { k with fenced := k.fenced || o.off.getLsbD 18 })) ∧
    TrapsIf (.ldg h o) h (loadPorts o) (fun _ a => a.act = true ∧ (ea a).toNat % szAlign o.sz.toNat ≠ 0) (fun _ a => (0x11, ea a)) ∧
    TrapsIf (.stg h o) h (storePorts o) (fun _ a => a.act = true ∧ (ea a).toNat % szAlign o.sz.toNat ≠ 0) (fun _ a => (0x11, ea a)) ∧
    TrapsIf (.gatom h o) h (atomPorts o) (fun _ a => a.act = true ∧ (at_ a).toNat % b ≠ 0) (fun _ a => (0x11, at_ a)) ∧
    (∀ c va,
      TrapsIf (.ldg h o) h (loadPorts o) (fun m a => a.act = true ∧ m.gAccess (ea a) n (szAlign o.sz.toNat) m.k.needLd = .stop (.trap c va))
        (fun _ _ => (c, va)) ∧
      TrapsIf (.stg h o) h (storePorts o) (fun m a => a.act = true ∧ m.gAccess (ea a) n (szAlign o.sz.toNat) m.k.needSt = .stop (.trap c va))
        (fun _ _ => (c, va)) ∧
      TrapsIf (.gatom h o) h (atomPorts o) (fun m a => a.act = true ∧ m.gAccess (at_ a) b b m.k.needRw = .stop (.trap c va))
        (fun _ _ => (c, va)))

/-- R259 to R262: the latch words. LBIND sets a slot and gives its old latch; ACQ, REL and WAITW act on a slot's latch at the
point of its scope, with the acquire or the release of its region; WAITW completes when its condition holds. -/
def Obligations.LatchWords : Prop :=
  ∀ h (o : S3),
    let slot := o.fn.toNat % 16
    RunsIf (.lbind h o) h (s3Ports o)
      (fun _ a => a.act = true ∧ bits (a.v 1) 54 10 = 0 ∧ (bits (a.v 1) 0 6 = 0 ∨ (6 ≤ bits (a.v 1) 0 6 ∧ bits (a.v 1) 0 6 ≤ 53 ∧ (a.v 0).toNat % 8 = 0)) ∧
        (keep (a.v 1) 53 6).toNat + 2 ^ bits (a.v 1) 0 6 ≤ 2 ^ 54)
      (fun m a =>
        let bound : Option Latch := if bits (a.v 1) 0 6 = 0 then none else some ⟨a.v 0, keep (a.v 1) 53 6, bits (a.v 1) 0 6, o.fn.toNat / 32⟩
        (m.ctx fun k => { k with latches := tset none k.latches slot bound }).put o.dst true (((m.k.latch? slot).map (·.latch)).getD 0) a.valid) ∧
    (∀ q t rs s1, RunsIf (.acq h o) h (s3Ports1 o) (fun m a =>
        a.act = true ∧ m.latchAt slot m.k.needRw false = .ok q t rs s1 ∧ m.cleanDead q rs s1 = false)
      (fun m a =>
        let r := s1.latchOp m.k q t fun old =>
          if o.fn.toNat / 64 = 1 then (if old = 0 then some (a.v 0).toNat else none)
          else if o.fn.toNat / 64 = 2 then some ((old + (a.v 0).toNat) % 2 ^ 64) else none
        { m with s := r.2.acquireRanges m.core m.k q.scope rs }.put o.dst true r.1 a.valid)) ∧
    (∀ q t rs s1, RunsIf (.rel h o) h (s3Ports1 o) (fun m a =>
        a.act = true ∧ m.latchAt slot m.k.needRw true = .ok q t rs s1 ∧ m.cleanDead q rs s1 = false)
      (fun m a =>
        let r := (s1.releaseRanges m.core m.k q.scope rs).latchOp m.k q t fun old =>
          some (if o.fn.toNat / 64 = 1 then (old + (a.v 0).toNat) % 2 ^ 64 else (a.v 0).toNat)
        { m with s := r.2 }.put o.dst true r.1 a.valid)) ∧
    (∀ q t rs s1, RunsIf (.waitw h o) h (s3Ports1 o)
      (fun m a => a.act = true ∧ m.latchAt slot m.k.needLd false = .ok q t rs s1 ∧
        waitwHolds (o.fn.toNat / 32) (s1.latchOp m.k q t fun _ => none).1 (a.v 0) = true ∧
        m.cleanDead q rs (s1.latchOp m.k q t fun _ => none).2 = false)
      (fun m a => { m with s := (s1.latchOp m.k q t fun _ => none).2.acquireRanges m.core m.k q.scope rs }.put o.dst true
        (s1.latchOp m.k q t fun _ => none).1 a.valid))

/-- R263 to R265: GBAR with the whole gang at the barrier departs and gives its number; FENCE completes when the classes that it
names are done; CMO goes over the pages of its range. -/
def Obligations.BarrierWords : Prop :=
  ∀ h,
    (∀ o : S3, RunsIf (.gbar h o) h { Ports.none with dsts := [o.dst] }
      (fun m a => a.act = true ∧ (m.k.gbars < m.k.garrived ∨ m.k.released = true) ∧
        ((o.fn.getLsbD 0 = true ∧ ¬ m.k.gbars < m.k.garrived) ∨ o.fn.getLsbD 1 = true →
          m.s.gangSpread m.k = true → m.s.rangesDead (stoveOf m.core) (m.s.allRanges m.core m.k) = false) ∧ m.s.meet m.x m.k (m.k.gbars + 1) = .all)
      (fun m _ =>
        let rs := m.s.allRanges m.core m.k
        let m1 : Mach := if m.k.gbars < m.k.garrived then m
          else { m with s := (if o.fn.getLsbD 0 then m.s.releaseRanges m.core m.k 1 rs else m.s), k := { m.k with garrived := m.k.gbars + 1 } }
        let s2 := if o.fn.getLsbD 1 then m1.s.acquireRanges m1.core m1.k 1 rs else m1.s
        ({ m1 with s := s2, k := { m1.k with gbars := m1.k.gbars + 1 } }).put o.dst true (W m1.k.gbars) true)) ∧
    (∀ o : S3, RunsIf (.fence h o) h Ports.none (fun m a => a.act = false ∨ m.k.fenceDone o.fn = true) nothing) ∧
    (∀ o : L, ∀ s1, RunsIf (.cmo h o) h { Ports.none with srcs := [o.base, o.data] }
      (fun m a =>
        let ea := (a.v 0 + o.off.signExtend 64).toNat
        let size := (a.v 1).toNat
        let lo := ea / 64 * 64
        let hi := (ea + size + 63) / 64 * 64
        a.act = true ∧ 0 < size ∧ size ≤ 2 ^ 40 ∧ (o.sz = 2 ∨ m.k.stores = []) ∧
        State.cmoPages m.core m.k o.sz.toNat o.sc.toNat lo hi ((hi - 1) / 65536 + 1 - lo / 65536) (lo / 65536) m.s = .ok s1)
      (fun m _ => { m with s := s1 })) ∧
    (∀ o : L, RunsIf (.cmo h o) h { Ports.none with srcs := [o.base, o.data] } (fun _ a => a.act = false ∨ a.v 1 = 0) nothing)

/-- R287 to R292, R294: the window words. WBIND binds a declared, free slot and starts the fills of its ring; WADV moves a read-only
window on and starts the fills of the rows that come in; WREL releases one or reads its origin or violations; LDW reads a row that
has been filled; a slot that is not bound takes cause 0x13 with reason 1. That a row which leaves a window waits for its fill is the
model's choice (log 56). -/
def Obligations.WindowWords : Prop :=
  (∀ h (o : S3) sh,
    let slot := o.fn.toNat % 16
    RunsIf (.wbind h o) h (s3Ports o)
      (fun m a => a.act = true ∧ m.k.winShape slot = some sh ∧ m.k.win? slot = none ∧ (a.v 0).toNat % 64 = 0 ∧ (a.v 0).toNat < 2 ^ 54 ∧
        (a.v 1).toNat % 64 = 0 ∧ (a.v 1).toNat < 2 ^ 32 ∧ (sh.rw = true → sh.rowBytes ≤ (a.v 1).toNat))
      (fun m a => (m.ctx fun k => (k.setWin slot (some ⟨a.v 0, a.v 1, 0, 0⟩)).startFills slot sh ⟨a.v 0, a.v 1, 0, 0⟩ 0 sh.ringRows).cxlMark.put
        o.dst true (W sh.ring) a.valid)) ∧
  (∀ h (o : SI) sh w l s1,
    let slot := o.imm.toNat % 16
    let left : Mach → Mach := fun m => if sh.rw then ({ m with s := s1 }.storeBacks l).cxlMark else m
    RunsIf (.wadv h o) h { Ports.none with srcs := [o.s1], dsts := [o.dst] }
      (fun m a => a.act = true ∧ m.k.winShape slot = some sh ∧ m.k.win? slot = some w ∧ (a.v 0).toNat ≤ sh.ringRows ∧
        (sh.rw = true → m.k.filling slot w.origin (a.v 0).toNat = false ∧
          m.reachPieces m.k.needSt false 0 (backPieces sh w w.origin (a.v 0).toNat) m.s = .ok l s1))
      (fun m a =>
        let w' : Win := { w with origin := w.origin + (a.v 0).toNat }
        ((left m).ctx fun k => (k.setWin slot (some w')).startFills slot sh w' (w'.origin + sh.ringRows - (a.v 0).toNat) (a.v 0).toNat).cxlMark.put
          o.dst true (W w'.origin) a.valid)) ∧
  (∀ h (o : S3) sh w l s1,
    let slot := o.fn.toNat % 16
    let left : Mach → Mach := fun m => if sh.rw then ({ m with s := s1 }.storeBacks l).cxlMark else m
    let held : Mach → Opnds → Prop := fun m a => a.act = true ∧ m.k.winShape slot = some sh ∧ m.k.win? slot = some w
    (o.fn.toNat / 16 = 0 → RunsIf (.wrel h o) h { Ports.none with dsts := [o.dst] }
      (fun m a => held m a ∧ (sh.rw = true → m.k.filling slot w.origin sh.ringRows = false ∧
        m.reachPieces m.k.needSt false 0 (backPieces sh w w.origin sh.ringRows) m.s = .ok l s1))
      (fun m a => ((left m).ctx fun k => k.releaseWin slot).put o.dst true (W w.vio) a.valid)) ∧
    (o.fn.toNat / 16 = 1 → RunsIf (.wrel h o) h { Ports.none with dsts := [o.dst] } held (fun m a => m.put o.dst true (W w.origin) a.valid)) ∧
    (2 ≤ o.fn.toNat / 16 → RunsIf (.wrel h o) h { Ports.none with dsts := [o.dst] } held (fun m a => m.put o.dst true (W w.vio) a.valid))) ∧
  (∀ h (o : L) sh w,
    let slot := o.off.toNat / 32768
    let pos : Opnds → Nat := fun a => (a.v 1).toNat * 2 ^ o.sc.toNat + o.off.toNat % 32768
    let n := szBytes o.sz.toNat
    let held : Mach → Opnds → Prop := fun m a => m.k.winShape slot = some sh ∧ m.k.win? slot = some w ∧ (a.v 0).toNat < sh.rows ∧
      w.origin ≤ (a.v 0).toNat ∧ (a.v 0).toNat < w.origin + sh.ringRows ∧ pos a + n ≤ sh.rowBytes ∧ pos a % szAlign o.sz.toNat = 0 ∧
      (m.k.rowFaults.find? fun (f : RowFault) => f.slot == slot && f.row == (a.v 0).toNat) = none ∧ m.k.filling slot (a.v 0).toNat 1 = false
    let deliver : Mach → List Byte → Mach := fun m bytes =>
      if o.sz = 7 then m.ctx fun k => k.pushR (qNum o.data) (loadLanes bytes) (BitVec.allOnes 64) else m.put o.data true (loadValue o.sz.toNat bytes) true
    RunsIf (.ldw h o) h (loadPorts o) (fun m a => a.act = true ∧ held m a)
      (fun m a =>
        let m' := m.ctx fun k => { k with fills := k.fills.filter fun (f : Fill) => !(f.slot == slot && f.row == (a.v 0).toNat) }
        deliver m' (m'.ringGet (sh.slotOf (a.v 0).toNat + pos a) n)) ∧
    RunsIf (.ldw h o) h (loadPorts o)
      (fun m a => a.act = true ∧ m.k.winShape slot = some sh ∧ m.k.win? slot = some w ∧ sh.rows ≤ (a.v 0).toNat ∧ sh.faultPol = false)
      (fun m _ => deliver (m.ctx fun k => k.setWin slot (some { w with vio := w.vio + 1 })) (List.replicate n 0)) ∧
    TrapsIf (.ldw h o) h (loadPorts o) (fun m a => a.act = true ∧ m.k.win? slot = none) (fun _ _ => (0x13, winTval 1 slot 0)))

/-- R307 to R310, R314, R315, R318, R321 to R325, R354, R370, R373: the words of the copy engine, the grates and Bramble issue their
command, with the operands and scratchpad ranges of their rule, when nothing holds them and their checks pass. -/
def Obligations.EngineWordsIssueTheirCommand : Prop :=
  ∀ h (o : E),
    let iss : Instr → Ports → Nat → (Mach → Opnds → EngArgs) → Prop := fun i p opc args =>
      RunsIf i h p (fun m a => EngineFree m a o opc (args m a)) (fun m a => m.issueCmd h o opc { args m a with out := none })
    let p2 : Ports := { Ports.none with srcs := [o.o1, o.o2] }
    let lanes := 4 * (o.fl.toNat % 128 + 1)
    let sp := o.fl.getLsbD 0
    iss (.cpym h o) (ePorts o) 0x58 (fun _ a => ⟨if countBad (a.v 2) then some (0x34, a.v 2) else none, a.v 0, a.v 1, a.v 2, [], none⟩) ∧
    iss (.cpys h o) (ePorts o) 0x59 (fun m a => ⟨m.copyCheck (a.v 2) (some (a.v 0)), a.v 0, a.v 1, a.v 2,
      [⟨(a.v 0).toNat, (a.v 2).toNat, !sp⟩], none⟩) ∧
    iss (.cgth h o) (ePorts o) 0x5A (fun m a => m.listArgs o a (a.v 0) true) ∧
    iss (.csct h o) (ePorts o) 0x5B (fun m a => m.listArgs o a (a.v 1) false) ∧
    iss (.cpgi h o) p2 0x5C (fun _ a => ⟨if (a.v 1).toNat = 0 || 512 < (a.v 1).toNat then some (0x34, a.v 1) else none, a.v 0, a.v 1, 0, [], none⟩) ∧
    iss (.rput h o) (ePorts o) 0x5D (fun m a => ⟨m.copyCheck (a.v 2) (if sp then some (a.v 1) else none), a.v 0, a.v 1, a.v 2,
      if sp then [⟨(a.v 1).toNat, (a.v 2).toNat, false⟩] else [], none⟩) ∧
    iss (.rget h o) (ePorts o) 0x5E (fun m a => ⟨m.copyCheck (a.v 2) (if sp then some (a.v 0) else none), a.v 0, a.v 1, a.v 2,
      if sp then [⟨(a.v 0).toNat, (a.v 2).toNat, true⟩] else [], none⟩) ∧
    iss (.gadd h o) p2 0x5F (fun m a => ⟨m.spCheck (a.v 1) lanes (gtSize (o.fl.toNat / 128)), a.v 0, a.v 1, 0, [⟨(a.v 1).toNat, lanes, false⟩], none⟩) ∧
    iss (.gamo h o) { Ports.none with srcs := [o.o1, o.o2] ++ (if o.fl.toNat / 64 = 4 then [o.o3] else []) } 0x60
      (fun _ a => ⟨none, a.v 0, a.v 1, a.v 2, [], none⟩) ∧
    iss (.gqop h o) p2 0x61 (fun _ a => ⟨none, a.v 0, a.v 1, 0, [], none⟩) ∧
    iss (.gred h o) (ePorts o) 0x62 (fun m a => ⟨m.spCheck (a.v 2) (grRb o.fl) 32, a.v 0, a.v 1, a.v 2,
      ⟨(a.v 2).toNat, grRb o.fl, true⟩ :: (if o.fl.getLsbD 8 then [⟨(a.v 2).toNat, grRb o.fl, false⟩] else []), none⟩) ∧
    iss (.gaxpy h o) (ePorts o) 0x63 (fun m a => ⟨m.spCheck (a.v 1) lanes 4, a.v 0, a.v 1, a.v 2, [⟨(a.v 1).toNat, lanes, false⟩], none⟩) ∧
    iss (.gfen h o) Ports.none 0x64 (fun _ _ => ⟨none, 0, 0, 0, [], none⟩) ∧
    iss (.spk h o) (ePorts o) 0x6E (fun m a => ⟨m.spkCheck o (a.v 0) (a.v 1) (a.v 2), a.v 0, a.v 1, a.v 2,
      [⟨(a.v 2).toNat, 16 * (o.fl.toNat % 32), false⟩], none⟩) ∧
    iss (.tkenq h o) p2 0x72 (fun m a => ⟨if 4095 < (a.v 0).toNat then some (0x33, m.s.freeTval) else
      if (a.v 1).toNat % 128 ≠ 0 then some (0x11, a.v 1) else none, a.v 0, a.v 1, 0, [], none⟩)

/-- R332, R334 to R340, R343, R346 to R348: the words of the equivalence engine issue their command, with the forest's ranges beside
their own, and every one but EQU closes the run of unions before it. -/
def Obligations.EquivalenceWordsIssueTheirCommand : Prop :=
  ∀ h (o : E),
    let iss : Instr → Ports → Nat → Option (BitVec 6) → (Mach → Opnds → EngArgs) → Prop := fun i p opc out args =>
      RunsIf i h p
        (fun m a => m.k.eng.eqFail = none ∧ m.k.forestBad = none ∧
          EngineFree (if opc = 0x66 then m else m.ctx Ctx.closeRun) a o opc (args m a))
        (fun m a => (if opc = 0x66 then m else m.ctx Ctx.closeRun).issueCmd h o opc { args m a with out := out })
    let forest : Mach → List Range := fun m => m.k.sr.forestRanges
    let elem : Mach → Word → Option (BitVec 8 × Word) := fun m x => if m.k.sr.eqN ≤ x.toNat then some (0x40, eqTval 1 x) else none
    iss (.eqclr h o) { Ports.none with srcs := [o.o1, o.o2] } 0x65 none (fun m a =>
      ⟨if m.k.sr.eqN < (a.v 0).toNat + (a.v 1).toNat then some (0x40, eqTval 2 (a.v 1)) else none, a.v 0, a.v 1, 0, forest m, none⟩) ∧
    iss (.equ h o) { Ports.none with srcs := [o.o1, o.o2] } 0x66 none (fun m a =>
      ⟨(elem m (a.v 0)).or (elem m (a.v 1)), a.v 0, a.v 1, 0, forest m, none⟩) ∧
    iss (.eqf h o) { Ports.none with srcs := [o.o2], dsts := [o.o1] } 0x67 (some o.o1) (fun m a => ⟨elem m (a.v 0), 0, a.v 0, 0, forest m, none⟩) ∧
    iss (.eqz h o) { Ports.none with srcs := o.o2 :: (if o.fl.getLsbD 3 then [o.o3] else []), dsts := [o.o1] } 0x68 (some o.o1) (fun m a =>
      ⟨(elem m (a.v 0)).or (if o.fl.getLsbD 3 && ((a.v 1).toNat = 0 || 2 ^ 20 < (a.v 1).toNat) then some (0x40, eqTval 3 (a.v 1)) else none),
        0, a.v 0, a.v 1, forest m, none⟩) ∧
    iss (.eqsnp h o) { Ports.none with dsts := [o.o1] } 0x6A (some o.o1) (fun m _ =>
      ⟨if m.k.sr.logCap = 0 then some (0x40, eqTval 4 0) else none, 0, 0, 0, forest m, none⟩) ∧
    iss (.eqund h o) { Ports.none with srcs := [o.o1] } 0x6B none (fun m a =>
      ⟨if 16 < (a.v 0).toNat then some (0x40, eqTval 3 (a.v 0)) else none, a.v 0, 0, 0, forest m, none⟩) ∧
    (eqrQueue o.fl = none → iss (.eqr h o) (eqrPorts o) 0x69 none (fun m a =>
      let bytes := if o.fl.getLsbD 8 then 4 * m.k.sr.eqN * eqrW o.fl else 4 * m.k.sr.eqN
      ⟨(m.spCheck (a.v 0) bytes 4).or (if o.fl.getLsbD 8 then m.spCheck (a.v 1) bytes 4 else none), a.v 0, a.v 1, 0,
        forest m ++ (⟨(a.v 0).toNat, bytes, true⟩ :: (if o.fl.getLsbD 8 then [⟨(a.v 1).toNat, bytes, false⟩] else [])), none⟩)) ∧
    (∀ q, eqrQueue o.fl = some q →
      let bytes : Mach → Nat := fun m => if o.fl.getLsbD 8 then 4 * m.k.sr.eqN * eqrW o.fl else 4 * m.k.sr.eqN
      let args : Mach → Opnds → EngArgs := fun m a =>
        ⟨m.spCheck (a.v 0) (bytes m) 4, a.v 0, a.v 1, 0, forest m ++ [⟨(a.v 0).toNat, bytes m, true⟩], none⟩
      let popped : Mach → Opnds → Nat × Mach := fun m a =>
        Mach.popEqr q true (eqrNeed m.k.sr.eqN o.fl) (((m.ctx Ctx.closeRun).issueCmd h o 0x69 (args m a)).ctx fun k =>
          k.awaits (eqrNeed m.k.sr.eqN o.fl) m.k.sr.seq)
      RunsIf (.eqr h o) h (eqrPorts o)
        (fun m a => m.t.prog = none ∧ m.k.eng.eqFail = none ∧ m.k.forestBad = none ∧ EngineFree (m.ctx Ctx.closeRun) a o 0x69 (args m a) ∧
          (0 < eqrNeed m.k.sr.eqN o.fl → (popSlot (m.k.rq? q)).isSome = true) ∧ (popped m a).1 = eqrNeed m.k.sr.eqN o.fl)
        (fun m a => (popped m a).2))

/-- R307 to R309, R313: what an issued command is. It takes the number sr.seq, which rises by one modulo 2^16; its operands, flags,
guard and ranges are the word's; it waits for the unretired ones of the two commands that P1 and P2 name; the unretired commands
before it stay. Under a false guard the word takes its number too, and a word that produces records pushes one of status 0x01; that
its aux is 0 is the model's reading (log 48). -/
def Obligations.IssuedCommandsAreNumberedInOrder : Prop :=
  ∀ (m : Mach) h (o : E) opc (a : EngArgs), a.out = none →
    (∃ c, (m.issueCmd h o opc a).k.eng.cmds = m.k.eng.cmds ++ [c] ∧ c.seq = m.k.sr.seq ∧ c.opc = opc ∧ c.o1 = a.o1 ∧ c.o2 = a.o2 ∧
      c.o3 = a.o3 ∧ c.fl = o.fl ∧ c.g = h.g.toNat ∧ c.gn = h.gn ∧ c.ranges = a.ranges ∧
      (∀ p, p ∈ c.preds ↔ ((o.p1 ≠ 0 ∧ p = m.k.sr.seq - o.p1.setWidth 16) ∨ (o.p2 ≠ 0 ∧ p = m.k.sr.seq - o.p2.setWidth 16)) ∧
        (m.k.cmd? p).isSome = true)) ∧
    (m.issueCmd h o opc a).k.sr = { m.k.sr with seq := m.k.sr.seq + 1 } ∧ (m.issueCmd h o opc a).s = m.s ∧
    (m.issueCmd h o opc a).k = { m.k with eng := (m.issueCmd h o opc a).k.eng, sr := (m.issueCmd h o opc a).k.sr } ∧
    (m.skipCmd opc none).k.sr.seq = m.k.sr.seq + 1 ∧ (m.skipCmd opc none).s = m.s ∧
    (producesRec opc = true → (m.skipCmd opc none).k.recsOf (engOf opc) = m.k.recsOf (engOf opc) ++ [⟨recInfo m.k.sr.seq 0x01 opc 0, 0, []⟩])

/-- R117, R316, R317, R367, R368, R374: DEQ takes the oldest record of its engine, ENGST reads the engine, EVA arms a class and gives its
old handler, EVW and EVQ take the oldest event of a selected class, TKSIG signals to the gang once. Where DST and S1 name one queue, the
second push waits until the queue has a slot for it. The signal of a context bound dormant stands apart from those of the members, and
TKSIG waits on a line of an expander that does not respond (log 41, the model's choices). -/
def Obligations.QueryAndEventWords : Prop :=
  ∀ h (o : S3),
    let eng := o.fn.toNat % 4
    let p2 : Ports := ports2 o
    let same : Prop := isQ o.dst = true ∧ o.dst = o.s1
    let room : Mach → Prop := fun m => same → 2 ≤ freeSlots (qNum o.dst) (m.k.sq? (qNum o.dst))
    let gate : Mach → Mach := fun m => if eng = 1 then m.ctx Ctx.closeRun else m
    let open_ : Mach → Prop := fun m => eng = 1 → m.k.eng.eqFail = none
    (∀ r rest, RunsIf (.deq h o) h p2 (fun m a => a.act = true ∧ room m ∧ open_ m ∧ (gate m).k.recsOf eng = r :: rest)
      (fun m _ =>
        let m := gate m
        (({ m with s := r.sectors.foldl (fun s sec => s.l1Drop m.core sec) m.s }.ctx fun k =>
          { k with eng := k.eng.taken eng r rest }).put o.dst true r.info true).put o.s1 true r.value true)) ∧
    RunsIf (.deq h o) h p2 (fun m a => a.act = true ∧ room m ∧ open_ m ∧ (gate m).k.recsOf eng = [] ∧ o.fn.getLsbD 2 = true)
      (fun m _ => ((gate m).put o.dst true (BitVec.allOnes 64) true).put o.s1 true 0 true) ∧
    (∀ s m, AtTurn s m (.deq h o) h p2 →
      let n := m.taken h p2
      same → (m.opnds h p2).act = true → open_ n → (gate n).k.recsOf eng = [] → o.fn.getLsbD 2 = true →
      freeSlots (qNum o.dst) (n.k.sq? (qNum o.dst)) = 1 →
      exec (.deq h o) s = .next ((((gate n).put o.dst true (BitVec.allOnes 64) true).str fun t =>
        { t with prog := some ⟨1, 2, some 0⟩ }).leave (.going .slot))) ∧
    (∀ s m w i, AtHead s m h → (i = .deq h o ∨ i = .evw h o ∨ i = .evq h o) → m.checkWord i h = none → same →
      m.t.prog = some ⟨1, 2, some w⟩ →
      let push : Mach := m.woken.ctx fun k => k.pushS (qNum o.dst) (if m.active h then w else 0) (m.active h)
      (freeSlots (qNum o.dst) (m.k.sq? (qNum o.dst)) ≠ 0 → exec i s = .next (push.completed h)) ∧
      (freeSlots (qNum o.dst) (m.k.sq? (qNum o.dst)) = 0 →
        exec i s = .next ((m.woken.str fun t => { t with prog := some ⟨1, 2, some w⟩ }).leave (.going .slot)))) ∧
    RunsIf (.engst h o) h { Ports.none with dsts := [o.dst] } (fun m _ => open_ m)
      (fun m a => (gate m).put o.dst a.act ((gate m).k.engStat eng (o.fn.toNat / 4 % 8)) true) ∧
    RunsIf (.eva h o) h (s3Ports1 o) (fun _ a => a.act = true ∧ (a.v 0).toNat % 8 = 0)
      (fun m a => (m.ctx fun k => { k with arms := tset 0 k.arms (o.fn.toNat % 8) (a.v 0) }).put o.dst true (tget 0 m.k.arms (o.fn.toNat % 8)) a.valid) ∧
    (∀ e rest,
      let took : Mach → Opnds → Mach := fun m _ =>
        (((m.ctx Ctx.closeRun).ctx fun k => { k with evq := rest }).put o.dst true e.1 true).put o.s1 true e.2 true
      RunsIf (.evw h o) h p2 (fun m a => a.act = true ∧ room m ∧ takeEvent o.fn m.k.evq = some (e, rest)) took ∧
      RunsIf (.evq h o) h p2 (fun m a => a.act = true ∧ room m ∧ takeEvent o.fn m.k.evq = some (e, rest)) took) ∧
    RunsIf (.evq h o) h p2 (fun m a => a.act = true ∧ room m ∧ takeEvent o.fn m.k.evq = none)
      (fun m _ => ((m.ctx Ctx.closeRun).put o.dst true (BitVec.allOnes 64) true).put o.s1 true 0 true) ∧
    RunsIf (.tksig h o) h { Ports.none with srcs := [o.s1] }
      (fun m a => a.act = true ∧ m.k.signalled = false ∧ m.k.released = true ∧ m.s.rangesDead (stoveOf m.core) [(0, 2 ^ 54)] = false)
      (fun m a =>
        let e := (m.k.bd.rank, o.fn, a.v 0)
        let sig : Gang → Gang := fun g => if m.k.bd.dormant then { g with dsignals := g.dsignals ++ [e] } else { g with signals := g.signals ++ [e] }
        ({ m with s := (m.s.cleanStove m.core m.k.bd.vdev).gangUpd m.k.bd.vdev m.k.bd.task sig }).ctx fun k => { k with signalled := true })

/-- R400, R425, R427 to R429, R431, R434, R449, R466: a context that settles is stopped: with its fault record gathered, or so that the core
goes to its other bank; the oldest record is written into the ring while it has room; Polpen's answer resumes a context, whose
accesses to expanders are translated again, or ends its gang; a machine check and an expander that does not respond escalate;
saving and restoring, the end of a run and the start of a calendar slot. What a stop does not wait for and what a resume executes
again (log 26), which dwords of a save area are the model's or the device's (log 31), what becomes of the frame of a page that a
command does not switch (log 30), and what an end by Polpen does to commands (log 37) and to accesses of an expander that does not
respond (log 26) are the model's choice. -/
def Obligations.ContextsStopAndGoOn : Prop :=
  (∀ s x k, s.ctx? x = some k → k.run = .stopping true → s.settled x k = true →
    exec (.contextStopComplete x) s = .next { s.setCtx x { k.atRest with
        run := .stopped, unanswered := true, smask := 0, wmark := 0
        machineChecked := Stream.all.any fun st => k.smask.getLsbD st.num && (k.str st).cause == 0x62 } with
      frecs := s.frecs ++ [s.faultRec x k] }) ∧
  (∀ (s : State) (x : CtxRef) (k : Ctx) (st : Stream),
    let w : Nat → Word := fun i => (s.faultRec x k).words.getD i 0
    let mine := k.smask.getLsbD st.num
    w 0 = W (x.core.toNat + b2n x.bank * 2 ^ 8 + k.smask.toNat * 2 ^ 12 + k.bd.vdev * 2 ^ 16) ∧ w 1 = k.bd.task ∧
    w (2 + 3 * st.num) = (if mine then (k.str st).cause else 0) ∧ w (3 + 3 * st.num) = (if mine then (k.str st).epc else 0) ∧
    w (4 + 3 * st.num) = (if mine then (k.str st).tval else 0) ∧ w 14 = W s.time ∧ w 15 = 0) ∧
  (∀ s x k,
    let s1 := s.setCtx x { k.atRest with run := .ready }
    s.ctx? x = some k → k.run = .stopping false → s.settled x k = true → s1.runsAt x = true → s1.readyAt (otherBank x) = true →
    s1.barred (otherBank x) = false → exec (.contextStopComplete x) s = .next (s1.runBank (otherBank x))) ∧
  (∀ (k : Ctx) (st : Stream), (k.atRest.str st).pc = (k.str st).pc ∧ (k.atRest.str st).regs = (k.str st).regs ∧
    (k.atRest.str st).wakeAt = none ∧
    (k.atRest.str st).epc = (if (k.str st).inBody && !k.smask.getLsbD st.num then (k.str st).pc &&& 0x003FFFFFFFFFFFF8 else (k.str st).epc)) ∧
  (∀ s r rest,
    let size := 2 ^ bits (s.reg 0x50000) 0 5
    let tail := bits (s.reg 0x50008) 0 32
    let head := bits (s.reg 0x50008) 32 32
    s.frecs = r :: rest → (tail + 2 ^ 32 - head) % 2 ^ 32 < size →
    exec .faultRecordPost s = .next { (s.pkgPut (bits (s.reg 0x50000) 12 40 * 4096 + tail % size * 128)
        (r.words.flatMap fun w => leBytes 8 w.toNat)).setReg 0x50008 (W (head * 2 ^ 32 + (tail + 1) % 2 ^ 32)) with frecs := rest }) ∧
  (∀ s x k, s.ctx? x = some k → k.run = .stopped → k.unanswered = true → k.machineChecked = false →
    let s' := s.answerReg x false 0
    let u := s'.retarget x k
    let k' : Ctx := { u with run := .ready, unanswered := false, loads := u.loads.map fun (l : LoadEnt) => { l with late := false } }
    (s'.againFault x.core.toNat k = none → exec (.faultAnswerResume x) s = .next (s'.setCtx x k')) ∧
    (∀ st c va, s'.againFault x.core.toNat k = some (st, c, va) → exec (.faultAnswerResume x) s = .next (s'.trapAt x k' st c (W va)))) ∧
  (∀ s x k, s.ctx? x = some k → k.run = .stopped → k.unanswered = true → k.machineChecked = true →
    exec (.faultAnswerResume x) s = .next ((s.answerReg x false 0).endGang k.bd.vdev k.bd.task 255)) ∧
  (∀ s x k status, s.ctx? x = some k → k.run = .stopped → k.unanswered = true →
    exec (.faultAnswerEnd x status) s = .next ((s.answerReg x true status).endGang k.bd.vdev k.bd.task status)) ∧
  (∀ k : Ctx, k.endNow.allHalted = true ∧ k.endNow.run = .ready ∧ (∀ c ∈ k.endNow.eng.cmds, c.started = true)) ∧
  (∀ s x k st, s.ctx? x = some k → k.alive st = true →
    ∃ t k', exec (.machineCheck x st) s = .next t ∧ t.ctx? x = some k' ∧ k'.run = .stopping true ∧
      k'.smask = k.smask ||| (1 <<< st.num) ∧ (k'.str st).cause = 0x62 ∧ (k'.str st).epc = (k.str st).pc &&& 0x003FFFFFFFFFFFF8 ∧
      (k'.str st).regs = (k.str st).regs ∧ (k'.str st).plev = (k.str st).plev) ∧
  (∀ s x k st va, s.ctx? x = some k → s.isEnded k = false → s.deadAccess x k st = some va → k.alive st = true →
    ∃ t k', exec (.cxlExpanderTimeout x st none) s = .next t ∧ t.ctx? x = some k' ∧ k'.run = .stopping true ∧
      (k'.str st).cause = 0x63 ∧ (k'.str st).tval = W va) ∧
  (∀ s x k f va, s.ctx? x = some k → s.isEnded k = false → s.deadAccess x k .A = none → s.fillDead x k = some (f, va) →
    exec (.cxlExpanderTimeout x .A none) s = .next ((s.setCtx x (k.fillFault f 0x63 va false)).cxlSettle x)) ∧
  (∀ s x k st, s.ctx? x = some k → s.isEnded k = true → exec (.cxlExpanderTimeout x st none) s = .next (s.setCtx x (s.dropDead x k))) ∧
  (∀ s x k seq c, s.ctx? x = some k → k.cmd? seq = some c → s.cmdDead x k c = true → ∀ st,
    (c.opc ≠ 0x5C → s.xfer? x c.seq = none →
      exec (.cxlExpanderTimeout x st (some seq)) s = .next (s.retireCmd x k c 0x10 0 c.progress [])) ∧
    (∀ f, c.opc ≠ 0x5C → s.xfer? x c.seq = some f →
      exec (.cxlExpanderTimeout x st (some seq)) s = .next (s.remoteEnd x k c f 0x10)) ∧
    (∀ va c' s1 k', c.opc = 0x5C → State.pagesIn x k (c.o2.toNat - c.acts) s c = .wait va c' s1 →
      let s2 := s1.pageUndo (stoveOf x.core.toNat) k c'
      s2.ctx? x = some k' → exec (.cxlExpanderTimeout x st (some seq)) s = .next (s2.retireCmd x k' c' 0x10 va c'.aux []))) ∧
  (∀ s x k, s.ctx? x = some k → isHbm s.saveArea = true →
    let s1 := s.gangMap k Ctx.hold
    let s2 := (s1.writeArea x k.leaving s.saveArea).unbind x
    (s1.gangStopping k = true → exec (.contextSave x) s = .next (s1.saveEnd x true)) ∧
    (s1.gangStopping k = false →
      exec (.contextSave x) s = .next ({ s2 with saved := s2.saved ++ [(⟨x, s.saveArea, k.leaving⟩ : Saved)] }.saveEnd x false))) ∧
  (∀ s x, s.ctx? x = none → exec (.contextSave x) s = .next (s.saveEnd x false)) ∧
  (∀ s x p,
    let g := s.areaGet s.saveArea
    let e := p.k.overlay true g
    let s1 := { s with saved := s.saved.filter fun (q : Saved) => !(some q == some p) }
    let s2 := s1.mem fun m => { m with l1 := m.l1.filter fun q => q.1 / 2 ^ 46 != x.core.toNat }
    s.savedAt x g = some p → s.ctx? x = none → isHbm s.saveArea = true → bitAt (g 0) 8 = x.bank →
    exec (.contextRestore x) s = .next (if s.areaOk x p.k e g && !s.restoreClash x true e then (s2.comeBack x { e with run := e.backRun }).restoreEnd x false
      else s.restoreEnd x true)) ∧
  (∀ (s : State) (core : BitVec 8) (k : Ctx),
    let x : CtxRef := ⟨core, tget 0 s.running core.toNat == 1⟩
    s.ctx? x = some k → k.run = .ready → s.readyAt (otherBank x) = true → s.barred (otherBank x) = false →
    exec (.quantumRunEnd core) s = .next (s.setCtx x { k with run := .stopping false })) ∧
  (∀ s, exec .calendarSlotStart s = .next ((upTo 192).foldl State.slotSwitch s)) ∧
  (∀ (s : State) (core : Nat) (k : Ctx),
    let x : CtxRef := ⟨BitVec.ofNat 8 core, tget 0 s.running core == 1⟩
    s.ctx? x = some k → s.slotSwitch core = (if k.run = .ready ∧ s.barred x = true then s.setCtx x { k with run := .stopping false } else s))

/-- R17, R18, R20, R21, R369, R374, R438 to R449: a record that passes its checks is accepted, and one that does not completes unbound;
raising a floor clears the map below it; a bind record that fits binds its contexts, one that does not is refused; a context that
has halted ends; a dormant one returns, or starts again; a task whose contexts are done completes with its status block, value and
info written. The guards at bind (log 14), how dispatch reaches memory, the order of a record's checks and what a bind record is
refused for (log 25), and which lines a completion writes back (log 41) are the model's choice. -/
def Obligations.TasksAreAcceptedBoundAndCompleted : Prop :=
  (∀ s (queue : BitVec 12) l s1,
    let q := queue.toNat
    let i := tget 0 s.accepted q
    let vdev := bits (s.reg (qCfg q)) 56 6
    let addr := s.queueSlot q i
    let t := taskOf vdev q i addr l
    bitAt (s.reg (qCfg q)) 63 = true → s.queueTail q ≠ i → s.slotWords vdev q i addr = (l, s1) →
    (∀ s2, s1.checkRecord t l = .ok s2 →
      exec (.taskRecordAccept queue) s = .next
        ({ s2 with accepted := tset 0 s2.accepted q ((i + 1) % 2 ^ 32), tasks := s2.tasks ++ [t] }.sweep vdev)) ∧
    (∀ st s2 s3, s1.checkRecord t l = .error st s2 → s2.neverBound vdev t.stats t.comp t.seq st = some s3 →
      let u := { s3 with accepted := tset 0 s3.accepted q ((i + 1) % 2 ^ 32), tasks := s3.tasks ++ [{ t with out := true }] }.advanceHead q 8192
      exec (.taskRecordAccept queue) s = .next (if st = 0xE4 then u else u.markComplete vdev t.seq))) ∧
  (∀ s (vdev : BitVec 6) v,
    let s1 := s.setReg (0xD0000 + 0x10 * vdev.toNat) v
    exec (.floorWrite vdev v) s = .next ({ s1 with complete := s.complete.filter fun p => !(p.1 == vdev.toNat && decide (p.2.toNat < v.toNat)) }.sweep
      vdev.toNat)) ∧
  (∀ s v l s1,
    let addr := bits v 8 44 * 256
    let b := BindRec.ofWords l
    bitAt v 63 = true → isHbm addr = true → s.pkgDwords (rawAcc s 0 0 (addr / 64)) addr 32 = (l, false, s1) →
    (b.ok = false ∨ b.cores.any (s1.bindRefused b) = true → exec (.bindCommit v) s = .next (s1.slotDone v true)) ∧
    (b.ok = true → b.dormant = false → s1.gang? b.vdev b.seq = none → s1.isComplete b.vdev b.seq = false →
      b.cores.any (s1.bindRefused b) = false →
      (∀ d s2, s1.kdesc b.vdev b.kdesc.toNat = .ok d s2 → s2.placeRefused b d = false → (b.cores.length ≤ 48 ∨ d.spread = true) →
        d.ssize ≤ b.ssize → (upTo 8).any (fun n => d.slots.testBit n &&
          !(decide ((splitSlots b.split b.second).1 ≤ n) && decide (n < (splitSlots b.split b.second).1 + (splitSlots b.split b.second).2))) = false →
        exec (.bindCommit v) s = .next ((s2.bindAll b d addr).slotDone v false)) ∧
      (∀ s2 s3, s1.kdesc b.vdev b.kdesc.toNat = .bad s2 → s2.bindFail b 0xE1 = some s3 → exec (.bindCommit v) s = .next (s3.slotDone v false)))) ∧
  (∀ (s : State) (b : BindRec) (d : KDesc) (recAddr core rank gsize : Nat),
    let k := Ctx.init (b.binding d recAddr rank gsize) b.bank (s.reg (0x30008 + 0x80 * b.vdev)) (bitAt (s.reg (0x20000 + 8 * b.vdev)) 0) b.args
      (fun n => tget 0 d.entry n) (fun n => b.tvecs.getD n 0 &&& 0x003FFFFFFFFFFFF9)
    (s.bindCore b d recAddr core rank gsize).ctx? (b.at_ core) = some { k with held := s.gangOut k } ∧
    (∀ st, (k.str st).plev = false ∧ (k.str st).halted = false ∧ (k.str st).guards = 1 ∧ (k.str st).pc = tget 0 d.entry st.num) ∧
    k.a.reg 0 = b.args ∧ (∀ n, n ≠ 0 → k.a.reg n = 0) ∧ (∀ n, k.v.reg n = 0 ∧ k.m.reg n = 0 ∧ k.d.reg n = 0) ∧
    (∀ off, b.sbase ≤ off → off < b.sbase + b.ssize → (s.bindCore b d recAddr core rank gsize).spByte core off = 0)) ∧
  (∀ s x k g k' s1, (s.saved.find? fun (q : Saved) => q.x == x && ((s.gangOf q.k).any fun g => g.endStatus.isSome)) = none →
    s.ctx? x = some k → s.gangOf k = some g → k.bd.dormant = false → g.ended.contains k.bd.rank = false → k.allHalted = true →
    k.run = .ready → s.quiet x k = true → s.release x k = some (k', s1) → g.done = false →
    exec (.contextEnd x) s = .next ((((s1.setCtx x { k' with eng := { k'.eng with
        recs := [], gfail := 0, gfailSeq := 0, gfailStatus := 0, eqFail := none } }).setReg (slotEntry x) 0).gangUpd g.vdev g.task
      fun g => { g with ended := g.ended ++ [k'.bd.rank] }))) ∧
  (∀ s x k k' s1, s.ctx? x = some k → k.bd.dormant = true → k.started = true → k.run = .ready → k.allHalted = true → s.settled x k = true →
    s.release x k = some (k', s1) →
    let rd := bits k'.sr.spkin 24 5
    let off := k'.sr.inboxEntry rd
    (bits k'.sr.spkin 32 5 = rd → exec (.dormantReturn x) s = .next (s1.setCtx x { k' with run := .dormant, started := false })) ∧
    (bits k'.sr.spkin 32 5 ≠ rd → exec (.dormantReturn x) s = .next (s1.setCtx x
      (({ k' with run := .dormant, started := false } : Ctx).start (W (leNat (s1.spRead x.core.toNat (k'.bd.sbase + off + 8) 8))) 1 (W off) 0)))) ∧
  (∀ s (vdev : BitVec 6) seq g s1, s.gang? vdev.toNat seq = some g → s.mayComplete g = true → g.endStatus = none →
    (g.stoves.foldl (fun (s : State) n => s.cleanStove (48 * n) vdev.toNat) s).writeCompletion vdev.toNat g.stats g.comp g.block false g.result.1
      g.result.2 seq = some s1 →
    ∃ t s2 : State, exec (.taskComplete vdev seq) s = .next t ∧ t = s2.markComplete vdev.toNat seq ∧ s2.ms = s1.ms ∧ s2.ctl = s1.ctl)

/-- R304, R305, R407 to R409, R411, R412, R417 to R423, R449, R466, R474, R476: the device control space and what Polpen, the memories
and the boot ROM do. What the flash holds at reset (log 5), the values of registers without a stated one (log 8), what unwritten
memory reads (log 11), the lines that caches let go of (log 12), the byte that a symbol in error stands at, and the poison of an
expander's sector on MEMORY_SYMBOL_ERROR (log 20, DEDUCED), the lines of a shootdown (log 27), what a write of an order log's
configuration register forgets (log 29), the steps of bring-up (log 38), what a freeze stops (log 40) and what becomes of a
SCRUB_REQUEST while 64 are pending (log 58) are the model's choice. -/
def Obligations.DeviceEvents : Prop :=
  (∀ s (off : BitVec 20) v, ctlMask off.toNat ≠ 0 → ¬ (0xB0000 ≤ off.toNat ∧ off.toNat < 0xB1000) → ¬ (0xD1000 ≤ off.toNat ∧ off.toNat < 0xD1400) →
    ¬ (0xE0000 ≤ off.toNat ∧ off.toNat < 0xE1000 ∧ (off.toNat % 0x100 = 0 ∨ (0x20 ≤ off.toNat % 0x100 ∧ off.toNat % 0x100 < 0x40))) →
    isLogCfg off.toNat = false → exec (.controlRegisterWrite off v) s = .next (s.setReg off.toNat (v &&& ctlMask off.toNat))) ∧
  (∀ s (off : BitVec 20) v, ctlMask off.toNat = 0 → exec (.controlRegisterWrite off v) s = .next s) ∧
  (∀ s (off : BitVec 20) v, isLogCfg off.toNat = true → ctlMask off.toNat ≠ 0 → exec (.controlRegisterWrite off v) s =
    .next { s.setReg off.toNat (v &&& ctlMask off.toNat) with matched := s.matched.filter fun p => p.1 != (off.toNat - 0xC0000) / 0x20 }) ∧
  (∀ s (u : BitVec 5) v, exec (.erasureMarkWrite u v) s = .next (s.setReg (0x10000 + 0x20 * u.toNat) (v &&& 0x3F)) ∧
    exec (.correctedCountClear u) s = .next (s.setReg (0x10008 + 0x20 * u.toNat) 0) ∧
    exec (.uncorrectableCountClear u) s = .next (s.setReg (0x10010 + 0x20 * u.toNat) 0)) ∧
  (∀ s x k kind l s1 l' s2,
    let va := bits k.sr.inject 6 48 * 64
    let done (err : Bool) : Ctx := { k with sr := { k.sr with injecting := false, inject := k.sr.inject ||| W (b2n err * 2 ^ 62) } }
    s.ctx? x = some k → k.sr.injecting = true → bits k.sr.inject 56 2 = kind →
    (s.xlate x.core.toNat k.bd.vdev va = (.ok l, s1) → lfTier l.leaf = 0 → isHbm (l.pa va) = true →
      (kind = 0 → exec (.injectPoison x) s = .next ((((granuleOf (lfG l.leaf) (l.pa va / 64)).foldl State.mscDrop s1).poisonGranule (lfTag l.leaf)
        (l.pa va / 64)).setCtx x (done false))) ∧
      (kind = 1 → exec (.injectSymbol x) s = .next ((s1.addSymbols (64 * (l.pa va / 64)) 1).setCtx x (done false)))) ∧
    (s.xlate x.core.toNat k.bd.vdev va = (.fail l', s2) →
      (kind = 0 → exec (.injectPoison x) s = .next (s2.setCtx x (done true))) ∧
      (kind = 1 → exec (.injectSymbol x) s = .next (s2.setCtx x (done true))))) ∧
  (∀ s pa bytes, rangeOk 0 pa.toNat bytes.length = true → exec (.managementCoreStore pa bytes) s = .next (s.pkgPut pa.toNat bytes)) ∧
  (∀ s pa n, isHbm pa.toNat = true → exec (.memorySymbolError pa n) s = .next (s.addSymbols pa.toNat n)) ∧
  (∀ s pa n, isHbm pa.toNat = false →
    exec (.memorySymbolError pa n) s = .next (if rangeOk 1 pa.toNat 1 = true then s.cxlPoison (pa.toNat / 64) else s) ∧
    (s.cxlPoison (pa.toNat / 64)).ms.poison.contains (pa.toNat / 64) = true) ∧
  (∀ s quad pc, ∃ t, exec (.pseudoChannelFailure quad pc) s = .next t ∧ t = { s with ms := { s.ms with deadPc := t.ms.deadPc } } ∧
    ∀ n, t.ms.deadPc.contains n = (s.ms.deadPc.contains n || n == 32 * quad.toNat + pc.toNat)) ∧
  (∀ s (port : BitVec 2), ∃ t u, exec (.expanderStopsResponding port) s = .next t ∧ exec (.expanderReturn port) s = .next u ∧
    t = { s with ms := { s.ms with expDown := t.ms.expDown } } ∧ u = { s with ms := { s.ms with expDown := u.ms.expDown } } ∧
    ∀ n, t.ms.expDown.contains n = (s.ms.expDown.contains n || n == port.toNat) ∧
      u.ms.expDown.contains n = (s.ms.expDown.contains n && n != port.toNat)) ∧
  (∀ s cl (vdev : BitVec 6) (pages : BitVec 32), s.sd = none →
    let cmd (kind v n : Nat) : Word := W (2 ^ 63 + kind * 2 ^ 61 + b2n cl * 2 ^ 60 + v * 2 ^ 32 + n)
    let range : Shootdown := ⟨cl, 0, vdev.toNat, bits (s.reg 0x40000) 16 38 * 2 ^ 16, pages.toNat * 2 ^ 16, []⟩
    let whole : Shootdown := ⟨cl, 1, vdev.toNat, 0, 2 ^ 54, []⟩
    let all : Shootdown := ⟨cl, 2, 0, 0, 2 ^ 54, []⟩
    let goes (d : Shootdown) (v n : Nat) : State := { (s.shoot d).setReg 0x40008 (cmd d.kind v n) with sd := some { d with spans := s.heldSpans d } }
    exec (.shootdownRange cl vdev pages) s = .next (goes range vdev.toNat pages.toNat) ∧
    exec (.shootdownVdev cl vdev) s = .next (goes whole vdev.toNat 0) ∧ exec (.shootdownAll cl) s = .next (goes all 0 0)) ∧
  (∀ s (d : Shootdown), s.sd = some d → d.cl = false → (∀ p ∈ s.ctxs, s.shootBusy d (keyCtx p.1) p.2 = false) →
    (∀ q ∈ s.saved, d.awaitsCmds q.k = false) → s.xfers = [] →
    exec .shootdownComplete s = .next { s.setReg 0x40008 (keep (s.reg 0x40008) 62 0) with sd := none }) ∧
  (∀ s v, ∃ t, exec (.scrubRequest v) s = .next t ∧ t = { s with ms := t.ms, ctl := t.ctl } ∧
    t.ms = { s.ms with scrubs := s.ms.scrubs ++ [keep v 51 16 ||| keep v 1 0] } ∧ t.reg 0x40028 = W (min 64 (s.ms.scrubs.length + 1))) ∧
  (∀ s r rest, s.ms.scrubs = r :: rest →
    let pa := bits r 16 36 * 2 ^ 16
    let n := pageBytes (bits r 0 2)
    ∃ t, exec .scrubComplete s = .next t ∧ t = { s with ms := t.ms, ctl := t.ctl } ∧ t.ms.scrubs = rest ∧ t.reg 0x40028 = W (min 64 rest.length) ∧
      (∀ a, memByte t.ms.mem a = if pa ≤ a ∧ a < pa + n then 0 else memByte s.ms.mem a) ∧
      (∀ sec, pa / 64 ≤ sec → sec < (pa + n) / 64 → t.ms.poison.contains sec = false)) ∧
  (∀ s (core : BitVec 8) (vdev : BitVec 6) va x s1, s.walk vdev.toNat va.toNat = (.ok x, s1) →
    exec (.pageWalk core vdev va) s = .next (s1.tlbHold core.toNat vdev.toNat x)) ∧
  (∀ s, ∃ t, exec .freeze s = .next t ∧ t = { s with frozen := true, links := t.links } ∧ ∀ p < 16, (t.link p).up = false) ∧
  (∀ s (stove : BitVec 2) refill,
    exec (.thermalThrottle stove refill) s = .next (s.setReg (0x40 * stove.toNat)
      (keep (s.reg (0x40 * stove.toNat)) 47 16 ||| W (min (bits (s.reg (0x40 * stove.toNat)) 0 16) refill.toNat)))) ∧
  (∀ s, ∃ t, exec .thermalPowerOff s = .next t ∧ t.off = true ∧ t.host.flash = s.host.flash) ∧
  (∀ s, ∃ t, exec .packageReset s = .next t ∧ t.off = false ∧ t.frozen = false ∧ t.ctxs = [] ∧ t.ctl = [] ∧ t.host.flash = s.host.flash ∧
    t.host.enabled = false ∧ t.host.boot = 2 ∧ t.host.recovery = !t.host.imageGood) ∧
  (∀ s, s.host.recovery = false →
    (s.host.boot = 2 → exec .bringupEnable s =
      .next { s.setReg 0xE1000 (Config.deviceId.setWidth 64) with host := { s.host with boot := 3 } }) ∧
    (s.host.boot = 3 → ∃ t, exec .bringupEnable s = .next t ∧ t = { s with ms := t.ms, host := { s.host with boot := 4 } } ∧
      ∀ a, isHbm a = true → ∀ c ∈ t.ms.mem, c.1 ≠ a) ∧
    (s.host.boot = 4 → ∃ t, exec .bringupEnable s = .next t ∧ t = { s with host := t.host } ∧ t.host.enabled = true ∧ t.host.ready = true ∧
      t.host.boot = 5 ∧ t.host.msix = s.host.msix ++ [(0, 0)]))

/-- R308, R312, R313, R318, R320, R325, R332, R342, R348, R353 to R359, R371 to R373, R455, R457, R471: a command whose predecessors have
retired is performed by its engine; one that a failed predecessor cancels retires with status 0x02 and the number of that
predecessor; a grate command leaves its core and is performed; det mode releases a closed epoch in order. How a transfer with a peer
goes (log 24), what an act performs before it fails and the turns of a page move (log 30), the status of a refused spark and which
commands a failure leaves alone (log 35) are the model's reading; the order of unions in a run (log 48) and what a grate command does
that finds poison behind its first sector (log 57) are its choice. -/
def Obligations.CommandsOfTheEnginesAct : Prop :=
  (∀ s x k seq c, s.ctx? x = some k → k.cmd? seq = some c →
    let free := c.cancel = none ∧ c.preds = []
    (engOf c.opc = 0 → free → exec (.copyCommandAct x seq) s = .next (s.copyAct x k c)) ∧
    (engOf c.opc = 0 → ∀ p, c.cancel = some p → exec (.copyCommandAct x seq) s = .next (s.cancelCmd x k c p)) ∧
    (engOf c.opc = 1 → ∀ p, c.cancel = some p →
      exec (.eqCommandPerform x seq) s = .next (if k.mayPerform c then s.cancelCmd x k c p else s)) ∧
    (engOf c.opc = 1 → free → k.mayPerform c = true →
      exec (.eqCommandPerform x seq) s = .next (State.eqFinish x c (Fr.perform ⟨s, k, x.core.toNat, c.seq⟩ x c))) ∧
    (engOf c.opc = 2 → free → c.left = false → k.mayLeave c = true → c.opc ≠ 0x64 →
      exec (.grateCommandAct x seq) s = .next (s.setCtx x (k.setCmd { c with
        left := true, src := if c.opc = 0x5F || c.opc = 0x63 then s.spRead x.core.toNat (k.bd.sbase + c.o2.toNat) c.targetBytes else [] }))) ∧
    (engOf c.opc = 2 → c.left = false → k.mayLeave c = true → c.opc ≠ 0x64 → ∀ p, c.cancel = some p →
      exec (.grateCommandAct x seq) s = .next (s.cancelCmd x k c p)) ∧
    (engOf c.opc = 2 → c.left = true → c.opc ≠ 0x64 → (k.bd.det = 1 && c.detF32) = false →
      exec (.grateCommandAct x seq) s = .next (s.grateAct x k c)) ∧
    (c.opc = 0x64 → c.left = true → k.earlierGrate c = [] → c.cancel = none →
      exec (.grateCommandAct x seq) s = .next (s.retireCmd x { k with eng := { k.eng with gfail := 0, gfailSeq := 0, gfailStatus := 0 } } c
        (if k.eng.gfail = 0 then 0 else k.eng.gfailStatus.toNat) (if k.eng.gfail = 0 then 0 else k.eng.gfailSeq.setWidth 64)
        (min k.eng.gfail (2 ^ 31 - 1)) [])) ∧
    (c.opc = 0x64 → c.left = true → k.earlierGrate c = [] → ∀ p, c.cancel = some p →
      exec (.grateCommandAct x seq) s = .next (s.cancelCmd x k c p)) ∧
    (c.opc = 0x64 → c.left = true → k.earlierGrate c ≠ [] → exec (.grateCommandAct x seq) s = .next s) ∧
    (c.opc = 0x6E → free → bitAt c.o1 31 = true →
      let to_ : CtxRef := ⟨BitVec.ofNat 8 (bits c.o1 0 8), bitAt c.o1 8⟩
      (∀ u, s.ctx? to_ = some u → u.bd.vdev = k.bd.vdev → u.takesSpark = true → to_ ≠ x →
        exec (.sparkDeliver x seq) s = .next ((s.retireCmd x k c 0x00 0 0 []).deliverSpark to_ u (W (x.core.toNat + b2n x.bank * 2 ^ 8 + s.devId * 2 ^ 9))
          c.o2 (s.spRead x.core.toNat (k.bd.sbase + c.o3.toNat) (16 * (c.fl.toNat % 32))))) ∧
      (s.ctx? to_ = none → exec (.sparkDeliver x seq) s = .next (s.retireCmd x (k.refused c) c 0x00 0 0 []))) ∧
    (c.opc = 0x72 → free → ∀ bytes s1, s.taskRecord x.core.toNat k.bd.vdev c.o2.toNat = .ok bytes s1 →
      exec (.taskEnqueueAppend x seq) s = .next
        (if s1.queueOpen c.o1.toNat k.bd.vdev && !s1.queueFull c.o1.toNat then (s1.retireCmd x k c 0x00 0 0 []).queueAppend c.o1.toNat bytes
         else s1.retireCmd x (k.refused c) c 0x00 0 0 [])) ∧
    (∀ f count, (c.opc = 0x5D ∨ c.opc = 0x5E) → c.sent = true → s.xfer? x seq = some f →
      (exec (.commitMarkAck x seq count 0) s =
        .next (s.setXfer (if f.isGet then f else { f with count := max f.count (min count f.off) }))) ∧
      (f.lost = true → f.agrees count = true → s.getMark f = none →
        exec (.transferCountAgree x seq count) s = .next (s.remoteEnd x k c { f with count := count } 0x20)))) ∧
  (∀ (k : Ctx) c p, producesRec c.opc = true → c ∈ k.eng.cmds →
    (k.retire c 0x02 0 p []).recsOf (engOf c.opc) = k.recsOf (engOf c.opc) ++ [⟨recInfo c.seq 0x02 c.opc p, 0, []⟩] ∧
    (k.retire c 0x02 0 p []).cmd? c.seq = none ∧
    (∀ d ∈ k.eng.cmds, d.seq ≠ c.seq → c.seq ∈ d.preds → d.cancel = none → ∃ d' ∈ (k.retire c 0x02 0 p []).eng.cmds,
      d'.seq = d.seq ∧ d'.cancel = some c.seq ∧ c.seq ∉ d'.preds)) ∧
  (∀ s x k, s.ctx? x = some k → k.eng.runOver = true →
    ∃ t k', exec (.eqRunEnd x) s = .next t ∧ t.ctx? x = some k' ∧ k'.eng.ended = k.eng.ended + 1) ∧
  (∀ s (vdev : BitVec 6) task g e,
    let mine := (s.heldCmds g).filter fun p => p.2.epoch == e
    let t := State.applyHeld g (mine.foldl (fun l a => insertHeld a l) []) s
    s.gang? vdev.toNat task = some g → leastOf ((s.heldCmds g).map fun p => p.2.epoch) = some e → g.det = 1 → s.epochClosed g e = true →
    mine.all (fun p => p.2.left) = true → (t.heldCmds g).any (fun p => p.2.epoch == e) = false →
    exec (.detEpochRelease vdev task) s = .next t) ∧
  (∀ s (vdev : BitVec 6) j,
    let v := vdev.toNat
    let n := (s.logTail v + 2 ^ 32 - s.logHead v) % 2 ^ 32
    (upTo n).find? (fun j => !s.matched.contains (v, (s.logHead v + j) % 2 ^ 32)) = some j → bitAt (s.reg (logReg v)) 63 = true → s.logOn v = true →
    ∃ t r, exec (.replayMatchTimeout vdev) s = .next t ∧ t = { s.setReg (logReg v) (s.reg (logReg v) ||| W (2 ^ 62)) with frecs := s.frecs ++ [r] } ∧
      r.words.getD 2 0 = 0x14)

/-- R189, R211, R213, R248, R255 to R257, R262, R263, R285, R289, R299, R305: what comes back from memory, and what goes to it. A part of a
load is read, and the last one delivers it; a poisoned part gives its stream cause 0x1B; a store that nothing earlier holds leaves the
store buffer; a flue fetches; a window row is filled; the damper grants; a WAITW whose condition holds and a GBAR whose gang has
arrived complete. What a ring byte holds after a store to it (log 17), when a stream takes a late poison (log 18), what becomes of the
fill of a released window (log 36), which sectors heads take as undefined (log 42), when a store or a fill has its turn at an expander
(log 26) and the level that a grant above the cap leaves (log 56) are the model's choice. -/
def Obligations.MemoryAndHeadEvents : Prop :=
  (∀ s x k (l : LoadEnt) part off len, s.ctx? x = some k → k.loads.find? (fun (e : LoadEnt) => e.id == l.id) = some l →
    l.parts[part]? = some (off, len) → s.loadHeld x.core.toNat k l off len = false → s.partDead x.core.toNat l off len = false →
    (∀ bytes s1, s.loadPart x.core.toNat k l off len = (bytes, false, s1) →
      let l' : LoadEnt := { l with parts := l.parts.eraseIdx part, got := (bytes.zipIdx).foldl (fun t b => tset 0 t (off + b.2) b.1) l.got }
      (l.parts.length = 1 → exec (.loadDataReturn x l.id part) s =
        .next ((s1.setCtx x ({ k with loads := k.loads.filter fun (e : LoadEnt) => e.id != l.id }.loaded l')).cxlSettle x)) ∧
      (1 < l.parts.length → exec (.loadDataReturn x l.id part) s =
        .next ((s1.setCtx x { k with loads := k.loads.map fun (e : LoadEnt) => if e.id = l.id then l' else e }).cxlSettle x))) ∧
    (∀ bytes s1, s.loadPart x.core.toNat k l off len = (bytes, true, s1) → k.a.halted = false → k.alive .A = true →
      (l.late && k.a.plev) = false →
      let k' : Ctx := { k with loads := k.loads.map fun (e : LoadEnt) => if e.id = l.id then { e with late := true } else e }
      exec (.loadDataReturn x l.id part) s =
        .next (Mach.latePoison ⟨{ s1 with md := { s1.md with cur := x, curSt := .A } }, k', .A⟩ (W (l.va + off))).close) ∧
    (∀ bytes s1, s.loadPart x.core.toNat k l off len = (bytes, true, s1) → k.a.halted = true →
      exec (.loadDataReturn x l.id part) s =
        .next ((s.setCtx x { k with loads := k.loads.filter fun (e : LoadEnt) => e.id != l.id }).cxlSettle x))) ∧
  (∀ s x k (e : StoreEnt), s.ctx? x = some k → k.stores.find? (fun (q : StoreEnt) => q.id == e.id) = some e →
    s.storeHeld x.core.toNat k e = false → s.deadAt x.core.toNat e.pa 1 = false →
    (s.farAt x.core.toNat e.pa 1 = true → s.cxlTurn x k e.id = true) →
    let go := s.drainMates x.core.toNat k e
    let inOrder := (granuleOf (gOf e.tag) (e.pa / 64)).flatMap fun sec => go.filter fun (q : StoreEnt) => q.pa / 64 == sec
    exec (.storeDrain x e.id) s = .next (((s.setCtx x { k with stores := k.stores.filter fun (q : StoreEnt) => !(go.any fun d => d.id == q.id) }).pathWrite
      e.path ⟨x.core.toNat, k.bd.vdev, e.tag, 0⟩ (inOrder.flatMap fun (q : StoreEnt) => q.bytes.map fun b => (q.pa + b.1, b.2))).cxlSettle x) ∧
    (e.path ≠ .msc → go = [e])) ∧
  (∀ (s : State) a (ws : List (Nat × Byte)),
    let t := s.pathWrite .window a ws
    (∀ pa, pa ∉ ws.map (·.1) → memByte t.ms.mem pa = memByte s.ms.mem pa) ∧
    ((ws.map (·.1)).Nodup → ∀ w ∈ ws, memByte t.ms.mem w.1 = w.2) ∧ t = { s with ms := { s.ms with mem := t.ms.mem, poison := t.ms.poison } }) ∧
  (∀ (s : State) a (ws : List (Nat × Byte)), (∀ w ∈ ws, w.1 < 2 ^ 52) → a.core < 192 →
    let t := s.pathWrite .cached a ws
    let touched : Nat → Prop := fun sec => ∃ w ∈ ws, w.1 / 64 = sec
    (∀ stove sec, stove < 4 → sec < 2 ^ 46 → (stove ≠ stoveOf a.core ∨ ¬ touched sec) →
      tfind t.ms.l2 (cacheKey stove sec) = tfind s.ms.l2 (cacheKey stove sec) ∨ tfind t.ms.l2 (cacheKey stove sec) = none) ∧
    (∀ core sec, core < 192 → sec < 2 ^ 46 → (core ≠ a.core ∨ ¬ touched sec) →
      tfind t.ms.l1 (cacheKey core sec) = tfind s.ms.l1 (cacheKey core sec) ∨ tfind t.ms.l1 (cacheKey core sec) = none) ∧
    t.ms.spad = s.ms.spad ∧ t = { s with ms := t.ms, ctl := t.ctl }) ∧
  (∀ s x k (w : HeadWrite), s.ctx? x = some k → k.hwrites.find? (fun (q : HeadWrite) => q.id == w.id) = some w →
    k.hwrites.find? (fun (q : HeadWrite) => q.hd == w.hd) = some w → w.pieces.any (fun p => s.expDead p.pa) = false →
    let s1 := s.setCtx x { k with hwrites := k.hwrites.filter fun (q : HeadWrite) => q.id != w.id }
    exec (.headWritePerformed x w.id) s = .next ((w.pieces.foldl (fun (s : State) (p : WPiece) =>
      s.putWhole ⟨x.core.toNat, k.bd.vdev, p.tag, 1⟩ (bySector (bytesAt p.pa p.bytes))) s1).refetch k.bd.vdev w.handle w.idx)) ∧
  (∀ s x k (hd : BitVec 4), s.ctx? x = some k →
    exec (.flueFetch x hd) s = .next (s.flueFetch x k hd.toNat) ∧ exec (.fluePageTranslate x hd) s = .next (s.headTranslate x k hd.toNat)) ∧
  (∀ s x k (slot : BitVec 4) row f bytes s1, s.ctx? x = some k →
    (s.nextFill x k slot.toNat row.toNat).or (s.nextFill x k 16 row.toNat) = some f →
    f.zero = false → State.fillPieces x.core.toNat k f (pagePieces f.va f.n) s = .ok bytes s1 →
    exec (.windowFillComplete x slot row) s = .next (((s1.fillRing x.core.toNat k f bytes).setCtx x (k.fillDone f)).cxlSettle x)) ∧
  (∀ s (stove : BitVec 2) n k,
    let r := s.reg (0x40 * stove.toNat)
    let charge := (k.mat.ask.map (·.2.2)).sum
    firstAsk (s.ctxs.filter (s.asks stove.toNat)) = some (n, k) → keep r 47 0 ≠ 0 → charge ≤ tget 0 s.damper stove.toNat →
    ∃ t k', exec (.damperGrant stove) s = .next t ∧ t.ctx? (keyCtx n) = some k' ∧ k'.mat.granted = true ∧
      tget 0 t.damper stove.toNat = tget 0 s.damper stove.toNat - charge ∧ t = { s with ctxs := t.ctxs, damper := t.damper }) ∧
  (∀ s x k m h (o : S3) q t rs s1, s.ctx? x = some k → k.run = .ready → k.held = false → k.a.waiting = some (.waitw h o) →
    AtTurn (s.waking x) m (.waitw h o) h (s3Ports1 o) →
    let n := m.taken h (s3Ports1 o)
    let a := m.opnds h (s3Ports1 o)
    let r := s1.latchOp n.k q t fun _ => none
    a.act = true → n.latchAt (o.fn.toNat % 16) n.k.needLd false = .ok q t rs s1 → waitwHolds (o.fn.toNat / 32) r.1 (a.v 0) = true →
    n.cleanDead q rs r.2 = false →
    exec (.waitwWake x) s =
      .next ((({ n with s := r.2.acquireRanges n.core n.k q.scope rs }.put o.dst true r.1 a.valid).completed h).bankAsIn s x)) ∧
  (∀ s x k m h (o : S3), s.ctx? x = some k → k.run = .ready → k.held = false → k.a.waiting = some (.gbar h o) →
    AtTurn (s.waking x) m (.gbar h o) h { Ports.none with dsts := [o.dst] } →
    let n := m.taken h { Ports.none with dsts := [o.dst] }
    let rs := n.s.allRanges n.core n.k
    (m.opnds h { Ports.none with dsts := [o.dst] }).act = true → n.k.gbars < n.k.garrived → n.s.meet n.x n.k (n.k.gbars + 1) = .all →
    (o.fn.getLsbD 1 = true → n.s.gangSpread n.k = true → n.s.rangesDead (stoveOf n.core) rs = false) →
    let s2 := if o.fn.getLsbD 1 then n.s.acquireRanges n.core n.k 1 rs else n.s
    exec (.gbarDepart x) s =
      .next (((({ n with s := s2, k := { n.k with gbars := n.k.gbars + 1 } } : Mach).put o.dst true (W n.k.gbars) true).completed h).bankAsIn s x))

/-- R409, R410, R458 to R465, R474, R475: the host port. A message is posted in a mailbox with go = 1 and answered from there when its
function may send it and its fields are right; what the host writes while go = 1 is ignored; an aperture access that translates is
performed; the window is written; and the instructions of the test access port load their data register. The image's layout (log 6),
the chains' layouts (log 28), the order of the checks of a message and the registers of the base address ranges (log 29), the boot
status after an IMGGO (log 38) and the sectors that heads take as undefined (log 42) are the model's choice. -/
def Obligations.HostPortEvents : Prop :=
  (∀ s (fn : BitVec 6) (put : List Byte), s.mailOpen fn.toNat = true →
    let m := s.mailbox fn.toNat
    let posts : State := s.setMail fn.toNat (m.post put)
    let newType := (m.post put).type
    m.go = false →
    (newType = 0x0001 → exec (.imgput fn put) s = .next posts) ∧ (newType = 0x0002 → exec (.imggo fn put) s = .next posts) ∧
    (newType = 0x0010 → exec (.attest fn put) s = .next posts) ∧ (newType = 0x0020 → exec (.keyadd fn put) s = .next posts) ∧
    (newType = 0x0021 → exec (.keydel fn put) s = .next posts) ∧ (newType = 0x0022 → exec (.sigpol fn put) s = .next posts) ∧
    (newType = 0x0023 → exec (.verify fn put) s = .next posts) ∧
    (newType ∉ [0x0001, 0x0002, 0x0010, 0x0020, 0x0021, 0x0022, 0x0023] → exec (.mailboxUnknownType fn put) s = .next posts)) ∧
  (∀ (m : Mail) (put : List Byte), (m.post put).go = true ∧ (m.post put).len = put.length % 512 ∧
    (∀ i < min put.length 256, (m.post put).bytes.getD i 0 = put.getD i 0) ∧
    (∀ i, min put.length 256 ≤ i → (m.post put).bytes.getD i 0 = m.bytes.getD i 0)) ∧
  (∀ s (fn : BitVec 6) (put : List Byte), s.mailOpen fn.toNat = true → (s.mailbox fn.toNat).go = true →
    let msg := (s.mailbox fn.toNat).msg
    let is (ty : Nat) : Prop := (s.mailbox fn.toNat).type = ty ∧ msgField msg 2 2 = 0
    let key : List Byte := (msg.drop 16).take 64
    let up := s.host.recovery = false
    let off := msgField msg 8 8
    let set_ := off.testBit 17
    let part (n : Nat) : List Byte := (msg.drop n).take 32
    (is 0x0001 → s.host.recovery = true → 17 ≤ msg.length → msg.length ≤ 256 → off + (msg.length - 16) ≤ 2 ^ 26 →
      ∃ t : State, exec (.imgput fn put) s = .next (t.answer fn.toNat (.plain 0)) ∧ t = { s with host := { s.host with flash := t.host.flash } } ∧
        (∀ i < msg.length - 16, tget 0 t.host.flash (off + i) = msg.getD (16 + i) 0) ∧
        (∀ a, (a < off ∨ off + (msg.length - 16) ≤ a) → tget 0 t.host.flash a = tget 0 s.host.flash a)) ∧
    (is 0x0002 → s.host.recovery = true → msg.length = 16 → off < 2 ^ 26 →
      let s1 := { s with host := { s.host with imageSize := off } }
      exec (.imggo fn put) s = .next (if s1.host.imageGood then
        ({ s1 with host := { s1.host with recovery := false, boot := 2 } }).answer fn.toNat (.plain 0) else s1.answer fn.toNat (.plain 5))) ∧
    (is 0x0010 → up → msg.length = 40 → exec (.attest fn put) s = .next (s.answer fn.toNat ⟨0, s.report ((msg.drop 8).take 32)⟩)) ∧
    (is 0x0020 → up → fn = 0 → msg.length = 80 → slotFieldsOk msg = true →
      exec (.keyadd fn put) s = .next (if sm2OnCurve key then
        ({ s with host := { s.host with keys := tset [] s.host.keys (keySlot msg) key } }).answer 0 ⟨0, sm3 key⟩
        else s.answer 0 (.plain 3))) ∧
    (is 0x0021 → up → fn = 0 → msg.length = 16 → slotFieldsOk msg = true →
      exec (.keydel fn put) s = .next (({ s with host := { s.host with keys := tset [] s.host.keys (keySlot msg) [] } }).answer 0 (.plain 0))) ∧
    (is 0x0022 → up → (fn = 0 ∨ (off % 64 = fn.toNat ∧ set_ = false)) → msg.length = 16 → off / 64 % 2 ^ 10 = 0 → off / 2 ^ 18 = 0 →
      ∃ t : State, exec (.sigpol fn put) s = .next (t.answer fn.toNat ⟨0, leBytes 8 (b2n (t.host.require.contains (off % 64)))⟩) ∧
        t = { s with host := { s.host with require := t.host.require } } ∧
        ∀ v, t.host.require.contains v = (if set_ && v == off % 64 then off.testBit 16 else s.host.require.contains v)) ∧
    (is 0x0023 → up → (fn = 0 ∨ off = fn.toNat) → msg.length = 144 → off < 64 →
      let named := ((upTo 4).map fun n => tget [] s.host.keys (4 * off + n)).filter fun k => !k.isEmpty && sm3 k == part 0x10
      exec (.verify fn put) s = .next (s.answer fn.toNat (.plain (if named = [] then 0x06
        else if named.any fun k => sm2Verify k (part 0x30) (part 0x50) (part 0x70) then 0x00 else 0x05)))) ∧
    ((s.mailbox fn.toNat).type ∉ [0x0001, 0x0002, 0x0010, 0x0020, 0x0021, 0x0022, 0x0023] →
      exec (.mailboxUnknownType fn put) s = .next (s.answer fn.toNat (.plain (if s.host.recovery then 0x04 else 0x01))))) ∧
  (∀ (s : State) (fn : Nat) (a : Answer), (s.mailbox fn).bytes.length = 256 →
    let old := s.mailbox fn
    let m : Mail := (s.answer fn a).mailbox fn
    m.status = a.status ∧ m.go = false ∧ (s.answer fn a).host.msix = s.host.msix ++ [(fn, 1)] ∧ m.bytes.length = 256 ∧
    m.bytes.take 8 = leBytes 2 (old.type + 0x8000) ++ [a.status, 0] ++ leBytes 4 (msgField old.bytes 4 4)) ∧
  (∀ s (fn : BitVec 6) off n va l s1 bytes s2, s.aperture fn.toNat off.toNat n = some va →
    State.hostReach fn.toNat false (pagePieces va n) s = .ok l s1 → State.hostBytes fn.toNat l s1 = (bytes, false, s2) →
    exec (.apertureRead fn off n) s = .next { s2 with host := { s2.host with aborted := false, readData := bytes } }) ∧
  (∀ s (fn : BitVec 6) off bytes va x, s.aperture fn.toNat off.toNat bytes.length = some va → pagePieces va bytes.length = [(va, bytes.length)] →
    ∀ s1, s.hwReach fn.toNat va true = (.ok x, s1) →
    ∃ t, exec (.apertureWrite fn off bytes) s = .next t ∧ t.host.aborted = false ∧
      let ws := bySector (bytesAt (x.pa va) bytes)
      t.ms = ((s1.pkgWrite ⟨0, fn.toNat, lfTag x.leaf, 0⟩ 1 ws).aliens (secsOf ws)).ms) ∧
  (∀ (s : State) (fn off n : Nat), s.aperture fn off n = (if s.host.enabled = true ∧ off + n ≤ 2 ^ 36 then
    some ((s.reg (0xF0800 + 0x10 * fn)).toNat + off) else none)) ∧
  (∀ s (fn : BitVec 6) (off : BitVec 20) bytes,
    let pages := s.ownedPages fn.toNat
    s.host.enabled = true → off.toNat + bytes.length ≤ 2 ^ 16 * pages.length →
    exec (.hostWindowWrite ⟨fn, off⟩ bytes) s = .next (s.rawWrite (bySector (bytes.zipIdx.map fun p =>
      (winBase + 2 ^ 16 * pages.getD ((off.toNat + p.2) / 2 ^ 16) 0 + (off.toNat + p.2) % 2 ^ 16, p.1))))) ∧
  (∀ (s : State) (fn p : Nat), p ∈ s.ownedPages fn ↔ p < 16 ∧ bitAt (s.reg (0xF0000 + 8 * p)) 6 = true ∧ bits (s.reg (0xF0000 + 8 * p)) 0 6 = fn) ∧
  (∀ (s : State) (chain : BitVec 16),
    let j (ir : Byte) (dr : List Word) : Jtag := { s.jtag with ir := ir, dr := dr }
    exec .bypass s = .next { s with jtag := j 0xFF [0] } ∧ exec .idcode s = .next { s with jtag := j 0x01 [0x17192A8B] } ∧
    (∃ w, exec .samplePreload s = .next { s with jtag := j 0x02 [w] } ∧ exec .extest s = .next { s with jtag := j 0x00 [w] }) ∧
    exec (.chsel chain) s = .next { s with jtag := { s.jtag with ir := 0x20, chain := chain.toNat, dr := [chain.setWidth 64] } } ∧
    (s.frozen = false → ∃ n, exec .chrd s = .next { s with jtag := j 0x21 (List.replicate n 0) }) ∧
    (s.frozen = true → 384 ≤ s.jtag.chain → s.jtag.chain < 576 →
      exec .chrd s = .next { s with jtag := j 0x21 ((upTo (3 * 2 ^ 20 / 8)).map fun i => W (leNat (s.spRead (s.jtag.chain - 384) (8 * i) 8))) }))

/-- R467, R468, R471 to R473: the links. A good flit in sequence does what its message says and moves the expected number on; any other
has a resend asked for; acknowledged flits are let go of; a resend counts; a port that loses its signal trains again and gives up
after the third failure; a port whose key has no number left, or that has come to the last number without a key switch, fails, and the
flit of the switch number is the first under the next key. That an acknowledgement of a number which no kept flit has lets none go is
the model's choice (log 24). -/
def Obligations.LinkEvents : Prop :=
  (∀ s (port : BitVec 4) flit t, (s.link port.toNat).up = true → flit.good = true → flit.seq = (s.link port.toNat).rxSeq →
    s.flitAct port.toNat flit.msg = some t →
    exec (.linkFlitReceive port flit) s = .next (t.setLink port.toNat { t.link port.toNat with rxSeq := flit.seq + 1, asked := false })) ∧
  (∀ s (port : BitVec 4) flit, (s.link port.toNat).up = true → (flit.good = false ∨ flit.seq ≠ (s.link port.toNat).rxSeq) →
    exec (.linkFlitReceive port flit) s = .next (s.setLink port.toNat { s.link port.toNat with asked := true })) ∧
  (∀ s (port : BitVec 4) before q after, (s.link port.toNat).kept = before ++ q :: after → (∀ r ∈ before, r.1.seq ≠ q.1.seq) →
    exec (.linkAckReceive port q.1.seq) s = .next (s.setLink port.toNat { s.link port.toNat with kept := after })) ∧
  (∀ s (port : BitVec 4) n, (∀ q ∈ (s.link port.toNat).kept, q.1.seq ≠ n) →
    exec (.linkAckReceive port n) s = .next (s.setLink port.toNat (s.link port.toNat))) ∧
  (∀ s (port : BitVec 4) before q after,
    let l := s.link port.toNat
    let again := (q :: after).map fun r => (r.1, r.2 + 1)
    l.up = true → l.kept = before ++ q :: after → (∀ r ∈ before, r.1.seq ≠ q.1.seq) → (∀ r ∈ l.kept, r.2 < 15) →
    exec (.linkResendRequest port q.1.seq) s = .next (s.setLink port.toNat { l with
      kept := before ++ again, resends := min (2 ^ 32 - 1) (l.resends + again.length) })) ∧
  (∀ s (port : BitVec 4), (s.link port.toNat).up = true →
    exec (.linkLossOfSignal port) s = .next (s.setLink port.toNat { s.link port.toNat with up := false, retraining := true, retrains := 0 })) ∧
  (∀ s (port : BitVec 4), (s.link port.toNat).retraining = true →
    let l := s.link port.toNat
    exec (.linkRetrainDone port true) s = .next (s.setLink port.toNat
      { l with up := true, retraining := false, retrains := 0, asked := false, kept := l.kept.map fun q => (q.1, 0) }) ∧
    (l.retrains < 2 → exec (.linkRetrainDone port false) s = .next (s.setLink port.toNat { l with retrains := l.retrains + 1 })) ∧
    (2 ≤ l.retrains → exec (.linkRetrainDone port false) s = .next (s.portFail port.toNat))) ∧
  (∀ s (port : BitVec 4), s.seqSpent port.toNat = true → exec (.linkSequenceExhausted port) s = .next (s.portFail port.toNat)) ∧
  (∀ (e : Seal) (l : Link) m, l.switches e = true →
    (l.sendOne e m).key = e.next ∧ (l.sendOne e m).keyNew = false ∧ (l.sendOne e m).txSeq = e.ksw + 1) ∧
  (∀ (e : Seal) (l : Link) m, l.switches e = false → (l.sendOne e m).key = l.key ∧ (l.sendOne e m).keyNew = l.keyNew ∧
    (l.sendOne e m).under = l.under + 1) ∧
  (∀ (e : Seal) (l : Link), e.enc = true → l.switches e = false →
    ((l.txSeq = BitVec.allOnes 64 ∧ l.switched = false) ∨ 2 ^ 64 ≤ l.under) → l.spent e = true) ∧
  (∀ (s : State) p, ((s.portFail p).link p).up = false ∧ ((s.portFail p).link p).retraining = false ∧
    (∀ f ∈ (s.portFail p).xfers, f.port = p → f.lost = true) ∧ (∀ q, q ≠ p → (s.portFail p).link q = s.link q))
end

