-- ==== Sys2Proof/Laws/Issue.lean ====
section
/-! SUPPORT. What issuing a word comes to when it is at its turn, and what it can come to at all. -/
namespace Sys2Proof.Machine

/-- Reading back the stream that has been written. -/
@[simp] theorem Ctx.str_setStr (k : Ctx) (st : Stream) (v : StreamSt) : (k.setStr st v).str st = v := by cases st <;> rfl

/-- Writing one stream leaves the others. -/
theorem Ctx.str_setStr_ne (k : Ctx) (st st' : Stream) (v : StreamSt) (h : st' ≠ st) : (k.setStr st v).str st' = k.str st' := by
  cases st <;> cases st' <;> first | rfl | exact absurd rfl h

/-- No push is owed: paying changes nothing. -/
theorem Mach.payOwed_zero (m : Mach) (h : m.t.owed = 0) : m.payOwed = m := by simp [Mach.payOwed, h]

theorem Mach.woken_st (m : Mach) : m.woken.st = m.st := rfl
theorem Mach.woken_s (m : Mach) : m.woken.s = m.s := rfl
theorem Mach.woken_t (m : Mach) : m.woken.t = { m.t with wakeAt := none } := by
  obtain ⟨s0, k, st⟩ := m
  cases st <;> rfl
theorem Mach.woken_mat (m : Mach) : m.woken.k.mat = m.k.mat ∧ m.woken.k.bd = m.k.bd ∧ m.woken.k.sr = m.k.sr := by
  obtain ⟨s0, k, st⟩ := m
  cases st <;> exact ⟨rfl, rfl, rfl⟩
theorem Ctx.matrixBad_congr {k l : Ctx} (e : k.mat = l.mat ∧ k.bd = l.bd ∧ k.sr = l.sr) (i : Instr) : k.matrixBad i = l.matrixBad i := by
  unfold Ctx.matrixBad
  rw [e.1, e.2.1]
theorem Mach.woken_check (m : Mach) (i : Instr) (h : Hdr) : m.woken.checkWord i h = m.checkWord i h := by
  unfold Mach.checkWord Mach.wordCheck
  rw [Ctx.matrixBad_congr m.woken_mat i, Mach.woken_t, m.woken_mat.2.2]
  rfl
theorem Mach.armed_tokens (m : Mach) : m.armed.k.tok = m.k.tok := by
  obtain ⟨s0, k, st⟩ := m
  cases st <;> rfl
theorem Mach.armed_sq (m : Mach) : m.armed.k.sq = m.k.sq := by
  obtain ⟨s0, k, st⟩ := m
  cases st <;> rfl
theorem Mach.armed_rq (m : Mach) : m.armed.k.rq = m.k.rq := by
  obtain ⟨s0, k, st⟩ := m
  cases st <;> rfl
theorem Mach.armed_loads (m : Mach) : m.armed.k.loads = m.k.loads := by
  obtain ⟨s0, k, st⟩ := m
  cases st <;> rfl
theorem Mach.armed_eng (m : Mach) : m.armed.k.eng = m.k.eng := by
  obtain ⟨s0, k, st⟩ := m
  cases st <;> rfl
theorem Mach.armed_sr (m : Mach) : m.armed.k.sr = m.k.sr := by
  obtain ⟨s0, k, st⟩ := m
  cases st <;> rfl
theorem Mach.armed_st (m : Mach) : m.armed.st = m.st := rfl
theorem Mach.armed_s (m : Mach) : m.armed.s = m.s := rfl
theorem Mach.armed_halted (m : Mach) (st : Stream) : (m.armed.k.str st).halted = (m.k.str st).halted := by
  obtain ⟨s0, k, st0⟩ := m
  cases st0 <;> cases st <;> rfl
theorem Mach.armed_partner (m : Mach) : m.armed.partnerHalted = m.partnerHalted := by
  simp only [Mach.partnerHalted, Mach.syncSet, Mach.armed_halted, Mach.armed_sr, Mach.armed_st, Mach.armed_s]
theorem Mach.armed_blocked (m : Mach) (h : Hdr) (p : Ports) : m.armed.blocked h p = m.blocked h p := by
  simp only [Mach.blocked, Ctx.tokens, Ctx.srcsHeld, Ctx.dstsFree, Ctx.regsReady, Ctx.pendingReg, Ctx.pendingGuard, Ctx.sq?, Ctx.rq?,
    Mach.synced, Mach.syncSet, Mach.armed_tokens, Mach.armed_sq, Mach.armed_rq, Mach.armed_loads, Mach.armed_eng, Mach.armed_sr,
    Mach.armed_st, Mach.armed_s]
  rfl

/-- A word at its turn issues: its body decides. -/
theorem issueIn_atTurn (s : State) (m : Mach) (i : Instr) (h : Hdr) (p : Ports) (body : Mach → Opnds → Res)
    (a : AtTurn s m i h p) : m.issueIn i h p body = m.armed.finish h (body (m.taken h p) (m.opnds h p)) := by
  obtain ⟨⟨_, hp, hd, hf, hc, hs⟩, hl, hr, hh, hb⟩ := a
  have e1 : ((m.str fun t => { t with wakeAt := none }).ctx fun k => if m.st == .A then { k with fenced := false } else k) = m.woken := rfl
  have e3 : m.woken.t.squashed h.ms.toNat = false := by rw [Mach.woken_t]; exact hs
  have e4 : m.woken.t.prog = none := by rw [Mach.woken_t]; exact hr
  have e2 : m.woken.afresh = m.armed := by
    unfold Mach.afresh
    rw [e4]
    simp only [Option.isSome_none, Bool.and_false, Bool.false_eq_true, if_false]
    rfl
  have e5 : (h.sy && m.armed.partnerHalted) = false := by rw [Mach.armed_partner]; exact hh
  have e6 : m.armed.blocked h p = none := by rw [Mach.armed_blocked]; exact hb
  have e7 : (m.t.owed != 0) = false := by simp [hp]
  unfold Mach.issueIn
  rw [Mach.payOwed_zero m hp]
  simp only [e7, hd, hf, hc, e1, e2, e3, e4, e5, e6, Mach.woken_check, hl, Option.any_none]
  rfl

/-- The meaning of a word at its turn. -/
theorem issueWord_atTurn {s : State} {m : Mach} {i : Instr} {h : Hdr} {p : Ports} (body : Mach → Opnds → Res)
    (a : AtTurn s m i h p) : issueWord i h p body s = .next (m.armed.finish h (body (m.taken h p) (m.opnds h p))) := by
  have e := a.enters
  unfold issueWord
  generalize Mach.enter s = r at e
  obtain ⟨o, s'⟩ := r
  simp only at e
  subst e
  simp only [issueIn_atTurn s m i h p body a]

/-- A word that passes its checks and is blocked waits, whatever its body is. -/
theorem issueWord_blocked {s : State} {m : Mach} {i : Instr} {h : Hdr} {p : Ports} {w : Why} (body : Mach → Opnds → Res)
    (a : AtHead s m h) (hl : m.checkWord i h = none) (hr : m.t.prog = none) (hh : (h.sy && m.partnerHalted) = false)
    (hb : m.blocked h p = some w) : issueWord i h p body s = .next (m.armed.leave (.waiting w)) := by
  obtain ⟨e, hp, hd, hf, hc, hs⟩ := a
  have e3 : m.woken.t.squashed h.ms.toNat = false := by rw [Mach.woken_t]; exact hs
  have e4 : m.woken.t.prog = none := by rw [Mach.woken_t]; exact hr
  have e2 : m.woken.afresh = m.armed := by
    unfold Mach.afresh
    rw [e4]
    simp only [Option.isSome_none, Bool.and_false, Bool.false_eq_true, if_false]
    rfl
  have e1 : ((m.str fun t => { t with wakeAt := none }).ctx fun k => if m.st == .A then { k with fenced := false } else k) = m.woken := rfl
  have e5 : (h.sy && m.armed.partnerHalted) = false := by rw [Mach.armed_partner]; exact hh
  have e6 : m.armed.blocked h p = some w := by rw [Mach.armed_blocked]; exact hb
  have e7 : (m.t.owed != 0) = false := by simp [hp]
  unfold issueWord
  generalize Mach.enter s = r at e
  obtain ⟨o, s'⟩ := r
  simp only at e
  subst e
  simp only [Mach.issueIn, Mach.payOwed_zero m hp, e7, hd, hf, hc, e1, e2, e3, e4, e5, e6, Mach.woken_check, hl, Option.any_none]
  rfl

/-- A word that issues through the shared path waits where it is blocked. -/
theorem waits_of {i : Instr} {h : Hdr} {p : Ports} {body : Mach → Opnds → Res} (e : ∀ s, exec i s = issueWord i h p body s) :
    Waits i h p := fun s _ _ a hl hr hh hb => (e s).trans (issueWord_blocked body a hl hr hh hb)

/-- A pop leaves the streams. -/
theorem Ctx.popS_str (k : Ctx) (q : Nat) (st : Stream) : (k.popS q).2.str st = k.str st := by
  unfold Ctx.popS; split <;> cases st <;> rfl
theorem Ctx.popR_str (k : Ctx) (q : Nat) (st : Stream) : (k.popR q).2.str st = k.str st := by
  unfold Ctx.popR; split <;> cases st <;> rfl
theorem Ctx.source_str (k : Ctx) (st st' : Stream) (it : Word) (x : BitVec 6) : (k.source st it x).2.2.str st' = k.str st' := by
  unfold Ctx.source
  split
  · rfl
  · split
    · exact Ctx.popS_str k _ st'
    · split <;> rfl
/-- Reading operands leaves the streams. -/
theorem Ctx.sources_str (st st' : Stream) (it : Word) (xs : List (BitVec 6)) : ∀ k : Ctx, (k.sources st it xs).2.2.str st' = k.str st' := by
  induction xs with
  | nil => intro k; rfl
  | cons x t ih => intro k; simp only [Ctx.sources]; rw [ih, Ctx.source_str]
theorem Ctx.rowSources_str (st' : Stream) (qs : List Nat) : ∀ k : Ctx, (k.rowSources qs).2.str st' = k.str st' := by
  induction qs with
  | nil => intro k; rfl
  | cons x t ih => intro k; simp only [Ctx.rowSources]; rw [ih, Ctx.popR_str]
/-- What a word's pops leave of its stream: only its delay is over and its progress gone. -/
theorem Mach.taken_t (m : Mach) (h : Hdr) (p : Ports) : (m.taken h p).t = m.armed.t := by
  simp only [Mach.taken, Mach.take, Mach.t]
  rw [Ctx.rowSources_str, Ctx.sources_str]
  cases m.armed.st <;> rfl
/-- The body of a word that issues starts with no word in progress. -/
theorem Mach.taken_prog (m : Mach) (h : Hdr) (p : Ports) : (m.taken h p).t.prog = none := by
  rw [Mach.taken_t]
  obtain ⟨s, k, st⟩ := m
  cases st <;> rfl

end Sys2Proof.Machine
end

