-- ==== Sys2Proof/Laws/Complete.lean ====
section
/-! SUPPORT. From what the body of a word answers to where the word completes, moves its stream or traps. -/
namespace Sys2Proof.Machine

variable {i : Instr} {h : Hdr} {p : Ports} {c : Mach → Opnds → Prop} {body : Mach → Opnds → Res}

/-- A word completes where its body is done. -/
theorem runsIf_of_done {f : Mach → Opnds → Mach} (e : ∀ s, exec i s = issueWord i h p body s)
    (d : ∀ m a, c m a → body m a = .done (f m a)) : RunsIf i h p c f := by
  intro s m a hc
  rw [e, issueWord_atTurn body a, d _ _ hc]
  rfl

/-- The same where the machine that its pops leave is known to have no word in progress. -/
theorem runsIf_of_done_at {f : Mach → Opnds → Mach} (e : ∀ s, exec i s = issueWord i h p body s)
    (d : ∀ s m, AtTurn s m i h p → c (m.taken h p) (m.opnds h p) → body (m.taken h p) (m.opnds h p) = .done (f (m.taken h p) (m.opnds h p))) :
    RunsIf i h p c f := by
  intro s m a hc
  rw [e, issueWord_atTurn body a, d s m a hc]
  rfl

/-- A word that moves its stream completes where its body stays. -/
theorem movesIf_of_stay {f : Mach → Opnds → Mach} (e : ∀ s, exec i s = issueWord i h p body s)
    (d : ∀ m a, c m a → body m a = .stay (f m a)) : MovesIf i h p c f := by
  intro s m a hc
  rw [e, issueWord_atTurn body a, d _ _ hc]
  rfl

/-- The place of the stream is not among what a word's pops change. -/
theorem Mach.armed_pc (m : Mach) : m.armed.t.pc = m.t.pc := by
  obtain ⟨s, k, st⟩ := m
  cases st <;> rfl

/-- A word takes a trap where its body does. -/
theorem trapsIf_of_trap {f : Mach → Opnds → BitVec 8 × Word} (e : ∀ s, exec i s = issueWord i h p body s)
    (d : ∀ m a, c m a → body m a = .trap (f m a).1 (f m a).2) : TrapsIf i h p c f := by
  intro s m a hc
  rw [e, issueWord_atTurn body a, d _ _ hc]
  simp only [Mach.finish, Mach.trapped, Mach.armed_pc]

/-- A word whose body is done on every machine completes. -/
theorem runs_of_done {f : Mach → Opnds → Mach} (e : ∀ s, exec i s = issueWord i h p body s)
    (d : ∀ m a, body m a = .done (f m a)) : Runs i h p f := runsIf_of_done e fun m a _ => d m a

end Sys2Proof.Machine
end

