-- ==== Sys2Proof/Laws/Engine.lean ====
section
/-! SUPPORT. What an engine word comes to when nothing holds its command and its checks pass. -/
namespace Sys2Proof.Machine

/-- A free engine word issues its command. -/
theorem Mach.engineWord_of_free {m : Mach} {h : Hdr} {o : E} {opc : Nat} {a : Opnds} {out : Option (BitVec 6)} {args : EngArgs}
    (f : EngineFree m a o opc args) : m.engineWord h o opc a.act out args = .done (m.issueCmd h o opc { args with out := out }) := by
  obtain ⟨ha, hr, hl, hc, hb, ho⟩ := f
  unfold Mach.engineWord
  have e1 : (producesRec opc && decide (recDepth (engOf opc) ≤ m.k.recsOut (engOf opc))) = false := by
    cases hp : producesRec opc
    · rfl
    · have := hr hp
      simp; omega
  have e2 : (engOf opc == 2 && !(opc == 0x64 && m.k.bd.det == 1) && m.k.credits == 0) = false := by
    cases he : engOf opc == 2 with
    | false => rfl
    | true =>
      cases hd : (opc == 0x64 && m.k.bd.det == 1) with
      | true => rfl
      | false =>
        have h2 : engOf opc = 2 := by simpa using he
        have h3 : ¬ (opc = 0x64 ∧ m.k.bd.det = 1) := by simpa using hd
        simpa using hc h2 h3
  simp only [e1, e2, ha, hl, hb, ho, Bool.not_true, Bool.false_eq_true, if_false]

/-- A free word of the equivalence engine, with no failure pending and its forest in the partition. -/
theorem Mach.eqWord_of_free {m : Mach} {h : Hdr} {o : E} {opc : Nat} {a : Opnds} {out : Option (BitVec 6)} {bad : Option (BitVec 8 × Word)}
    {o1 o2 o3 : Word} {more : List Range} (hf : m.k.eng.eqFail = none) (hb : m.k.forestBad = none)
    (f : EngineFree (if opc = 0x66 then m else m.ctx Ctx.closeRun) a o opc ⟨bad, o1, o2, o3, m.k.sr.forestRanges ++ more, none⟩) :
    m.eqWord h o opc a.act out bad o1 o2 o3 more =
      .done ((if opc = 0x66 then m else m.ctx Ctx.closeRun).issueCmd h o opc ⟨bad, o1, o2, o3, m.k.sr.forestRanges ++ more, out⟩) := by
  have e1 : m.eqPending = none := by simp only [Mach.eqPending, hf]; rfl
  have c : (m.ctx Ctx.closeRun).k.bd = m.k.bd ∧ (m.ctx Ctx.closeRun).k.sr = m.k.sr := by
    simp only [Mach.ctx, Ctx.closeRun]
    split <;> exact ⟨rfl, rfl⟩
  have e2 : (if opc = 0x66 then m else m.ctx Ctx.closeRun).k.forestBad = none := by
    split
    · exact hb
    · unfold Ctx.forestBad
      rw [c.1, c.2]
      exact hb
  have e3 : (if opc = 0x66 then m else m.ctx Ctx.closeRun).k.sr = m.k.sr := by
    split
    · rfl
    · exact c.2
  unfold Mach.eqWord
  simp only [e1, e2, e3, Option.none_or]
  exact Mach.engineWord_of_free (args := ⟨bad, o1, o2, o3, m.k.sr.forestRanges ++ more, out⟩)
    ⟨f.act, f.room, f.released, f.credit, f.checks, f.clear⟩

/-- An engine word under a false guard takes its number (R309). -/
theorem Mach.engineWord_off {m : Mach} {h : Hdr} {o : E} {opc : Nat} {out : Option (BitVec 6)} {args : EngArgs}
    (hr : producesRec opc = true → m.k.recsOut (engOf opc) < recDepth (engOf opc)) :
    m.engineWord h o opc false out args = .done (m.skipCmd opc out) := by
  have e1 : (producesRec opc && decide (recDepth (engOf opc) ≤ m.k.recsOut (engOf opc))) = false := by
    cases hp : producesRec opc
    · rfl
    · have := hr hp
      simp; omega
  unfold Mach.engineWord
  simp only [e1, Bool.false_eq_true, if_false, Bool.not_false, if_true]

/-- A word of the equivalence engine under a false guard, with no failure pending. -/
theorem Mach.eqWord_off {m : Mach} {h : Hdr} {o : E} {opc : Nat} {out : Option (BitVec 6)} {bad : Option (BitVec 8 × Word)} {o1 o2 o3 : Word}
    {more : List Range} (hf : m.k.eng.eqFail = none)
    (hr : producesRec opc = true → (m.ctx Ctx.closeRun).k.recsOut (engOf opc) < recDepth (engOf opc)) :
    m.eqWord h o opc false out bad o1 o2 o3 more = .done ((if opc = 0x66 then m else m.ctx Ctx.closeRun).skipCmd opc out) := by
  have e1 : m.eqPending = none := by simp only [Mach.eqPending, hf]; rfl
  unfold Mach.eqWord
  simp only [e1]
  refine Mach.engineWord_off fun hp => ?_
  have := hr hp
  split
  · next h => subst h; exact absurd hp (by decide)
  · exact this

end Sys2Proof.Machine
end

