-- ==== Sys2Proof/Laws/Tab.lean ====
section
/-! SUPPORT. Laws of the tables: what a read gives after a write, and that writes keep the canonical form; the same of
memory. -/
namespace Sys2Proof.Machine

variable {α : Type}

/-- A written key is found. -/
@[simp] theorem tfind_tins_same (t : List (Nat × α)) (k : Nat) (v : α) : tfind (tins t k v) k = some v := by
  induction t with
  | nil => simp [tins, tfind]
  | cons p t ih =>
    unfold tins
    split
    · simp [tfind]
    · split
      · simp [tfind]
      · rename_i h1 h2
        simp [tfind, h2, ih]

/-- Writing a key leaves the others. -/
theorem tfind_tins_ne (t : List (Nat × α)) (k j : Nat) (v : α) (h : j ≠ k) : tfind (tins t k v) j = tfind t j := by
  induction t with
  | nil => simp [tins, tfind, h]
  | cons p t ih =>
    unfold tins
    split
    · simp [tfind, h]
    · split
      · rename_i h1 h2
        subst h2
        simp [tfind, h]
      · simp only [tfind, ih]

/-- A removed key is not found. -/
@[simp] theorem tfind_tdel_same (t : List (Nat × α)) (k : Nat) : tfind (tdel t k) k = none := by
  induction t with
  | nil => rfl
  | cons p t ih =>
    unfold tdel at ih ⊢
    rw [List.filter_cons]
    split
    · rename_i h
      simp only [bne_iff_ne, ne_eq] at h
      simp only [tfind]
      rw [if_neg (fun e => h e.symm)]
      exact ih
    · exact ih

/-- Removing a key leaves the others. -/
theorem tfind_tdel_ne (t : List (Nat × α)) (k j : Nat) (h : j ≠ k) : tfind (tdel t k) j = tfind t j := by
  induction t with
  | nil => rfl
  | cons p t ih =>
    unfold tdel at ih ⊢
    rw [List.filter_cons]
    split
    · simp only [tfind, ih]
    · rename_i h2
      simp only [bne_iff_ne, ne_eq, Decidable.not_not] at h2
      simp only [tfind]
      rw [if_neg (by omega)]
      exact ih

/-- A read is a look-up with a default. -/
theorem tget_eq (d : α) (t : Tab α) (k : Nat) : tget d t k = (tfind t k).getD d := by
  induction t with
  | nil => rfl
  | cons p t ih =>
    simp only [tget, tfind]
    split <;> simp_all

variable [DecidableEq α]

/-- A read after a write to the same key. -/
@[simp] theorem tget_tset_same (d : α) (t : Tab α) (k : Nat) (v : α) : tget d (tset d t k v) k = v := by
  unfold tset
  split
  · rename_i h
    simp [tget_eq, h]
  · simp [tget_eq]

/-- A write leaves every other key. -/
theorem tget_tset_ne (d : α) (t : Tab α) (k j : Nat) (v : α) (h : j ≠ k) : tget d (tset d t k v) j = tget d t j := by
  unfold tset
  split
  · simp [tget_eq, tfind_tdel_ne t k j h]
  · simp [tget_eq, tfind_tins_ne _ k j v h, tfind_tdel_ne t k j h]

/-- A canonical table stays canonical above a smaller bound. -/
theorem twfFrom_mono (d : α) (t : Tab α) (lo : Nat) (o : Option Nat) (h : ∀ l, o = some l → l ≤ lo) (w : twfFrom d (some lo) t = true) :
    twfFrom d o t = true := by
  cases t with
  | nil => cases o <;> rfl
  | cons p t =>
    simp only [twfFrom, Bool.and_eq_true, decide_eq_true_eq] at w ⊢
    refine ⟨⟨?_, w.1.2⟩, w.2⟩
    cases o with
    | none => rfl
    | some l =>
      have := h l rfl
      simp only [decide_eq_true_eq]
      omega

/-- Removing a key keeps the canonical form. -/
theorem twfFrom_tdel (d : α) (t : Tab α) (k : Nat) (o : Option Nat) (w : twfFrom d o t = true) : twfFrom d o (tdel t k) = true := by
  induction t generalizing o with
  | nil => exact w
  | cons p t ih =>
    unfold tdel at ih ⊢
    have w0 := w
    simp only [twfFrom, Bool.and_eq_true, decide_eq_true_eq] at w
    rw [List.filter_cons]
    split
    · simp only [twfFrom, Bool.and_eq_true, decide_eq_true_eq]
      exact ⟨w.1, ih _ w.2⟩
    · apply ih
      cases o with
      | none => exact twfFrom_mono d t p.1 none (by simp) w.2
      | some l =>
        have h := w.1.1
        simp only [decide_eq_true_eq] at h
        exact twfFrom_mono d t p.1 (some l) (by intro a e; cases e; omega) w.2

/-- Writing a key keeps the canonical form, unless the value is the default. -/
theorem twfFrom_tins (d : α) (t : Tab α) (k : Nat) (v : α) (o : Option Nat) (w : twfFrom d o t = true) (hv : v ≠ d)
    (h : ∀ l, o = some l → l < k) : twfFrom d o (tins t k v) = true := by
  induction t generalizing o with
  | nil => cases o <;> simp_all [tins, twfFrom]
  | cons p t ih =>
    simp only [twfFrom, Bool.and_eq_true, decide_eq_true_eq] at w
    unfold tins
    split
    · rename_i h1
      simp only [twfFrom, Bool.and_eq_true, decide_eq_true_eq]
      refine ⟨⟨?_, hv⟩, ⟨h1, w.1.2⟩, w.2⟩
      cases o with
      | none => rfl
      | some l => simpa using h l rfl
    · split
      · rename_i h1 h2
        subst h2
        simp only [twfFrom, Bool.and_eq_true, decide_eq_true_eq]
        exact ⟨⟨w.1.1, hv⟩, w.2⟩
      · rename_i h1 h2
        simp only [twfFrom, Bool.and_eq_true, decide_eq_true_eq]
        refine ⟨w.1, ih _ w.2 ?_⟩
        intro l e
        cases e
        omega

/-- A write keeps the canonical form. -/
theorem twf_tset (d : α) (t : Tab α) (k : Nat) (v : α) (w : twf d t = true) : twf d (tset d t k v) = true := by
  unfold twf tset at *
  split
  · exact twfFrom_tdel d t k none w
  · rename_i hv
    exact twfFrom_tins d _ k v none (twfFrom_tdel d t k none w) hv (by simp)

/-- A byte read after it has been written. -/
@[simp] theorem memByte_memSet_same (m : List Host.Cell) (a : Nat) (b : Byte) : memByte (memSet m a b) a = b := tget_tset_same 0 m a b

/-- Writing a byte leaves every other one. -/
theorem memByte_memSet_ne (m : List Host.Cell) (a c : Nat) (b : Byte) (h : c ≠ a) : memByte (memSet m a b) c = memByte m c :=
  tget_tset_ne 0 m a c b h

/-- Writing a byte keeps the canonical form of memory. -/
theorem memSet_wf (m : List Host.Cell) (a : Nat) (b : Byte) (w : Memory.wf m = true) : Memory.wf (memSet m a b) = true :=
  twf_tset 0 m a b w

/-- Writing bytes at addresses keeps the canonical form of memory. -/
theorem memPut_wf (ws : List (Nat × Byte)) (m : List Host.Cell) (w : Memory.wf m = true) : Memory.wf (memPut m ws) = true := by
  unfold memPut
  induction ws generalizing m with
  | nil => exact w
  | cons p ws ih => exact ih _ (memSet_wf m p.1 p.2 w)

/-- Writing a run of bytes keeps the canonical form of memory. -/
theorem memWrite_wf (m : List Host.Cell) (a : Nat) (l : List Byte) (w : Memory.wf m = true) : Memory.wf (memWrite m a l) = true := by
  unfold memWrite
  generalize l.zipIdx = z
  induction z generalizing m with
  | nil => exact w
  | cons p z ih => exact ih _ (memSet_wf m _ _ w)

/-- Bytes that are written nowhere near an address leave it. -/
theorem memByte_memPut_ne (ws : List (Nat × Byte)) (m : List Host.Cell) (c : Nat) (h : ∀ p ∈ ws, p.1 ≠ c) :
    memByte (memPut m ws) c = memByte m c := by
  unfold memPut
  induction ws generalizing m with
  | nil => rfl
  | cons p ws ih =>
    simp only [List.foldl_cons]
    rw [ih _ (fun q hq => h q (List.mem_cons_of_mem p hq))]
    exact memByte_memSet_ne m p.1 c p.2 (fun e => h p List.mem_cons_self e.symm)

end Sys2Proof.Machine
end

