-- ==== Sys2Proof/Laws/Memory.lean ====
section
/-! SUPPORT. Every operation of the memory system keeps memory and scratchpad in their canonical form, and the state after
reset has it. -/
namespace Sys2Proof.Machine

/-- Memory and scratchpad are in their canonical form. -/
def MemSt.wf (m : MemSt) : Prop := Memory.wf m.mem = true ∧ Memory.wf m.spad = true

/-- The memory after reset is in its canonical form. -/
theorem reset_mem_wf : State.reset.ms.wf := ⟨rfl, rfl⟩

variable {α : Type}

/-- Keeping some cells keeps the canonical form of a table. -/
theorem twf_filter [DecidableEq α] (d : α) (f : Nat × α → Bool) (t : Tab α) (w : twf d t = true) : twf d (t.filter f) = true := by
  unfold twf at *
  suffices h : ∀ (o : Option Nat), twfFrom d o t = true → twfFrom d o (t.filter f) = true from h none w
  clear w
  induction t with
  | nil => exact fun _ w => w
  | cons p t ih =>
    intro o w
    simp only [twfFrom, Bool.and_eq_true, decide_eq_true_eq] at w
    rw [List.filter_cons]
    split
    · simp only [twfFrom, Bool.and_eq_true, decide_eq_true_eq]
      exact ⟨w.1, ih _ w.2⟩
    · apply ih
      cases o with
      | none => exact twfFrom_mono d t p.1 none (by simp) w.2
      | some l =>
        have h := w.1.1
        simp only [decide_eq_true_eq] at h
        exact twfFrom_mono d t p.1 (some l) (by intro a e; cases e; omega) w.2

/-- Keeping some bytes keeps the canonical form of memory. -/
theorem memFilter_wf (f : Host.Cell → Bool) (m : List Host.Cell) (w : Memory.wf m = true) : Memory.wf (m.filter f) = true :=
  twf_filter 0 f m w

/-- What each step keeps, a fold keeps. -/
theorem foldl_keeps {β γ : Type} (P : γ → Prop) (f : γ → β → γ) (h : ∀ c b, P c → P (f c b)) (l : List β) (c : γ) (w : P c) :
    P (l.foldl f c) := by
  induction l generalizing c with
  | nil => exact w
  | cons b l ih => exact ih _ (h c b w)

/-- Memory after a change of the memory system. -/
@[simp] theorem State.mem_ms (s : State) (f : MemSt → MemSt) : (s.mem f).ms = f s.ms := rfl

/-- A register of the control space is no memory. -/
@[simp] theorem State.setReg_ms (s : State) (o : Nat) (v : Word) : (s.setReg o v).ms = s.ms := rfl

/-- A counter is no memory. -/
@[simp] theorem State.countUp_ms (s : State) (o : Nat) : (s.countUp o).ms = s.ms := rfl

/-- A choice between states with one memory has that memory. -/
theorem ite_ms {p q r : Prop} [Decidable p] [Decidable q] [Decidable r] {s a b : State} (ha : a.ms = s.ms) (hb : b.ms = s.ms) :
    (if p then s else if q then a else if r then s else b).ms = s.ms := by
  split
  · rfl
  · split
    · exact ha
    · split
      · rfl
      · exact hb

/-- A read of HBM changes no memory. -/
@[simp] theorem State.hbmRead_ms (s : State) (a : Acc) (x : Nat) : (s.hbmRead a x).2.ms = s.ms := by
  unfold State.hbmRead
  exact ite_ms (State.countUp_ms s _) (State.countUp_ms s _)

theorem State.hbmWrite_wf (s : State) (l : List (Nat × Sec)) (w : s.ms.wf) : (s.hbmWrite l).ms.wf :=
  ⟨foldl_keeps (fun m => Memory.wf m = true) _ (fun m _ h => memWrite_wf m _ _ h) l _ w.1, w.2⟩

theorem State.mscDrop_wf (s : State) (x : Nat) (w : s.ms.wf) : (s.mscDrop x).ms.wf := by
  unfold State.mscDrop
  split
  · exact w
  · dsimp only [State.mem_ms]
    split
    · exact State.hbmWrite_wf s _ w
    · exact w

theorem State.mscUse_wf (s : State) (x : Nat) (w : s.ms.wf) : (s.mscUse x).ms.wf := w

theorem State.mscPlace_wf (s : State) (a : Acc) (kind x : Nat) (w : s.ms.wf) : (s.mscPlace a kind x).ms.wf := by
  unfold State.mscPlace
  extract_lets line low way out t
  split
  · split
    · exact w
    · exact s.mscUse_wf x w
  · exact foldl_keeps (fun t : State => t.ms.wf) _
      (fun t p h => foldl_keeps (fun t : State => t.ms.wf) _ (fun t y h => t.mscDrop_wf y h) _ t h) _ s w

theorem State.mscInsert_wf (s : State) (a : Acc) (kind : Nat) (l : List (Nat × Sec)) (w : s.ms.wf) : (s.mscInsert a kind l).ms.wf := by
  unfold State.mscInsert
  split
  · exact w
  · exact s.mscPlace_wf a kind _ w

theorem State.hbmRead_wf (s : State) (a : Acc) (x : Nat) (w : s.ms.wf) : (s.hbmRead a x).2.ms.wf := by
  rw [State.hbmRead_ms]; exact w

theorem State.mscReadFor_wf (s : State) (a : Acc) (kind x : Nat) (w : s.ms.wf) : (s.mscReadFor a kind x).2.ms.wf := by
  unfold State.mscReadFor
  split
  · exact s.mscUse_wf x w
  · dsimp only
    split
    · exact State.mscInsert_wf _ _ _ _ (s.hbmRead_wf a x w)
    · exact s.hbmRead_wf a x w

theorem State.mscRead_wf (s : State) (a : Acc) (x : Nat) (w : s.ms.wf) : (s.mscRead a x).2.ms.wf := s.mscReadFor_wf a 0 x w

theorem State.mscWriteG_wf (s : State) (a : Acc) (kind : Nat) (ws : List (Nat × List (Nat × Byte))) (w : s.ms.wf) :
    (s.mscWriteG a kind ws).ms.wf := by
  unfold State.mscWriteG
  split
  · exact w
  · rename_i _ sec _ _
    extract_lets secs apply held whole
    split
    · exact w
    · have r : (if whole = true then (secs.map fun x => (x, (⟨0, false, false, a.tag⟩ : Sec)), s)
          else ((s.hbmRead a sec).1, if kind = 2 then s else (s.hbmRead a sec).2)).2.ms.wf := by
        split
        · exact w
        · dsimp only
          split
          · exact w
          · exact s.hbmRead_wf a sec w
      revert r
      generalize (if whole = true then (secs.map fun x => (x, (⟨0, false, false, a.tag⟩ : Sec)), s)
        else ((s.hbmRead a sec).1, if kind = 2 then s else (s.hbmRead a sec).2)) = q
      intro r
      dsimp only
      split
      · exact State.mscInsert_wf _ _ _ _ r
      · exact State.hbmWrite_wf _ _ r

theorem State.mscAtomic_wf (s : State) (a : Acc) (x : Nat) (f : Sec → List (Nat × Byte)) (w : s.ms.wf) : (s.mscAtomic a x f).2.ms.wf := by
  unfold State.mscAtomic
  extract_lets put
  split
  · exact w
  · dsimp only
    split
    · exact State.mscInsert_wf _ _ _ _ (s.hbmRead_wf a x w)
    · split
      · exact s.hbmRead_wf a x w
      · exact State.hbmWrite_wf _ _ (s.hbmRead_wf a x w)

theorem State.mscWrite_wf (s : State) (a : Acc) (kind : Nat) (ws : List (Nat × List (Nat × Byte))) (w : s.ms.wf) :
    (s.mscWrite a kind ws).ms.wf :=
  foldl_keeps (fun t : State => t.ms.wf) _ (fun t _ h => t.mscWriteG_wf a kind _ h) _ s w

theorem State.rawWrite_wf (s : State) (ws : List (Nat × List (Nat × Byte))) (w : s.ms.wf) : (s.rawWrite ws).ms.wf :=
  ⟨foldl_keeps (fun m => Memory.wf m = true) _ (fun m _ h => memPut_wf _ m h) ws _ w.1, w.2⟩

theorem State.unpoison_wf (s : State) (l : List Nat) (w : s.ms.wf) : (s.unpoison l).ms.wf := w

theorem State.pkgRead_wf (s : State) (a : Acc) (x : Nat) (w : s.ms.wf) : (s.pkgRead a x).2.ms.wf := by
  unfold State.pkgRead
  split
  · exact s.mscRead_wf a x w
  · exact w

theorem State.pkgAtomic_wf (s : State) (a : Acc) (x : Nat) (f : Sec → List (Nat × Byte)) (w : s.ms.wf) : (s.pkgAtomic a x f).2.ms.wf := by
  unfold State.pkgAtomic
  split
  · exact s.mscAtomic_wf a x f w
  · dsimp only
    split
    · exact w
    · exact s.rawWrite_wf _ w

theorem State.pkgWrite_wf (s : State) (a : Acc) (kind : Nat) (ws : List (Nat × List (Nat × Byte))) (w : s.ms.wf) :
    (s.pkgWrite a kind ws).ms.wf := by
  unfold State.pkgWrite
  split
  · exact w
  · split
    · exact s.mscWrite_wf a kind _ w
    · split
      · exact State.unpoison_wf _ _ (s.rawWrite_wf _ w)
      · exact s.rawWrite_wf _ w

theorem State.pkgBytes_wf (s : State) (pa n : Nat) (w : s.ms.wf) : (s.pkgBytes pa n).2.2.ms.wf := s.pkgRead_wf _ _ w

theorem State.pkgWord_wf (s : State) (pa : Nat) (w : s.ms.wf) : (s.pkgWord pa).2.2.ms.wf := s.pkgBytes_wf pa 8 w

theorem State.pkgPutRaw_wf (s : State) (pa : Nat) (l : List Byte) (w : s.ms.wf) : (s.pkgPutRaw pa l).ms.wf :=
  foldl_keeps (fun t : State => t.ms.wf) _ (fun t _ h => t.pkgWrite_wf _ _ _ h) _ s w

theorem State.pkgPut_wf (s : State) (pa : Nat) (l : List Byte) (w : s.ms.wf) : (s.pkgPut pa l).ms.wf := s.pkgPutRaw_wf pa l w

theorem State.leafPut_wf (s : State) (pte : Nat) (v : Word) (w : s.ms.wf) : (s.leafPut pte v).ms.wf := s.pkgPutRaw_wf pte _ w

theorem State.pkgPutWord_wf (s : State) (pa : Nat) (v : Word) (w : s.ms.wf) : (s.pkgPutWord pa v).ms.wf := s.pkgPut_wf pa _ w

theorem State.l2WriteBack_wf (s : State) (a : Acc) (x : Nat) (v : Sec) (w : s.ms.wf) : (s.l2WriteBack a x v).ms.wf := by
  unfold State.l2WriteBack
  dsimp only
  split
  · exact s.pkgWrite_wf _ _ _ w
  · split
    · split
      · exact s.pkgWrite_wf _ _ _ w
      · exact State.hbmWrite_wf _ _ (s.pkgWrite_wf _ _ _ w)
    · exact s.pkgWrite_wf _ _ _ w

theorem State.l2Clean_wf (s : State) (n : Nat) (a : Acc) (x : Nat) (w : s.ms.wf) : (s.l2Clean n a x).ms.wf := by
  unfold State.l2Clean
  split
  · extract_lets b
    split
    · exact s.l2WriteBack_wf b x _ w
    · exact w
  · exact w

theorem State.l2Drop_wf (s : State) (n x : Nat) (w : s.ms.wf) : (s.l2Drop n x).ms.wf := w

theorem State.l1Drop_wf (s : State) (n x : Nat) (w : s.ms.wf) : (s.l1Drop n x).ms.wf := w

theorem State.l2EvictLine_wf (s : State) (n v line : Nat) (w : s.ms.wf) : (s.l2EvictLine n v line).ms.wf :=
  foldl_keeps (fun t : State => t.ms.wf) _ (fun t _ h => State.l2Drop_wf _ _ _ (t.l2Clean_wf _ _ _ h)) _ s w

theorem State.l2Place_wf (s : State) (a : Acc) (x : Nat) (w : s.ms.wf) : (s.l2Place a x).ms.wf := by
  unfold State.l2Place
  extract_lets st line way out t
  split
  · exact w
  · exact foldl_keeps (fun t : State => t.ms.wf) _ (fun t p h => t.l2EvictLine_wf _ _ _ h) _ s w

theorem State.l2Insert_wf (s : State) (a : Acc) (x : Nat) (v : Sec) (w : s.ms.wf) : (s.l2Insert a x v).ms.wf := s.l2Place_wf a x w

theorem State.l2Read_wf (s : State) (a : Acc) (x : Nat) (w : s.ms.wf) : (s.l2Read a x).2.ms.wf := by
  unfold State.l2Read
  dsimp only
  split
  · exact w
  · dsimp only
    split
    · exact State.l2Insert_wf _ _ _ _ (s.pkgRead_wf _ _ w)
    · exact s.pkgRead_wf _ _ w

theorem State.l2Write_wf (s : State) (a : Acc) (x : Nat) (ws : List (Nat × Byte)) (w : s.ms.wf) : (s.l2Write a x ws).ms.wf := by
  unfold State.l2Write
  split
  · exact State.l2Insert_wf _ _ _ _ w
  · split
    · exact State.pkgWrite_wf _ _ _ _ w
    · have h : (if ws.length = 64 then ((⟨0, true, false, a.tag⟩ : Sec), s) else s.pkgRead { a with cls := 0 } x).2.ms.wf := by
        split
        · exact w
        · exact s.pkgRead_wf _ x w
      revert h
      generalize (if ws.length = 64 then ((⟨0, true, false, a.tag⟩ : Sec), s) else s.pkgRead { a with cls := 0 } x) = q
      intro h
      exact State.l2Insert_wf _ _ _ _ h

theorem State.l1Touch_wf (s : State) (core x : Nat) (w : s.ms.wf) : (s.l1Touch core x).ms.wf := w

theorem State.l1Read_wf (s : State) (a : Acc) (x : Nat) (w : s.ms.wf) : (s.l1Read a x).2.ms.wf := by
  unfold State.l1Read
  split
  · exact w
  · dsimp only
    split
    · exact s.l2Read_wf a x w
    · exact State.l1Touch_wf _ _ _ (s.l2Read_wf a x w)

theorem State.l1Write_wf (s : State) (a : Acc) (x : Nat) (ws : List (Nat × Byte)) (w : s.ms.wf) : (s.l1Write a x ws).ms.wf := by
  unfold State.l1Write
  dsimp only
  split
  · exact State.l1Touch_wf _ _ _ (s.l2Write_wf a x ws w)
  · exact s.l2Write_wf a x ws w

theorem State.pathRead_wf (s : State) (p : Path) (a : Acc) (x : Nat) (w : s.ms.wf) : (s.pathRead p a x).2.ms.wf := by
  cases p
  · exact s.l1Read_wf a x w
  · exact s.mscRead_wf a x w
  · exact s.pkgRead_wf a x w

theorem State.pathWrite_wf (s : State) (p : Path) (a : Acc) (ws : List (Nat × Byte)) (w : s.ms.wf) : (s.pathWrite p a ws).ms.wf := by
  cases p
  · exact foldl_keeps (fun t : State => t.ms.wf) _ (fun t _ h => t.l1Write_wf a _ _ h) _ s w
  · exact s.mscWrite_wf a 1 _ w
  · exact s.rawWrite_wf _ w

theorem State.acquireSec_wf (s : State) (a : Acc) (l2 : Bool) (x : Nat) (w : s.ms.wf) : (s.acquireSec a l2 x).ms.wf := by
  unfold State.acquireSec
  split
  · exact State.l2Drop_wf _ _ _ (State.l2Clean_wf _ _ _ _ (s.l1Drop_wf _ _ w))
  · exact w

theorem State.spWrite_wf (s : State) (core off : Nat) (l : List Byte) (w : s.ms.wf) : (s.spWrite core off l).ms.wf :=
  ⟨w.1, memWrite_wf _ _ _ w.2⟩

/-- A change of scratchpad alone, by bytes at addresses. -/
theorem MemSt.spadPut_wf (m : MemSt) (ws : List (Nat × Byte)) (w : m.wf) : MemSt.wf { m with spad := memPut m.spad ws } :=
  ⟨w.1, memPut_wf ws _ w.2⟩

end Sys2Proof.Machine
end

