-- ==== Sys2Proof/Laws/State.lean ====
section
/-! SUPPORT. One lemma per field for each update of the state, and what a register, a guard, a mask, a control register or a
context reads after a write. -/
namespace Sys2Proof.Machine

@[simp] theorem State.setNote_time (s : State) (n : Note) : (s.setNote n).time = s.time := rfl
@[simp] theorem State.setNote_frozen (s : State) (n : Note) : (s.setNote n).frozen = s.frozen := rfl
@[simp] theorem State.setNote_off (s : State) (n : Note) : (s.setNote n).off = s.off := rfl
@[simp] theorem State.setNote_host (s : State) (n : Note) : (s.setNote n).host = s.host := rfl
@[simp] theorem State.setNote_jtag (s : State) (n : Note) : (s.setNote n).jtag = s.jtag := rfl
@[simp] theorem State.setNote_ctl (s : State) (n : Note) : (s.setNote n).ctl = s.ctl := rfl
@[simp] theorem State.setNote_damper (s : State) (n : Note) : (s.setNote n).damper = s.damper := rfl
@[simp] theorem State.setNote_running (s : State) (n : Note) : (s.setNote n).running = s.running := rfl
@[simp] theorem State.setNote_ms (s : State) (n : Note) : (s.setNote n).ms = s.ms := rfl
@[simp] theorem State.setNote_ctxs (s : State) (n : Note) : (s.setNote n).ctxs = s.ctxs := rfl
@[simp] theorem State.setNote_gangs (s : State) (n : Note) : (s.setNote n).gangs = s.gangs := rfl
@[simp] theorem State.setNote_tasks (s : State) (n : Note) : (s.setNote n).tasks = s.tasks := rfl
@[simp] theorem State.setNote_complete (s : State) (n : Note) : (s.setNote n).complete = s.complete := rfl
@[simp] theorem State.setNote_accepted (s : State) (n : Note) : (s.setNote n).accepted = s.accepted := rfl
@[simp] theorem State.setNote_frecs (s : State) (n : Note) : (s.setNote n).frecs = s.frecs := rfl
@[simp] theorem State.setNote_sd (s : State) (n : Note) : (s.setNote n).sd = s.sd := rfl
@[simp] theorem State.setNote_matched (s : State) (n : Note) : (s.setNote n).matched = s.matched := rfl
@[simp] theorem State.setNote_links (s : State) (n : Note) : (s.setNote n).links = s.links := rfl
@[simp] theorem State.setNote_xfers (s : State) (n : Note) : (s.setNote n).xfers = s.xfers := rfl
@[simp] theorem State.setNote_saved (s : State) (n : Note) : (s.setNote n).saved = s.saved := rfl

@[simp] theorem State.setCtx_md (s : State) (x : CtxRef) (k : Ctx) : (s.setCtx x k).md = s.md := rfl
@[simp] theorem State.setCtx_time (s : State) (x : CtxRef) (k : Ctx) : (s.setCtx x k).time = s.time := rfl
@[simp] theorem State.setCtx_frozen (s : State) (x : CtxRef) (k : Ctx) : (s.setCtx x k).frozen = s.frozen := rfl
@[simp] theorem State.setCtx_off (s : State) (x : CtxRef) (k : Ctx) : (s.setCtx x k).off = s.off := rfl
@[simp] theorem State.setCtx_host (s : State) (x : CtxRef) (k : Ctx) : (s.setCtx x k).host = s.host := rfl
@[simp] theorem State.setCtx_jtag (s : State) (x : CtxRef) (k : Ctx) : (s.setCtx x k).jtag = s.jtag := rfl
@[simp] theorem State.setCtx_ctl (s : State) (x : CtxRef) (k : Ctx) : (s.setCtx x k).ctl = s.ctl := rfl
@[simp] theorem State.setCtx_damper (s : State) (x : CtxRef) (k : Ctx) : (s.setCtx x k).damper = s.damper := rfl
@[simp] theorem State.setCtx_running (s : State) (x : CtxRef) (k : Ctx) : (s.setCtx x k).running = s.running := rfl
@[simp] theorem State.setCtx_ms (s : State) (x : CtxRef) (k : Ctx) : (s.setCtx x k).ms = s.ms := rfl
@[simp] theorem State.setCtx_gangs (s : State) (x : CtxRef) (k : Ctx) : (s.setCtx x k).gangs = s.gangs := rfl
@[simp] theorem State.setCtx_tasks (s : State) (x : CtxRef) (k : Ctx) : (s.setCtx x k).tasks = s.tasks := rfl
@[simp] theorem State.setCtx_complete (s : State) (x : CtxRef) (k : Ctx) : (s.setCtx x k).complete = s.complete := rfl
@[simp] theorem State.setCtx_accepted (s : State) (x : CtxRef) (k : Ctx) : (s.setCtx x k).accepted = s.accepted := rfl
@[simp] theorem State.setCtx_frecs (s : State) (x : CtxRef) (k : Ctx) : (s.setCtx x k).frecs = s.frecs := rfl
@[simp] theorem State.setCtx_sd (s : State) (x : CtxRef) (k : Ctx) : (s.setCtx x k).sd = s.sd := rfl
@[simp] theorem State.setCtx_matched (s : State) (x : CtxRef) (k : Ctx) : (s.setCtx x k).matched = s.matched := rfl
@[simp] theorem State.setCtx_links (s : State) (x : CtxRef) (k : Ctx) : (s.setCtx x k).links = s.links := rfl
@[simp] theorem State.setCtx_xfers (s : State) (x : CtxRef) (k : Ctx) : (s.setCtx x k).xfers = s.xfers := rfl
@[simp] theorem State.setCtx_saved (s : State) (x : CtxRef) (k : Ctx) : (s.setCtx x k).saved = s.saved := rfl

@[simp] theorem State.mem_md (s : State) (f : MemSt → MemSt) : (s.mem f).md = s.md := rfl
@[simp] theorem State.mem_time (s : State) (f : MemSt → MemSt) : (s.mem f).time = s.time := rfl
@[simp] theorem State.mem_frozen (s : State) (f : MemSt → MemSt) : (s.mem f).frozen = s.frozen := rfl
@[simp] theorem State.mem_off (s : State) (f : MemSt → MemSt) : (s.mem f).off = s.off := rfl
@[simp] theorem State.mem_host (s : State) (f : MemSt → MemSt) : (s.mem f).host = s.host := rfl
@[simp] theorem State.mem_jtag (s : State) (f : MemSt → MemSt) : (s.mem f).jtag = s.jtag := rfl
@[simp] theorem State.mem_ctl (s : State) (f : MemSt → MemSt) : (s.mem f).ctl = s.ctl := rfl
@[simp] theorem State.mem_damper (s : State) (f : MemSt → MemSt) : (s.mem f).damper = s.damper := rfl
@[simp] theorem State.mem_running (s : State) (f : MemSt → MemSt) : (s.mem f).running = s.running := rfl
@[simp] theorem State.mem_ctxs (s : State) (f : MemSt → MemSt) : (s.mem f).ctxs = s.ctxs := rfl
@[simp] theorem State.mem_gangs (s : State) (f : MemSt → MemSt) : (s.mem f).gangs = s.gangs := rfl
@[simp] theorem State.mem_tasks (s : State) (f : MemSt → MemSt) : (s.mem f).tasks = s.tasks := rfl
@[simp] theorem State.mem_complete (s : State) (f : MemSt → MemSt) : (s.mem f).complete = s.complete := rfl
@[simp] theorem State.mem_accepted (s : State) (f : MemSt → MemSt) : (s.mem f).accepted = s.accepted := rfl
@[simp] theorem State.mem_frecs (s : State) (f : MemSt → MemSt) : (s.mem f).frecs = s.frecs := rfl
@[simp] theorem State.mem_sd (s : State) (f : MemSt → MemSt) : (s.mem f).sd = s.sd := rfl
@[simp] theorem State.mem_matched (s : State) (f : MemSt → MemSt) : (s.mem f).matched = s.matched := rfl
@[simp] theorem State.mem_links (s : State) (f : MemSt → MemSt) : (s.mem f).links = s.links := rfl
@[simp] theorem State.mem_xfers (s : State) (f : MemSt → MemSt) : (s.mem f).xfers = s.xfers := rfl
@[simp] theorem State.mem_saved (s : State) (f : MemSt → MemSt) : (s.mem f).saved = s.saved := rfl

@[simp] theorem State.setReg_md (s : State) (o : Nat) (v : Word) : (s.setReg o v).md = s.md := rfl
@[simp] theorem State.setReg_time (s : State) (o : Nat) (v : Word) : (s.setReg o v).time = s.time := rfl
@[simp] theorem State.setReg_frozen (s : State) (o : Nat) (v : Word) : (s.setReg o v).frozen = s.frozen := rfl
@[simp] theorem State.setReg_off (s : State) (o : Nat) (v : Word) : (s.setReg o v).off = s.off := rfl
@[simp] theorem State.setReg_host (s : State) (o : Nat) (v : Word) : (s.setReg o v).host = s.host := rfl
@[simp] theorem State.setReg_jtag (s : State) (o : Nat) (v : Word) : (s.setReg o v).jtag = s.jtag := rfl
@[simp] theorem State.setReg_damper (s : State) (o : Nat) (v : Word) : (s.setReg o v).damper = s.damper := rfl
@[simp] theorem State.setReg_running (s : State) (o : Nat) (v : Word) : (s.setReg o v).running = s.running := rfl
@[simp] theorem State.setReg_ctxs (s : State) (o : Nat) (v : Word) : (s.setReg o v).ctxs = s.ctxs := rfl
@[simp] theorem State.setReg_gangs (s : State) (o : Nat) (v : Word) : (s.setReg o v).gangs = s.gangs := rfl
@[simp] theorem State.setReg_tasks (s : State) (o : Nat) (v : Word) : (s.setReg o v).tasks = s.tasks := rfl
@[simp] theorem State.setReg_complete (s : State) (o : Nat) (v : Word) : (s.setReg o v).complete = s.complete := rfl
@[simp] theorem State.setReg_accepted (s : State) (o : Nat) (v : Word) : (s.setReg o v).accepted = s.accepted := rfl
@[simp] theorem State.setReg_frecs (s : State) (o : Nat) (v : Word) : (s.setReg o v).frecs = s.frecs := rfl
@[simp] theorem State.setReg_sd (s : State) (o : Nat) (v : Word) : (s.setReg o v).sd = s.sd := rfl
@[simp] theorem State.setReg_matched (s : State) (o : Nat) (v : Word) : (s.setReg o v).matched = s.matched := rfl
@[simp] theorem State.setReg_links (s : State) (o : Nat) (v : Word) : (s.setReg o v).links = s.links := rfl
@[simp] theorem State.setReg_xfers (s : State) (o : Nat) (v : Word) : (s.setReg o v).xfers = s.xfers := rfl
@[simp] theorem State.setReg_saved (s : State) (o : Nat) (v : Word) : (s.setReg o v).saved = s.saved := rfl

@[simp] theorem State.countUp_md (s : State) (o : Nat) : (s.countUp o).md = s.md := rfl
@[simp] theorem State.countUp_time (s : State) (o : Nat) : (s.countUp o).time = s.time := rfl
@[simp] theorem State.countUp_frozen (s : State) (o : Nat) : (s.countUp o).frozen = s.frozen := rfl
@[simp] theorem State.countUp_off (s : State) (o : Nat) : (s.countUp o).off = s.off := rfl
@[simp] theorem State.countUp_host (s : State) (o : Nat) : (s.countUp o).host = s.host := rfl
@[simp] theorem State.countUp_jtag (s : State) (o : Nat) : (s.countUp o).jtag = s.jtag := rfl
@[simp] theorem State.countUp_damper (s : State) (o : Nat) : (s.countUp o).damper = s.damper := rfl
@[simp] theorem State.countUp_running (s : State) (o : Nat) : (s.countUp o).running = s.running := rfl
@[simp] theorem State.countUp_ctxs (s : State) (o : Nat) : (s.countUp o).ctxs = s.ctxs := rfl
@[simp] theorem State.countUp_gangs (s : State) (o : Nat) : (s.countUp o).gangs = s.gangs := rfl
@[simp] theorem State.countUp_tasks (s : State) (o : Nat) : (s.countUp o).tasks = s.tasks := rfl
@[simp] theorem State.countUp_complete (s : State) (o : Nat) : (s.countUp o).complete = s.complete := rfl
@[simp] theorem State.countUp_accepted (s : State) (o : Nat) : (s.countUp o).accepted = s.accepted := rfl
@[simp] theorem State.countUp_frecs (s : State) (o : Nat) : (s.countUp o).frecs = s.frecs := rfl
@[simp] theorem State.countUp_sd (s : State) (o : Nat) : (s.countUp o).sd = s.sd := rfl
@[simp] theorem State.countUp_matched (s : State) (o : Nat) : (s.countUp o).matched = s.matched := rfl
@[simp] theorem State.countUp_links (s : State) (o : Nat) : (s.countUp o).links = s.links := rfl
@[simp] theorem State.countUp_xfers (s : State) (o : Nat) : (s.countUp o).xfers = s.xfers := rfl
@[simp] theorem State.countUp_saved (s : State) (o : Nat) : (s.countUp o).saved = s.saved := rfl

@[simp] theorem State.runBank_md (s : State) (x : CtxRef) : (s.runBank x).md = s.md := rfl
@[simp] theorem State.runBank_time (s : State) (x : CtxRef) : (s.runBank x).time = s.time := rfl
@[simp] theorem State.runBank_frozen (s : State) (x : CtxRef) : (s.runBank x).frozen = s.frozen := rfl
@[simp] theorem State.runBank_off (s : State) (x : CtxRef) : (s.runBank x).off = s.off := rfl
@[simp] theorem State.runBank_host (s : State) (x : CtxRef) : (s.runBank x).host = s.host := rfl
@[simp] theorem State.runBank_jtag (s : State) (x : CtxRef) : (s.runBank x).jtag = s.jtag := rfl
@[simp] theorem State.runBank_ctl (s : State) (x : CtxRef) : (s.runBank x).ctl = s.ctl := rfl
@[simp] theorem State.runBank_damper (s : State) (x : CtxRef) : (s.runBank x).damper = s.damper := rfl
@[simp] theorem State.runBank_ms (s : State) (x : CtxRef) : (s.runBank x).ms = s.ms := rfl
@[simp] theorem State.runBank_ctxs (s : State) (x : CtxRef) : (s.runBank x).ctxs = s.ctxs := rfl
@[simp] theorem State.runBank_gangs (s : State) (x : CtxRef) : (s.runBank x).gangs = s.gangs := rfl
@[simp] theorem State.runBank_tasks (s : State) (x : CtxRef) : (s.runBank x).tasks = s.tasks := rfl
@[simp] theorem State.runBank_complete (s : State) (x : CtxRef) : (s.runBank x).complete = s.complete := rfl
@[simp] theorem State.runBank_accepted (s : State) (x : CtxRef) : (s.runBank x).accepted = s.accepted := rfl
@[simp] theorem State.runBank_frecs (s : State) (x : CtxRef) : (s.runBank x).frecs = s.frecs := rfl
@[simp] theorem State.runBank_sd (s : State) (x : CtxRef) : (s.runBank x).sd = s.sd := rfl
@[simp] theorem State.runBank_matched (s : State) (x : CtxRef) : (s.runBank x).matched = s.matched := rfl
@[simp] theorem State.runBank_links (s : State) (x : CtxRef) : (s.runBank x).links = s.links := rfl
@[simp] theorem State.runBank_xfers (s : State) (x : CtxRef) : (s.runBank x).xfers = s.xfers := rfl
@[simp] theorem State.runBank_saved (s : State) (x : CtxRef) : (s.runBank x).saved = s.saved := rfl

/-- The context that has been put at a place. -/
@[simp] theorem State.ctx?_setCtx (s : State) (x : CtxRef) (k : Ctx) : (s.setCtx x k).ctx? x = some k := tfind_tins_same _ _ _

/-- Putting a context at a place leaves the others. -/
theorem State.ctx?_setCtx_ne (s : State) (x y : CtxRef) (k : Ctx) (h : ctxKey y ≠ ctxKey x) : (s.setCtx x k).ctx? y = s.ctx? y :=
  tfind_tins_ne _ _ _ _ h

/-- A note changes no context. -/
@[simp] theorem State.ctx?_setNote (s : State) (n : Note) (x : CtxRef) : (s.setNote n).ctx? x = s.ctx? x := rfl

/-- A written control register reads what has been written. -/
@[simp] theorem State.reg_setReg (s : State) (o : Nat) (v : Word) : (s.setReg o v).reg o = v := tget_tset_same _ _ _ _

/-- Writing a control register leaves the others. -/
theorem State.reg_setReg_ne (s : State) (o p : Nat) (v : Word) (h : p ≠ o) : (s.setReg o v).reg p = s.reg p := by
  simp only [State.reg, State.setReg, tget_eq, tset]
  split
  · rw [tfind_tdel_ne _ _ _ h]
  · rw [tfind_tins_ne _ _ _ _ h, tfind_tdel_ne _ _ _ h]

/-- A scalar register reads what has been written. -/
@[simp] theorem StreamSt.reg_setReg (t : StreamSt) (n : Nat) (v : Word) : (t.setReg n v).reg n = v := tget_tset_same _ _ _ _

/-- Writing a scalar register leaves the others. -/
theorem StreamSt.reg_setReg_ne (t : StreamSt) (n j : Nat) (v : Word) (h : j ≠ n) : (t.setReg n v).reg j = t.reg j :=
  tget_tset_ne _ _ _ _ _ h

/-- Writing a scalar register leaves the guards. -/
@[simp] theorem StreamSt.guards_setReg (t : StreamSt) (n : Nat) (v : Word) : (t.setReg n v).guards = t.guards := rfl

/-- g0 reads 1 whatever is written (R60). -/
@[simp] theorem StreamSt.guard_zero (t : StreamSt) : t.guard 0 = true := rfl

/-- A write to g0 is no write (R141). -/
@[simp] theorem StreamSt.setGuard_zero (t : StreamSt) (b : Bool) : t.setGuard 0 b = t := rfl

/-- Writing a guard leaves the registers. -/
@[simp] theorem StreamSt.reg_setGuard (t : StreamSt) (n j : Nat) (b : Bool) : (t.setGuard n b).reg j = t.reg j := by
  unfold StreamSt.setGuard
  split <;> rfl

/-- k0 reads all ones (R150). -/
@[simp] theorem VecSt.mask_zero (v : VecSt) (r : Nat) : v.mask 0 r = BitVec.allOnes 64 := rfl

/-- A write to k0 is no write. -/
@[simp] theorem VecSt.setMask_zero (v : VecSt) (r : Nat) (b : BitVec 64) : v.setMask 0 r b = v := rfl

/-- A mask row reads what has been written. -/
theorem VecSt.mask_setMask (v : VecSt) (n r : Nat) (b : BitVec 64) (h : n ≠ 0) : (v.setMask n r b).mask n r = b := by
  simp [VecSt.mask, VecSt.setMask, h]

/-- Changing a stream changes no other part of the machine. -/
@[simp] theorem Mach.str_s (m : Mach) (f : StreamSt → StreamSt) : (m.str f).s = m.s := rfl
@[simp] theorem Mach.str_st (m : Mach) (f : StreamSt → StreamSt) : (m.str f).st = m.st := rfl
@[simp] theorem Mach.ctx_s (m : Mach) (f : Ctx → Ctx) : (m.ctx f).s = m.s := rfl
@[simp] theorem Mach.ctx_st (m : Mach) (f : Ctx → Ctx) : (m.ctx f).st = m.st := rfl
@[simp] theorem Mach.ctx_k (m : Mach) (f : Ctx → Ctx) : (m.ctx f).k = f m.k := rfl
@[simp] theorem Mach.str_t (m : Mach) (f : StreamSt → StreamSt) : (m.str f).t = f m.t := by
  obtain ⟨s, k, st⟩ := m
  cases st <;> rfl

/-- A state that a word leaves holds its context. -/
theorem Mach.leave_ctx (m : Mach) (n : Note) : (m.leave n).ctx? m.x = some (m.str fun t => { t with stalled := n.why }).k :=
  State.ctx?_setCtx m.s m.x _

/-- A state that a word leaves keeps the other contexts. -/
theorem Mach.leave_ctx_ne (m : Mach) (n : Note) (y : CtxRef) (h : ctxKey y ≠ ctxKey m.x) : (m.leave n).ctx? y = m.s.ctx? y :=
  State.ctx?_setCtx_ne m.s m.x y _ h

end Sys2Proof.Machine
end

