-- ==== Sys2Proof/Laws/Host.lean ====
section
/-! SUPPORT. The mailboxes and the links: what a function's mailbox or a port holds after a write, what a mailbox message comes
to, and that the steps of bring-up keep the memory's form. -/
namespace Sys2Proof.Machine

@[simp] theorem State.hostUpd_ms (s : State) (f : HostSt → HostSt) : (s.hostUpd f).ms = s.ms := rfl
@[simp] theorem State.hostUpd_ctl (s : State) (f : HostSt → HostSt) : (s.hostUpd f).ctl = s.ctl := rfl
@[simp] theorem State.hostUpd_ctxs (s : State) (f : HostSt → HostSt) : (s.hostUpd f).ctxs = s.ctxs := rfl
@[simp] theorem State.hostUpd_host (s : State) (f : HostSt → HostSt) : (s.hostUpd f).host = f s.host := rfl
@[simp] theorem State.setLink_ms (s : State) (p : Nat) (l : Link) : (s.setLink p l).ms = s.ms := rfl
@[simp] theorem State.setLink_ctl (s : State) (p : Nat) (l : Link) : (s.setLink p l).ctl = s.ctl := rfl
@[simp] theorem State.setLink_ctxs (s : State) (p : Nat) (l : Link) : (s.setLink p l).ctxs = s.ctxs := rfl
@[simp] theorem State.setLink_xfers (s : State) (p : Nat) (l : Link) : (s.setLink p l).xfers = s.xfers := rfl

/-- A written mailbox holds what has been written. -/
@[simp] theorem State.mailbox_setMail (s : State) (fn : Nat) (m : Mail) : (s.setMail fn m).mailbox fn = m := tget_tset_same _ _ _ _

/-- Writing a mailbox leaves the others. -/
theorem State.mailbox_setMail_ne (s : State) (fn j : Nat) (m : Mail) (h : j ≠ fn) : (s.setMail fn m).mailbox j = s.mailbox j :=
  tget_tset_ne _ _ _ _ _ h

/-- A written port holds what has been written. -/
@[simp] theorem State.link_setLink (s : State) (p : Nat) (l : Link) : (s.setLink p l).link p = l := tget_tset_same _ _ _ _

/-- Writing a port leaves the others. -/
theorem State.link_setLink_ne (s : State) (p q : Nat) (l : Link) (h : q ≠ p) : (s.setLink p l).link q = s.link q :=
  tget_tset_ne _ _ _ _ _ h

/-- A message is posted in a mailbox that has none standing (R460). -/
theorem State.mailMsg_posts {s : State} {fn : BitVec 6} {put : List Byte} {mine : Nat → Bool} {bad : List Byte → Option Byte}
    {f : List Byte → State → Answer × State} (ho : s.mailOpen fn.toNat = true) (hg : (s.mailbox fn.toNat).go = false)
    (hm : mine ((s.mailbox fn.toNat).post put).type = true) :
    s.mailMsg fn put mine bad f = .next (s.setMail fn.toNat ((s.mailbox fn.toNat).post put)) := by
  simp [State.mailMsg, ho, hg, hm]

/-- A message that stands and passes its checks is answered with what its row makes of it (R460). -/
theorem State.mailMsg_answers {s : State} {fn : BitVec 6} {put : List Byte} {mine : Nat → Bool} {bad : List Byte → Option Byte}
    {f : List Byte → State → Answer × State} (ho : s.mailOpen fn.toNat = true) (hg : (s.mailbox fn.toNat).go = true)
    (hm : mine (s.mailbox fn.toNat).type = true) (hb : bad (s.mailbox fn.toNat).msg = none) :
    s.mailMsg fn put mine bad f = .next ((f (s.mailbox fn.toNat).msg s).2.answer fn.toNat (f (s.mailbox fn.toNat).msg s).1) := by
  simp [State.mailMsg, ho, hg, hm, hb]

/-- One that does not pass them is answered with the status that they give (R461). -/
theorem State.mailMsg_refuses {s : State} {fn : BitVec 6} {put : List Byte} {mine : Nat → Bool} {bad : List Byte → Option Byte}
    {f : List Byte → State → Answer × State} {st : Byte} (ho : s.mailOpen fn.toNat = true) (hg : (s.mailbox fn.toNat).go = true)
    (hm : mine (s.mailbox fn.toNat).type = true) (hb : bad (s.mailbox fn.toNat).msg = some st) :
    s.mailMsg fn put mine bad f = .next (s.answer fn.toNat (.plain st)) := by
  simp [State.mailMsg, ho, hg, hm, hb]

theorem State.cxlPoison_wf (s : State) (sec : Nat) (w : s.ms.wf) : (s.cxlPoison sec).ms.wf := w

theorem State.poisonGranule_wf (s : State) (tag sec : Nat) (w : s.ms.wf) : (s.poisonGranule tag sec).ms.wf := s.hbmWrite_wf _ w

theorem MemSt.scrubHbm_wf (m : MemSt) (w : m.wf) : m.scrubHbm.wf := ⟨memFilter_wf _ _ w.1, w.2⟩

theorem MemSt.afterReset_wf (m : MemSt) (w : m.wf) : m.afterReset.wf := ⟨memFilter_wf _ _ w.1, reset_mem_wf.2⟩

end Sys2Proof.Machine
end

