-- ==== Sys2Proof/Laws/PerInstr.lean ====
section
/-! SUPPORT. The family Encoding: what the word of an instruction carries, constructor by constructor. -/
namespace Sys2Proof.Laws

open Sys2Proof

/-- The header that a word with 21 header bits carries (R58). -/
theorem getHdr_put (h : Hdr) (op : BitVec 7) (b : BitVec 43) : getHdr (putHdr h op ++ b : BitVec 64) = h := by
  obtain ⟨sy, pb, pa, g, gn, ms, cl⟩ := h
  simp only [getHdr, putHdr, Hdr.mk.injEq]
  refine ⟨?_, ?_, ?_, ?_, ?_, ?_, ?_⟩
  · simp only [BitVec.getLsbD_append]; simp
  · apply BitVec.eq_of_getLsbD_eq
    intro i hi
    simp only [BitVec.getLsbD_extractLsb', BitVec.getLsbD_append]
    interval_cases i <;> simp
  · apply BitVec.eq_of_getLsbD_eq
    intro i hi
    simp only [BitVec.getLsbD_extractLsb', BitVec.getLsbD_append]
    interval_cases i <;> simp
  · apply BitVec.eq_of_getLsbD_eq
    intro i hi
    simp only [BitVec.getLsbD_extractLsb', BitVec.getLsbD_append]
    interval_cases i <;> simp
  · simp only [BitVec.getLsbD_append]; simp
  · apply BitVec.eq_of_getLsbD_eq
    intro i hi
    simp only [BitVec.getLsbD_extractLsb', BitVec.getLsbD_append]
    interval_cases i <;> simp
  · apply BitVec.eq_of_getLsbD_eq
    intro i hi
    simp only [BitVec.getLsbD_extractLsb', BitVec.getLsbD_append]
    interval_cases i <;> simp

/-- The opcode that a word carries (R58). -/
theorem opcode_put (h : Hdr) (op : BitVec 7) (b : BitVec 43) : (putHdr h op ++ b : BitVec 64).extractLsb' 43 7 = op := by
  apply BitVec.eq_of_getLsbD_eq
  intro i hi
  simp only [putHdr, BitVec.getLsbD_extractLsb', BitVec.getLsbD_append, hi, decide_true, Bool.true_and]
  rw [if_neg (by omega), if_pos (by omega)]
  congr 1
  omega

/-- The format bits that a word carries (R58). -/
theorem body_put (h : Hdr) (op : BitVec 7) (b : BitVec 43) : (putHdr h op ++ b : BitVec 64).setWidth 43 = b := by
  apply BitVec.eq_of_getLsbD_eq
  intro i hi
  simp only [BitVec.getLsbD_setWidth, BitVec.getLsbD_append, hi, decide_true, Bool.true_and, if_true]

end Sys2Proof.Laws

namespace Sys2Proof.Laws.Encoding

open Sys2Proof

/-- The word of an instruction carries its header, its opcode and its format's bits, each in its place (R57, R58). -/
def Statement (i : Instr) : Prop :=
  ∀ h, i.hdr? = some h → getHdr (encode i) = h ∧ (encode i).extractLsb' 43 7 = i.opc ∧ (encode i).setWidth 43 = i.body

/-- A constructor with a header has it in its word. -/
theorem of_encode {i : Instr} (e : ∀ h, i.hdr? = some h → encode i = (putHdr h i.opc ++ i.body : BitVec 64)) : Statement i := by
  intro h hh
  rw [e h hh]
  exact ⟨getHdr_put h _ _, opcode_put h _ _, body_put h _ _⟩

theorem ill (w : Word) : Statement (.ill w) := fun _ e => nomatch e
theorem add (h : Hdr) (o : S3) : Statement (.add h o) := of_encode fun _ e => by cases e; rfl
theorem sub (h : Hdr) (o : S3) : Statement (.sub h o) := of_encode fun _ e => by cases e; rfl
theorem mul (h : Hdr) (o : S3) : Statement (.mul h o) := of_encode fun _ e => by cases e; rfl
theorem mulhi (h : Hdr) (o : S3) : Statement (.mulhi h o) := of_encode fun _ e => by cases e; rfl
theorem mulhis (h : Hdr) (o : S3) : Statement (.mulhis h o) := of_encode fun _ e => by cases e; rfl
theorem div (h : Hdr) (o : S3) : Statement (.div h o) := of_encode fun _ e => by cases e; rfl
theorem divs (h : Hdr) (o : S3) : Statement (.divs h o) := of_encode fun _ e => by cases e; rfl
theorem rem (h : Hdr) (o : S3) : Statement (.rem h o) := of_encode fun _ e => by cases e; rfl
theorem rems (h : Hdr) (o : S3) : Statement (.rems h o) := of_encode fun _ e => by cases e; rfl
theorem and (h : Hdr) (o : S3) : Statement (.and h o) := of_encode fun _ e => by cases e; rfl
theorem or (h : Hdr) (o : S3) : Statement (.or h o) := of_encode fun _ e => by cases e; rfl
theorem xor (h : Hdr) (o : S3) : Statement (.xor h o) := of_encode fun _ e => by cases e; rfl
theorem andn (h : Hdr) (o : S3) : Statement (.andn h o) := of_encode fun _ e => by cases e; rfl
theorem shl (h : Hdr) (o : S3) : Statement (.shl h o) := of_encode fun _ e => by cases e; rfl
theorem shr (h : Hdr) (o : S3) : Statement (.shr h o) := of_encode fun _ e => by cases e; rfl
theorem sra (h : Hdr) (o : S3) : Statement (.sra h o) := of_encode fun _ e => by cases e; rfl
theorem rol (h : Hdr) (o : S3) : Statement (.rol h o) := of_encode fun _ e => by cases e; rfl
theorem min (h : Hdr) (o : S3) : Statement (.min h o) := of_encode fun _ e => by cases e; rfl
theorem mins (h : Hdr) (o : S3) : Statement (.mins h o) := of_encode fun _ e => by cases e; rfl
theorem max (h : Hdr) (o : S3) : Statement (.max h o) := of_encode fun _ e => by cases e; rfl
theorem maxs (h : Hdr) (o : S3) : Statement (.maxs h o) := of_encode fun _ e => by cases e; rfl
theorem sel (h : Hdr) (o : S3) : Statement (.sel h o) := of_encode fun _ e => by cases e; rfl
theorem cmp (h : Hdr) (o : S3) : Statement (.cmp h o) := of_encode fun _ e => by cases e; rfl
theorem gop (h : Hdr) (o : S3) : Statement (.gop h o) := of_encode fun _ e => by cases e; rfl
theorem addi (h : Hdr) (o : SI) : Statement (.addi h o) := of_encode fun _ e => by cases e; rfl
theorem andi (h : Hdr) (o : SI) : Statement (.andi h o) := of_encode fun _ e => by cases e; rfl
theorem ori (h : Hdr) (o : SI) : Statement (.ori h o) := of_encode fun _ e => by cases e; rfl
theorem xori (h : Hdr) (o : SI) : Statement (.xori h o) := of_encode fun _ e => by cases e; rfl
theorem shli (h : Hdr) (o : SI) : Statement (.shli h o) := of_encode fun _ e => by cases e; rfl
theorem shri (h : Hdr) (o : SI) : Statement (.shri h o) := of_encode fun _ e => by cases e; rfl
theorem srai (h : Hdr) (o : SI) : Statement (.srai h o) := of_encode fun _ e => by cases e; rfl
theorem cmpi (h : Hdr) (o : SI) : Statement (.cmpi h o) := of_encode fun _ e => by cases e; rfl
theorem li (h : Hdr) (o : SI) : Statement (.li h o) := of_encode fun _ e => by cases e; rfl
theorem lih (h : Hdr) (o : SI) : Statement (.lih h o) := of_encode fun _ e => by cases e; rfl
theorem bfx (h : Hdr) (o : S3) : Statement (.bfx h o) := of_encode fun _ e => by cases e; rfl
theorem bfxs (h : Hdr) (o : S3) : Statement (.bfxs h o) := of_encode fun _ e => by cases e; rfl
theorem bfi (h : Hdr) (o : S3) : Statement (.bfi h o) := of_encode fun _ e => by cases e; rfl
theorem fshl (h : Hdr) (o : S3) : Statement (.fshl h o) := of_encode fun _ e => by cases e; rfl
theorem fshr (h : Hdr) (o : S3) : Statement (.fshr h o) := of_encode fun _ e => by cases e; rfl
theorem popc (h : Hdr) (o : S3) : Statement (.popc h o) := of_encode fun _ e => by cases e; rfl
theorem clz (h : Hdr) (o : S3) : Statement (.clz h o) := of_encode fun _ e => by cases e; rfl
theorem ctz (h : Hdr) (o : S3) : Statement (.ctz h o) := of_encode fun _ e => by cases e; rfl
theorem brev (h : Hdr) (o : S3) : Statement (.brev h o) := of_encode fun _ e => by cases e; rfl
theorem br (h : Hdr) (o : SB) : Statement (.br h o) := of_encode fun _ e => by cases e; rfl
theorem call (h : Hdr) (o : SB) : Statement (.call h o) := of_encode fun _ e => by cases e; rfl
theorem ret (h : Hdr) (o : SB) : Statement (.ret h o) := of_encode fun _ e => by cases e; rfl
theorem jmpr (h : Hdr) (o : SB) : Statement (.jmpr h o) := of_encode fun _ e => by cases e; rfl
theorem brq (h : Hdr) (o : SB) : Statement (.brq h o) := of_encode fun _ e => by cases e; rfl
theorem modl (h : Hdr) (o : ML) : Statement (.modl h o) := of_encode fun _ e => by cases e; rfl
theorem qstat (h : Hdr) (o : S3) : Statement (.qstat h o) := of_encode fun _ e => by cases e; rfl
theorem hstep (h : Hdr) (o : H) : Statement (.hstep h o) := of_encode fun _ e => by cases e; rfl
theorem hmark (h : Hdr) (o : H) : Statement (.hmark h o) := of_encode fun _ e => by cases e; rfl
theorem hrew (h : Hdr) (o : H) : Statement (.hrew h o) := of_encode fun _ e => by cases e; rfl
theorem hstat (h : Hdr) (o : H) : Statement (.hstat h o) := of_encode fun _ e => by cases e; rfl
theorem pkw (h : Hdr) (o : S3) : Statement (.pkw h o) := of_encode fun _ e => by cases e; rfl
theorem srr (h : Hdr) (o : SI) : Statement (.srr h o) := of_encode fun _ e => by cases e; rfl
theorem srw (h : Hdr) (o : SI) : Statement (.srw h o) := of_encode fun _ e => by cases e; rfl
theorem trap (h : Hdr) (o : SI) : Statement (.trap h o) := of_encode fun _ e => by cases e; rfl
theorem eret (h : Hdr) (o : S3) : Statement (.eret h o) := of_encode fun _ e => by cases e; rfl
theorem yield (h : Hdr) (o : S3) : Statement (.yield h o) := of_encode fun _ e => by cases e; rfl
theorem wait (h : Hdr) (o : SI) : Statement (.wait h o) := of_encode fun _ e => by cases e; rfl
theorem halt (h : Hdr) (o : S3) : Statement (.halt h o) := of_encode fun _ e => by cases e; rfl
theorem nop (h : Hdr) (o : S3) : Statement (.nop h o) := of_encode fun _ e => by cases e; rfl
theorem lds (h : Hdr) (o : L) : Statement (.lds h o) := of_encode fun _ e => by cases e; rfl
theorem sts (h : Hdr) (o : L) : Statement (.sts h o) := of_encode fun _ e => by cases e; rfl
theorem ldq (h : Hdr) (o : L) : Statement (.ldq h o) := of_encode fun _ e => by cases e; rfl
theorem stq (h : Hdr) (o : L) : Statement (.stq h o) := of_encode fun _ e => by cases e; rfl
theorem satom (h : Hdr) (o : L) : Statement (.satom h o) := of_encode fun _ e => by cases e; rfl
theorem ldg (h : Hdr) (o : L) : Statement (.ldg h o) := of_encode fun _ e => by cases e; rfl
theorem stg (h : Hdr) (o : L) : Statement (.stg h o) := of_encode fun _ e => by cases e; rfl
theorem gatom (h : Hdr) (o : L) : Statement (.gatom h o) := of_encode fun _ e => by cases e; rfl
theorem cmo (h : Hdr) (o : L) : Statement (.cmo h o) := of_encode fun _ e => by cases e; rfl
theorem lbind (h : Hdr) (o : S3) : Statement (.lbind h o) := of_encode fun _ e => by cases e; rfl
theorem acq (h : Hdr) (o : S3) : Statement (.acq h o) := of_encode fun _ e => by cases e; rfl
theorem rel (h : Hdr) (o : S3) : Statement (.rel h o) := of_encode fun _ e => by cases e; rfl
theorem fence (h : Hdr) (o : S3) : Statement (.fence h o) := of_encode fun _ e => by cases e; rfl
theorem gbar (h : Hdr) (o : S3) : Statement (.gbar h o) := of_encode fun _ e => by cases e; rfl
theorem waitw (h : Hdr) (o : S3) : Statement (.waitw h o) := of_encode fun _ e => by cases e; rfl
theorem wbind (h : Hdr) (o : S3) : Statement (.wbind h o) := of_encode fun _ e => by cases e; rfl
theorem wadv (h : Hdr) (o : SI) : Statement (.wadv h o) := of_encode fun _ e => by cases e; rfl
theorem wrel (h : Hdr) (o : S3) : Statement (.wrel h o) := of_encode fun _ e => by cases e; rfl
theorem ldw (h : Hdr) (o : L) : Statement (.ldw h o) := of_encode fun _ e => by cases e; rfl
theorem hbind (h : Hdr) (o : H) : Statement (.hbind h o) := of_encode fun _ e => by cases e; rfl
theorem hunb (h : Hdr) (o : H) : Statement (.hunb h o) := of_encode fun _ e => by cases e; rfl
theorem topen (h : Hdr) (o : S3) : Statement (.topen h o) := of_encode fun _ e => by cases e; rfl
theorem tseal (h : Hdr) (o : S3) : Statement (.tseal h o) := of_encode fun _ e => by cases e; rfl
theorem tstat (h : Hdr) (o : S3) : Statement (.tstat h o) := of_encode fun _ e => by cases e; rfl
theorem cpym (h : Hdr) (o : E) : Statement (.cpym h o) := of_encode fun _ e => by cases e; rfl
theorem cpys (h : Hdr) (o : E) : Statement (.cpys h o) := of_encode fun _ e => by cases e; rfl
theorem cgth (h : Hdr) (o : E) : Statement (.cgth h o) := of_encode fun _ e => by cases e; rfl
theorem csct (h : Hdr) (o : E) : Statement (.csct h o) := of_encode fun _ e => by cases e; rfl
theorem cpgi (h : Hdr) (o : E) : Statement (.cpgi h o) := of_encode fun _ e => by cases e; rfl
theorem rput (h : Hdr) (o : E) : Statement (.rput h o) := of_encode fun _ e => by cases e; rfl
theorem rget (h : Hdr) (o : E) : Statement (.rget h o) := of_encode fun _ e => by cases e; rfl
theorem gadd (h : Hdr) (o : E) : Statement (.gadd h o) := of_encode fun _ e => by cases e; rfl
theorem gamo (h : Hdr) (o : E) : Statement (.gamo h o) := of_encode fun _ e => by cases e; rfl
theorem gqop (h : Hdr) (o : E) : Statement (.gqop h o) := of_encode fun _ e => by cases e; rfl
theorem gred (h : Hdr) (o : E) : Statement (.gred h o) := of_encode fun _ e => by cases e; rfl
theorem gaxpy (h : Hdr) (o : E) : Statement (.gaxpy h o) := of_encode fun _ e => by cases e; rfl
theorem gfen (h : Hdr) (o : E) : Statement (.gfen h o) := of_encode fun _ e => by cases e; rfl
theorem eqclr (h : Hdr) (o : E) : Statement (.eqclr h o) := of_encode fun _ e => by cases e; rfl
theorem equ (h : Hdr) (o : E) : Statement (.equ h o) := of_encode fun _ e => by cases e; rfl
theorem eqf (h : Hdr) (o : E) : Statement (.eqf h o) := of_encode fun _ e => by cases e; rfl
theorem eqz (h : Hdr) (o : E) : Statement (.eqz h o) := of_encode fun _ e => by cases e; rfl
theorem eqr (h : Hdr) (o : E) : Statement (.eqr h o) := of_encode fun _ e => by cases e; rfl
theorem eqsnp (h : Hdr) (o : E) : Statement (.eqsnp h o) := of_encode fun _ e => by cases e; rfl
theorem eqund (h : Hdr) (o : E) : Statement (.eqund h o) := of_encode fun _ e => by cases e; rfl
theorem deq (h : Hdr) (o : S3) : Statement (.deq h o) := of_encode fun _ e => by cases e; rfl
theorem engst (h : Hdr) (o : S3) : Statement (.engst h o) := of_encode fun _ e => by cases e; rfl
theorem spk (h : Hdr) (o : E) : Statement (.spk h o) := of_encode fun _ e => by cases e; rfl
theorem eva (h : Hdr) (o : S3) : Statement (.eva h o) := of_encode fun _ e => by cases e; rfl
theorem evw (h : Hdr) (o : S3) : Statement (.evw h o) := of_encode fun _ e => by cases e; rfl
theorem evq (h : Hdr) (o : S3) : Statement (.evq h o) := of_encode fun _ e => by cases e; rfl
theorem tkenq (h : Hdr) (o : E) : Statement (.tkenq h o) := of_encode fun _ e => by cases e; rfl
theorem tksig (h : Hdr) (o : S3) : Statement (.tksig h o) := of_encode fun _ e => by cases e; rfl
theorem vadd (h : Hdr) (o : V3) : Statement (.vadd h o) := of_encode fun _ e => by cases e; rfl
theorem vsub (h : Hdr) (o : V3) : Statement (.vsub h o) := of_encode fun _ e => by cases e; rfl
theorem vmul (h : Hdr) (o : V3) : Statement (.vmul h o) := of_encode fun _ e => by cases e; rfl
theorem vfma (h : Hdr) (o : V3) : Statement (.vfma h o) := of_encode fun _ e => by cases e; rfl
theorem vfms (h : Hdr) (o : V3) : Statement (.vfms h o) := of_encode fun _ e => by cases e; rfl
theorem vmin (h : Hdr) (o : V3) : Statement (.vmin h o) := of_encode fun _ e => by cases e; rfl
theorem vmax (h : Hdr) (o : V3) : Statement (.vmax h o) := of_encode fun _ e => by cases e; rfl
theorem vabs (h : Hdr) (o : V3) : Statement (.vabs h o) := of_encode fun _ e => by cases e; rfl
theorem vneg (h : Hdr) (o : V3) : Statement (.vneg h o) := of_encode fun _ e => by cases e; rfl
theorem vand (h : Hdr) (o : V3) : Statement (.vand h o) := of_encode fun _ e => by cases e; rfl
theorem vor (h : Hdr) (o : V3) : Statement (.vor h o) := of_encode fun _ e => by cases e; rfl
theorem vxor (h : Hdr) (o : V3) : Statement (.vxor h o) := of_encode fun _ e => by cases e; rfl
theorem vshl (h : Hdr) (o : V3) : Statement (.vshl h o) := of_encode fun _ e => by cases e; rfl
theorem vshr (h : Hdr) (o : V3) : Statement (.vshr h o) := of_encode fun _ e => by cases e; rfl
theorem vsra (h : Hdr) (o : V3) : Statement (.vsra h o) := of_encode fun _ e => by cases e; rfl
theorem vcmp (h : Hdr) (o : V3) : Statement (.vcmp h o) := of_encode fun _ e => by cases e; rfl
theorem kop (h : Hdr) (o : V3) : Statement (.kop h o) := of_encode fun _ e => by cases e; rfl
theorem kpop (h : Hdr) (o : V3) : Statement (.kpop h o) := of_encode fun _ e => by cases e; rfl
theorem kmov (h : Hdr) (o : V3) : Statement (.kmov h o) := of_encode fun _ e => by cases e; rfl
theorem vsel (h : Hdr) (o : V3) : Statement (.vsel h o) := of_encode fun _ e => by cases e; rfl
theorem vrcp (h : Hdr) (o : V3) : Statement (.vrcp h o) := of_encode fun _ e => by cases e; rfl
theorem vsqrt (h : Hdr) (o : V3) : Statement (.vsqrt h o) := of_encode fun _ e => by cases e; rfl
theorem vrsq (h : Hdr) (o : V3) : Statement (.vrsq h o) := of_encode fun _ e => by cases e; rfl
theorem vexp2 (h : Hdr) (o : V3) : Statement (.vexp2 h o) := of_encode fun _ e => by cases e; rfl
theorem vlog2 (h : Hdr) (o : V3) : Statement (.vlog2 h o) := of_encode fun _ e => by cases e; rfl
theorem vcvt (h : Hdr) (o : V3) : Statement (.vcvt h o) := of_encode fun _ e => by cases e; rfl
theorem vqmx (h : Hdr) (o : V3) : Statement (.vqmx h o) := of_encode fun _ e => by cases e; rfl
theorem vtbl (h : Hdr) (o : V3) : Statement (.vtbl h o) := of_encode fun _ e => by cases e; rfl
theorem vtblw (h : Hdr) (o : V3) : Statement (.vtblw h o) := of_encode fun _ e => by cases e; rfl
theorem vrotr (h : Hdr) (o : V3) : Statement (.vrotr h o) := of_encode fun _ e => by cases e; rfl
theorem vrotc (h : Hdr) (o : V3) : Statement (.vrotc h o) := of_encode fun _ e => by cases e; rfl
theorem vbcr (h : Hdr) (o : V3) : Statement (.vbcr h o) := of_encode fun _ e => by cases e; rfl
theorem vbcc (h : Hdr) (o : V3) : Statement (.vbcc h o) := of_encode fun _ e => by cases e; rfl
theorem vredr (h : Hdr) (o : V3) : Statement (.vredr h o) := of_encode fun _ e => by cases e; rfl
theorem vredc (h : Hdr) (o : V3) : Statement (.vredc h o) := of_encode fun _ e => by cases e; rfl
theorem vscanr (h : Hdr) (o : V3) : Statement (.vscanr h o) := of_encode fun _ e => by cases e; rfl
theorem vtrb (h : Hdr) (o : V3) : Statement (.vtrb h o) := of_encode fun _ e => by cases e; rfl
theorem vmov (h : Hdr) (o : V3) : Statement (.vmov h o) := of_encode fun _ e => by cases e; rfl
theorem vspl (h : Hdr) (o : V3) : Statement (.vspl h o) := of_encode fun _ e => by cases e; rfl
theorem viota (h : Hdr) (o : V3) : Statement (.viota h o) := of_encode fun _ e => by cases e; rfl
theorem vext (h : Hdr) (o : V3) : Statement (.vext h o) := of_encode fun _ e => by cases e; rfl
theorem vins (h : Hdr) (o : V3) : Statement (.vins h o) := of_encode fun _ e => by cases e; rfl
theorem mld (h : Hdr) (o : MF) : Statement (.mld h o) := of_encode fun _ e => by cases e; rfl
theorem mlds (h : Hdr) (o : MF) : Statement (.mlds h o) := of_encode fun _ e => by cases e; rfl
theorem mswap (h : Hdr) (o : MF) : Statement (.mswap h o) := of_encode fun _ e => by cases e; rfl
theorem mma (h : Hdr) (o : MF) : Statement (.mma h o) := of_encode fun _ e => by cases e; rfl
theorem mmas (h : Hdr) (o : MF) : Statement (.mmas h o) := of_encode fun _ e => by cases e; rfl
theorem mzero (h : Hdr) (o : MF) : Statement (.mzero h o) := of_encode fun _ e => by cases e; rfl
theorem manc (h : Hdr) (o : S3) : Statement (.manc h o) := of_encode fun _ e => by cases e; rfl
theorem mdr (h : Hdr) (o : DR) : Statement (.mdr h o) := of_encode fun _ e => by cases e; rfl
theorem mdrt (h : Hdr) (o : DR) : Statement (.mdrt h o) := of_encode fun _ e => by cases e; rfl
theorem mest (h : Hdr) (o : S3) : Statement (.mest h o) := of_encode fun _ e => by cases e; rfl
theorem mstat (h : Hdr) (o : S3) : Statement (.mstat h o) := of_encode fun _ e => by cases e; rfl
theorem mtblw (h : Hdr) (o : MF) : Statement (.mtblw h o) := of_encode fun _ e => by cases e; rfl
theorem mtsc (h : Hdr) (o : S3) : Statement (.mtsc h o) := of_encode fun _ e => by cases e; rfl
theorem trec (h : Hdr) (o : H) : Statement (.trec h o) := of_encode fun _ e => by cases e; rfl
theorem tupd (h : Hdr) (o : H) : Statement (.tupd h o) := of_encode fun _ e => by cases e; rfl
theorem tflsh (h : Hdr) (o : H) : Statement (.tflsh h o) := of_encode fun _ e => by cases e; rfl
theorem dstat (h : Hdr) (o : S3) : Statement (.dstat h o) := of_encode fun _ e => by cases e; rfl
theorem contextStopComplete (x : CtxRef) : Statement (.contextStopComplete x) := fun _ e => nomatch e
theorem faultAnswerResume (x : CtxRef) : Statement (.faultAnswerResume x) := fun _ e => nomatch e
theorem faultAnswerEnd (x : CtxRef) (status : Byte) : Statement (.faultAnswerEnd x status) := fun _ e => nomatch e
theorem contextSave (x : CtxRef) : Statement (.contextSave x) := fun _ e => nomatch e
theorem contextRestore (x : CtxRef) : Statement (.contextRestore x) := fun _ e => nomatch e
theorem quantumRunEnd (core : BitVec 8) : Statement (.quantumRunEnd core) := fun _ e => nomatch e
theorem shootdownRange (cl : Bool) (vdev : BitVec 6) (pages : BitVec 32) : Statement (.shootdownRange cl vdev pages) := fun _ e => nomatch e
theorem shootdownVdev (cl : Bool) (vdev : BitVec 6) : Statement (.shootdownVdev cl vdev) := fun _ e => nomatch e
theorem shootdownAll (cl : Bool) : Statement (.shootdownAll cl) := fun _ e => nomatch e
theorem scrubRequest (v : Word) : Statement (.scrubRequest v) := fun _ e => nomatch e
theorem bindCommit (v : Word) : Statement (.bindCommit v) := fun _ e => nomatch e
theorem floorWrite (vdev : BitVec 6) (v : Word) : Statement (.floorWrite vdev v) := fun _ e => nomatch e
theorem taskRecordAccept (queue : BitVec 12) : Statement (.taskRecordAccept queue) := fun _ e => nomatch e
theorem taskComplete (vdev : BitVec 6) (seq : Word) : Statement (.taskComplete vdev seq) := fun _ e => nomatch e
theorem contextEnd (x : CtxRef) : Statement (.contextEnd x) := fun _ e => nomatch e
theorem dormantReturn (x : CtxRef) : Statement (.dormantReturn x) := fun _ e => nomatch e
theorem erasureMarkWrite (quad : BitVec 5) (v : Word) : Statement (.erasureMarkWrite quad v) := fun _ e => nomatch e
theorem correctedCountClear (quad : BitVec 5) : Statement (.correctedCountClear quad) := fun _ e => nomatch e
theorem uncorrectableCountClear (quad : BitVec 5) : Statement (.uncorrectableCountClear quad) := fun _ e => nomatch e
theorem controlRegisterWrite (off : BitVec 20) (v : Word) : Statement (.controlRegisterWrite off v) := fun _ e => nomatch e
theorem injectPoison (x : CtxRef) : Statement (.injectPoison x) := fun _ e => nomatch e
theorem injectSymbol (x : CtxRef) : Statement (.injectSymbol x) := fun _ e => nomatch e
theorem copyCommandAct (x : CtxRef) (seq : BitVec 16) : Statement (.copyCommandAct x seq) := fun _ e => nomatch e
theorem grateCommandAct (x : CtxRef) (seq : BitVec 16) : Statement (.grateCommandAct x seq) := fun _ e => nomatch e
theorem detEpochRelease (vdev : BitVec 6) (task : Word) : Statement (.detEpochRelease vdev task) := fun _ e => nomatch e
theorem replayMatchTimeout (vdev : BitVec 6) : Statement (.replayMatchTimeout vdev) := fun _ e => nomatch e
theorem eqCommandPerform (x : CtxRef) (seq : BitVec 16) : Statement (.eqCommandPerform x seq) := fun _ e => nomatch e
theorem eqRunEnd (x : CtxRef) : Statement (.eqRunEnd x) := fun _ e => nomatch e
theorem sparkDeliver (x : CtxRef) (seq : BitVec 16) : Statement (.sparkDeliver x seq) := fun _ e => nomatch e
theorem taskEnqueueAppend (x : CtxRef) (seq : BitVec 16) : Statement (.taskEnqueueAppend x seq) := fun _ e => nomatch e
theorem flueFetch (x : CtxRef) (hd : BitVec 4) : Statement (.flueFetch x hd) := fun _ e => nomatch e
theorem fluePageTranslate (x : CtxRef) (hd : BitVec 4) : Statement (.fluePageTranslate x hd) := fun _ e => nomatch e
theorem windowFillComplete (x : CtxRef) (slot : BitVec 4) (row : Word) : Statement (.windowFillComplete x slot row) := fun _ e => nomatch e
theorem damperGrant (stove : BitVec 2) : Statement (.damperGrant stove) := fun _ e => nomatch e
theorem waitwWake (x : CtxRef) : Statement (.waitwWake x) := fun _ e => nomatch e
theorem gbarDepart (x : CtxRef) : Statement (.gbarDepart x) := fun _ e => nomatch e
theorem pageWalk (core : BitVec 8) (vdev : BitVec 6) (va : Word) : Statement (.pageWalk core vdev va) := fun _ e => nomatch e
theorem storeDrain (x : CtxRef) (n : Nat) : Statement (.storeDrain x n) := fun _ e => nomatch e
theorem machineCheck (x : CtxRef) (st : Stream) : Statement (.machineCheck x st) := fun _ e => nomatch e
theorem cxlExpanderTimeout (x : CtxRef) (st : Stream) (cmd : Option (BitVec 16)) : Statement (.cxlExpanderTimeout x st cmd) := fun _ e => nomatch e
theorem chsel (chain : BitVec 16) : Statement (.chsel chain) := fun _ e => nomatch e
theorem imgput (fn : BitVec 6) (msg : List Byte) : Statement (.imgput fn msg) := fun _ e => nomatch e
theorem imggo (fn : BitVec 6) (msg : List Byte) : Statement (.imggo fn msg) := fun _ e => nomatch e
theorem attest (fn : BitVec 6) (msg : List Byte) : Statement (.attest fn msg) := fun _ e => nomatch e
theorem keyadd (fn : BitVec 6) (msg : List Byte) : Statement (.keyadd fn msg) := fun _ e => nomatch e
theorem keydel (fn : BitVec 6) (msg : List Byte) : Statement (.keydel fn msg) := fun _ e => nomatch e
theorem sigpol (fn : BitVec 6) (msg : List Byte) : Statement (.sigpol fn msg) := fun _ e => nomatch e
theorem verify (fn : BitVec 6) (msg : List Byte) : Statement (.verify fn msg) := fun _ e => nomatch e
theorem mailboxUnknownType (fn : BitVec 6) (msg : List Byte) : Statement (.mailboxUnknownType fn msg) := fun _ e => nomatch e
theorem apertureRead (fn : BitVec 6) (off : Word) (n : Nat) : Statement (.apertureRead fn off n) := fun _ e => nomatch e
theorem apertureWrite (fn : BitVec 6) (off : Word) (bytes : List Byte) : Statement (.apertureWrite fn off bytes) := fun _ e => nomatch e
theorem hostWindowWrite (off : BarOff) (bytes : List Byte) : Statement (.hostWindowWrite off bytes) := fun _ e => nomatch e
theorem linkFlitReceive (port : BitVec 4) (flit : Flit) : Statement (.linkFlitReceive port flit) := fun _ e => nomatch e
theorem linkAckReceive (port : BitVec 4) (upTo : Word) : Statement (.linkAckReceive port upTo) := fun _ e => nomatch e
theorem linkResendRequest (port : BitVec 4) (from_ : Word) : Statement (.linkResendRequest port from_) := fun _ e => nomatch e
theorem linkLossOfSignal (port : BitVec 4) : Statement (.linkLossOfSignal port) := fun _ e => nomatch e
theorem linkRetrainDone (port : BitVec 4) (ok : Bool) : Statement (.linkRetrainDone port ok) := fun _ e => nomatch e
theorem linkSequenceExhausted (port : BitVec 4) : Statement (.linkSequenceExhausted port) := fun _ e => nomatch e
theorem commitMarkAck (x : CtxRef) (seq : BitVec 16) (count : Nat) (status : Byte) : Statement (.commitMarkAck x seq count status) := fun _ e => nomatch e
theorem transferCountAgree (x : CtxRef) (seq : BitVec 16) (count : Nat) : Statement (.transferCountAgree x seq count) := fun _ e => nomatch e
theorem thermalThrottle (stove : BitVec 2) (refill : BitVec 16) : Statement (.thermalThrottle stove refill) := fun _ e => nomatch e
theorem unassignedOpcodeWord (w : Word) : Statement (.unassignedOpcodeWord w) := fun _ e => nomatch e
theorem instructionFetchFault (x : CtxRef) (st : Stream) : Statement (.instructionFetchFault x st) := fun _ e => nomatch e
theorem loadDataReturn (x : CtxRef) (n : Nat) (part : Nat) : Statement (.loadDataReturn x n part) := fun _ e => nomatch e
theorem headWritePerformed (x : CtxRef) (n : Nat) : Statement (.headWritePerformed x n) := fun _ e => nomatch e
theorem managementCoreStore (pa : Word) (bytes : List Byte) : Statement (.managementCoreStore pa bytes) := fun _ e => nomatch e
theorem memorySymbolError (pa : Word) (symbols : Nat) : Statement (.memorySymbolError pa symbols) := fun _ e => nomatch e
theorem pseudoChannelFailure (quad : BitVec 5) (pc : BitVec 5) : Statement (.pseudoChannelFailure quad pc) := fun _ e => nomatch e
theorem expanderStopsResponding (port : BitVec 2) : Statement (.expanderStopsResponding port) := fun _ e => nomatch e
theorem expanderReturn (port : BitVec 2) : Statement (.expanderReturn port) := fun _ e => nomatch e
theorem faultRecordPost : Statement (.faultRecordPost) := fun _ e => nomatch e
theorem calendarSlotStart : Statement (.calendarSlotStart) := fun _ e => nomatch e
theorem shootdownComplete : Statement (.shootdownComplete) := fun _ e => nomatch e
theorem scrubComplete : Statement (.scrubComplete) := fun _ e => nomatch e
theorem freeze : Statement (.freeze) := fun _ e => nomatch e
theorem packageReset : Statement (.packageReset) := fun _ e => nomatch e
theorem bringupEnable : Statement (.bringupEnable) := fun _ e => nomatch e
theorem bypass : Statement (.bypass) := fun _ e => nomatch e
theorem samplePreload : Statement (.samplePreload) := fun _ e => nomatch e
theorem extest : Statement (.extest) := fun _ e => nomatch e
theorem idcode : Statement (.idcode) := fun _ e => nomatch e
theorem chrd : Statement (.chrd) := fun _ e => nomatch e
theorem thermalPowerOff : Statement (.thermalPowerOff) := fun _ e => nomatch e

end Sys2Proof.Laws.Encoding
end

