-- ==== Sys2Proof/Laws/Vector.lean ====
section
/-! SUPPORT. Where the vector words complete: from their operands and their body to the next state. -/
namespace Sys2Proof.Machine

/-- A row of elements none of which draws. -/
theorem elemRow_drawless (wr : Nat → Bool) (g : Nat → RRes) (n l : Nat) (s : BitVec 32) :
    elemRow wr (fun l s => (g l, s)) n l s = ((List.range' l n).map fun i => if wr i then g i else ⟨0, 0, .none⟩, s) := by
  induction n generalizing l with
  | zero => rfl
  | succ n ih =>
    simp only [elemRow, List.range'_succ, List.map_cons]
    cases h : wr l <;> simp only [Bool.false_eq_true, if_false, if_true] <;> rw [ih (l + 1)]

/-- Rows of elements none of which draws. -/
theorem elemRows_drawless (wr : Nat → Nat → Bool) (g : Nat → Nat → RRes) (n r : Nat) (s : BitVec 32) :
    elemRows wr (fun r l s => (g r l, s)) n r s =
      ((List.range' r n).map fun i => (upTo 64).map fun l => if wr i l then g i l else ⟨0, 0, .none⟩, s) := by
  induction n generalizing r with
  | zero => rfl
  | succ n ih =>
    have h : elemRows wr (fun r l s => (g r l, s)) (n + 1) r s =
        ((elemRow (wr r) (fun l s => (g r l, s)) 64 0 s).1 ::
            (elemRows wr (fun r l s => (g r l, s)) n (r + 1) (elemRow (wr r) (fun l s => (g r l, s)) 64 0 s).2).1,
          (elemRows wr (fun r l s => (g r l, s)) n (r + 1) (elemRow (wr r) (fun l s => (g r l, s)) 64 0 s).2).2) := rfl
    rw [h, elemRow_drawless, ih, List.range'_succ (s := r), List.map_cons (a := r)]
    have e : upTo 64 = List.range' 0 64 := List.range_eq_range'
    rw [e]

/-- Flags none of whose traps is enabled end a word. -/
theorem Mach.afterFlags_calm (m : Mach) (fl : BitVec 5) (h : trapsOn m.t.fpmode fl = false) : m.afterFlags fl = .done (m.raise fl) := by
  have e : (m.raise fl).t.fpmode = m.t.fpmode := by
    obtain ⟨s, k, st⟩ := m
    unfold Mach.raise
    split
    · rfl
    · cases st <;> rfl
  unfold trapsOn at h
  simp only [Bool.or_eq_false_iff] at h
  unfold Mach.afterFlags
  dsimp only
  rw [e]
  simp only [h.1.1, h.1.2, h.2, Bool.false_eq_true, if_false]

/-- Counting leaves the streams. -/
theorem Mach.count_k (m : Mach) (tid : Nat) (evs : List Ev) : (m.count tid evs).k = m.k := by
  unfold Mach.count
  dsimp only
  split <;> rfl
theorem Mach.count_st (m : Mach) (tid : Nat) (evs : List Ev) : (m.count tid evs).st = m.st := by
  unfold Mach.count
  dsimp only
  split <;> rfl

/-- A V word completes where its body is done on the operands that it reads. -/
theorem vRunsIf_of_done {i : Instr} {h : Hdr} {o : V3} {fs : List VField} {three rowsOnly : Bool} {c : Mach → VIn → Prop}
    {f : Mach → VIn → Mach} {body : Mach → VIn → Res} (e : ∀ s, exec i s = runV i h o fs three rowsOnly body s)
    (d : ∀ m v, v.n = (if rowsOnly then 1 else 16) → c m v → body m v = .done (f m v)) : VRunsIf i h o fs three rowsOnly c f := by
  intro s m m1 v a hv hc
  have hn : v.n = (if rowsOnly then 1 else 16) := by
    unfold Mach.vOperands at hv
    split at hv
    · exact absurd hv (by simp)
    · split at hv
      · exact absurd hv (by simp)
      · simp only [Option.some.injEq, Prod.mk.injEq] at hv
        rw [← hv.2]
  rw [e]
  unfold runV
  rw [issueWord_atTurn _ a]
  have : vIn h o fs rowsOnly (m.taken h (v3Ports fs o three)) (m.opnds h (v3Ports fs o three)) body = body m1 v := by
    unfold vIn
    unfold Mach.vOperands at hv
    split at hv
    · exact absurd hv (by simp)
    · rename_i e1
      rw [e1]
      dsimp only
      split at hv
      · exact absurd hv (by simp)
      · rename_i e2
        try rw [e2]
        simp only [Option.some.injEq, Prod.mk.injEq] at hv
        rw [← hv.1, ← hv.2]
  rw [this, d m1 v hn hc]
  rfl

/-- Writing rows leaves every part of the context but the vector registers. -/
theorem Mach.putRows_sr (m : Mach) (n a : Nat) (mask : Nat → BitVec 64) (rows : List Row) : (m.putRows n a mask rows).k.sr = m.k.sr := rfl
theorem Mach.putRows_t (m : Mach) (n a : Nat) (mask : Nat → BitVec 64) (rows : List Row) : (m.putRows n a mask rows).t = m.t := by
  obtain ⟨s, k, st⟩ := m
  cases st <;> rfl
theorem Mach.putV_sr (m : Mach) (o : V3) (v : VIn) (valid : BitVec 64) (rows : List Row) : (m.putV o v valid rows).k.sr = m.k.sr := by
  unfold Mach.putV
  split
  · unfold Mach.ctx Ctx.pushR Ctx.setRq; rfl
  · rfl
theorem Mach.putV_t (m : Mach) (o : V3) (v : VIn) (valid : BitVec 64) (rows : List Row) : (m.putV o v valid rows).t = m.t := by
  obtain ⟨s, k, st⟩ := m
  unfold Mach.putV
  split
  · cases st <;> rfl
  · cases st <;> rfl

/-- An element-wise word in a mode that draws nothing completes, when none of its flags is enabled to trap. -/
theorem elemBody_calm (o : V3) (n mode : Nat) (w : Nat) (hm : mode ≠ 4) (f : Mach → List Nat → Nat → RRes) (m : Mach) (v : VIn)
    (h : m.calm o v n w fun c => f m c 0) :
    elemBody o (n == 3) (List.replicate n w) mode f m v = .done (m.elems o v n w fun c => f m c 0) := by
  have hl : ∀ r l, lmapIdx (fun i w => (v.elem i r l).toNat % 2 ^ w) (List.replicate n w) =
      (upTo n).map fun i => (v.elem i r l).toNat % 2 ^ w := by
    intro r l
    unfold lmapIdx upTo
    apply List.ext_getElem
    · simp
    · intro j h1 h2
      simp
  have hg : elemRows (v.writes (!(n == 3) && v3Pushes o)) (fun r l (s : BitVec 32) =>
      (f m (lmapIdx (fun i w => (v.elem i r l).toNat % 2 ^ w) (List.replicate n w)) (drawFor mode s).1, (drawFor mode s).2)) v.n 0 m.k.sr.lfsr =
      (v.grid (n != 3 && v3Pushes o) n w fun c => f m c 0, m.k.sr.lfsr) := by
    have : (fun (r l : Nat) (s : BitVec 32) =>
      (f m (lmapIdx (fun i w => (v.elem i r l).toNat % 2 ^ w) (List.replicate n w)) (drawFor mode s).1, (drawFor mode s).2)) =
      fun r l s => (f m ((upTo n).map fun i => (v.elem i r l).toNat % 2 ^ w) 0, s) := by
      funext r l s
      simp only [drawFor, hm, if_false, hl]
    rw [this, elemRows_drawless]
    simp only [VIn.grid, upTo, List.range_eq_range', bne]
  unfold elemBody
  simp only [hg]
  unfold Mach.vEnd Mach.elems
  unfold Mach.calm at h
  generalize v.grid (n != 3 && v3Pushes o) n w (fun c => f m c 0) = g at h ⊢
  have key : ∀ m' : Mach, m'.k.sr = m.k.sr → m'.t = m.t →
      ((m'.ctx fun k => { k with sr := { k.sr with lfsr := m.k.sr.lfsr } }).count (m'.k.sr.vtid.toNat % 256) (g.flatMap fun x => x.map (·.ev))).afterFlags
        (rowsFlags g) = .done ((m'.count (m'.k.sr.vtid.toNat % 256) (g.flatMap fun x => x.map (·.ev))).raise (rowsFlags g)) := by
    intro m' h1 h2
    have e : (m'.ctx fun k => { k with sr := { k.sr with lfsr := m.k.sr.lfsr } }) = m' := by
      rw [← h1]; rfl
    rw [e]
    apply Mach.afterFlags_calm
    have : (m'.count (m'.k.sr.vtid.toNat % 256) (g.flatMap fun x => x.map (·.ev))).t = m.t := by
      rw [← h2]
      unfold Mach.t
      rw [Mach.count_k, Mach.count_st]
    rw [this]
    exact h
  by_cases e3 : n = 3
  · subst e3
    exact key _ (Mach.putRows_sr ..) (Mach.putRows_t ..)
  · have : (n == 3) = false := by simpa using e3
    simp only [this, Bool.false_eq_true, if_false, e3]
    exact key _ (Mach.putV_sr ..) (Mach.putV_t ..)

/-- An element-wise word completes. -/
theorem elemRuns_of {i : Instr} {h : Hdr} {o : V3} {n ty w mode : Nat} {f : Mach → List Nat → Nat → RRes} (hm : mode ≠ 4)
    (e : ∀ s, exec i s = runV i h o (vfN n o ty) (n == 3) (rowShaped (vfN n o ty) o (n == 3))
      (elemBody o (n == 3) (List.replicate n w) mode f) s) : ElemRuns i h o n ty w fun m c => f m c 0 :=
  vRunsIf_of_done e fun m v _ hc => elemBody_calm o n mode w hm f m v hc

end Sys2Proof.Machine
end

