-- ==== Sys2Proof/Laws/Rows.lean ====
section
/-! SUPPORT. What a row word of the matrix engine comes to when each of its rows can be performed. -/
namespace Sys2Proof.Machine

/-- Rows that can all be performed are performed in order, and the word ends. -/
theorem rowLoop_of_rowsTo {rows : Nat} {f : Nat → Mach → RowDo} {last : Mach → Res} {m1 : Mach} :
    ∀ n r m, r + n = rows → rowsTo f n r m = some m1 → rowLoop rows f last n r m = last m1 := by
  intro n
  induction n with
  | zero => intro r m _ h; simp only [rowsTo, Option.some.injEq] at h; rw [← h]; rfl
  | succ n ih =>
    intro r m e h
    have hr : ¬ rows ≤ r := by omega
    simp only [rowsTo] at h
    cases hf : f r m with
    | done m' =>
      simp only [hf] at h
      simp only [rowLoop, hr, if_false, hf]
      exact ih (r + 1) m' (by omega) h
    | _ => simp only [hf, reduceCtorEq] at h

/-- A row word that starts now, from its first row. -/
theorem Mach.rowWord_of_rowsTo {m m1 : Mach} {rows : Nat} {f : Nat → Mach → RowDo} {last : Mach → Res} (p : m.t.prog = none)
    (h : rowsTo f rows 0 m.rowStart = some m1) : m.rowWord rows f last = last m1 := by
  have e : m.ownWord.t = m.t := by obtain ⟨s, k, st⟩ := m; unfold Mach.ownWord Mach.mat; cases st <;> rfl
  have e0 : m.rowStart.row0 = 0 := by
    have : m.rowStart.t.prog = none := by rw [← p, ← e]; unfold Mach.rowStart Mach.mat; obtain ⟨s, k, st⟩ := m.ownWord; cases st <;> rfl
    simp only [Mach.row0, this]
  unfold Mach.rowWord
  simp only [e, p, Option.isSome_none, Bool.false_eq_true, if_false]
  show rowLoop rows f last rows m.rowStart.row0 m.rowStart = last m1
  rw [e0]
  exact rowLoop_of_rowsTo rows 0 _ (by omega) h

/-- The end of a drain that raises no flag whose trap is enabled. -/
theorem Mach.drainEnd_calm {m : Mach} (h : trapsOn m.t.fpmode m.k.mat.fl = false) : m.drainEnd = .done (m.forget.raise m.k.mat.fl) := by
  have e : m.forget.t = m.t := by obtain ⟨s, k, st⟩ := m; unfold Mach.forget Mach.mat; cases st <;> rfl
  exact Mach.afterFlags_calm _ _ (by rw [e]; exact h)

end Sys2Proof.Machine
end

