-- ==== Sys2Proof/Tests/Slice0.lean ====
section
/-! SUPPORT. The model's own tests: ill-formed terms that the checks refuse, words written out from the tables of the spec, and for
every statement of Certificates/Slice0/Obligations.lean a state and operands that meet its hypotheses. -/
namespace Sys2Proof.Tests
open Sys2Proof.Machine
set_option Elab.async false

/-- The headers of a word of each stream under a true guard, and of one of A under a false one. -/
def hA : Hdr := ⟨false, 0, 0, 0, false, 0, 0⟩
@[inherit_doc hA] def hV : Hdr := { hA with cl := 1 }
@[inherit_doc hA] def hM : Hdr := { hA with cl := 2 }
@[inherit_doc hA] def hD : Hdr := { hA with cl := 3 }
@[inherit_doc hA] def hN : Hdr := { hA with gn := true }

/-- The word i at its turn in bank 0 of core 0 of a reset machine, its context changed by f. -/
def at_ (i : Instr) (f : Ctx → Ctx) : State :=
  let s := State.reset.placeWord 64 (encode i).toNat
  { s with ctxs := s.ctxs.map fun p => (p.1, f p.2)
           md := { s.md with cur := ⟨0, false⟩, curSt := Stream.ofCl ((encode i).extractLsb' 50 2), agenda := [] } }

/-- Registers of stream A. -/
def regs (l : List (Nat × Word)) (k : Ctx) : Ctx := { k with a := l.foldl (fun t p => t.setReg p.1 p.2) k.a }

/-- The checks of `AtHead`. -/
def headB (s : State) (h : Hdr) : Option Mach :=
  match (Mach.enter s).1 with
  | none => none
  | some m =>
    if m.t.owed == 0 && !m.delayed && !m.atomicOut && !(m.st == .A && m.k.cxlOver) && !m.t.squashed h.ms.toNat then some m else none

theorem headB_head {s h m} (hb : headB s h = some m) : AtHead s m h := by
  unfold headB at hb
  split at hb
  · cases hb
  · next n hn =>
    split at hb
    · next hc =>
      cases hb
      simp only [Bool.and_eq_true, beq_iff_eq, Bool.not_eq_true'] at hc
      exact ⟨hn, hc.1.1.1.1, hc.1.1.1.2, hc.1.1.2, hc.1.2, hc.2⟩
    · cases hb

/-- The checks of `AtTurn`. -/
def turnB (s : State) (i : Instr) (h : Hdr) (p : Ports) : Option Mach :=
  (headB s h).bind fun m =>
    if m.checkWord i h == none && m.t.prog == none && !(h.sy && m.partnerHalted) && m.blocked h p == none then some m else none

theorem turnB_turn {s i h p m} (hb : turnB s i h p = some m) : AtTurn s m i h p := by
  unfold turnB at hb
  obtain ⟨n, hn, hb⟩ := Option.bind_eq_some_iff.mp hb
  split at hb
  · next hc =>
    cases hb
    simp only [Bool.and_eq_true, beq_iff_eq, Bool.not_eq_true'] at hc
    exact { headB_head hn with legal := hc.1.1.1, fresh := hc.1.1.2, partners := hc.1.2, free := hc.2 }
  · cases hb

/-- A step answers a next state with the note n. -/
def notes (n : Note) : Out → Bool
  | .next t => t.md.note == n
  | _ => false

/-- The word i of s is at its turn, c holds of the machine its pops leave and its operands, and its meaning answers a next state
with the note n. -/
def meets (n : Note) (s : State) (i : Instr) (p : Ports) (c : Mach → Opnds → Bool) : Bool :=
  match i.hdr? with
  | none => false
  | some h =>
    match turnB s i h p with
    | none => false
    | some m => c (m.taken h p) (m.opnds h p) && notes n (exec i s)

/-- What `meets` is a check of. -/
theorem meets_turn {n s i p c} (hb : meets n s i p c = true) :
    ∃ h m t, i.hdr? = some h ∧ AtTurn s m i h p ∧ c (m.taken h p) (m.opnds h p) = true ∧ exec i s = .next t ∧ t.md.note = n := by
  unfold meets at hb
  split at hb
  · cases hb
  · next h hh =>
    split at hb
    · cases hb
    · next m hm =>
      simp only [Bool.and_eq_true] at hb
      obtain ⟨hc, hn⟩ := hb
      unfold notes at hn
      split at hn
      · next t ht => exact ⟨h, m, t, hh, turnB_turn hm, hc, ht, by simpa using hn⟩
      · cases hn

/-- The word i completes on s when its guard is true. -/
def runs (s : State) (i : Instr) (p : Ports) (c : Mach → Opnds → Bool := fun _ _ => true) : Bool :=
  meets .issued s i p fun m a => a.act && c m a

/-- The word i completes on s, its guard being false. -/
def skips (s : State) (i : Instr) (p : Ports) (c : Mach → Opnds → Bool := fun _ _ => true) : Bool :=
  meets .issued s i p fun m a => !a.act && c m a

/-- R62 to R64, R75, R76, R132 to R141: shared words, each with one field that its rule does not admit; ILL with an opcode. -/
theorem test_illformed_shared :
    ([.add ⟨true, 1, 2, 1, false, 1, 1⟩ ⟨1, 32, 14, 1⟩,
      .sub ⟨false, 2, 3, 2, true, 2, 2⟩ ⟨2, 48, 13, 1⟩,
      .mul ⟨true, 3, 0, 3, true, 3, 3⟩ ⟨37, 34, 12, 1⟩,
      .mulhi ⟨false, 0, 1, 4, false, 4, 0⟩ ⟨4, 48, 11, 1⟩,
      .mulhis ⟨true, 1, 2, 5, false, 5, 1⟩ ⟨5, 32, 49, 1⟩,
      .div ⟨false, 2, 3, 6, true, 6, 2⟩ ⟨36, 48, 9, 1⟩,
      .divs ⟨true, 3, 0, 7, true, 7, 3⟩ ⟨7, 34, 15, 1⟩,
      .rem ⟨false, 0, 1, 0, false, 0, 0⟩ ⟨8, 48, 14, 1⟩,
      .rems ⟨true, 1, 2, 1, false, 1, 1⟩ ⟨35, 32, 13, 1⟩,
      .and ⟨false, 2, 3, 2, true, 2, 2⟩ ⟨10, 48, 49, 1⟩,
      .or ⟨true, 3, 0, 3, true, 3, 3⟩ ⟨11, 34, 11, 1⟩,
      .xor ⟨false, 0, 1, 4, false, 4, 0⟩ ⟨33, 48, 10, 1⟩,
      .andn ⟨true, 1, 2, 5, false, 5, 1⟩ ⟨13, 32, 9, 1⟩,
      .shl ⟨false, 2, 3, 6, true, 6, 2⟩ ⟨14, 48, 15, 1⟩,
      .shr ⟨true, 3, 0, 7, true, 7, 3⟩ ⟨37, 34, 49, 1⟩,
      .sra ⟨false, 0, 1, 0, false, 0, 0⟩ ⟨0, 48, 13, 1⟩,
      .rol ⟨true, 1, 2, 1, false, 1, 1⟩ ⟨1, 32, 12, 1⟩,
      .min ⟨false, 2, 3, 2, true, 2, 2⟩ ⟨36, 48, 11, 1⟩,
      .mins ⟨true, 3, 0, 3, true, 3, 3⟩ ⟨3, 34, 10, 1⟩,
      .max ⟨false, 0, 1, 4, false, 4, 0⟩ ⟨4, 48, 49, 1⟩,
      .maxs ⟨true, 1, 2, 5, false, 5, 1⟩ ⟨35, 32, 15, 1⟩,
      .add ⟨true, 1, 2, 1, false, 1, 1⟩ ⟨49, 32, 14, 0⟩,
      .sub ⟨false, 2, 3, 2, true, 2, 2⟩ ⟨2, 50, 13, 0⟩,
      .mul ⟨true, 3, 0, 3, true, 3, 3⟩ ⟨37, 34, 63, 0⟩,
      .div ⟨false, 2, 3, 6, true, 6, 1⟩ ⟨36, 16, 9, 0⟩,
      .and ⟨false, 2, 3, 2, true, 2, 0⟩ ⟨10, 48, 32, 0⟩,
      .or ⟨true, 3, 0, 3, true, 3, 2⟩ ⟨33, 1, 1, 0⟩,
      .xor ⟨false, 0, 1, 4, false, 4, 0⟩ ⟨40, 1, 1, 0⟩,
      .sel ⟨false, 0, 0, 0, false, 0, 2⟩ ⟨3, 1, 48, 16⟩,
      .cmp ⟨false, 0, 0, 0, false, 0, 0⟩ ⟨2, 0, 1, 56⟩,
      .cmp ⟨false, 0, 0, 0, false, 0, 0⟩ ⟨2, 0, 1, 128⟩,
      .gop ⟨false, 0, 0, 0, false, 0, 3⟩ ⟨1, 1, 1, 64⟩,
      .gop ⟨false, 0, 0, 0, false, 0, 3⟩ ⟨8, 1, 2, 6⟩,
      .gop ⟨false, 0, 0, 0, false, 0, 3⟩ ⟨3, 1, 2, 49⟩,
      .gop ⟨false, 0, 0, 0, false, 0, 3⟩ ⟨3, 1, 0, 16⟩,
      .gop ⟨false, 0, 0, 0, false, 0, 3⟩ ⟨1, 1, 0, 32⟩,
      .addi ⟨false, 0, 0, 0, false, 0, 0⟩ ⟨49, 49, 0⟩,
      .andi ⟨false, 0, 0, 0, false, 0, 1⟩ ⟨4, 51, 0x40000000⟩,
      .ori ⟨false, 0, 0, 0, false, 0, 2⟩ ⟨49, 1, 0x3fffffff⟩,
      .xori ⟨false, 0, 0, 0, false, 0, 3⟩ ⟨15, 50, 0x7fffffff⟩,
      .lih ⟨false, 0, 0, 0, false, 0, 0⟩ ⟨4, 62, 0x2468ad⟩,
      .shli ⟨false, 0, 0, 0, false, 0, 0⟩ ⟨31, 30, 64⟩,
      .shri ⟨false, 0, 0, 0, false, 0, 1⟩ ⟨1, 2, 0x7fffffff⟩,
      .srai ⟨false, 0, 0, 0, false, 0, 2⟩ ⟨1, 2, 64⟩,
      .cmpi ⟨false, 0, 0, 0, false, 0, 3⟩ ⟨48, 2, 0x10000000⟩,
      .cmpi ⟨false, 0, 0, 0, false, 0, 1⟩ ⟨48, 2, 0x8100000⟩,
      .cmpi ⟨false, 0, 0, 0, false, 0, 3⟩ ⟨48, 2, 0xf00000⟩,
      .li ⟨false, 0, 0, 0, false, 0, 0⟩ ⟨4, 1, 0x789abcde⟩,
      .ill 0x80000000000] : List Instr).all (fun i => !i.wf) = true := by decide +kernel

/-- R77, R79, R81, R84, R91, R125, R136 to R148, R204 to R206, R397: shared words from BFX on, likewise. -/
theorem test_illformed_shared2 :
    ([.bfx ⟨false, 0, 0, 0, false, 0, 0⟩ ⟨5, 1, 2, 64⟩,
      .bfxs ⟨false, 0, 0, 0, false, 0, 3⟩ ⟨5, 1, 2, 128⟩,
      .bfi ⟨false, 0, 0, 0, false, 0, 0⟩ ⟨7, 5, 2, 64⟩,
      .bfi ⟨false, 0, 0, 0, false, 0, 0⟩ ⟨48, 5, 2, 3⟩,
      .fshl ⟨false, 0, 0, 0, false, 0, 1⟩ ⟨3, 1, 2, 128⟩,
      .fshr ⟨false, 0, 0, 0, false, 0, 2⟩ ⟨3, 1, 2, 65⟩,
      .fshr ⟨false, 0, 0, 0, false, 0, 2⟩ ⟨48, 1, 2, 64⟩,
      .popc ⟨false, 0, 0, 0, false, 0, 0⟩ ⟨1, 36, 1, 0⟩,
      .popc ⟨false, 0, 0, 0, false, 0, 0⟩ ⟨1, 36, 0, 1⟩,
      .clz ⟨false, 0, 0, 0, false, 0, 1⟩ ⟨1, 32, 1, 0⟩,
      .clz ⟨false, 0, 0, 0, false, 0, 1⟩ ⟨1, 32, 0, 1⟩,
      .ctz ⟨false, 0, 0, 0, false, 0, 2⟩ ⟨1, 33, 1, 0⟩,
      .ctz ⟨false, 0, 0, 0, false, 0, 2⟩ ⟨1, 33, 0, 1⟩,
      .brev ⟨false, 0, 0, 0, false, 0, 3⟩ ⟨1, 39, 1, 0⟩,
      .brev ⟨false, 0, 0, 0, false, 0, 3⟩ ⟨1, 39, 0, 1⟩,
      .br ⟨false, 0, 0, 1, false, 0, 3⟩ ⟨0, 0x7ffffffd⟩,
      .call ⟨false, 0, 0, 0, false, 0, 1⟩ ⟨49, 0x3fffffff⟩,
      .ret ⟨false, 0, 0, 0, false, 0, 1⟩ ⟨48, 0⟩,
      .ret ⟨false, 0, 0, 0, false, 0, 1⟩ ⟨15, 1⟩,
      .jmpr ⟨false, 0, 0, 0, false, 0, 2⟩ ⟨48, 0x40000000⟩,
      .brq ⟨false, 0, 0, 0, false, 0, 0⟩ ⟨1, 0x7ffffffc⟩,
      .modl ⟨false, 0, 0, 0, false, 0, 0⟩ ⟨0, 1, 5⟩,
      .modl ⟨false, 0, 0, 0, false, 0, 0⟩ ⟨2, 0, 5⟩,
      .modl ⟨false, 0, 0, 0, false, 0, 0⟩ ⟨2, 1, 50⟩,
      .qstat ⟨false, 0, 0, 0, false, 0, 0⟩ ⟨4, 1, 0, 3⟩,
      .qstat ⟨false, 0, 0, 0, false, 0, 0⟩ ⟨4, 0, 0, 19⟩,
      .qstat ⟨false, 0, 0, 0, false, 0, 0⟩ ⟨4, 0, 0, 6⟩,
      .qstat ⟨false, 0, 0, 0, false, 0, 0⟩ ⟨4, 0, 0, 35⟩,
      .hstep ⟨false, 0, 0, 0, false, 0, 1⟩ ⟨0, 2, 0, 1, 0⟩,
      .hstep ⟨false, 0, 0, 0, false, 0, 1⟩ ⟨0, 2, 0, 0, 1⟩,
      .hstep ⟨false, 0, 0, 0, false, 0, 1⟩ ⟨0, 2, 1, 0, 0⟩,
      .hmark ⟨false, 0, 0, 0, false, 0, 1⟩ ⟨0, 1, 0, 1, 0⟩,
      .hrew ⟨false, 0, 0, 0, false, 0, 1⟩ ⟨0, 0, 1, 1, 0⟩,
      .hrew ⟨false, 0, 0, 0, false, 0, 1⟩ ⟨0, 0, 0, 1, 1⟩,
      .hstat ⟨false, 0, 0, 0, false, 0, 3⟩ ⟨1, 10, 1, 0, 0⟩,
      .hstat ⟨false, 0, 0, 0, false, 0, 3⟩ ⟨1, 10, 0, 0, 6⟩,
      .hstat ⟨false, 0, 0, 0, false, 0, 3⟩ ⟨1, 10, 0, 0, 8⟩,
      .pkw ⟨false, 0, 0, 0, false, 0, 0⟩ ⟨3, 4, 1, 5⟩,
      .pkw ⟨false, 0, 0, 0, false, 0, 0⟩ ⟨3, 4, 0, 32⟩,
      .srr ⟨false, 0, 0, 0, false, 0, 0⟩ ⟨4, 0, 0⟩,
      .srr ⟨false, 0, 0, 0, false, 0, 0⟩ ⟨4, 1, 2⟩,
      .srr ⟨false, 0, 0, 0, false, 0, 0⟩ ⟨4, 0, 0x1002⟩,
      .srw ⟨false, 0, 0, 0, false, 0, 0⟩ ⟨0, 4, 5⟩,
      .srw ⟨false, 0, 0, 0, false, 0, 0⟩ ⟨1, 4, 260⟩,
      .srw ⟨false, 0, 0, 0, false, 0, 0⟩ ⟨0, 4, 0x1118⟩,
      .trap ⟨false, 0, 0, 0, false, 0, 0⟩ ⟨1, 1, 7⟩,
      .trap ⟨false, 0, 0, 0, false, 0, 0⟩ ⟨0, 1, 0x10000⟩,
      .eret ⟨false, 0, 0, 0, false, 0, 3⟩ ⟨0, 1, 0, 0⟩,
      .yield ⟨false, 0, 1, 0, false, 0, 2⟩ ⟨0, 0, 0, 1⟩,
      .halt ⟨false, 0, 0, 0, false, 0, 1⟩ ⟨1, 0, 0, 0⟩,
      .nop ⟨true, 3, 3, 0, false, 0, 3⟩ ⟨0, 0, 1, 0⟩,
      .wait ⟨false, 0, 0, 0, false, 0, 3⟩ ⟨1, 48, 0xfffffff⟩,
      .wait ⟨false, 0, 0, 0, false, 0, 3⟩ ⟨0, 48, 0x20000000⟩,
      .wait ⟨false, 0, 0, 0, false, 0, 3⟩ ⟨0, 0, 0x10000001⟩] : List Instr).all (fun i => !i.wf) = true := by decide +kernel

/-- R78, R85, R258 to R265, R275 to R292: memory, latch, window and tape words of A, likewise. -/
theorem test_illformed_a_memory :
    ([.lds ⟨false, 0, 0, 0, false, 0, 0⟩ ⟨35, 1, 2, 2, 2, 16⟩,
      .lds ⟨false, 0, 0, 0, false, 0, 0⟩ ⟨3, 1, 2, 2, 7, 16⟩,
      .ldg ⟨false, 0, 0, 0, false, 0, 0⟩ ⟨22, 32, 21, 3, 3, 544⟩,
      .ldw ⟨false, 0, 0, 0, false, 0, 0⟩ ⟨14, 10, 50, 3, 3, 0⟩,
      .sts ⟨false, 0, 0, 0, false, 0, 0⟩ ⟨4, 1, 48, 0, 7, 8⟩,
      .stg ⟨false, 0, 0, 0, false, 0, 0⟩ ⟨32, 11, 24, 0, 0, 576⟩,
      .ldq ⟨false, 0, 0, 0, false, 0, 0⟩ ⟨1, 1, 2, 0, 0, 0x40000⟩,
      .stq ⟨false, 0, 0, 0, false, 0, 0⟩ ⟨46, 6, 7, 0, 7, 0⟩,
      .satom ⟨false, 0, 0, 0, false, 0, 0⟩ ⟨3, 1, 4, 7, 4, 8⟩,
      .satom ⟨false, 0, 0, 0, false, 0, 0⟩ ⟨48, 1, 4, 7, 3, 8⟩,
      .gatom ⟨false, 0, 0, 0, false, 0, 0⟩ ⟨49, 2, 6, 0, 3, 0x40000⟩,
      .cmo ⟨false, 0, 0, 0, false, 0, 0⟩ ⟨2, 1, 0, 2, 1, 0⟩,
      .cmo ⟨false, 0, 0, 0, false, 0, 0⟩ ⟨2, 1, 48, 3, 1, 0⟩,
      .cmo ⟨false, 0, 0, 0, false, 0, 0⟩ ⟨2, 1, 48, 2, 0, 0⟩,
      .lbind ⟨false, 0, 0, 0, false, 0, 0⟩ ⟨48, 1, 2, 160⟩,
      .lbind ⟨false, 0, 0, 0, false, 0, 0⟩ ⟨48, 1, 2, 16⟩,
      .acq ⟨false, 0, 0, 0, false, 0, 0⟩ ⟨3, 4, 1, 64⟩,
      .acq ⟨false, 0, 0, 0, false, 0, 0⟩ ⟨3, 4, 0, 192⟩,
      .acq ⟨false, 0, 0, 0, false, 0, 0⟩ ⟨3, 4, 0, 16⟩,
      .rel ⟨false, 0, 0, 0, false, 0, 0⟩ ⟨48, 48, 0, 128⟩,
      .rel ⟨false, 0, 0, 0, false, 0, 0⟩ ⟨48, 48, 48, 0⟩,
      .fence ⟨false, 0, 0, 0, false, 0, 0⟩ ⟨0, 0, 0, 0⟩,
      .fence ⟨false, 0, 0, 0, false, 0, 0⟩ ⟨0, 0, 0, 32⟩,
      .fence ⟨false, 0, 0, 0, false, 0, 0⟩ ⟨1, 0, 0, 31⟩,
      .gbar ⟨false, 0, 0, 0, false, 0, 0⟩ ⟨5, 0, 0, 4⟩,
      .gbar ⟨false, 0, 0, 0, false, 0, 0⟩ ⟨5, 48, 0, 3⟩,
      .waitw ⟨false, 0, 0, 0, false, 0, 0⟩ ⟨6, 48, 0, 128⟩,
      .waitw ⟨false, 0, 0, 0, false, 0, 0⟩ ⟨6, 48, 0, 16⟩,
      .wbind ⟨false, 0, 0, 0, false, 0, 0⟩ ⟨48, 4, 12, 16⟩,
      .wadv ⟨false, 0, 0, 0, false, 0, 0⟩ ⟨5, 6, 16⟩,
      .wrel ⟨false, 0, 0, 0, false, 0, 0⟩ ⟨7, 0, 0, 48⟩,
      .wrel ⟨false, 0, 0, 0, false, 0, 0⟩ ⟨7, 0, 0, 64⟩,
      .wrel ⟨false, 0, 0, 0, false, 0, 0⟩ ⟨7, 1, 0, 35⟩,
      .hbind ⟨false, 0, 0, 0, false, 0, 0⟩ ⟨0, 48, 0, 0, 32⟩,
      .hbind ⟨false, 0, 0, 0, false, 0, 0⟩ ⟨0, 49, 0, 0, 32⟩,
      .hbind ⟨false, 0, 0, 0, false, 0, 0⟩ ⟨0, 1, 1, 0, 32⟩,
      .hbind ⟨false, 0, 0, 0, false, 0, 0⟩ ⟨0, 1, 0, 1, 32⟩,
      .hbind ⟨false, 0, 0, 0, false, 0, 0⟩ ⟨0, 1, 0, 0, 0⟩,
      .hbind ⟨false, 0, 0, 0, false, 0, 0⟩ ⟨0, 1, 0, 0, 33⟩,
      .hbind ⟨false, 0, 0, 0, false, 0, 0⟩ ⟨0, 1, 0, 0, 160⟩,
      .hbind ⟨false, 0, 0, 0, false, 0, 0⟩ ⟨0, 1, 0, 0, 40⟩,
      .hunb ⟨false, 0, 0, 0, false, 0, 0⟩ ⟨2, 1, 0, 0, 0⟩,
      .hunb ⟨false, 0, 0, 0, false, 0, 0⟩ ⟨2, 0, 0, 0, 1⟩,
      .topen ⟨false, 0, 0, 0, false, 0, 0⟩ ⟨5, 6, 7, 1⟩,
      .tseal ⟨false, 0, 0, 0, false, 0, 0⟩ ⟨48, 1, 1, 1⟩,
      .tseal ⟨false, 0, 0, 0, false, 0, 0⟩ ⟨48, 1, 0, 3⟩,
      .tseal ⟨false, 0, 0, 0, false, 0, 0⟩ ⟨48, 1, 0, 8⟩,
      .tstat ⟨false, 0, 0, 0, false, 0, 0⟩ ⟨4, 1, 0, 6⟩,
      .tstat ⟨false, 0, 0, 0, false, 0, 0⟩ ⟨4, 1, 1, 1⟩,
      .lds ⟨false, 0, 0, 0, false, 0, 1⟩ ⟨3, 1, 2, 2, 2, 16⟩] : List Instr).all (fun i => !i.wf) = true := by decide +kernel

/-- R80, R307 to R374: engine, copy and event words of A, likewise. -/
theorem test_illformed_a_engines :
    ([.cpym ⟨false, 0, 0, 0, false, 0, 0⟩ ⟨1, 2, 3, 0, 0, 1⟩,
      .cpys ⟨false, 0, 0, 0, false, 0, 0⟩ ⟨1, 2, 3, 255, 1, 2⟩,
      .cgth ⟨false, 0, 0, 0, false, 0, 0⟩ ⟨35, 2, 3, 0, 0, 16⟩,
      .csct ⟨false, 0, 0, 0, false, 0, 0⟩ ⟨1, 2, 48, 0, 0, 16⟩,
      .cpgi ⟨false, 0, 0, 0, false, 0, 0⟩ ⟨1, 2, 1, 0, 0, 7⟩,
      .cpgi ⟨false, 0, 0, 0, false, 0, 0⟩ ⟨1, 2, 0, 0, 0, 8⟩,
      .rput ⟨false, 0, 0, 0, false, 0, 0⟩ ⟨1, 2, 3, 0, 0, 2⟩,
      .rget ⟨false, 0, 0, 0, false, 0, 0⟩ ⟨32, 2, 3, 0, 255, 0⟩,
      .gadd ⟨false, 0, 0, 0, false, 0, 0⟩ ⟨1, 2, 0, 0, 0, 384⟩,
      .gadd ⟨false, 0, 0, 0, false, 0, 0⟩ ⟨1, 2, 0, 0, 0, 256⟩,
      .gadd ⟨false, 0, 0, 0, false, 0, 0⟩ ⟨1, 2, 1, 0, 0, 63⟩,
      .gaxpy ⟨false, 0, 0, 0, false, 0, 0⟩ ⟨1, 2, 8, 0, 0, 128⟩,
      .gamo ⟨false, 0, 0, 0, false, 0, 0⟩ ⟨3, 4, 5, 0, 0, 320⟩,
      .gamo ⟨false, 0, 0, 0, false, 0, 0⟩ ⟨3, 4, 5, 0, 0, 40⟩,
      .gamo ⟨false, 0, 0, 0, false, 0, 0⟩ ⟨3, 4, 5, 0, 0, 1⟩,
      .gamo ⟨false, 0, 0, 0, false, 0, 0⟩ ⟨3, 4, 5, 0, 0, 0⟩,
      .gqop ⟨false, 0, 0, 0, false, 0, 0⟩ ⟨6, 7, 0, 0, 0, 4⟩,
      .gqop ⟨false, 0, 0, 0, false, 0, 0⟩ ⟨6, 7, 1, 0, 0, 3⟩,
      .gred ⟨false, 0, 0, 0, false, 0, 0⟩ ⟨1, 2, 3, 0, 0, 48⟩,
      .gfen ⟨false, 0, 0, 0, false, 0, 0⟩ ⟨1, 0, 0, 0, 0, 0⟩,
      .gfen ⟨false, 0, 0, 0, false, 0, 0⟩ ⟨0, 0, 0, 0, 0, 1⟩,
      .eqclr ⟨false, 0, 0, 0, false, 0, 0⟩ ⟨48, 2, 1, 0, 0, 0⟩,
      .equ ⟨false, 0, 0, 0, false, 0, 0⟩ ⟨1, 2, 0, 0, 0, 1⟩,
      .eqf ⟨false, 0, 0, 0, false, 0, 0⟩ ⟨35, 6, 0, 0, 0, 0⟩,
      .eqf ⟨false, 0, 0, 0, false, 0, 0⟩ ⟨5, 6, 0, 0, 0, 1⟩,
      .eqz ⟨false, 0, 0, 0, false, 0, 0⟩ ⟨7, 8, 0, 0, 0, 2⟩,
      .eqz ⟨false, 0, 0, 0, false, 0, 0⟩ ⟨7, 8, 9, 0, 0, 24⟩,
      .eqr ⟨false, 0, 0, 0, false, 0, 0⟩ ⟨10, 11, 1, 0, 0, 259⟩,
      .eqr ⟨false, 0, 0, 0, false, 0, 0⟩ ⟨10, 0, 0, 0, 0, 448⟩,
      .eqr ⟨false, 0, 0, 0, false, 0, 0⟩ ⟨10, 0, 0, 0, 0, 1⟩,
      .eqsnp ⟨false, 0, 0, 0, false, 0, 0⟩ ⟨3, 1, 0, 0, 0, 0⟩,
      .eqund ⟨false, 0, 0, 0, false, 0, 0⟩ ⟨2, 0, 0, 0, 0, 2⟩,
      .deq ⟨false, 0, 0, 0, false, 0, 0⟩ ⟨11, 12, 0, 3⟩,
      .deq ⟨false, 0, 0, 0, false, 0, 0⟩ ⟨11, 12, 0, 8⟩,
      .deq ⟨false, 0, 0, 0, false, 0, 0⟩ ⟨11, 12, 1, 2⟩,
      .engst ⟨false, 0, 0, 0, false, 0, 0⟩ ⟨10, 0, 0, 24⟩,
      .engst ⟨false, 0, 0, 0, false, 0, 0⟩ ⟨10, 0, 0, 3⟩,
      .engst ⟨false, 0, 0, 0, false, 0, 0⟩ ⟨10, 1, 0, 2⟩,
      .spk ⟨false, 0, 0, 1, false, 0, 0⟩ ⟨1, 2, 3, 0, 0, 17⟩,
      .eva ⟨false, 0, 0, 0, false, 0, 0⟩ ⟨5, 6, 0, 8⟩,
      .evw ⟨false, 0, 0, 0, false, 0, 0⟩ ⟨3, 4, 0, 0⟩,
      .evq ⟨false, 0, 0, 0, false, 0, 0⟩ ⟨3, 48, 1, 1⟩,
      .tkenq ⟨false, 0, 0, 2, false, 0, 0⟩ ⟨1, 2, 1, 0, 0, 0⟩,
      .tkenq ⟨false, 0, 0, 2, false, 0, 0⟩ ⟨1, 2, 0, 0, 0, 1⟩,
      .tksig ⟨false, 0, 0, 0, false, 0, 0⟩ ⟨1, 4, 0, 3⟩,
      .tksig ⟨false, 0, 0, 0, false, 0, 0⟩ ⟨0, 4, 1, 3⟩] : List Instr).all (fun i => !i.wf) = true := by decide +kernel

/-- R66 to R72, R82, R151 to R179: vector words, likewise. -/
theorem test_illformed_vector :
    ([.vadd ⟨true, 0, 2, 2, true, 0, 1⟩ ⟨3, 1, 130, 0, 9, 0, 0⟩,
      .vadd ⟨true, 0, 2, 2, true, 0, 1⟩ ⟨3, 32, 130, 0, 0, 0, 0⟩,
      .vsub ⟨false, 0, 0, 1, false, 0, 1⟩ ⟨0, 31, 240, 72, 1, 1, 47⟩,
      .vmul ⟨false, 0, 0, 2, false, 0, 1⟩ ⟨29, 195, 241, 0, 2, 1, 6⟩,
      .vfma ⟨false, 0, 0, 3, false, 0, 1⟩ ⟨28, 72, 242, 30, 10, 0, 0⟩,
      .vfms ⟨false, 0, 0, 4, false, 0, 1⟩ ⟨27, 31, 243, 74, 4, 1, 47⟩,
      .vmin ⟨false, 0, 0, 5, false, 0, 1⟩ ⟨1, 195, 244, 73, 5, 0, 0⟩,
      .vmax ⟨false, 0, 0, 6, false, 0, 1⟩ ⟨25, 192, 245, 0, 6, 1, 32⟩,
      .vabs ⟨false, 0, 0, 0, false, 0, 1⟩ ⟨1, 143, 1, 0, 0, 0, 0⟩,
      .vneg ⟨false, 0, 0, 0, false, 0, 1⟩ ⟨31, 2, 0, 0, 8, 2, 32⟩,
      .vand ⟨false, 0, 0, 0, false, 0, 1⟩ ⟨2, 1, 225, 0, 0, 0, 0⟩,
      .vor ⟨false, 0, 0, 0, false, 0, 1⟩ ⟨2, 1, 225, 0, 0, 0, 0⟩,
      .vxor ⟨false, 0, 0, 0, false, 0, 1⟩ ⟨2, 1, 225, 0, 0, 0, 0⟩,
      .vshl ⟨false, 0, 0, 0, false, 0, 1⟩ ⟨2, 1, 225, 0, 0, 0, 0⟩,
      .vshr ⟨false, 0, 0, 0, false, 0, 1⟩ ⟨2, 1, 225, 0, 0, 0, 0⟩,
      .vsra ⟨false, 0, 0, 0, false, 0, 1⟩ ⟨2, 1, 225, 0, 0, 0, 0⟩,
      .vcmp ⟨false, 0, 0, 0, false, 0, 1⟩ ⟨8, 2, 224, 0, 3, 0, 0⟩,
      .vcmp ⟨false, 0, 0, 0, false, 0, 1⟩ ⟨25, 2, 224, 0, 9, 0, 0⟩,
      .vcmp ⟨false, 0, 0, 0, false, 0, 1⟩ ⟨9, 2, 224, 73, 3, 0, 0⟩,
      .kop ⟨false, 0, 0, 0, false, 0, 1⟩ ⟨0, 6, 101, 0, 0, 0, 0⟩,
      .kop ⟨false, 0, 0, 0, false, 0, 1⟩ ⟨7, 8, 101, 0, 0, 0, 0⟩,
      .kop ⟨false, 0, 0, 0, false, 0, 1⟩ ⟨7, 6, 8, 0, 0, 0, 0⟩,
      .kop ⟨false, 0, 0, 0, false, 0, 1⟩ ⟨7, 6, 101, 0, 1, 0, 0⟩,
      .kpop ⟨false, 0, 0, 0, false, 0, 1⟩ ⟨16, 1, 0, 0, 0, 0, 0⟩,
      .kpop ⟨false, 0, 0, 0, false, 0, 1⟩ ⟨15, 1, 1, 0, 0, 0, 0⟩,
      .kmov ⟨false, 0, 0, 0, false, 0, 1⟩ ⟨0, 3, 0, 0, 9, 0, 0⟩,
      .kmov ⟨false, 0, 0, 0, false, 0, 1⟩ ⟨8, 3, 0, 0, 9, 0, 0⟩,
      .vsel ⟨false, 0, 0, 1, false, 0, 1⟩ ⟨4, 3, 194, 0, 11, 0, 0⟩,
      .vsel ⟨false, 0, 0, 1, false, 0, 1⟩ ⟨4, 3, 194, 1, 10, 0, 0⟩,
      .vrcp ⟨false, 0, 0, 0, false, 0, 1⟩ ⟨0, 31, 0, 0, 1, 0, 0⟩,
      .vsqrt ⟨false, 0, 0, 0, false, 0, 1⟩ ⟨1, 30, 0, 0, 1, 0, 0⟩,
      .vrsq ⟨false, 0, 0, 0, false, 0, 1⟩ ⟨2, 29, 0, 0, 1, 0, 0⟩,
      .vexp2 ⟨false, 0, 0, 0, false, 0, 1⟩ ⟨3, 28, 0, 0, 1, 0, 0⟩,
      .vlog2 ⟨false, 0, 0, 0, false, 0, 1⟩ ⟨4, 27, 0, 0, 1, 0, 0⟩,
      .vcvt ⟨false, 0, 0, 0, false, 0, 1⟩ ⟨3, 1, 243, 0, 0, 0, 0⟩,
      .vcvt ⟨false, 0, 0, 0, false, 0, 1⟩ ⟨3, 1, 83, 0, 0, 0, 0⟩,
      .vcvt ⟨false, 0, 0, 0, false, 0, 1⟩ ⟨3, 1, 11, 0, 0, 0, 0⟩,
      .vcvt ⟨false, 0, 0, 0, false, 0, 1⟩ ⟨3, 1, 115, 0, 11, 0, 0⟩,
      .vqmx ⟨false, 0, 0, 0, false, 0, 1⟩ ⟨3, 1, 68, 0, 3, 0, 0⟩,
      .vqmx ⟨false, 0, 0, 0, false, 0, 1⟩ ⟨3, 1, 5, 0, 2, 0, 0⟩,
      .vtbl ⟨false, 0, 0, 0, false, 0, 1⟩ ⟨3, 1, 0, 0, 2, 0, 0⟩,
      .vtblw ⟨false, 0, 0, 0, false, 0, 1⟩ ⟨3, 192, 0, 0, 1, 0, 0⟩,
      .vtblw ⟨false, 0, 0, 0, false, 0, 1⟩ ⟨4, 76, 0, 0, 1, 0, 0⟩,
      .vtblw ⟨false, 0, 0, 0, false, 0, 1⟩ ⟨3, 76, 0, 0, 0, 0, 0⟩,
      .vrotr ⟨false, 0, 0, 0, false, 0, 1⟩ ⟨3, 72, 1, 0, 0, 0, 0⟩,
      .vbcr ⟨false, 0, 0, 0, false, 0, 1⟩ ⟨3, 129, 231, 0, 3, 2, 32⟩,
      .vrotc ⟨false, 0, 0, 0, false, 0, 1⟩ ⟨3, 72, 196, 0, 0, 0, 0⟩,
      .vbcc ⟨false, 0, 0, 0, false, 0, 1⟩ ⟨0, 193, 224, 73, 10, 0, 0⟩,
      .vredr ⟨false, 0, 0, 1, false, 0, 1⟩ ⟨4, 3, 16, 0, 0, 0, 0⟩,
      .vredr ⟨false, 0, 0, 1, false, 0, 1⟩ ⟨4, 3, 128, 0, 0, 0, 0⟩,
      .vredc ⟨false, 0, 0, 0, false, 0, 1⟩ ⟨4, 128, 2, 0, 5, 0, 0⟩,
      .vscanr ⟨false, 0, 0, 0, false, 0, 1⟩ ⟨4, 3, 3, 0, 8, 0, 0⟩,
      .vredr ⟨false, 0, 0, 1, false, 0, 1⟩ ⟨4, 3, 0, 0, 1, 0, 0⟩,
      .vtrb ⟨false, 0, 0, 0, false, 0, 1⟩ ⟨0, 192, 0, 0, 9, 1, 111⟩,
      .vmov ⟨false, 0, 0, 0, false, 0, 1⟩ ⟨0, 128, 0, 75, 11, 1, 128⟩,
      .vspl ⟨false, 0, 0, 0, false, 0, 1⟩ ⟨16, 4, 225, 0, 0, 0, 0⟩,
      .vspl ⟨false, 0, 0, 0, false, 0, 1⟩ ⟨1, 72, 225, 0, 0, 0, 0⟩,
      .viota ⟨false, 0, 0, 0, false, 0, 1⟩ ⟨1, 224, 0, 0, 0, 0, 0⟩,
      .viota ⟨false, 0, 0, 0, false, 0, 1⟩ ⟨1, 1, 0, 0, 3, 0, 0⟩,
      .viota ⟨false, 0, 0, 0, false, 0, 1⟩ ⟨1, 224, 0, 0, 3, 1, 32⟩,
      .vext ⟨false, 0, 0, 0, false, 0, 1⟩ ⟨0, 128, 192, 78, 0, 0, 0⟩,
      .vins ⟨false, 0, 0, 0, false, 0, 1⟩ ⟨4, 225, 255, 0, 3, 0, 0⟩,
      .vins ⟨false, 0, 0, 0, false, 0, 1⟩ ⟨4, 76, 0, 0, 3, 0, 0⟩,
      .vadd ⟨true, 0, 2, 2, true, 0, 0⟩ ⟨3, 1, 130, 0, 0, 0, 0⟩] : List Instr).all (fun i => !i.wf) = true := by decide +kernel

/-- R73, R74, R83, R226 to R239: matrix words, likewise. -/
theorem test_illformed_matrix :
    ([.mld ⟨false, 0, 0, 0, false, 0, 2⟩ ⟨0, 0, 130, 6, 1, 0, 3, 64, 0, false, 0⟩,
      .mld ⟨false, 0, 0, 0, false, 0, 2⟩ ⟨1, 1, 130, 6, 1, 0, 3, 64, 0, false, 0⟩,
      .mld ⟨false, 0, 0, 0, false, 0, 2⟩ ⟨1, 0, 130, 6, 1, 0, 3, 0, 0, false, 0⟩,
      .mld ⟨false, 0, 0, 0, false, 0, 2⟩ ⟨1, 0, 130, 6, 1, 0, 3, 65, 0, false, 0⟩,
      .mld ⟨false, 0, 0, 0, false, 0, 2⟩ ⟨1, 0, 130, 10, 1, 0, 3, 64, 0, false, 0⟩,
      .mld ⟨false, 0, 0, 0, false, 0, 2⟩ ⟨1, 0, 130, 6, 3, 0, 3, 64, 0, false, 0⟩,
      .mld ⟨false, 0, 0, 0, false, 0, 2⟩ ⟨1, 0, 130, 6, 0, 0, 1, 64, 0, false, 0⟩,
      .mld ⟨false, 0, 0, 0, false, 0, 2⟩ ⟨1, 0, 130, 1, 1, 1, 3, 64, 0, false, 0⟩,
      .mld ⟨false, 0, 0, 0, false, 0, 2⟩ ⟨1, 0, 130, 6, 1, 0, 3, 64, 1, false, 0⟩,
      .mld ⟨false, 0, 0, 0, false, 0, 2⟩ ⟨1, 0, 192, 6, 1, 0, 3, 64, 0, false, 0⟩,
      .mlds ⟨false, 0, 0, 0, false, 0, 2⟩ ⟨1, 0, 131, 4, 2, 1, 0, 64, 0, true, 0⟩,
      .mlds ⟨false, 0, 0, 0, false, 0, 2⟩ ⟨1, 0, 131, 4, 2, 1, 0, 64, 0, false, 2⟩,
      .mlds ⟨false, 0, 0, 0, false, 0, 2⟩ ⟨1, 0, 131, 4, 0, 1, 0, 64, 0, true, 2⟩,
      .mlds ⟨false, 0, 0, 0, false, 0, 2⟩ ⟨1, 0, 75, 4, 2, 1, 0, 64, 0, true, 2⟩,
      .mswap ⟨false, 0, 0, 0, false, 0, 2⟩ ⟨1, 0, 0, 0, 0, 0, 0, 1, 0, false, 0⟩,
      .mswap ⟨false, 0, 0, 0, false, 0, 2⟩ ⟨0, 0, 0, 0, 0, 0, 0, 64, 0, false, 0⟩,
      .mma ⟨false, 0, 0, 0, false, 0, 2⟩ ⟨1, 24, 128, 0, 0, 0, 0, 64, 1, false, 0⟩,
      .mma ⟨false, 0, 0, 0, false, 0, 2⟩ ⟨1, 8, 128, 0, 0, 0, 0, 64, 1, false, 0⟩,
      .mma ⟨false, 0, 0, 0, false, 0, 2⟩ ⟨1, 2, 72, 0, 0, 0, 0, 64, 1, false, 0⟩,
      .mma ⟨false, 0, 0, 0, false, 0, 2⟩ ⟨1, 2, 31, 0, 0, 0, 0, 17, 1, false, 0⟩,
      .mma ⟨false, 0, 0, 0, false, 0, 2⟩ ⟨1, 2, 128, 0, 1, 0, 0, 64, 1, false, 0⟩,
      .mma ⟨false, 0, 0, 0, false, 0, 2⟩ ⟨1, 2, 128, 0, 0, 0, 0, 64, 3, false, 0⟩,
      .mma ⟨false, 0, 0, 0, false, 0, 2⟩ ⟨1, 2, 128, 0, 0, 0, 0, 64, 1, true, 0⟩,
      .mma ⟨false, 0, 0, 0, false, 0, 2⟩ ⟨1, 2, 128, 0, 0, 0, 0, 64, 1, false, 1⟩,
      .mmas ⟨false, 0, 0, 0, false, 0, 2⟩ ⟨1, 3, 75, 4, 0, 1, 0, 32, 1, false, 0⟩,
      .mzero ⟨false, 0, 0, 0, false, 0, 2⟩ ⟨2, 10, 1, 0, 0, 0, 0, 64, 0, false, 0⟩,
      .mzero ⟨false, 0, 0, 0, false, 0, 2⟩ ⟨2, 0, 0, 0, 0, 0, 0, 64, 0, false, 0⟩,
      .manc ⟨false, 0, 0, 0, false, 0, 2⟩ ⟨48, 3, 0, 24⟩,
      .manc ⟨false, 0, 0, 0, false, 0, 2⟩ ⟨48, 3, 0, 32⟩,
      .manc ⟨false, 0, 0, 0, false, 0, 2⟩ ⟨48, 3, 1, 0⟩,
      .mdr ⟨false, 0, 0, 0, false, 0, 2⟩ ⟨4, 0, 76, 1, 0, 0, false, true, 2⟩,
      .mdr ⟨false, 0, 0, 0, false, 0, 2⟩ ⟨0, 0, 76, 15, 0, 0, false, true, 2⟩,
      .mdr ⟨false, 0, 0, 0, false, 0, 2⟩ ⟨0, 0, 76, 1, 5, 0, false, true, 2⟩,
      .mdr ⟨false, 0, 0, 0, false, 0, 2⟩ ⟨0, 0, 76, 1, 0, 0, true, true, 2⟩,
      .mdr ⟨false, 0, 0, 0, false, 0, 2⟩ ⟨1, 0, 76, 1, 0, 0, false, true, 2⟩,
      .mdr ⟨false, 0, 0, 0, false, 0, 2⟩ ⟨3, 0, 76, 1, 0, 0, false, true, 2⟩,
      .mdr ⟨false, 0, 0, 0, false, 0, 2⟩ ⟨0, 0, 31, 1, 0, 0, false, true, 17⟩,
      .mdr ⟨false, 0, 0, 0, false, 0, 2⟩ ⟨0, 0, 128, 1, 0, 0, false, true, 2⟩,
      .mdr ⟨false, 0, 0, 0, false, 0, 2⟩ ⟨3, 0, 28, 1, 0, 0, false, true, 16⟩,
      .mdrt ⟨false, 0, 0, 0, false, 0, 2⟩ ⟨2, 3, 76, 13, 4, 1, false, false, 64⟩,
      .mdrt ⟨false, 0, 0, 0, false, 0, 2⟩ ⟨3, 3, 133, 13, 4, 1, false, false, 64⟩,
      .mdrt ⟨false, 0, 0, 0, false, 0, 2⟩ ⟨2, 3, 133, 9, 4, 1, true, false, 64⟩,
      .mest ⟨false, 0, 0, 0, false, 0, 2⟩ ⟨4, 0, 0, 3⟩,
      .mstat ⟨false, 0, 0, 0, false, 0, 2⟩ ⟨2, 0, 0, 192⟩,
      .mstat ⟨false, 0, 0, 0, false, 0, 2⟩ ⟨2, 0, 0, 67⟩,
      .mstat ⟨false, 0, 0, 0, false, 0, 2⟩ ⟨2, 0, 0, 120⟩,
      .mstat ⟨false, 0, 0, 0, false, 0, 2⟩ ⟨2, 0, 0, 1⟩,
      .mtblw ⟨false, 0, 0, 0, false, 0, 2⟩ ⟨2, 1, 4, 7, 0, 0, 0, 64, 0, false, 0⟩,
      .mtblw ⟨false, 0, 0, 0, false, 0, 2⟩ ⟨1, 4, 4, 7, 0, 0, 0, 64, 0, false, 0⟩,
      .mtblw ⟨false, 0, 0, 0, false, 0, 2⟩ ⟨1, 1, 4, 6, 0, 0, 0, 64, 0, false, 0⟩,
      .mtsc ⟨false, 0, 0, 0, false, 0, 2⟩ ⟨48, 2, 0, 8⟩,
      .mtsc ⟨false, 0, 0, 0, false, 0, 2⟩ ⟨48, 2, 0, 4⟩,
      .mma ⟨false, 0, 0, 0, false, 0, 3⟩ ⟨1, 2, 128, 0, 0, 0, 0, 64, 1, false, 0⟩] : List Instr).all (fun i => !i.wf) = true := by decide +kernel

/-- R79, R200, R215: record words, likewise. -/
theorem test_illformed_record :
    ([.trec ⟨false, 0, 0, 0, false, 0, 3⟩ ⟨15, 40, 0, 0, 1⟩,
      .trec ⟨false, 0, 0, 0, false, 0, 3⟩ ⟨15, 45, 0, 0, 2⟩,
      .trec ⟨false, 0, 0, 0, false, 0, 3⟩ ⟨15, 45, 0, 1, 1⟩,
      .tupd ⟨false, 0, 0, 0, false, 0, 3⟩ ⟨1, 1, 0, 0, 2248⟩,
      .tupd ⟨false, 0, 0, 0, false, 0, 3⟩ ⟨1, 48, 0, 0, 3072⟩,
      .tupd ⟨false, 0, 0, 0, false, 0, 3⟩ ⟨1, 48, 0, 0, 2⟩,
      .tupd ⟨false, 0, 0, 0, false, 0, 3⟩ ⟨1, 48, 0, 0, 0x5000⟩,
      .tupd ⟨false, 0, 0, 0, false, 0, 3⟩ ⟨1, 48, 0, 0, 1⟩,
      .tupd ⟨false, 0, 0, 0, false, 0, 3⟩ ⟨1, 48, 0, 0, 64⟩,
      .tupd ⟨false, 0, 0, 0, false, 0, 3⟩ ⟨1, 46, 0, 0, 2052⟩,
      .tflsh ⟨false, 0, 0, 0, false, 0, 3⟩ ⟨4, 0, 0, 0, 2⟩,
      .tflsh ⟨false, 0, 0, 0, false, 0, 3⟩ ⟨4, 1, 0, 0, 0⟩,
      .tflsh ⟨false, 0, 0, 0, false, 0, 3⟩ ⟨4, 0, 0, 0, 1⟩,
      .dstat ⟨false, 0, 0, 0, false, 0, 3⟩ ⟨5, 0, 0, 3⟩,
      .dstat ⟨false, 0, 0, 0, false, 0, 3⟩ ⟨5, 1, 0, 0⟩,
      .trec ⟨false, 0, 0, 0, false, 0, 2⟩ ⟨15, 45, 0, 0, 1⟩] : List Instr).all (fun i => !i.wf) = true := by decide +kernel

/-- R58, R75, R76, R84: words written out field by field (those marked * stand in the spec as hexadecimal words). -/
theorem test_decode_shared :
    ([(0b1_01_10_001_0_001_01_0000001_000001_100000_001110_00000000_00000000000000000,
        .add ⟨true, 1, 2, 1, false, 1, 1⟩ ⟨1, 32, 14, 0⟩),
      (0b0_00_00_000_0_000_01_0000001_000010_100000_000001_00000000_00000000000000000, /- * -/
        .add ⟨false, 0, 0, 0, false, 0, 1⟩ ⟨2, 32, 1, 0⟩),
      (0b0_00_00_000_0_001_00_0000001_000111_000111_100011_00000000_00000000000000000, /- * -/
        .add ⟨false, 0, 0, 0, false, 1, 0⟩ ⟨7, 7, 35, 0⟩),
      (0b0_10_11_010_1_010_10_0000010_000010_110000_001101_00000000_00000000000000000,
        .sub ⟨false, 2, 3, 2, true, 2, 2⟩ ⟨2, 48, 13, 0⟩),
      (0b1_11_00_011_1_011_11_0000011_100101_100010_001100_00000000_00000000000000000,
        .mul ⟨true, 3, 0, 3, true, 3, 3⟩ ⟨37, 34, 12, 0⟩),
      (0b0_00_01_100_0_100_00_0000100_000100_110000_001011_00000000_00000000000000000,
        .mulhi ⟨false, 0, 1, 4, false, 4, 0⟩ ⟨4, 48, 11, 0⟩),
      (0b1_01_10_101_0_101_01_0000101_000101_100000_110001_00000000_00000000000000000,
        .mulhis ⟨true, 1, 2, 5, false, 5, 1⟩ ⟨5, 32, 49, 0⟩),
      (0b0_10_11_110_1_110_10_0000110_100100_110000_001001_00000000_00000000000000000,
        .div ⟨false, 2, 3, 6, true, 6, 2⟩ ⟨36, 48, 9, 0⟩),
      (0b1_11_00_111_1_111_11_0000111_000111_100010_001111_00000000_00000000000000000,
        .divs ⟨true, 3, 0, 7, true, 7, 3⟩ ⟨7, 34, 15, 0⟩),
      (0b0_00_01_000_0_000_00_0001000_001000_110000_001110_00000000_00000000000000000,
        .rem ⟨false, 0, 1, 0, false, 0, 0⟩ ⟨8, 48, 14, 0⟩),
      (0b1_01_10_001_0_001_01_0001001_100011_100000_001101_00000000_00000000000000000,
        .rems ⟨true, 1, 2, 1, false, 1, 1⟩ ⟨35, 32, 13, 0⟩),
      (0b0_10_11_010_1_010_10_0001010_001010_110000_110001_00000000_00000000000000000,
        .and ⟨false, 2, 3, 2, true, 2, 2⟩ ⟨10, 48, 49, 0⟩),
      (0b1_11_00_011_1_011_11_0001011_001011_100010_001011_00000000_00000000000000000,
        .or ⟨true, 3, 0, 3, true, 3, 3⟩ ⟨11, 34, 11, 0⟩),
      (0b0_00_01_100_0_100_00_0001100_100001_110000_001010_00000000_00000000000000000,
        .xor ⟨false, 0, 1, 4, false, 4, 0⟩ ⟨33, 48, 10, 0⟩),
      (0b1_01_10_101_0_101_01_0001101_001101_100000_001001_00000000_00000000000000000,
        .andn ⟨true, 1, 2, 5, false, 5, 1⟩ ⟨13, 32, 9, 0⟩),
      (0b0_10_11_110_1_110_10_0001110_001110_110000_001111_00000000_00000000000000000,
        .shl ⟨false, 2, 3, 6, true, 6, 2⟩ ⟨14, 48, 15, 0⟩),
      (0b1_11_00_111_1_111_11_0001111_100101_100010_110001_00000000_00000000000000000,
        .shr ⟨true, 3, 0, 7, true, 7, 3⟩ ⟨37, 34, 49, 0⟩),
      (0b0_00_01_000_0_000_00_0010000_000000_110000_001101_00000000_00000000000000000,
        .sra ⟨false, 0, 1, 0, false, 0, 0⟩ ⟨0, 48, 13, 0⟩),
      (0b1_01_10_001_0_001_01_0010001_000001_100000_001100_00000000_00000000000000000,
        .rol ⟨true, 1, 2, 1, false, 1, 1⟩ ⟨1, 32, 12, 0⟩),
      (0b0_10_11_010_1_010_10_0010010_100100_110000_001011_00000000_00000000000000000,
        .min ⟨false, 2, 3, 2, true, 2, 2⟩ ⟨36, 48, 11, 0⟩),
      (0b1_11_00_011_1_011_11_0010011_000011_100010_001010_00000000_00000000000000000,
        .mins ⟨true, 3, 0, 3, true, 3, 3⟩ ⟨3, 34, 10, 0⟩),
      (0b0_00_01_100_0_100_00_0010100_000100_110000_110001_00000000_00000000000000000,
        .max ⟨false, 0, 1, 4, false, 4, 0⟩ ⟨4, 48, 49, 0⟩),
      (0b1_01_10_101_0_101_01_0010101_100011_100000_001111_00000000_00000000000000000,
        .maxs ⟨true, 1, 2, 5, false, 5, 1⟩ ⟨35, 32, 15, 0⟩),
      (0b0_00_00_000_0_000_10_0010110_000011_000001_110000_00001101_00000000000000000,
        .sel ⟨false, 0, 0, 0, false, 0, 2⟩ ⟨3, 1, 48, 13⟩),
      (0b0_00_00_000_0_000_00_0010111_000010_000000_000001_00110010_00000000000000000, /- * -/
        .cmp ⟨false, 0, 0, 0, false, 0, 0⟩ ⟨2, 0, 1, 50⟩),
      (0b0_00_00_000_0_000_11_0011000_000011_000001_000010_00000110_00000000000000000,
        .gop ⟨false, 0, 0, 0, false, 0, 3⟩ ⟨3, 1, 2, 6⟩),
      (0b0_00_00_000_0_000_00_0011000_011111_000000_000000_00010000_00000000000000000,
        .gop ⟨false, 0, 0, 0, false, 0, 0⟩ ⟨31, 0, 0, 16⟩),
      (0b0_00_00_000_0_000_00_0011001_100000_110001_0000000000000000000000000000000, /- * -/
        .addi ⟨false, 0, 0, 0, false, 0, 0⟩ ⟨32, 49, 0⟩),
      (0b0_00_00_000_0_000_01_0011010_000100_100000_1000000000000000000000000000000,
        .andi ⟨false, 0, 0, 0, false, 0, 1⟩ ⟨4, 32, 0x40000000⟩),
      (0b0_00_00_000_0_000_10_0011011_100100_000001_0111111111111111111111111111111,
        .ori ⟨false, 0, 0, 0, false, 0, 2⟩ ⟨36, 1, 0x3fffffff⟩),
      (0b0_00_00_000_0_000_11_0011100_001111_100111_1111111111111111111111111111111,
        .xori ⟨false, 0, 0, 0, false, 0, 3⟩ ⟨15, 39, 0x7fffffff⟩),
      (0b0_00_00_000_0_000_00_0011101_011111_011110_0000000000000000000000000111111,
        .shli ⟨false, 0, 0, 0, false, 0, 0⟩ ⟨31, 30, 63⟩),
      (0b0_00_00_000_0_000_01_0011110_000001_000010_0000000000000000000000000000001,
        .shri ⟨false, 0, 0, 0, false, 0, 1⟩ ⟨1, 2, 1⟩),
      (0b0_00_00_000_0_000_10_0011111_000001_000010_0000000000000000000000000100000,
        .srai ⟨false, 0, 0, 0, false, 0, 2⟩ ⟨1, 2, 32⟩),
      (0b0_00_00_000_0_000_11_0100000_110000_000010_0000001000100000000000000000000, /- * -/
        .cmpi ⟨false, 0, 0, 0, false, 0, 3⟩ ⟨48, 2, 0x1100000⟩),
      (0b0_00_00_000_0_000_00_0100001_000100_000000_1111000100110101011110011011110, /- * -/
        .li ⟨false, 0, 0, 0, false, 0, 0⟩ ⟨4, 0, 0x789abcde⟩),
      (0b0_00_00_000_0_000_00_0100001_000100_000000_1111000100110101011110011011110, /- * -/
        .li ⟨false, 0, 0, 0, false, 0, 0⟩ ⟨4, 0, 0x789abcde⟩),
      (0b0_00_00_000_0_000_00_0100010_000100_000100_0000000001001000110100010101101, /- * -/
        .lih ⟨false, 0, 0, 0, false, 0, 0⟩ ⟨4, 4, 0x2468ad⟩)] : List (Word × Instr)).all (fun p => decide (decode p.1 = .ok p.2)) = true := by decide +kernel

/-- R58, R75 to R77, R79, R81, R84: words written out field by field (those marked * stand in the spec as hexadecimal words). -/
theorem test_decode_shared2 :
    ([(0b0_00_00_000_0_000_00_0100011_000101_000001_000010_00000011_00000000000000000,
        .bfx ⟨false, 0, 0, 0, false, 0, 0⟩ ⟨5, 1, 2, 3⟩),
      (0b0_00_00_000_0_000_11_0100100_000101_000001_000010_00111111_00000000000000000,
        .bfxs ⟨false, 0, 0, 0, false, 0, 3⟩ ⟨5, 1, 2, 63⟩),
      (0b0_00_00_000_0_000_00_0100101_000111_000101_000010_00000011_00000000000000000,
        .bfi ⟨false, 0, 0, 0, false, 0, 0⟩ ⟨7, 5, 2, 3⟩),
      (0b0_00_00_000_0_000_01_0100110_000011_000001_000010_00001000_00000000000000000,
        .fshl ⟨false, 0, 0, 0, false, 0, 1⟩ ⟨3, 1, 2, 8⟩),
      (0b0_00_00_000_0_000_10_0100111_000011_000001_000010_01000000_00000000000000000,
        .fshr ⟨false, 0, 0, 0, false, 0, 2⟩ ⟨3, 1, 2, 64⟩),
      (0b0_00_00_000_0_000_00_0101000_000001_100100_000000_00000000_00000000000000000,
        .popc ⟨false, 0, 0, 0, false, 0, 0⟩ ⟨1, 36, 0, 0⟩),
      (0b0_00_00_000_0_000_01_0101001_000001_100000_000000_00000000_00000000000000000,
        .clz ⟨false, 0, 0, 0, false, 0, 1⟩ ⟨1, 32, 0, 0⟩),
      (0b0_00_00_000_0_000_10_0101010_000001_100001_000000_00000000_00000000000000000,
        .ctz ⟨false, 0, 0, 0, false, 0, 2⟩ ⟨1, 33, 0, 0⟩),
      (0b0_00_00_000_0_000_11_0101011_000001_100111_000000_00000000_00000000000000000,
        .brev ⟨false, 0, 0, 0, false, 0, 3⟩ ⟨1, 39, 0, 0⟩),
      (0b0_00_00_001_0_000_11_0101100_110000_000000_1111111111111111111111111111101, /- * -/
        .br ⟨false, 0, 0, 1, false, 0, 3⟩ ⟨48, 0x7ffffffd⟩),
      (0b0_00_00_001_0_000_11_0101100_110000_000000_1111111111111111111111111111101, /- * -/
        .br ⟨false, 0, 0, 1, false, 0, 3⟩ ⟨48, 0x7ffffffd⟩),
      (0b0_00_00_000_0_000_01_0101101_001111_000000_0111111111111111111111111111111,
        .call ⟨false, 0, 0, 0, false, 0, 1⟩ ⟨15, 0x3fffffff⟩),
      (0b0_00_00_000_0_000_01_0101110_001111_000000_0000000000000000000000000000000,
        .ret ⟨false, 0, 0, 0, false, 0, 1⟩ ⟨15, 0⟩),
      (0b0_00_00_000_0_000_10_0101111_100001_000000_1000000000000000000000000000000,
        .jmpr ⟨false, 0, 0, 0, false, 0, 2⟩ ⟨33, 0x40000000⟩),
      (0b0_00_00_000_0_000_00_0110000_100011_000000_1111111111111111111111111111100, /- * -/
        .brq ⟨false, 0, 0, 0, false, 0, 0⟩ ⟨35, 0x7ffffffc⟩),
      (0b0_00_00_000_0_000_00_0110001_000010_000001_000101_0000000000000000000000000, /- * -/
        .modl ⟨false, 0, 0, 0, false, 0, 0⟩ ⟨2, 1, 5⟩),
      (0b0_00_00_000_0_000_00_0110010_000100_000000_000000_00000011_00000000000000000, /- * -/
        .qstat ⟨false, 0, 0, 0, false, 0, 0⟩ ⟨4, 0, 0, 3⟩),
      (0b0_00_00_000_0_000_01_0110011_0000_000010_0000000000000000_00_000000000000000, /- * -/
        .hstep ⟨false, 0, 0, 0, false, 0, 1⟩ ⟨0, 2, 0, 0, 0⟩),
      (0b0_00_00_000_0_000_01_0110100_0000_000000_0000000000000000_01_000000000000000, /- * -/
        .hmark ⟨false, 0, 0, 0, false, 0, 1⟩ ⟨0, 0, 0, 1, 0⟩),
      (0b0_00_00_000_0_000_01_0110101_0000_000000_0000000000000000_01_000000000000000, /- * -/
        .hrew ⟨false, 0, 0, 0, false, 0, 1⟩ ⟨0, 0, 0, 1, 0⟩),
      (0b0_00_00_000_0_000_11_0110110_0001_001010_0000000000000000_00_000000000000000, /- * -/
        .hstat ⟨false, 0, 0, 0, false, 0, 3⟩ ⟨1, 10, 0, 0, 0⟩),
      (0b0_00_00_000_0_000_00_0110111_000011_000100_000000_00000101_00000000000000000, /- * -/
        .pkw ⟨false, 0, 0, 0, false, 0, 0⟩ ⟨3, 4, 0, 5⟩),
      (0b0_00_00_000_0_000_00_0111000_000100_000000_0000000000000000000000000000010, /- * -/
        .srr ⟨false, 0, 0, 0, false, 0, 0⟩ ⟨4, 0, 2⟩),
      (0b0_00_00_000_0_000_00_0111001_000000_000100_0000000000000000000000100000100,
        .srw ⟨false, 0, 0, 0, false, 0, 0⟩ ⟨0, 4, 260⟩),
      (0b0_00_00_000_0_000_00_0111010_000000_000001_0000000000000000000000000000111, /- * -/
        .trap ⟨false, 0, 0, 0, false, 0, 0⟩ ⟨0, 1, 7⟩),
      (0b0_00_00_000_0_000_11_0111011_000000_000000_000000_00000000_00000000000000000, /- * -/
        .eret ⟨false, 0, 0, 0, false, 0, 3⟩ ⟨0, 0, 0, 0⟩),
      (0b0_00_01_000_0_000_10_0111100_000000_000000_000000_00000000_00000000000000000,
        .yield ⟨false, 0, 1, 0, false, 0, 2⟩ ⟨0, 0, 0, 0⟩),
      (0b0_00_00_000_0_000_11_0111101_000000_110000_0001111111111111111111111111111,
        .wait ⟨false, 0, 0, 0, false, 0, 3⟩ ⟨0, 48, 0xfffffff⟩),
      (0b0_00_00_000_0_000_00_0111101_000000_000000_0010000000000000000000000000000,
        .wait ⟨false, 0, 0, 0, false, 0, 0⟩ ⟨0, 0, 0x10000000⟩),
      (0b0_00_00_000_0_000_01_0111110_000000_000000_000000_00000000_00000000000000000, /- * -/
        .halt ⟨false, 0, 0, 0, false, 0, 1⟩ ⟨0, 0, 0, 0⟩),
      (0b1_11_11_000_0_000_11_0111111_000000_000000_000000_00000000_00000000000000000,
        .nop ⟨true, 3, 3, 0, false, 0, 3⟩ ⟨0, 0, 0, 0⟩)] : List (Word × Instr)).all (fun p => decide (decode p.1 = .ok p.2)) = true := by decide +kernel

/-- R58, R75, R76, R78, R79, R85: words written out field by field (those marked * stand in the spec as hexadecimal words). -/
theorem test_decode_a_memory :
    ([(0b0_00_00_000_0_000_00_1000000_000011_000001_000010_010_010_0000000000000010000, /- * -/
        .lds ⟨false, 0, 0, 0, false, 0, 0⟩ ⟨3, 1, 2, 2, 2, 16⟩),
      (0b0_00_00_000_0_000_00_1000001_000100_000001_110000_000_011_0000000000000001000, /- * -/
        .sts ⟨false, 0, 0, 0, false, 0, 0⟩ ⟨4, 1, 48, 0, 3, 8⟩),
      (0b0_00_00_000_0_000_00_1000010_101000_000001_000010_000_111_1000000000000000000,
        .ldq ⟨false, 0, 0, 0, false, 0, 0⟩ ⟨40, 1, 2, 0, 7, 0x40000⟩),
      (0b0_00_00_000_0_000_00_1000010_100000_000001_000010_000_010_0000000000000000000, /- * -/
        .ldq ⟨false, 0, 0, 0, false, 0, 0⟩ ⟨32, 1, 2, 0, 2, 0⟩),
      (0b0_00_00_000_0_000_00_1000011_101111_000110_000111_000_111_0000000000000000000, /- * -/
        .stq ⟨false, 0, 0, 0, false, 0, 0⟩ ⟨47, 6, 7, 0, 7, 0⟩),
      (0b0_00_00_000_0_000_00_1000100_000011_000001_000100_111_011_0000000000000001000, /- * -/
        .satom ⟨false, 0, 0, 0, false, 0, 0⟩ ⟨3, 1, 4, 7, 3, 8⟩),
      (0b0_00_00_000_0_000_00_1000101_010110_001011_010101_011_011_0000000001000100000, /- * -/
        .ldg ⟨false, 0, 0, 0, false, 0, 0⟩ ⟨22, 11, 21, 3, 3, 544⟩),
      (0b0_00_00_000_0_000_00_1000110_010111_001011_011000_000_000_0000000001001000000, /- * -/
        .stg ⟨false, 0, 0, 0, false, 0, 0⟩ ⟨23, 11, 24, 0, 0, 576⟩),
      (0b0_00_00_000_0_000_00_1000111_000101_000010_000110_001_011_1000000000000000000, /- * -/
        .gatom ⟨false, 0, 0, 0, false, 0, 0⟩ ⟨5, 2, 6, 1, 3, 0x40000⟩),
      (0b0_00_00_000_0_000_00_1001000_000010_000001_110000_010_001_0000000000000000000, /- * -/
        .cmo ⟨false, 0, 0, 0, false, 0, 0⟩ ⟨2, 1, 48, 2, 1, 0⟩),
      (0b0_00_00_000_0_000_00_1001001_110000_000001_000010_01100000_00000000000000000, /- * -/
        .lbind ⟨false, 0, 0, 0, false, 0, 0⟩ ⟨48, 1, 2, 96⟩),
      (0b0_00_00_000_0_000_00_1001010_000011_000100_000000_01000000_00000000000000000, /- * -/
        .acq ⟨false, 0, 0, 0, false, 0, 0⟩ ⟨3, 4, 0, 64⟩),
      (0b0_00_00_000_0_000_00_1001011_110000_110000_000000_00000000_00000000000000000, /- * -/
        .rel ⟨false, 0, 0, 0, false, 0, 0⟩ ⟨48, 48, 0, 0⟩),
      (0b0_00_00_000_0_000_00_1001100_000000_000000_000000_00011111_00000000000000000, /- * -/
        .fence ⟨false, 0, 0, 0, false, 0, 0⟩ ⟨0, 0, 0, 31⟩),
      (0b0_00_00_000_0_000_00_1001100_000000_000000_000000_00000010_00000000000000000, /- * -/
        .fence ⟨false, 0, 0, 0, false, 0, 0⟩ ⟨0, 0, 0, 2⟩),
      (0b0_00_00_000_0_000_00_1001101_000101_000000_000000_00000011_00000000000000000, /- * -/
        .gbar ⟨false, 0, 0, 0, false, 0, 0⟩ ⟨5, 0, 0, 3⟩),
      (0b0_00_00_000_0_000_00_1001110_000110_110000_000000_00000000_00000000000000000, /- * -/
        .waitw ⟨false, 0, 0, 0, false, 0, 0⟩ ⟨6, 48, 0, 0⟩),
      (0b0_00_00_000_0_000_00_1001111_110000_000100_001100_00000000_00000000000000000, /- * -/
        .wbind ⟨false, 0, 0, 0, false, 0, 0⟩ ⟨48, 4, 12, 0⟩),
      (0b0_00_00_000_0_000_00_1010000_000101_000110_0000000000000000000000000000010, /- * -/
        .wadv ⟨false, 0, 0, 0, false, 0, 0⟩ ⟨5, 6, 2⟩),
      (0b0_00_00_000_0_000_00_1010001_000111_000000_000000_00100011_00000000000000000, /- * -/
        .wrel ⟨false, 0, 0, 0, false, 0, 0⟩ ⟨7, 0, 0, 35⟩),
      (0b0_00_00_000_0_000_00_1010001_110000_000000_000000_00000000_00000000000000000, /- * -/
        .wrel ⟨false, 0, 0, 0, false, 0, 0⟩ ⟨48, 0, 0, 0⟩),
      (0b0_00_00_000_0_000_00_1010010_001110_001010_001100_011_011_0000000000000000000, /- * -/
        .ldw ⟨false, 0, 0, 0, false, 0, 0⟩ ⟨14, 10, 12, 3, 3, 0⟩),
      (0b0_00_00_000_0_000_00_1010011_0001_000001_0000000000000000_00_000000001101100, /- * -/
        .hbind ⟨false, 0, 0, 0, false, 0, 0⟩ ⟨1, 1, 0, 0, 108⟩),
      (0b0_00_00_000_0_000_00_1010011_0000_000001_0000000000000000_00_000000000100000, /- * -/
        .hbind ⟨false, 0, 0, 0, false, 0, 0⟩ ⟨0, 1, 0, 0, 32⟩),
      (0b0_00_00_000_0_000_00_1010100_0010_000000_0000000000000000_00_000000000000000, /- * -/
        .hunb ⟨false, 0, 0, 0, false, 0, 0⟩ ⟨2, 0, 0, 0, 0⟩),
      (0b0_00_00_000_0_000_00_1010101_000101_000110_000111_00000000_00000000000000000, /- * -/
        .topen ⟨false, 0, 0, 0, false, 0, 0⟩ ⟨5, 6, 7, 0⟩),
      (0b0_00_00_000_0_000_00_1010110_110000_000001_000000_00000001_00000000000000000, /- * -/
        .tseal ⟨false, 0, 0, 0, false, 0, 0⟩ ⟨48, 1, 0, 1⟩),
      (0b0_00_00_000_0_000_00_1010110_110000_000001_000000_00000001_00000000000000000, /- * -/
        .tseal ⟨false, 0, 0, 0, false, 0, 0⟩ ⟨48, 1, 0, 1⟩),
      (0b0_00_00_000_0_000_00_1010111_000100_000001_000000_00000001_00000000000000000, /- * -/
        .tstat ⟨false, 0, 0, 0, false, 0, 0⟩ ⟨4, 1, 0, 1⟩)] : List (Word × Instr)).all (fun p => decide (decode p.1 = .ok p.2)) = true := by decide +kernel

/-- R58, R75, R80, R85: words written out field by field (those marked * stand in the spec as hexadecimal words). -/
theorem test_decode_a_engines :
    ([(0b0_00_00_000_0_000_00_1011000_000001_000010_000011_00000000_00000000_000000000, /- * -/
        .cpym ⟨false, 0, 0, 0, false, 0, 0⟩ ⟨1, 2, 3, 0, 0, 0⟩),
      (0b0_00_00_000_0_000_00_1011001_000001_000010_000011_11111111_00000001_000000001,
        .cpys ⟨false, 0, 0, 0, false, 0, 0⟩ ⟨1, 2, 3, 255, 1, 1⟩),
      (0b0_00_00_000_0_000_00_1011010_100011_000010_000011_00000000_00000000_000001111,
        .cgth ⟨false, 0, 0, 0, false, 0, 0⟩ ⟨35, 2, 3, 0, 0, 15⟩),
      (0b0_00_00_000_0_000_00_1011011_000001_000010_110000_00000000_00000000_000001000,
        .csct ⟨false, 0, 0, 0, false, 0, 0⟩ ⟨1, 2, 48, 0, 0, 8⟩),
      (0b0_00_00_000_0_000_00_1011100_000001_000010_000000_00000000_00000000_000000111,
        .cpgi ⟨false, 0, 0, 0, false, 0, 0⟩ ⟨1, 2, 0, 0, 0, 7⟩),
      (0b0_00_00_000_0_000_00_1011101_000001_000010_000011_00000000_00000000_000000001,
        .rput ⟨false, 0, 0, 0, false, 0, 0⟩ ⟨1, 2, 3, 0, 0, 1⟩),
      (0b0_00_00_000_0_000_00_1011110_000001_000010_000011_00000000_11111111_000000000,
        .rget ⟨false, 0, 0, 0, false, 0, 0⟩ ⟨1, 2, 3, 0, 255, 0⟩),
      (0b0_00_00_000_0_000_00_1011111_000001_000010_000000_00000000_00000000_000111111, /- * -/
        .gadd ⟨false, 0, 0, 0, false, 0, 0⟩ ⟨1, 2, 0, 0, 0, 63⟩),
      (0b0_00_00_000_0_000_00_1100000_000011_000100_000101_00000000_00000000_100011000, /- * -/
        .gamo ⟨false, 0, 0, 0, false, 0, 0⟩ ⟨3, 4, 5, 0, 0, 280⟩),
      (0b0_00_00_000_0_000_00_1100001_000110_000111_000000_00000000_00000000_000000011, /- * -/
        .gqop ⟨false, 0, 0, 0, false, 0, 0⟩ ⟨6, 7, 0, 0, 0, 3⟩),
      (0b0_00_00_000_0_000_00_1100010_000001_000010_000011_00000000_00000000_011000111, /- * -/
        .gred ⟨false, 0, 0, 0, false, 0, 0⟩ ⟨1, 2, 3, 0, 0, 199⟩),
      (0b0_00_00_000_0_000_00_1100011_000001_000010_001000_00000000_00000000_000111111, /- * -/
        .gaxpy ⟨false, 0, 0, 0, false, 0, 0⟩ ⟨1, 2, 8, 0, 0, 63⟩),
      (0b0_00_00_000_0_000_00_1100100_000000_000000_000000_00000000_00000000_000000000, /- * -/
        .gfen ⟨false, 0, 0, 0, false, 0, 0⟩ ⟨0, 0, 0, 0, 0, 0⟩),
      (0b0_00_00_000_0_000_00_1100101_110000_000010_000000_00000000_00000000_000000000, /- * -/
        .eqclr ⟨false, 0, 0, 0, false, 0, 0⟩ ⟨48, 2, 0, 0, 0, 0⟩),
      (0b0_00_00_000_0_000_00_1100110_000001_000010_000000_00000000_00000000_000000000, /- * -/
        .equ ⟨false, 0, 0, 0, false, 0, 0⟩ ⟨1, 2, 0, 0, 0, 0⟩),
      (0b0_00_00_000_0_000_00_1100111_000101_000110_000000_00000000_00000000_000000000, /- * -/
        .eqf ⟨false, 0, 0, 0, false, 0, 0⟩ ⟨5, 6, 0, 0, 0, 0⟩),
      (0b0_00_00_000_0_000_00_1101000_000111_001000_001001_00000000_00000000_000001010, /- * -/
        .eqz ⟨false, 0, 0, 0, false, 0, 0⟩ ⟨7, 8, 9, 0, 0, 10⟩),
      (0b0_00_00_000_0_000_00_1101001_001010_001011_000000_00000000_00000000_100000011, /- * -/
        .eqr ⟨false, 0, 0, 0, false, 0, 0⟩ ⟨10, 11, 0, 0, 0, 259⟩),
      (0b0_00_00_000_0_000_00_1101010_000011_000000_000000_00000000_00000000_000000000, /- * -/
        .eqsnp ⟨false, 0, 0, 0, false, 0, 0⟩ ⟨3, 0, 0, 0, 0, 0⟩),
      (0b0_00_00_000_0_000_00_1101011_000010_000000_000000_00000000_00000000_000000001, /- * -/
        .eqund ⟨false, 0, 0, 0, false, 0, 0⟩ ⟨2, 0, 0, 0, 0, 1⟩),
      (0b0_00_00_000_0_000_00_1101011_110000_000000_000000_00000000_00000000_000000000, /- * -/
        .eqund ⟨false, 0, 0, 0, false, 0, 0⟩ ⟨48, 0, 0, 0, 0, 0⟩),
      (0b0_00_00_000_0_000_00_1101100_001011_001100_000000_00000010_00000000000000000, /- * -/
        .deq ⟨false, 0, 0, 0, false, 0, 0⟩ ⟨11, 12, 0, 2⟩),
      (0b0_00_00_000_0_000_00_1101101_001010_000000_000000_00000010_00000000000000000, /- * -/
        .engst ⟨false, 0, 0, 0, false, 0, 0⟩ ⟨10, 0, 0, 2⟩),
      (0b0_00_00_001_0_000_00_1101110_000001_000010_000011_00000000_00000000_000010000, /- * -/
        .spk ⟨false, 0, 0, 1, false, 0, 0⟩ ⟨1, 2, 3, 0, 0, 16⟩),
      (0b0_00_00_000_0_000_00_1101111_000101_000110_000000_00000000_00000000000000000, /- * -/
        .eva ⟨false, 0, 0, 0, false, 0, 0⟩ ⟨5, 6, 0, 0⟩),
      (0b0_00_00_000_0_000_00_1110000_000011_000100_000000_00000001_00000000000000000, /- * -/
        .evw ⟨false, 0, 0, 0, false, 0, 0⟩ ⟨3, 4, 0, 1⟩),
      (0b0_00_00_000_0_000_00_1110001_000011_110000_000000_00000001_00000000000000000, /- * -/
        .evq ⟨false, 0, 0, 0, false, 0, 0⟩ ⟨3, 48, 0, 1⟩),
      (0b0_00_00_010_0_000_00_1110010_000001_000010_000000_00000000_00000000_000000000, /- * -/
        .tkenq ⟨false, 0, 0, 2, false, 0, 0⟩ ⟨1, 2, 0, 0, 0, 0⟩),
      (0b0_00_00_000_0_000_00_1110011_000000_000100_000000_00000011_00000000000000000, /- * -/
        .tksig ⟨false, 0, 0, 0, false, 0, 0⟩ ⟨0, 4, 0, 3⟩)] : List (Word × Instr)).all (fun p => decide (decode p.1 = .ok p.2)) = true := by decide +kernel

/-- R58, R82, R86: words written out field by field (those marked * stand in the spec as hexadecimal words). -/
theorem test_decode_vector :
    ([(0b1_00_10_010_1_000_01_1000000_00011_00000001_10000010_00000000_0000_00_00000000, /- * -/
        .vadd ⟨true, 0, 2, 2, true, 0, 1⟩ ⟨3, 1, 130, 0, 0, 0, 0⟩),
      (0b1_00_10_010_1_000_01_1000000_00011_00000001_10000010_00000000_0000_00_00000000, /- * -/
        .vadd ⟨true, 0, 2, 2, true, 0, 1⟩ ⟨3, 1, 130, 0, 0, 0, 0⟩),
      (0b0_00_00_001_0_000_01_1000001_00000_00011111_11110000_01001001_0001_01_00101111,
        .vsub ⟨false, 0, 0, 1, false, 0, 1⟩ ⟨0, 31, 240, 73, 1, 1, 47⟩),
      (0b0_00_00_010_0_000_01_1000010_11101_11000011_11110001_00000000_0010_00_00000000,
        .vmul ⟨false, 0, 0, 2, false, 0, 1⟩ ⟨29, 195, 241, 0, 2, 0, 0⟩),
      (0b0_00_00_011_0_000_01_1000011_11100_01001000_11110010_00011110_0011_00_00000000,
        .vfma ⟨false, 0, 0, 3, false, 0, 1⟩ ⟨28, 72, 242, 30, 3, 0, 0⟩),
      (0b0_00_00_100_0_000_01_1000100_11011_00011111_11110011_00011110_0100_01_00101111,
        .vfms ⟨false, 0, 0, 4, false, 0, 1⟩ ⟨27, 31, 243, 30, 4, 1, 47⟩),
      (0b0_00_00_101_0_000_01_1000101_11010_11000011_11110100_00000000_0101_00_00000000,
        .vmin ⟨false, 0, 0, 5, false, 0, 1⟩ ⟨26, 195, 244, 0, 5, 0, 0⟩),
      (0b0_00_00_110_0_000_01_1000110_11001_01001000_11110101_00000000_0110_00_00000000,
        .vmax ⟨false, 0, 0, 6, false, 0, 1⟩ ⟨25, 72, 245, 0, 6, 0, 0⟩),
      (0b0_00_00_000_0_000_01_1000111_00001_10001111_00000000_00000000_0000_00_00000000,
        .vabs ⟨false, 0, 0, 0, false, 0, 1⟩ ⟨1, 143, 0, 0, 0, 0, 0⟩),
      (0b0_00_00_000_0_000_01_1001000_11111_00000010_00000000_00000000_1000_00_00000000,
        .vneg ⟨false, 0, 0, 0, false, 0, 1⟩ ⟨31, 2, 0, 0, 8, 0, 0⟩),
      (0b0_00_00_000_0_000_01_1001001_00010_00000001_11100001_00000000_0011_00_00000000, /- * -/
        .vand ⟨false, 0, 0, 0, false, 0, 1⟩ ⟨2, 1, 225, 0, 3, 0, 0⟩),
      (0b0_00_00_000_0_000_01_1001010_00010_00000001_11100001_00000000_0100_00_00000000,
        .vor ⟨false, 0, 0, 0, false, 0, 1⟩ ⟨2, 1, 225, 0, 4, 0, 0⟩),
      (0b0_00_00_000_0_000_01_1001011_00010_00000001_11100001_00000000_0101_00_00000000,
        .vxor ⟨false, 0, 0, 0, false, 0, 1⟩ ⟨2, 1, 225, 0, 5, 0, 0⟩),
      (0b0_00_00_000_0_000_01_1001100_00010_00000001_11100001_00000000_0110_00_00000000,
        .vshl ⟨false, 0, 0, 0, false, 0, 1⟩ ⟨2, 1, 225, 0, 6, 0, 0⟩),
      (0b0_00_00_000_0_000_01_1001101_00010_00000001_11100001_00000000_0111_00_00000000,
        .vshr ⟨false, 0, 0, 0, false, 0, 1⟩ ⟨2, 1, 225, 0, 7, 0, 0⟩),
      (0b0_00_00_000_0_000_01_1001110_00010_00000001_11100001_00000000_1000_00_00000000,
        .vsra ⟨false, 0, 0, 0, false, 0, 1⟩ ⟨2, 1, 225, 0, 8, 0, 0⟩),
      (0b0_00_00_000_0_000_01_1001111_01001_00000010_11100000_00000000_0011_00_00000000, /- * -/
        .vcmp ⟨false, 0, 0, 0, false, 0, 1⟩ ⟨9, 2, 224, 0, 3, 0, 0⟩),
      (0b0_00_00_000_0_000_01_1010000_00111_00000110_01100101_00000000_0000_00_00000000,
        .kop ⟨false, 0, 0, 0, false, 0, 1⟩ ⟨7, 6, 101, 0, 0, 0, 0⟩),
      (0b0_00_00_000_0_000_01_1010001_01111_00000001_00000000_00000000_0000_00_00000000,
        .kpop ⟨false, 0, 0, 0, false, 0, 1⟩ ⟨15, 1, 0, 0, 0, 0, 0⟩),
      (0b0_00_00_000_0_000_01_1010010_00001_00000011_00000000_00000000_1001_00_00000000,
        .kmov ⟨false, 0, 0, 0, false, 0, 1⟩ ⟨1, 3, 0, 0, 9, 0, 0⟩),
      (0b0_00_00_001_0_000_01_1010011_00100_00000011_11000010_00000000_1010_00_00000000,
        .vsel ⟨false, 0, 0, 1, false, 0, 1⟩ ⟨4, 3, 194, 0, 10, 0, 0⟩),
      (0b0_00_00_000_0_000_01_1010100_00000_00011111_00000000_00000000_0000_00_00000000,
        .vrcp ⟨false, 0, 0, 0, false, 0, 1⟩ ⟨0, 31, 0, 0, 0, 0, 0⟩),
      (0b0_00_00_000_0_000_01_1010101_00001_00011110_00000000_00000000_0000_00_00000000,
        .vsqrt ⟨false, 0, 0, 0, false, 0, 1⟩ ⟨1, 30, 0, 0, 0, 0, 0⟩),
      (0b0_00_00_000_0_000_01_1010110_00010_00011101_00000000_00000000_0000_00_00000000,
        .vrsq ⟨false, 0, 0, 0, false, 0, 1⟩ ⟨2, 29, 0, 0, 0, 0, 0⟩),
      (0b0_00_00_000_0_000_01_1010111_00011_00011100_00000000_00000000_0000_00_00000000,
        .vexp2 ⟨false, 0, 0, 0, false, 0, 1⟩ ⟨3, 28, 0, 0, 0, 0, 0⟩),
      (0b0_00_00_000_0_000_01_1011000_00100_00011011_00000000_00000000_0000_00_00000000,
        .vlog2 ⟨false, 0, 0, 0, false, 0, 1⟩ ⟨4, 27, 0, 0, 0, 0, 0⟩),
      (0b0_00_00_000_0_000_01_1011001_00011_00000001_01110011_00000000_0000_00_00000000, /- * -/
        .vcvt ⟨false, 0, 0, 0, false, 0, 1⟩ ⟨3, 1, 115, 0, 0, 0, 0⟩),
      (0b0_00_00_000_0_000_01_1011010_00011_00000001_01000100_00000000_0010_00_00000000,
        .vqmx ⟨false, 0, 0, 0, false, 0, 1⟩ ⟨3, 1, 68, 0, 2, 0, 0⟩),
      (0b0_00_00_000_0_000_01_1011011_00011_00000001_00000000_00000000_0001_00_00000000,
        .vtbl ⟨false, 0, 0, 0, false, 0, 1⟩ ⟨3, 1, 0, 0, 1, 0, 0⟩),
      (0b0_00_00_000_0_000_01_1011100_00011_01001100_00000000_00000000_0001_00_00000000,
        .vtblw ⟨false, 0, 0, 0, false, 0, 1⟩ ⟨3, 76, 0, 0, 1, 0, 0⟩),
      (0b0_00_00_000_0_000_01_1011101_00011_01001000_11111111_00000000_0000_00_00000000,
        .vrotr ⟨false, 0, 0, 0, false, 0, 1⟩ ⟨3, 72, 255, 0, 0, 0, 0⟩),
      (0b0_00_00_000_0_000_01_1011110_00011_00000001_11000100_00000000_0000_00_00000000,
        .vrotc ⟨false, 0, 0, 0, false, 0, 1⟩ ⟨3, 1, 196, 0, 0, 0, 0⟩),
      (0b0_00_00_000_0_000_01_1011111_00011_10000001_11100111_00000000_0011_00_00000000,
        .vbcr ⟨false, 0, 0, 0, false, 0, 1⟩ ⟨3, 129, 231, 0, 3, 0, 0⟩),
      (0b0_00_00_000_0_000_01_1100000_00011_11000001_11100000_00000000_1010_00_00000000,
        .vbcc ⟨false, 0, 0, 0, false, 0, 1⟩ ⟨3, 193, 224, 0, 10, 0, 0⟩),
      (0b0_00_00_001_0_000_01_1100001_00100_00000011_00000000_00000000_0000_00_00000000, /- * -/
        .vredr ⟨false, 0, 0, 1, false, 0, 1⟩ ⟨4, 3, 0, 0, 0, 0, 0⟩),
      (0b0_00_00_000_0_000_01_1100010_00100_00000011_00000010_00000000_0101_00_00000000,
        .vredc ⟨false, 0, 0, 0, false, 0, 1⟩ ⟨4, 3, 2, 0, 5, 0, 0⟩),
      (0b0_00_00_000_0_000_01_1100011_00100_00000011_00000000_00000000_1000_00_00000000,
        .vscanr ⟨false, 0, 0, 0, false, 0, 1⟩ ⟨4, 3, 0, 0, 8, 0, 0⟩),
      (0b0_00_00_000_0_000_01_1100100_00000_00011111_00000000_00000000_1001_01_01101111,
        .vtrb ⟨false, 0, 0, 0, false, 0, 1⟩ ⟨0, 31, 0, 0, 9, 1, 111⟩),
      (0b0_00_00_000_0_000_01_1100101_00000_10000000_00000000_01001011_0001_01_10000000,
        .vmov ⟨false, 0, 0, 0, false, 0, 1⟩ ⟨0, 128, 0, 75, 1, 1, 128⟩),
      (0b0_00_00_000_0_000_01_1100110_00001_00000100_11100001_00000000_0000_00_00000000, /- * -/
        .vspl ⟨false, 0, 0, 0, false, 0, 1⟩ ⟨1, 4, 225, 0, 0, 0, 0⟩),
      (0b0_00_00_000_0_000_01_1100111_00001_11100000_00000000_00000000_0011_00_00000000, /- * -/
        .viota ⟨false, 0, 0, 0, false, 0, 1⟩ ⟨1, 224, 0, 0, 3, 0, 0⟩),
      (0b0_00_00_000_0_000_01_1101000_00000_00000100_11000000_01001110_0000_00_00000000,
        .vext ⟨false, 0, 0, 0, false, 0, 1⟩ ⟨0, 4, 192, 78, 0, 0, 0⟩),
      (0b0_00_00_000_0_000_01_1101001_00100_01001100_11111111_00000000_0011_00_00000000,
        .vins ⟨false, 0, 0, 0, false, 0, 1⟩ ⟨4, 76, 255, 0, 3, 0, 0⟩)] : List (Word × Instr)).all (fun p => decide (decode p.1 = .ok p.2)) = true := by decide +kernel

/-- R58, R75, R83, R87, R239: words written out field by field (those marked * stand in the spec as hexadecimal words). -/
theorem test_decode_matrix :
    ([(0b0_00_00_000_0_000_10_1000000_001_00000_10000010_0110_01_00_011_1000000_00_0_00_0000, /- * -/
        .mld ⟨false, 0, 0, 0, false, 0, 2⟩ ⟨1, 0, 130, 6, 1, 0, 3, 64, 0, false, 0⟩),
      (0b0_00_00_000_0_000_10_1000000_001_00000_10000000_0000_00_00_000_1000000_00_0_00_0000, /- * -/
        .mld ⟨false, 0, 0, 0, false, 0, 2⟩ ⟨1, 0, 128, 0, 0, 0, 0, 64, 0, false, 0⟩),
      (0b0_00_00_000_0_000_10_1000001_001_00000_10000011_0100_10_01_000_1000000_00_1_10_0000, /- * -/
        .mlds ⟨false, 0, 0, 0, false, 0, 2⟩ ⟨1, 0, 131, 4, 2, 1, 0, 64, 0, true, 2⟩),
      (0b0_00_00_000_0_000_10_1000010_001_00000_00000000_0000_00_00_000_1000000_00_0_00_0000, /- * -/
        .mswap ⟨false, 0, 0, 0, false, 0, 2⟩ ⟨1, 0, 0, 0, 0, 0, 0, 64, 0, false, 0⟩),
      (0b0_00_00_000_0_000_10_1000011_001_00010_10000000_0000_00_00_000_1000000_01_0_00_0000, /- * -/
        .mma ⟨false, 0, 0, 0, false, 0, 2⟩ ⟨1, 2, 128, 0, 0, 0, 0, 64, 1, false, 0⟩),
      (0b0_00_00_000_0_000_10_1000011_001_00000_10000001_0000_00_00_000_0000010_00_0_00_0000, /- * -/
        .mma ⟨false, 0, 0, 0, false, 0, 2⟩ ⟨1, 0, 129, 0, 0, 0, 0, 2, 0, false, 0⟩),
      (0b0_00_00_000_0_000_10_1000100_001_00011_01001011_0100_00_01_000_0100000_01_0_10_0000, /- * -/
        .mmas ⟨false, 0, 0, 0, false, 0, 2⟩ ⟨1, 3, 75, 4, 0, 1, 0, 32, 1, false, 2⟩),
      (0b0_00_00_000_0_000_10_1000101_010_01010_00000000_0000_00_00_000_1000000_00_0_00_0000, /- * -/
        .mzero ⟨false, 0, 0, 0, false, 0, 2⟩ ⟨2, 10, 0, 0, 0, 0, 0, 64, 0, false, 0⟩),
      (0b0_00_00_000_0_000_10_1000110_110000_000011_000000_00000000_00000000000000000, /- * -/
        .manc ⟨false, 0, 0, 0, false, 0, 2⟩ ⟨48, 3, 0, 0⟩),
      (0b0_00_00_000_0_000_10_1000111_000_00000_01001100_0001_000_00_0_1_0000010_000000000, /- * -/
        .mdr ⟨false, 0, 0, 0, false, 0, 2⟩ ⟨0, 0, 76, 1, 0, 0, false, true, 2⟩),
      (0b0_00_00_000_0_000_10_1001000_010_00011_10000101_1101_100_01_0_0_1000000_000000000, /- * -/
        .mdrt ⟨false, 0, 0, 0, false, 0, 2⟩ ⟨2, 3, 133, 13, 4, 1, false, false, 64⟩),
      (0b0_00_00_000_0_000_10_1001001_000100_000000_000000_00000010_00000000000000000, /- * -/
        .mest ⟨false, 0, 0, 0, false, 0, 2⟩ ⟨4, 0, 0, 2⟩),
      (0b0_00_00_000_0_000_10_1001010_000010_000000_000000_00000000_00000000000000000, /- * -/
        .mstat ⟨false, 0, 0, 0, false, 0, 2⟩ ⟨2, 0, 0, 0⟩),
      (0b0_00_00_000_0_000_10_1001011_001_00001_00000100_0111_00_00_000_1000000_00_0_00_0000, /- * -/
        .mtblw ⟨false, 0, 0, 0, false, 0, 2⟩ ⟨1, 1, 4, 7, 0, 0, 0, 64, 0, false, 0⟩),
      (0b0_00_00_000_0_000_10_1001100_110000_000010_000000_00000000_00000000000000000, /- * -/
        .mtsc ⟨false, 0, 0, 0, false, 0, 2⟩ ⟨48, 2, 0, 0⟩)] : List (Word × Instr)).all (fun p => decide (decode p.1 = .ok p.2)) = true := by decide +kernel

/-- R58, R75, R79, R87: words written out field by field (those marked * stand in the spec as hexadecimal words). -/
theorem test_decode_record :
    ([(0b0_00_00_000_0_000_11_1000000_1111_101101_0000000000000000_00_000000000000001,
        .trec ⟨false, 0, 0, 0, false, 0, 3⟩ ⟨15, 45, 0, 0, 1⟩),
      (0b0_00_00_000_0_000_11_1000000_0100_101110_0000000000000000_00_000000000000000, /- * -/
        .trec ⟨false, 0, 0, 0, false, 0, 3⟩ ⟨4, 46, 0, 0, 0⟩),
      (0b0_00_00_000_0_000_11_1000001_0001_110000_0000000000000000_00_000100011001000, /- * -/
        .tupd ⟨false, 0, 0, 0, false, 0, 3⟩ ⟨1, 48, 0, 0, 2248⟩),
      (0b0_00_00_000_0_000_11_1000010_0100_000000_0000000000000000_00_000000000000000, /- * -/
        .tflsh ⟨false, 0, 0, 0, false, 0, 3⟩ ⟨4, 0, 0, 0, 0⟩),
      (0b0_00_00_000_0_000_11_1000011_000101_000000_000000_00000000_00000000000000000, /- * -/
        .dstat ⟨false, 0, 0, 0, false, 0, 3⟩ ⟨5, 0, 0, 0⟩)] : List (Word × Instr)).all (fun p => decide (decode p.1 = .ok p.2)) = true := by decide +kernel

/-! ## Witnesses -/

theorem witness_DecodingAnEncodedWordGivesItBack :
    (Instr.add hA ⟨1, 3, 2, 0⟩).wf = true ∧ (Instr.add hA ⟨1, 3, 2, 0⟩).hdr?.isSome = true ∧ (Instr.ill 0xDEADBEEF).wf = true := by decide

theorem witness_DecodedInstructionsHaveThatWord :
    decode 0xFFFFFFFFFFFFFFFF = .ok (.unassignedOpcodeWord 0xFFFFFFFFFFFFFFFF) ∧ decode 0x0000082184000000 = .ok (.add hA ⟨1, 3, 2, 0⟩) := by
  decide

/-- A machine whose agenda names the turn t. -/
def next_ (t : Turn) (s : State) : State := { s with md := { s.md with agenda := [t] } }

/-- The stream of s at its turn, as `StepRunsTheDecodedInstruction` takes it out; its word. -/
def fetches (s : State) (x : CtxRef) (st : Stream) : Option Word :=
  match (Mach.enter { s with md := { s.md with agenda := [], cur := x, curSt := st } }).1 with
  | none => none
  | some m =>
    match m.heldUp, m.fetchAt m.t.pc with
    | none, (.word w, _) => some w
    | _, _ => none

/-- A word, a word with SY and a word that is none, placed as the next to run; an event on the agenda. -/
theorem witness_StepRunsTheDecodedInstruction :
    let x : CtxRef := ⟨0, false⟩
    fetches (State.reset.placeWord 64 0x0000082184000000) x .A = some 0x0000082184000000 ∧
    notes .issued (step (State.reset.placeWord 64 0x0000082184000000)) = true ∧
    fetches (State.reset.placeWord 64 0x8000082184000000) x .A = some 0x8000082184000000 ∧
    notes .issued (step (State.reset.placeWord 64 0x8000082184000000)) = true ∧
    fetches (State.reset.placeWord 64 0xFFFFFFFFFFFFFFFF) x .D = some 0xFFFFFFFFFFFFFFFF ∧
    notes (.trapped 0x02) (step (State.reset.placeWord 64 0xFFFFFFFFFFFFFFFF)) = true ∧
    (step (next_ (.event .idcode) State.reset) matches .next _) = true ∧
    State.reset.ctxs.all (fun p => p.2.rowMark.isNone && p.2.smask == ((tfind State.reset.ctxs p.1).map fun k => k.smask).getD 0) = true := by
  decide +kernel

/-- A word of another cluster, one that is not well formed, one with a stage outside a body; words without a head. -/
theorem witness_IllegalWordsTakeCause02 :
    (headB (at_ (.add hV ⟨1, 3, 2, 0⟩) fun k => { k with a := { k.a with regs := [] } }) hV).isSome = true ∧
    ([(.add hA ⟨1, 3, 2, 1⟩, hA), (.add { hA with ms := 7 } ⟨1, 3, 2, 0⟩, { hA with ms := 7 })] : List (Instr × Hdr)).all (fun p =>
      (headB (at_ p.1 id) p.2).isSome && notes (.trapped 0x02) (exec p.1 (at_ p.1 id))) = true ∧
    (let s := { at_ (.add hA ⟨1, 3, 2, 0⟩) id with md := { (at_ (.add hA ⟨1, 3, 2, 0⟩) id).md with curSt := .A } }
     (headB s hV).isSome && notes (.trapped 0x02) (exec (.add hV ⟨1, 3, 2, 0⟩) s) && notes (.trapped 0x02) (exec (.ill 0) s) &&
     notes (.trapped 0x02) (exec (.unassignedOpcodeWord 0xFFFFFFFFFFFFFFFF) s)) = true := by decide +kernel

theorem witness_PrivilegedWordsTakeCause04 :
    ([.eret hA ⟨0, 0, 0, 0⟩, .srr hA ⟨4, 0, 0x100 + 1⟩, .srw hA ⟨0, 4, 0x119⟩, .pkw hA ⟨3, 4, 0, 31⟩] : List Instr).all (fun i =>
      let s := at_ i fun k => { k with sr := { k.sr with pkmask := 0x7FFFFFFF } }
      (headB s hA).any (fun m => i.wf && !m.t.plev && privilegedAtU i m.k.sr.pkmask) && notes (.trapped 0x04) (exec i s)) = true := by
  decide +kernel

theorem witness_RendezvousWithAHaltedStreamTakesCause05 :
    let h := { hA with sy := true }
    let i := Instr.nop h ⟨0, 0, 0, 0⟩
    let s := at_ i fun k => { k with v := { k.v with halted := true }, sr := { k.sr with syncmask := 2 } }
    ((headB s h).any (fun m => m.checkWord i h == none && m.t.prog == none && m.partnerHalted) && notes (.trapped 0x05) (exec i s)) = true := by
  decide +kernel

/-- Words of each shape that wait: for an entry, for a token, for a slot, for a register that a load will write. -/
theorem witness_ABlockedWordTakesNothing :
    ([(.add hA ⟨1, 35, 2, 0⟩, .queue), (.popc hA ⟨1, 35, 0, 0⟩, .queue), (.nop { hA with pb := 3 } ⟨0, 0, 0, 0⟩, .token),
      (.addi hA ⟨33, 1, 0⟩, .slot), (.brq hA ⟨35, 1⟩, .queue), (.ldg hA ⟨9, 1, 48, 0, 3, 0⟩, .register), (.sts hA ⟨35, 1, 48, 0, 3, 0⟩, .queue),
      (.satom hA ⟨33, 1, 2, 1, 3, 0⟩, .slot), (.vadd hV ⟨1, 0x48, 2, 0, 0, 0, 0⟩, .queue), (.mdr { hM with pb := 1 } ⟨0, 0, 0x4C, 1, 0, 0, false, true, 2⟩, .token),
      (.trec { hD with pb := 2 } ⟨4, 46, 0, 0, 0⟩, .token), (.cpym hA ⟨35, 2, 3, 0, 0, 0⟩, .queue), (.modl hA ⟨1, 1, 35⟩, .queue),
      (.qstat hA ⟨33, 0, 0, 1⟩, .slot), (.srw hA ⟨0, 35, 2⟩, .queue), (.gbar hA ⟨33, 0, 0, 0⟩, .slot), (.wadv hA ⟨33, 3, 0⟩, .slot),
      (.hbind hA ⟨1, 35, 0, 0, 0x20⟩, .queue), (.halt { hA with pb := 1 } ⟨0, 0, 0, 0⟩, .token)] : List (Instr × Why)).all (fun q =>
      let s := at_ q.1 fun k => { k with
        sq := [(1, List.replicate 16 (.full ⟨0, true⟩))]
        loads := [⟨0, 0, [⟨0, 8, 0, 0, .cached⟩], .plain 8 false, .reg 9, [(0, 8)], [], false⟩] }
      match q.1.hdr? with
      | none => false
      | some h => (headB s h).any (fun m => m.checkWord q.1 h == none && m.t.prog == none && !(h.sy && m.partnerHalted) &&
          m.blocked h (portsOf q.1) == some q.2) && notes (.waiting q.2) (exec q.1 s)) = true := by decide +kernel

/-- The stream A of `at_` with a changed level and vector. -/
def trapper (plev : Bool) (tvec : Word) : Option Mach :=
  (Mach.enter (at_ (.nop hA ⟨0, 0, 0, 0⟩) fun k => { k with a := { k.a with plev := plev, tvec := tvec } })).1

theorem witness_TrapEntrySavesAndGoesToTheHandler :
    (trapper false 0x20001).any (fun m => m.t.prog == none && !routeM 0x02 && !m.t.plev && bitAt m.t.tvec 0 &&
      (m.takeTrap 0x02 7 0x10000).t.pc == 0x20000 && (m.takeTrap 0x02 7 0x10000).t.cause == 2 && (m.takeTrap 0x02 7 0x10000).t.plev) = true := by
  decide +kernel

theorem witness_TrapsThatNoHandlerTakesEscalate :
    ((trapper true 0x20001).any (fun m => m.t.prog == none && !routeM 0x02 && m.t.plev && (m.takeTrap 0x02 7 0x10000).t.cause == 0x61) &&
     (trapper false 0x20000).any (fun m => m.t.prog == none && !bitAt m.t.tvec 0 && (m.takeTrap 0x11 7 0x10000).t.tval == 0x11) &&
     (trapper false 0x20001).any (fun m => routeM 0x62 && (m.takeTrap 0x62 7 0x10000).k.run == .stopping true)) = true := by decide +kernel

/-- Ports of a word with one scalar source. -/
def p1 (x : BitVec 6) : Ports := { Ports.none with srcs := [x] }

theorem witness_TrapAndEretWords :
    (runs (at_ (.trap hA ⟨0, 1, 7⟩) (regs [(1, 0xFFFF000000000009)])) (.trap hA ⟨0, 1, 7⟩) (p1 1) &&
     skips (at_ (.trap hN ⟨0, 1, 7⟩) id) (.trap hN ⟨0, 1, 7⟩) (p1 1) &&
     runs (at_ (.eret hA ⟨0, 0, 0, 0⟩) fun k => { k with a := { k.a with plev := true, epc := 0x10000 } }) (.eret hA ⟨0, 0, 0, 0⟩) Ports.none &&
     skips (at_ (.eret hN ⟨0, 0, 0, 0⟩) fun k => { k with a := { k.a with plev := true } }) (.eret hN ⟨0, 0, 0, 0⟩) Ports.none) = true := by
  decide +kernel

theorem witness_EveryStepKeepsMemoryCanonical :
    let s := State.reset.placeWord 64 0x0000082184000000
    (Memory.wf s.ms.mem && Memory.wf s.ms.spad && notes .issued (step s)) = true := by decide +kernel

theorem witness_AFrozenPackageKeepsItsState :
    let s := next_ (.event .idcode) { State.reset with frozen := true }
    (s.frozen && !s.off && (s.nextTurn).1 != .event .packageReset && (step s matches .next _)) = true := by decide +kernel

theorem witness_PowerOffStopsTheMachine :
    let s := next_ (.event .freeze) { State.reset with off := true }
    let t := next_ (.event .packageReset) { State.reset with off := true }
    (s.off && (s.nextTurn).1 != .event .packageReset && (step s matches .fault .stateLost) && (t.nextTurn).1 == .event .packageReset) = true := by
  decide +kernel

theorem witness_FetchOutsideTheTextTakesCause10 :
    let s := at_ (.nop hA ⟨0, 0, 0, 0⟩) fun k => { k with a := { k.a with pc := 0x10008 } }
    ((Mach.enter s).1.any (fun m => m.heldUp == none && !m.k.bd.inText m.st m.t.pc) &&
      notes (.trapped 0x10) (exec (.instructionFetchFault ⟨0, false⟩ .A) s)) = true := by decide +kernel

/-- Every word of a list on the operands o completes. -/
def all3 (o : S3) (p : S3 → Ports) (l : List (Hdr → S3 → Instr)) : Bool :=
  l.all fun c => runs (at_ (c hA o) (regs [(1, 0xFFFFFFFFFFFFFFFF), (2, 0)])) (c hA o) (p o)

theorem witness_ArithmeticWordsWriteTheirResult :
    all3 ⟨3, 1, 2, 0⟩ s3Ports [.add, .sub, .mul, .mulhi, .mulhis, .div, .divs, .rem, .rems] = true := by decide +kernel

theorem witness_LogicWordsWriteTheirResult :
    all3 ⟨3, 1, 2, 0⟩ s3Ports [.and, .or, .xor, .andn, .shl, .shr, .sra, .rol, .min, .mins, .max, .maxs] = true := by decide +kernel

theorem witness_ImmediateWordsWriteTheirResult :
    ([.addi, .andi, .ori, .xori, .shli, .shri, .srai, .lih].all (fun (c : Hdr → SI → Instr) =>
      runs (at_ (c hA ⟨3, 1, 63⟩) (regs [(1, 5)])) (c hA ⟨3, 1, 63⟩) (siPorts ⟨3, 1, 63⟩)) &&
     runs (at_ (.li hA ⟨3, 0, 0x7FFFFFFF⟩) id) (.li hA ⟨3, 0, 0x7FFFFFFF⟩) { Ports.none with dsts := [3] }) = true := by decide +kernel

theorem witness_BitFieldWordsWriteTheirResult :
    (all3 ⟨3, 1, 2, 63⟩ s3Ports [.bfx, .bfxs, .bfi, .fshl, .fshr] && all3 ⟨3, 1, 2, 0x40⟩ s3Ports [.fshl, .fshr] &&
     all3 ⟨3, 1, 0, 0⟩ s3Ports1 [.popc, .clz, .ctz, .brev]) = true := by decide +kernel

theorem witness_CompareAndGuardWords :
    let cmp : S3 := ⟨2, 0, 1, 0x32⟩
    let cmpm : S3 := ⟨2, 0, 1, 0x92⟩
    let ci : SI := ⟨2, 1, 0x0110000F⟩
    let cim : SI := ⟨2, 1, 0x0910000F⟩
    let g0 : S3 := ⟨3, 1, 2, 0x06⟩
    let g1 : S3 := ⟨3, 0, 0, 0x10⟩
    let g2 : S3 := ⟨0, 3, 0, 0x20⟩
    let sel : S3 := ⟨3, 1, 2, 0x0F⟩
    let off (i : Instr) (p : Ports) := skips (at_ i id) i p
    (runs (at_ (.cmp hA cmp) id) (.cmp hA cmp) { s3Ports cmp with grds := [3] } &&
     runs (at_ (.cmp hV cmpm) id) (.cmp hV cmpm) (s3Ports cmpm) &&
     runs (at_ (.cmpi hA ci) id) (.cmpi hA ci) { siPorts ci with grds := [1] } &&
     runs (at_ (.cmpi hV cim) id) (.cmpi hV cim) (siPorts cim) &&
     off (.cmp hN cmp) { s3Ports cmp with grds := [3] } && off (.cmpi hN ci) { siPorts ci with grds := [1] } && off (.gop hN g0) (gopPorts g0) &&
     [g0, g1, g2].all (fun o => runs (at_ (.gop hA o) id) (.gop hA o) (gopPorts o)) && off (.gop hN g1) (gopPorts g1) &&
     runs (at_ (.sel hA sel) id) (.sel hA sel) { s3Ports sel with grds := [7] }) = true := by decide +kernel

/-- A result for a register, for a queue, for the specifier that takes nothing. -/
theorem witness_ScalarResultsReachTheirDestinationAlone :
    ([⟨31, 1, 2, 0⟩, ⟨33, 1, 2, 0⟩, ⟨48, 1, 2, 0⟩] : List S3).all (fun o => runs (at_ (.add hA o) id) (.add hA o) (s3Ports o) &&
      skips (at_ (.add hN o) id) (.add hN o) (s3Ports o) && (s3Ports o).dsts.contains o.dst) &&
    ([⟨1, 48, 49, 0⟩, ⟨1, 35, 35, 0⟩] : List S3).all (fun o => runs (at_ (.add hA o) fun k => { k with sq := [(3, [.full ⟨1, true⟩, .full ⟨2, false⟩])] })
      (.add hA o) (s3Ports o)) = true := by decide +kernel

/-- A word that pops a token and two entries of one queue, and pushes tokens. -/
theorem witness_AWordChangesNothingBesideItsEffect :
    let i := Instr.add { hA with pb := 1, pa := 3 } ⟨33, 35, 35, 0⟩
    runs (at_ i fun k => { k with sq := [(3, [.full ⟨1, true⟩, .full ⟨2, false⟩])], tok := [(7, 1), (6, 1), (5, 1), (4, 1), (3, 1), (2, 1), (1, 1), (0, 1)] })
      i (s3Ports ⟨33, 35, 35, 0⟩) (fun _ a => a.vals == [1, 0]) = true := by decide +kernel
theorem witness_UnassignedOpcodes :
    ([(0, 0x74), (1, 0x6A), (2, 0x4D), (3, 0x44), (3, 0x7F)] : List (Nat × Nat)).all (fun p =>
      let w : Word := W (p.1 * 2 ^ 50 + p.2 * 2 ^ 43)
      bits w 50 2 == p.1 && bits w 43 7 == p.2 && decide (decode w = .ok (.unassignedOpcodeWord w))) = true := by decide +kernel


/-- Ports of a word with one destination; of one with one source and one destination. -/
def pd (x : BitVec 6) : Ports := { Ports.none with dsts := [x] }
@[inherit_doc pd] def p2 (x d : BitVec 6) : Ports := { Ports.none with srcs := [x], dsts := [d] }

/-- The word skips on a fresh context. -/
def skip (i : Instr) (p : Ports) (c : Mach → Opnds → Bool := fun _ _ => true) : Bool := skips (at_ i id) i p c

/-- Room for the record of an engine word. -/
def recRoom (opc : Nat) : Mach → Opnds → Bool := fun m _ => !producesRec opc || decide (m.k.recsOut (engOf opc) < recDepth (engOf opc))

theorem witness_WordsUnderAFalseGuard :
    let hM := { hM with gn := true }
    let hD := { hD with gn := true }
    let o : S3 := ⟨5, 1, 2, 0⟩
    let o1 : S3 := ⟨5, 1, 0, 0⟩
    let o0 : S3 := ⟨5, 0, 0, 0⟩
    let e : E := ⟨1, 2, 3, 0, 0, 0⟩
    let e2 : E := ⟨1, 2, 0, 0, 0, 0⟩
    let s2 : Ports := { Ports.none with srcs := [1, 2] }
    let d2 (fn : BitVec 8) : Ports := ports2 ⟨5, 6, 0, fn⟩
    let same (m : Mach) : Bool := decide (2 ≤ freeSlots 1 (m.k.sq? 1))
    let eq (i : Instr) (p : Ports) (opc : Nat) := skip i p fun m _ => m.k.eng.eqFail.isNone && recRoom opc (m.ctx Ctx.closeRun) ⟨false, [], true, [], []⟩
    (skip (.hstep hN ⟨1, 2, 0, 0, 0⟩) (p1 2) && skip (.hmark hN ⟨1, 0, 0, 3, 0⟩) Ports.none && skip (.hrew hN ⟨1, 0, 0, 3, 0⟩) Ports.none &&
     skip (.hbind hN ⟨1, 2, 0, 0, 0x20⟩) (p1 2) && skip (.hunb hN ⟨1, 0, 0, 0, 0⟩) Ports.none && skip (.tflsh hD ⟨4, 0, 0, 0, 0⟩) Ports.none &&
     skip (.mswap hM ⟨1, 0, 0, 0, 0, 0, 0, 64, 0, false, 0⟩) Ports.none && skip (.mzero hM ⟨2, 10, 0, 0, 0, 0, 0, 64, 0, false, 0⟩) Ports.none &&
     skip (.tksig hN ⟨0, 4, 0, 3⟩) (p1 4) &&
     skip (.topen hN o) (s3Ports o) && skip (.tseal hN o1) (s3Ports1 o1) && skip (.tstat hN o1) (s3Ports1 o1) && skip (.lbind hN o) (s3Ports o) &&
     skip (.acq hN o1) (s3Ports1 o1) && skip (.rel hN o1) (s3Ports1 o1) && skip (.waitw hN o1) (s3Ports1 o1) && skip (.gbar hN o0) (pd 5) &&
     skip (.wbind hN o) (s3Ports o) && skip (.wrel hN o0) (pd 5) && skip (.eva hN o1) (s3Ports1 o1) && skip (.wadv hN ⟨5, 1, 0⟩) (p2 1 5) &&
     skip (.satom hN ⟨3, 1, 4, 1, 3, 8⟩) (atomPorts ⟨3, 1, 4, 1, 3, 8⟩) && skip (.gatom hN ⟨33, 1, 4, 7 - 1, 3, 8⟩) (atomPorts ⟨33, 1, 4, 6, 3, 8⟩) &&
     skip (.ldw hN ⟨40, 1, 2, 0, 7, 0⟩) (loadPorts ⟨40, 1, 2, 0, 7, 0⟩) && skip (.ldw hN ⟨14, 1, 2, 0, 3, 0⟩) (loadPorts ⟨14, 1, 2, 0, 3, 0⟩) &&
     skip (.cpym hN e) (ePorts e) (recRoom 0x58) && skip (.cpys hN e) (ePorts e) (recRoom 0x59) && skip (.cgth hN e) (ePorts e) (recRoom 0x5A) &&
     skip (.csct hN e) (ePorts e) (recRoom 0x5B) && skip (.cpgi hN e2) s2 (recRoom 0x5C) && skip (.rput hN e) (ePorts e) (recRoom 0x5D) &&
     skip (.rget hN e) (ePorts e) (recRoom 0x5E) && skip (.gadd hN e2) s2 (recRoom 0x5F) && skip (.gred hN e) (ePorts e) (recRoom 0x62) &&
     skip (.gaxpy hN e) (ePorts e) (recRoom 0x63) && skip (.gamo hN e2) s2 (recRoom 0x60) &&
     skip (.gamo hN { e with fl := 0x118 }) { Ports.none with srcs := [1, 2, 3] } (recRoom 0x60) && skip (.gqop hN e2) s2 (recRoom 0x61) &&
     skip (.gfen hN ⟨0, 0, 0, 0, 0, 0⟩) Ports.none (recRoom 0x64) && skip (.spk hN e) (ePorts e) (recRoom 0x6E) && skip (.tkenq hN e2) s2 (recRoom 0x72) &&
     skip (.deq hN ⟨5, 6, 0, 2⟩) (d2 2) && skip (.evw hN ⟨5, 6, 0, 1⟩) (d2 1) && skip (.evq hN ⟨5, 6, 0, 1⟩) (d2 1) &&
     skip (.deq hN ⟨33, 33, 0, 2⟩) (ports2 ⟨33, 33, 0, 2⟩) (fun m _ => same m) && skip (.evw hN ⟨33, 33, 0, 1⟩) (ports2 ⟨33, 33, 0, 1⟩) (fun m _ => same m) &&
     skip (.evq hN ⟨33, 33, 0, 1⟩) (ports2 ⟨33, 33, 0, 1⟩) (fun m _ => same m) &&
     eq (.eqclr hN e2) s2 0x65 && eq (.equ hN e2) s2 0x66 && eq (.eqf hN e2) (p2 2 1) 0x67 && eq (.eqz hN e2) (p2 2 1) 0x68 &&
     eq (.eqz hN { e with fl := 0xA }) { Ports.none with srcs := [2, 3], dsts := [1] } 0x68 && eq (.eqsnp hN ⟨1, 0, 0, 0, 0, 0⟩) (pd 1) 0x6A &&
     eq (.eqund hN ⟨1, 0, 0, 0, 0, 0⟩) (p1 1) 0x6B && eq (.eqr hN { e2 with fl := 0x100 }) (eqrPorts { e2 with fl := 0x100 }) 0x69) = true := by
  decide +kernel

theorem witness_TransfersOfControl :
    let rs := regs [(1, 0x10000), (2, 0x10004)]
    let ok (i : Instr) (p : Ports) (c : Mach → Opnds → Bool) := runs (at_ i rs) i p c
    let trapIt (i : Instr) (p : Ports) := meets (.trapped 0x01) (at_ i rs) i p fun _ a => a.act && a.v 0 % 8 != 0
    let q (l : List (Slot QEnt)) (k : Ctx) : Ctx := { k with sq := [(3, l)] }
    (ok (.br hA ⟨48, 0x7FFFFFFF⟩) Ports.none (fun m _ => (m.t.pc + 8 * (0x7FFFFFFF : BitVec 31).signExtend 64) % 8 == 0) &&
     skip (.br hN ⟨48, 1⟩) Ports.none && ok (.call hA ⟨31, 1⟩) (pd 31) (fun m _ => m.t.pc % 8 == 0) && skip (.call hN ⟨31, 1⟩) (pd 31) &&
     ok (.ret hA ⟨1, 0⟩) (p1 1) (fun _ a => a.v 0 % 8 == 0) && skip (.ret hN ⟨2, 0⟩) (p1 2) && trapIt (.ret hA ⟨2, 0⟩) (p1 2) &&
     ok (.jmpr hA ⟨1, 3⟩) (p1 1) (fun _ a => a.v 0 % 8 == 0) && skip (.jmpr hN ⟨2, 3⟩) (p1 2) && trapIt (.jmpr hA ⟨2, 3⟩) (p1 2) &&
     (let i := Instr.brq hA ⟨35, 1⟩
      runs (at_ i (q [.full ⟨2, true⟩])) i (p1 35) (fun _ a => a.valid && a.v 0 != 0) &&
      runs (at_ i (q [.full ⟨0, true⟩])) i (p1 35) (fun _ a => a.v 0 == 0) && runs (at_ i (q [.full ⟨2, false⟩])) i (p1 35) (fun _ a => !a.valid)) &&
     skips (at_ (.brq hN ⟨35, 1⟩) (q [.full ⟨2, true⟩])) (.brq hN ⟨35, 1⟩) (p1 35)) = true := by decide +kernel

/-- A body of one word, which is the text of the stream behind MODL; a trip of 2 and one of 0. -/
theorem witness_ModuloLoopsStart :
    let i := Instr.modl hA ⟨1, 1, 5⟩
    let s (n : Word) : State :=
      let s := at_ i fun k => { (regs [(5, n)] k) with bd := { k.bd with textSize := [(0, 16)] } }
      s.mem fun m => { m with mem := memWrite m.mem (hbmBase + 8) (bytesOfWord (encode (.nop hA ⟨0, 0, 0, 0⟩))) }
    (runs (s 2) i (p1 5) (fun m a => (m.checkBody 1 (m.t.pc + 8) 0 matches .ok 0) && a.v 0 != 0) &&
     runs (s 0) i (p1 5) (fun m a => (m.checkBody 1 (m.t.pc + 8) 0 matches .ok 0) && a.v 0 == 0) &&
     (let t := at_ i fun k => { (regs [(5, 2)] k) with bd := { k.bd with textSize := [(0, 8)] } }
      meets (.trapped 0x03) t i (p1 5) fun m _ => !m.k.bd.inText m.st (m.t.pc + 8) && (m.checkBody 1 (m.t.pc + 8) 0 matches .trap 0x03 _)) &&
     ([0xFFFFFFFFFFFFFFFF, 0x00000000DEADBEEF, encode i, encode (.nop hV ⟨0, 0, 0, 0⟩), encode (.srr hA ⟨1, 0, 0x101⟩)] : List Word).all (fun w =>
       let t := (s 2).mem fun m => { m with mem := memWrite m.mem (hbmBase + 8) (bytesOfWord w) }
       meets (.trapped 0x03) t i (p1 5) fun m _ => m.k.bd.inText m.st (m.t.pc + 8) && ((m.fetchAt (m.t.pc + 8)).1 matches .word _) &&
         (m.checkBody 1 (m.t.pc + 8) 0 matches .trap 0x03 _))) = true := by decide +kernel

theorem witness_StateReadingWords :
    let o : S3 := ⟨3, 4, 0, 5⟩
    let grouped (s : State) : State := { s with md := { s.md with view := (s.ctx? ⟨0, false⟩).map fun k => { k with tok := [(0, 1)] } } }
    (runs (grouped (at_ (.qstat { hA with pb := 1 } ⟨33, 0, 0, 3⟩) fun k => { k with tok := [(6, 1), (0, 1), (2, 1), (4, 1), (3, 1), (5, 1), (1, 1), (7, 1)] })) (.qstat { hA with pb := 1 } ⟨33, 0, 0, 3⟩) (pd 33)
       (fun m _ => m.s.md.view.any fun k => k.a.owed == 0) &&
     runs (at_ (.qstat hA ⟨4, 0, 0, 3⟩) id) (.qstat hA ⟨4, 0, 0, 3⟩) (pd 4) && runs (at_ (.srr hA ⟨4, 0, 2⟩) id) (.srr hA ⟨4, 0, 2⟩) (pd 4) &&
     runs (at_ (.srr hA ⟨4, 0, 0xA⟩) id) (.srr hA ⟨4, 0, 0xA⟩) (pd 4) && skip (.srr hN ⟨4, 0, 0xA⟩) (pd 4) &&
     runs (at_ (.pkw hA o) id) (.pkw hA o) (s3Ports1 o) && skip (.pkw hN o) (s3Ports1 o) && decide (State.reset.md.timeSeen ≤ State.reset.time)) = true := by decide +kernel

/-- Ports of SRW, as its statement gives them. -/
def srwPorts (o : SI) : Ports := { Ports.none with srcs := [o.s1], resumes := fun p => o.srIndex == 0x107 && p.k == 0 && p.n == 0 }

theorem witness_SpecialRegisterWrites :
    let o (n : BitVec 31) : SI := ⟨0, 4, n⟩
    let s (i : Instr) (tst : Bool) (v : Word) := at_ i fun k => { (regs [(4, v)] k) with sr := { k.sr with tst := tst }, a := { (regs [(4, v)] k).a with plev := true } }
    let clear : Mach → Bool := fun m => !m.k.eqBusy && !m.k.eng.running
    ((([2, 0x104, 0x21, 0x119] : List (BitVec 31)).all fun n =>
        runs (s (.srw hA (o n)) false 9) (.srw hA (o n)) (srwPorts (o n)) (fun m _ => clear m && (o n).srIndex != 0x107)) &&
     skips (s (.srw hN (o 2)) false 9) (.srw hN (o 2)) (srwPorts (o 2)) (fun m _ => clear m) &&
     runs (s (.srw hA (o 0x107)) false 9) (.srw hA (o 0x107)) (srwPorts (o 0x107)) (fun m _ => !m.k.sr.tst) &&
     runs (s (.srw hA (o 0x107)) true 9) (.srw hA (o 0x107)) (srwPorts (o 0x107)) (fun m a => m.k.sr.tst && !bitAt (a.v 0) 63)) = true := by
  decide +kernel

theorem witness_StreamControlWords :
    let z : S3 := ⟨0, 0, 0, 0⟩
    let full (k : Ctx) : Bool := k.roomFor [0, 7]
    (runs (at_ (.nop hA z) id) (.nop hA z) Ports.none && runs (at_ (.yield hA z) id) (.yield hA z) Ports.none && skip (.yield hN z) Ports.none &&
     runs (at_ (.wait hA ⟨0, 48, 0⟩) id) (.wait hA ⟨0, 48, 0⟩) (p1 48) && runs (at_ (.wait hA ⟨0, 48, 0xFFFFFFF⟩) id) (.wait hA ⟨0, 48, 0xFFFFFFF⟩) (p1 48) &&
     runs (at_ (.wait hA ⟨0, 0, 0x10000000⟩) id) (.wait hA ⟨0, 0, 0x10000000⟩) Ports.none (fun m _ => m.drained) &&
     skip (.wait hN ⟨0, 48, 5⟩) (p1 48) && skip (.wait hN ⟨0, 0, 0x10000000⟩) Ports.none && skip (.halt { hV with gn := true } z) haltPorts (fun m _ => m.st != .A) &&
     skip (.halt hN z) haltPorts (fun m _ => m.st == .A && m.k.eng.eqFail.isNone) &&
     runs (at_ (.halt hV z) id) (.halt hV z) haltPorts (fun m _ => m.drained && full m.k && m.st != .A) &&
     runs (at_ (.halt hA z) id) (.halt hA z) haltPorts (fun m _ => m.drained && full m.k && m.st == .A && m.k.eng.eqFail.isNone)) = true := by
  decide +kernel

theorem witness_HardWiredState : (StreamSt.init 0 0).inBody = false := by decide

/-- The V word i completes on s; c holds of the operands it reads. -/
def runsV (s : State) (i : Instr) (o : V3) (fs : List VField) (three rowsOnly : Bool) (c : Mach → VIn → Bool := fun _ _ => true) : Bool :=
  match i.hdr? with
  | none => false
  | some h =>
    match turnB s i h (v3Ports fs o three) with
    | none => false
    | some m =>
      match (m.taken h (v3Ports fs o three)).vOperands h o fs rowsOnly (m.opnds h (v3Ports fs o three)) with
      | none => false
      | some (m1, v) => c m1 v && notes .issued (exec i s)

/-- v1 holds l in lane l of every row; a row stands in q8. -/
def vecs (k : Ctx) : Ctx :=
  let x : Row := (upTo 64).map fun l => BitVec.ofNat 32 l
  { k with vec := { k.vec with regs := (upTo 16).map fun r => (16 + r, x) }, rq := [(8, [.full ⟨x, BitVec.allOnes 64⟩])] }

/-- An element-wise word of n sources, on registers, completes. -/
def elem (n ty : Nat) (c : Hdr → V3 → Instr) (o : V3) (q : Bool := false) : Bool :=
  let fs := vfN n o ty
  let i := c hV o
  runsV (at_ i vecs) i o fs (n == 3) (rowShaped fs o (n == 3)) fun m _ => trapsOn m.t.fpmode 0x1F == q

theorem witness_VectorArithmeticCompletes :
    (([.vadd, .vsub, .vmul, .vmin, .vmax] : List (Hdr → V3 → Instr)).all (fun c =>
      elem 2 3 c ⟨2, 1, 1, 0, 3, 0, 0⟩ && elem 2 0 c ⟨0, 0x48, 1, 0x49, 0, 0, 0⟩) &&
     ([.vfma, .vfms] : List (Hdr → V3 → Instr)).all (fun c => elem 3 8 c ⟨2, 1, 1, 1, 8, 0, 0⟩ && elem 3 2 c ⟨0, 0x48, 1, 0xE1, 2, 0, 0⟩)) = true := by
  decide +kernel

theorem witness_VectorCodeWordsComplete :
    (([.vand, .vor, .vxor, .vshl, .vshr, .vsra] : List (Hdr → V3 → Instr)).all (fun c => elem 2 5 c ⟨0, 0x48, 1, 0x49, 5, 0, 0⟩) &&
     ([.vabs, .vneg] : List (Hdr → V3 → Instr)).all (fun c => elem 1 3 c ⟨0, 0x48, 0, 0x49, 3, 0, 0⟩) &&
     ([.vrcp, .vsqrt, .vrsq, .vexp2, .vlog2] : List (Hdr → V3 → Instr)).all (fun c => elem 1 0 c ⟨0, 0x48, 0, 0x49, 0, 0, 0⟩) &&
     elem 1 1 .vtbl ⟨0, 0x48, 0, 0x49, 1, 0, 0⟩ &&
     elem 1 0 .vcvt ⟨0, 0x48, 0x10, 0x49, 3, 0, 0⟩ && elem 1 0 .vcvt ⟨0, 0x48, 0x40, 0x49, 1, 0, 0⟩) = true := by decide +kernel

theorem witness_VectorMaskWordsComplete :
    let vc : V3 := ⟨9, 0x48, 1, 0, 3, 0, 0⟩
    let ko : V3 := ⟨7, 6, 0x65, 0, 0, 0, 0⟩
    let kp : V3 := ⟨15, 1, 0, 0, 0, 0, 0⟩
    let km : V3 := ⟨1, 0x48, 0, 0, 9, 0, 0⟩
    let vs : V3 := ⟨4, 1, 0x48, 0, 3, 0, 0⟩
    (elem 2 3 .vcmp vc && runs (at_ (.kop hV ko) vecs) (.kop hV ko) Ports.none &&
     runs (at_ (.kpop hV kp) vecs) (.kpop hV kp) Ports.none (fun m _ => m.active hV) && elem 1 9 .kmov km && elem 2 3 .vsel vs &&
     (let i := Instr.vsel { hV with gn := true } vs
      runsV (at_ i vecs) i vs (vfN 2 vs 3) false (rowShaped (vfN 2 vs 3) vs false))) = true := by
  decide +kernel

theorem witness_VectorMovesComplete :
    let wide (c : Hdr → V3 → Instr) (o : V3) := let i := c hV o; runsV (at_ i vecs) i o (vf1 o o.ty.toNat) false false
    (elem 1 3 .vrotr ⟨0, 0x48, 0xFF, 0x49, 3, 0, 0⟩ && wide .vrotc ⟨2, 1, 0xE1, 0, 3, 0, 0⟩ && elem 1 3 .vbcr ⟨0, 0x48, 0xC1, 0x49, 3, 0, 0⟩ &&
     wide .vbcc ⟨2, 1, 0xEF, 0, 3, 0, 0⟩ && wide .vtrb ⟨2, 1, 0, 0, 9, 0, 0⟩ && elem 1 3 .vmov ⟨0, 0x48, 0, 0x49, 3, 0, 0⟩ &&
     wide .vext ⟨0, 1, 0xE3, 0x49, 3, 0, 0⟩ && wide .vspl ⟨1, 1, 0xE3, 0, 3, 0, 0⟩ &&
     (let o : V3 := ⟨2, 0x48, 0xE3, 0, 3, 0, 0⟩
      runsV (at_ (.vins hV o) vecs) (.vins hV o) o (vf1 o 3) false true) &&
     (let o : V3 := ⟨0, 0xE0, 0, 0x49, 3, 0, 0⟩
      runsV (at_ (.viota hV o) vecs) (.viota hV o) o [] false (v3Pushes o)) &&
     (let o : V3 := ⟨3, 0x48, 0, 0, 1, 0, 0⟩
      runsV (at_ (.vtblw hV o) vecs) (.vtblw hV o) o (vf1 o 1) false true)) = true := by decide +kernel

theorem witness_VectorReductionsComplete :
    let wide (c : Hdr → V3 → Instr) (o : V3) := let i := c hV o; runsV (at_ i vecs) i o (vf1 o o.ty.toNat) false false
    (elem 1 3 .vredr ⟨0, 0x48, 0, 0x49, 3, 0, 0⟩ && elem 1 0 .vredr ⟨0, 0x48, 2, 0x49, 0, 0, 0⟩ && wide .vredc ⟨2, 1, 0, 0, 3, 0, 0⟩ &&
     elem 1 3 .vscanr ⟨0, 0x48, 1, 0x49, 3, 0, 0⟩ && elem 1 0 .vqmx ⟨0, 0x48, 4, 0x49, 0, 0, 0⟩) = true := by decide +kernel

/-- A destination register with a block's 16 rows of 64 lanes; a queue destination; operands without heads. -/
theorem witness_VectorOperandsAndResultsReachTheirPlaceAlone :
    let k := vecs (Ctx.init (Binding.forWord .V) false 0 false 0 (fun _ => 0) (fun _ => 0))
    ((upTo 16).all (fun r => (k.vec.row 31 r).length == 64 && (k.vec.row 1 r).length == 64) && (List.replicate 16 zeroRow).length == 16 &&
     v3Pushes ⟨0, 0x48, 0, 0x49, 3, 0, 0⟩ && (vf2 ⟨0, 0x48, 0xC1, 0x49, 3, 0, 0⟩ 3).all (fun f => !vIsHead f.spec)) = true := by decide +kernel

/-- A leaf of a 2 MiB page of HBM at 0x200000 with every right and its bits of R418 set (R414), and the device with that page held,
its caches taking nothing in. -/
def leaf : Word := 0x7E000080002001F7
@[inherit_doc leaf] def dev (s : State) : State :=
  ([0xA0000, 0xB0000, 0xB0008, 0xB0010, 0xB0018].foldl (fun (s : State) r => s.setReg r 0) s).mem fun m =>
    { m with coreTlb := ⟨0, 0, 0x200000, 0x200000, leaf, hbmBase + 0x1000⟩ :: m.coreTlb }
/-- Words at an address of that page. -/
def put (va : Nat) (ws : List Word) (s : State) : State :=
  s.mem fun m => { m with mem := memWrite m.mem (hbmBase + va) (ws.flatMap bytesOfWord) }
/-- Tape 1 of BF16 rows in a state, its directory at 0x200000, its records at 0x210000. -/
def tape (state len recorded nheads : Nat) (s : State) : State :=
  put 0x201000 [0x210000] (put 0x200080 [W (7 + 16 + state * 2 ^ 13), W len, W recorded, 128, 0x201000, 16, 0, 0, 0, W nheads] (dev s))
/-- The directory register of the context, and heads on tape 1, each with its page translated and the record it stands on in its
flue: a reader stands on record 1, any other head on record 0. -/
def onTape (l : List (Nat × Stream × HMode)) (k : Ctx) : Ctx :=
  { k with sr := { k.sr with tdir := W (0x200000 + 4 * 2 ^ 58) }
           heads := l.map fun p => (p.1, { Head.fresh 1 p.2.1 false p.2.2 (if p.2.2 = .read then 1 else 0) with
             cur := some ⟨0, 0x210000, (0, 0x201000), 0x200000, 0x200000, leaf, hbmBase + 0x1000⟩
             flue := if p.2.2 = .recorder then [] else [⟨if p.2.2 = .read then 1 else 0, List.replicate 128 0, false, [], [], 0⟩] }) }
/-- The word i on tape 1 in a state with heads. -/
def onT (i : Instr) (state len recorded : Nat) (l : List (Nat × Stream × HMode)) : State := tape state len recorded l.length (at_ i (onTape l))

theorem witness_HeadWords :
    let s (i : Instr) := onT i 3 4 4 [(1, .V, .read)]
    let owned : Mach → Bool := fun m => (m.k.head 1).bound && (m.k.head 1).owner == m.st && (m.k.head 1).mode != .recorder
    let ok (i : Instr) (p : Ports) := runs (s i) i p fun m _ => owned m
    (ok (.hstep hV ⟨1, 2, 0, 0, 0⟩) (p1 2) && ok (.hstep hV ⟨1, 48, 0xFFFF, 0, 0⟩) (p1 48) && ok (.hmark hV ⟨1, 0, 0, 3, 0⟩) Ports.none &&
     ok (.hrew hV ⟨1, 0, 0, 3, 0⟩) Ports.none && runs (s (.hstat hV ⟨1, 10, 0, 3, 2⟩)) (.hstat hV ⟨1, 10, 0, 3, 2⟩) (pd 10) &&
     meets (.trapped 0x20) (s (.hmark hV ⟨2, 0, 0, 3, 0⟩)) (.hmark hV ⟨2, 0, 0, 3, 0⟩) Ports.none (fun m _ => !(m.k.head 2).bound) &&
     meets (.trapped 0x20) (s (.hmark hA ⟨1, 0, 0, 3, 0⟩)) (.hmark hA ⟨1, 0, 0, 3, 0⟩) Ports.none (fun m _ => (m.k.head 1).owner != m.st)) = true := by
  decide +kernel

theorem witness_TapeWords :
    let r1 (s : State) : State := { s with ctxs := s.ctxs.map fun p => (p.1, regs [(1, 1), (6, 0x220000), (7, 2)] p.2) }
    let hb (fl : BitVec 15) : H := ⟨2, 1, 0, 0, fl⟩
    let bind (o : H) (state : Nat) := runs (r1 (onT (.hbind hA o) state 4 4 [])) (.hbind hA o) (p1 1) fun m a =>
      match m.s.tapeEntry m.core m.k (a.v 0).toNat true with
      | (.ok d _, _) => m.k.loadsDone && !(m.k.head 2).bound && (d.state == 3 || (d.state == 2 && !(hMode o == .rmw || hMode o == .overwrite))) &&
          m.bindFits (a.v 0).toNat (hMode o == .rmw || hMode o == .overwrite)
      | _ => false
    let sealing (fn : BitVec 8) (state : Nat) (l : List (Nat × Stream × HMode)) :=
      let i := Instr.tseal hA ⟨5, 1, 0, fn⟩
      runs (r1 (onT i state 4 2 l)) i (p2 1 5) fun m a =>
        match m.s.tapeEntry m.core m.k (a.v 0).toNat true with
        | (.ok d _, _) => d.sealFault (fn.toNat % 4) (fn.getLsbD 2) (m.tapeBound (a.v 0).toNat) == none && (d.state != 1 || (!m.close.writesTo m.k.bd.vdev (a.v 0).toNat &&
            m.k.released))
        | _ => false
    (bind (hb 0x20) 2 && bind (hb 0x6C) 3 && runs (onT (.hunb hA ⟨1, 0, 0, 0, 0⟩) 3 4 4 [(1, .V, .read)]) (.hunb hA ⟨1, 0, 0, 0, 0⟩) Ports.none &&
     sealing 5 3 [] && sealing 2 2 [] && sealing 1 1 [(1, .D, .recorder)] && sealing 2 1 [(1, .D, .recorder)] &&
     (let i := Instr.tstat hA ⟨4, 1, 0, 5⟩
      runs (r1 (onT i 2 4 4 [])) i (p2 1 4) fun m a => (m.s.tapeEntry m.core m.k (a.v 0).toNat false).1 matches .ok _ _) &&
     (let i := Instr.topen hA ⟨5, 6, 7, 0⟩
      runs (put 0x220000 [W 23, 4, 0, 0, 0x201000, 16, 0, 0, 0, 0] (r1 (onT i 2 4 4 []))) i (s3Ports ⟨5, 6, 7, 0⟩) fun m a =>
        match m.s.look m.core m.k (a.v 0) m.k.needLd with
        | (.ok t, s1) => bits (a.v 1) 5 59 == 0 && (a.v 0).toNat % 128 == 0 && !s1.expDead t.pa && m.k.stores.isEmpty && m.k.loads.isEmpty &&
            (match s1.pathBytes t.path t.acc t.pa 128 with
             | (bytes, false, s2) => (Desc.ofWords ((chunks 8 bytes 16).map fun b => W (leNat b))).imageOk && !(m.k.head (bits (a.v 1) 0 4)).bound &&
                ((s2.freeEntry m.core m.k (2 ^ bits m.k.sr.tdir 58 5) 1).1 matches .at_ 2 _)
             | _ => false)
        | _ => false)) = true := by decide +kernel

theorem witness_RecorderWords :
    let row : RowEnt := ⟨zeroRow, BitVec.allOnes 64⟩
    let q (s : State) : State := { s with ctxs := s.ctxs.map fun p => (p.1, { p.2 with rq := [(14, [.full row])] }) }
    let hN := { hD with gn := true }
    let trec : H := ⟨1, 46, 0, 0, 0⟩
    let rec_ (h : Hdr) (c : Mach → Opnds → Bool) := meets .issued (q (onT (.trec h trec) 1 4 2 [(1, .D, .recorder)])) (.trec h trec) dPorts fun m a =>
      let m0 := m.ctx fun k => { k with dpopped := [] }
      let d := m0.tapeOf (m0.k.head 1).handle
      m0.recorderBad 1 == none && d.sp == 0 && 0 < present (m0.k.rq? 14) &&
        ((m0.ctx (Ctx.popHeld 14 (d.entries false) (d.entries false))).k.dpopped.length == d.entries false) && c m0 a
    let up (h : Hdr) (o : H) (mode : HMode) (c : Mach → Opnds → Bool) :=
      meets .issued (q (onT (.tupd h o) 3 4 4 [(1, .D, mode), (2, .D, .read)])) (.tupd h o) dPorts c
    let ready (o : H) (m : Mach) : Bool := m.tupdBad o true == none && (m.tupdReady o (m.tapeOf (m.k.head 1).handle) matches .ok _)
    (rec_ hD (fun m a => a.act && decide ((m.tapeOf 1).recorded < (m.tapeOf 1).len) && (m.canWrite 1 (m.tapeOf 1) (m.tapeOf 1).recorded matches .ok _ _)) &&
     rec_ hN (fun _ a => !a.act) &&
     up hD ⟨1, 48, 0, 0, 8⟩ .overwrite (fun m a => a.act && ready ⟨1, 48, 0, 0, 8⟩ m && (m.headUse 2 true (fun _ => true) matches .ok (.record _ 1)) &&
       decide (m.k.sr.dtid.toNat < 256)) &&
     up hD ⟨1, 48, 0, 0, 0x408⟩ .rmw (fun m a => a.act && ready ⟨1, 48, 0, 0, 0x408⟩ m && trapsOn m.t.fpmode 0x1F == false) &&
     up hD ⟨1, 46, 0, 0, 0⟩ .overwrite (fun m a => a.act && ready ⟨1, 46, 0, 0, 0⟩ m) &&
     up hN ⟨1, 48, 0, 0, 8⟩ .overwrite (fun m a => !a.act && m.tupdBad ⟨1, 48, 0, 0, 8⟩ false == none) &&
     runs (onT (.tflsh hD ⟨1, 0, 0, 0, 0⟩) 1 4 2 [(1, .D, .recorder)]) (.tflsh hD ⟨1, 0, 0, 0, 0⟩) Ports.none
       (fun m _ => (m.k.head 1).bound && (m.k.head 1).owner == .D && m.k.hwrites.isEmpty) &&
     runs (at_ (.tflsh hD ⟨0, 0, 0, 0, 1⟩) id) (.tflsh hD ⟨0, 0, 0, 0, 1⟩) Ports.none &&
     runs (at_ (.dstat hD ⟨5, 0, 0, 2⟩) id) (.dstat hD ⟨5, 0, 0, 2⟩) (pd 5)) = true := by decide +kernel

theorem witness_MatrixRowWordsComplete :
    let hN := { hM with gn := true }
    let ld : MF := ⟨1, 0, 3, 7, 0, 0, 0, 1, 0, true, 0⟩
    let sp : MF := ⟨1, 0, 0x83, 4, 2, 0, 0, 1, 0, true, 1⟩
    let mu : MF := ⟨1, 0, 3, 7, 0, 0, 0, 1, 1, false, 0⟩
    let mus : MF := { mu with sp := 1 }
    let dr : DR := ⟨0, 0, 0x4C, 1, 0, 0, false, true, 2⟩
    let drt : DR := ⟨0, 0, 0x81, 1, 0, 0, false, false, 1⟩
    let q (o : MF) (pl : Nat) (fits : Desc → Bool) : MSrc := ⟨o.src, o.enc.toNat, o.scl.toNat, o.rows.toNat, pl, fits⟩
    let f (o : MF) (q : MSrc) (act : Bool) (r : Nat) (m : Mach) : RowDo := m.withRow q act r fun x m => m.loadRow o r q.enc (m.k.mat.enterRow q.enc x) x.s0 x.s1
    let st (o : MF) (q : MSrc) (act : Bool) (r : Nat) (m : Mach) : RowDo := m.withRow q act r fun x m => m.mat fun t => t.stream o r x
    let any : Desc → Bool := fun d => (d.shape == 1 || d.shape == 2) && d.sp == 0
    let ctxM (k : Ctx) : Ctx := { vecs k with mat := { k.mat with granted := true, word := k.m.pc, bufs := [(0, { StatBuf.clear with tag := 0 })] } }
    let go (i : Instr) (rows : BitVec 7) (g : Bool) (c : Mach → Bool) (k : Ctx → Ctx := ctxM) :=
      meets .issued (at_ i k) i (rowPorts rows) fun m a => a.act == g && m.t.prog == none && c m
    (go (.mld hM ld) 1 true (fun m => (rowsTo (f ld (q ld 1 (mldFits 0)) true) 1 0 m.rowStart).isSome) &&
     go (.mld hN ld) 1 false (fun m => (rowsTo (f ld (q ld 1 (mldFits 0)) false) 1 0 m.rowStart).isSome) &&
     go (.mma hM mu) 1 true (fun m => m.ownWord.k.mat.granted && (rowsTo (st mu (q mu 8 any) true) 1 0 m.ownWord.rowStart).isSome) &&
     go (.mma hN mu) 1 false (fun m => (rowsTo (st mu (q mu 8 any) false) 1 0 m.ownWord.rowStart).isSome) &&
     go (.mmas hM mus) 1 true (fun m => m.ownWord.k.mat.granted && (rowsTo (st mus (q mus 8 any) true) 1 0 m.ownWord.rowStart).isSome)
       (fun k => let k := ctxM k; { k with mat := { k.mat with bufs := [(0, { StatBuf.clear with tag := 1 })] } }) &&
     go (.mdr hM dr) 2 true (fun m => trapsOn m.t.fpmode 0x1F == false && m.drainRoom dr false) &&
     go (.mdr hN dr) 2 false (fun m => trapsOn m.t.fpmode 0x1F == false && m.drainRoom dr false) &&
     meets .issued (onT (.mdrt hM drt) 1 4 2 [(1, .M, .recorder)]) (.mdrt hM drt) (rowPorts 1) (fun m a => a.act && m.t.prog == none &&
       m.recorderBad 1 == none && mdrtFits drt (m.tapeOf 1) && decide ((m.tapeOf 1).recorded + 1 ≤ (m.tapeOf 1).len) &&
       (rowsTo (mdrtRow drt true) 1 0 m.rowStart).isSome) &&
     ([(hM, true), (hN, false)] : List (Hdr × Bool)).all (fun g =>
       meets (.trapped 0x22) (put 0x200080 [W (7 + 16 + 2 ^ 11 + 2 ^ 13)] (onT (.mdrt g.1 drt) 1 4 2 [(1, .M, .recorder)])) (.mdrt g.1 drt) (rowPorts 1)
         fun m a => a.act == g.2 && m.recorderBad 1 == none && (m.tapeOf (m.k.head 1).handle).sp != 0) &&
     meets .issued (onT (.mdrt hN drt) 1 4 2 [(1, .M, .recorder)]) (.mdrt hN drt) (rowPorts 1) (fun m a => !a.act && m.t.prog == none &&
       m.recorderBad 1 == none && (m.tapeOf 1).sp == 0 && (rowsTo (mdrtRow drt false) 1 0 m.rowStart).isSome) &&
     (let s := put 0x200080 [W (4 + 16 + 2 ^ 11 + 3 * 2 ^ 13), 4, 4, 24, 0x201000, 16, 0, 0, 0, 1] (onT (.mlds hM sp) 3 4 4 [(3, .M, .zeroFill)])
      meets .issued { s with ctxs := s.ctxs.map fun p => (p.1, { p.2 with heads := p.2.heads.map fun h => (h.1, { h.2 with v := 4, flue := [] }) }) }
        (.mlds hM sp) (rowPorts 1) fun m a => a.act && m.t.prog == none &&
          (rowsTo (f sp (q sp 1 fun d => (d.shape == 1 || d.shape == 2) && d.sp == 1) true) 1 0 m.rowStart).isSome)) = true := by decide +kernel

theorem witness_MatrixStateWords :
    let sw : MF := ⟨7, 0, 0, 0, 0, 0, 0, 64, 0, false, 0⟩
    let z : MF := ⟨4, 23, 0, 0, 0, 0, 0, 2, 0, false, 0⟩
    let tw : MF := ⟨1, 3, 4, 7, 0, 0, 0, 64, 0, false, 0⟩
    let an : S3 := ⟨5, 3, 0, 23⟩
    let ts : S3 := ⟨5, 2, 0, 3⟩
    (runs (at_ (.mswap hM sw) id) (.mswap hM sw) Ports.none (fun m _ => m.k.bd.twoBuf) &&
     runs (at_ (.mswap hM sw) fun k => { k with bd := { k.bd with twoBuf := false } }) (.mswap hM sw) Ports.none (fun m _ => !m.k.bd.twoBuf) &&
     skip (.mtblw { hM with gn := true } tw) Ports.none
       (fun m _ => m.dropHeld.mrow ⟨tw.src, 7, 0, 1, 8, fun d => d.shape == 1 && d.sp == 0⟩ false 0 matches .skip _) &&
     ([0x17, 0x37] : List (BitVec 8)).all (fun fn =>
       let i (h : Hdr) : Instr := .manc h ⟨5, if fn.getLsbD 5 then 0 else 3, 0, fn⟩
       let p : Ports := { Ports.none with srcs := if fn.getLsbD 5 then [] else [3], dsts := [5] }
       (!fn.getLsbD 5 || runs (at_ (i hM) id) (i hM) p) && skip (i { hM with gn := true }) p) &&
     ([3, 7] : List (BitVec 8)).all (fun fn =>
       let i (h : Hdr) : Instr := .mtsc h ⟨5, if fn.getLsbD 2 then 0 else 2, 0, fn⟩
       let p : Ports := { Ports.none with srcs := if fn.getLsbD 2 then [] else [2], dsts := [5] }
       (!fn.getLsbD 2 || runs (at_ (i hM) id) (i hM) p) && skip (i { hM with gn := true }) p) && runs (at_ (.mzero hM z) id) (.mzero hM z) Ports.none &&
     runs (at_ (.mtblw hM tw) id) (.mtblw hM tw) Ports.none
       (fun m _ => m.dropHeld.mrow ⟨tw.src, 7, 0, 1, 8, fun d => d.shape == 1 && d.sp == 0⟩ true 0 matches .row _ _) &&
     runs (at_ (.manc hM an) id) (.manc hM an) (p2 3 5) (fun _ _ => !an.fn.getLsbD 5) && runs (at_ (.mtsc hM ts) id) (.mtsc hM ts) (p2 2 5) &&
     runs (at_ (.mest hM ⟨4, 0, 0, 2⟩) id) (.mest hM ⟨4, 0, 0, 2⟩) (pd 4) && runs (at_ (.mstat hM ⟨2, 0, 0, 0x77⟩) id) (.mstat hM ⟨2, 0, 0, 0x77⟩) (pd 2)) =
      true := by decide +kernel

/-- The word i on a device with the page at 0x200000, its context changed by f. -/
def onP (i : Instr) (f : Ctx → Ctx) : State := dev (at_ i f)

theorem witness_ScratchpadWords :
    let o (sz : BitVec 3) (d : BitVec 6) : L := ⟨d, 1, 2, 3, sz, 0x7FFF8⟩
    let rs := fun (k : Ctx) => { regs [(1, 0x10000), (2, 0x1FFFFFFFFFFFFFE0)] k with rq := [(15, [.full ⟨zeroRow, 5⟩])] }
    let ea (o : L) (a : Opnds) : Word := a.v 0 + (a.v 1 <<< o.sc.toNat) + o.off.signExtend 64
    let bad (o : L) (m : Mach) (a : Opnds) := m.spBad (ea o a).toNat (szBytes o.sz.toNat) (szAlign o.sz.toNat)
    let ld (o : L) := runs (at_ (.lds hA o) rs) (.lds hA o) (loadPorts o) fun m a => bad o m a == none
    let st (o : L) := runs (at_ (.sts hA o) rs) (.sts hA o) (storePorts o) fun m a => bad o m a == none
    let trapped (c : BitVec 8) (i : Instr) (p : Ports) (o : L) (v : Word) := meets (.trapped c) (at_ i (regs [(1, v)])) i p fun m a => a.act && bad o m a == some c
    (ld (o 3 3) && ld (o 0 33) && ld { o 7 40 with off := 0 } && skip (.lds hN (o 3 3)) (loadPorts (o 3 3)) && skip (.lds hN (o 7 40)) (loadPorts (o 7 40)) &&
     st (o 3 4) && st { o 7 47 with off := 0 } && skip (.sts hN (o 3 4)) (storePorts (o 3 4)) &&
     trapped 0x11 (.lds hA (o 3 3)) (loadPorts (o 3 3)) (o 3 3) 0x101 && trapped 0x12 (.lds hA (o 3 3)) (loadPorts (o 3 3)) (o 3 3) 0x10008 &&
     trapped 0x11 (.sts hA (o 1 3)) (storePorts (o 1 3)) (o 1 3) 0x101 && trapped 0x12 (.sts hA (o 3 3)) (storePorts (o 3 3)) (o 3 3) 0x10008) = true := by
  decide +kernel

theorem witness_AScratchpadStoreWritesItsBytesAlone :
    (turnB (at_ (.nop hA ⟨0, 0, 0, 0⟩) id) (.nop hA ⟨0, 0, 0, 0⟩) hA Ports.none).any (fun m =>
      ([(0, 7), (1, 8)] : List (Nat × Byte)).all (fun b => m.k.fills.all fun f => f.covers (0xFFFE + b.1) == false) &&
      Memory.wf m.s.ms.spad && (m.spPut 0xFFFE [(0, 7), (1, 8)]).s.spByte 0 0xFFFF == 8) = true := by decide +kernel

theorem witness_BurstWords :
    let lq : L := ⟨32, 1, 2, 0, 2, 0⟩
    let sq : L := ⟨35, 1, 2, 0, 2, 4⟩
    let q (k : Ctx) : Ctx := { k with sq := [(3, [.full ⟨1, true⟩, .full ⟨2, false⟩])] }
    let all (o : L) (load : Bool) (m : Mach) (a : Opnds) := (Mach.burstLoop o load a.act (lAddr { o with sc := 0 } (a.v 0) 0).toNat (a.v 1).toNat (a.v 1).toNat 0 m).1 == (a.v 1).toNat
    let fits (o : L) (m : Mach) (a : Opnds) : Bool := (lAddr { o with sc := 0 } (a.v 0) 0).toNat % szAlign o.sz.toNat == 0 &&
      decide (burstAt o (lAddr { o with sc := 0 } (a.v 0) 0).toNat ((a.v 1).toNat - 1) + szBytes o.sz.toNat ≤ m.k.bd.ssize)
    let rs (n : Word) (k : Ctx) := q (regs [(1, 0xFFF0), (2, n)] k)
    (runs (at_ (.ldq hA lq) (rs 4)) (.ldq hA lq) (burstPorts lq) (fun m a => m.t.prog == none && fits lq m a && all lq true m a) &&
     runs (at_ (.stq hA sq) (rs 2)) (.stq hA sq) (burstPorts sq) (fun m a => m.t.prog == none && fits sq m a && all sq false m a) &&
     skips (at_ (.ldq hN lq) (rs 4)) (.ldq hN lq) (burstPorts lq) (fun m a => all lq true m a) &&
     skips (at_ (.stq hN sq) (rs 2)) (.stq hN sq) (burstPorts sq) (fun m a => all sq false m a) &&
     runs (at_ (.ldq hA lq) (rs 0)) (.ldq hA lq) (burstPorts lq) (fun _ a => a.v 1 == 0) &&
     runs (at_ (.stq hA sq) (rs 0)) (.stq hA sq) (burstPorts sq) (fun _ a => a.v 1 == 0) &&
     meets (.trapped 0x12) (at_ (.ldq hA lq) (rs 65536)) (.ldq hA lq) (burstPorts lq) (fun _ a => 65535 < (a.v 1).toNat) &&
     meets (.trapped 0x12) (at_ (.stq hA sq) (rs 65536)) (.stq hA sq) (burstPorts sq) (fun _ a => 65535 < (a.v 1).toNat)) = true := by decide +kernel

/-- Every operation, plain and ordered; the operands of the first clause are of the access size. -/
theorem witness_ScratchpadAtomicsComplete :
    ((upTo 8).all (fun op => let o : L := ⟨3, 1, 2, BitVec.ofNat 3 op, 3, 0x40008⟩
      runs (at_ (.satom hA o) (regs [(1, 0xFFF0), (2, 5)])) (.satom hA o) (atomPorts o) fun m a =>
        m.spBad (a.v 0 + (o.off.extractLsb' 0 18).signExtend 64).toNat 8 8 == none && m.k.fencedAll) &&
     skip (.satom hN ⟨3, 1, 2, 1, 6, 8⟩) (atomPorts ⟨3, 1, 2, 1, 6, 8⟩) && decide (2 ^ 32 - 1 < 2 ^ (8 * 4)) &&
     (let o : L := ⟨3, 1, 2, 1, 3, 4⟩
      meets (.trapped 0x11) (at_ (.satom hA o) (regs [(1, 8)])) (.satom hA o) (atomPorts o) (fun m a => a.act && decide (16 ≤ m.k.bd.ssize)) &&
      meets (.trapped 0x12) (at_ (.satom hA o) (fun k => regs [(1, W (k.bd.ssize - 4))] k)) (.satom hA o) (atomPorts o) (fun m a =>
        a.act && decide (m.k.bd.ssize < (a.v 0 + 4).toNat + 8) && (a.v 0 + 4).toNat % 8 == 0))) = true := by decide +kernel

theorem witness_GlobalMemoryWords :
    let ok (i : Instr) (p : Ports) (ea : Opnds → Word) (sz al : Nat) (need : Mach → Need) :=
      runs (onP i fun k => { regs [(1, 0x200100), (2, 7)] k with rq := [(9, [.full ⟨zeroRow, 1⟩])] }) i p fun m a =>
        (m.gAccess (ea a) sz al (need m) matches .ok _ _)
    let o (d : BitVec 6) (sz : BitVec 3) : L := ⟨d, 1, 48, 0, sz, 0⟩
    let at_ (o : L) (a : Opnds) : Word := a.v 0 + (o.off.extractLsb' 0 18).signExtend 64
    let ga : L := ⟨5, 1, 2, 1, 3, 0x40008⟩
    (ok (.ldg hA (o 22 3)) (loadPorts (o 22 3)) (fun a => a.v 0) 8 8 (·.k.needLd) && ok (.ldg hA (o 40 7)) (loadPorts (o 40 7)) (fun a => a.v 0) 256 4 (·.k.needLd) &&
     ok (.stg hA (o 2 3)) (storePorts (o 2 3)) (fun a => a.v 0) 8 8 (·.k.needSt) && ok (.stg hA (o 41 7)) (storePorts (o 41 7)) (fun a => a.v 0) 256 4 (·.k.needSt) &&
     ok (.gatom hA ga) (atomPorts ga) (at_ ga) 8 8 (·.k.needRw) && skip (.ldg hN (o 22 3)) (loadPorts (o 22 3)) && skip (.stg hN (o 2 3)) (storePorts (o 2 3)) &&
     ([0, 1, 2] : List Nat).all (fun n =>
       let w : Instr × Ports := if n = 0 then (.ldg hA (o 22 3), loadPorts (o 22 3)) else if n = 1 then (.stg hA (o 2 3), storePorts (o 2 3))
         else (.gatom hA ⟨5, 1, 2, 1, 3, 0⟩, atomPorts ⟨5, 1, 2, 1, 3, 0⟩)
       let need (m : Mach) : Need := if n = 0 then m.k.needLd else if n = 1 then m.k.needSt else m.k.needRw
       meets (.trapped 0x11) (onP w.1 (regs [(1, 0x200101)])) w.1 w.2 (fun _ a => a.act && (a.v 0).toNat % 8 != 0) &&
       meets (.trapped 0x15) (onP w.1 (regs [(1, 0x800000)])) w.1 w.2 (fun m a =>
         a.act && (m.gAccess (a.v 0) 8 8 (need m) matches .stop (.trap 0x15 0x800000)))) &&
     meets (.trapped 0x15) (onP (.ldg hA (o 40 7)) (regs [(1, 0x3FFFC0)])) (.ldg hA (o 40 7)) (loadPorts (o 40 7)) (fun m a =>
       m.gAccess (a.v 0) 256 64 m.k.needLd matches .stop (.trap 0x15 0x400000))) = true := by decide +kernel

theorem witness_LatchWords :
    let lb : S3 := ⟨3, 1, 2, 0x6F⟩
    let bound (k : Ctx) : Ctx := { regs [(1, 0x200040), (2, 0x200006)] k with latches := [(15, some ⟨0x200040, 0x200000, 6, 3⟩)] }
    let slotted (i : Instr) (p : Ports) (need : Mach → Need) (rel : Bool) (c : State → Latch → Target → Bool := fun _ _ _ => true) := runs (onP i bound) i p fun m _ =>
      match m.latchAt 15 (need m) rel with
      | .ok q t rs s1 => c s1 q t && !m.cleanDead q rs s1
      | _ => false
    (runs (at_ (.lbind hA lb) bound) (.lbind hA lb) (s3Ports lb) (fun _ a => bits (a.v 1) 54 10 == 0 && decide (6 ≤ bits (a.v 1) 0 6) &&
       decide (bits (a.v 1) 0 6 ≤ 53) && (a.v 0).toNat % 8 == 0 && decide ((keep (a.v 1) 53 6).toNat + 2 ^ bits (a.v 1) 0 6 ≤ 2 ^ 54)) &&
     runs (at_ (.lbind hA lb) (regs [(1, 3), (2, 0)])) (.lbind hA lb) (s3Ports lb) (fun _ a => bits (a.v 1) 0 6 == 0) &&
     ([0x0F, 0x4F, 0x8F] : List (BitVec 8)).all (fun fn => slotted (.acq hA ⟨3, 2, 0, fn⟩) (p2 2 3) (·.k.needRw) false) &&
     ([0x0F, 0x4F] : List (BitVec 8)).all (fun fn => slotted (.rel hA ⟨48, 2, 0, fn⟩) (p2 2 48) (·.k.needRw) true) &&
     slotted (.waitw hA ⟨6, 48, 0, 0x0F⟩) (p2 48 6) (·.k.needLd) false (fun s1 q t => (s1.latchOp (Ctx.init (Binding.forWord .A) false 0 false 0 (fun _ => 0) (fun _ => 0)) q t
       fun _ => none).1 == 0)) = true := by decide +kernel

theorem witness_BarrierWords :
    let cm : L := ⟨2, 1, 48, 2, 3, 0⟩
    let rs := regs [(1, 0x200000), (2, 1)]
    ((upTo 4).all (fun n => let i := Instr.gbar hA ⟨5, 0, 0, BitVec.ofNat 8 n⟩
       runs (at_ i id) i (pd 5) fun m _ => m.k.released && !m.s.gangSpread m.k && m.s.meet m.x m.k (m.k.gbars + 1) == .all) &&
     runs (at_ (.fence hA ⟨0, 0, 0, 0x1F⟩) id) (.fence hA ⟨0, 0, 0, 0x1F⟩) Ports.none (fun m _ => m.k.fenceDone 0x1F) &&
     skip (.fence hN ⟨0, 0, 0, 0x1F⟩) Ports.none && skip (.cmo hN cm) { Ports.none with srcs := [1, 2] } &&
     runs (onP (.cmo hA cm) rs) (.cmo hA cm) { Ports.none with srcs := [1, 2] } (fun m a => 0 < (a.v 1).toNat && decide ((a.v 1).toNat ≤ 2 ^ 40) && m.k.stores.isEmpty &&
       (State.cmoPages m.core m.k 3 2 0x200000 0x200040 1 32 m.s matches .ok _)) &&
     runs (onP (.cmo hA cm) id) (.cmo hA cm) { Ports.none with srcs := [1, 2] } (fun _ a => a.v 1 == 0)) = true := by decide +kernel

theorem witness_WindowWords :
    let sh (rw : Bool) : WinShape := ⟨8, 64, 2, 0x100, rw, false⟩
    let win (rw b : Bool) (k : Ctx) : Ctx := { regs [(1, 0x200000), (2, 64), (3, 2), (4, 1), (5, 8)] k with
      bd := { k.bd with wins := [(15, sh rw)] }, wins := if b then [(15, some ⟨0x200000, 64, 0, 0⟩)] else [] }
    let rd (t : BitVec 6) (d : BitVec 6) (sz : BitVec 3) : L := ⟨d, t, 48, 0, sz, 0x78000⟩
    let adv (n : BitVec 6) : SI := ⟨5, n, 15⟩
    let held (m : Mach) : Bool := (m.k.winShape 15).isSome && (m.k.win? 15).isSome
    let back (m : Mach) (n : Nat) : Bool := !m.k.filling 15 0 n && (m.reachPieces m.k.needSt false 0 (backPieces (sh true) ⟨0x200000, 64, 0, 0⟩ 0 n) m.s matches .ok _ _)
    (runs (onP (.wbind hA ⟨6, 1, 2, 15⟩) (win true false)) (.wbind hA ⟨6, 1, 2, 15⟩) (s3Ports ⟨6, 1, 2, 15⟩) (fun m a => m.k.winShape 15 == some (sh true) && m.k.win? 15 == none &&
       (a.v 0).toNat % 64 == 0 && (a.v 1).toNat % 64 == 0 && decide (64 ≤ (a.v 1).toNat)) &&
     runs (onP (.wadv hA (adv 3)) (win false true)) (.wadv hA (adv 3)) (p2 3 5) (fun m a => held m && decide ((a.v 0).toNat ≤ 2)) &&
     runs (onP (.wadv hA (adv 3)) (win true true)) (.wadv hA (adv 3)) (p2 3 5) (fun m a => held m && (a.v 0).toNat == 2 && back m 2) &&
     runs (onP (.wrel hA ⟨7, 0, 0, 15⟩) (win true true)) (.wrel hA ⟨7, 0, 0, 15⟩) (pd 7) (fun m _ => held m && back m 2) &&
     runs (onP (.wrel hA ⟨7, 0, 0, 31⟩) (win true true)) (.wrel hA ⟨7, 0, 0, 31⟩) (pd 7) (fun m _ => held m) &&
     runs (onP (.wrel hA ⟨7, 0, 0, 47⟩) (win false true)) (.wrel hA ⟨7, 0, 0, 47⟩) (pd 7) (fun m _ => held m) &&
     ([(14, 3), (40, 0)] : List (BitVec 6 × BitVec 3)).all (fun d => runs (onP (.ldw hA (rd 4 14 d.2)) (win false true)) (.ldw hA (rd 4 14 d.2)) (loadPorts (rd 4 14 d.2))
       (fun m a => held m && (a.v 0).toNat == 1 && m.k.rowFaults.isEmpty && !m.k.filling 15 1 1)) &&
     runs (onP (.ldw hA (rd 5 14 3)) (win false true)) (.ldw hA (rd 5 14 3)) (loadPorts (rd 5 14 3)) (fun m a => held m && decide (8 ≤ (a.v 0).toNat)) &&
     meets (.trapped 0x13) (onP (.ldw hA (rd 4 14 3)) (win false false)) (.ldw hA (rd 4 14 3)) (loadPorts (rd 4 14 3)) (fun m a => a.act && m.k.win? 15 == none)) =
      true := by decide +kernel
/-- The checks of `EngineFree`. -/
def freeB (m : Mach) (a : Opnds) (o : E) (opc : Nat) (args : EngArgs) : Bool :=
  a.act && recRoom opc m a && m.k.released && (engOf opc != 2 || (opc == 0x64 && m.k.bd.det == 1) || m.k.credits != 0) && args.bad == none &&
  m.k.overlap opc (predsOf o m.k.sr.seq) args.ranges == none

theorem freeB_free {m a o opc args} (h : freeB m a o opc args = true) : EngineFree m a o opc args := by
  simp only [freeB, Bool.and_eq_true, Bool.or_eq_true, bne_iff_ne, ne_eq, beq_iff_eq, recRoom, Bool.not_eq_true', decide_eq_true_eq] at h
  obtain ⟨⟨⟨⟨⟨h1, h2⟩, h3⟩, h4⟩, h5⟩, h6⟩ := h
  exact ⟨h1, fun hp => by rcases h2 with h2 | h2; · simp [hp] at h2
                          · exact h2, h3, fun he hn => by rcases h4 with (h4 | h4) | h4; · exact absurd he h4
                                                          · exact absurd h4 hn
                                                          · exact h4, h5, h6⟩

theorem witness_EngineWordsIssueTheirCommand :
    let rs := regs [(1, 0x200000), (2, 0x100), (3, 0x40), (4, 7), (5, 0x40 + 2 * 2 ^ 32)]
    let iss (i : Instr) (p : Ports) (o : E) (opc : Nat) (args : Mach → Opnds → EngArgs) := runs (onP i rs) i p fun m a => freeB m a o opc (args m a)
    let s2 (x y : BitVec 6) : Ports := { Ports.none with srcs := [x, y] }
    let e (x y z : BitVec 6) (fl : BitVec 9) : E := ⟨x, y, z, 0, 0, fl⟩
    (let o := e 1 1 3 0; iss (.cpym hA o) (ePorts o) o 0x58 (fun _ a => ⟨if countBad (a.v 2) then some (0x34, a.v 2) else none, a.v 0, a.v 1, a.v 2, [], none⟩)) &&
    (let o := e 2 1 3 0; iss (.cpys hA o) (ePorts o) o 0x59 (fun m a => ⟨m.copyCheck (a.v 2) (some (a.v 0)), a.v 0, a.v 1, a.v 2, [⟨(a.v 0).toNat, (a.v 2).toNat, !o.fl.getLsbD 0⟩], none⟩)) &&
    (let o := e 2 1 5 0; iss (.cgth hA o) (ePorts o) o 0x5A (fun m a => m.listArgs o a (a.v 0) true)) &&
    (let o := e 1 2 5 0; iss (.csct hA o) (ePorts o) o 0x5B (fun m a => m.listArgs o a (a.v 1) false)) &&
    (let o := e 1 3 0 0; iss (.cpgi hA o) (s2 1 3) o 0x5C (fun _ a => ⟨if (a.v 1).toNat = 0 || 512 < (a.v 1).toNat then some (0x34, a.v 1) else none, a.v 0, a.v 1, 0, [], none⟩)) &&
    (let o := e 1 2 3 1; iss (.rput hA o) (ePorts o) o 0x5D (fun m a => ⟨m.copyCheck (a.v 2) (some (a.v 1)), a.v 0, a.v 1, a.v 2, [⟨(a.v 1).toNat, (a.v 2).toNat, false⟩], none⟩)) &&
    (let o := e 1 1 3 0; iss (.rget hA o) (ePorts o) o 0x5E (fun m a => ⟨m.copyCheck (a.v 2) none, a.v 0, a.v 1, a.v 2, [], none⟩)) &&
    (let o := e 1 2 0 63; iss (.gadd hA o) (s2 1 2) o 0x5F (fun m a => ⟨m.spCheck (a.v 1) 256 (gtSize 0), a.v 0, a.v 1, 0, [⟨(a.v 1).toNat, 256, false⟩], none⟩)) &&
    (let o := e 1 3 4 0x118; iss (.gamo hA o) { Ports.none with srcs := [1, 3, 4] } o 0x60 (fun _ a => ⟨none, a.v 0, a.v 1, a.v 2, [], none⟩)) &&
    (let o := e 1 3 0 3; iss (.gqop hA o) (s2 1 3) o 0x61 (fun _ a => ⟨none, a.v 0, a.v 1, 0, [], none⟩)) &&
    (let o := e 1 1 2 0xC7; iss (.gred hA o) (ePorts o) o 0x62 (fun m a => ⟨m.spCheck (a.v 2) (grRb o.fl) 32, a.v 0, a.v 1, a.v 2, [⟨(a.v 2).toNat, grRb o.fl, true⟩], none⟩)) &&
    (let o := e 1 2 3 63; iss (.gaxpy hA o) (ePorts o) o 0x63 (fun m a => ⟨m.spCheck (a.v 1) 256 4, a.v 0, a.v 1, a.v 2, [⟨(a.v 1).toNat, 256, false⟩], none⟩)) &&
    (let o := e 0 0 0 0; iss (.gfen hA o) Ports.none o 0x64 (fun _ _ => ⟨none, 0, 0, 0, [], none⟩)) &&
    (let o := e 48 1 2 16; iss (.spk hA o) (ePorts o) o 0x6E (fun m a => ⟨m.spkCheck o (a.v 0) (a.v 1) (a.v 2), a.v 0, a.v 1, a.v 2, [⟨(a.v 2).toNat, 256, false⟩], none⟩)) &&
    (let o := e 4 1 0 0; iss (.tkenq hA o) (s2 4 1) o 0x72 (fun _ a => ⟨if 4095 < (a.v 0).toNat then some (0x33, 0) else
      if (a.v 1).toNat % 128 ≠ 0 then some (0x11, a.v 1) else none, a.v 0, a.v 1, 0, [], none⟩)) = true := by decide +kernel

theorem witness_EquivalenceWordsIssueTheirCommand :
    let fr (k : Ctx) : Ctx := { regs [(1, 3), (2, 0), (3, 0x4000), (5, 4)] k with
      sr := { k.sr with eqpar := 0x1000 + 4 * 2 ^ 32, eqsz := 0x2000, eqlog := 0x3000 + 4 * 2 ^ 32 } }
    let ok (i : Instr) (p : Ports) (o : E) (opc : Nat) := runs (onP i fr) i p fun m a =>
      let m' := if opc = 0x66 then m else m.ctx Ctx.closeRun
      m.k.eng.eqFail.isNone && m.k.forestBad.isNone && freeB m' a o opc ⟨none, 0, 0, 0, m.k.sr.forestRanges, none⟩
    let e (x y z : BitVec 6) (fl : BitVec 9) : E := ⟨x, y, z, 0, 0, fl⟩
    let s2 (x y : BitVec 6) : Ports := { Ports.none with srcs := [x, y] }
    (ok (.eqclr hA (e 2 5 0 0)) (s2 2 5) (e 2 5 0 0) 0x65 && ok (.equ hA (e 1 2 0 0)) (s2 1 2) (e 1 2 0 0) 0x66 && ok (.eqf hA (e 6 1 0 0)) (p2 1 6) (e 6 1 0 0) 0x67 &&
     ok (.eqz hA (e 6 1 5 0xA)) { Ports.none with srcs := [1, 5], dsts := [6] } (e 6 1 5 0xA) 0x68 && ok (.eqsnp hA (e 6 0 0 0)) (pd 6) (e 6 0 0 0) 0x6A &&
     ok (.eqund hA (e 2 0 0 1)) (p1 2) (e 2 0 0 1) 0x6B && ok (.eqr hA (e 3 0 0 0)) (eqrPorts (e 3 0 0 0)) (e 3 0 0 0) 0x69 &&
     (let o := e 3 0 0 0x140
      let i := Instr.eqr hA o
      runs (onP i fun k => { fr k with rq := [(9, [.full ⟨zeroRow, BitVec.allOnes 64⟩, .full ⟨zeroRow, 1⟩])] }) i (eqrPorts o) fun m a =>
        m.t.prog == none && m.k.eng.eqFail.isNone && m.k.forestBad.isNone && eqrQueue o.fl == some 9 && (popSlot (m.k.rq? 9)).isSome &&
        freeB (m.ctx Ctx.closeRun) a o 0x69 ⟨none, 0, 0, 0, m.k.sr.forestRanges ++ [⟨0x4000, 16, true⟩], none⟩)) = true := by decide +kernel

theorem witness_IssuedCommandsAreNumberedInOrder :
    (⟨none, 1, 2, 3, [], none⟩ : EngArgs).out = none ∧ producesRec 0x58 = true := by decide

theorem witness_QueryAndEventWords :
    let q (l : List Nat) (k : Ctx) : Ctx := { regs [(1, 8)] k with eng := { k.eng with recs := l.map fun n => (n, [⟨W n, 9, []⟩]) }, evq := [(W (2 ^ 56), 4)] }
    let d2 (fn : BitVec 8) : Ports := ports2 ⟨5, 6, 0, fn⟩
    let deq (fn : BitVec 8) (l : List Nat) (c : Mach → Bool) := runs (at_ (.deq hA ⟨5, 6, 0, fn⟩) (q l)) (.deq hA ⟨5, 6, 0, fn⟩) (d2 fn) fun m _ => m.k.eng.eqFail.isNone && c m
    let gated (m : Mach) : Mach := m.ctx Ctx.closeRun
    let one_ (n : Nat) (k : Ctx) : Ctx := { k with sq := [(1, List.replicate (16 - n) (.full ⟨0, true⟩))] }
    let again := Instr.deq hA ⟨33, 33, 0, 4⟩
    let twice (n : Nat) (note : Note) := meets note (at_ again (one_ n)) again (ports2 ⟨33, 33, 0, 4⟩) fun m a =>
      a.act && m.k.eng.eqFail.isNone && (m.k.recsOf 0).isEmpty && freeSlots 1 (m.k.sq? 1) == n
    let late (i : Instr) (n : Nat) (note : Note) : Bool :=
      let s := at_ i fun k => { one_ n k with a := { k.a with prog := some ⟨1, 2, some 7⟩ } }
      (headB s hA).any (fun m => m.checkWord i hA == none && m.t.prog == some ⟨1, 2, some 7⟩ && freeSlots 1 (m.k.sq? 1) == n) && notes note (exec i s)
    (twice 2 .issued && twice 1 (.going .slot) &&
     ([again, .evw hA ⟨33, 33, 0, 1⟩, .evq hA ⟨33, 33, 0, 1⟩] : List Instr).all (fun i => late i 1 .issued && late i 0 (.going .slot)) &&
     deq 2 [2] (fun m => !(m.k.recsOf 2).isEmpty) && deq 1 [1] (fun m => !((gated m).k.recsOf 1).isEmpty) && deq 4 [] (fun m => (m.k.recsOf 0).isEmpty) &&
     deq 5 [] (fun m => ((gated m).k.recsOf 1).isEmpty) && runs (at_ (.engst hA ⟨10, 0, 0, 0x16⟩) id) (.engst hA ⟨10, 0, 0, 0x16⟩) (pd 10) &&
     runs (at_ (.engst hA ⟨10, 0, 0, 1⟩) id) (.engst hA ⟨10, 0, 0, 1⟩) (pd 10) (fun m _ => m.k.eng.eqFail.isNone) &&
     runs (at_ (.eva hA ⟨5, 1, 0, 7⟩) (q [])) (.eva hA ⟨5, 1, 0, 7⟩) (p2 1 5) (fun _ a => (a.v 0).toNat % 8 == 0) &&
     runs (at_ (.evw hA ⟨5, 6, 0, 2⟩) (q [])) (.evw hA ⟨5, 6, 0, 2⟩) (d2 2) (fun m _ => (takeEvent 2 m.k.evq).isSome) &&
     runs (at_ (.evq hA ⟨5, 6, 0, 0xFF⟩) (q [])) (.evq hA ⟨5, 6, 0, 0xFF⟩) (d2 0xFF) (fun m _ => (takeEvent 0xFF m.k.evq).isSome) &&
     runs (at_ (.evq hA ⟨5, 6, 0, 1⟩) (q [])) (.evq hA ⟨5, 6, 0, 1⟩) (d2 1) (fun m _ => (takeEvent 1 m.k.evq).isNone) &&
     runs (at_ (.tksig hA ⟨0, 4, 0, 0xFF⟩) id) (.tksig hA ⟨0, 4, 0, 0xFF⟩) (p1 4) (fun m _ => !m.k.signalled && m.k.released &&
       !m.s.rangesDead (stoveOf m.core) [(0, 2 ^ 54)])) = true := by decide +kernel
/-- The place of `at_`, and a check of the context there. -/
def x0 : CtxRef := ⟨0, false⟩
@[inherit_doc x0] def has (s : State) (c : Ctx → Bool) : Bool := (s.ctx? x0).any c
/-- A machine with one context, changed by f. -/
def one (f : Ctx → Ctx) : State := at_ (.nop hA ⟨0, 0, 0, 0⟩) f
/-- The same with a second context in bank 1 of its core. -/
def two (f g : Ctx → Ctx) : State :=
  let s := one f
  { s with ctxs := s.ctxs ++ s.ctxs.map fun p => (p.1 + 1, g (one id |>.ctx? x0 |>.getD p.2)) }
/-- A command of engine word opc, and a context that has issued it. -/
def cmd (opc : Nat) : Cmd :=
  { seq := 1, opc := opc, preds := [], cancel := none, o1 := 0, o2 := 0, o3 := 0, fl := 0, dst := .none, ranges := [], g := 0, gn := false,
    vals := [], need := 0, epoch := 0, run := 0, left := false, src := [], sent := false, begun := false, reads := [], writes := [], acts := 0, aux := 0, size := 0, frame := none, logged := 0 }
@[inherit_doc cmd] def issued (l : List Cmd) (k : Ctx) : Ctx := { k with eng := { k.eng with cmds := l } }
/-- The gang of one context. -/
def gang : Gang :=
  { vdev := 0, task := 0, stats := 0x200040, comp := 0x200010, det := 0, members := [x0], dormants := [], signals := [], dsignals := [], ended := [],
    flags := 0, counts := [], endStatus := none, done := false }
/-- Every stream halted. -/
def halted (k : Ctx) : Ctx := Stream.all.foldl (fun (k : Ctx) st => k.setStr st { k.str st with halted := true }) k
/-- The step i changes s and answers a next state. -/
def acts (i : Instr) (s : State) : Bool :=
  match exec i s with
  | .next t => t != s
  | _ => false
/-- A page of an expander at 0x400000, held. -/
def cxlPage (s : State) : State :=
  (dev s).mem fun m => { m with
    coreTlb := ⟨0, 0, 0x400000, 0x200000, 0x7E001000000021F7, hbmBase + 0x1008⟩ :: m.coreTlb, expDown := [0] }

theorem witness_ContextsStopAndGoOn :
    let stopped (k : Ctx) : Ctx := { k with run := .stopped, unanswered := true }
    let r : FRec := ⟨List.replicate 16 0, false⟩
    let st : StoreEnt := ⟨1, 0x400040, cxlBase, 1, .cached, [(0, 7)]⟩
    let asks (s : State) (again : Bool) : Bool := has s fun k => k.run == .stopped && k.unanswered && !k.machineChecked && s.storeDead 0 st &&
      ((s.answerReg x0 false 0).againFault 0 k).isSome == again
    (has (one fun k => { k with run := .stopping true }) (fun k => k.run == .stopping true && (one fun k => { k with run := .stopping true }).settled x0 k) &&
     (let s := two (fun k => { k with run := .stopping false }) id
      has s fun k =>
        let s1 := s.setCtx x0 { k.atRest with run := .ready }
        k.run == .stopping false && s.settled x0 k && s1.runsAt x0 && s1.readyAt (otherBank x0) && !s1.barred (otherBank x0)) &&
     (let s := { (one id).setReg 0x50000 (W (hbmBase + 3)) with frecs := [r] }
      let tail := bits (s.reg 0x50008) 0 32
      let head := bits (s.reg 0x50008) 32 32
      s.frecs == r :: [] && decide ((tail + 2 ^ 32 - head) % 2 ^ 32 < 2 ^ bits (s.reg 0x50000) 0 5)) &&
     asks (cxlPage (one fun k => { stopped k with stores := [st] })) false &&
     asks ((cxlPage (one fun k => { stopped k with stores := [st] })).mem fun m => { m with coreTlb := [] }) true &&
     has (one fun k => { stopped k with machineChecked := true }) (fun k => k.run == .stopped && k.unanswered && k.machineChecked) &&
     has (one id) (fun k => k.alive .V)) = true := by decide +kernel

theorem witness_ExpandersTimeOut :
    let fl : Fill := ⟨1, 0, 3, 0x400000, 64, 0, false, 0, false, []⟩
    let dead (s : State) (p : State → Ctx → Cmd → Bool) : Bool := has s fun k => (k.cmd? 1).any fun c => s.cmdDead x0 k c && p s k c
    let xf : Xfer := ⟨x0, 1, 3, 64, 0, 0, false, false, [(0x400000, cxlBase, 64, 1)], [(0x400000, 64, 1, 0)]⟩
    let ended (s : State) : State := { s with gangs := [{ gang with endStatus := some 3 }] }
    let held (s : State) (b : Bool) : Bool := has s fun k => s.isEnded k == b
    (held (cxlPage (one fun k => { k with v := { k.v with stalled := some (.expander 0x400040) }, fills := [fl] })) false &&
     held (ended (cxlPage (one fun k => { k with v := { k.v with stalled := some (.expander 0x400040) } }))) true &&
     acts (.cxlExpanderTimeout x0 .A none) (ended (cxlPage (one fun k => { k with fills := [fl] }))) &&
     has (cxlPage (one fun k => { k with v := { k.v with stalled := some (.expander 0x400040) } })) (fun k =>
       (cxlPage (one fun k => { k with v := { k.v with stalled := some (.expander 0x400040) } })).deadAccess x0 k .V == some 0x400040 && k.alive .V) &&
     (let s := cxlPage (one fun k => { k with fills := [fl] })
      has s fun k => (s.deadAccess x0 k .A).isNone && s.fillDead x0 k == some (fl, 0x400000)) &&
     dead (cxlPage (one (issued [{ cmd 0x72 with o2 := 0x400000 }]))) (fun s _ c => c.opc != 0x5C && (s.xfer? x0 c.seq).isNone) &&
     dead ({ cxlPage (one (issued [{ cmd 0x5D with sent := true, o3 := 64, o1 := 0x400000 }])) with xfers := [xf] }.setLink 3 { Link.down with up := true })
       (fun s _ c => c.opc != 0x5C && (s.xfer? x0 c.seq).isSome) &&
     dead ((cxlPage (one (issued [{ cmd 0x5C with o1 := 0x400000, o2 := 1 }]))).mem fun m => { m with
         stoveTlb := m.coreTlb, mem := memWrite m.mem (hbmBase + 0x1008) (bytesOfWord 0x7E001000000021F7) })
       (fun s k c => match State.pagesIn x0 k (c.o2.toNat - c.acts) s c with
         | .wait _ c' s1 => ((s1.pageUndo (stoveOf 0) k c').ctx? x0).isSome
         | _ => false)) = true := by decide +kernel

theorem witness_ContextsAreSavedAndScheduled :
    let save (s : State) : State := s.setReg 0x50028 (W (hbmBase + 0x40000))
    let other := two id fun k => { k with bd := { k.bd with vdev := 1 } }
    ((let s := save (two id fun k => { k with run := .stopping false })
      has s fun k => isHbm s.saveArea && (s.gangMap k Ctx.hold).gangStopping k) &&
     (let s := save (one fun k => { k with run := .stopped })
      has s fun k => isHbm s.saveArea && !(s.gangMap k Ctx.hold).gangStopping k) &&
     ((one id).ctx? ⟨7, true⟩).isNone &&
     has (one id) (fun k =>
      let held : Saved := ⟨x0, hbmBase + 0x40000, k⟩
      let rest : State := { save (dev (one id)) with ctxs := [], saved := [held] }
      let shut : State := { rest with ctxs := [(1, { k with bd := { k.bd with twoBuf := true } })] }
      !rest.restoreClash x0 true k && shut.restoreClash x0 true k &&
      rest.savedAt x0 (rest.areaGet rest.saveArea) == some held && (rest.ctx? x0).isNone && isHbm rest.saveArea &&
      bitAt (rest.areaGet rest.saveArea 0) 8 == x0.bank) &&
     (let s := two id id
      let x : CtxRef := ⟨0, tget 0 s.running 0 == 1⟩
      (s.ctx? x).any (fun k => k.run == .ready) && s.readyAt (otherBank x) && !s.barred (otherBank x)) &&
     has (other.setReg 0x90000 0x41) (fun k => k.run == .ready && (other.setReg 0x90000 0x41).barred x0)) = true := by decide +kernel

/-- Device 0 with tables that map its page at 0x200000, and a usable kernel descriptor there. -/
def mapped (s : State) : State :=
  let s := ((dev s).mem fun m => { m with coreTlb := [] }).setReg 0x30000 (W (hbmBase + 0x40001))
  let s := put 0x40000 [W (hbmBase + 0x50001)] s
  let s := put 0x50000 [W (hbmBase + 0x51001)] s
  let s := put 0x51008 [leaf] s
  put 0x200800 [0, 0xC001, 0, 0, 0x10000, 0x20000, 0x30000, 0x40000, 0x10000, 64, 0x20000, 64, 0x30000, 64, 0x40000, 64] s

/-- A record in slot 0 of queue 0, and its tail behind it. -/
def queued (s : State) : State := put 0x300000 [1, 0x200800, 0x10000, 0, 0x200040, 0x200010, 0, 0, 0, 0, 0x200000]
  ((s.setReg 0x60000 (W (hbmBase + 0x300000 + 3 + 2 ^ 63))).mem fun m => { m with mem := memWrite m.mem winBase [1] })
/-- No context is bound. -/
def bare : State := { mapped (one id) with ctxs := [] }
/-- A bind record for core 0. -/
def bindWords : List Word := [1, 0x200800, 0x200000, 0x200040, 0x200010, 0x10A01000000, 0, 0, 1]

theorem witness_TasksAreAccepted :
    let read (s : State) : List Word × State := s.slotWords 0 0 0 (s.queueSlot 0 0)
    let t (s : State) : Task := taskOf 0 0 0 (s.queueSlot 0 0) (read s).1
    let open_ (s : State) : Bool := bitAt (s.reg (qCfg 0)) 63 && s.queueTail 0 != tget 0 s.accepted 0
    let bad (s : State) (st : Nat) : Bool := match (read s).2.checkRecord (t s) (read s).1 with
      | .error e s2 => e == st && (s2.neverBound 0 (t s).stats (t s).comp (t s).seq e).isSome
      | _ => false
    let off (l : List Word) : State := put 0x300000 (l ++ [0x10000, 0, 0x800040, 0x800010]) (queued bare)
    (open_ (queued bare) && (match (read (queued bare)).2.checkRecord (t (queued bare)) (read (queued bare)).1 with
       | .ok _ => true
       | _ => false) &&
     open_ (off [0, 0x200800]) && bad (off [0, 0x200800]) 0xE4 && open_ (off [1, 0x200A00]) && bad (off [1, 0x200A00]) 0xE1) = true := by decide +kernel

theorem witness_TasksAreBound :
    let v : Word := W (hbmBase + 0x100000 + 2 ^ 63)
    let addr := bits v 8 44 * 256
    let fits (b : BindRec) (s1 : State) : Bool := b.ok && !b.dormant && (s1.gang? b.vdev b.seq).isNone && !s1.isComplete b.vdev b.seq &&
      !b.cores.any (s1.bindRefused b)
    let rec_ (ws : List Word) : BindRec := BindRec.ofWords (ws ++ List.replicate (32 - ws.length) 0)
    let reads (s : State) (ws : List Word) (c : State → Bool) : Bool :=
      match (put 0x100000 ws s).pkgDwords (rawAcc (put 0x100000 ws s) 0 0 (addr / 64)) addr 32 with
      | (l, false, s1) => l == ws ++ List.replicate (32 - ws.length) 0 && c s1
      | _ => false
    let b0 := rec_ bindWords
    let lost : List Word := [1, 0x200A00, 0x200000, 0x800040, 0x800010, 0x10A01000000, 0, 0, 1]
    (bitAt v 63 && isHbm addr &&
     reads bare bindWords (fun s1 => fits b0 s1 && match s1.kdesc b0.vdev b0.kdesc.toNat with
      | .ok d s2 => !s2.placeRefused b0 d && decide (b0.cores.length ≤ 48) && decide (d.ssize ≤ b0.ssize) && !((upTo 8).any (fun n => d.slots.testBit n &&
          !(decide ((splitSlots b0.split b0.second).1 ≤ n) && decide (n < (splitSlots b0.split b0.second).1 + (splitSlots b0.split b0.second).2))))
      | _ => false) &&
     reads (dev State.reset) [1] (fun _ => !(rec_ [1]).ok) &&
     reads bare lost (fun s1 => fits (rec_ lost) s1 && match s1.kdesc 0 0x200A00 with
       | .bad s2 => (s2.bindFail (rec_ lost) 0xE1).isSome
       | _ => false)) = true := by decide +kernel

theorem witness_ContextsEnd :
    (let s := { one halted with gangs := [gang] }
     has s fun k => (s.saved.find? fun (q : Saved) => q.x == x0 && ((s.gangOf q.k).any fun g => g.endStatus.isSome)).isNone && (s.gangOf k).isSome &&
       !k.bd.dormant && !gang.ended.contains k.bd.rank && k.allHalted && k.run == .ready && s.quiet x0 k && (s.release x0 k).isSome && !gang.done) &&
    ([0, 1] : List Nat).all (fun wr =>
      let s := one fun k => { halted k with bd := { k.bd with dormant := true }, started := true, sr := { k.sr with spkin := W (wr * 2 ^ 32) } }
      has s fun k => k.bd.dormant && k.started && k.run == .ready && k.allHalted && s.settled x0 k &&
        (s.release x0 k).any fun p => (bits p.1.sr.spkin 32 5 == bits p.1.sr.spkin 24 5) == (wr == 0)) = true := by decide +kernel

/-- Its status block lies in no page, which keeps the check small. -/
theorem witness_TasksComplete :
    (let s := { mapped (one halted) with gangs := [{ gang with stats := 0x800040, signals := [(0, 0, 7)] }] }
     (s.gang? 0 0).any fun g => s.mayComplete g && g.endStatus.isNone &&
       ((g.stoves.foldl (fun (s : State) n => s.cleanStove (48 * n) 0) s).writeCompletion 0 g.stats g.comp g.block false g.result.1 g.result.2 0).isSome)
    = true := by decide +kernel

theorem witness_DeviceEvents :
    let inj (kind va : Word) (k : Ctx) : Ctx := { k with sr := { k.sr with injecting := true, inject := va ||| kind <<< 56 } }
    let injects (kind : Nat) := let s := dev (one (inj (W kind) 0x200040))
      has s fun k => k.sr.injecting && bits k.sr.inject 56 2 == kind && (match s.xlate 0 k.bd.vdev 0x200040 with
        | (.ok l, _) => lfTier l.leaf == 0 && isHbm (l.pa 0x200040)
        | _ => false)
    let fails (kind : Nat) := let s := dev (one (inj (W kind) 0x800040))
      has s fun k => k.sr.injecting && bits k.sr.inject 56 2 == kind && (match s.xlate 0 k.bd.vdev 0x800040 with
        | (.fail _, _) => true
        | _ => false)
    let sh : Shootdown := ⟨false, 2, 0, 0, 2 ^ 54, []⟩
    (ctlMask 0x50028 != 0 && ctlMask 0xFFFF8 == 0 && injects 0 && injects 1 && fails 0 && fails 1 &&
     rangeOk 0 hbmBase 8 && isHbm hbmBase && (one id).sd.isNone && ({ State.reset with sd := some sh }.ctxs.isEmpty) &&
     has (one id) (fun k => !sh.awaitsCmds k) && State.reset.xfers.isEmpty &&
     isLogCfg 0xC0000 && ctlMask 0xC0000 != 0 && !isLogCfg 0x50028 && !isHbm cxlBase &&
     ((one id).mem fun m => { m with scrubs := [0x100000] }).ms.scrubs == [0x100000] &&
     (match (mapped (one id)).walk 0 0x200800 with
      | (.ok _, _) => true
      | _ => false) &&
     ([2, 3, 4] : List Byte).all fun b =>
      let s : State := { State.reset with host := { State.reset.host with boot := b } }
      !s.host.recovery && s.host.boot == b && (exec .bringupEnable s matches .next _)) = true := by decide +kernel

theorem witness_CommandsOfTheEnginesAct :
    let free (c : Cmd) : Bool := c.cancel.isNone && c.preds.isEmpty
    let on (c : Cmd) (i : Instr) (p : State → Ctx → Cmd → Bool) : Bool :=
      let s := dev (one (issued [c]))
      has s (fun k => (k.cmd? c.seq).any fun c => p s k c) && acts i s
    let gadd := { cmd 0x5F with left := true, o1 := 0x200100, src := List.replicate 4 0 }
    let xf (lost : Bool) : Xfer := ⟨x0, 1, 0, 64, 64, 0, false, lost, [], []⟩
    let remote (lost : Bool) : State := { one (issued [{ cmd 0x5D with sent := true, o3 := 64 }]) with xfers := [xf lost] }
    (on { cmd 0x58 with o1 := 0x200000, o2 := 0x200100, o3 := 0x40 } (.copyCommandAct x0 1) (fun _ _ c => engOf c.opc == 0 && free c) &&
     on { cmd 0x58 with cancel := some 9 } (.copyCommandAct x0 1) (fun _ _ c => engOf c.opc == 0 && c.cancel == some 9) &&
     on (cmd 0x66) (.eqCommandPerform x0 1) (fun _ k c => engOf c.opc == 1 && free c && k.mayPerform c) &&
     on { cmd 0x66 with cancel := some 9 } (.eqCommandPerform x0 1) (fun _ k c => engOf c.opc == 1 && c.cancel == some 9 && k.mayPerform c) &&
     on (cmd 0x5F) (.grateCommandAct x0 1) (fun _ k c => engOf c.opc == 2 && free c && !c.left && k.mayLeave c && c.opc != 0x64) &&
     on gadd (.grateCommandAct x0 1) (fun _ k c => engOf c.opc == 2 && c.left && c.opc != 0x64 && !(k.bd.det == 1 && c.detF32)) &&
     on { cmd 0x5F with cancel := some 9 } (.grateCommandAct x0 1) (fun _ k c => !c.left && k.mayLeave c && c.cancel == some 9) &&
     on { cmd 0x64 with left := true } (.grateCommandAct x0 1) (fun _ k c => c.opc == 0x64 && c.left && (k.earlierGrate c).isEmpty && c.cancel.isNone) &&
     on { cmd 0x64 with left := true, cancel := some 9 } (.grateCommandAct x0 1) (fun _ k c => (k.earlierGrate c).isEmpty && c.cancel == some 9) &&
     has (one (issued [{ cmd 0x5F with seq := 0, left := true }, { cmd 0x64 with left := true }])) (fun k =>
       (k.cmd? 1).any fun c => c.opc == 0x64 && !(k.earlierGrate c).isEmpty) &&
     (let s := two (issued [{ cmd 0x6E with o1 := 0x80000100 }]) fun k => { k with sr := { k.sr with spkin := 0x400000 } }
      has s fun k => (k.cmd? 1).any fun c =>
        let to_ : CtxRef := ⟨BitVec.ofNat 8 (bits c.o1 0 8), bitAt c.o1 8⟩
        c.opc == 0x6E && free c && bitAt c.o1 31 && to_ != x0 && (s.ctx? to_).any fun u => u.bd.vdev == k.bd.vdev && u.takesSpark) &&
     on { cmd 0x6E with o1 := 0x80000100 } (.sparkDeliver x0 1) (fun s _ c => c.opc == 0x6E && free c && bitAt c.o1 31 &&
       (s.ctx? ⟨BitVec.ofNat 8 (bits c.o1 0 8), bitAt c.o1 8⟩).isNone) &&
     on { cmd 0x72 with o2 := 0x200000 } (.taskEnqueueAppend x0 1) (fun s k c => c.opc == 0x72 && free c && (match s.taskRecord 0 k.bd.vdev c.o2.toNat with
       | .ok _ _ => true
       | _ => false)) &&
     has (remote true) (fun k => (k.cmd? 1).any fun c => c.opc == 0x5D && c.sent && ((remote true).xfer? x0 1).any fun f => f.lost && f.agrees 64 && ((remote true).getMark f).isNone) &&
     producesRec 0x58 &&
     has (one fun k => { k with eng := { k.eng with runs := 1 } }) (fun k => k.eng.runOver) &&
     (let s := { dev (one fun k => { issued [gadd] k with bd := { k.bd with det := 1 }, eng := { (issued [gadd] k).eng with gfensLeft := 1 } }) with
        gangs := [{ gang with det := 1 }] }
      (s.gang? 0 0).any fun g =>
        let mine := (s.heldCmds g).filter fun p => p.2.epoch == 0
        let t := State.applyHeld g (mine.foldl (fun l a => insertHeld a l) []) s
        leastOf ((s.heldCmds g).map fun p => p.2.epoch) == some 0 && g.det == 1 && s.epochClosed g 0 && mine.all (fun p => p.2.left) &&
        !(t.heldCmds g).any fun p => p.2.epoch == 0) &&
     (let s := (one id |>.setReg (logReg 0) (W (hbmBase + 10 + 2 ^ 63))).setReg (logReg 0 + 8) 3
      (upTo ((s.logTail 0 + 2 ^ 32 - s.logHead 0) % 2 ^ 32)).find? (fun j => !s.matched.contains (0, (s.logHead 0 + j) % 2 ^ 32)) == some 0 &&
      bitAt (s.reg (logReg 0)) 63 && s.logOn 0)) = true := by decide +kernel

theorem witness_MemoryAndHeadEvents :
    let ld (parts : List (Nat × Nat)) : LoadEnt := ⟨1, 0x200000, [⟨0, 8, hbmBase + 0x200000, 1, .cached⟩], .plain 8 false, .reg 5, parts, [], false⟩
    let loads (l : LoadEnt) (poison : Bool) (f : Ctx → Ctx := id) := let s := (dev (one fun k => { f k with loads := [l] })).mem fun m => { m with
        poison := if poison then [(hbmBase + 0x200000) / 64] else [] }
      has s (fun k => k.loads.find? (fun (e : LoadEnt) => e.id == l.id) == some l && (match l.parts[0]? with
        | some (off, n) => !s.loadHeld 0 k l off n && !s.partDead 0 l off n && (s.loadPart 0 k l off n).2.1 == poison
        | none => false) && (k.a.halted || k.alive .A)) && acts (.loadDataReturn x0 1 0) s
    let e (path : Path) : StoreEnt := ⟨1, 0x200000, hbmBase + 0x200000, 1, path, [(0, 7)]⟩
    let w : HeadWrite := ⟨1, 2, 1, 0, [⟨0x200000, hbmBase + 0x200000, 1, [7]⟩], true⟩
    let f : Fill := ⟨1, 0, 3, 0x200000, 64, 0, false, 0, false, []⟩
    let asking (k : Ctx) : Ctx := { k with m := { k.m with stalled := some .damper }, mat := { k.mat with ask := [(0, 1, 5)] } }
    (loads (ld [(0, 8)]) false && loads (ld [(0, 4), (4, 4)]) false && loads (ld [(0, 8)]) true && loads (ld [(0, 8)]) true (fun k => { k with a := { k.a with plev := true } }) &&
     loads (ld [(0, 8)]) true (fun k => { k with a := { k.a with halted := true } }) &&
     (let s := cxlPage (one fun k => { k with stores := [⟨1, 0x400040, cxlBase, 1, .cached, [(0, 7)]⟩] }) |>.mem fun m => { m with expDown := [] }
      has s (fun k => s.farAt 0 cxlBase 1 && s.cxlTurn x0 k 1 && !s.deadAt 0 cxlBase 1) && acts (.storeDrain x0 1) s) &&
     ([.cached, .msc] : List Path).all (fun p => let s := dev (one fun k => { k with stores := [e p] })
      has s (fun k => k.stores.find? (fun (q : StoreEnt) => q.id == 1) == some (e p) && !s.storeHeld 0 k (e p) && !s.deadAt 0 (e p).pa 1) &&
        acts (.storeDrain x0 1) s) &&
     (([(hbmBase, 7)] : List (Nat × Byte)).all fun b => decide (b.1 < 2 ^ 52)) &&
     (let s := dev (one fun k => { k with hwrites := [w] })
      has s (fun k => k.hwrites.find? (fun (q : HeadWrite) => q.id == w.id) == some w && k.hwrites.find? (fun (q : HeadWrite) => q.hd == w.hd) == some w &&
        !w.pieces.any (fun p => s.expDead p.pa)) && acts (.headWritePerformed x0 1) s) &&
     (let s := dev (one fun k => { k with fills := [f] })
      has s fun k => (s.nextFill x0 k 0 3).or (s.nextFill x0 k 16 3) == some f && !f.zero && (match State.fillPieces 0 k f (pagePieces f.va f.n) s with
        | .ok _ _ => true
        | _ => false)) &&
     (let s := { (one asking).setReg 0 (W (100 * 2 ^ 16 + 1)) with damper := [(0, 50)] }
      (firstAsk (s.ctxs.filter (s.asks 0))).any (fun p => decide ((p.2.mat.ask.map (·.2.2)).sum ≤ tget 0 s.damper 0)) && keep (s.reg 0) 47 0 != 0 &&
      acts (.damperGrant 0) s)) = true := by decide +kernel

/-- A parked WAITW whose condition holds, and a parked GBAR whose whole gang is there: their waits end in the word's next state. -/
theorem witness_ParkedWordsWake :
    let wakes (s : State) (i wake : Instr) (p : Ports) (c : Mach → Opnds → Bool) : Bool :=
      has s (fun k => k.run == .ready && !k.held && k.a.waiting == some i) && (match i.hdr? with
        | none => false
        | some h => (turnB (s.waking x0) i h p).any fun m => (m.opnds h p).act && c (m.taken h p) (m.opnds h p)) && notes .issued (exec wake s)
    let ww (fn : BitVec 8) : S3 := ⟨6, 48, 0, fn⟩
    let gb (fn : BitVec 8) : S3 := ⟨5, 0, 0, fn⟩
    (([0x0F, 0x4F] : List (BitVec 8)).all (fun fn =>
       wakes (onP (.waitw hA (ww fn)) fun k => { k with latches := [(15, some ⟨0x200040, 0x200000, 6, 3⟩)], a := { k.a with waiting := some (.waitw hA (ww fn)) } })
         (.waitw hA (ww fn)) (.waitwWake x0) (s3Ports1 (ww fn)) fun m a => match m.latchAt 15 m.k.needLd false with
           | .ok q t rs s1 =>
             let r := s1.latchOp m.k q t fun _ => none
             waitwHolds (fn.toNat / 32) r.1 (a.v 0) && !m.cleanDead q rs r.2
           | _ => false) &&
     (upTo 4).all (fun n => let fn := BitVec.ofNat 8 n
       wakes (at_ (.gbar hA (gb fn)) fun k => { k with garrived := k.gbars + 1, a := { k.a with waiting := some (.gbar hA (gb fn)) } })
         (.gbar hA (gb fn)) (.gbarDepart x0) (pd 5) fun m _ => decide (m.k.gbars < m.k.garrived) && m.s.meet m.x m.k (m.k.gbars + 1) == .all &&
           !(m.s.gangSpread m.k && m.s.rangesDead (stoveOf m.core) (m.s.allRanges m.core m.k)))) = true := by decide +kernel

theorem witness_HostPortEvents :
    let msg (ty : Byte) (n : Nat) (l : List Byte) : List Byte := ([ty, 0, 0, 0, 5, 0, 0, 0] ++ l ++ List.replicate 256 0).take n
    let up : State := { mapped (one id) with host := { State.reset.host with enabled := true } }
    let down : State := { up with host := { up.host with recovery := true } }
    let open_ (s : State) : Bool := s.mailOpen 0 && !(s.mailbox 0).go
    let stands (s : State) (m : List Byte) (ty : Nat) (c : List Byte → Bool) : Bool :=
      let t := s.setMail 0 ((s.mailbox 0).post m)
      t.mailOpen 0 && (t.mailbox 0).go && (t.mailbox 0).type == ty && msgField (t.mailbox 0).msg 2 2 == 0 && (t.mailbox 0).bytes.length == 256 &&
      t.host.recovery == s.host.recovery && c (t.mailbox 0).msg
    (open_ up && open_ down && !up.host.recovery && down.host.recovery &&
     ([1, 2, 0x10, 0x20, 0x21, 0x22, 0x23] : List Byte).all (fun ty => ((up.mailbox 0).post (msg ty 16 [])).type == ty.toNat) &&
     !([0x0001, 0x0002, 0x0010, 0x0020, 0x0021, 0x0022, 0x0023] : List Nat).contains ((up.mailbox 0).post (msg 0x77 16 [])).type &&
     stands down (msg 1 40 [3]) 1 (fun m => decide (17 ≤ m.length) && decide (m.length ≤ 256) && decide (msgField m 8 8 + (m.length - 16) ≤ 2 ^ 26)) &&
     stands down (msg 2 16 [0, 1]) 2 (fun m => m.length == 16 && decide (msgField m 8 8 < 2 ^ 26)) &&
     stands up (msg 0x10 40 []) 0x10 (fun m => m.length == 40) &&
     stands up (msg 0x20 80 [3, 2]) 0x20 (fun m => m.length == 80 && slotFieldsOk m) &&
     stands up (msg 0x21 16 [63, 3]) 0x21 (fun m => m.length == 16 && slotFieldsOk m) &&
     stands up (msg 0x22 16 [7, 0, 3]) 0x22 (fun m => m.length == 16 && msgField m 8 8 / 64 % 2 ^ 10 == 0 && msgField m 8 8 / 2 ^ 18 == 0) &&
     stands up (msg 0x23 144 [7]) 0x23 (fun m => m.length == 144 && decide (msgField m 8 8 < 64)) &&
     stands up (msg 0x77 16 []) 0x77 (fun _ => true)) = true := by decide +kernel

theorem witness_HostWindows :
    let up : State := { (mapped (one id)).setReg 0xF0800 0x200000 with host := { State.reset.host with enabled := true } }
    let owns : State := (up.setReg 0xF0008 0x40).setReg 0xF0018 0x40
    (up.aperture 0 0x800 8 == some 0x200800 && (match State.hostReach 0 false (pagePieces 0x200800 8) up with
     | .ok l s1 => !(State.hostBytes 0 l s1).2.1
     | _ => false) &&
    pagePieces 0x200800 8 == [(0x200800, 8)] && (match up.hwReach 0 0x200800 true with
     | (.ok _, _) => true
     | _ => false) &&
    up.host.enabled && owns.host.enabled && owns.ownedPages 0 == [1, 3] && decide (0x1FFFF + 1 ≤ 2 ^ 16 * (owns.ownedPages 0).length) &&
    !up.frozen && { up with frozen := true, jtag := { up.jtag with chain := 384 } }.frozen) = true := by decide +kernel

theorem witness_LinkEvents :
    let l : Link := { Link.down with up := true, kept := [(⟨4, true, .idle⟩, 14), (⟨5, true, .idle⟩, 0)] }
    let s : State := (one id).setLink 3 l
    let last : Link := { l with txSeq := BitVec.allOnes 64, under := 2 ^ 64 - 1 }
    let spent (n : Nat) : State := ((one id).setLink 3 { last with under := n, switched := n != 0 }).setReg 0xE0300 4
    let sl : Seal := ⟨true, 9, [1, 2, 3, 4]⟩
    ((s.link 3).up && (s.link 3).rxSeq == 0 && (s.flitAct 3 .idle).isSome && acts (.linkFlitReceive 3 ⟨0, true, .idle⟩) s &&
     acts (.linkFlitReceive 3 ⟨1, true, .idle⟩) s && (l.kept.any fun q => q.1.seq == 4) && (l.kept.all fun q => decide (q.2 < 15)) &&
     acts (.linkResendRequest 3 4) s && acts (.linkLossOfSignal 3) s &&
     ([0, 2] : List Nat).all (fun n => let t : State := (one id).setLink 3 { l with up := false, retraining := true, retrains := n }
       (t.link 3).retraining && acts (.linkRetrainDone 3 true) t && acts (.linkRetrainDone 3 false) t) &&
     acts (.linkAckReceive 3 4) s && acts (.linkAckReceive 3 5) s && (l.kept.all fun q => q.1.seq != 6) &&
     (spent 0).seqSpent 3 && (spent (2 ^ 64)).seqSpent 3 && last.spent sl && ({ l with under := 2 ^ 64 } : Link).spent sl && ({ l with txSeq := 9, keyNew := true } : Link).switches sl && !l.switches sl) = true := by decide +kernel
end Sys2Proof.Tests
end

