-- ==== Sys2Proof/Proofs/Dispatch.lean ====
section
/-! SUPPORT. Dispatch (spec/19 R439 to R448): what accepting a record, committing a bind record, ending a context and completing a
task come to when what each of them awaits holds. -/
namespace Sys2Proof.Machine

/-! ## Accepting a record (R439, R441, R443) -/

/-- The next record of a queue, as the device reads it in its slot (R439). -/
def State.nextWords (s : State) (q : Nat) : List Word × State :=
  s.slotWords (bits (s.reg (qCfg q)) 56 6) q (tget 0 s.accepted q) (s.queueSlot q (tget 0 s.accepted q))

/-- The task that the next record of a queue asks for (R440). -/
def State.nextTask (s : State) (q : Nat) (l : List Word) : Task :=
  taskOf (bits (s.reg (qCfg q)) 56 6) q (tget 0 s.accepted q) (s.queueSlot q (tget 0 s.accepted q)) l

/-- A queue moves past the record with index i, and its task joins the device's. -/
def State.takeRecord (s : State) (q i : Nat) (t : Task) : State :=
  { s with accepted := tset 0 s.accepted q ((i + 1) % 2 ^ 32), tasks := s.tasks ++ [t] }

section Accept
variable {s s1 : State} {queue : BitVec 12} {l : List Word} (hvalid : bitAt (s.reg (qCfg queue.toNat)) 63 = true)
  (hnew : s.queueTail queue.toNat ≠ tget 0 s.accepted queue.toNat) (hread : s.nextWords queue.toNat = (l, s1))
include hvalid hnew hread

/-- A record that passes its checks is accepted, and is ready at once when it awaits nothing. -/
theorem exec_taskRecordAccept_of_ok {s2 : State} (hcheck : s1.checkRecord (s.nextTask queue.toNat l) l = .ok s2) :
    exec (.taskRecordAccept queue) s = .next
      ((s2.takeRecord queue.toNat (tget 0 s.accepted queue.toNat) (s.nextTask queue.toNat l)).sweep (bits (s.reg (qCfg queue.toNat)) 56 6)) := by
  show execTaskRecordAccept queue s = _
  simp only [State.nextWords, State.nextTask] at hread hcheck
  simp [execTaskRecordAccept, hvalid, hnew, hread, hcheck, State.takeRecord, State.nextTask]

/-- A record that fails its checks completes unbound, once that completion can be written; only a bad sequence number is not
marked complete. -/
theorem exec_taskRecordAccept_of_error {st : Byte} {s2 s3 : State} (hcheck : s1.checkRecord (s.nextTask queue.toNat l) l = .error st s2)
    (hwrite : s2.neverBound (bits (s.reg (qCfg queue.toNat)) 56 6) (s.nextTask queue.toNat l).stats
      (s.nextTask queue.toNat l).comp (s.nextTask queue.toNat l).seq st = some s3) :
    let u := (s3.takeRecord queue.toNat (tget 0 s.accepted queue.toNat) { s.nextTask queue.toNat l with out := true }).advanceHead queue.toNat 8192
    exec (.taskRecordAccept queue) s =
      .next (if st = 0xE4 then u else u.markComplete (bits (s.reg (qCfg queue.toNat)) 56 6) (s.nextTask queue.toNat l).seq) := by
  show execTaskRecordAccept queue s = _
  simp only [State.nextWords, State.nextTask] at hread hcheck hwrite
  simp [execTaskRecordAccept, hvalid, hnew, hread, hcheck, hwrite, State.takeRecord, State.nextTask]

end Accept

/-! ## Committing a bind record (R445, R446) -/

/-- The slots that the descriptor names lie in the record's range of the split (R389, R433). -/
theorem BindRec.short_eq_false {b : BindRec} {d : KDesc} (hsize : d.ssize ≤ b.ssize)
    (hslots : (upTo 8).any (fun n => d.slots.testBit n && !(decide ((splitSlots b.split b.second).1 ≤ n) &&
      decide (n < (splitSlots b.split b.second).1 + (splitSlots b.split b.second).2))) = false) : b.short d = false := by
  have hlt : decide (b.ssize < d.ssize) = false := decide_eq_false (by omega)
  simp only [BindRec.short, hlt, hslots, Bool.or_false]

/-- A record that the spread and the partition allow binds its contexts (R18, R446). -/
theorem State.bindOr_of_fits {s : State} {b : BindRec} {d : KDesc} (addr : Nat) (hspread : b.cores.length ≤ 48 ∨ d.spread = true)
    (hfits : b.short d = false) : s.bindOr b d addr = some (s.bindAll b d addr) := by
  have hwide : (decide (48 < b.cores.length) && !b.dormant && !d.spread) = false := by
    rcases hspread with h | h
    · rw [decide_eq_false (by omega)]; rfl
    · simp [h]
  simp [State.bindOr, hwide, hfits]

section Commit
variable {s s1 : State} {v : Word} {l : List Word} (hgo : bitAt v 63 = true) (hhbm : isHbm (bits v 8 44 * 256) = true)
  (hread : s.pkgDwords (rawAcc s 0 0 (bits v 8 44 * 256 / 64)) (bits v 8 44 * 256) 32 = (l, false, s1))
include hgo hhbm hread

/-- A record that is not well formed, or whose banks are not free, is refused. -/
theorem exec_bindCommit_of_refused
    (hbad : (BindRec.ofWords l).ok = false ∨ (BindRec.ofWords l).cores.any (s1.bindRefused (BindRec.ofWords l)) = true) :
    exec (.bindCommit v) s = .next (s1.slotDone v true) := by
  show execBindCommit v s = _
  rcases hbad with h | h <;> simp only [execBindCommit, hgo, hhbm, hread, h, Bool.not_true, Bool.not_false, Bool.or_true, Bool.true_or,
    Bool.false_eq_true, if_true, if_false]

variable (hok : (BindRec.ofWords l).ok = true) (hactive : (BindRec.ofWords l).dormant = false)
  (hgang : s1.gang? (BindRec.ofWords l).vdev (BindRec.ofWords l).seq = none)
  (hopen : s1.isComplete (BindRec.ofWords l).vdev (BindRec.ofWords l).seq = false)
  (hfree : (BindRec.ofWords l).cores.any (s1.bindRefused (BindRec.ofWords l)) = false)
include hok hactive hgang hopen hfree

/-- The record of a waiting task whose banks are free, with a kernel that its partition holds, binds its contexts. -/
theorem exec_bindCommit_of_fits {d : KDesc} {s2 : State} (hdesc : s1.kdesc (BindRec.ofWords l).vdev (BindRec.ofWords l).kdesc.toNat = .ok d s2)
    (hplace : s2.placeRefused (BindRec.ofWords l) d = false) (hspread : (BindRec.ofWords l).cores.length ≤ 48 ∨ d.spread = true)
    (hfits : (BindRec.ofWords l).short d = false) :
    exec (.bindCommit v) s = .next ((s2.bindAll (BindRec.ofWords l) d (bits v 8 44 * 256)).slotDone v false) := by
  show execBindCommit v s = _
  simp [execBindCommit, hgo, hhbm, hread, hok, hactive, hgang, hopen, hfree, hdesc, hplace, State.bindOr_of_fits _ hspread hfits]

/-- One whose descriptor cannot be used completes its task unbound, with 0xE1 (R443). -/
theorem exec_bindCommit_of_bad_desc {s2 s3 : State} (hdesc : s1.kdesc (BindRec.ofWords l).vdev (BindRec.ofWords l).kdesc.toNat = .bad s2)
    (hwrite : s2.bindFail (BindRec.ofWords l) 0xE1 = some s3) : exec (.bindCommit v) s = .next (s3.slotDone v false) := by
  show execBindCommit v s = _
  simp only [execBindCommit, hgo, hhbm, hread, hok, hactive, hgang, hopen, hfree, hdesc, hwrite, Option.isSome_none, Bool.not_true,
    Bool.false_and, Bool.and_false, Bool.or_false, Bool.false_eq_true, if_false, Option.map_some, Option.getD_some]

end Commit

/-! ## The bound context (R272, R447) -/

/-- Each stream is bound at its own entry and trap vector. -/
theorem Ctx.str_init (bd : Binding) (bank : Bool) (tdir : Word) (tst : Bool) (args : Word) (pcs tvecs : Nat → Word) (st : Stream) :
    (Ctx.init bd bank tdir tst args pcs tvecs).str st =
      { StreamSt.init (pcs st.num) (tvecs st.num) with regs := if st = .A ∧ args ≠ 0 then [(0, args)] else [] } := by
  cases st with
  | A => by_cases h : args = 0 <;> simp [Ctx.init, Ctx.str, Stream.num, h]
  | V | M | D => rfl

/-- The A stream's registers are those of one write of the arguments' address to a0. -/
theorem Ctx.a_regs_init (bd : Binding) (bank : Bool) (tdir : Word) (tst : Bool) (args : Word) (pcs tvecs : Nat → Word) :
    (Ctx.init bd bank tdir tst args pcs tvecs).a.regs = tset 0 [] 0 args := rfl

/-- a0 of the A stream holds the arguments' address. -/
theorem Ctx.a_reg_init_zero (bd : Binding) (bank : Bool) (tdir : Word) (tst : Bool) (args : Word) (pcs tvecs : Nat → Word) :
    (Ctx.init bd bank tdir tst args pcs tvecs).a.reg 0 = args := by
  rw [StreamSt.reg, Ctx.a_regs_init, tget_tset_same]

/-- The other registers of the A stream are zero. -/
theorem Ctx.a_reg_init_ne (bd : Binding) (bank : Bool) (tdir : Word) (tst : Bool) (args : Word) (pcs tvecs : Nat → Word) {n : Nat} (hn : n ≠ 0) :
    (Ctx.init bd bank tdir tst args pcs tvecs).a.reg n = 0 := by
  rw [StreamSt.reg, Ctx.a_regs_init, tget_tset_ne 0 [] 0 n args hn, tget]

/-- A key of which no cell is kept reads the default. -/
theorem tget_filter_of_dropped {α : Type} (d : α) (f : Nat × α → Bool) (k : Nat) (h : ∀ v, f (k, v) = false) (t : Tab α) :
    tget d (t.filter f) k = d := by
  induction t with
  | nil => rfl
  | cons p t ih =>
    obtain ⟨j, v⟩ := p
    by_cases hj : f (j, v) = true
    · have hne : k ≠ j := fun e => by rw [← e, h v] at hj; exact Bool.false_ne_true hj
      rw [List.filter_cons_of_pos hj, tget, if_neg hne, ih]
    · rw [List.filter_cons_of_neg hj, ih]

/-- A partition that has been cleared reads zero. -/
theorem State.spByte_clearCore (s : State) (core sbase ssize off : Nat) (hlo : sbase ≤ off) (hhi : off < sbase + ssize) :
    (s.clearCore core sbase ssize).spByte core off = 0 := by
  refine tget_filter_of_dropped 0 _ _ (fun v => ?_) s.ms.spad
  have hl : core * 2 ^ 22 + sbase ≤ core * 2 ^ 22 + off := by omega
  have hh : core * 2 ^ 22 + off < core * 2 ^ 22 + sbase + ssize := by omega
  simp only [decide_eq_true hl, decide_eq_true hh, Bool.and_self, Bool.not_true]

/-- Binding a core puts its context in the core's bank. -/
theorem State.ctx?_bindCore (s : State) (b : BindRec) (d : KDesc) (recAddr core rank gsize : Nat) :
    let k := Ctx.init (b.binding d recAddr rank gsize) b.bank (s.reg (0x30008 + 0x80 * b.vdev)) (bitAt (s.reg (0x20000 + 8 * b.vdev)) 0) b.args
      (fun n => tget 0 d.entry n) (fun n => b.tvecs.getD n 0 &&& 0x003FFFFFFFFFFFF9)
    (s.bindCore b d recAddr core rank gsize).ctx? (b.at_ core) = some { k with held := s.gangOut k } :=
  State.ctx?_setCtx _ _ _

/-- Binding a core clears the partition. -/
theorem State.spByte_bindCore (s : State) (b : BindRec) (d : KDesc) (recAddr core rank gsize off : Nat) (hlo : b.sbase ≤ off)
    (hhi : off < b.sbase + b.ssize) : (s.bindCore b d recAddr core rank gsize).spByte core off = 0 :=
  s.spByte_clearCore core b.sbase b.ssize off hlo hhi

/-! ## The end of a context, and the return of a dormant one (R20, R21, R369) -/

/-- With no ended gang's context saved from a place, CONTEXT_END is the end of the context bound there. -/
theorem exec_contextEnd_of_bound {s : State} {x : CtxRef} {k : Ctx} {g : Gang}
    (hsaved : (s.saved.find? fun (q : Saved) => q.x == x && ((s.gangOf q.k).any fun g => g.endStatus.isSome)) = none)
    (hctx : s.ctx? x = some k) (hgang : s.gangOf k = some g) (hactive : k.bd.dormant = false) :
    exec (.contextEnd x) s = .next (s.endActive x k g) := by
  show execContextEnd x s = _
  simp only [execContextEnd, hsaved, State.endAt, hctx, hgang, hactive, Bool.false_eq_true, if_false]

/-- A context that has halted with nothing on its way ends, and stays in its bank until its task has completed. -/
theorem State.endActive_of_halted {s s1 : State} {x : CtxRef} {k k' : Ctx} {g : Gang} (hrank : g.ended.contains k.bd.rank = false)
    (hhalted : k.allHalted = true) (hready : k.run = .ready) (hquiet : s.quiet x k = true) (hrel : s.release x k = some (k', s1))
    (hdone : g.done = false) :
    s.endActive x k g = ((s1.setCtx x { k' with eng := { k'.eng with
        recs := [], gfail := 0, gfailSeq := 0, gfailStatus := 0, eqFail := none } }).setReg (slotEntry x) 0).gangUpd g.vdev g.task
      fun g => { g with ended := g.ended ++ [k'.bd.rank] } := by
  simp only [State.endActive, hrank, hhalted, hready, hquiet, hrel, hdone, bne_self_eq_false, Bool.not_true, Bool.or_false,
    Bool.false_eq_true, if_false]

/-- A dormant context whose handler has halted returns: it rests where its inbox has no unread entry, and starts again where it
has one. -/
theorem exec_dormantReturn_of_halted {s s1 : State} {x : CtxRef} {k k' : Ctx} (hctx : s.ctx? x = some k) (hdormant : k.bd.dormant = true)
    (hstarted : k.started = true) (hready : k.run = .ready) (hhalted : k.allHalted = true) (hsettled : s.settled x k = true)
    (hrel : s.release x k = some (k', s1)) :
    let rd := bits k'.sr.spkin 24 5
    let off := k'.sr.inboxEntry rd
    exec (.dormantReturn x) s = .next (s1.setCtx x (if bits k'.sr.spkin 32 5 = rd then { k' with run := .dormant, started := false }
      else ({ k' with run := .dormant, started := false } : Ctx).start
        (W (leNat (s1.spRead x.core.toNat (k'.bd.sbase + off + 8) 8))) 1 (W off) 0)) := by
  intro rd off
  show execDormantReturn x s = _
  by_cases hread : bits k'.sr.spkin 32 5 = rd <;>
    simp [execDormantReturn, hctx, hdormant, hstarted, hready, hhalted, hsettled, hrel, hread, rd, off]

/-! ## Completing a task (R374, R444) -/

/-- Memory and the device control space are the same in two states. -/
def State.SameMem (s t : State) : Prop := s.ms = t.ms ∧ s.ctl = t.ctl

/-- Forgetting a gang changes neither memory nor the control space. -/
theorem State.dropGang_sameMem (s : State) (v : Nat) (task : Word) : (s.dropGang v task).SameMem s := ⟨rfl, rfl⟩

/-- Nor does a context that leaves its bank. -/
theorem State.unbindOf_sameMem (s : State) (g : Gang) (x : CtxRef) : (s.unbindOf g x).SameMem s := by
  unfold State.unbindOf
  split
  · exact ⟨rfl, rfl⟩
  · exact ⟨rfl, rfl⟩

/-- Nor do all the contexts of a gang that leave theirs. -/
theorem State.foldl_unbindOf_sameMem (g : Gang) (l : List (CtxRef × Nat)) (s : State) :
    (l.foldl (fun (s : State) (p : CtxRef × Nat) => s.unbindOf g p.1) s).SameMem s :=
  foldl_keeps (fun t : State => t.SameMem s) _
    (fun t p ⟨hms, hctl⟩ => ⟨(t.unbindOf_sameMem g p.1).1.trans hms, (t.unbindOf_sameMem g p.1).2.trans hctl⟩) l s ⟨rfl, rfl⟩

/-- A completion has been written: the task leaves its queue, its gang is done, and the contexts that have ended leave their banks. -/
def State.gangDone (s : State) (v : Nat) (seq : Word) (g : Gang) : State :=
  let s := { s with tasks := s.tasks.filterMap fun (t : Task) =>
    if t.vdev == v && t.seq == seq && t.bound then (if t.index = 2 ^ 32 then none else some { t with bound := false }) else some t }
  let s := s.gangUpd v seq fun g => { g with done := true }
  ((g.members.zipIdx.filter fun (p : CtxRef × Nat) => g.ended.contains p.2).foldl (fun (s : State) (p : CtxRef × Nat) => s.unbindOf g p.1)
    s).dropGang v seq

/-- None of that changes memory or the control space. -/
theorem State.gangDone_sameMem (s : State) (v : Nat) (seq : Word) (g : Gang) : (s.gangDone v seq g).SameMem s :=
  State.foldl_unbindOf_sameMem g _ _

/-- A gang that is done by itself completes its task with the result of its signals. -/
theorem exec_taskComplete_of_done {s s1 : State} {vdev : BitVec 6} {seq : Word} {g : Gang} (hgang : s.gang? vdev.toNat seq = some g)
    (hmay : s.mayComplete g = true) (hend : g.endStatus = none)
    (hwrite : (g.stoves.foldl (fun (s : State) n => s.cleanStove (48 * n) vdev.toNat) s).writeCompletion vdev.toNat g.stats g.comp g.block
      false g.result.1 g.result.2 seq = some s1) :
    exec (.taskComplete vdev seq) s = .next ((s1.gangDone vdev.toNat seq g).markComplete vdev.toNat seq) := by
  show execTaskComplete vdev seq s = _
  simp [execTaskComplete, hgang, hmay, hend, hwrite, State.gangDone]

/-- Settles O55: accepting, raising a floor, binding, ending, returning and completing, each by the lemma that says what its step
comes to. -/
theorem tasksAreAcceptedBoundAndCompleted : Obligations.TasksAreAcceptedBoundAndCompleted := by
  unfold Obligations.TasksAreAcceptedBoundAndCompleted
  refine ⟨?accept, fun _ _ _ => rfl, ?bind, ?context, ?ends, ?returns, ?completes⟩
  case accept =>
    intro s queue l s1 q i vdev addr t hvalid hnew hread
    exact ⟨fun s2 hcheck => exec_taskRecordAccept_of_ok hvalid hnew hread hcheck,
      fun st s2 s3 hcheck hwrite => exec_taskRecordAccept_of_error hvalid hnew hread hcheck hwrite⟩
  case bind =>
    intro s v l s1 addr b hgo hhbm hread
    refine ⟨exec_bindCommit_of_refused hgo hhbm hread, fun hok hactive hgang hopen hfree => ⟨?_, ?_⟩⟩
    · intro d s2 hdesc hplace hspread hsize hslots
      exact exec_bindCommit_of_fits hgo hhbm hread hok hactive hgang hopen hfree hdesc hplace hspread (BindRec.short_eq_false hsize hslots)
    · intro s2 s3 hdesc hwrite
      exact exec_bindCommit_of_bad_desc hgo hhbm hread hok hactive hgang hopen hfree hdesc hwrite
  case context =>
    intro s b d recAddr core rank gsize k
    refine ⟨s.ctx?_bindCore b d recAddr core rank gsize, fun st => ?_, Ctx.a_reg_init_zero .., fun n hn => Ctx.a_reg_init_ne _ _ _ _ _ _ _ hn,
      fun _ => ⟨rfl, rfl, rfl⟩, fun off => s.spByte_bindCore b d recAddr core rank gsize off⟩
    rw [Ctx.str_init]
    exact ⟨rfl, rfl, rfl, rfl⟩
  case ends =>
    intro s x k g k' s1 hsaved hctx hgang hactive hrank hhalted hready hquiet hrel hdone
    rw [exec_contextEnd_of_bound hsaved hctx hgang hactive, State.endActive_of_halted hrank hhalted hready hquiet hrel hdone]
  case returns =>
    intro s x k k' s1 hctx hdormant hstarted hready hhalted hsettled hrel rd off
    have hreturn := exec_dormantReturn_of_halted hctx hdormant hstarted hready hhalted hsettled hrel
    exact ⟨fun hread => by rw [hreturn, if_pos hread], fun hunread => by rw [hreturn, if_neg hunread]⟩
  case completes =>
    intro s vdev seq g s1 hgang hmay hend hwrite
    obtain ⟨hms, hctl⟩ := s1.gangDone_sameMem vdev.toNat seq g
    exact ⟨_, s1.gangDone vdev.toNat seq g, exec_taskComplete_of_done hgang hmay hend hwrite, rfl, hms, hctl⟩

end Sys2Proof.Machine
end

