-- ==== Sys2Proof/Proofs/SpecialWrites.lean ====
section
/-! SUPPORT. SRW (R144, R328, R407), and what a special register reads after a write under its own rule (R397, R398). -/
namespace Sys2Proof.Machine

/-! ## The word -/

/-- What SRW comes to where no command of the equivalence engine holds it. -/
def Mach.srwEffect (m : Mach) (n : Nat) (a : Opnds) : Res :=
  if !a.act then .done m else if n = 0x107 then m.srwInject (a.v 0) else .done (m.srWrite n (a.v 0))

/-- Ports of SRW. -/
def srwPortsOf (o : SI) : Ports := { Ports.none with srcs := [o.s1], resumes := fun p => o.srIndex == 0x107 && p.k == 0 && p.n == 0 }

/-- The commands of the equivalence engine have left, where the register is one of that engine (R328). -/
def Mach.srwClear (m : Mach) (n : Nat) : Prop := eqSr n = true → m.k.eqBusy = false ∧ m.k.eng.running = false

/-- Nothing then holds the word. -/
theorem Mach.srwClear.notHeld {m : Mach} {n : Nat} (hclear : m.srwClear n) : (eqSr n && (m.k.eqBusy || m.k.eng.running)) = false := by
  cases heq : eqSr n with
  | false => rfl
  | true =>
    obtain ⟨hbusy, hrun⟩ := hclear heq
    rw [hbusy, hrun]
    rfl

/-- sr.inject is no register of the equivalence engine. -/
theorem Mach.srwClear_inject (m : Mach) {n : Nat} (hn : n = 0x107) : m.srwClear n := fun heq => by
  rw [hn] at heq
  exact absurd heq (by decide)

/-- SRW completes where it is clear and its effect is done. -/
theorem srw_runs_of_clear {h : Hdr} {o : SI} {c : Mach → Opnds → Prop} {f : Mach → Opnds → Mach}
    (hclear : ∀ m a, c m a → m.srwClear o.srIndex) (heffect : ∀ m a, c m a → m.srwEffect o.srIndex a = .done (f m a)) :
    RunsIf (.srw h o) h (srwPortsOf o) c f :=
  runsIf_of_done_at (fun _ => rfl) fun s m _ hc => by
    simp only [Mach.taken_prog, Option.isSome_none, (hclear _ _ hc).notHeld, Bool.false_eq_true, if_false]
    exact heffect _ _ hc

section Effect
variable {m : Mach} {n : Nat} {a : Opnds}

/-- Under a true guard a register other than sr.inject is written. -/
theorem Mach.srwEffect_write (hact : a.act = true) (hn : n ≠ 0x107) : m.srwEffect n a = .done (m.srWrite n (a.v 0)) := by
  simp only [Mach.srwEffect, hact, Bool.not_true, Bool.false_eq_true, if_false, if_neg hn]

/-- Under a false guard none is. -/
theorem Mach.srwEffect_off (hoff : a.act = false) : m.srwEffect n a = .done m := by
  simp only [Mach.srwEffect, hoff, Bool.not_false, if_true]

/-- Without the tst bit a write of sr.inject is ignored (R407). -/
theorem Mach.srwEffect_inject_ignored (hact : a.act = true) (hn : n = 0x107) (htst : m.k.sr.tst = false) : m.srwEffect n a = .done m := by
  simp only [Mach.srwEffect, Mach.srwInject, hact, hn, htst, Bool.not_true, Bool.not_false, Bool.false_eq_true, if_false, if_true]

/-- Without go it stores its fields, and starts nothing (R407). -/
theorem Mach.srwEffect_inject_stored (hact : a.act = true) (hn : n = 0x107) (htst : m.k.sr.tst = true) (hgo : bitAt (a.v 0) 63 = false) :
    m.srwEffect n a = .done (m.ctx fun k => { k with sr := { k.sr with
      inject := keep (a.v 0) 57 56 ||| keep (a.v 0) 53 6 ||| keep k.sr.inject 62 62, injecting := false } }) := by
  simp only [Mach.srwEffect, Mach.srwInject, hact, hn, htst, hgo, Bool.not_true, Bool.not_false, Bool.false_eq_true, if_false, if_true]

end Effect

/-! ## What a write changes -/

section Write
variable (m : Mach) (n : Nat) (v : Word)

/-- The context's registers take the write under their rules. -/
theorem Mach.srWrite_sr : (m.srWrite n v).k.sr = m.k.sr.write n v := by
  obtain ⟨s, k, st⟩ := m
  cases st <;> rfl

/-- The stream's registers take it under theirs. -/
theorem Mach.srWrite_t : (m.srWrite n v).t = m.t.srWrite n v := by
  obtain ⟨s, k, st⟩ := m
  cases st <;> rfl

/-- Nothing joins or leaves the event queue. -/
theorem Mach.srWrite_evq : (m.srWrite n v).k.evq = m.k.evq := by
  obtain ⟨s, k, st⟩ := m
  cases st <;> rfl

/-- Where neither has a rule for the register, nothing changes. -/
theorem Mach.srWrite_eq_self (hctx : m.k.sr.write n v = m.k.sr) (hstr : m.t.srWrite n v = m.t) : m.srWrite n v = m := by
  obtain ⟨s, k, st⟩ := m
  have hk : ({ k with sr := k.sr.write n v } : Ctx) = k := by rw [hctx]
  have hsame : k.setStr st (k.str st) = k := by cases st <;> rfl
  simp only [Mach.t] at hstr
  simp only [Mach.srWrite, Mach.ctx, Mach.str, Mach.t, hk, hstr, hsame]

end Write

/-- A register that software does not write keeps its value. -/
theorem Mach.srWrite_readOnly (m : Mach) (v : Word) {n : Nat}
    (hn : n ∈ [0x005, 0x006, 0x007, 0x008, 0x009, 0x00C, 0x00D, 0x025, 0x105, 0x106, 0x109]) : m.srWrite n v = m := by
  refine m.srWrite_eq_self n v ?_ ?_ <;> fin_cases hn <;> rfl

/-! ## Fields that a write keeps -/

/-- Two kept fields are what one mask keeps. -/
theorem keep_or_keep (v : Word) (a b c d : Nat) :
    keep v a b ||| keep v c d = v &&& (W (2 ^ (a + 1) - 2 ^ b) ||| W (2 ^ (c + 1) - 2 ^ d)) := by
  simp only [keep, BitVec.and_or_distrib_left]

/-- The low bits of a word are what their mask keeps. -/
theorem setWidth_setWidth_eq_and (v : Word) (n : Nat) (hn : n ≤ 64) : (v.setWidth n).setWidth 64 = v &&& W (2 ^ n - 1) := by
  have hlt : v.toNat % 2 ^ n < 2 ^ 64 := (Nat.mod_lt _ (Nat.two_pow_pos n)).trans_le (Nat.pow_le_pow_right (by omega) hn)
  have hmask : 2 ^ n - 1 < 2 ^ 64 := Nat.sub_one_lt_of_le (Nat.two_pow_pos n) (Nat.pow_le_pow_right (by omega) hn)
  apply BitVec.eq_of_toNat_eq
  rw [BitVec.toNat_setWidth, BitVec.toNat_setWidth, Nat.mod_eq_of_lt hlt, BitVec.toNat_and, W, BitVec.toNat_ofNat,
    Nat.mod_eq_of_lt hmask, Nat.and_two_pow_sub_one_eq_mod]

/-! ## Registers of the stream (R35, R123, R398) -/

section Stream
variable (m : Mach) (v : Word)

/-- sr.cause to sr.tvec and the save registers hold what their fields keep. -/
theorem Mach.trapSr_reads_back :
    (m.srWrite 0x101 v).srValue 0x101 = v &&& 0xFF ∧ (m.srWrite 0x102 v).srValue 0x102 = v &&& 0x003FFFFFFFFFFFF8 ∧
    (m.srWrite 0x103 v).srValue 0x103 = v ∧ (m.srWrite 0x104 v).srValue 0x104 = v &&& 0x003FFFFFFFFFFFF9 ∧
    (m.srWrite 0x118 v).srValue 0x118 = v ∧ (m.srWrite 0x119 v).srValue 0x119 = v := by
  simp only [Mach.srValue, Mach.srWrite_t, StreamSt.srWrite, keep_or_keep, and_true, true_and]
  exact ⟨rfl, rfl, rfl⟩

/-- sr.fpmode drops a rounding mode that it does not name (R35). -/
theorem Mach.fpmode_reads_back :
    (m.srWrite 0x002 v).srValue 0x002 = if 5 ≤ v.toNat % 8 then v &&& 0x78 else v &&& 0x7F := by
  simp only [Mach.srValue, Mach.srWrite_t, StreamSt.srWrite]
  rfl

/-- sr.mloop keeps its old value where the new one is active with an impossible slot (R123). -/
theorem Mach.mloop_reads_back :
    (m.srWrite 0x110 v).srValue 0x110 = (let w := v &&& 0xFFFFFC0000000000
      if bitAt w 63 = true ∧ (bits w 54 6 ≤ bits w 42 6 ∨ bits w 54 6 = 0 ∨ bits w 48 6 = 0) then m.srValue 0x110 else w) := by
  have hkeep : keep v 63 42 = v &&& 0xFFFFFC0000000000 := rfl
  simp only [Mach.srValue, Mach.srWrite_t, StreamSt.srWrite, mloopOf, hkeep, mlAct, mlLen, mlJ, mlII, Bool.and_eq_true, Bool.or_eq_true,
    decide_eq_true_eq, beq_iff_eq, or_assoc]

/-- sr.mround and sr.mtrip hold what is written. -/
theorem Mach.loopCount_reads_back :
    (m.srWrite 0x111 v).srValue 0x111 = v ∧ (m.srWrite 0x112 v).srValue 0x112 = v := by
  simp only [Mach.srValue, Mach.srWrite_t, StreamSt.srWrite, and_self]

end Stream

/-! ## Registers of the context (R38, R51, R71, R246, R280, R366, R372, R397) -/

section Context
variable (m : Mach) (v : Word)

/-- Flags, halted streams, levels and bank stand at their places in sr.status. -/
theorem Mach.bits_status : bits m.status 0 5 = m.k.sr.flags.toNat ∧
    bits m.status 8 9 = m.k.mask4 (·.halted) + m.k.mask4 (·.plev) * 2 ^ 4 + b2n m.x.bank * 2 ^ 8 := by
  have hflags : m.k.sr.flags.toNat < 2 ^ 5 := m.k.sr.flags.isLt
  have hmask : ∀ f, m.k.mask4 f < 2 ^ 4 := by
    intro f
    have hbit : ∀ b, b2n b ≤ 1 := by decide
    have := hbit (f m.k.a); have := hbit (f m.k.v); have := hbit (f m.k.m); have := hbit (f m.k.d)
    simp only [Ctx.mask4]
    omega
  have hhalted := hmask (·.halted)
  have hlevel := hmask (·.plev)
  have hbank : b2n m.x.bank ≤ 1 := by cases m.x.bank <;> decide
  simp only [bits, Mach.status, W, BitVec.toNat_ofNat, Nat.shiftRight_eq_div_pow]
  constructor <;> omega

/-- A write of sr.status sets its flags alone (R51). -/
theorem Mach.status_reads_back :
    (m.srWrite 0x001 v).k.sr.flags = v.setWidth 5 ∧ bits ((m.srWrite 0x001 v).srValue 0x001) 0 5 = bits v 0 5 ∧
    bits ((m.srWrite 0x001 v).srValue 0x001) 8 9 = bits (m.srValue 0x001) 8 9 := by
  have hflags : (m.srWrite 0x001 v).k.sr.flags = v.setWidth 5 := by rw [Mach.srWrite_sr]; rfl
  have hmask : ∀ f, (m.srWrite 0x001 v).k.mask4 f = m.k.mask4 f := by
    intro f
    obtain ⟨s, k, st⟩ := m
    cases st <;> rfl
  refine ⟨hflags, ?_, ?_⟩
  · show bits (m.srWrite 0x001 v).status 0 5 = _
    rw [(Mach.bits_status _).1, hflags, BitVec.toNat_setWidth]
    rfl
  · show bits (m.srWrite 0x001 v).status 8 9 = bits m.status 8 9
    rw [(Mach.bits_status _).2, m.bits_status.2, hmask, hmask]
    rfl

/-- sr.lfsr holds the low 32 bits, 1 in place of 0 (R38). -/
theorem Mach.lfsr_reads_back :
    (m.srWrite 0x003 v).srValue 0x003 = if v.toNat % 2 ^ 32 = 0 then 1 else v &&& 0xFFFFFFFF := by
  have hlow : (v.setWidth 32).setWidth 64 = v &&& 0xFFFFFFFF := setWidth_setWidth_eq_and v 32 (by decide)
  have hbits : bits v 0 32 = v.toNat % 2 ^ 32 := rfl
  simp only [Mach.srValue, Mach.srWrite_sr, CtxSr.write, hbits]
  split
  · rfl
  · exact hlow

/-- sr.syncmask and sr.pkmask hold their low bits. -/
theorem Mach.masks_read_back :
    (m.srWrite 0x004 v).srValue 0x004 = v &&& 0xF ∧ (m.srWrite 0x108 v).srValue 0x108 = v &&& 0xFFFFFFFF := by
  simp only [Mach.srValue, Mach.srWrite_sr, CtxSr.write]
  exact ⟨setWidth_setWidth_eq_and v 4 (by decide), setWidth_setWidth_eq_and v 32 (by decide)⟩

/-- sr.npd is held between its bounds, sr.vtid and sr.dtid to eight bits. -/
theorem Mach.ids_read_back :
    (m.srWrite 0x00B v).srValue 0x00B = BitVec.ofNat 64 (min (2 ^ 30) (max 64 (v.toNat % 2 ^ 32))) ∧
    (m.srWrite 0x020 v).srValue 0x020 = v &&& 0xFF ∧ (m.srWrite 0x021 v).srValue 0x021 = v &&& 0xFF := by
  simp only [Mach.srValue, Mach.srWrite_sr, CtxSr.write]
  exact ⟨rfl, rfl, rfl⟩

/-- A pattern register keeps eight lane numbers (R71). -/
theorem Mach.perm_reads_back {p : Nat} (hp : p < 16) : (m.srWrite (0x10 + p) v).srValue (0x10 + p) = v &&& 0xFFFFFF := by
  have hread : ∀ m : Mach, m.srValue (0x10 + p) = m.k.sr.permReg p := by intro m; interval_cases p <;> rfl
  have hwrite : ∀ r : CtxSr, r.write (0x10 + p) v = { r with perm := tset 0x00FAC688 r.perm p (keep v 23 0) } := by
    intro r
    interval_cases p <;> rfl
  rw [hread, Mach.srWrite_sr, hwrite, CtxSr.permReg, tget_tset_same]
  rfl

/-- sr.spkin keeps what the device counts, and takes the rest (R372). -/
theorem Mach.spkin_reads_back :
    (m.srWrite 0x026 v).srValue 0x026 = (m.srValue 0x026 &&& 0x1F00000000) ||| (v &&& 0x1F7FFFC0) := by
  simp only [Mach.srValue, Mach.srWrite_sr, CtxSr.write, BitVec.or_assoc, keep_or_keep]
  simp only [keep, ← BitVec.and_or_distrib_left]
  rfl

/-- sr.evst takes its two counts, and shows the length of the event queue (R366). -/
theorem Mach.evst_reads_back :
    (m.srWrite 0x027 v).srValue 0x027 = BitVec.ofNat 64 (bits v 16 8 * 2 ^ 16 + bits v 8 8 * 2 ^ 8 + m.k.evq.length) := by
  simp only [Mach.srValue, Ctx.evst, Mach.srWrite_sr, Mach.srWrite_evq, CtxSr.write]
  rfl

/-- sr.mrow is zero at row 0; sr.bdone keeps its mark and its count (R246, R280). -/
theorem Mach.progress_reads_back :
    (m.srWrite 0x113 v).srValue 0x113 = (if v.toNat % 128 = 0 then 0 else v &&& 0x800000000000007F) ∧
    (m.srWrite 0x114 v).srValue 0x114 = v &&& 0x800000000000FFFF := by
  simp only [Mach.srValue, Mach.srWrite_sr, CtxSr.write, mrowOf, keep_or_keep]
  exact ⟨rfl, rfl⟩

end Context

/-! ## Registers of the equivalence engine (R328) -/

/-- With the log emptied, no watch is armed. -/
theorem CtxSr.eqReset_disarmed (r : CtxSr) (w : Nat) : bitAt (tget 0 r.eqReset.eqw w) 63 = false := by
  refine foldl_keeps (fun t : Tab Word => ∀ w, bitAt (tget 0 t w) 63 = false) _ (fun t p hdis w => ?_) r.eqw []
    (fun _ => by simp [tget, bitAt]) w
  have hkeep : bitAt (keep p.2 62 0) 63 = false := by simp [bitAt, keep, W]
  by_cases hw : w = p.1
  · rw [hw, tget_tset_same]
    exact hkeep
  · rw [tget_tset_ne _ _ _ _ _ hw]
    exact hdis w

/-- A write of a register of the engine empties the log and disarms every watch, whatever it stores. -/
theorem CtxSr.write_eqSr {n : Nat} (hn : n ∈ [0x022, 0x023, 0x024]) (r : CtxSr) (v : Word) : ∃ r' : CtxSr, r.write n v = r'.eqReset := by
  fin_cases hn
  · exact ⟨_, rfl⟩
  · exact ⟨_, rfl⟩
  · exact ⟨_, rfl⟩

section Equivalence
variable (m : Mach) (v : Word)

/-- sr.eqpar, sr.eqsz and sr.eqlog hold what their fields keep. -/
theorem Mach.eqSr_reads_back :
    (m.srWrite 0x022 v).srValue 0x022 = BitVec.ofNat 64 (min (bits v 32 21) (2 ^ 20) * 2 ^ 32) ||| (v &&& 0x3FFFFC) ∧
    (m.srWrite 0x023 v).srValue 0x023 = v &&& 0x3FFFFC ∧
    (m.srWrite 0x024 v).srValue 0x024 = (if bits v 32 4 < 4 then 0 else v &&& 0xF00000000) ||| (v &&& 0x3FFFF0) := by
  have hkeep : keep v 21 2 = v &&& 0x3FFFFC := rfl
  simp only [Mach.srValue, Mach.srWrite_sr, CtxSr.write, CtxSr.eqReset, hkeep, W, true_and]
  rfl

/-- After a write of one of them sr.eqst is zero, and no watch is armed. -/
theorem Mach.eqSr_write_resets {n : Nat} (hn : n ∈ [0x022, 0x023, 0x024]) :
    (m.srWrite n v).srValue 0x025 = 0 ∧ ∀ w < 8, bitAt ((m.srWrite n v).srValue (0x28 + w)) 63 = false := by
  obtain ⟨r, hr⟩ := CtxSr.write_eqSr hn m.k.sr v
  refine ⟨?_, fun w hw => ?_⟩
  · show (m.srWrite n v).k.sr.eqst = 0
    rw [Mach.srWrite_sr, hr]
    simp [CtxSr.eqst, CtxSr.eqReset, W]
  · have hread : ∀ m : Mach, m.srValue (0x28 + w) = tget 0 m.k.sr.eqw w := by intro m; interval_cases w <;> rfl
    rw [hread, Mach.srWrite_sr, hr]
    exact r.eqReset_disarmed w

end Equivalence

/-- Settles O28: the word by its effect where it is clear, and each register by what it reads back. -/
theorem specialRegisterWrites : Obligations.SpecialRegisterWrites := by
  unfold Obligations.SpecialRegisterWrites
  refine ⟨?word, ?plain, ?ruled, ?equivalence⟩
  case word =>
    intro h o p clear
    exact ⟨srw_runs_of_clear (fun _ _ ⟨_, hclear, _⟩ => hclear) fun _ _ ⟨hact, _, hn⟩ => Mach.srwEffect_write hact hn,
      srw_runs_of_clear (fun _ _ ⟨_, hclear⟩ => hclear) fun _ _ ⟨hoff, _⟩ => Mach.srwEffect_off hoff,
      srw_runs_of_clear (fun m _ ⟨_, hn, _⟩ => m.srwClear_inject hn) fun _ _ ⟨hact, hn, htst⟩ => Mach.srwEffect_inject_ignored hact hn htst,
      srw_runs_of_clear (fun m _ ⟨_, hn, _⟩ => m.srwClear_inject hn) fun _ _ ⟨hact, hn, htst, hgo⟩ =>
        Mach.srwEffect_inject_stored hact hn htst hgo⟩
  case plain =>
    intro m v
    obtain ⟨hcause, hepc, htval, htvec, hsave0, hsave1⟩ := m.trapSr_reads_back v
    obtain ⟨hsync, hpk⟩ := m.masks_read_back v
    exact ⟨hcause, hepc, htval, htvec, hsave0, hsave1, hsync, hpk, fun n hn => by rw [m.srWrite_readOnly v hn]⟩
  case ruled =>
    intro m v
    obtain ⟨hflags, hlow, hhigh⟩ := m.status_reads_back v
    obtain ⟨hnpd, hvtid, hdtid⟩ := m.ids_read_back v
    obtain ⟨hround, htrip⟩ := m.loopCount_reads_back v
    obtain ⟨hrow, hdone⟩ := m.progress_reads_back v
    exact ⟨hflags, hlow, hhigh, m.fpmode_reads_back v, m.lfsr_reads_back v, hnpd, fun p hp => m.perm_reads_back v hp, hvtid, hdtid,
      m.spkin_reads_back v, m.evst_reads_back v, m.mloop_reads_back v, hround, htrip, hrow, hdone⟩
  case equivalence =>
    intro m v
    obtain ⟨hpar, hsz, hlog⟩ := m.eqSr_reads_back v
    exact ⟨hpar, hsz, hlog, fun n hn => m.eqSr_write_resets v hn⟩

end Sys2Proof.Machine
end

