-- ==== Sys2Proof/Proofs/VectorArith.lean ====
section
/-! SUPPORT. Vector arithmetic and reductions (R48 to R50, R155, R159, R160, R169, R179): where their words complete. -/
namespace Sys2Proof.Machine

/-! ## Element-wise words -/

section Elements
variable {i : Instr} {h : Hdr} {o : V3} {n ty w : Nat}

/-- The results of an element-wise word depend on its computation at lists of n codes alone. -/
theorem VIn.grid_congr (v : VIn) (push : Bool) (w : Nat) {f g : List Nat → RRes} (hfg : ∀ c : List Nat, c.length = n → f c = g c) :
    v.grid push n w f = v.grid push n w g := by
  have hcodes : ∀ r l, f ((upTo n).map fun i => (v.elem i r l).toNat % 2 ^ w) = g ((upTo n).map fun i => (v.elem i r l).toNat % 2 ^ w) :=
    fun r l => hfg _ (by rw [List.length_map, upTo, List.length_range])
  simp only [VIn.grid, hcodes]

/-- So does where the word completes, and with what. -/
theorem ElemRuns.congr {f g : Mach → List Nat → RRes} (e : ElemRuns i h o n ty w f)
    (hfg : ∀ (m : Mach) (c : List Nat), c.length = n → f m c = g m c) : ElemRuns i h o n ty w g := by
  intro s m m1 v hturn hread hcalm
  have hgrid := v.grid_congr (n != 3 && v3Pushes o) w (hfg m1)
  have hcalm' : m1.calm o v n w (f m1) := by rw [Mach.calm, hgrid]; exact hcalm
  have helems : m1.elems o v n w (f m1) = m1.elems o v n w (g m1) := by simp only [Mach.elems, hgrid]
  simp only [e s m m1 v hturn hread hcalm', helems]

/-- The value of a code that a word of n sources reads. -/
theorem fArg_map_decode {f : Fmt} {c : List Nat} {j : Nat} (hj : j < c.length) : fArg (c.map f.decode) j = f.decode (c.getD j 0) := by
  simp [fArg, hj]

/-- The integer that such a code is. -/
theorem iArg_map_ofNat {c : List Nat} {j : Nat} (hj : j < c.length) : iArg (c.map fun x => Int.ofNat x) j = Int.ofNat (c.getD j 0) := by
  simp [iArg, hj]

/-- The result of an arithmetic word of type ty: the exact value x rounded once, or the integer k modulo the width (R48, R159). -/
def Mach.arithRes (m : Mach) (ty : Nat) (x : FVal × BitVec 5) (k : Int) : RRes :=
  if ty ≤ 2 then flagged (arithRound (tyFmt ty) m.rmode x) else plain (toPat (tyWidth ty) k)

/-- The element that an arithmetic word computes from codes. -/
def arithElem (ty : Nat) (ff : Nat → List FVal → FVal × BitVec 5) (fi : List Int → Int) (m : Mach) (c : List Nat) : RRes :=
  m.arithRes ty (ff (arithMode m.rmode) (c.map (tyFmt ty).decode)) (fi (c.map fun x => Int.ofNat x))

/-- An arithmetic word runs element by element. -/
theorem runArith_eq (hn : n = 2 ∨ n = 3) (ff : Nat → List FVal → FVal × BitVec 5) (fi : List Int → Int) (s : State) :
    runArith i h o n ff fi s = runV i h o (vfN n o o.ty.toNat) (n == 3) (rowShaped (vfN n o o.ty.toNat) o (n == 3))
      (elemBody o (n == 3) (List.replicate n (tyWidth o.ty.toNat)) 0 fun m c _ => arithElem o.ty.toNat ff fi m c) s := by
  obtain rfl | rfl := hn <;> rfl

/-- An arithmetic word completes. -/
theorem elemRuns_arith (hn : n = 2 ∨ n = 3) {ff : Nat → List FVal → FVal × BitVec 5} {fi : List Int → Int}
    (e : ∀ s, exec i s = runArith i h o n ff fi s) : ElemRuns i h o n o.ty.toNat (tyWidth o.ty.toNat) (arithElem o.ty.toNat ff fi) :=
  elemRuns_of (f := fun m c _ => arithElem o.ty.toNat ff fi m c) (mode := 0) (by decide) fun s => (e s).trans (runArith_eq hn ff fi s)

/-- An arithmetic word of two sources completes. -/
theorem elemRuns_arith₂ (F : Nat → FVal → FVal → FVal × BitVec 5) (G : Int → Int → Int)
    (e : ∀ s, exec i s = runArith i h o 2 (fun md l => F md (fArg l 0) (fArg l 1)) (fun l => G (iArg l 0) (iArg l 1)) s) :
    ElemRuns i h o 2 o.ty.toNat (tyWidth o.ty.toNat) fun m c => m.arithRes o.ty.toNat
      (F (arithMode m.rmode) ((tyFmt o.ty.toNat).decode (c.getD 0 0)) ((tyFmt o.ty.toNat).decode (c.getD 1 0)))
      (G (Int.ofNat (c.getD 0 0)) (Int.ofNat (c.getD 1 0))) := by
  refine (elemRuns_arith (.inl rfl) e).congr fun m c hc => ?_
  have h0 : 0 < c.length := by omega
  have h1 : 1 < c.length := by omega
  simp only [arithElem, fArg_map_decode h0, fArg_map_decode h1, iArg_map_ofNat h0, iArg_map_ofNat h1]

/-- An arithmetic word of three sources completes. -/
theorem elemRuns_arith₃ (F : Nat → FVal → FVal → FVal → FVal × BitVec 5) (G : Int → Int → Int → Int)
    (e : ∀ s, exec i s = runArith i h o 3 (fun md l => F md (fArg l 0) (fArg l 1) (fArg l 2))
      (fun l => G (iArg l 0) (iArg l 1) (iArg l 2)) s) :
    ElemRuns i h o 3 o.ty.toNat (tyWidth o.ty.toNat) fun m c => m.arithRes o.ty.toNat
      (F (arithMode m.rmode) ((tyFmt o.ty.toNat).decode (c.getD 0 0)) ((tyFmt o.ty.toNat).decode (c.getD 1 0))
        ((tyFmt o.ty.toNat).decode (c.getD 2 0)))
      (G (Int.ofNat (c.getD 0 0)) (Int.ofNat (c.getD 1 0)) (Int.ofNat (c.getD 2 0))) := by
  refine (elemRuns_arith (.inr rfl) e).congr fun m c hc => ?_
  have h0 : 0 < c.length := by omega
  have h1 : 1 < c.length := by omega
  have h2 : 2 < c.length := by omega
  simp only [arithElem, fArg_map_decode h0, fArg_map_decode h1, fArg_map_decode h2, iArg_map_ofNat h0, iArg_map_ofNat h1,
    iArg_map_ofNat h2]

/-- VMIN and VMAX complete with the code that they pick (R160). -/
theorem elemRuns_pick (larger : Bool) (e : ∀ s, exec i s = runPick i h o larger s) :
    ElemRuns i h o 2 o.ty.toNat (tyWidth o.ty.toNat) fun _ c => flagged (pick larger o.ty.toNat (c.getD 0 0) (c.getD 1 0)) :=
  elemRuns_of (f := fun _ c _ => flagged (pick larger o.ty.toNat (c.getD 0 0) (c.getD 1 0))) (mode := 0) (by decide) e

end Elements

/-- Settles O31: five arithmetic words on exact results, rounded or modulo the width, and two that pick. -/
theorem vectorArithmeticCompletes : Obligations.VectorArithmeticCompletes := by
  unfold Obligations.VectorArithmeticCompletes
  intro h o
  exact ⟨elemRuns_arith₂ fAdd (fun a b => a + b) fun _ => rfl,
    elemRuns_arith₂ (fun md x y => fAdd md x y.neg) (fun a b => a - b) fun _ => rfl,
    elemRuns_arith₂ (fun _ => fMul) (fun a b => a * b) fun _ => rfl,
    elemRuns_arith₃ fFma (fun a b c => a * b + c) fun _ => rfl,
    elemRuns_arith₃ (fun md x y z => fFma md x y z.neg) (fun a b c => a * b - c) fun _ => rfl,
    elemRuns_pick false fun _ => rfl, elemRuns_pick true fun _ => rfl⟩

/-! ## Reductions (R169, R179) -/

/-- Counting leaves the stream. -/
theorem Mach.count_t (m : Mach) (tid : Nat) (evs : List Ev) : (m.count tid evs).t = m.t := by
  rw [Mach.t, Mach.count_k, Mach.count_st, ← Mach.t]

/-- So does a change of the special registers of the context. -/
theorem Mach.ctx_sr_t (m : Mach) (f : CtxSr → CtxSr) : (m.ctx fun k => { k with sr := f k.sr }).t = m.t := by
  obtain ⟨s, k, st⟩ := m
  cases st <;> rfl

/-- A word that has delivered its rows completes, when none of its flags is enabled to trap. -/
theorem Mach.putV_afterFlags_calm {m : Mach} {fl : BitVec 5} (o : V3) (v : VIn) (valid : BitVec 64) (rows : List Row)
    (hcalm : trapsOn m.t.fpmode fl = false) : (m.putV o v valid rows).afterFlags fl = .done ((m.putV o v valid rows).raise fl) :=
  Mach.afterFlags_calm _ _ (by rw [Mach.putV_t]; exact hcalm)

/-- The same where it keeps its draws and counts its events. -/
theorem Mach.putV_vEnd_calm {m : Mach} {fl : BitVec 5} (o : V3) (v : VIn) (valid : BitVec 64) (rows : List Row) (lfsr : BitVec 32)
    (evs : List Ev) (hcalm : trapsOn m.t.fpmode fl = false) :
    (m.putV o v valid rows).vEnd lfsr evs fl =
      .done ((((m.putV o v valid rows).ctx fun k => { k with sr := { k.sr with lfsr := lfsr } }).count (m.k.sr.vtid.toNat % 256) evs).raise
        fl) := by
  rw [Mach.vEnd, Mach.putV_sr]
  refine Mach.afterFlags_calm _ _ ?_
  rw [Mach.count_t, Mach.ctx_sr_t _ fun r => { r with lfsr := lfsr }, Mach.putV_t]
  exact hcalm

/-- Settles O35: each word delivers its rows and ends with flags that trap nothing; VQMX keeps its draws and counts its events first. -/
theorem vectorReductionsComplete : Obligations.VectorReductionsComplete := by
  unfold Obligations.VectorReductionsComplete
  intro h o ty sel fs row fed inRow before block rowFlags scanned
  refine ⟨?redRows, ?redCols, ?scan, ?quantize⟩
  case redRows => exact vRunsIf_of_done (fun _ => rfl) fun _ v _ hcalm => Mach.putV_afterFlags_calm o v _ _ hcalm
  case redCols => exact vRunsIf_of_done (fun _ => rfl) fun _ v _ hcalm => Mach.putV_afterFlags_calm o v _ _ hcalm
  case scan => exact vRunsIf_of_done (fun _ => rfl) fun _ v _ hcalm => Mach.putV_afterFlags_calm o v _ _ hcalm
  case quantize => exact vRunsIf_of_done (fun _ => rfl) fun _ v _ hcalm => Mach.putV_vEnd_calm o v _ _ _ _ hcalm

end Sys2Proof.Machine
end

