-- ==== Sys2Proof/Proofs/MatrixState.lean ====
section
/-! SUPPORT. The words on the matrix state that take no rows (R231, R235 to R238, R249, R250). -/
namespace Sys2Proof.Machine

/-- Under a false guard a delivery does not depend on its value: a queue takes an invalid entry, which holds zero (R129, log 33). -/
theorem Mach.put_off (m : Mach) (x : BitVec 6) (v w : Word) (valid : Bool) : m.put x false v valid = m.put x false w false := by
  simp only [Mach.put, Ctx.pushS, Bool.false_and, Bool.and_false, Bool.false_eq_true, if_false]

/-- A scale register keeps 40 bits (R237). -/
theorem keep_39_0 (v : Word) : keep v 39 0 = v &&& 0xFFFFFFFFFF := rfl

/-! ## Words on whole arrays (R231, R235, R238) -/

/-- MSWAP under a true guard exchanges the buffers of its arrays, where each has two. -/
theorem mswap_runs (h : Hdr) (o : MF) :
    RunsIf (.mswap h o) h Ports.none (fun m a => a.act = true ∧ m.k.bd.twoBuf = true)
      (fun m _ => m.mat fun t => { t with front := (amArrays o.am).foldl (fun f a => tset 0 f a (1 - tget 0 f a)) t.front }) :=
  runsIf_of_done (fun _ => rfl) fun m a ⟨hact, htwo⟩ => by simp only [hact, htwo, Bool.and_self, if_true]

/-- With one buffer per array there is nothing to exchange. -/
theorem mswap_one_buffer (h : Hdr) (o : MF) : RunsIf (.mswap h o) h Ports.none (fun m _ => m.k.bd.twoBuf = false) nothing :=
  runsIf_of_done (fun _ => rfl) fun m a hone => by simp only [hone, Bool.and_false, Bool.false_eq_true, if_false, nothing]

/-- MZERO under a true guard clears the rows of a tile in each of its arrays. -/
theorem mzero_runs (h : Hdr) (o : MF) :
    RunsIf (.mzero h o) h Ports.none isAct (fun m _ => m.mat fun t => (amArrays o.am).foldl (fun t a =>
      (upTo o.rows.toNat).foldl (fun t r => t.setTileRow (8 * a + o.acc.toNat % 8) r (List.replicate 64 AccEnt.clear)) t) t) :=
  runsIf_of_done (fun _ => rfl) fun m a hact => by rw [isAct] at hact; simp only [hact, if_true]

/-- MTBLW writes the quarter of its table from the row that its source gives. -/
theorem mtblw_runs (h : Hdr) (o : MF) (x : MRow) (m1 : Mach) :
    RunsIf (.mtblw h o) h Ports.none
      (fun m a => a.act = true ∧ m.dropHeld.mrow ⟨o.src, 7, 0, 1, 8, fun d => d.shape == 1 && d.sp == 0⟩ true 0 = .row x m1)
      (fun _ _ => m1.dropHeld.mat fun t => { t with tbl := tblWrite t.tbl o.acc.toNat (laneRow x.codes) (BitVec.allOnes 64) }) :=
  runsIf_of_done (fun _ => rfl) fun m a ⟨hact, hrow⟩ => by simp only [mtblwBody, hact, hrow]

/-- Under a false guard its source is passed over, and the table keeps its value. -/
theorem mtblw_off (h : Hdr) (o : MF) (m1 : Mach) :
    RunsIf (.mtblw h o) h Ports.none
      (fun m a => a.act = false ∧ m.dropHeld.mrow ⟨o.src, 7, 0, 1, 8, fun d => d.shape == 1 && d.sp == 0⟩ false 0 = .skip m1)
      (fun _ _ => m1.dropHeld) :=
  runsIf_of_done (fun _ => rfl) fun m a ⟨hact, hskip⟩ => by simp only [mtblwBody, hact, hskip]

/-! ## Words on one register (R236, R237) -/

section Registers
variable (h : Hdr) (o : S3)

/-- Ports of a word that delivers an old value and, unless it is read-only, takes a new one. -/
def exchangePorts (readOnly : Bool) : Ports := { Ports.none with srcs := if readOnly then [] else [o.s1], dsts := [o.dst] }

/-- MANC writes its anchor and delivers the old one. -/
theorem manc_runs : RunsIf (.manc h o) h (exchangePorts o (o.fn.getLsbD 5)) (fun _ a => a.act = true ∧ o.fn.getLsbD 5 = false)
    (fun m a => (m.mat fun t => { t with anchors := tset 0 t.anchors (o.fn.toNat % 32) ((a.v 0).setWidth 16) }).put o.dst true
      ((tget 0 m.k.mat.anchors (o.fn.toNat % 32)).signExtend 64) a.valid) :=
  runsIf_of_done (fun _ => rfl) fun m a ⟨hact, hwrite⟩ => by simp only [hact, hwrite, Bool.not_false, Bool.and_self, if_true]

/-- Its read-only form delivers the anchor and keeps it. -/
theorem manc_readOnly : RunsIf (.manc h o) h (exchangePorts o (o.fn.getLsbD 5)) (fun _ a => a.act = true ∧ o.fn.getLsbD 5 = true)
    (fun m a => m.put o.dst true ((tget 0 m.k.mat.anchors (o.fn.toNat % 32)).signExtend 64) a.valid) :=
  runsIf_of_done (fun _ => rfl) fun m a ⟨hact, hread⟩ => by
    simp only [hact, hread, Bool.not_true, Bool.and_false, Bool.false_eq_true, if_false]

/-- A false guard keeps the anchor. -/
theorem manc_off : RunsIf (.manc h o) h (exchangePorts o (o.fn.getLsbD 5)) isOff (fun m _ => m.put o.dst false 0 false) :=
  runsIf_of_done (fun _ => rfl) fun m a hoff => by
    rw [isOff] at hoff
    simp only [hoff, Bool.false_and, Bool.false_eq_true, if_false]
    rw [m.put_off o.dst _ 0]

/-- MTSC writes its scale register and delivers the old value. -/
theorem mtsc_runs : RunsIf (.mtsc h o) h (exchangePorts o (o.fn.getLsbD 2)) (fun _ a => a.act = true ∧ o.fn.getLsbD 2 = false)
    (fun m a => (m.mat fun t => { t with ts := tset 0x3F800000 t.ts (o.fn.toNat % 4) (a.v 0 &&& 0xFFFFFFFFFF) }).put o.dst true
      (m.k.mat.tsReg (o.fn.toNat % 4)) a.valid) :=
  runsIf_of_done (fun _ => rfl) fun m a ⟨hact, hwrite⟩ => by simp only [hact, hwrite, keep_39_0, Bool.not_false, Bool.and_self, if_true]

/-- Its read-only form delivers the register and keeps it. -/
theorem mtsc_readOnly : RunsIf (.mtsc h o) h (exchangePorts o (o.fn.getLsbD 2)) (fun _ a => a.act = true ∧ o.fn.getLsbD 2 = true)
    (fun m a => m.put o.dst true (m.k.mat.tsReg (o.fn.toNat % 4)) a.valid) :=
  runsIf_of_done (fun _ => rfl) fun m a ⟨hact, hread⟩ => by
    simp only [hact, hread, Bool.not_true, Bool.and_false, Bool.false_eq_true, if_false]

/-- A false guard keeps the scale register. -/
theorem mtsc_off : RunsIf (.mtsc h o) h (exchangePorts o (o.fn.getLsbD 2)) isOff (fun m _ => m.put o.dst false 0 false) :=
  runsIf_of_done (fun _ => rfl) fun m a hoff => by
    rw [isOff] at hoff
    simp only [hoff, Bool.false_and, Bool.false_eq_true, if_false]
    rw [m.put_off o.dst _ 0]

end Registers

/-- Settles O41: each word by what its body comes to; MEST and MSTAT are done on every machine. -/
theorem matrixStateWords : Obligations.MatrixStateWords := by
  unfold Obligations.MatrixStateWords
  refine ⟨fun h o => ⟨mswap_runs h o, mzero_runs h o, mtblw_runs h o, mtblw_off h o, mswap_one_buffer h o⟩, fun h o => ?_⟩
  exact ⟨manc_runs h o, mtsc_runs h o, ⟨manc_readOnly h o, manc_off h o⟩, ⟨mtsc_readOnly h o, mtsc_off h o⟩,
    runs_of_done (fun _ => rfl) fun _ _ => rfl, runs_of_done (fun _ => rfl) fun _ _ => rfl⟩

end Sys2Proof.Machine
end

