-- ==== Sys2Proof/Proofs/Encoding.lean ====
section
/-! SUPPORT. Instruction words (spec/03 R57, R58, R75 to R90): a format gives its fields back, the opcode table its instruction, and
so the decoder the instruction of a word. -/
namespace Sys2Proof.Machine

/-! ## Formats: what a word's low 43 bits give back (R75 to R83, R239) -/

section Formats
variable (x : BitVec 21)

/-- The low 43 bits of a word are its format's. -/
theorem getLsbD_append_low (b : BitVec 43) {i : Nat} (hi : i < 43) : (x ++ b : BitVec 64).getLsbD i = b.getLsbD i := by
  rw [BitVec.getLsbD_append, if_pos hi]

/-- So is a field that lies among them. -/
theorem extractLsb'_append_low {b : BitVec 43} {len k : Nat} {f : BitVec len} (hk : k + len ≤ 43)
    (hf : ∀ i < len, b.getLsbD (k + i) = f.getLsbD i) : (x ++ b : BitVec 64).extractLsb' k len = f :=
  BitVec.eq_of_getLsbD_eq fun i hi => by
    rw [BitVec.getLsbD_extractLsb', decide_eq_true hi, Bool.true_and, getLsbD_append_low x b (by omega), hf i hi]

/-- Format S3. -/
theorem getS3_append (o : S3) : getS3 (x ++ putS3 o : BitVec 64) = o := by
  cases o
  simp only [getS3, S3.mk.injEq]
  refine ⟨?_, ?_, ?_, ?_⟩
  all_goals
    refine extractLsb'_append_low x (by decide) fun i hi => ?_
    change BitVec.getLsbD (w := 6 + 6 + 6 + 8 + 17) _ _ = _
    simp (disch := omega) only [putS3, BitVec.getLsbD_append, if_pos, if_neg]
    simp only [Nat.sub_sub, Nat.reduceAdd, Nat.add_sub_cancel_left]

/-- Format SI. -/
theorem getSI_append (o : SI) : getSI (x ++ putSI o : BitVec 64) = o := by
  cases o
  simp only [getSI, SI.mk.injEq]
  refine ⟨?_, ?_, ?_⟩
  all_goals
    refine extractLsb'_append_low x (by decide) fun i hi => ?_
    change BitVec.getLsbD (w := 6 + 6 + 31) _ _ = _
    simp (disch := omega) only [putSI, BitVec.getLsbD_append, if_pos, if_neg]
    simp only [Nat.sub_sub, Nat.reduceAdd, Nat.add_sub_cancel_left, Nat.zero_add]

/-- Format SB. -/
theorem getSB_append (o : SB) : getSB (x ++ putSB o : BitVec 64) = o := by
  cases o
  simp only [getSB, SB.mk.injEq]
  refine ⟨?_, ?_⟩
  all_goals
    refine extractLsb'_append_low x (by decide) fun i hi => ?_
    change BitVec.getLsbD (w := 6 + 6 + 31) _ _ = _
    simp (disch := omega) only [putSB, BitVec.getLsbD_append, if_pos, if_neg]
    simp only [Nat.sub_sub, Nat.reduceAdd, Nat.add_sub_cancel_left, Nat.zero_add]

/-- Format L. -/
theorem getL_append (o : L) : getL (x ++ putL o : BitVec 64) = o := by
  cases o
  simp only [getL, L.mk.injEq]
  refine ⟨?_, ?_, ?_, ?_, ?_, ?_⟩
  all_goals
    refine extractLsb'_append_low x (by decide) fun i hi => ?_
    change BitVec.getLsbD (w := 6 + 6 + 6 + 3 + 3 + 19) _ _ = _
    simp (disch := omega) only [putL, BitVec.getLsbD_append, if_pos, if_neg]
    simp only [Nat.sub_sub, Nat.reduceAdd, Nat.add_sub_cancel_left, Nat.zero_add]

/-- Format H. -/
theorem getH_append (o : H) : getH (x ++ putH o : BitVec 64) = o := by
  cases o
  simp only [getH, H.mk.injEq]
  refine ⟨?_, ?_, ?_, ?_, ?_⟩
  all_goals
    refine extractLsb'_append_low x (by decide) fun i hi => ?_
    change BitVec.getLsbD (w := 4 + 6 + 16 + 2 + 15) _ _ = _
    simp (disch := omega) only [putH, BitVec.getLsbD_append, if_pos, if_neg]
    simp only [Nat.sub_sub, Nat.reduceAdd, Nat.add_sub_cancel_left, Nat.zero_add]

/-- Format E. -/
theorem getE_append (o : E) : getE (x ++ putE o : BitVec 64) = o := by
  cases o
  simp only [getE, E.mk.injEq]
  refine ⟨?_, ?_, ?_, ?_, ?_, ?_⟩
  all_goals
    refine extractLsb'_append_low x (by decide) fun i hi => ?_
    change BitVec.getLsbD (w := 6 + 6 + 6 + 8 + 8 + 9) _ _ = _
    simp (disch := omega) only [putE, BitVec.getLsbD_append, if_pos, if_neg]
    simp only [Nat.sub_sub, Nat.reduceAdd, Nat.add_sub_cancel_left, Nat.zero_add]

/-- Format ML. -/
theorem getML_append (o : ML) : getML (x ++ putML o : BitVec 64) = o := by
  cases o
  simp only [getML, ML.mk.injEq]
  refine ⟨?_, ?_, ?_⟩
  all_goals
    refine extractLsb'_append_low x (by decide) fun i hi => ?_
    change BitVec.getLsbD (w := 6 + 6 + 6 + 25) _ _ = _
    simp (disch := omega) only [putML, BitVec.getLsbD_append, if_pos, if_neg]
    simp only [Nat.sub_sub, Nat.reduceAdd, Nat.add_sub_cancel_left]

/-- Format V3. -/
theorem getV3_append (o : V3) : getV3 (x ++ putV3 o : BitVec 64) = o := by
  cases o
  simp only [getV3, V3.mk.injEq]
  refine ⟨?_, ?_, ?_, ?_, ?_, ?_, ?_⟩
  all_goals
    refine extractLsb'_append_low x (by decide) fun i hi => ?_
    change BitVec.getLsbD (w := 5 + 8 + 8 + 8 + 4 + 2 + 8) _ _ = _
    simp (disch := omega) only [putV3, BitVec.getLsbD_append, if_pos, if_neg]
    simp only [Nat.sub_sub, Nat.reduceAdd, Nat.add_sub_cancel_left, Nat.zero_add]

/-- Format MF. -/
theorem getMF_append (o : MF) : getMF (x ++ putMF o : BitVec 64) = o := by
  cases o
  simp only [getMF, MF.mk.injEq]
  refine ⟨?_, ?_, ?_, ?_, ?_, ?_, ?_, ?_, ?_, ?_, ?_⟩
  case refine_10 =>
    rw [getLsbD_append_low x _ (by decide)]
    change BitVec.getLsbD (w := 3 + 5 + 8 + 4 + 2 + 2 + 3 + 7 + 2 + 1 + 2 + 4) _ _ = _
    simp (disch := omega) only [putMF, BitVec.getLsbD_append, if_pos, if_neg, Nat.reduceSub, BitVec.getLsbD_ofBool, decide_true,
      Bool.true_and]
  all_goals
    refine extractLsb'_append_low x (by decide) fun i hi => ?_
    change BitVec.getLsbD (w := 3 + 5 + 8 + 4 + 2 + 2 + 3 + 7 + 2 + 1 + 2 + 4) _ _ = _
    simp (disch := omega) only [putMF, BitVec.getLsbD_append, if_pos, if_neg]
    simp only [Nat.sub_sub, Nat.reduceAdd, Nat.add_sub_cancel_left]

/-- Format DR. -/
theorem getDR_append (o : DR) : getDR (x ++ putDR o : BitVec 64) = o := by
  cases o
  simp only [getDR, DR.mk.injEq]
  refine ⟨?_, ?_, ?_, ?_, ?_, ?_, ?_, ?_, ?_⟩
  case refine_7 | refine_8 =>
    rw [getLsbD_append_low x _ (by decide)]
    change BitVec.getLsbD (w := 3 + 5 + 8 + 4 + 3 + 2 + 1 + 1 + 7 + 9) _ _ = _
    simp (disch := omega) only [putDR, BitVec.getLsbD_append, if_pos, if_neg, Nat.reduceSub, BitVec.getLsbD_ofBool, decide_true,
      Bool.true_and]
  all_goals
    refine extractLsb'_append_low x (by decide) fun i hi => ?_
    change BitVec.getLsbD (w := 3 + 5 + 8 + 4 + 3 + 2 + 1 + 1 + 7 + 9) _ _ = _
    simp (disch := omega) only [putDR, BitVec.getLsbD_append, if_pos, if_neg]
    simp only [Nat.sub_sub, Nat.reduceAdd, Nat.add_sub_cancel_left]

end Formats

/-! ## Opcode tables: an instruction's opcode names it, and its fields are read from its word -/

section Tables
variable {i : Instr} {h : Hdr} (hh : i.hdr? = some h) (x : BitVec 21)
include hh

/-- The shared opcodes (R84). -/
theorem sharedOp_append (hi : i.cluster = none) : sharedOp i.opc.toNat h (x ++ i.body : BitVec 64) = some i := by
  cases i with
  | add h o | sub h o | mul h o | mulhi h o | mulhis h o | div h o | divs h o | rem h o | rems h o | and h o | or h o | xor h o
    | andn h o | shl h o | shr h o | sra h o | rol h o | min h o | mins h o | max h o | maxs h o | sel h o | cmp h o | gop h o
    | bfx h o | bfxs h o | bfi h o | fshl h o | fshr h o | popc h o | clz h o | ctz h o | brev h o | qstat h o | pkw h o
    | eret h o | yield h o | halt h o | nop h o =>
    cases hh
    exact congrArg some (congrArg _ (getS3_append x o))
  | addi h o | andi h o | ori h o | xori h o | shli h o | shri h o | srai h o | cmpi h o | li h o | lih h o | srr h o | srw h o
    | trap h o | wait h o =>
    cases hh
    exact congrArg some (congrArg _ (getSI_append x o))
  | br h o | call h o | ret h o | jmpr h o | brq h o =>
    cases hh
    exact congrArg some (congrArg _ (getSB_append x o))
  | modl h o =>
    cases hh
    exact congrArg some (congrArg _ (getML_append x o))
  | hstep h o | hmark h o | hrew h o | hstat h o =>
    cases hh
    exact congrArg some (congrArg _ (getH_append x o))
  | _ => cases hi <;> cases hh

/-- The A cluster (R85). -/
theorem clusterAOp_append (hi : i.cluster = some .A) : clusterAOp i.opc.toNat h (x ++ i.body : BitVec 64) = some i := by
  cases i with
  | lds h o | sts h o | ldq h o | stq h o | satom h o | ldg h o | stg h o | gatom h o | cmo h o | ldw h o =>
    cases hh
    exact congrArg some (congrArg _ (getL_append x o))
  | lbind h o | acq h o | rel h o | fence h o | gbar h o | waitw h o | wbind h o | wrel h o | topen h o | tseal h o | tstat h o
    | deq h o | engst h o | eva h o | evw h o | evq h o | tksig h o =>
    cases hh
    exact congrArg some (congrArg _ (getS3_append x o))
  | wadv h o =>
    cases hh
    exact congrArg some (congrArg _ (getSI_append x o))
  | hbind h o | hunb h o =>
    cases hh
    exact congrArg some (congrArg _ (getH_append x o))
  | cpym h o | cpys h o | cgth h o | csct h o | cpgi h o | rput h o | rget h o | gadd h o | gamo h o | gqop h o | gred h o
    | gaxpy h o | gfen h o | eqclr h o | equ h o | eqf h o | eqz h o | eqr h o | eqsnp h o | eqund h o | spk h o | tkenq h o =>
    cases hh
    exact congrArg some (congrArg _ (getE_append x o))
  | _ => cases hi

/-- The V cluster (R86). -/
theorem clusterVOp_append (hi : i.cluster = some .V) : clusterVOp i.opc.toNat h (x ++ i.body : BitVec 64) = some i := by
  cases i with
  | vadd h o | vsub h o | vmul h o | vfma h o | vfms h o | vmin h o | vmax h o | vabs h o | vneg h o | vand h o | vor h o
    | vxor h o | vshl h o | vshr h o | vsra h o | vcmp h o | kop h o | kpop h o | kmov h o | vsel h o | vrcp h o | vsqrt h o
    | vrsq h o | vexp2 h o | vlog2 h o | vcvt h o | vqmx h o | vtbl h o | vtblw h o | vrotr h o | vrotc h o | vbcr h o | vbcc h o
    | vredr h o | vredc h o | vscanr h o | vtrb h o | vmov h o | vspl h o | viota h o | vext h o | vins h o =>
    cases hh
    exact congrArg some (congrArg _ (getV3_append x o))
  | _ => cases hi

/-- The M cluster (R87). -/
theorem clusterMOp_append (hi : i.cluster = some .M) : clusterMOp i.opc.toNat h (x ++ i.body : BitVec 64) = some i := by
  cases i with
  | mld h o | mlds h o | mswap h o | mma h o | mmas h o | mzero h o | mtblw h o =>
    cases hh
    exact congrArg some (congrArg _ (getMF_append x o))
  | manc h o | mest h o | mstat h o | mtsc h o =>
    cases hh
    exact congrArg some (congrArg _ (getS3_append x o))
  | mdr h o | mdrt h o =>
    cases hh
    exact congrArg some (congrArg _ (getDR_append x o))
  | _ => cases hi

/-- The D cluster (R87). -/
theorem clusterDOp_append (hi : i.cluster = some .D) : clusterDOp i.opc.toNat h (x ++ i.body : BitVec 64) = some i := by
  cases i with
  | trec h o | tupd h o | tflsh h o =>
    cases hh
    exact congrArg some (congrArg _ (getH_append x o))
  | dstat h o =>
    cases hh
    exact congrArg some (congrArg _ (getS3_append x o))
  | _ => cases hi

omit x

/-- A shared opcode lies below 64, and is not that of ILL. -/
theorem Instr.opc_shared (hi : i.cluster = none) : 0 < i.opc.toNat ∧ i.opc.toNat < 64 := by
  cases i <;> cases hi <;> cases hh <;> exact ⟨Nat.le_of_ble_eq_true rfl, Nat.le_of_ble_eq_true rfl⟩

/-- A cluster's own opcodes begin at 64. -/
theorem Instr.opc_cluster {st : Stream} (hi : i.cluster = some st) : 64 ≤ i.opc.toNat := by
  cases i <;> cases hi <;> cases hh <;> exact Nat.le_of_ble_eq_true rfl

end Tables

/-! ## Words -/

/-- A stream is the one that its CL code names (R58). -/
@[simp] theorem Stream.ofCl_cl (st : Stream) : Stream.ofCl st.cl = st := by cases st <;> rfl

/-- A word of opcode 0 is ILL, whatever its other bits (R90). -/
theorem parse_ill {w : Word} (hop : w.extractLsb' 43 7 = 0) : parse w = .ill w := by
  unfold parse
  exact if_pos (congrArg BitVec.toNat hop)

/-- The opcode of a word, as its bits give it (R58). -/
theorem toNat_opcode (w : Word) : (w.extractLsb' 43 7).toNat = bits w 43 7 := BitVec.extractLsb'_toNat ..

/-- The table of a cluster's own opcodes (R85 to R87). -/
def clusterOp : Stream → Nat → Hdr → Word → Option Instr
  | .A => clusterAOp
  | .V => clusterVOp
  | .M => clusterMOp
  | .D => clusterDOp

/-- A word with a shared opcode is looked up in the shared table. -/
theorem parse_shared {w : Word} (hpos : 0 < bits w 43 7) (hlt : bits w 43 7 < 64) :
    parse w = (sharedOp (bits w 43 7) (getHdr w) w).getD (.unassignedOpcodeWord w) := by
  simp only [parse, toNat_opcode, if_neg hpos.ne', if_pos hlt]

/-- Every other one in the table of the cluster that its CL names. -/
theorem parse_cluster {w : Word} {st : Stream} (hcl : (getHdr w).cl = st.cl) (hge : 64 ≤ bits w 43 7) :
    parse w = (clusterOp st (bits w 43 7) (getHdr w) w).getD (.unassignedOpcodeWord w) := by
  have hne : bits w 43 7 ≠ 0 := by omega
  simp only [parse, toNat_opcode, if_neg hne, if_neg (Nat.not_lt.mpr hge), hcl, Stream.ofCl_cl]
  cases st <;> rfl

/-- The first opcode that a cluster leaves unassigned (R88). -/
def firstUnassigned : Stream → Nat
  | .A => 0x74
  | .V => 0x6A
  | .M => 0x4D
  | .D => 0x44

/-- From it on the table names nothing. -/
theorem clusterOp_unassigned {st : Stream} {op : Nat} (h : Hdr) (w : Word) (hlt : op < 128) (hge : firstUnassigned st ≤ op) :
    clusterOp st op h w = none := by
  cases st <;> simp only [firstUnassigned] at hge <;> interval_cases op <;> rfl

section Words
variable {i : Instr} {h : Hdr} (hh : i.hdr? = some h)
include hh

/-- An instruction with a header has it, its opcode and its format's bits as its word (R57, R58). -/
theorem encode_of_hdr : encode i = (putHdr h i.opc ++ i.body : BitVec 64) := by
  unfold encode
  split
  · cases hh
  · cases hh
  · rw [hh]

/-- The table of its cluster finds it. -/
theorem clusterOp_append (x : BitVec 21) {st : Stream} (hi : i.cluster = some st) :
    clusterOp st i.opc.toNat h (x ++ i.body : BitVec 64) = some i := by
  cases st with
  | A => exact clusterAOp_append hh x hi
  | V => exact clusterVOp_append hh x hi
  | M => exact clusterMOp_append hh x hi
  | D => exact clusterDOp_append hh x hi

/-- Its word is parsed as itself: its opcode leads to its table, and the table reads its fields. -/
theorem parse_encode (hcl : i.clOk = true) : parse (encode i) = i := by
  have hopc : bits (encode i) 43 7 = i.opc.toNat := by rw [← toNat_opcode, encode_of_hdr hh, Laws.opcode_put]
  have hhdr : getHdr (encode i) = h := by rw [encode_of_hdr hh, Laws.getHdr_put]
  cases hi : i.cluster with
  | none =>
    obtain ⟨hpos, hlt⟩ := Instr.opc_shared hh hi
    rw [parse_shared (hopc ▸ hpos) (hopc ▸ hlt), hopc, hhdr, encode_of_hdr hh, sharedOp_append hh _ hi, Option.getD_some]
  | some st =>
    have hst : h.cl = st.cl := by simpa only [Instr.clOk, hi, hh, beq_iff_eq] using hcl
    rw [parse_cluster (hhdr ▸ hst) (hopc ▸ Instr.opc_cluster hh hi), hopc, hhdr, encode_of_hdr hh, clusterOp_append hh _ hi,
      Option.getD_some]

end Words

/-- A word that is parsed as a well-formed instruction, whose word it is, decodes to it. -/
theorem decode_of_parse {w : Word} {i : Instr} (hparse : parse w = i) (henc : encode i = w) (hwf : i.wf = true) : decode w = .ok i := by
  simp only [decode, hparse, henc, hwf, ne_eq, not_true_eq_false, if_false, if_true]

/-- So does one whose cluster leaves its opcode unassigned, to no instruction (R88). -/
theorem decode_unassigned {w : Word} {st : Stream} (hcl : bits w 50 2 = st.cl.toNat) (hop : firstUnassigned st ≤ bits w 43 7) :
    decode w = .ok (.unassignedOpcodeWord w) := by
  have hhdr : (getHdr w).cl = st.cl := BitVec.eq_of_toNat_eq ((BitVec.extractLsb'_toNat ..).trans hcl)
  have hge : 64 ≤ bits w 43 7 := le_trans (by cases st <;> decide) hop
  refine decode_of_parse ?_ rfl rfl
  have hlt : bits w 43 7 < 128 := Nat.mod_lt _ (by decide)
  rw [parse_cluster hhdr hge, clusterOp_unassigned _ _ hlt hop, Option.getD_none]

/-- Settles O1: an instruction with a header is parsed as itself; ILL is any word of opcode 0. -/
theorem decodingAnEncodedWordGivesItBack : Obligations.DecodingAnEncodedWordGivesItBack := by
  unfold Obligations.DecodingAnEncodedWordGivesItBack
  rintro i (hsome | ⟨w, rfl⟩) hwf
  · obtain ⟨h, hh⟩ := Option.isSome_iff_exists.mp hsome
    obtain ⟨hcl, -⟩ := Bool.and_eq_true_iff.mp hwf
    exact decode_of_parse (parse_encode hh hcl) rfl hwf
  · obtain ⟨-, hop⟩ := Bool.and_eq_true_iff.mp hwf
    exact decode_of_parse (parse_ill (beq_iff_eq.mp hop)) rfl hwf

/-- Settles O2: the decoder accepts nothing else. -/
theorem decodedInstructionsHaveThatWord : Obligations.DecodedInstructionsHaveThatWord := by
  unfold Obligations.DecodedInstructionsHaveThatWord
  intro w i hdec
  simp only [decode] at hdec
  split at hdec
  · cases hdec
  · next henc =>
    split at hdec
    · next hwf =>
      cases hdec
      exact ⟨not_not.mp henc, hwf⟩
    · cases hdec

/-- Settles O3: nine closed words. -/
theorem specWordsDecode : Obligations.SpecWordsDecode := by
  unfold Obligations.SpecWordsDecode
  decide

end Sys2Proof.Machine
end

