-- ==== Sys2Proof/Proofs/Checks.lean ====
section
/-! SUPPORT. The checks of a word before it issues (R90, R91, R406), and the step that runs it (R57, R88, R113). -/
namespace Sys2Proof.Machine

/-! ## A word that fails a check (R90) -/

/-- Every word with a header issues through the shared path, with the ports and the body of its own rule. -/
theorem exec_eq_issueWord {i : Instr} {h : Hdr} (hh : i.hdr? = some h) : ∃ p body, ∀ s, exec i s = issueWord i h p body s := by
  cases i <;> cases hh <;> exact ⟨_, _, fun _ => rfl⟩

/-- A word whose stream can issue runs on the machine that is taken out. -/
theorem issueWord_of_enter {s : State} {m : Mach} (i : Instr) (h : Hdr) (p : Ports) (body : Mach → Opnds → Res)
    (henter : (Mach.enter s).1 = some m) : issueWord i h p body s = .next (m.issueIn i h p body) := by
  unfold issueWord
  generalize Mach.enter s = r at henter
  obtain ⟨o, s'⟩ := r
  cases henter
  rfl

/-- A word at the head of its stream that fails a check of R90 takes its cause, the word in sr.tval. -/
theorem exec_of_checkWord {s : State} {m : Mach} {i : Instr} {h : Hdr} {c : BitVec 8} (a : AtHead s m h) (hh : i.hdr? = some h)
    (hcheck : m.checkWord i h = some c) (hword : (c = 0x06 || c = 0x07) = false) :
    exec i s = .next ((m.woken.takeTrap c (encode i) m.t.pc).leave (.trapped c)) := by
  obtain ⟨henter, hpaid, hawake, hfence, hfill, hslot⟩ := a
  obtain ⟨p, body, hexec⟩ := exec_eq_issueWord hh
  have hwoken :
      ((m.str fun t => { t with wakeAt := none }).ctx fun k => if m.st == .A then { k with fenced := false } else k) = m.woken := rfl
  have hsquash : m.woken.t.squashed h.ms.toNat = false := by rw [Mach.woken_t]; exact hslot
  have hpc : m.woken.t.pc = m.t.pc := by rw [Mach.woken_t]
  rw [hexec, issueWord_of_enter i h p body henter]
  simp only [Mach.issueIn, Mach.payOwed_zero m hpaid, hpaid, hawake, hfence, hfill, hwoken, hsquash, Mach.woken_check, hcheck, hword, hpc,
    bne_self_eq_false, Bool.false_eq_true, if_false]

/-- A word that is none takes cause 0x02, the word in sr.tval (R88). -/
theorem illegalWord_of_enter {s : State} {m : Mach} (w : Word) (henter : (Mach.enter s).1 = some m) :
    illegalWord w s = .next ((m.takeTrap 0x02 w m.t.pc).leave (.trapped 0x02)) := by
  unfold illegalWord
  generalize Mach.enter s = r at henter
  obtain ⟨o, s'⟩ := r
  cases henter
  rfl

/-- A word of another cluster, one that is not well formed and one with a modulo stage outside a body are illegal. -/
theorem Mach.checkWord_illegal {m : Mach} {i : Instr} {h : Hdr}
    (hbad : h.cl ≠ m.st.cl ∨ i.wf = false ∨ (h.ms ≠ 0 ∧ m.t.inBody = false)) : m.checkWord i h = some 0x02 := by
  have hcond : (h.cl != m.st.cl || !i.wf || (h.ms != 0 && !m.t.inBody)) = true := by
    rcases hbad with hcl | hwf | ⟨hms, hbody⟩
    · simp [hcl]
    · simp [hwf]
    · rw [hbody, bne_iff_ne.mpr hms]
      simp
  rw [Mach.checkWord, Mach.wordCheck, hcond]
  rfl

/-- A legal word that R91 or R406 forbids at level U takes cause 0x04. -/
theorem Mach.checkWord_privileged {m : Mach} {i : Instr} {h : Hdr} (hcl : h.cl = m.st.cl) (hwf : i.wf = true)
    (hms : h.ms = 0 ∨ m.t.inBody = true) (hlevel : m.t.plev = false) (hpriv : privilegedAtU i m.k.sr.pkmask = true) :
    m.checkWord i h = some 0x04 := by
  have hlegal : (h.cl != m.st.cl || !i.wf || (h.ms != 0 && !m.t.inBody)) = false := by
    rcases hms with hms | hbody
    · simp [hcl, hwf, hms]
    · simp [hcl, hwf, hbody]
  rw [Mach.checkWord, Mach.wordCheck, hlegal, hlevel, hpriv]
  rfl

/-- Settles O5: a word of an unassigned opcode decodes to no instruction; such a word, and one that fails the first check. -/
theorem illegalWordsTakeCause02 : Obligations.IllegalWordsTakeCause02 := by
  unfold Obligations.IllegalWordsTakeCause02
  refine ⟨?unassigned, ?illegal, ?check⟩
  case unassigned =>
    rintro w (⟨hcl, hop⟩ | ⟨hcl, hop⟩ | ⟨hcl, hop⟩ | ⟨hcl, hop⟩)
    · exact decode_unassigned (st := .A) hcl hop
    · exact decode_unassigned (st := .V) hcl hop
    · exact decode_unassigned (st := .M) hcl hop
    · exact decode_unassigned (st := .D) hcl hop
  case illegal => exact fun s m w henter => ⟨illegalWord_of_enter w henter, illegalWord_of_enter w henter⟩
  case check => exact fun s m i h a hh hbad => exec_of_checkWord a hh (Mach.checkWord_illegal hbad) rfl

/-- Settles O6: such a word passes the first check and fails the second. -/
theorem privilegedWordsTakeCause04 : Obligations.PrivilegedWordsTakeCause04 := by
  unfold Obligations.PrivilegedWordsTakeCause04
  intro s m i h a hh hcl hwf hms hlevel hpriv
  exact exec_of_checkWord a hh (Mach.checkWord_privileged hcl hwf hms hlevel hpriv) rfl

/-! ## The step that runs a word (R57, R113) -/

/-- What a step makes of a meaning: the marks of R415, then time. -/
def State.afterTurn (s : State) (r : Out) : Out :=
  match r with
  | .next t => .next (s.marked t).elapse
  | r => r

section Step
variable {s s' : State} {t : Turn} (hturn : s.nextTurn = (t, s')) (hoff : s'.off = false) (hfrozen : s'.frozen = false)
include hturn hoff hfrozen

/-- The turn of a stream. -/
theorem step_issue {x : CtxRef} {st : Stream} (ht : t = .issue x st) : step s = s'.afterTurn (s'.issueTurn x st) := by
  simp only [step, hturn, ht, hoff, State.turn, hfrozen, Bool.false_and, Bool.false_eq_true, if_false, State.after]
  cases s'.issueTurn x st <;> rfl

/-- The act of another agent. -/
theorem step_event {i : Instr} (ht : t = .event i) (hh : i.hdr? = none) : step s = s'.afterTurn (exec i s') := by
  simp only [step, hturn, ht, hoff, State.turn, hfrozen, Bool.false_and, Bool.false_eq_true, if_false, State.after, State.eventTurn, hh,
    Option.isSome_none]
  cases exec i s' <;> rfl

end Step

/-- The turn that the agenda names. -/
theorem State.nextTurn_cons {s : State} {t : Turn} {rest : List Turn} (hagenda : s.md.agenda = t :: rest) :
    s.nextTurn = (t, { s with md := { s.md with agenda := rest } }) := by
  simp only [State.nextTurn, hagenda]

section Turn
variable {s : State} {x : CtxRef} {st : Stream} {m m' : Mach} {w : Word}
  (henter : (Mach.enter { s with md := { s.md with cur := x, curSt := st } }).1 = some m) (hheld : m.heldUp = none)
  (hfetch : m.fetchAt m.t.pc = (.word w, m'))
include henter hheld hfetch

/-- A stream that can issue and that nothing holds up runs the instruction that it fetches. -/
theorem State.issueTurn_of_decode {i : Instr} (hdec : decode w = .ok i) : s.issueTurn x st = State.runDecoded m'.close m' i := by
  unfold State.issueTurn
  generalize Mach.enter { s with md := { s.md with cur := x, curSt := st } } = r at henter
  obtain ⟨o, s'⟩ := r
  cases henter
  simp only [hheld, hfetch, hdec]

/-- A word that is none runs as an illegal one (R88). -/
theorem State.issueTurn_of_error {e : DecodeError} (hdec : decode w = .error e) :
    s.issueTurn x st = exec (.unassignedOpcodeWord w) m'.close := by
  unfold State.issueTurn
  generalize Mach.enter { s with md := { s.md with cur := x, curSt := st } } = r at henter
  obtain ⟨o, s'⟩ := r
  cases henter
  simp only [hheld, hfetch, hdec]

end Turn

/-- A word without SY is run by itself. -/
theorem State.runDecoded_alone (s : State) (m : Mach) {i : Instr} (hsy : i.hdr?.any (·.sy) = false) : s.runDecoded m i = exec i s := by
  unfold State.runDecoded
  cases hh : i.hdr? with
  | none => rfl
  | some h =>
    have hpres : m.presents i h = false := by
      have : h.sy = false := by simpa [hh] using hsy
      simp [Mach.presents, this]
    simp only [hpres, Bool.false_eq_true, if_false]

/-- One with SY as a member of its rendezvous, where it presents itself. -/
theorem State.runDecoded_set (s : State) (m : Mach) {i : Instr} {h : Hdr} (hh : i.hdr? = some h) :
    s.runDecoded m i = if m.presents i h = false then exec i s else s.rendezvous i m.syncSet := by
  simp only [State.runDecoded, hh]
  cases m.presents i h <;> rfl

/-- A rendezvous (R113): together where each could issue; alone where the word traps, or waits while the others wait for nothing
else; or as the word by itself. -/
theorem State.rendezvous_eq (s : State) (i : Instr) (p : BitVec 4) :
    s.rendezvous i p = if (setStreams p).all (s.couldJoin p) = true then State.runSet (s.group p) (s.setWords (s.group p)) s
      else if s.joins p s.md.curSt = .traps ∨ (s.joins p s.md.curSt = .waits ∧
        (setStreams p).all (fun st => s.joins p st == .issues || s.joins p st == .waits) = true) then s.tryAlone i p
      else exec i s := by
  simp only [State.rendezvous, beq_iff_eq, Bool.and_eq_true]
  by_cases htraps : s.joins p s.md.curSt = .traps
  · simp only [htraps, if_true, true_or]
  · simp only [htraps, if_false, false_or]

/-- What a step adds to a state in which no stream has escalated and no word has taken a held fault: nothing. -/
theorem State.marked_eq_self {s t : State}
    (hold : ∀ p ∈ t.ctxs, p.2.rowMark = none ∧ p.2.smask = ((tfind s.ctxs p.1).map fun k => k.smask).getD 0) : s.marked t = t := by
  have hmap : t.ctxs.map (fun p =>
      let old := ((tfind s.ctxs p.1).map fun k => k.smask).getD 0
      if p.2.smask = old && p.2.rowMark.isNone then p else (p.1, t.markWalks old p.2)) = t.ctxs.map id := by
    refine List.map_congr_left fun p hp => ?_
    obtain ⟨hmark, hmask⟩ := hold p hp
    simp [hmark, hmask]
  rw [State.marked, hmap, List.map_id]

/-- Settles O4: the step is the stream's turn, which runs the fetched word alone or in its rendezvous; or another agent's act. -/
theorem stepRunsTheDecodedInstruction : Obligations.StepRunsTheDecodedInstruction := by
  unfold Obligations.StepRunsTheDecodedInstruction
  refine ⟨?alone, ?illegal, ?rendezvous, ?event, fun s t => State.marked_eq_self⟩
  case alone =>
    intro s x st rest m m' w i hoff hfrozen hagenda henter hheld hfetch hdec hsy
    rw [step_issue (State.nextTurn_cons hagenda) hoff hfrozen rfl, State.issueTurn_of_decode henter hheld hfetch hdec,
      State.runDecoded_alone _ _ hsy]
    rfl
  case illegal =>
    intro s x st rest m m' w e hoff hfrozen hagenda henter hheld hfetch hdec
    rw [step_issue (State.nextTurn_cons hagenda) hoff hfrozen rfl, State.issueTurn_of_error henter hheld hfetch hdec]
    rfl
  case rendezvous =>
    intro s x st rest m m' w i h hoff hfrozen hagenda henter hheld hfetch hdec hh _
    rw [step_issue (State.nextTurn_cons hagenda) hoff hfrozen rfl, State.issueTurn_of_decode henter hheld hfetch hdec,
      State.runDecoded_set _ _ hh, State.rendezvous_eq]
    rfl
  case event => exact fun s i rest hoff hfrozen hagenda hh => step_event (State.nextTurn_cons hagenda) hoff hfrozen rfl hh

end Sys2Proof.Machine
end

