-- ==== Sys2Proof/Proofs/ScalarWords.lean ====
section
/-! SUPPORT. Words with an immediate, transfers, modulo bodies, and hard-wired state (R60, R62, R77, R92, R93, R121 to R124, R134,
R143, R150). -/
namespace Sys2Proof.Machine

/-- A shift amount is what the low six bits hold (R133). -/
theorem shAmt_eq (b : Word) : shAmt b = b.toNat % 64 := rfl

section Immediate
variable {i : Instr} {h : Hdr} {o : SI}

/-- A word with an immediate writes its function of S1. -/
theorem runs_imm (f : Word → Word) (e : ∀ s, exec i s = runImm i h o f s) :
    Runs i h (siPorts o) (writes o.dst fun _ a => f (a.v 0)) :=
  runs_of_done e fun _ _ => rfl

/-- A shift by an immediate takes its low six bits. -/
theorem runs_immShift (f : Word → Nat → Word) (e : ∀ s, exec i s = runImm i h o (fun a => f a (shAmt (siImm o))) s) :
    Runs i h (siPorts o) (writes o.dst fun _ a => f (a.v 0) ((siImm o).toNat % 64)) := by
  rw [← shAmt_eq (siImm o)]
  exact runs_imm (fun a => f a (shAmt (siImm o))) e

end Immediate

/-- Settles O19: each word writes its function of S1 and the sign-extended immediate. -/
theorem immediateWordsWriteTheirResult : Obligations.ImmediateWordsWriteTheirResult := by
  unfold Obligations.ImmediateWordsWriteTheirResult
  intro h o
  exact ⟨runs_imm (· + siImm o) fun _ => rfl, runs_imm (· &&& siImm o) fun _ => rfl, runs_imm (· ||| siImm o) fun _ => rfl,
    runs_imm (· ^^^ siImm o) fun _ => rfl, runs_immShift (· <<< ·) fun _ => rfl, runs_immShift (· >>> ·) fun _ => rfl,
    runs_immShift BitVec.sshiftRight fun _ => rfl, runs_of_done (fun _ => rfl) fun _ _ => rfl,
    runs_imm (· + (siImm o <<< 31)) fun _ => rfl⟩

/-- Settles O30: each is what the accessor does at g0, k0, specifier 48 and stage 0. -/
theorem hardWiredState : Obligations.HardWiredState := by
  unfold Obligations.HardWiredState
  refine ⟨fun t n b => StreamSt.guard_zero _, fun v n r b r' => VecSt.mask_zero _ r', fun k st it => rfl, fun m act v b => rfl, ?_⟩
  intro t hout
  simp only [StreamSt.it, hout, Bool.false_eq_true, if_false]

/-! ## Transfers (R77, R92, R124, R143) -/

section Branch
variable {m : Mach} {target : Word}

/-- A transfer to a multiple of 8 goes on there. -/
theorem branchTo_aligned (f : Mach → Mach) (halign : target.toNat % 8 = 0) : branchTo m target f = .stay ((f m).jump target) := 
  if_neg (not_not.mpr halign)

/-- One to another address takes cause 0x01 (R92). -/
theorem branchTo_misaligned (f : Mach → Mach) (halign : target.toNat % 8 ≠ 0) : branchTo m target f = .trap 0x01 target :=
  if_pos halign

end Branch

/-- Settles O25: the branch where the word takes it, the next word elsewhere. -/
theorem transfersOfControl : Obligations.TransfersOfControl := by
  unfold Obligations.TransfersOfControl
  intro h o to_ src ok
  refine ⟨?br, ?brOff, ?call, ?callOff, ?ret, ?retOff, ?retTrap, ?jmpr, ?jmprOff, ?jmprTrap, ?brq, ?brqOff⟩
  case br | call | ret | jmpr =>
    exact movesIf_of_stay (fun _ => rfl) fun m a ⟨hact, halign⟩ => (if_pos hact).trans (branchTo_aligned _ halign)
  case retTrap | jmprTrap =>
    exact trapsIf_of_trap (fun _ => rfl) fun m a ⟨hact, halign⟩ => (if_pos hact).trans (branchTo_misaligned _ halign)
  case brOff | callOff | retOff | jmprOff =>
    exact runsIf_of_done (fun _ => rfl) fun m a hoff => if_neg (Bool.eq_false_iff.mp hoff)
  case brq =>
    exact movesIf_of_stay (fun _ => rfl) fun m a ⟨hact, hvalid, hv, halign⟩ =>
      (if_pos (by rw [hact, hvalid, bne_iff_ne.mpr hv]; rfl)).trans (branchTo_aligned _ halign)
  case brqOff =>
    exact runsIf_of_done (fun _ => rfl) fun m a hno => if_neg (by rcases hno with hact | hvalid | hv <;> simp [*])

/-! ## Modulo bodies (R93, R121, R123) -/

section Body
variable {m m' : Mach} {n st : Nat} {a w : Word}

/-- A word of the body outside the text makes it illegal. -/
theorem Mach.checkBody_outside (htext : m.k.bd.inText m.st a = false) : m.checkBody (n + 1) a st = .trap 0x03 a := by
  simp only [Mach.checkBody, htext, Bool.not_false, if_true]

variable (htext : m.k.bd.inText m.st a = true) (hfetch : m.fetchAt a = (.word w, m'))
include htext hfetch

/-- So does one that decodes to no word. -/
theorem Mach.checkBody_none (hdec : ∀ i h, decode w = .ok i → i.hdr? ≠ some h) : m.checkBody (n + 1) a st = .trap 0x03 a := by
  simp only [Mach.checkBody, htext, hfetch, Bool.not_true, Bool.false_eq_true, if_false]
  cases hw : decode w with
  | error e => rfl
  | ok i =>
    cases hh : i.hdr? with
    | none => simp only [hh]
    | some h => exact absurd hh (hdec i h hw)

variable {i : Instr} {h : Hdr} (hdec : decode w = .ok i) (hh : i.hdr? = some h)
include hdec hh

/-- One that may not stand there, of another cluster, or forbidden at the stream's level makes it illegal too (log 54). -/
theorem Mach.checkBody_bad
    (hbad : bodyForbids i = true ∨ h.cl ≠ m'.st.cl ∨ (m'.t.plev = false ∧ privilegedAtU i m'.k.sr.pkmask = true)) :
    m.checkBody (n + 1) a st = .trap 0x03 a := by
  have hcond : (bodyForbids i || h.cl != m'.st.cl || (!m'.t.plev && privilegedAtU i m'.k.sr.pkmask)) = true := by
    simpa [or_assoc] using hbad
  simp only [Mach.checkBody, htext, hfetch, hdec, hh, hcond, Bool.not_true, Bool.false_eq_true, if_false, if_true]

/-- After any other one the check goes on, with the highest stage so far. -/
theorem Mach.checkBody_next
    (hgood : ¬ (bodyForbids i = true ∨ h.cl ≠ m'.st.cl ∨ (m'.t.plev = false ∧ privilegedAtU i m'.k.sr.pkmask = true))) :
    m.checkBody (n + 1) a st = m'.checkBody n (a + 8) (max st h.ms.toNat) := by
  have hcond : (bodyForbids i || h.cl != m'.st.cl || (!m'.t.plev && privilegedAtU i m'.k.sr.pkmask)) = false := by
    simpa [and_assoc] using hgood
  simp only [Mach.checkBody, htext, hfetch, hdec, hh, hcond, Bool.not_true, Bool.false_eq_true, if_false]

end Body

/-- With a legal body MODL starts its rounds, or goes on behind it for a trip of 0 (R121). -/
theorem modlBody_of_ok {o : ML} {m : Mach} {a : Opnds} {st : Nat} (hok : m.checkBody o.len.toNat (m.t.pc + 8) 0 = .ok st) :
    modlBody o m a =
      let trip := if a.act then min (a.v 0).toNat (2 ^ 64 - 8) else 0
      if trip = 0 then .stay (m.jump (m.t.pc + W (8 * (o.len.toNat + 1))))
      else .stay ((m.jump (m.t.pc + 8)).str fun t =>
        { t with mloop := mlMake true st o.len.toNat o.ii.toNat 0, mround := 0, mtrip := W trip, inBody := true }) := by
  simp only [modlBody, hok]

/-- Settles O26: the check of a body word by word, and what MODL makes of its answer. -/
theorem moduloLoopsStart : Obligations.ModuloLoopsStart := by
  unfold Obligations.ModuloLoopsStart
  refine ⟨fun m n a st => Mach.checkBody_outside, ?check, ?trap, ?start⟩
  case check =>
    intro m n a st w m' htext hfetch
    refine ⟨fun hnone => Mach.checkBody_none htext hfetch fun i _ hdec => absurd hdec (hnone i),
      fun i hdec hnone => Mach.checkBody_none htext hfetch fun j h hj => ?_, fun i h hdec hh =>
        ⟨Mach.checkBody_bad htext hfetch hdec hh, Mach.checkBody_next htext hfetch hdec hh⟩⟩
    cases hdec.symm.trans hj
    simp [hnone]
  case trap =>
    exact fun h o c at_ => trapsIf_of_trap (fun _ => rfl) fun m a hbad => by simp only [modlBody, hbad]
  case start =>
    intro h o st len trip
    refine ⟨movesIf_of_stay (fun _ => rfl) fun m a ⟨hok, htrip⟩ => ?_,
      movesIf_of_stay (fun _ => rfl) fun m a ⟨hok, htrip⟩ => ?_⟩
    · exact (modlBody_of_ok hok).trans (if_neg htrip)
    · exact (modlBody_of_ok hok).trans (if_pos htrip)

end Sys2Proof.Machine
end

