-- ==== Sys2Proof/Proofs/FalseGuard.lean ====
section
/-! SUPPORT. Words under a false guard (R60, R128, R129, R131, R276, R309). -/
namespace Sys2Proof.Machine

section Off
variable {i : Instr} {h : Hdr} {p : Ports}

/-- A word whose body asks for its guard first, and is done where it is false. -/
theorem runsIf_off {f : Mach → Opnds → Mach} {g : Mach → Opnds → Res}
    (e : ∀ s, exec i s = issueWord i h p (fun m a => if !a.act then .done (f m a) else g m a) s) : RunsIf i h p isOff f :=
  runsIf_of_done e fun m a hoff => if_pos (by rw [isOff] at hoff; rw [hoff]; rfl)

/-- An engine word takes its number, and its record where it has room for it (R309). -/
theorem runsIf_skipCmd {o : E} {opc : Nat} {args : Mach → Opnds → EngArgs}
    (e : ∀ s, exec i s = issueWord i h p (fun m a => m.engineWord h o opc a.act none (args m a)) s) :
    RunsIf i h p (fun m a => a.act = false ∧ (producesRec opc = true → m.k.recsOut (engOf opc) < recDepth (engOf opc)))
      fun m _ => m.skipCmd opc none :=
  runsIf_of_done e fun m a ⟨hoff, hroom⟩ => by rw [hoff]; exact Mach.engineWord_off hroom

/-- So does a word of the equivalence engine, with no failure pending. -/
theorem runsIf_skipEq {o : E} {opc : Nat} {out : Option (BitVec 6)} {b : Mach → Opnds → Res}
    (e : ∀ s, exec i s = issueWord i h p b s)
    (hb : ∀ m a, ∃ bad o1 o2 o3 more, b m a = m.eqWord h o opc a.act out bad o1 o2 o3 more) :
    RunsIf i h p (fun m a => a.act = false ∧ m.k.eng.eqFail = none ∧
        (producesRec opc = true → (m.ctx Ctx.closeRun).k.recsOut (engOf opc) < recDepth (engOf opc)))
      fun m _ => (if opc = 0x66 then m else m.ctx Ctx.closeRun).skipCmd opc out :=
  runsIf_of_done e fun m a ⟨hoff, hfail, hroom⟩ => by
    obtain ⟨_, _, _, _, _, hword⟩ := hb m a
    rw [hword, hoff]
    exact Mach.eqWord_off hfail hroom

end Off

/-! ## Words with two results -/

/-- Closing a run of unions leaves the queues. -/
theorem Ctx.closeRun_sq (k : Ctx) : k.closeRun.sq = k.sq := by
  unfold Ctx.closeRun
  split <;> rfl

/-- Two results under a false guard: an invalid entry in each queue that a result names; one queue that takes both has room for two. -/
theorem Mach.put2_off {m : Mach} {o : S3}
    (hroom : isQ o.dst = true → o.dst = o.s1 → 2 ≤ freeSlots (qNum o.dst) (m.k.sq? (qNum o.dst))) :
    m.put2 o false 0 0 = .done ((m.put o.dst false 0 false).put o.s1 false 0 false) := by
  unfold Mach.put2
  split
  · next hsame =>
    obtain ⟨hq, heq⟩ := Bool.and_eq_true_iff.mp hsame
    have heq : o.dst = o.s1 := beq_iff_eq.mp heq
    have hfree : freeSlots (qNum o.dst) ((m.put o.dst false 0 false).k.sq? (qNum o.dst)) ≠ 0 := by
      have := hroom hq heq
      simp only [Mach.put, hq, if_true, Mach.ctx_k, Ctx.pushS, Ctx.sq?, Ctx.setSq, tget_tset_same, freeSlots, List.length_append,
        List.length_singleton] at this ⊢
      omega
    rw [Mach.put2nd, if_neg hfree, ← heq]
    generalize m.put o.dst false 0 false = n
    simp only [Mach.put, hq, if_true]
    rfl
  · rfl

/-! ## By what the words deliver -/

section Words
variable (h : Hdr)

/-- The words on heads and tapes that deliver nothing. -/
theorem headWords_off (o : H) :
    RunsIf (.hstep h o) h { Ports.none with srcs := [o.cnt] } isOff nothing ∧ RunsIf (.hmark h o) h Ports.none isOff nothing ∧
    RunsIf (.hrew h o) h Ports.none isOff nothing ∧ RunsIf (.hbind h o) h { Ports.none with srcs := [o.cnt] } isOff nothing ∧
    RunsIf (.hunb h o) h Ports.none isOff nothing ∧ RunsIf (.tflsh h o) h Ports.none isOff nothing := by
  have hmove : ∀ {i p} (g : Mach → Opnds → Res),
      (∀ s, exec i s = issueWord i h p (fun m a => if a.act then g m a else .done m) s) →
      RunsIf i h p isOff nothing := fun g e => runsIf_of_done e fun m a hoff => if_neg (Bool.eq_false_iff.mp hoff)
  exact ⟨hmove _ fun _ => rfl, hmove _ fun _ => rfl, hmove _ fun _ => rfl, runsIf_off fun _ => rfl, runsIf_off fun _ => rfl,
    runsIf_off fun _ => rfl⟩

/-- The words on whole arrays. -/
theorem matrixWords_off (o : MF) : RunsIf (.mswap h o) h Ports.none isOff nothing ∧ RunsIf (.mzero h o) h Ports.none isOff nothing :=
  ⟨runsIf_of_done (fun _ => rfl) fun m a hoff => by
      rw [isOff] at hoff
      simp only [hoff, Bool.false_and, Bool.false_eq_true, if_false, nothing],
    runsIf_of_done (fun _ => rfl) fun m a hoff => by rw [isOff] at hoff; simp only [hoff, Bool.false_eq_true, if_false, nothing]⟩

/-- The engine words of the copy tiers, near memory, sparks and enqueues. -/
theorem engineWords_off (o : E) :
    let skip : Instr → Ports → Nat → Prop := fun i p opc => RunsIf i h p
      (fun m a => a.act = false ∧ (producesRec opc = true → m.k.recsOut (engOf opc) < recDepth (engOf opc)))
      (fun m _ => m.skipCmd opc none)
    skip (.cpym h o) (ePorts o) 0x58 ∧ skip (.cpys h o) (ePorts o) 0x59 ∧ skip (.cgth h o) (ePorts o) 0x5A ∧ skip (.csct h o) (ePorts o) 0x5B ∧
    skip (.cpgi h o) { Ports.none with srcs := [o.o1, o.o2] } 0x5C ∧ skip (.rput h o) (ePorts o) 0x5D ∧ skip (.rget h o) (ePorts o) 0x5E ∧
    skip (.gadd h o) { Ports.none with srcs := [o.o1, o.o2] } 0x5F ∧ skip (.gred h o) (ePorts o) 0x62 ∧ skip (.gaxpy h o) (ePorts o) 0x63 ∧
    skip (.gamo h o) { Ports.none with srcs := [o.o1, o.o2] ++ (if o.fl.toNat / 64 = 4 then [o.o3] else []) } 0x60 ∧
    skip (.gqop h o) { Ports.none with srcs := [o.o1, o.o2] } 0x61 ∧ skip (.gfen h o) Ports.none 0x64 ∧ skip (.spk h o) (ePorts o) 0x6E ∧
    skip (.tkenq h o) { Ports.none with srcs := [o.o1, o.o2] } 0x72 :=
  ⟨runsIf_skipCmd fun _ => rfl, runsIf_skipCmd fun _ => rfl, runsIf_skipCmd fun _ => rfl, runsIf_skipCmd fun _ => rfl,
    runsIf_skipCmd fun _ => rfl, runsIf_skipCmd fun _ => rfl, runsIf_skipCmd fun _ => rfl, runsIf_skipCmd fun _ => rfl,
    runsIf_skipCmd fun _ => rfl, runsIf_skipCmd fun _ => rfl, runsIf_skipCmd fun _ => rfl, runsIf_skipCmd fun _ => rfl,
    runsIf_skipCmd fun _ => rfl, runsIf_skipCmd fun _ => rfl, runsIf_skipCmd fun _ => rfl⟩

end Words

/-- Settles O24: by what a word delivers: nothing, one result, two, or the number of a command. -/
theorem wordsUnderAFalseGuard : Obligations.WordsUnderAFalseGuard := by
  unfold Obligations.WordsUnderAFalseGuard
  intro h
  refine ⟨headWords_off h, matrixWords_off h, fun o => runsIf_off fun _ => rfl, ?oneResult, engineWords_off h, ?twoResults, ?equivalence⟩
  case oneResult =>
    refine ⟨fun o => ?_, fun o => runsIf_off fun _ => rfl, fun o => ⟨runsIf_off fun _ => rfl, runsIf_off fun _ => rfl, ?_⟩⟩
    · exact ⟨runsIf_off fun _ => rfl, runsIf_off fun _ => rfl, runsIf_off fun _ => rfl, runsIf_off fun _ => rfl, runsIf_off fun _ => rfl,
        runsIf_off fun _ => rfl, runsIf_off fun _ => rfl, runsIf_off fun _ => rfl, runsIf_off fun _ => rfl, runsIf_off fun _ => rfl,
        runsIf_off fun _ => rfl⟩
    · exact runsIf_of_done (fun _ => rfl) fun m a hoff => by rw [isOff] at hoff; simp only [hoff]; rfl
  case twoResults =>
    intro o two off
    refine ⟨fun heng => ?deq, ?evw, ?evq⟩
    case deq =>
      refine runsIf_of_done_at (fun _ => rfl) fun s m _ ⟨hoff, hroom⟩ => ?_
      simp only [Mach.two, Mach.taken_prog, if_neg heng, deqBody, hoff]
      exact Mach.put2_off hroom
    case evw | evq =>
      refine runsIf_of_done_at (fun _ => rfl) fun s m _ ⟨hoff, hroom⟩ => ?_
      simp only [Mach.two, Mach.taken_prog, eventBody, hoff]
      refine Mach.put2_off ?_
      simp only [Mach.ctx_k, Ctx.sq?, Ctx.closeRun_sq]
      exact hroom
  case equivalence =>
    intro o skip
    refine ⟨runsIf_skipEq (fun _ => rfl) fun _ _ => ⟨_, _, _, _, _, rfl⟩,
      runsIf_skipEq (fun _ => rfl) fun _ _ => ⟨_, _, _, _, _, rfl⟩,
      runsIf_skipEq (fun _ => rfl) fun _ _ => ⟨_, _, _, _, _, rfl⟩,
      runsIf_skipEq (fun _ => rfl) fun _ _ => ⟨_, _, _, _, _, rfl⟩,
      runsIf_skipEq (fun _ => rfl) fun _ _ => ⟨_, _, _, _, _, rfl⟩,
      runsIf_skipEq (fun _ => rfl) fun _ _ => ⟨_, _, _, _, _, rfl⟩,
      fun hqueue => runsIf_skipEq (o := o) (fun _ => rfl) fun _ _ => ⟨_, _, _, _, _, by simp only [eqrBody, hqueue]; rfl⟩⟩

end Sys2Proof.Machine
end
-- ==== Sys2Proof/Proofs/StopAddress.lean ====
section
/-! SUPPORT. A word that ends a modulo body in a context that stops writes sr.epc (R123), which the frames do not except. -/

namespace Sys2Proof.Machine

/-- A stream A in the last round of a modulo body that consists of the word at address 0. -/
def lastRound (t : StreamSt) : StreamSt :=
  { t with pc := 0, epc := 0, inBody := true, mloop := 0, mround := 0, mtrip := 1, prog := none, waiting := none, wakeAt := none, owed := 0 }

/-- A context that has begun to stop (R425) with its stream A in the last round of a modulo body. -/
def stoppingInBody : Ctx :=
  let k := Ctx.init (Binding.forWord .A) false 0 false 0 (fun _ => 0) (fun _ => 0)
  { k with run := .stopping false, a := lastRound k.a }

/-- The machine with that context at the cursor, in a cycle in which a rendezvous set with stream A issues (R113). -/
def stoppingAtCursor : State :=
  let s := State.reset.setCtx ⟨0, false⟩ stoppingInBody
  { s.runBank ⟨0, false⟩ with md := { s.md with cur := ⟨0, false⟩, curSt := .A, agenda := [], rdv := 1 } }

/-- Stream A of that context, taken out of its machine. -/
def stoppingMach : Mach := ⟨stoppingAtCursor, stoppingInBody, .A⟩

/-- A header of a word of stream A under a true guard, without tokens. -/
def plainA : Hdr := ⟨false, 0, 0, 0, false, 0, 0⟩

/-- `ADD r0 = r1 + r2`. -/
def addOperands : S3 := ⟨0, 1, 2, 0⟩

theorem atTurn_stopping : AtTurn stoppingAtCursor stoppingMach (.add plainA addOperands) plainA (s3Ports addOperands) where
  enters := by rfl
  paid := by rfl
  awake := by rfl
  unfenced := by rfl
  unfilled := by rfl
  slot := by rfl
  legal := by rfl
  fresh := by rfl
  partners := by rfl
  free := by rfl

/-- The frame of a word's stream excepts no change of sr.epc. -/
theorem SameButReg.epc {t t' : StreamSt} {x : BitVec 6} (hsame : SameButReg t t' x) : t'.epc = t.epc := by
  rw [hsame.rest]

/-- Refutes O23: the frame after a word excepts no change of sr.epc, and R123 has one: stream A of a context that stops leaves its
modulo body with the word at address 0, and sr.epc goes from 0 to 8. -/
theorem not_aWordChangesNothingBesideItsEffect : ¬ Obligations.AWordChangesNothingBesideItsEffect := by
  unfold Obligations.AWordChangesNothingBesideItsEffect
  rintro ⟨-, hafter⟩
  obtain ⟨-, -, k, hk, -, hsame, -⟩ := hafter stoppingMach plainA
  have hctx : (stoppingMach.completed plainA).ctx? stoppingMach.x = some (stoppingMach.retire plainA).k := by rfl
  obtain rfl : (stoppingMach.retire plainA).k = k := Option.some.inj (hctx.symm.trans hk)
  exact absurd hsame.epc (by decide)

/-- Refutes O22: `ADD r0 = r1 + r2` in that place gives r0 its result and changes sr.epc from 0 to 8 besides (R123). -/
theorem not_scalarResultsReachTheirDestinationAlone : ¬ Obligations.ScalarResultsReachTheirDestinationAlone := by
  unfold Obligations.ScalarResultsReachTheirDestinationAlone
  rintro ⟨hresult, -⟩
  obtain ⟨hframe, -⟩ := hresult _ _ _ _ _ 0 0 atTurn_stopping (by decide)
  obtain ⟨k, hk, -, hsame, -⟩ := hframe.mine
  have hepc : ((stoppingMach.gives plainA (s3Ports addOperands) 0 0).ctx? stoppingAtCursor.md.cur).map (fun k => (k.str .A).epc) =
      some 8 := by rfl
  rw [hk] at hepc
  exact absurd (hsame.epc.symm.trans (Option.some.inj hepc)) (by decide)

end Sys2Proof.Machine
end

