-- ==== Sys2Proof/Proofs/VectorMasks.lean ====
section
/-! SUPPORT. The V words on masks, and VSEL (R162 to R166). -/

namespace Sys2Proof.Machine

/-- Writing a mask changes the vector unit alone. -/
theorem Mach.putMask_t (m : Mach) (n : Nat) (v : VIn) (f : Nat → Nat → Bool) : (m.putMask n v f).t = m.t := by
  obtain ⟨s, k, st⟩ := m
  cases st <;> rfl

/-- Settles O33. KOP and KPOP work on whole masks under the effective mask; the flags of VCMP end it where none of them traps. -/
theorem vectorMaskWordsComplete : Obligations.VectorMaskWordsComplete := by
  unfold Obligations.VectorMaskWordsComplete
  intro h o ty w bit cmp
  refine ⟨?vcmp, ?kop, ?kpop, ?kmov, ?vsel⟩
  case vcmp =>
    refine vRunsIf_of_done (fun _ => rfl) fun m v _ hcalm => Mach.afterFlags_calm _ _ ?_
    rw [Mach.putMask_t]
    exact hcalm
  case kop => exact runs_of_done (fun _ => rfl) fun _ _ => rfl
  case kpop => exact runsIf_of_done (fun _ => rfl) fun m a hact => congrArg Res.done (if_pos hact)
  case kmov => exact vRunsIf_of_done (fun _ => rfl) fun _ _ _ _ => rfl
  case vsel => exact vRunsIf_of_done (fun _ => rfl) fun _ _ _ _ => rfl

end Sys2Proof.Machine
end

