-- ==== Sys2Proof/Proofs/VectorRows.lean ====
section
/-! SUPPORT. Rows that a V word writes (R155), and the row-queue entries that it pops (R65). -/

namespace Sys2Proof.Machine

theorem getElem?_lmapIdx {α β : Type} (f : Nat → α → β) (l : List α) (i : Nat) : (lmapIdx f l)[i]? = l[i]?.map (f i) := by
  simp [lmapIdx, List.getElem?_zipIdx, Function.comp_def]

/-! ## One row -/

@[simp] theorem VecSt.row_setRow_same (v : VecSt) (n r : Nat) (x : Row) : (v.setRow n r x).row n r = x := tget_tset_same _ _ _ _

/-- Rows below 16 of two registers lie at different places of the table. -/
theorem VecSt.row_setRow_ne {v : VecSt} {n r j r' : Nat} {x : Row} (hr : r < 16) (hr' : r' < 16) (hne : ¬(j = n ∧ r' = r)) :
    (v.setRow n r x).row j r' = v.row j r' :=
  tget_tset_ne _ _ _ _ _ (by omega)

/-- One row of a result written into register n under its mask, as `Mach.putRows` writes it: the row p.1 as its row number p.2. -/
def VecSt.mergeRow (n at_ : Nat) (mask : Nat → BitVec 64) (v : VecSt) (p : Row × Nat) : VecSt :=
  v.setRow n (at_ + p.2) (lmapIdx (fun l x => if (mask p.2).getLsbD l then p.1.getD l 0 else x) (v.row n (at_ + p.2)))

theorem Mach.putRows_eq (m : Mach) (n at_ : Nat) (mask : Nat → BitVec 64) (rows : List Row) :
    m.putRows n at_ mask rows = m.ctx fun k => { k with vec := rows.zipIdx.foldl (VecSt.mergeRow n at_ mask) k.vec } := rfl

section
variable {n at_ : Nat} {mask : Nat → BitVec 64} {v : VecSt} {x : Row} {i j r : Nat}

theorem VecSt.row_mergeRow_ne (hi : at_ + i < 16) (hr : r < 16) (hne : ¬(j = n ∧ r = at_ + i)) :
    (v.mergeRow n at_ mask (x, i)).row j r = v.row j r := VecSt.row_setRow_ne hi hr hne

/-- The row that is written takes the lanes of the mask. -/
theorem VecSt.getD_row_mergeRow_same {l : Nat} (hl : l < (v.row n (at_ + i)).length) :
    ((v.mergeRow n at_ mask (x, i)).row n (at_ + i)).getD l 0 =
      if (mask i).getLsbD l then x.getD l 0 else (v.row n (at_ + i)).getD l 0 := by
  simp [VecSt.mergeRow, List.getD_eq_getElem?_getD, getElem?_lmapIdx, List.getElem?_eq_getElem hl]

theorem VecSt.length_row_mergeRow (hi : at_ + i < 16) (hr : r < 16) :
    ((v.mergeRow n at_ mask (x, i)).row n r).length = (v.row n r).length := by
  by_cases hsame : r = at_ + i
  · subst hsame
    simp [VecSt.mergeRow, lmapIdx]
  · rw [VecSt.row_mergeRow_ne hi hr (by omega)]

end

/-! ## All rows -/

/-- Rows written from row number k of the result on. -/
theorem VecSt.getD_row_mergeRows {n at_ j r l : Nat} {mask : Nat → BitVec 64} (hr : r < 16) (hl : l < 64) (rows : List Row) :
    ∀ (k : Nat) (v : VecSt), at_ + k + rows.length ≤ 16 → (∀ i < 16, (v.row n i).length = 64) →
      (((rows.zipIdx k).foldl (VecSt.mergeRow n at_ mask) v).row j r).getD l 0 =
        if j = n ∧ at_ + k ≤ r ∧ r < at_ + k + rows.length ∧ (mask (r - at_)).getLsbD l then (rows.getD (r - at_ - k) []).getD l 0
        else (v.row j r).getD l 0 := by
  induction rows with
  | nil =>
    intro k v _ _
    rw [if_neg (by simp only [List.length_nil]; omega)]
    rfl
  | cons x rows ih =>
    intro k v hroom hlen
    rw [List.length_cons] at hroom
    rw [List.zipIdx_cons, List.foldl_cons,
      ih (k + 1) _ (by omega) fun i hi => (VecSt.length_row_mergeRow (by omega) hi).trans (hlen i hi)]
    by_cases hhere : j = n ∧ r = at_ + k
    · obtain ⟨rfl, rfl⟩ := hhere
      rw [if_neg (by omega), VecSt.getD_row_mergeRow_same (by rw [hlen _ hr]; exact hl)]
      simp
    · rw [VecSt.row_mergeRow_ne (by omega) hr hhere]
      by_cases hlater : j = n ∧ at_ + (k + 1) ≤ r
      · obtain ⟨rfl, hlater⟩ := hlater
        obtain ⟨d, rfl⟩ := Nat.exists_eq_add_of_le hlater
        have hpos : at_ + (k + 1) + d - at_ - k = d + 1 := by omega
        have hpos' : at_ + (k + 1) + d - at_ - (k + 1) = d := by omega
        have hin : at_ + (k + 1) + d < at_ + (k + 1) + rows.length ↔ at_ + (k + 1) + d < at_ + k + (x :: rows).length := by
          rw [List.length_cons]; omega
        have hfrom : at_ + k ≤ at_ + (k + 1) + d := by omega
        simp only [hpos, hpos', hin, hlater, hfrom, true_and, List.getD_cons_succ]
      · rw [if_neg (by omega), if_neg (by omega)]

/-- Writing rows leaves the masks and the table of the vector unit. -/
theorem VecSt.mergeRows_eq {n at_ : Nat} {mask : Nat → BitVec 64} (ps : List (Row × Nat)) :
    ∀ v : VecSt, ps.foldl (VecSt.mergeRow n at_ mask) v = { v with regs := (ps.foldl (VecSt.mergeRow n at_ mask) v).regs } := by
  induction ps with
  | nil => exact fun _ => rfl
  | cons p ps ih => exact fun v => ih (v.mergeRow n at_ mask p)

theorem Mach.putRows_k (m : Mach) (n at_ : Nat) (mask : Nat → BitVec 64) (rows : List Row) :
    (m.putRows n at_ mask rows).k = { m.k with vec := { m.k.vec with regs := (m.putRows n at_ mask rows).k.vec.regs } } := by
  rw [Mach.putRows_eq]
  exact congrArg (fun v => { m.k with vec := v }) (VecSt.mergeRows_eq _ _)

/-! ## Row queues -/

/-- An entry within the number present is there. -/
theorem getElem?_of_lt_present {α : Type} {l : List (Slot α)} {n : Nat} (hn : n < present l) : ∃ e, l[n]? = some (.full e) := by
  induction l generalizing n with
  | nil => simp [present] at hn
  | cons x l ih =>
    cases x with
    | held tag => simp [present] at hn
    | full e =>
      cases n with
      | zero => exact ⟨e, rfl⟩
      | succ n => exact ih (Nat.lt_of_succ_lt_succ hn)

theorem popR_of_full {k : Ctx} {q : Nat} {e : RowEnt} {l : List (Slot RowEnt)} (hq : k.rq? q = .full e :: l) :
    k.popR q = (e, k.setRq q l) := by
  simp [Ctx.popR, hq, popSlot]

/-- Row entries are popped in order: the n-th of them stands behind those that the same word pops of its queue before. -/
theorem Ctx.rowSources_getElem? {q : Nat} (qs : List Nat) :
    ∀ (k : Ctx) (n : Nat), (∀ q ∈ qs, countIn q qs ≤ present (k.rq? q)) → qs[n]? = some q →
      ∃ e, (k.rq? q)[countIn q (qs.take n)]? = some (.full e) ∧ (k.rowSources qs).1[n]? = some e := by
  induction qs with
  | nil => intro k n _ hn; simp at hn
  | cons y qs ih =>
    intro k n hheld hn
    have hfirst : 0 < present (k.rq? y) := Nat.lt_of_lt_of_le (by simp [countIn]) (hheld y (by simp))
    obtain ⟨e0, he0⟩ := getElem?_of_lt_present hfirst
    obtain ⟨l, hl⟩ : ∃ l, k.rq? y = .full e0 :: l := by
      obtain ⟨hlen, hget⟩ := List.getElem?_eq_some_iff.mp he0
      exact ⟨(k.rq? y).tail, by rw [← hget, List.getElem_zero, List.cons_head_tail]⟩
    have hsources : (k.rowSources (y :: qs)).1 = e0 :: ((k.setRq y l).rowSources qs).1 := by
      simp only [Ctx.rowSources, popR_of_full hl]
    rw [hsources]
    cases n with
    | zero =>
      obtain rfl : y = q := by simpa using hn
      exact ⟨e0, by simp [hl, countIn], rfl⟩
    | succ n =>
      have hsame : (k.setRq y l).rq? y = l := tget_tset_same _ _ _ _
      have hother : ∀ q, q ≠ y → (k.setRq y l).rq? q = k.rq? q := fun q hne => tget_tset_ne _ _ _ _ _ hne
      have hrest : ∀ q ∈ qs, countIn q qs ≤ present ((k.setRq y l).rq? q) := by
        intro q hq
        have hbefore := hheld q (List.mem_cons_of_mem y hq)
        by_cases hy : q = y
        · subst hy
          rw [hsame]
          simpa [hl, present, countIn] using hbefore
        · rw [hother q hy]
          simpa [countIn, List.filter_cons, Ne.symm hy] using hbefore
      obtain ⟨e, hslot, hget⟩ := ih (k.setRq y l) n hrest hn
      refine ⟨e, ?_, hget⟩
      by_cases hy : q = y
      · subst hy
        rw [hsame] at hslot
        simpa [hl, countIn] using hslot
      · rw [hother q hy] at hslot
        simpa [countIn, List.filter_cons, Ne.symm hy] using hslot

theorem Ctx.popTokens_rq (k : Ctx) (l : List Nat) : (k.popTokens l).rq = k.rq := by
  induction l generalizing k with
  | nil => rfl
  | cons n l ih => exact (ih _).trans rfl

theorem Ctx.popS_rq (k : Ctx) (q : Nat) : (k.popS q).2.rq = k.rq := by
  unfold Ctx.popS
  split <;> rfl

theorem Ctx.source_rq (k : Ctx) (st : Stream) (it : Word) (x : BitVec 6) : (k.source st it x).2.2.rq = k.rq := by
  unfold Ctx.source
  split
  · rfl
  · split
    · exact k.popS_rq (qNum x)
    · split <;> rfl

theorem Ctx.sources_rq (st : Stream) (it : Word) (xs : List (BitVec 6)) : ∀ k : Ctx, (k.sources st it xs).2.2.rq = k.rq := by
  induction xs with
  | nil => exact fun _ => rfl
  | cons x xs ih => exact fun k => (ih _).trans (Ctx.source_rq k st it x)

/-- A word that nothing blocks finds the entries of its row queues. -/
theorem Mach.rowSrcs_present {m : Mach} {h : Hdr} {p : Ports} (hfree : m.blocked h p = none) :
    ∀ q ∈ p.rowSrcs, countIn q p.rowSrcs ≤ present (m.k.rq? q) := by
  have hheld : m.k.srcsHeld p = true := by
    unfold Mach.blocked at hfree
    by_contra hno
    rw [Bool.not_eq_true] at hno
    simp only [hno, Bool.not_false, if_true] at hfree
    split at hfree <;> simp at hfree
  simp only [Ctx.srcsHeld, Bool.and_eq_true, List.all_eq_true, decide_eq_true_eq] at hheld
  exact hheld.2

/-- The row entries that a word at its turn pops. -/
theorem AtTurn.rows_getElem? {s : State} {m : Mach} {i : Instr} {h : Hdr} {p : Ports} {n q : Nat} (hturn : AtTurn s m i h p)
    (hq : p.rowSrcs[n]? = some q) :
    ∃ e, (m.k.rq? q)[countIn q (p.rowSrcs.take n)]? = some (.full e) ∧ (m.opnds h p).rows[n]? = some e := by
  let k := ((m.armed.k.popTokens (fifosIn m.armed.st h.pb)).sources m.armed.st (m.armed.t.it h.ms.toNat) p.srcs).2.2
  have hk : k.rq = m.k.rq := (Ctx.sources_rq ..).trans ((Ctx.popTokens_rq ..).trans m.armed_rq)
  have hqueue : ∀ q, k.rq? q = m.k.rq? q := fun q => congrArg (fun t => tget [] t q) hk
  obtain ⟨e, hslot, hget⟩ := Ctx.rowSources_getElem? p.rowSrcs k n
    (fun q hmem => by rw [hqueue]; exact Mach.rowSrcs_present hturn.free q hmem) hq
  rw [hqueue] at hslot
  exact ⟨e, hslot, hget⟩

end Sys2Proof.Machine
end

