-- ==== Sys2Proof/Proofs/VectorOperands.lean ====
section
/-! SUPPORT. The operands of a V word that no head supplies, lane by lane (R69, R70, R150, R153). -/

namespace Sys2Proof.Machine

/-- The high four bits of the specifier of a register. -/
theorem high_of_vIsReg {x : BitVec 8} (hreg : vIsReg x = true) : (x.extractLsb' 4 4).toNat < 2 := by
  simp only [vIsReg, decide_eq_true_eq] at hreg
  rw [BitVec.extractLsb'_toNat, Nat.shiftRight_eq_div_pow]
  omega

theorem vIsQueue_eq_false_of_vIsReg {x : BitVec 8} (hreg : vIsReg x = true) : vIsQueue x = false := by
  have hhigh := high_of_vIsReg hreg
  rw [vIsQueue, beq_eq_false_iff_ne]
  intro heq
  exact absurd (heq ▸ hhigh) (by decide)

theorem vIsBcast_eq_false_of_vIsReg {x : BitVec 8} (hreg : vIsReg x = true) : vIsBcast x = false := by
  have hhigh := high_of_vIsReg hreg
  rw [vIsBcast, beq_eq_false_iff_ne]
  intro heq
  exact absurd (heq ▸ hhigh) (by decide)

theorem vIsBcast_eq_false_of_vIsQueue {x : BitVec 8} (hqueue : vIsQueue x = true) : vIsBcast x = false := by
  simp only [vIsQueue, beq_iff_eq] at hqueue
  simp [vIsBcast, hqueue]

/-! ## Sources -/

/-- A source of n rows that no head supplies; e is the entry that stands first among those popped. -/
def Mach.plainSrc (m : Mach) (n : Nat) (f : VField) (e : RowEnt) : VSrc :=
  if vIsReg f.spec then ⟨(upTo n).map fun r => m.k.vec.row f.spec.toNat r, BitVec.allOnes 64⟩
  else if vIsQueue f.spec then ⟨List.replicate n e.lanes, e.mask⟩
  else if vIsBcast f.spec then ⟨List.replicate n (List.replicate 64 ((m.t.reg (vNum f.spec)).setWidth 32)), BitVec.allOnes 64⟩
  else ⟨List.replicate n (List.replicate 64 (BitVec.ofNat 32 (immCode f.ty (f.spec.toNat % 32)))), BitVec.allOnes 64⟩

/-- Such sources in order, over the entries popped. -/
def Mach.plainSrcs (m : Mach) (n : Nat) : List VField → List RowEnt → List VSrc
  | [], _ => []
  | f :: fs, rows => m.plainSrc n f (rows.headD ⟨zeroRow, 0⟩) :: m.plainSrcs n fs (if vIsQueue f.spec then rows.drop 1 else rows)

/-- Without heads, reading the fields changes nothing and gives the plain sources. -/
theorem Mach.vread_headless (m : Mach) (act : Bool) (n : Nat) (fs : List VField) :
    ∀ rows, (∀ f ∈ fs, vIsHead f.spec = false) → m.vread act n fs rows = .ok (m.plainSrcs n fs rows) m := by
  induction fs with
  | nil => exact fun _ _ => rfl
  | cons f fs ih =>
    intro rows hheads
    have hrest := fun rows => ih rows fun g hg => hheads g (List.mem_cons_of_mem f hg)
    have hhead := hheads f (by simp)
    by_cases hreg : vIsReg f.spec
    · simp [Mach.vread, Mach.plainSrcs, Mach.plainSrc, hreg, vIsQueue_eq_false_of_vIsReg hreg, hrest]
    · by_cases hqueue : vIsQueue f.spec
      · simp [Mach.vread, Mach.plainSrcs, Mach.plainSrc, hreg, hqueue, hrest]
      · by_cases hbcast : vIsBcast f.spec
        · simp [Mach.vread, Mach.plainSrcs, Mach.plainSrc, hreg, hqueue, hhead, hbcast, hrest]
        · simp [Mach.vread, Mach.plainSrcs, Mach.plainSrc, hreg, hqueue, hhead, hbcast, hrest]

/-- Field number i reads the entry that the queue fields before it leave first. -/
theorem Mach.plainSrcs_getElem? {m : Mach} {n : Nat} {f : VField} (fs : List VField) :
    ∀ (i : Nat) (rows : List RowEnt), fs[i]? = some f →
      (m.plainSrcs n fs rows)[i]? =
        some (m.plainSrc n f (rows.getD ((fs.take i).filter fun g => vIsQueue g.spec).length ⟨zeroRow, 0⟩)) := by
  induction fs with
  | nil => intro i rows hi; simp at hi
  | cons g fs ih =>
    intro i rows hi
    cases i with
    | zero =>
      obtain rfl : g = f := by simpa using hi
      cases rows <;> rfl
    | succ i =>
      have hrest := ih i (if vIsQueue g.spec then rows.drop 1 else rows) hi
      rw [Mach.plainSrcs, List.getElem?_cons_succ, hrest]
      by_cases hqueue : vIsQueue g.spec
      · simp [hqueue, List.getD_eq_getElem?_getD, Nat.add_comm]
      · simp [hqueue]

/-! ## Elements -/

section
variable {m : Mach} {n r l : Nat} {f : VField} {e : RowEnt}

theorem Mach.length_plainSrc : (m.plainSrc n f e).rows.length = n := by
  unfold Mach.plainSrc
  split
  · simp [upTo]
  · split
    · simp
    · split <;> simp

theorem Mach.elem_plainSrc_of_reg (hr : r < n) (hreg : vIsReg f.spec = true) :
    (m.plainSrc n f e).elem r l = (m.k.vec.row f.spec.toNat r).getD l 0 := by
  simp [Mach.plainSrc, hreg, VSrc.elem, upTo, hr]

theorem Mach.elem_plainSrc_of_queue (hr : r < n) (hqueue : vIsQueue f.spec = true) :
    (m.plainSrc n f e).elem r l = e.lanes.getD l 0 := by
  have hreg : vIsReg f.spec = false := Bool.eq_false_iff.mpr fun hreg => by simp [vIsQueue_eq_false_of_vIsReg hreg] at hqueue
  simp [Mach.plainSrc, hreg, hqueue, VSrc.elem, hr]

theorem Mach.elem_plainSrc_of_bcast (hr : r < n) (hl : l < 64) (hbcast : vIsBcast f.spec = true) :
    (m.plainSrc n f e).elem r l = (m.t.reg (vNum f.spec)).setWidth 32 := by
  have hreg : vIsReg f.spec = false := Bool.eq_false_iff.mpr fun hreg => by simp [vIsBcast_eq_false_of_vIsReg hreg] at hbcast
  have hqueue : vIsQueue f.spec = false :=
    Bool.eq_false_iff.mpr fun hqueue => by simp [vIsBcast_eq_false_of_vIsQueue hqueue] at hbcast
  simp [Mach.plainSrc, hreg, hqueue, hbcast, VSrc.elem, hr, hl, -List.reduceReplicate]

theorem Mach.elem_plainSrc_of_imm (hr : r < n) (hl : l < 64) (hreg : vIsReg f.spec = false) (hqueue : vIsQueue f.spec = false)
    (hbcast : vIsBcast f.spec = false) :
    (m.plainSrc n f e).elem r l = BitVec.ofNat 32 (immCode f.ty (f.spec.toNat % 32)) := by
  simp [Mach.plainSrc, hreg, hqueue, hbcast, VSrc.elem, hr, hl, -List.reduceReplicate]

end

/-! ## Lane patterns -/

/-- A lane pattern names lanes of the row. -/
theorem lpLane_lt {op p l : Nat} (sel : Word) (hp : p < 32) (hl : l < 64) : lpLane op p sel l < 64 := by
  have hsel : bits sel (3 * (l % 8)) 3 < 8 := Nat.mod_lt _ (by decide)
  unfold lpLane
  dsimp only
  split
  · omega
  · omega
  · omega
  · omega
  · split <;> omega
  · exact hl

/-- The lane that lane l of source i reads. -/
def lpFrom (o : V3) (perm : Nat → Word) (i l : Nat) : Nat :=
  if o.lps.toNat = i + 1 then lpLane (o.lp.toNat / 32) (o.lp.toNat % 32) (perm (o.lp.toNat % 16)) l else l

theorem lpFrom_lt {o : V3} {perm : Nat → Word} {i l : Nat} (hl : l < 64) : lpFrom o perm i l < 64 := by
  unfold lpFrom
  split
  · exact lpLane_lt _ (Nat.mod_lt _ (by decide)) hl
  · exact hl

theorem elem_applyLp {o : V3} {perm : Nat → Word} {i r l : Nat} {v : VSrc} (hr : r < v.rows.length) (hl : l < 64) :
    (applyLp o perm i v).elem r l = v.elem r (lpFrom o perm i l) := by
  unfold applyLp lpFrom
  split
  · simp [VSrc.elem, hr, moveRow, upTo, hl]
  · rfl

/-! ## The operands of a word -/

/-- The operands that a word without heads reads. -/
def Mach.plainIn (m : Mach) (h : Hdr) (o : V3) (fs : List VField) (n : Nat) (a : Opnds) : VIn :=
  let vs := lmapIdx (applyLp o m.k.sr.permReg) (m.plainSrcs n fs a.rows)
  ⟨vs, n, effMask m.k.vec h, vs.foldl (fun b v => b &&& v.valid) (BitVec.allOnes 64)⟩

theorem vHeads_eq_nil {fs : List VField} (hheads : ∀ f ∈ fs, vIsHead f.spec = false) : vHeads fs = [] :=
  List.filterMap_eq_nil_iff.mpr fun f hf => if_neg (by simp [hheads f hf])

theorem Mach.vOperands_headless {m : Mach} {h : Hdr} {o : V3} {fs : List VField} {rowsOnly : Bool} {a : Opnds}
    (hheads : ∀ f ∈ fs, vIsHead f.spec = false) :
    m.vOperands h o fs rowsOnly a = some (m, m.plainIn h o fs (if rowsOnly then 1 else 16) a) := by
  simp only [Mach.vOperands, vHeads_eq_nil hheads, Mach.headsBad, Mach.vread_headless _ _ _ _ _ hheads]
  rfl

theorem Mach.elem_plainIn {m : Mach} {h : Hdr} {o : V3} {fs : List VField} {n i r l : Nat} {a : Opnds} {f : VField}
    (hi : fs[i]? = some f) (hr : r < n) (hl : l < 64) :
    (m.plainIn h o fs n a).elem i r l =
      (m.plainSrc n f (a.rows.getD ((fs.take i).filter fun g => vIsQueue g.spec).length ⟨zeroRow, 0⟩)).elem r
        (lpFrom o m.k.sr.permReg i l) := by
  have hsrc : (lmapIdx (applyLp o m.k.sr.permReg) (m.plainSrcs n fs a.rows))[i]? = some (applyLp o m.k.sr.permReg i
      (m.plainSrc n f (a.rows.getD ((fs.take i).filter fun g => vIsQueue g.spec).length ⟨zeroRow, 0⟩))) := by
    rw [getElem?_lmapIdx, Mach.plainSrcs_getElem? _ _ _ hi]
    rfl
  rw [VIn.elem, Mach.plainIn, List.getD_eq_getElem?_getD, hsrc, Option.getD_some,
    elem_applyLp (by rw [Mach.length_plainSrc]; exact hr) hl]

/-- Settles O36: rows are written one after another, each into its own place of the register; entries are popped in the order of the
queue fields; and a source without a head gives the lane that the pattern names, element by element. -/
theorem vectorOperandsAndResultsReachTheirPlaceAlone : Obligations.VectorOperandsAndResultsReachTheirPlaceAlone := by
  unfold Obligations.VectorOperandsAndResultsReachTheirPlaceAlone
  refine ⟨?rows, ?frame, ?pushed, ?popped, ?operands⟩
  case rows =>
    intro m n at_ mask rows j r l hroom hr hl hlen
    exact VecSt.getD_row_mergeRows hr hl rows 0 m.k.vec hroom hlen
  case frame => exact fun m n at_ mask rows => ⟨rfl, m.putRows_k n at_ mask rows⟩
  case pushed =>
    intro m o v valid rows hpush
    simp only [Mach.putV, hpush, if_true]
    exact ⟨rfl, rfl⟩
  case popped => exact fun s m i h p hturn n q hq => hturn.rows_getElem? hq
  case operands =>
    intro m h o fs rowsOnly a hheads
    refine ⟨_, Mach.vOperands_headless hheads, rfl, rfl, ?_⟩
    intro i f hi r hr l hl from_ entry
    have hrow : r < if rowsOnly then 1 else 16 := hr
    have hfrom : from_ < 64 := lpFrom_lt hl
    rw [Mach.elem_plainIn hi hrow hl]
    exact ⟨Mach.elem_plainSrc_of_reg hrow, Mach.elem_plainSrc_of_queue hrow, Mach.elem_plainSrc_of_bcast hrow hfrom,
      Mach.elem_plainSrc_of_imm hrow hfrom⟩

end Sys2Proof.Machine
end

