-- ==== Sys2Proof/Proofs/WaitingWords.lean ====
section
/-! SUPPORT. A word that cannot issue: its rendezvous holds a halted stream (R113), or one of conditions 2 to 6 blocks it (R112). -/
namespace Sys2Proof.Machine

/-- Every word with a header issues through the shared path with the ports that its rule gives it. -/
theorem exec_eq_issueWord_portsOf {i : Instr} {h : Hdr} (hh : i.hdr? = some h) :
    ∃ body, ∀ s, exec i s = issueWord i h (portsOf i) body s := by
  cases i <;> cases hh <;> exact ⟨_, fun _ => rfl⟩

/-- The rendezvous set of a machine is that of the machine on which its word is at its turn. -/
theorem Mach.armed_syncSet (m : Mach) : m.armed.syncSet = m.syncSet := by
  simp only [Mach.syncSet, Mach.armed_sr, Mach.armed_st]

/-- A word with no progress executes whole: nothing is let go of but its delay and its fence. -/
theorem Mach.woken_afresh {m : Mach} (hfresh : m.t.prog = none) : m.woken.afresh = m.armed := by
  have hprog : m.woken.t.prog = none := by rw [Mach.woken_t]; exact hfresh
  simp only [Mach.afresh, hprog, Option.isSome_none, Bool.and_false, Bool.false_eq_true, if_false]
  rfl

/-- The delay of a word at its turn is over, and its fence passed. -/
theorem Mach.woken_eq (m : Mach) :
    ((m.str fun t => { t with wakeAt := none }).ctx fun k => if m.st == .A then { k with fenced := false } else k) = m.woken := rfl

section Head
variable {s : State} {m : Mach} {i : Instr} {h : Hdr} {p : Ports} (ahead : AtHead s m h)
include ahead

/-- The slot of a word at the head of its stream is not squashed. -/
theorem AtHead.woken_slot : m.woken.t.squashed h.ms.toNat = false := by
  rw [Mach.woken_t]
  exact ahead.slot

variable (hcheck : m.checkWord i h = none) (body : Mach → Opnds → Res)
include hcheck

/-- A word whose progress is one that it resumes goes on from there. -/
theorem AtHead.issueIn_of_resumes (hresumes : m.t.prog.any p.resumes = true) :
    m.issueIn i h p body = m.woken.finish h (body m.woken (m.woken.retake h p)) := by
  have hprog : m.woken.t.prog = m.t.prog := by rw [Mach.woken_t]
  simp only [Mach.issueIn, Mach.payOwed_zero m ahead.paid, ahead.paid, ahead.awake, ahead.unfenced, ahead.unfilled, m.woken_eq,
    ahead.woken_slot, Mach.woken_check, hcheck, hprog, hresumes, bne_self_eq_false, Bool.false_eq_true, if_true, if_false]

/-- With SY and a halted stream in its rendezvous set, a word that executes whole takes cause 0x05, whatever else it waits for. -/
theorem AtHead.issueIn_of_partnerHalted (hfresh : m.t.prog = none) (hsy : h.sy = true) (hhalted : m.partnerHalted = true) :
    m.issueIn i h p body = (m.armed.takeTrap 0x05 (m.syncSet.setWidth 64) m.t.pc).leave (.trapped 0x05) := by
  have hprog : m.woken.t.prog = none := by rw [Mach.woken_t]; exact hfresh
  simp only [Mach.issueIn, Mach.payOwed_zero m ahead.paid, ahead.paid, ahead.awake, ahead.unfenced, ahead.unfilled, m.woken_eq,
    ahead.woken_slot, Mach.woken_check, hcheck, hprog, Mach.woken_afresh hfresh, Mach.armed_partner, Mach.armed_syncSet, Mach.armed_pc,
    hsy, hhalted, Option.any_none, Bool.and_self, bne_self_eq_false, Bool.false_eq_true, if_true, if_false]

end Head

/-- Settles O7: past its checks, the rendezvous is what such a word is asked for first. -/
theorem rendezvousWithAHaltedStreamTakesCause05 : Obligations.RendezvousWithAHaltedStreamTakesCause05 := by
  unfold Obligations.RendezvousWithAHaltedStreamTakesCause05
  intro s m i h ahead hh hcheck hfresh hsy hhalted
  obtain ⟨body, hexec⟩ := exec_eq_issueWord_portsOf hh
  rw [hexec, issueWord_of_enter _ _ _ _ ahead.enters, ahead.issueIn_of_partnerHalted hcheck body hfresh hsy hhalted]

/-- Settles O8: each word issues through the shared path with the ports of its rule, and there a blocked word waits. -/
theorem aBlockedWordTakesNothing : Obligations.ABlockedWordTakesNothing := by
  unfold Obligations.ABlockedWordTakesNothing
  intro i h hh
  obtain ⟨body, hexec⟩ := exec_eq_issueWord_portsOf hh
  exact waits_of hexec

end Sys2Proof.Machine
end

