-- ==== Sys2Proof/Proofs/StateReads.lean ====
section
/-! SUPPORT. The words that read state (R114, R125, R144, R399, R406): what a rendezvous lets QSTAT see, and the lag of sr.time. -/
namespace Sys2Proof.Machine

/-! ## What QSTAT sees (R114) -/

/-- A word that issues alone sees the queues as its own pops leave them. -/
theorem Mach.seen_alone {m : Mach} (h : Hdr) (hview : m.s.md.view = none) : m.seen h = m.k := by
  simp only [Mach.seen, hview]

/-- One of a rendezvous sees the queues of the context that stood before the set, its own tokens popped. -/
theorem Mach.seen_together {m : Mach} {k : Ctx} (h : Hdr) (hview : m.s.md.view = some k) (howed : (k.str m.st).owed = 0) :
    m.seen h = k.popTokens (fifosIn m.st h.pb) := by
  have hpay : (⟨m.s, k, m.st⟩ : Mach).payOwed = ⟨m.s, k, m.st⟩ := Mach.payOwed_zero _ howed
  simp only [Mach.seen, hview, hpay]

/-! ## Reads of special registers (R144, R399) -/

/-- A read of any register but sr.time is not remembered. -/
theorem Mach.srSeen_of_ne (m : Mach) {n : Nat} (hn : n ≠ 0x00A) : m.srSeen n = m := if_neg hn

/-- A read of sr.time is never less than an earlier one. -/
theorem State.timeSeen_le_timeRead (s : State) : s.md.timeSeen ≤ s.timeRead := le_max_left _ _

/-- It is not ahead of the count, when no earlier one has been. -/
theorem State.timeRead_le_time {s : State} (hseen : s.md.timeSeen ≤ s.time) : s.timeRead ≤ s.time := max_le hseen (Nat.sub_le _ _)

/-- It is at most 8 cycles behind. -/
theorem State.time_le_timeRead_add (s : State) : s.time ≤ s.timeRead + 8 := by
  have hlag : Config.freeLag s.md.tick % 9 < 9 := Nat.mod_lt _ (by decide)
  have hread : s.time - Config.freeLag s.md.tick % 9 ≤ s.timeRead := le_max_right _ _
  omega

section Words
variable (h : Hdr)

/-- SRR of a register other than sr.time writes its value. -/
theorem srr_runs (o : SI) (hn : o.srIndex ≠ 0x00A) :
    Runs (.srr h o) h { Ports.none with dsts := [o.dst] } (writes o.dst fun m _ => m.srValue o.srIndex) :=
  runs_of_done (fun _ => rfl) fun m a => by simp only [Mach.srSeen_of_ne m hn, ite_self, writes]

/-- SRR of sr.time writes the value that a read gives now, and under a true guard remembers it. -/
theorem srr_time_runs (o : SI) (hn : o.srIndex = 0x00A) :
    Runs (.srr h o) h { Ports.none with dsts := [o.dst] } fun m a =>
      (if a.act then { m with s := { m.s with md := { m.s.md with timeSeen := m.s.timeRead } } } else m).put o.dst a.act (W m.s.timeRead)
        a.valid :=
  runs_of_done (fun _ => rfl) fun m a => by rw [hn]; rfl

/-- PKW under a true guard delivers the two bits of its key and sets them. -/
theorem pkw_runs (o : S3) :
    RunsIf (.pkw h o) h (s3Ports1 o) isAct fun m a =>
      (m.put o.dst true ((m.k.sr.pkp >>> (2 * (o.fn.toNat % 32))) &&& 3) a.valid).ctx fun k =>
        { k with sr := { k.sr with pkp := pkpSet k.sr.pkp (o.fn.toNat % 32) (a.v 0) } } :=
  runsIf_of_done (fun _ => rfl) fun m a hact => by rw [isAct] at hact; simp only [hact, if_true]

/-- Under a false guard it sets none. -/
theorem pkw_off (o : S3) : RunsIf (.pkw h o) h (s3Ports1 o) isOff fun m _ => m.put o.dst false 0 false :=
  runsIf_of_done (fun _ => rfl) fun m a hoff => by
    rw [isOff] at hoff
    simp only [hoff, Bool.false_eq_true, if_false]
    rw [m.put_off o.dst _ 0]

end Words

/-- Settles O27: QSTAT is done on every machine, SRR by whether it reads sr.time, PKW by its guard. -/
theorem stateReadingWords : Obligations.StateReadingWords := by
  unfold Obligations.StateReadingWords
  intro h
  exact ⟨fun o => runs_of_done (fun _ => rfl) fun _ _ => rfl, fun m => Mach.seen_alone h, fun m k => Mach.seen_together h, srr_runs h,
    srr_time_runs h, fun s => ⟨s.timeSeen_le_timeRead, State.timeRead_le_time, s.time_le_timeRead_add⟩, pkw_runs h, pkw_off h⟩

end Sys2Proof.Machine
end

