-- ==== Sys2Proof/Proofs/QueryWords.lean ====
section
/-! SUPPORT. The words that ask engines and the event queue (R117, R316, R317, R332, R348, R367, R368, R374): their two results, also
into one queue, and the gate of the equivalence engine. -/
namespace Sys2Proof.Machine

/-! ## Two results (R117) -/

/-- One queue takes both results of a word. -/
def oneQueue (o : S3) : Prop := isQ o.dst = true ∧ o.dst = o.s1

/-- Such a queue has room for both. -/
def Mach.roomForTwo (m : Mach) (o : S3) : Prop := oneQueue o → 2 ≤ freeSlots (qNum o.dst) (m.k.sq? (qNum o.dst))

/-- The rest of a word that has made the first of its two pushes: the second, of w (R117). -/
def Mach.owing (m : Mach) (w : Word) : Mach := m.str fun t => { t with prog := some ⟨1, 2, some w⟩ }

/-- The model's test for one queue. -/
theorem oneQueue_iff {o : S3} : (isQ o.dst && o.dst == o.s1) = true ↔ oneQueue o := by
  rw [Bool.and_eq_true, beq_iff_eq, oneQueue]

/-- Room depends on the queues alone. -/
theorem Mach.roomForTwo.congr {m n : Mach} {o : S3} (hsq : n.k.sq = m.k.sq) (hroom : m.roomForTwo o) : n.roomForTwo o := by
  unfold Mach.roomForTwo Ctx.sq? at hroom ⊢
  rwa [hsq]

section Put
variable {m : Mach} {o : S3} {x : BitVec 6} {act : Bool} {v w : Word}

/-- A result takes one slot of its queue. -/
theorem Mach.freeSlots_put {valid : Bool} (hq : isQ x = true) :
    freeSlots (qNum x) ((m.put x act v valid).k.sq? (qNum x)) = freeSlots (qNum x) (m.k.sq? (qNum x)) - 1 := by
  simp only [Mach.put, hq, if_true, Mach.ctx_k, Ctx.pushS, Ctx.sq?, Ctx.setSq, tget_tset_same, freeSlots, List.length_append,
    List.length_singleton, Nat.sub_sub]

/-- The push of a second result is that of any result. -/
theorem Mach.put2nd_of_free (hq : isQ x = true) (hfree : freeSlots (qNum x) (m.k.sq? (qNum x)) ≠ 0) :
    m.put2nd (qNum x) act w = .done (m.put x act w act) := by
  rw [Mach.put2nd, if_neg hfree, Mach.put, if_pos hq]
  cases act <;> rfl

/-- Two results with room for both are delivered. -/
theorem Mach.put2_of_room (hroom : m.roomForTwo o) :
    m.put2 o act v w = .done ((m.put o.dst act v act).put o.s1 act w act) := by
  unfold Mach.put2
  split
  · next hsame =>
    obtain ⟨hq, heq⟩ := oneQueue_iff.mp hsame
    have hfree : freeSlots (qNum o.dst) ((m.put o.dst act v act).k.sq? (qNum o.dst)) ≠ 0 := by
      have := hroom ⟨hq, heq⟩
      rw [Mach.freeSlots_put hq]
      omega
    rw [Mach.put2nd_of_free hq hfree, ← heq]
  · rfl

/-- With one slot in the queue of both, the first is delivered and the second waits. -/
theorem Mach.put2_of_one_slot (hone : oneQueue o) (hslot : freeSlots (qNum o.dst) (m.k.sq? (qNum o.dst)) = 1) :
    m.put2 o act v w = .hold ((m.put o.dst act v act).owing w) .slot := by
  have hfull : freeSlots (qNum o.dst) ((m.put o.dst act v act).k.sq? (qNum o.dst)) = 0 := by rw [Mach.freeSlots_put hone.1, hslot]
  rw [Mach.put2, if_pos (oneQueue_iff.mpr hone), Mach.put2nd, if_pos hfull]
  rfl

end Put

/-! ## The rest of a word that has made the first of two pushes (R117) -/

/-- A delay that is over and a fence that is passed change neither guard nor mask. -/
theorem Mach.woken_active (m : Mach) (h : Hdr) : m.woken.active h = m.active h := by
  obtain ⟨s, k, st⟩ := m
  cases st <;> rfl

/-- Nor do they change the queues. -/
theorem Mach.woken_sq (m : Mach) : m.woken.k.sq = m.k.sq := by
  obtain ⟨s, k, st⟩ := m
  cases st <;> rfl

/-- A word whose second push is owed makes it when its queue has a slot, and waits while it has none. -/
theorem exec_second_push {i : Instr} {h : Hdr} {o : S3} {body : Mach → Opnds → Mach → Res}
    (e : ∀ s, exec i s = issueWord i h (ports2 o) (fun m a => m.two o a.act (body m a)) s)
    {s : State} {m : Mach} {w : Word} (ahead : AtHead s m h) (hcheck : m.checkWord i h = none) (hone : oneQueue o)
    (howing : m.t.prog = some ⟨1, 2, some w⟩) :
    exec i s = .next (m.woken.finish h (m.woken.put2nd (qNum o.dst) (m.active h) w)) := by
  have hresumes : m.t.prog.any (ports2 o).resumes = true := by
    rw [howing]
    simpa [ports2, oneQueue] using hone
  have hprog : m.woken.t.prog = some ⟨1, 2, some w⟩ := by rw [Mach.woken_t]; exact howing
  rw [e, issueWord_of_enter _ _ _ _ ahead.enters, ahead.issueIn_of_resumes hcheck _ hresumes]
  simp only [Mach.two, hprog, Mach.retake, Mach.woken_active, Option.getD_some]

/-! ## The gate of the equivalence engine (R332, R348) -/

/-- A word on engine 1 closes a run of unions; one on another engine does not. -/
def Mach.engGate (m : Mach) (eng : Nat) : Mach := if eng = 1 then m.ctx Ctx.closeRun else m

/-- No failure of the equivalence engine is pending, where the word is one on it. -/
def Mach.engOpen (m : Mach) (eng : Nat) : Prop := eng = 1 → m.k.eng.eqFail = none

/-- Closing a run leaves the queues. -/
theorem Mach.engGate_sq (m : Mach) (eng : Nat) : (m.engGate eng).k.sq = m.k.sq := by
  unfold Mach.engGate
  split
  · exact m.k.closeRun_sq
  · rfl

/-- It leaves the events. -/
theorem Ctx.closeRun_evq (k : Ctx) : k.closeRun.evq = k.evq := by
  unfold Ctx.closeRun
  split <;> rfl

/-- With no failure pending the gate lets a word through. -/
theorem Mach.engGate_of_open {m : Mach} {eng : Nat} (hopen : m.engOpen eng) (body : Mach → Res) :
    (if eng = 1 then m.eqGate body else body m) = body (m.engGate eng) := by
  unfold Mach.engGate
  split
  · next heng => simp only [Mach.eqGate, Mach.eqPending, hopen heng, Option.map_none]
  · rfl

/-! ## Records (R267, R316) -/

/-- What taking a record does: the lines that its command wrote are dropped, the record and its writes leave the engine. -/
def Mach.takeRec (m : Mach) (eng : Nat) (r : CRec) (rest : List CRec) : Mach :=
  ({ m with s := r.sectors.foldl (fun s sec => s.l1Drop m.core sec) m.s } : Mach).ctx fun k => { k with eng := k.eng.taken eng r rest }

section Deq
variable {i : Instr} {h : Hdr} {o : S3} {eng : Nat} {m : Mach}

/-- DEQ takes the oldest record. -/
theorem deqBody_of_record {r : CRec} {rest : List CRec} (hrecs : m.k.recsOf eng = r :: rest) :
    deqBody i o eng true m = (m.takeRec eng r rest).put2 o true r.info r.value := by
  simp only [deqBody, hrecs, Mach.takeRec, Bool.not_true, Bool.false_eq_true, if_false]

/-- With no record, the form that does not wait delivers all ones and 0. -/
theorem deqBody_of_empty (hrecs : m.k.recsOf eng = []) (hpoll : o.fn.getLsbD 2 = true) :
    deqBody i o eng true m = m.put2 o true (BitVec.allOnes 64) 0 := by
  simp only [deqBody, hrecs, hpoll, Bool.not_true, Bool.false_eq_true, if_false, if_true]

/-- The body of DEQ, on a machine with no progress, under a true guard, with no failure pending. -/
theorem deq_two_of_open {act : Bool} (hprog : m.t.prog = none) (hact : act = true) (hopen : m.engOpen (o.fn.toNat % 4)) :
    (m.two o act fun m => if o.fn.toNat % 4 = 1 then m.eqGate (deqBody i o (o.fn.toNat % 4) act) else deqBody i o (o.fn.toNat % 4) act m) =
      deqBody i o (o.fn.toNat % 4) true (m.engGate (o.fn.toNat % 4)) := by
  simp only [Mach.two, hprog, hact]
  exact Mach.engGate_of_open hopen _

/-- DEQ completes where its body is done. -/
theorem deq_runs {c : Mach → Opnds → Prop} {f : Mach → Opnds → Mach}
    (hc : ∀ m a, c m a → a.act = true ∧ m.engOpen (o.fn.toNat % 4))
    (hbody : ∀ m a, c m a → deqBody (.deq h o) o (o.fn.toNat % 4) true (m.engGate (o.fn.toNat % 4)) = .done (f m a)) :
    RunsIf (.deq h o) h (ports2 o) c f :=
  runsIf_of_done_at (fun _ => rfl) fun _ m _ hm =>
    (deq_two_of_open (m.taken_prog h _) (hc _ _ hm).1 (hc _ _ hm).2).trans (hbody _ _ hm)

end Deq

/-! ## Events (R367) -/

section Events
variable {h : Hdr} {o : S3} {m : Mach} {empty : Res}

/-- The oldest event of a selected class is taken. -/
theorem eventBody_of_some {e : Word × Word} {rest : List (Word × Word)} (hroom : m.roomForTwo o)
    (hevent : takeEvent o.fn m.k.evq = some (e, rest)) :
    eventBody o true m empty =
      .done ((((m.ctx Ctx.closeRun).ctx fun k => { k with evq := rest }).put o.dst true e.1 true).put o.s1 true e.2 true) := by
  simp only [eventBody, Mach.ctx_k, Ctx.closeRun_evq, hevent, Bool.not_true, Bool.false_eq_true, if_false]
  exact Mach.put2_of_room (hroom.congr m.k.closeRun_sq)

/-- With none, the word's own answer. -/
theorem eventBody_of_none (hevent : takeEvent o.fn m.k.evq = none) : eventBody o true m empty = empty := by
  simp only [eventBody, Mach.ctx_k, Ctx.closeRun_evq, hevent, Bool.not_true, Bool.false_eq_true, if_false]

/-- EVW and EVQ complete where the body of their event is done. -/
theorem event_runs {i : Instr} {c : Mach → Opnds → Prop} {f : Mach → Opnds → Mach} {empty : Mach → Res}
    (e : ∀ s, exec i s = issueWord i h (ports2 o) (fun m a => m.two o a.act fun m => eventBody o a.act m (empty m)) s)
    (hact : ∀ m a, c m a → a.act = true) (hbody : ∀ m a, c m a → eventBody o true m (empty m) = .done (f m a)) :
    RunsIf i h (ports2 o) c f :=
  runsIf_of_done_at e fun s m _ hm => by
    simp only [Mach.two, Mach.taken_prog, hact _ _ hm]
    exact hbody _ _ hm

end Events

/-! ## Signals (R374) -/

/-- A context signals to its gang once its stove's dirty lines are written. -/
def Mach.signalGang (m : Mach) (status : Byte) (v : Word) : Mach :=
  let sig : Gang → Gang := fun g => g.signal m.k.bd.dormant m.k.bd.rank status v
  { m with s := (m.s.cleanStove m.core m.k.bd.vdev).gangUpd m.k.bd.vdev m.k.bd.task sig }

/-! ## By word -/

section Words
variable (h : Hdr) (o : S3)

/-- DEQ of an engine with a record. -/
theorem deq_record_runs (r : CRec) (rest : List CRec) :
    RunsIf (.deq h o) h (ports2 o)
      (fun m a => a.act = true ∧ m.roomForTwo o ∧ m.engOpen (o.fn.toNat % 4) ∧
        (m.engGate (o.fn.toNat % 4)).k.recsOf (o.fn.toNat % 4) = r :: rest)
      (fun m _ => (((m.engGate (o.fn.toNat % 4)).takeRec (o.fn.toNat % 4) r rest).put o.dst true r.info true).put o.s1 true r.value true) :=
  deq_runs (fun _ _ ⟨hact, _, hopen, _⟩ => ⟨hact, hopen⟩) fun m _ ⟨_, hroom, _, hrecs⟩ =>
    (deqBody_of_record hrecs).trans (Mach.put2_of_room (hroom.congr (m.engGate_sq _)))

/-- DEQ of an engine without one, in the form that does not wait. -/
theorem deq_empty_runs :
    RunsIf (.deq h o) h (ports2 o)
      (fun m a => a.act = true ∧ m.roomForTwo o ∧ m.engOpen (o.fn.toNat % 4) ∧
        (m.engGate (o.fn.toNat % 4)).k.recsOf (o.fn.toNat % 4) = [] ∧ o.fn.getLsbD 2 = true)
      (fun m _ => ((m.engGate (o.fn.toNat % 4)).put o.dst true (BitVec.allOnes 64) true).put o.s1 true 0 true) :=
  deq_runs (fun _ _ ⟨hact, _, hopen, _⟩ => ⟨hact, hopen⟩) fun m _ ⟨_, hroom, _, hrecs, hpoll⟩ =>
    (deqBody_of_empty hrecs hpoll).trans (Mach.put2_of_room (hroom.congr (m.engGate_sq _)))

/-- The same with one slot in the queue that takes both results: the second push is owed. -/
theorem deq_empty_one_slot {s : State} {m : Mach} (hturn : AtTurn s m (.deq h o) h (ports2 o)) (hone : oneQueue o)
    (hact : (m.opnds h (ports2 o)).act = true) (hopen : (m.taken h (ports2 o)).engOpen (o.fn.toNat % 4))
    (hrecs : ((m.taken h (ports2 o)).engGate (o.fn.toNat % 4)).k.recsOf (o.fn.toNat % 4) = []) (hpoll : o.fn.getLsbD 2 = true)
    (hslot : freeSlots (qNum o.dst) ((m.taken h (ports2 o)).k.sq? (qNum o.dst)) = 1) :
    exec (.deq h o) s = .next (((((m.taken h (ports2 o)).engGate (o.fn.toNat % 4)).put o.dst true (BitVec.allOnes 64) true).owing 0).leave
      (.going .slot)) := by
  have hslot' : freeSlots (qNum o.dst) (((m.taken h (ports2 o)).engGate (o.fn.toNat % 4)).k.sq? (qNum o.dst)) = 1 := by
    rw [Ctx.sq?, Mach.engGate_sq]
    exact hslot
  have hbody := (deq_two_of_open (i := .deq h o) (m.taken_prog h _) hact hopen).trans
    ((deqBody_of_empty hrecs hpoll).trans (Mach.put2_of_one_slot hone hslot'))
  show issueWord (.deq h o) h (ports2 o) _ s = _
  rw [issueWord_atTurn _ hturn, hbody]
  rfl

/-- DEQ, EVW and EVQ with their second push owed. -/
theorem second_push_goes_on {s : State} {m : Mach} {w : Word} {i : Instr} (ahead : AtHead s m h)
    (hi : i = .deq h o ∨ i = .evw h o ∨ i = .evq h o) (hcheck : m.checkWord i h = none) (hone : oneQueue o)
    (howing : m.t.prog = some ⟨1, 2, some w⟩) :
    (freeSlots (qNum o.dst) (m.k.sq? (qNum o.dst)) ≠ 0 →
      exec i s = .next ((m.woken.ctx fun k => k.pushS (qNum o.dst) (if m.active h then w else 0) (m.active h)).completed h)) ∧
    (freeSlots (qNum o.dst) (m.k.sq? (qNum o.dst)) = 0 → exec i s = .next ((m.woken.owing w).leave (.going .slot))) := by
  have hexec : exec i s = .next (m.woken.finish h (m.woken.put2nd (qNum o.dst) (m.active h) w)) := by
    rcases hi with rfl | rfl | rfl <;> exact exec_second_push (fun _ => rfl) ahead hcheck hone howing
  rw [hexec, Mach.put2nd, Ctx.sq?, Ctx.sq?, Mach.woken_sq]
  exact ⟨fun hfree => by rw [if_neg hfree]; rfl, fun hfull => by rw [if_pos hfull]; rfl⟩

/-- EVW and EVQ with an event of a selected class. -/
theorem event_taken_runs {i : Instr} {empty : Mach → Res} (e : Word × Word) (rest : List (Word × Word))
    (hexec : ∀ s, exec i s = issueWord i h (ports2 o) (fun m a => m.two o a.act fun m => eventBody o a.act m (empty m)) s) :
    RunsIf i h (ports2 o) (fun m a => a.act = true ∧ m.roomForTwo o ∧ takeEvent o.fn m.k.evq = some (e, rest))
      (fun m _ => (((m.ctx Ctx.closeRun).ctx fun k => { k with evq := rest }).put o.dst true e.1 true).put o.s1 true e.2 true) :=
  event_runs hexec (fun _ _ hm => hm.1) fun _ _ ⟨_, hroom, hevent⟩ => eventBody_of_some hroom hevent

/-- EVQ with no event of a selected class. -/
theorem evq_empty_runs :
    RunsIf (.evq h o) h (ports2 o) (fun m a => a.act = true ∧ m.roomForTwo o ∧ takeEvent o.fn m.k.evq = none)
      (fun m _ => ((m.ctx Ctx.closeRun).put o.dst true (BitVec.allOnes 64) true).put o.s1 true 0 true) :=
  event_runs (fun _ => rfl) (fun _ _ hm => hm.1) fun m _ ⟨_, hroom, hevent⟩ =>
    (eventBody_of_none hevent).trans (Mach.put2_of_room (hroom.congr m.k.closeRun_sq))

/-- ENGST of an engine with no failure pending. -/
theorem engst_runs :
    RunsIf (.engst h o) h { Ports.none with dsts := [o.dst] } (fun m _ => m.engOpen (o.fn.toNat % 4))
      (fun m a => (m.engGate (o.fn.toNat % 4)).put o.dst a.act
        ((m.engGate (o.fn.toNat % 4)).k.engStat (o.fn.toNat % 4) (o.fn.toNat / 4 % 8)) true) :=
  runsIf_of_done (fun _ => rfl) fun _ _ hopen => Mach.engGate_of_open hopen _

/-- EVA with an aligned handler. -/
theorem eva_runs :
    RunsIf (.eva h o) h (s3Ports1 o) (fun _ a => a.act = true ∧ (a.v 0).toNat % 8 = 0)
      (fun m a => (m.ctx fun k => { k with arms := tset 0 k.arms (o.fn.toNat % 8) (a.v 0) }).put o.dst true
        (tget 0 m.k.arms (o.fn.toNat % 8)) a.valid) :=
  runsIf_of_done (fun _ => rfl) fun m a ⟨hact, halign⟩ => by
    simp only [hact, halign, Bool.not_true, Bool.false_eq_true, if_false, ne_eq, not_true_eq_false]

/-- TKSIG of a context that has not signalled and whose earlier words have been released. -/
theorem tksig_runs :
    RunsIf (.tksig h o) h { Ports.none with srcs := [o.s1] }
      (fun m a => a.act = true ∧ m.k.signalled = false ∧ m.k.released = true ∧ m.s.rangesDead (stoveOf m.core) [(0, 2 ^ 54)] = false)
      (fun m a => (m.signalGang o.fn (a.v 0)).ctx fun k => { k with signalled := true }) :=
  runsIf_of_done (fun _ => rfl) fun m a ⟨hact, hfirst, hreleased, halive⟩ => by
    simp only [hact, hfirst, hreleased, halive, Bool.not_true, Bool.false_eq_true, if_false, Mach.signalGang]

end Words

/-- Settles O53: each word by what its body comes to; two results go into one queue while it has room, and the second is owed where it
has not. -/
theorem queryAndEventWords : Obligations.QueryAndEventWords := by
  unfold Obligations.QueryAndEventWords
  intro h o eng p2 same room gate open_
  exact ⟨deq_record_runs h o, deq_empty_runs h o, fun s m hturn => deq_empty_one_slot h o hturn,
    fun s m w i ahead hi hcheck hone howing => second_push_goes_on h o ahead hi hcheck hone howing, engst_runs h o, eva_runs h o,
    fun e rest => ⟨event_taken_runs h o e rest fun _ => rfl, event_taken_runs h o e rest fun _ => rfl⟩, evq_empty_runs h o,
    tksig_runs h o⟩

end Sys2Proof.Machine
end

