-- ==== Sys2Proof/Proofs/ScalarResults.lean ====
section
/-! SUPPORT. The words with one scalar result (R132, R133, R136 to R138, R142): the functions that the model computes are those that
the rules state, and each word writes its function. -/
namespace Sys2Proof.Machine

/-- A word whose body delivers v of its operands to its destination writes what v equals. -/
theorem runs_writes {i : Instr} {h : Hdr} {p : Ports} {x : BitVec 6} {v w : Mach → Opnds → Word}
    (e : ∀ s, exec i s = issueWord i h p (fun m a => .done (m.put x a.act (v m a) a.valid)) s) (hv : ∀ m a, v m a = w m a) :
    Runs i h p (writes x w) :=
  runs_of_done e fun m a => by rw [hv, writes]

/-! ## Division (R132) -/

/-- The quotient of the numbers is that of the words. -/
theorem divU_eq (a b : Word) : divU a b = if b = 0 then BitVec.allOnes 64 else a / b := by
  rw [divU, BitVec.udiv_def, W]

/-- So is the remainder. -/
theorem remU_eq (a b : Word) : remU a b = if b = 0 then a else a % b := by
  rw [remU, BitVec.umod_def, W]

/-- Settles O17: each word writes the row of R132's table that its body computes. -/
theorem arithmeticWordsWriteTheirResult : Obligations.ArithmeticWordsWriteTheirResult := by
  unfold Obligations.ArithmeticWordsWriteTheirResult
  intro h o
  refine ⟨?add, ?sub, ?mul, ?mulhi, ?mulhis, ?div, ?divs, ?rem, ?rems⟩
  case add | sub | mul | mulhi | mulhis | divs | rems => exact runs_writes (fun _ => rfl) fun _ _ => rfl
  case div => exact runs_writes (fun _ => rfl) fun _ _ => divU_eq _ _
  case rem => exact runs_writes (fun _ => rfl) fun _ _ => remU_eq _ _

/-! ## Shifts and selections (R133) -/

/-- A choice by a strict order is one by the order itself where a tie makes no difference. -/
theorem ite_lt_eq_ite_le {α β : Type} [LinearOrder α] {x y : α} {u v : β} (htie : x = y → u = v) :
    (if x < y then u else v) = if x ≤ y then u else v := by
  rcases lt_trichotomy x y with hlt | heq | hgt
  · rw [if_pos hlt, if_pos hlt.le]
  · rw [htie heq, ite_self, ite_self]
  · rw [if_neg hgt.not_gt, if_neg hgt.not_ge]

/-- MIN and MAX choose by the unsigned order. -/
theorem ite_ult_eq {a b u v : Word} (htie : a = b → u = v) : (if a.ult b then u else v) = if a.toNat ≤ b.toNat then u else v := by
  simp only [BitVec.ult, decide_eq_true_eq]
  exact ite_lt_eq_ite_le fun heq => htie (BitVec.eq_of_toNat_eq heq)

/-- MINS and MAXS choose by the signed order. -/
theorem ite_slt_eq {a b u v : Word} (htie : a = b → u = v) : (if a.slt b then u else v) = if a.toInt ≤ b.toInt then u else v := by
  simp only [BitVec.slt, decide_eq_true_eq]
  exact ite_lt_eq_ite_le fun heq => htie (BitVec.eq_of_toInt_eq heq)

/-- Settles O18: a shift takes the low six bits of S2 as its amount, and a tie of MIN or MAX makes no difference. -/
theorem logicWordsWriteTheirResult : Obligations.LogicWordsWriteTheirResult := by
  unfold Obligations.LogicWordsWriteTheirResult
  intro h o
  refine ⟨?and, ?or, ?xor, ?andn, ?shl, ?shr, ?sra, ?rol, ?min, ?mins, ?max, ?maxs⟩
  case and | or | xor | andn => exact runs_writes (fun _ => rfl) fun _ _ => rfl
  case shl | shr | sra => exact runs_writes (fun _ => rfl) fun _ _ => by simp only [shAmt_eq]
  case rol => exact runs_writes (fun _ => rfl) fun _ _ => by rw [rolWord, shAmt_eq]
  case min => exact runs_writes (fun _ => rfl) fun _ _ => ite_ult_eq id
  case mins => exact runs_writes (fun _ => rfl) fun _ _ => ite_slt_eq id
  case max => exact runs_writes (fun _ => rfl) fun _ _ => ite_ult_eq Eq.symm
  case maxs => exact runs_writes (fun _ => rfl) fun _ _ => ite_slt_eq Eq.symm

/-! ## Funnel shifts (R137) -/

/-- The left funnel is the high half of the pair shifted left. -/
theorem fshlWord_eq {n : Nat} (hn : n < 64) (a b : Word) : fshlWord n a b = ((a ++ b) <<< n).extractLsb' 64 64 := by
  have hor : fshlWord n a b = (a <<< n) ||| (b >>> (64 - n)) := by
    unfold fshlWord
    split
    · next hzero => rw [hzero, BitVec.ushiftRight_eq_zero (Nat.le_refl _), BitVec.or_zero, BitVec.shiftLeft_zero]
    · rfl
  refine BitVec.eq_of_getLsbD_eq fun i hi => ?_
  have hhigh : 64 + i < 128 := by omega
  have hkept : ¬ 64 + i < n := by omega
  simp only [hor, BitVec.getLsbD_or, BitVec.getLsbD_shiftLeft, BitVec.getLsbD_ushiftRight, BitVec.getLsbD_extractLsb',
    BitVec.getLsbD_append, hi, hhigh, hkept]
  by_cases hlow : i < n
  · have hfrom : 64 - n + i = 64 + i - n := by omega
    have hpair : 64 + i - n < 64 := by omega
    simp [hlow, hfrom, hpair]
  · have hfrom : 64 + i - n - 64 = i - n := by omega
    have hpair : ¬ 64 + i - n < 64 := by omega
    have hbeyond : b.getLsbD (64 - n + i) = false := BitVec.getLsbD_of_ge _ _ (by omega)
    simp [hlow, hfrom, hpair, hbeyond]

/-- The right funnel is the low half of the pair shifted right. -/
theorem fshrWord_eq {n : Nat} (hn : n < 64) (a b : Word) : fshrWord n a b = ((a ++ b) >>> n).extractLsb' 0 64 := by
  have hor : fshrWord n a b = (b >>> n) ||| (a <<< (64 - n)) := by
    unfold fshrWord
    split
    · next hzero => rw [hzero, BitVec.shiftLeft_eq_zero (Nat.le_refl _), BitVec.or_zero, BitVec.ushiftRight_zero]
    · rfl
  refine BitVec.eq_of_getLsbD_eq fun i hi => ?_
  simp only [hor, BitVec.getLsbD_or, BitVec.getLsbD_shiftLeft, BitVec.getLsbD_ushiftRight, BitVec.getLsbD_extractLsb',
    BitVec.getLsbD_append, Nat.zero_add]
  by_cases hlow : n + i < 64
  · have hout : i < 64 - n := by omega
    simp [hi, hlow, hout]
  · have hfrom : i - (64 - n) = n + i - 64 := by omega
    have hin : ¬ i < 64 - n := by omega
    have hbeyond : b.getLsbD (n + i) = false := BitVec.getLsbD_of_ge _ _ (Nat.le_of_not_lt hlow)
    simp [hi, hlow, hin, hfrom, hbeyond]

/-- The amount of a funnel is below 64, be it the field of FN or the old value of DST. -/
theorem s3Funnel_lt (o : S3) (m : Mach) : s3Funnel o m < 64 := by
  unfold s3Funnel
  split <;> exact Nat.mod_lt _ (by decide)

/-! ## Counts (R138) -/

/-- The number of set bits, bit by bit. -/
theorem popCount_eq (n v : Nat) : popCount n v = (List.range n).countP v.testBit := by
  induction n generalizing v with
  | zero => rfl
  | succ n ih =>
    rw [popCount, ih, List.range_succ_eq_map, List.countP_cons, List.countP_map, Nat.testBit_zero, Nat.add_comm]
    congr 1
    · exact List.countP_congr fun i _ => by rw [Function.comp, Nat.testBit_succ]
    · rcases Nat.mod_two_eq_zero_or_one v with heven | hodd <;> simp [*]

/-- The first number at which a predicate holds. -/
theorem findIdx_range {p : Nat → Bool} {n i : Nat} (hi : i < n) (hp : p i = true) (hbelow : ∀ j < i, p j = false) :
    (List.range n).findIdx p = i := by
  rw [List.findIdx_eq (by rwa [List.length_range])]
  simp only [List.getElem_range]
  exact ⟨hp, hbelow⟩

/-- There is none. -/
theorem findIdx_range_of_forall {p : Nat → Bool} {n : Nat} (hnone : ∀ i < n, p i = false) : (List.range n).findIdx p = n := by
  have := List.findIdx_eq_length (p := p) (xs := List.range n)
  rw [List.length_range] at this
  exact this.mpr fun i hi => hnone i (List.mem_range.mp hi)

/-- CLZ counts down from bit 63 to the highest set bit. -/
theorem clzWord_eq (a : Word) : clzWord a = BitVec.ofNat 64 ((List.range 64).findIdx fun i => a.getLsbD (63 - i)) := by
  unfold clzWord
  split
  · next hzero => rw [findIdx_range_of_forall fun i _ => by rw [hzero]; exact BitVec.getLsbD_zero]; rfl
  · next hne =>
    have hpos : a.toNat ≠ 0 := fun h => hne (BitVec.eq_of_toNat_eq h)
    have hlog : a.toNat.log2 < 64 := (Nat.log2_lt hpos).mpr a.isLt
    rw [findIdx_range (i := 63 - a.toNat.log2) (by omega), W]
    · rw [show 63 - (63 - a.toNat.log2) = a.toNat.log2 by omega]
      exact Nat.testBit_log2 hpos
    · intro j hj
      exact Nat.testBit_lt_two_pow (Nat.lt_log2_self.trans_le (Nat.pow_le_pow_right (by omega) (by omega)))

/-- The lowest set bit alone (R138). -/
theorem and_neg_eq_twoPow {a : Word} {n : Nat} (hn : a.getLsbD n = true) (hbelow : ∀ j < n, a.getLsbD j = false) :
    a &&& -a = BitVec.twoPow 64 n := by
  refine BitVec.eq_of_getLsbD_eq fun i hi => ?_
  rw [BitVec.getLsbD_and, BitVec.getLsbD_neg, BitVec.getLsbD_twoPow]
  rcases Nat.lt_trichotomy i n with hlt | rfl | hgt
  · simp [hbelow i hlt, hlt.ne']
  · have : ¬ ∃ j < i, a.getLsbD j = true := fun ⟨j, hj, hset⟩ => by simp [hbelow j hj] at hset
    simp [hn, hi, this]
  · have : ∃ j < i, a.getLsbD j = true := ⟨n, hgt, hn⟩
    simp [hi, hgt.ne, this]

/-- CTZ counts up from bit 0 to the lowest set bit. -/
theorem ctzWord_eq (a : Word) : ctzWord a = BitVec.ofNat 64 ((List.range 64).findIdx fun i => a.getLsbD i) := by
  unfold ctzWord
  split
  · next hzero => rw [findIdx_range_of_forall fun i _ => by rw [hzero]; exact BitVec.getLsbD_zero]; rfl
  · next hne =>
    have hset := BitVec.getLsbD_true_ctz_of_ne_zero hne
    have hbelow : ∀ j < a.ctz.toNat, a.getLsbD j = false := fun _ => BitVec.getLsbD_false_of_lt_ctz
    have hlt : a.ctz.toNat < 64 := BitVec.lt_of_getLsbD hset
    rw [findIdx_range hlt hset hbelow, and_neg_eq_twoPow hset hbelow, BitVec.toNat_twoPow_of_lt hlt, Nat.log2_two_pow, W]

/-- Settles O20: the fields and the old value are read as the statement reads them; the funnels and the counts are those of R137 and
R138. -/
theorem bitFieldWordsWriteTheirResult : Obligations.BitFieldWordsWriteTheirResult := by
  unfold Obligations.BitFieldWordsWriteTheirResult
  intro h o w ones sh old n
  refine ⟨?bfx, ?bfxs, ?bfi, ?fshl, ?fshr, ?popc, ?clz, ?ctz, ?brev⟩
  case bfx | bfxs | bfi | brev => exact runs_writes (fun _ => rfl) fun _ _ => rfl
  case fshl => exact runs_writes (fun _ => rfl) fun m _ => fshlWord_eq (s3Funnel_lt o m) _ _
  case fshr => exact runs_writes (fun _ => rfl) fun m _ => fshrWord_eq (s3Funnel_lt o m) _ _
  case popc => exact runs_writes (fun _ => rfl) fun _ _ => congrArg W (popCount_eq _ _)
  case clz => exact runs_writes (fun _ => rfl) fun _ _ => clzWord_eq _
  case ctz => exact runs_writes (fun _ => rfl) fun _ _ => ctzWord_eq _

end Sys2Proof.Machine
end

