-- ==== Sys2Proof/Proofs/CompareAndGuard.lean ====
section
/-! SUPPORT. Compares, guard operations and selects (R139 to R142). -/
namespace Sys2Proof.Machine

/-- The conditions of R139. -/
theorem condHolds_eq (a b : Word) :
    condHolds 0 a b = decide (a = b) ∧ condHolds 1 a b = decide (a ≠ b) ∧ condHolds 2 a b = decide (a.toInt < b.toInt) ∧
    condHolds 3 a b = decide (b.toInt ≤ a.toInt) ∧ condHolds 4 a b = decide (a.toNat < b.toNat) ∧
    condHolds 5 a b = decide (b.toNat ≤ a.toNat) ∧ condHolds 6 a b = decide (a &&& b ≠ 0) ∧ condHolds 7 a b = decide (a &&& b = 0) := by
  refine ⟨rfl, ?ne, rfl, ?ge, rfl, ?geu, ?any, rfl⟩
  case ne | any => exact (decide_not ..).symm
  case ge | geu => simp only [condHolds, BitVec.slt, BitVec.ult, ← decide_not, not_lt]

/-! ## What a compare writes (R140) -/

/-- A condition as the word 0 or 1. -/
theorem W_b2n (b : Bool) : W (b2n b) = if b then 1 else 0 := by cases b <;> rfl

section Compare
variable {i : Instr} {h : Hdr} {p : Ports} {x : BitVec 6} {gd : Nat} {t : Word → Word → Bool}

/-- A compare that names a guard writes its condition there. -/
theorem compare_guard_runs (e : ∀ s, exec i s = issueWord i h p (cmpBody x false gd t) s) :
    RunsIf i h p isAct fun m a =>
      (m.put x true (if t (a.v 0) (a.v 1) then 1 else 0) a.valid).str fun u => u.setGuard gd (t (a.v 0) (a.v 1)) :=
  runsIf_of_done e fun m a hact => by
    rw [isAct] at hact
    simp only [cmpBody, hact, W_b2n, Bool.not_true, Bool.false_eq_true, if_false]

/-- One that names a mask writes its condition in every bit. -/
theorem compare_mask_runs (e : ∀ s, exec i s = issueWord i h p (cmpBody x true gd t) s) :
    RunsIf i h p isAct fun m a =>
      (m.put x true (if t (a.v 0) (a.v 1) then 1 else 0) a.valid).ctx fun k =>
        { k with vec := k.vec.setMaskRows gd (List.replicate 16 (if t (a.v 0) (a.v 1) then BitVec.allOnes 64 else 0)) } :=
  runsIf_of_done e fun m a hact => by
    rw [isAct] at hact
    simp only [cmpBody, hact, W_b2n, Bool.not_true, Bool.false_eq_true, if_false, if_true]

/-- Under a false guard a compare writes neither. -/
theorem compare_off_runs {mk : Bool} (e : ∀ s, exec i s = issueWord i h p (cmpBody x mk gd t) s) :
    RunsIf i h p isOff fun m _ => m.put x false 0 false :=
  runsIf_of_done e fun m a hoff => by
    rw [isOff] at hoff
    simp only [cmpBody, hoff, Bool.not_false, if_true]
    rw [m.put_off x _ 0]

end Compare

/-- CMP by whether it names a mask. -/
theorem exec_cmp {h : Hdr} {o : S3} {mk : Bool} (hmk : o.fn.getLsbD 7 = mk) (s : State) :
    exec (.cmp h o) s = issueWord (.cmp h o) h { s3Ports o with grds := if mk then [] else [o.fn.toNat / 16 % 8] }
      (cmpBody o.dst mk (o.fn.toNat / 16 % 8) (condHolds (o.fn.toNat % 16))) s := by
  rw [← hmk]
  rfl

/-- CMPI by whether it names a mask. -/
theorem exec_cmpi {h : Hdr} {o : SI} {mk : Bool} (hmk : o.imm.getLsbD 27 = mk) (s : State) :
    exec (.cmpi h o) s = issueWord (.cmpi h o) h { siPorts o with grds := if mk then [] else [o.imm.toNat / 2 ^ 24 % 8] }
      (cmpBody o.dst mk (o.imm.toNat / 2 ^ 24 % 8) fun a _ =>
        condHolds (o.imm.toNat / 2 ^ 20 % 16) a ((o.imm.extractLsb' 0 20).signExtend 64)) s := by
  rw [← hmk]
  rfl

/-! ## Guard operations (R141) -/

section Gop
variable (h : Hdr) {o : S3}

/-- GOP that computes writes the bit of FN that its two guards select. -/
theorem gop_logic_runs (hmode : o.fn.toNat / 16 % 4 = 0) :
    RunsIf (.gop h o) h (gopPorts o) isAct fun m _ =>
      m.str fun t => t.setGuard o.dst.toNat (o.fn.getLsbD (2 * b2n (m.t.guard o.s1.toNat) + b2n (m.t.guard o.s2.toNat))) :=
  runsIf_of_done (fun _ => rfl) fun m a hact => by
    rw [isAct] at hact
    simp only [gopBody, hmode, hact, if_true]

/-- GOP that reads delivers the guards, g0 as 1. -/
theorem gop_read_runs (hmode : o.fn.toNat / 16 % 4 = 1) :
    Runs (.gop h o) h (gopPorts o) (writes o.dst fun m _ => (m.t.guards ||| 1).setWidth 64) :=
  runs_of_done (fun _ => rfl) fun m a => by
    simp only [gopBody, hmode, one_ne_zero, if_false, if_true]
    rfl

/-- GOP that writes sets the guards, g0 to 1. -/
theorem gop_write_runs (hmode : o.fn.toNat / 16 % 4 = 2) :
    RunsIf (.gop h o) h (gopPorts o) isAct fun m a => m.str fun t => { t with guards := (a.v 0).setWidth 8 ||| 1 } :=
  runsIf_of_done (fun _ => rfl) fun m a hact => by
    rw [isAct] at hact
    simp only [gopBody, hmode, hact, OfNat.ofNat_ne_zero, OfNat.ofNat_ne_one, if_false, if_true]
    rfl

/-- Under a false guard GOP leaves the guards, and delivers only where it reads. -/
theorem gop_off_runs : RunsIf (.gop h o) h (gopPorts o) (fun _ a => a.act = false ∧ o.fn.toNat / 16 % 4 ≠ 1) nothing :=
  runsIf_of_done (fun _ => rfl) fun m a ⟨hoff, hmode⟩ => by
    simp only [gopBody, hmode, hoff, Bool.false_eq_true, if_false, ite_self, nothing]

end Gop

/-- Settles O21: a compare by what it names, GOP by its mode, SEL as a word with one result. -/
theorem compareAndGuardWords : Obligations.CompareAndGuardWords := by
  unfold Obligations.CompareAndGuardWords
  refine ⟨condHolds_eq, fun h => ⟨?cmpGuard, ?cmpMask, ?cmpiGuard, ?cmpiMask, ?off, ?logic, ?read, ?write, ?sel⟩⟩
  case cmpGuard => exact fun o hguard => (compare_guard_runs (exec_cmp hguard) :)
  case cmpMask => exact fun o hmask => (compare_mask_runs (exec_cmp hmask) :)
  case cmpiGuard => exact fun o hguard => (compare_guard_runs (exec_cmpi hguard) :)
  case cmpiMask => exact fun o hmask => (compare_mask_runs (exec_cmpi hmask) :)
  case off => exact fun o q => ⟨compare_off_runs (exec_cmp rfl), compare_off_runs (exec_cmpi rfl), gop_off_runs h⟩
  case logic => exact fun o => gop_logic_runs h
  case read => exact fun o => gop_read_runs h
  case write => exact fun o => gop_write_runs h
  case sel => exact fun o => runs_writes (fun _ => rfl) fun _ _ => rfl

end Sys2Proof.Machine
end

