-- ==== Sys2Proof/Proofs/StreamControl.lean ====
section
/-! SUPPORT. A stream outside its text (R143, R424), and the words NOP, YIELD, WAIT and HALT (R145 to R148, R332, R348, R431). -/
namespace Sys2Proof.Machine

/-! ## Fetches outside the text (R143) -/

/-- A fetch outside the stream's text gives cause 0x10, and nothing is read. -/
theorem Mach.fetchAt_outside {m : Mach} {a : Word} (hout : m.k.bd.inText m.st a = false) : m.fetchAt a = (.trap 0x10, m) :=
  if_pos (by rw [hout]; rfl)

section Fetch
variable {s : State} {x : CtxRef} {st : Stream} {m m' : Mach} {c : BitVec 8}
  (henter : (Mach.enter { s with md := { s.md with cur := x, curSt := st } }).1 = some m) (hheld : m.heldUp = none)
  (hfetch : m.fetchAt m.t.pc = (.trap c, m'))
include henter hheld hfetch

/-- A stream that can issue and that nothing holds up takes the trap of its fetch. -/
theorem State.issueTurn_of_fetchTrap : s.issueTurn x st = .next (m'.fetchTrap c) := by
  unfold State.issueTurn
  generalize Mach.enter { s with md := { s.md with cur := x, curSt := st } } = r at henter
  obtain ⟨o, s'⟩ := r
  cases henter
  simp only [hheld, hfetch]

/-- So it does where that trap is a step of its own. -/
theorem exec_instructionFetchFault_of_fetchTrap : exec (.instructionFetchFault x st) s = .next (m'.fetchTrap c) := by
  change execInstructionFetchFault x st s = _
  unfold execInstructionFetchFault
  generalize Mach.enter { s with md := { s.md with cur := x, curSt := st } } = r at henter
  obtain ⟨o, s'⟩ := r
  cases henter
  simp only [hheld, hfetch]

end Fetch

/-- Settles O16: the fetch gives the cause, and both steps take it. -/
theorem fetchOutsideTheTextTakesCause10 : Obligations.FetchOutsideTheTextTakesCause10 := by
  unfold Obligations.FetchOutsideTheTextTakesCause10
  intro s x st m henter hheld hout
  have hfetch := Mach.fetchAt_outside hout
  exact ⟨exec_instructionFetchFault_of_fetchTrap henter hheld hfetch, State.issueTurn_of_fetchTrap henter hheld hfetch⟩

/-! ## WAIT (R145) -/

/-- What WAIT does once it is its turn. -/
def waitBody (o : SI) (m : Mach) (a : Opnds) : Res :=
  if !a.act then .done m
  else if o.imm.toNat / 2 ^ 28 = 0 then
    let d := min ((a.v 0).toNat + o.imm.toNat % 2 ^ 28) (2 ^ 32)
    .done (if d = 0 then m else m.str fun t => { t with wakeAt := some (W (m.s.time + d)) })
  else if m.drained then .done m
  else .wait .register

section Wait
variable {h : Hdr} {o : SI}

/-- WAIT with a delay takes S1. -/
theorem exec_wait_delay (hkind : o.imm.toNat / 2 ^ 28 = 0) (s : State) :
    exec (.wait h o) s = issueWord (.wait h o) h { Ports.none with srcs := [o.s1] } (waitBody o) s := by
  change issueWord _ _ (if o.imm.toNat / 2 ^ 28 = 0 then _ else _) _ s = _
  rw [if_pos hkind]
  rfl

/-- WAIT of another kind takes nothing. -/
theorem exec_wait_drain (hkind : o.imm.toNat / 2 ^ 28 ≠ 0) (s : State) :
    exec (.wait h o) s = issueWord (.wait h o) h Ports.none (waitBody o) s := by
  change issueWord _ _ (if o.imm.toNat / 2 ^ 28 = 0 then _ else _) _ s = _
  rw [if_neg hkind]
  rfl

/-- Under a true guard the stream sleeps until its time is over. -/
theorem wait_delay_runs (hkind : o.imm.toNat / 2 ^ 28 = 0) :
    RunsIf (.wait h o) h { Ports.none with srcs := [o.s1] } isAct fun m a =>
      let d := min ((a.v 0).toNat + o.imm.toNat % 2 ^ 28) (2 ^ 32)
      if d = 0 then m else m.str fun t => { t with wakeAt := some (BitVec.ofNat 64 (m.s.time + d)) } :=
  runsIf_of_done (exec_wait_delay hkind) fun m a hact => by
    rw [isAct] at hact
    simp only [waitBody, hact, hkind, Bool.not_true, Bool.false_eq_true, if_false, if_true, W]

/-- Under a false guard it does not. -/
theorem wait_delay_off (hkind : o.imm.toNat / 2 ^ 28 = 0) :
    RunsIf (.wait h o) h { Ports.none with srcs := [o.s1] } isOff nothing :=
  runsIf_off (exec_wait_delay hkind)

/-- Once every earlier word has completed, or under a false guard, the other kind completes. -/
theorem wait_drain_runs (hkind : o.imm.toNat / 2 ^ 28 ≠ 0) :
    RunsIf (.wait h o) h Ports.none (fun m a => a.act = false ∨ m.drained = true) nothing :=
  runsIf_of_done (exec_wait_drain hkind) fun m a hready => by
    rcases hready with hoff | hdrained
    · exact if_pos (by rw [hoff]; rfl)
    · simp only [waitBody, hkind, hdrained, if_false, if_true, ite_self, nothing]

end Wait

/-! ## HALT (R147, R332, R348) -/

/-- A run-closing word leaves what a drain waits for. -/
theorem Mach.drained_closeRun (m : Mach) : (m.ctx Ctx.closeRun).drained = m.drained := by
  simp only [Mach.drained, Mach.ctx_k, Ctx.closeRun]
  split <;> rfl

/-- It leaves the token FIFOs. -/
theorem Ctx.roomFor_closeRun (k : Ctx) (l : List Nat) : k.closeRun.roomFor l = k.roomFor l := by
  unfold Ctx.closeRun
  split <;> rfl

/-- What HALT does past its gate. -/
def haltBody (h : Hdr) (act : Bool) (m : Mach) : Res :=
  if !act then .done m
  else if !m.drained then .wait .register
  else if !m.k.roomFor (fifosOut m.st h.pa) then .hold (m.str fun t => { t with prog := some ⟨0, 0, none⟩ }) .push
  else .done ((m.str fun t => { t with halted := true }).offerIfIdle)

section Halt
variable {h : Hdr} {o : S3} {m : Mach} {c : Mach → Opnds → Prop} {f : Mach → Opnds → Mach}

/-- HALT: the gate of the A stream, then its body. -/
theorem exec_halt (s : State) :
    exec (.halt h o) s = issueWord (.halt h o) h haltPorts
      (fun m a => (if m.st == .A && m.t.prog.isNone then m.eqGate else fun body => body m) (haltBody h a.act)) s := rfl

/-- Under a false guard HALT has no effect of its own. -/
theorem haltBody_off : haltBody h false m = .done m := rfl

/-- With its stream drained and room for its pushes, it halts its stream. -/
theorem haltBody_of_room (hdrained : m.drained = true) (hroom : m.k.roomFor (fifosOut m.st h.pa) = true) :
    haltBody h true m = .done ((m.str fun t => { t with halted := true }).offerIfIdle) := by
  simp only [haltBody, hdrained, hroom, Bool.not_true, Bool.false_eq_true, if_false]

/-- HALT of another stream than A passes no gate. -/
theorem halt_runs_of_ne_A (hst : ∀ m a, c m a → m.st ≠ .A)
    (hbody : ∀ m a, c m a → haltBody h a.act m = .done (f m a)) : RunsIf (.halt h o) h haltPorts c f :=
  runsIf_of_done exec_halt fun m a hc => by
    simp only [beq_eq_false_iff_ne.mpr (hst m a hc), Bool.false_and, Bool.false_eq_true, if_false]
    exact hbody m a hc

/-- HALT of the A stream with no failure pending closes a run of unions. -/
theorem halt_runs_of_A (hgate : ∀ m a, c m a → m.st = .A ∧ m.k.eng.eqFail = none)
    (hbody : ∀ m a, c m a → haltBody h a.act (m.ctx Ctx.closeRun) = .done (f m a)) : RunsIf (.halt h o) h haltPorts c f :=
  runsIf_of_done_at exec_halt fun s m _ hc => by
    obtain ⟨hst, hopen⟩ := hgate _ _ hc
    simp only [hst, Mach.taken_prog, Option.isNone_none, beq_self_eq_true, Bool.and_self, if_true]
    exact (Mach.engGate_of_open (eng := 1) (fun _ => hopen) _).trans (hbody _ _ hc)

end Halt

/-- Settles O29: WAIT by its kind, HALT by its stream and its guard; NOP and YIELD are done on every machine. -/
theorem streamControlWords : Obligations.StreamControlWords := by
  unfold Obligations.StreamControlWords
  intro h
  refine ⟨?nop, ?yield, ?waitDelay, ?waitOff, ?haltOff, ?waitDrain, ?halt, ?haltA⟩
  case nop | yield => exact fun o => runs_of_done (fun _ => rfl) fun _ _ => rfl
  case waitDelay => exact fun o => wait_delay_runs
  case waitOff => exact fun o => wait_delay_off
  case waitDrain => exact fun o => wait_drain_runs
  case haltOff =>
    exact fun o => ⟨halt_runs_of_ne_A (fun m a ⟨_, hst⟩ => hst) fun m a ⟨hoff, _⟩ => by rw [hoff, haltBody_off, nothing],
      halt_runs_of_A (fun m a ⟨_, hgate⟩ => hgate) fun m a ⟨hoff, _⟩ => by rw [hoff, haltBody_off]⟩
  case halt =>
    exact fun o => halt_runs_of_ne_A (fun m a ⟨_, _, _, hst⟩ => hst) fun m a ⟨hact, hdrained, hroom, _⟩ => by
      rw [hact, haltBody_of_room hdrained hroom]
  case haltA =>
    exact fun o => halt_runs_of_A (fun m a ⟨_, _, _, hgate⟩ => hgate) fun m a ⟨hact, hdrained, hroom, _⟩ => by
      rw [hact, haltBody_of_room (m.drained_closeRun.trans hdrained) ((m.k.roomFor_closeRun _).trans hroom)]

end Sys2Proof.Machine
end

