-- ==== Sys2Proof/Proofs/VectorCodes.lean ====
section
/-! SUPPORT. The V words that compute codes from codes: those that take no draw (R159, R161, R167, R171), and conversions (R168). -/

namespace Sys2Proof.Machine

/-- An element-wise word whose results take no draw completes with them. -/
theorem elemRuns_drawless {i : Instr} {h : Hdr} {o : V3} {n ty w : Nat} {g : Mach → List Nat → RRes}
    (e : ∀ s, exec i s = runV i h o (vfN n o ty) (n == 3) (rowShaped (vfN n o ty) o (n == 3))
      (elemBody o (n == 3) (List.replicate n w) 0 fun m c _ => g m c) s) : ElemRuns i h o n ty w g :=
  elemRuns_of (f := fun m c _ => g m c) (mode := 0) (by decide) e

/-! ## Conversions (R168) -/

section Convert
variable {h : Hdr} {o : V3}

/-- One element of VCVT in a mode, from its code and its draw. -/
def Mach.cvtRes (m : Mach) (o : V3) (mode c draw : Nat) : RRes := cvtElem (parSel o.s2) o.ty.toNat mode m.sat5 c draw

/-- The body of VCVT in a mode. -/
def cvtBody (o : V3) (mode : Nat) : Mach → VIn → Res :=
  elemBody o false [tyWidth (parSel o.s2)] mode fun m c draw => m.cvtRes o mode (c.getD 0 0) draw

/-- VCVT runs that body in the mode that PAR names. -/
theorem exec_vcvt (s : State) :
    exec (.vcvt h o) s = runV (.vcvt h o) h o (vf1 o (parSel o.s2)) false (rowShaped (vf1 o (parSel o.s2)) o false)
      (fun m v => cvtBody o (m.rmField (parRm o.s2).toNat) m v) s := rfl

/-- In a mode that draws nothing VCVT completes, when none of its flags is enabled to trap. -/
theorem cvtBody_calm {mode : Nat} {m : Mach} {v : VIn} (hmode : mode ≠ 4)
    (hcalm : m.calm o v 1 (tyWidth (parSel o.s2)) fun c => m.cvtRes o mode (c.getD 0 0) 0) :
    cvtBody o mode m v = .done (m.elems o v 1 (tyWidth (parSel o.s2)) fun c => m.cvtRes o mode (c.getD 0 0) 0) :=
  elemBody_calm o 1 mode _ hmode (fun m c draw => m.cvtRes o mode (c.getD 0 0) draw) m v hcalm

/-- The elements of VCVT in a mode that draws, and the register after the last draw: each element written takes the next one. -/
def Mach.cvtDrawn (m : Mach) (o : V3) (v : VIn) : List (List RRes) × BitVec 32 :=
  elemRows (v.writes (v3Pushes o))
    (fun r l s => (m.cvtRes o 4 ((v.elem 0 r l).toNat % 2 ^ tyWidth (parSel o.s2)) (lfsrDraw s).1, (lfsrDraw s).2)) v.n 0 m.k.sr.lfsr

/-- In a mode that draws, an element takes a draw. -/
theorem drawFor_draws (s : BitVec 32) : drawFor 4 s = lfsrDraw s := if_pos rfl

/-- In such a mode VCVT delivers those elements, then ends with the register, the events and the flags that they leave. -/
theorem cvtBody_drawn (m : Mach) (v : VIn) :
    cvtBody o 4 m v = (m.putV o v v.valid (rowsLanes (m.cvtDrawn o v).1)).vEnd (m.cvtDrawn o v).2
      ((m.cvtDrawn o v).1.flatMap fun x => x.map (·.ev)) (rowsFlags (m.cvtDrawn o v).1) := by
  simp only [Mach.cvtDrawn, ← drawFor_draws]
  rfl

end Convert

/-- Settles O32: every word but VCVT takes no draw; VCVT goes by whether its mode draws. -/
theorem vectorCodeWordsComplete : Obligations.VectorCodeWordsComplete := by
  unfold Obligations.VectorCodeWordsComplete
  intro h o ty w a b signed code
  refine ⟨?vabs, ?vneg, ?vand, ?vor, ?vxor, ?vshl, ?vshr, ?vsra, ?vrcp, ?vsqrt, ?vrsq, ?vexp2, ?vlog2, ?vtbl, ?rounds, ?draws⟩
  case vabs | vneg | vand | vor | vxor | vshl | vshr | vsra | vrcp | vsqrt | vrsq | vexp2 | vlog2 | vtbl =>
    exact elemRuns_drawless fun _ => rfl
  case rounds => exact vRunsIf_of_done exec_vcvt fun _ _ _ ⟨hmode, hcalm⟩ => cvtBody_calm hmode hcalm
  case draws =>
    exact vRunsIf_of_done exec_vcvt fun m v _ ⟨hmode, hcalm⟩ => by
      rw [hmode, cvtBody_drawn]
      exact Mach.putV_vEnd_calm o v _ _ _ _ hcalm

end Sys2Proof.Machine
end

