-- ==== Sys2Proof/Proofs/VectorMoves.lean ====
section
/-! SUPPORT. The V words that move lanes and rows (R172 to R178). -/

namespace Sys2Proof.Machine

/-- Settles O34: the body of each move is done on every machine; VSPL writes where its mask has a bit set. -/
theorem vectorMovesComplete : Obligations.VectorMovesComplete := by
  unfold Obligations.VectorMovesComplete
  intro h o ty fs row mod moved
  refine ⟨?vrotr, ?vrotc, ?vbcr, ?vbcc, ?vtrb, ?vmov, ?vext, ?vins, ?viota, ?vspl, ?vtblw⟩
  case vrotr | vrotc | vbcr | vbcc | vtrb | vmov | vext | vins | viota | vtblw =>
    exact vRunsIf_of_done (fun _ => rfl) fun _ _ _ _ => rfl
  case vspl => exact vRunsIf_of_done (fun _ => rfl) fun m v _ hact => congrArg Res.done (if_pos hact)

end Sys2Proof.Machine
end

