-- ==== Sys2Proof/Proofs/HeadWords.lean ====
section
/-! SUPPORT. The words on heads (R191, R204 to R206) and on tapes (R182, R190, R197 to R199, R202, R203, R218). -/

namespace Sys2Proof.Machine

/-! ## Moving a head (R204, R205) -/

/-- The stream owns head n, which is no recorder. -/
def Mach.owns (m : Mach) (n : Nat) : Prop :=
  (m.k.head n).bound = true ∧ (m.k.head n).owner = m.st ∧ (m.k.head n).mode ≠ .recorder

/-- A head that the stream owns is changed as the word says. -/
theorem Mach.mover_of_owns {m : Mach} {n : Nat} (howns : m.owns n) (f : Head → Desc → Head) :
    m.mover n f = .done (m.ctx fun k => k.setHead n (f (m.k.head n) (m.tapeOf (m.k.head n).handle))) := by
  obtain ⟨hbound, howner, hmode⟩ := howns
  simp only [Mach.mover, hbound, howner, beq_eq_false_iff_ne.mpr hmode, bne_self_eq_false, Bool.not_true, Bool.or_self, Bool.false_eq_true,
    if_false]

/-- A head that is unbound, or another stream's, is not moved. -/
theorem Mach.mover_of_not_owner {m : Mach} {n : Nat} (hnot : (m.k.head n).bound = false ∨ (m.k.head n).owner ≠ m.st)
    (f : Head → Desc → Head) : m.mover n f = .trap 0x20 (m.headTv n) := by
  have htest : (!(m.k.head n).bound || (m.k.head n).owner != m.st) = true := by
    rcases hnot with hfree | hother
    · rw [hfree]; rfl
    · rw [bne_iff_ne.mpr hother, Bool.or_true]
  exact if_pos htest

section Movers
variable {i : Instr} {h : Hdr} {p : Ports} {n : Nat} {f : Opnds → Head → Desc → Head}
  (e : ∀ s, exec i s = issueWord i h p (fun m a => if a.act then m.mover n (f a) else .done m) s)
include e

/-- A word that moves a head completes for the head's owner. -/
theorem mover_runs : RunsIf i h p (fun m a => a.act = true ∧ m.owns n)
    (fun m a => m.ctx fun k => k.setHead n (f a (m.k.head n) (m.tapeOf (m.k.head n).handle))) :=
  runsIf_of_done e fun m a ⟨hact, howns⟩ => by rw [if_pos hact, Mach.mover_of_owns howns]

/-- For any other stream it takes cause 0x20. -/
theorem mover_traps : TrapsIf i h p
    (fun m a => a.act = true ∧ ((m.k.head n).bound = false ∨ (m.k.head n).owner ≠ m.st)) (fun m _ => (0x20, m.headTv n)) :=
  trapsIf_of_trap e fun m a ⟨hact, hnot⟩ => by rw [if_pos hact, Mach.mover_of_not_owner hnot]

end Movers

/-- HREW lets go of a head's flue and moves the head to its mark (R205). -/
def Head.rewound (i : Nat) (q : Head) (d : Desc) : Head := { q with flue := [] }.moveFrom q d (q.mark i)

/-- HREW moves its head so. -/
theorem exec_hrew (h : Hdr) (o : H) (s : State) :
    exec (.hrew h o) s =
      issueWord (.hrew h o) h Ports.none (fun m a => if a.act then m.mover o.hd.toNat (Head.rewound o.mark.toNat) else .done m) s := rfl

/-- Settles O37: three words that move a head, and HSTAT, which is done on every machine. -/
theorem headWords : Obligations.HeadWords := by
  unfold Obligations.HeadWords
  intro h o owned change
  refine ⟨?hstep, ?hmark, ?hrew, ?notOwner, ?hstat⟩
  case hstep => exact mover_runs (n := o.hd.toNat) (f := fun a => Head.stepBy (if o.cnt = 48 then o.imm.toInt else (a.v 0).toInt)) fun _ => rfl
  case hmark => exact mover_runs (n := o.hd.toNat) (f := fun _ q _ => q.setMark o.mark.toNat q.v) fun _ => rfl
  case hrew => exact mover_runs (n := o.hd.toNat) (f := fun _ => Head.rewound o.mark.toNat) (exec_hrew h o)
  case notOwner => exact mover_traps (n := o.hd.toNat) (f := fun _ q _ => q.setMark o.mark.toNat q.v) fun _ => rfl
  case hstat => exact runs_of_done (fun _ => rfl) fun _ _ => rfl

/-! ## Binding a head (R190, R197, R198) -/

/-- The directory entry of a tape to which a head has been bound, for an updater with its place (R182, R197). -/
def State.boundTo (s : State) (x : CtxRef) (o : H) (d : Desc) (t : Target) : State :=
  let s := s.descPut t 9 (W ((d.nheads + 1) % 256))
  if hMode o == .rmw || hMode o == .overwrite then s.descPut t 8 (updField x o.hd.toNat) else s

/-- The head that an HBIND binds (R197). -/
def hBound (o : H) (handle : Nat) (d : Desc) : Head :=
  Head.fresh handle (hOwner o) (o.fl.getLsbD 2) (hMode o) (if o.fl.getLsbD 2 then Int.ofNat d.len - 1 else 0)

/-- HBIND with the earlier loads performed, of a free head to a sealed tape with room for it. -/
theorem hbindBody_of_fits {o : H} {m : Mach} {a : Opnds} {d : Desc} {t : Target} {s1 : State} (hact : a.act = true)
    (hloads : m.k.loadsDone = true) (hentry : m.s.tapeEntry m.core m.k (a.v 0).toNat true = (.ok d t, s1))
    (hfree : (m.k.head o.hd.toNat).bound = false) (hsealed : d.state = 3 ∨ (d.state = 2 ∧ (hMode o == .rmw || hMode o == .overwrite) = false))
    (hfits : m.bindFits (a.v 0).toNat (hMode o == .rmw || hMode o == .overwrite) = true) :
    hbindBody o m a = .done ({ m with s := s1.boundTo m.x o d t }.ctx fun k => k.setHead o.hd.toNat (hBound o (a.v 0).toNat d)) := by
  have hopen : (d.state != 3 && (hMode o == .rmw || hMode o == .overwrite || d.state != 2)) = false := by
    rcases hsealed with h | ⟨h, hread⟩
    · rw [h]; rfl
    · rw [h, hread]; rfl
  simp only [hbindBody, hact, hloads, hentry, hfree, hopen, hfits, Bool.not_true, Bool.false_eq_true, if_false, State.boundTo, hBound]

/-- HUNB of a head with no write on its way. -/
theorem hunbBody_of_unbound {o : H} {m : Mach} {a : Opnds} {k1 : Ctx} {s1 : State} (hact : a.act = true)
    (hquiet : (m.k.hwrites.any fun w => w.hd == o.hd.toNat) = false) (hunbind : m.s.unbindHead m.core m.k o.hd.toNat = some (k1, s1)) :
    hunbBody o m a = .done { m with s := s1, k := k1 } := by
  simp only [hunbBody, hact, hquiet, hunbind, Bool.not_true, Bool.false_eq_true, if_false]

/-! ## Opening a tape (R182, R184, R199) -/

/-- The descriptor that the 128 bytes of an image hold (R182). -/
def descOf (bytes : List Byte) : Desc := Desc.ofWords ((chunks 8 bytes 16).map fun b => W (leNat b))

/-- The stream whose recorder a TOPEN binds (R199). -/
def recorderOwner (v : Word) : Stream := if bitAt v 4 then .M else .D

/-- TOPEN of an image that it takes, with nothing earlier outstanding, a free head and a free directory entry. -/
theorem topenBody_of_free {o : S3} {m : Mach} {a : Opnds} {tgt e : Target} {s1 s2 s3 : State} {bytes : List Byte} {handle : Nat}
    (hact : a.act = true) (hfields : bits (a.v 1) 5 59 = 0) (halign : (a.v 0).toNat % 128 = 0)
    (hlook : m.s.look m.core m.k (a.v 0) m.k.needLd = (.ok tgt, s1)) (halive : s1.expDead tgt.pa = false) (hstores : m.k.stores = [])
    (hloads : m.k.loadsDone = true) (hread : s1.pathBytes tgt.path tgt.acc tgt.pa 128 = (bytes, false, s2))
    (himage : (descOf bytes).imageOk = true) (hhead : (m.k.head (bits (a.v 1) 0 4)).bound = false)
    (hentry : s2.freeEntry m.core m.k (2 ^ bits m.k.sr.tdir 58 5) 1 = (.at_ handle e, s3)) :
    topenBody o m a =
      .done ((({ m with s := (s3.descPutAll e (descOf bytes).opened).aliens [e.pa / 64, e.pa / 64 + 1] } : Mach).ctx fun k =>
        k.setHead (bits (a.v 1) 0 4) (Head.fresh handle (recorderOwner (a.v 1)) false .recorder 0)).put o.dst true (W handle) a.valid) := by
  simp only [descOf] at himage
  simp only [topenBody, hact, hfields, halign, hlook, halive, hstores, hloads, hread, himage, hhead, hentry, descOf, recorderOwner, ne_eq,
    not_true_eq_false, decide_false, List.isEmpty_nil, Bool.not_true, Bool.or_self, Bool.false_eq_true, if_false]

/-! ## Sealing a tape and reading its descriptor (R190, R202, R203, R218) -/

section Tapes
variable {o : S3} {m : Mach} {a : Opnds} {d : Desc} {t : Target} {s1 : State} (hact : a.act = true)
include hact

/-- TSEAL of a tape that is not open changes its control dword. -/
theorem tsealBody_of_closed (hentry : m.s.tapeEntry m.core m.k (a.v 0).toNat true = (.ok d t, s1))
    (hok : d.sealFault (o.fn.toNat % 4) (o.fn.getLsbD 2) (m.tapeBound (a.v 0).toNat) = none) (hstate : d.state ≠ 1) :
    tsealBody o m a =
      .done ({ m with s := s1.descPut t 0 (sealCtl d.ctl (o.fn.toNat % 4) (o.fn.getLsbD 2)) }.put o.dst true d.ctl a.valid) := by
  simp only [tsealBody, hact, hentry, hok, hstate, decide_false, Bool.false_and, Bool.not_true, Bool.false_eq_true, if_false]

/-- The entry of an open tape that is sealed: its length is what has been recorded, unless the tape is freed, and no head is left. -/
def State.sealedEntry (s : State) (o : S3) (d : Desc) (t : Target) : State :=
  let s := s.descPut t 0 (sealCtl d.ctl (o.fn.toNat % 4) (o.fn.getLsbD 2))
  (if o.fn.toNat % 4 = 2 then s else s.descPut t 1 (W d.recorded)).descPut t 9 0

/-- TSEAL of an open tape, once everything before it is performed: its heads are unbound with it. -/
theorem tsealBody_of_open (hentry : m.s.tapeEntry m.core m.k (a.v 0).toNat true = (.ok d t, s1))
    (hok : d.sealFault (o.fn.toNat % 4) (o.fn.getLsbD 2) (m.tapeBound (a.v 0).toNat) = none) (hstate : d.state = 1)
    (hwritten : m.close.writesTo m.k.bd.vdev (a.v 0).toNat = false) (hreleased : m.k.released = true) :
    tsealBody o m a =
      .done (({ m with s := s1.sealedEntry o d t }.package fun s => s.unbindTape m.k.bd.vdev (a.v 0).toNat).put o.dst true d.ctl a.valid) := by
  simp only [tsealBody, hact, hentry, hok, hstate, hwritten, hreleased, decide_true, Bool.not_true, Bool.or_self, Bool.and_false,
    Bool.false_eq_true, if_false, if_true, State.sealedEntry]

/-- TSTAT of a tape reads a field of its descriptor. -/
theorem tstatBody_of_entry (hentry : m.s.tapeEntry m.core m.k (a.v 0).toNat false = (.ok d t, s1)) :
    tstatBody o m a = .done ({ m with s := s1 }.put o.dst true (d.stat (o.fn.toNat % 8)) a.valid) := by
  simp only [tstatBody, hact, hentry, Bool.not_true, Bool.false_eq_true, if_false]

end Tapes

/-- Settles O38: each word by what its body comes to. -/
theorem tapeWords : Obligations.TapeWords := by
  unfold Obligations.TapeWords
  refine ⟨?hbind, ?hunb, ?topen, ?tseal, ?tstat⟩
  case hbind =>
    exact fun h o d t s1 => runsIf_of_done (fun _ => rfl) fun m a ⟨hact, hloads, hentry, hfree, hsealed, hfits⟩ =>
      hbindBody_of_fits hact hloads hentry hfree hsealed hfits
  case hunb =>
    exact fun h o k1 s1 => runsIf_of_done (fun _ => rfl) fun m a ⟨hact, hquiet, hunbind⟩ => hunbBody_of_unbound hact hquiet hunbind
  case topen =>
    exact fun h o tgt s1 bytes s2 handle e s3 => runsIf_of_done (fun _ => rfl)
      fun m a ⟨hact, hfields, halign, hlook, halive, hstores, hloads, hread, himage, hhead, hentry⟩ =>
        topenBody_of_free hact hfields halign hlook halive hstores hloads hread himage hhead hentry
  case tseal =>
    exact fun h o d t s1 =>
      ⟨runsIf_of_done (fun _ => rfl) fun m a ⟨hact, hentry, hok, hstate⟩ => tsealBody_of_closed hact hentry hok hstate,
        runsIf_of_done (fun _ => rfl) fun m a ⟨hact, hentry, hok, hstate, hwritten, hreleased⟩ =>
          tsealBody_of_open hact hentry hok hstate hwritten hreleased⟩
  case tstat =>
    exact fun h o d t s1 => runsIf_of_done (fun _ => rfl) fun m a ⟨hact, hentry⟩ => tstatBody_of_entry hact hentry

end Sys2Proof.Machine
end

