-- ==== Sys2Proof/Proofs/RecorderWords.lean ====
section
/-! SUPPORT. The words of the D cluster (R200, R201, R215, R217). -/

namespace Sys2Proof.Machine

/-- A word at its turn whose body is done completes. -/
theorem exec_of_done {i : Instr} {h : Hdr} {p : Ports} {body : Mach → Opnds → Res} {s : State} {m m' : Mach}
    (e : ∀ s, exec i s = issueWord i h p body s) (hturn : AtTurn s m i h p) (hbody : body (m.taken h p) (m.opnds h p) = .done m') :
    exec i s = .next (m'.completed h) := by
  rw [e, issueWord_atTurn body hturn, hbody]
  rfl

/-! ## Pops of several entries (R200, R215) -/

/-- The machine before a D word that issues has popped anything. -/
def Mach.unpopped (m : Mach) : Mach := m.ctx fun k => { k with dpopped := [], dlfsr := none }

/-- The machine after its pops from row queue q, up to n of them. -/
def Mach.popped (m : Mach) (q n : Nat) : Mach := m.unpopped.ctx (Ctx.popHeld q n n)

/-- A D word that has all its n entries takes them out of what is held. -/
def Mach.popDone (m : Mach) (n : Nat) : Mach :=
  (m.str fun t => { t with prog := some ⟨m.k.dpopped.length, n, none⟩ }).ctx fun k => { k with dpopped := [] }

/-- Progress is a matter of the stream alone. -/
theorem Mach.str_dpopped (m : Mach) (f : StreamSt → StreamSt) : (m.str f).k.dpopped = m.k.dpopped := by
  obtain ⟨s, k, st⟩ := m
  cases st <;> rfl

/-- The three machines as the model writes them. -/
theorem Mach.unpopped_def (m : Mach) : (m.ctx fun k => { k with dpopped := [], dlfsr := none }) = m.unpopped := rfl
@[inherit_doc Mach.unpopped_def] theorem Mach.popped_def (m : Mach) (q n : Nat) :
    m.unpopped.ctx (Ctx.popHeld q n n) = m.popped q n := rfl
@[inherit_doc Mach.unpopped_def] theorem Mach.popDone_def (m : Mach) (n : Nat) :
    ((m.str fun t => { t with prog := some ⟨m.k.dpopped.length, n, none⟩ }).ctx fun k => { k with dpopped := [] }) = m.popDone n := rfl

/-- Nothing is held at first. -/
theorem Mach.unpopped_dpopped (m : Mach) : m.unpopped.k.dpopped = [] := rfl

/-- A word that nothing stops before its first pop, and whose entries are all there, goes on with them. -/
theorem popAll_of_held {q n : Nat} {first : Mach → Option Res} {last : Mach → List RowEnt → Res} {m m' : Mach}
    (hfirst : first m.unpopped = none) (hpresent : 0 < present (m.unpopped.k.rq? q))
    (hheld : (m.popped q n).k.dpopped.length = n)
    (hlast : last ((m.popped q n).popDone n) ((m.popped q n).k.dpopped.take n) = .done m') :
    popAll q n false first last m = .done m' := by
  have hsome : present (m.unpopped.k.rq? q) ≠ 0 := by omega
  have hall : ¬ (m.popped q n).k.dpopped.length < n := by omega
  simp only [popAll, Bool.false_eq_true, if_false, Mach.unpopped_def, Mach.unpopped_dpopped, List.isEmpty_nil, if_true, hfirst, hsome,
    decide_false, Bool.and_false, Mach.popped_def, Mach.str_dpopped, hall, Mach.popDone_def, hlast]

/-! ## TREC (R200) -/

/-- A dense tape takes records from a queue, and any tape takes raw ones (R200). -/
theorem Desc.takes_of_dense {d : Desc} {raw : Bool} (hdense : d.sp = 0 ∨ raw = true) : (decide (d.sp ≠ 0) && !raw) = false := by
  rcases hdense with h | h <;> simp only [h, ne_eq, not_true_eq_false, decide_false, Bool.false_and, Bool.not_true, Bool.and_false]

section Record
variable {o : H} {m m1 m2 : Mach} {a : Opnds} {d : Desc} {l : List (Piece × PageReg)}
  (hfresh : m.t.prog = none) (hrec : m.recorderBad o.hd.toNat = none) (htape : m.tapeOf (m.k.head o.hd.toNat).handle = d)
  (hdense : d.sp = 0 ∨ o.fl.getLsbD 0 = true) (hpresent : 0 < present (m.unpopped.k.rq? (qNum o.cnt)))
  (hheld : (m.popped (qNum o.cnt) (d.entries (o.fl.getLsbD 0))).k.dpopped.length = d.entries (o.fl.getLsbD 0))
include hfresh hrec htape hdense hpresent hheld

/-- A TREC whose record can be written, with its entries all there, appends the record that they make. -/
theorem trecBody_of_room (hact : a.act = true) (hroom : d.recorded < d.len)
    (hfew : (m.unpopped.k.hwrites.filter (·.dstream)).length < 64) (hwrite : m.unpopped.canWrite o.hd.toNat d d.recorded = .ok l m2)
    (happend : ((m.popped (qNum o.cnt) (d.entries (o.fl.getLsbD 0))).popDone (d.entries (o.fl.getLsbD 0))).append o.hd.toNat d
      (d.build (o.fl.getLsbD 0) ((m.popped (qNum o.cnt) (d.entries (o.fl.getLsbD 0))).k.dpopped.take (d.entries (o.fl.getLsbD 0)))) =
        .ok m1) : trecBody o m a = .done m1 := by
  have hopen : ¬ d.len ≤ d.recorded := by omega
  have hslots : ¬ 64 ≤ (m.unpopped.k.hwrites.filter (·.dstream)).length := by omega
  simp only [trecBody, hrec, htape, Desc.takes_of_dense hdense, hfresh, hact, Option.isSome_none, Bool.not_true, Bool.false_eq_true, if_false]
  refine popAll_of_held ?_ hpresent hheld ?_
  · simp only [hopen, hslots, hwrite, if_false]
  · simp only [happend]

/-- Under a false guard it takes its entries. -/
theorem trecBody_off (hact : a.act = false) : trecBody o m a =
    .done ((m.popped (qNum o.cnt) (d.entries (o.fl.getLsbD 0))).popDone (d.entries (o.fl.getLsbD 0))) := by
  simp only [trecBody, hrec, htape, Desc.takes_of_dense hdense, hfresh, hact, Option.isSome_none, Bool.not_false, Bool.false_eq_true,
    if_false, if_true]
  exact popAll_of_held rfl hpresent hheld rfl

end Record

/-! ## TUPD (R215) -/

/-- The flags of updated elements. -/
def updFlags (rs : List RRes) : BitVec 5 := rs.foldl (fun f q => f ||| q.fl) 0

/-- The machine that has written an updated record, given with its elements, through the head of a TUPD, and counted their events. -/
def Mach.rewritten (n : Nat) (d : Desc) (r : Nat) (l : List (Piece × PageReg)) (new : List Byte × List RRes × Mach) : Mach :=
  (new.2.2.issueWrite n d r l new.1).count (new.2.2.k.sr.dtid.toNat % 256) (new.2.1.map (·.ev))

/-- A record that can be written is, and the word ends where none of its flags is enabled to trap. -/
theorem Mach.tupdWrite_of_calm {m m3 : Mach} {o : H} {d : Desc} {r : Nat} {old copy : List Byte} {vals : List FVal}
    {l : List (Piece × PageReg)} (hwrite : m.canWrite o.hd.toNat d r = .ok l m3)
    (hcalm : trapsOn (Mach.rewritten o.hd.toNat d r l (m3.updated o d old vals copy)).t.fpmode (updFlags (m3.updated o d old vals copy).2.1) =
      false) :
    m.tupdWrite o d r old vals copy = .done ((Mach.rewritten o.hd.toNat d r l (m3.updated o d old vals copy)).raise
      (updFlags (m3.updated o d old vals copy).2.1)) := by
  simp only [Mach.tupdWrite, hwrite]
  exact Mach.afterFlags_calm _ _ hcalm

/-! ### From a head -/

/-- The elements and the bytes that a consumed record gives a TUPD of a tape, and the machine after it: those of a zero record where
the head is at its end. -/
def Eat.source (e : Eat) (d : Desc) : Option (List FVal × List Byte × Mach) :=
  match e with
  | .got e bytes m => some ((e.elemCodes bytes).map (encFmt e.enc).decode, bytes, m)
  | .zero e m | .skip e m => some (List.replicate (8 * d.recBytes / encWidth d.enc) (.fin false 0 0), e.zeroBytes m.s.md.tick, m)
  | _ => none

section FromHead
variable {o : H} {m m2 : Mach} {a : Opnds} {d : Desc} {u : HeadUse} {old copy : List Byte} {vals : List FVal}

/-- A TUPD from a head whose waits are over, whose target is not poisoned and whose source has its record writes what they give. -/
theorem tupdHead_of_taken (hact : a.act = true) (heot : (m.k.head o.hd.toNat).eot d.len = false)
    (huse : m.headUse (uSrc o) true (fun _ => true) = .ok u) (hready : m.tupdReady o d = .ok old) (hsrc : m.srcStop (uSrc o) u = none)
    (hclean : m.oldPoison o = false) (htook : (m.eat (uSrc o) u).source d = some (vals, copy, m2)) :
    tupdHead o d m a = m2.tupdWrite o d (m.k.head o.hd.toNat).v.toNat old vals copy := by
  simp only [tupdHead, hact, heot, huse, hready, hsrc, hclean, Bool.not_true, Bool.false_eq_true, if_false]
  cases heat : m.eat (uSrc o) u with
  | got e bytes m' | zero e m' | skip e m' =>
    rw [heat] at htook
    cases htook
    rfl
  | trap f c v | wait w =>
    rw [heat] at htook
    cases htook

/-- Under a false guard both heads pass a record. -/
theorem tupdHead_off (hact : a.act = false) : tupdHead o d m a =
    .done ((m.stepHead o.hd.toNat d).stepHead (uSrc o) (m.tapeOf (m.k.head (uSrc o)).handle)) := by
  simp only [tupdHead, hact, Bool.not_false, if_true]

/-- A TUPD with CNT 48 past its checks takes its source from a head. -/
theorem tupdBody_head (hchecks : m.tupdBad o a.act = none) (hcnt : o.cnt = 48) :
    tupdBody o m a = tupdHead o (m.tapeOf (m.k.head o.hd.toNat).handle) m a := by
  simp only [tupdBody, hchecks, hcnt, if_true]

end FromHead

/-! ### From a queue -/

section FromQueue
variable {o : H} {m m3 : Mach} {a : Opnds} {d : Desc} {old : List Byte} {l : List (Piece × PageReg)} {r : Nat}

/-- Any other TUPD past its checks takes it from a queue. -/
theorem tupdBody_queue (hchecks : m.tupdBad o a.act = none) (hcnt : o.cnt ≠ 48) :
    tupdBody o m a = tupdQueue o (m.tapeOf (m.k.head o.hd.toNat).handle) m a := by
  simp only [tupdBody, hchecks, hcnt, if_false]

variable (hfresh : m.t.prog = none) (hpresent : 0 < present (m.unpopped.k.rq? (qNum o.cnt)))
  (hheld : (m.popped (qNum o.cnt) (d.entries (uRaw o))).k.dpopped.length = d.entries (uRaw o))
include hfresh hpresent hheld

/-- A TUPD whose waits are over before its first pop and after its last writes what its entries give. -/
theorem tupdQueue_of_held {es : List RowEnt} {m2 : Mach} (hact : a.act = true) (hready : m.unpopped.tupdReady o d = .ok old)
    (hclean : m.unpopped.oldPoison o = false)
    (hm2 : (m.popped (qNum o.cnt) (d.entries (uRaw o))).popDone (d.entries (uRaw o)) = m2)
    (hes : (m.popped (qNum o.cnt) (d.entries (uRaw o))).k.dpopped.take (d.entries (uRaw o)) = es)
    (hready2 : m2.tupdReady o d = .ok old) (hclean2 : m2.oldPoison o = false) (hpos : (m2.k.head o.hd.toNat).v.toNat = r)
    (hwrite : m2.canWrite o.hd.toNat d r = .ok l m3)
    (hcalm : trapsOn (Mach.rewritten o.hd.toNat d r l (m3.updated o d old (entryVals d es) (d.build (uRaw o) es))).t.fpmode
      (updFlags (m3.updated o d old (entryVals d es) (d.build (uRaw o) es)).2.1) = false) :
    tupdQueue o d m a =
      .done ((Mach.rewritten o.hd.toNat d r l (m3.updated o d old (entryVals d es) (d.build (uRaw o) es))).raise
        (updFlags (m3.updated o d old (entryVals d es) (d.build (uRaw o) es)).2.1)) := by
  simp only [tupdQueue, hact, hfresh, Option.isSome_none, Bool.not_true, Bool.false_eq_true, if_false]
  rw [popAll_of_held (by simp only [hready, hclean, Bool.false_eq_true, if_false]) hpresent hheld
    (by simp only [hm2, hes, hready2, hclean2, hpos, Bool.false_eq_true, if_false]; exact Mach.tupdWrite_of_calm hwrite hcalm)]
  rfl

/-- Under a false guard its entries are taken, and the head passes the record. -/
theorem tupdQueue_off (hact : a.act = false) : tupdQueue o d m a =
    .done (((m.popped (qNum o.cnt) (d.entries (uRaw o))).popDone (d.entries (uRaw o))).stepHead o.hd.toNat d) := by
  simp only [tupdQueue, hact, hfresh, Option.isSome_none, Bool.not_false, if_true]
  rw [popAll_of_held rfl hpresent hheld rfl]
  rfl

end FromQueue

/-! ## TFLSH (R201) -/

/-- TFLSH of all heads, or of one that D owns, completes once no record write that it names is on its way. -/
theorem tflsh_runs (h : Hdr) (o : H) : RunsIf (.tflsh h o) h Ports.none
    (fun m a => a.act = true ∧ (o.fl.getLsbD 0 = true ∨ ((m.k.head o.hd.toNat).bound = true ∧ (m.k.head o.hd.toNat).owner = .D)) ∧
      (m.k.hwrites.any fun w => w.dstream && (o.fl.getLsbD 0 || w.hd == o.hd.toNat)) = false) nothing :=
  runsIf_of_done (fun _ => rfl) fun m a ⟨hact, hnames, hquiet⟩ => by
    have hmay : (!o.fl.getLsbD 0 && (!(m.k.head o.hd.toNat).bound || (m.k.head o.hd.toNat).owner != .D)) = false := by
      rcases hnames with hall | ⟨hbound, howner⟩
      · rw [hall]; rfl
      · rw [hbound, howner]; exact Bool.and_false _
    simp only [tflshBody, hact, hmay, hquiet, Bool.not_true, Bool.false_eq_true, if_false, nothing]

/-! ## DSTAT (R217) -/

/-- DSTAT reads the counter that FN names. -/
theorem dstat_runs (h : Hdr) (o : S3) : Runs (.dstat h o) h { Ports.none with dsts := [o.dst] } fun m a => m.put o.dst a.act
    (if o.fn.toNat % 4 = 0 then W (m.k.hwrites.filter (·.dstream)).length else if o.fn.toNat % 4 = 1 then m.k.xw else m.k.wr) true :=
  runs_of_done (fun _ => rfl) fun m a => by
    have hsel : o.fn.toNat % 4 = 0 ∨ o.fn.toNat % 4 = 1 ∨ o.fn.toNat % 4 = 2 ∨ o.fn.toNat % 4 = 3 := by omega
    rcases hsel with h | h | h | h <;> rw [h] <;> rfl

/-- Settles O39: TREC and TUPD by what their bodies come to on the machine that their pops leave. -/
theorem recorderWords : Obligations.RecorderWords := by
  unfold Obligations.RecorderWords
  refine ⟨?trec, ?tupdHead, ?tupdQueue, ?trecOff, ?tupdQueueOff, ?tupdHeadOff, tflsh_runs, dstat_runs⟩
  case trec =>
    intro h o m1 s m hturn m0 n raw d q mp hact hrec hdense hroom hfew ⟨l, m2, hwrite⟩ hpresent hheld happend
    exact exec_of_done (body := trecBody o) (fun _ => rfl) hturn
      (trecBody_of_room (m.taken_prog h _) hrec rfl hdense hpresent hheld hact hroom hfew hwrite happend)
  case tupdHead =>
    intro h o u old vals copy l m2 m3 s m hturn m0 n d r took out fl m4 hcnt hact hchecks heot huse hready hsrc hclean htook hwrite hcalm
    refine exec_of_done (body := tupdBody o) (fun _ => rfl) hturn ?_
    rw [tupdBody_head (by rw [hact]; exact hchecks) hcnt, tupdHead_of_taken hact heot huse hready hsrc hclean htook]
    exact Mach.tupdWrite_of_calm hwrite hcalm
  case tupdQueue =>
    intro h o old l m3 s m hturn m0 n d r q ents mp m2 es out fl m4 hcnt hact hchecks hready hclean hpresent hheld hready2 hclean2 hpos
      hwrite hcalm
    refine exec_of_done (body := tupdBody o) (fun _ => rfl) hturn ?_
    rw [tupdBody_queue (by rw [hact]; exact hchecks) hcnt]
    exact tupdQueue_of_held (m.taken_prog h _) hpresent hheld hact hready hclean rfl rfl hready2 hclean2 hpos hwrite hcalm
  case trecOff =>
    intro h o s m hturn m0 d ents mp hact hrec hdense hpresent hheld
    exact exec_of_done (body := trecBody o) (fun _ => rfl) hturn
      (trecBody_off (m.taken_prog h _) hrec rfl hdense hpresent hheld hact)
  case tupdQueueOff =>
    intro h o s m hturn m0 d ents mp m2 hcnt hact hchecks hpresent hheld
    refine exec_of_done (body := tupdBody o) (fun _ => rfl) hturn ?_
    rw [tupdBody_queue (by rw [hact]; exact hchecks) hcnt]
    exact tupdQueue_off (m.taken_prog h _) hpresent hheld hact
  case tupdHeadOff =>
    exact fun h o hcnt => runsIf_of_done (body := tupdBody o) (fun _ => rfl) fun m a ⟨hact, hchecks⟩ => by
      rw [tupdBody_head (by rw [hact]; exact hchecks) hcnt, tupdHead_off hact]

end Sys2Proof.Machine
end

