-- ==== Sys2Proof/Proofs/MatrixRows.lean ====
section
/-! SUPPORT. The row words of the matrix engine (R229, R230, R232, R239 to R248): loads, multiplies and drains, row by row. -/

namespace Sys2Proof.Machine

/-- A row word with no progress starts at row 0. -/
theorem Mach.row0_of_fresh {m : Mach} (hfresh : m.t.prog = none) : m.row0 = 0 := by simp only [Mach.row0, hfresh]

/-- The matrix state is none of the stream's. -/
theorem Mach.ownWord_t (m : Mach) : m.ownWord.t = m.t := by
  obtain ⟨s, k, st⟩ := m
  cases st <;> rfl

/-! ## Loads (R229, R230) -/

/-- The operand of a load that takes tapes which `fits` admits. -/
def loadSrc (o : MF) (fits : Desc → Bool) : MSrc := ⟨o.src, o.enc.toNat, o.scl.toNat, o.rows.toNat, o.pl.toNat + 1, fits⟩

/-- Row r of a load. -/
def loadRowDo (o : MF) (q : MSrc) (act : Bool) (r : Nat) (m : Mach) : RowDo :=
  m.withRow q act r fun x m => m.loadRow o r q.enc (m.k.mat.enterRow q.enc x) x.s0 x.s1

/-- A load whose rows can all be performed completes with them, and under a true guard with its buffers tagged. -/
theorem loadBody_of_rows {o : MF} {tag : Nat} {fits : Desc → Bool} {m m1 : Mach} {a : Opnds} (hfresh : m.t.prog = none)
    (hrows : rowsTo (loadRowDo o (loadSrc o fits) a.act) o.rows.toNat 0 m.rowStart = some m1) :
    loadBody o tag fits m a = .done (if a.act then m1.forget.loadEnd o tag else m1.forget) :=
  Mach.rowWord_of_rowsTo hfresh hrows

/-- MLD of a layout that its source can have is a load. -/
theorem mldBody_of_lay {o : MF} {m : Mach} {a : Opnds} (hlay : a.act = false ∨ o.lay = 0 ∨ vIsHead o.src = true) :
    (if a.act && layNeedsHead o then .trap 0x22 0 else loadBody o 0 (mldFits o.lay.toNat) m a) =
      loadBody o 0 (mldFits o.lay.toNat) m a := by
  have hno : (a.act && layNeedsHead o) = false := by
    rcases hlay with h | h | h
    · rw [h]; rfl
    · rw [layNeedsHead, h]; exact Bool.and_false _
    · rw [layNeedsHead, h, Bool.not_true, Bool.and_false, Bool.and_false]
  rw [hno]
  rfl

/-! ## Multiplies (R232, R248) -/

/-- The operand of a multiply. -/
def mulSrc (o : MF) : MSrc := ⟨o.src, o.enc.toNat, o.scl.toNat, o.rows.toNat, 8, fun d => (d.shape == 1 || d.shape == 2) && d.sp == 0⟩

/-- A multiply that its damper has granted, or under a false guard, completes with its rows. -/
theorem mmaBody_of_rows {o : MF} {m m1 : Mach} {a : Opnds} (hfresh : m.t.prog = none)
    (hgrant : a.act = true → m.ownWord.k.mat.granted = true)
    (hrows : rowsTo (fun r m => m.withRow (mulSrc o) a.act r fun x m => m.mat fun t => t.stream o r x) o.rows.toNat 0 m.ownWord.rowStart =
      some m1) : mmaBody o m a = .done m1.forget := by
  have hgo : (!a.act || m.ownWord.k.mat.granted) = true := by
    cases hact : a.act with
    | false => rfl
    | true => rw [hgrant hact]; rfl
  simp only [mmaBody, hgo, if_true]
  exact Mach.rowWord_of_rowsTo (m.ownWord_t ▸ hfresh) hrows

/-! ## Drains (R239 to R245) -/

/-- A drain whose rows can all be performed, with flags that trap nothing, ends with them. -/
theorem drain_of_rows {o : DR} {act : Bool} {m m1 : Mach} {f : Nat → Mach → RowDo} (hfresh : m.t.prog = none)
    (hrows : rowsTo f o.rows.toNat 0 m.rowStart = some m1) (hcalm : trapsOn m1.t.fpmode m1.k.mat.fl = false) :
    drainRes o act (m.rowWord o.rows.toNat f Mach.drainEnd) = .done (m1.forget.raise m1.k.mat.fl) := by
  rw [Mach.rowWord_of_rowsTo hfresh hrows, Mach.drainEnd_calm hcalm]
  rfl

section Drain
variable {o : DR} {m m1 : Mach} {a : Opnds} (hrec : m.recorderBad (vNum o.dst) = none)
include hrec

/-- MDRT to a tape that takes its rows, with room for them, is a drain; under a false guard the tape has only to be dense. -/
theorem mdrtBody_of_rows {d : Desc} (htape : m.tapeOf (m.k.head (vNum o.dst)).handle = d) (hfresh : m.t.prog = none)
    (hoff : a.act = false → d.sp = 0)
    (hon : a.act = true → mdrtFits o d = true ∧ d.recorded + (if d.shape = 2 then 1 else o.rows.toNat) ≤ d.len)
    (hrows : rowsTo (mdrtRow o a.act) o.rows.toNat 0 m.rowStart = some m1) (hcalm : trapsOn m1.t.fpmode m1.k.mat.fl = false) :
    mdrtBody o m a = .done (m1.forget.raise m1.k.mat.fl) := by
  have hfits : ((a.act && !mdrtFits o d) || d.sp != 0) = false := by
    cases hact : a.act with
    | false => rw [hoff hact]; rfl
    | true =>
      have hsp : d.sp = 0 := by
        have := (hon hact).1
        simp only [mdrtFits, Bool.and_eq_true, beq_iff_eq] at this
        exact this.1.2
      rw [(hon hact).1, hsp]; rfl
  have hroom : (a.act && decide (d.len < d.recorded + (if d.shape = 2 then 1 else o.rows.toNat - m.row0))) = false := by
    rw [Mach.row0_of_fresh hfresh, Nat.sub_zero]
    cases hact : a.act with
    | false => rfl
    | true => rw [decide_eq_false (Nat.not_lt.mpr (hon hact).2)]; rfl
  simp only [mdrtBody, hrec, htape, hfits, hroom, Bool.false_eq_true, if_false]
  exact drain_of_rows hfresh hrows hcalm

/-- MDRT to a packed-sparse tape takes cause 0x22. -/
theorem mdrtBody_of_sparse (hsparse : (m.tapeOf (m.k.head (vNum o.dst)).handle).sp ≠ 0) :
    mdrtBody o m a = .trap 0x22 (m.headTv (vNum o.dst)) := by
  simp only [mdrtBody, hrec, bne_iff_ne.mpr hsparse, Bool.or_true, if_true]

end Drain

/-! ## Rows of vector registers (R224) -/

section Register
variable {q : MSrc} (hreg : vIsReg q.src = true) (m : Mach)
include hreg

/-- Row r of registers is row r mod 16 of the register r / 16 after the first. -/
theorem Mach.mrow_of_reg (r : Nat) :
    m.mrow q true r = .row (MRow.ofLanes q (m.k.vec.row (q.src.toNat + r / 16) (r % 16)) (BitVec.allOnes 64)) m := by
  simp only [Mach.mrow, hreg, if_true]

/-- Under a false guard there is nothing to take. -/
theorem Mach.mrow_of_reg_off (r : Nat) : m.mrow q false r = .skip m := by
  simp only [Mach.mrow, hreg, if_true, Bool.false_eq_true, if_false]

/-- So a row of registers is performed at once. -/
theorem Mach.withRow_of_reg (r : Nat) (f : MRow → Mach → Mach) : m.withRow q true r f =
    .done (f (MRow.ofLanes q (m.k.vec.row (q.src.toNat + r / 16) (r % 16)) (BitVec.allOnes 64)) m) := by
  simp only [Mach.withRow, Mach.mrow_of_reg hreg]

/-- Rows of registers can always be performed. -/
theorem rowsTo_of_reg (f : Nat → MRow → Mach → Mach) (n r : Nat) :
    ∃ m1, rowsTo (fun r m => m.withRow q true r (f r)) n r m = some m1 := by
  induction n generalizing r m with
  | zero => exact ⟨m, rfl⟩
  | succ n ih =>
    rw [rowsTo, Mach.withRow_of_reg hreg]
    exact ih _ (r + 1)

end Register

/-- Settles O40: a word completes where its rows can be performed from row 0 on, and rows of registers always can. -/
theorem matrixRowWordsComplete : Obligations.MatrixRowWordsComplete := by
  unfold Obligations.MatrixRowWordsComplete
  refine ⟨?mld, ?mlds, ?mma, ?mdr, ?mdrt, ?sparse, ?registers⟩
  case mld =>
    intro h o act m1 hlay q
    exact runsIf_of_done (fun _ => rfl) fun m a ⟨hact, hfresh, hrows⟩ => by
      subst hact
      rw [mldBody_of_lay hlay]
      exact loadBody_of_rows hfresh hrows
  case mlds =>
    intro h o act m1 q
    exact runsIf_of_done (fun _ => rfl) fun m a ⟨hact, hfresh, hrows⟩ => by
      subst hact
      exact loadBody_of_rows hfresh hrows
  case mma =>
    intro h o act m1 q c
    have hbody : ∀ m a, c m a → mmaBody o m a = .done m1.forget := fun m a ⟨hact, hfresh, hgrant, hrows⟩ => by
      subst hact
      exact mmaBody_of_rows hfresh hgrant hrows
    exact ⟨runsIf_of_done (fun _ => rfl) hbody, runsIf_of_done (fun _ => rfl) hbody⟩
  case mdr =>
    exact fun h o act m1 => runsIf_of_done (body := mdrBody o) (fun _ => rfl) fun m a ⟨hact, hfresh, hrows, hcalm⟩ => by
      subst hact
      exact drain_of_rows hfresh hrows hcalm
  case mdrt =>
    exact fun h o act m1 => runsIf_of_done (body := mdrtBody o) (fun _ => rfl)
      fun m a ⟨hact, hfresh, hrec, hoff, hon, hrows, hcalm⟩ => by
        subst hact
        exact mdrtBody_of_rows hrec rfl hfresh hoff hon hrows hcalm
  case sparse =>
    exact fun h o => trapsIf_of_trap (body := mdrtBody o) (fun _ => rfl) fun m a ⟨hrec, hsparse⟩ => mdrtBody_of_sparse hrec hsparse
  case registers =>
    exact fun m q f n hreg => ⟨m.mrow_of_reg hreg, m.mrow_of_reg_off hreg, rowsTo_of_reg hreg m (fun _ => f) n 0⟩

end Sys2Proof.Machine
end

