-- ==== Sys2Proof/Proofs/CachedWrites.lean ====
section
/-! SUPPORT. What a write on the path of a page leaves: bytes of the window (R257, R283), and the cached sectors of all cores and stoves
when a core writes a cached page (R254, R257, R286). -/

namespace Sys2Proof.Machine

/-! ## Bytes grouped by sector -/

/-- Grouping bytes by sector keeps them in order. -/
theorem bySector_flatten (ws : List (Nat × Byte)) :
    (bySector ws).flatMap (fun w => w.2.map fun b => (64 * w.1 + b.1, b.2)) = ws := by
  induction ws with
  | nil => rfl
  | cons w ws ih =>
    have haddr : 64 * (w.1 / 64) + w.1 % 64 = w.1 := Nat.div_add_mod w.1 64
    rw [bySector]
    cases hrest : bySector ws with
    | nil =>
      rw [hrest] at ih
      simp only [List.flatMap_cons, List.flatMap_nil, List.map_cons, List.map_nil, List.append_nil, haddr] at ih ⊢
      rw [← ih]
    | cons g rest =>
      rw [hrest, List.flatMap_cons] at ih
      dsimp only
      split
      · next hsame =>
        rw [← hsame] at ih ⊢
        rw [List.flatMap_cons, List.map_cons, haddr, List.cons_append, ih]
      · rw [List.flatMap_cons, List.flatMap_cons, ih, List.map_cons, List.map_nil, haddr]
        rfl

/-- A sector of the groups is that of one of the bytes. -/
theorem exists_of_mem_bySector {ws : List (Nat × Byte)} {g : Nat × List (Nat × Byte)} (hg : g ∈ bySector ws) : ∃ w ∈ ws, w.1 / 64 = g.1 := by
  induction ws generalizing g with
  | nil => cases hg
  | cons w ws ih =>
    have hlater : g ∈ bySector ws → ∃ v ∈ w :: ws, v.1 / 64 = g.1 := fun h => by
      obtain ⟨v, hv, hsec⟩ := ih h
      exact ⟨v, List.mem_cons_of_mem w hv, hsec⟩
    rw [bySector] at hg
    cases hrest : bySector ws with
    | nil =>
      rw [hrest, List.mem_singleton] at hg
      exact ⟨w, List.mem_cons_self, by rw [hg]⟩
    | cons g' rest =>
      rw [hrest] at hg hlater
      dsimp only at hg
      split at hg
      · next hsame =>
        rcases List.mem_cons.mp hg with h | h
        · exact ⟨w, List.mem_cons_self, by rw [h]; exact hsame⟩
        · exact hlater (List.mem_cons_of_mem _ h)
      · rcases List.mem_cons.mp hg with h | h
        · exact ⟨w, List.mem_cons_self, by rw [h]⟩
        · exact hlater h

/-! ## Writes to the window (R257, R283) -/

/-- A byte written at an address that no other of the writes names is read back. -/
theorem memByte_memPut_of_mem (ws : List (Nat × Byte)) (m : List Host.Cell) (honce : (ws.map (·.1)).Nodup) (w : Nat × Byte) (hw : w ∈ ws) :
    memByte (memPut m ws) w.1 = w.2 := by
  induction ws generalizing m with
  | nil => cases hw
  | cons v ws ih =>
    obtain ⟨hfirst, hrest⟩ := List.nodup_cons.mp honce
    rw [show memPut m (v :: ws) = memPut (memSet m v.1 v.2) ws from rfl]
    rcases List.mem_cons.mp hw with rfl | hlater
    · rw [memByte_memPut_ne ws _ w.1 fun p hp e => hfirst (List.mem_map.mpr ⟨p, hp, e⟩), memByte_memSet_same]
    · exact ih _ hrest hlater

/-- The bytes of a write to the window, in memory. -/
theorem State.pathWrite_window_mem (s : State) (a : Acc) (ws : List (Nat × Byte)) :
    (s.pathWrite .window a ws).ms.mem = memPut s.ms.mem ws := by
  have hfold : (s.pathWrite .window a ws).ms.mem =
      memPut s.ms.mem ((bySector ws).flatMap fun w => w.2.map fun b => (64 * w.1 + b.1, b.2)) := (List.foldl_flatMap ..).symm
  rw [hfold, bySector_flatten]

/-! ## Cached sectors that a change of the memory system spares -/

/-- From s to t the L1 caches keep their sectors or let go of them, but for the keys w1, and the L2 caches theirs but for w2; the
scratchpads, and all but the memory system and its counters, are the same. -/
structure Spares (w1 w2 : Nat → Prop) (s t : State) : Prop where
  l1 : ∀ key, ¬ w1 key → tfind t.ms.l1 key = tfind s.ms.l1 key ∨ tfind t.ms.l1 key = none
  l2 : ∀ key, ¬ w2 key → tfind t.ms.l2 key = tfind s.ms.l2 key ∨ tfind t.ms.l2 key = none
  spad : t.ms.spad = s.ms.spad
  rest : t = { s with ms := t.ms, ctl := t.ctl }

/-- A table that keeps its entries or lets go of them twice does so once. -/
theorem kept_or_gone_trans {α : Type} {a b c : Option α} (h : b = a ∨ b = none) (h' : c = b ∨ c = none) : c = a ∨ c = none := by
  rcases h' with rfl | h'
  · exact h
  · exact .inr h'

section Spares
variable {w1 w2 : Nat → Prop} {s t u : State}

theorem Spares.refl (s : State) : Spares w1 w2 s s := ⟨fun _ _ => .inl rfl, fun _ _ => .inl rfl, rfl, rfl⟩

theorem Spares.trans (h : Spares w1 w2 s t) (h' : Spares w1 w2 t u) : Spares w1 w2 s u :=
  ⟨fun key hk => kept_or_gone_trans (h.l1 key hk) (h'.l1 key hk), fun key hk => kept_or_gone_trans (h.l2 key hk) (h'.l2 key hk),
    h'.spad.trans h.spad, by rw [h'.rest, h.rest]⟩

/-- What each step spares, a fold spares. -/
theorem Spares.foldl {β : Type} {f : State → β → State} {l : List β} (h : ∀ b ∈ l, ∀ t, Spares w1 w2 t (f t b)) (s : State) :
    Spares w1 w2 s (l.foldl f s) := by
  induction l generalizing s with
  | nil => exact Spares.refl s
  | cons b l ih =>
    exact (h b List.mem_cons_self s).trans (ih (fun c hc => h c (List.mem_cons_of_mem b hc)) _)

/-- A choice between states that spare them spares them. -/
theorem Spares.ite {c : Prop} [Decidable c] (ht : Spares w1 w2 s t) (hu : Spares w1 w2 s u) : Spares w1 w2 s (if c then t else u) := by
  split
  · exact ht
  · exact hu

/-- A change of the memory system that leaves the caches and the scratchpads. -/
theorem Spares.mem {f : MemSt → MemSt} (hl1 : (f s.ms).l1 = s.ms.l1) (hl2 : (f s.ms).l2 = s.ms.l2) (hspad : (f s.ms).spad = s.ms.spad) :
    Spares w1 w2 s (s.mem f) :=
  ⟨fun _ _ => .inl (by rw [State.mem_ms, hl1]), fun _ _ => .inl (by rw [State.mem_ms, hl2]), hspad, rfl⟩

/-! ### Below the L2 (R254, R299) -/

theorem State.countUp_spares (s : State) (off : Nat) : Spares w1 w2 s (s.countUp off) :=
  ⟨fun _ _ => .inl rfl, fun _ _ => .inl rfl, rfl, rfl⟩

theorem State.hbmRead_spares (s : State) (a : Acc) (sec : Nat) : Spares w1 w2 s (s.hbmRead a sec).2 :=
  Spares.ite (Spares.refl s) (Spares.ite (s.countUp_spares _) (Spares.ite (Spares.refl s) (s.countUp_spares _)))

theorem State.hbmWrite_spares (s : State) (l : List (Nat × Sec)) : Spares w1 w2 s (s.hbmWrite l) := by
  unfold State.hbmWrite
  exact Spares.mem rfl rfl rfl

theorem State.mscDrop_spares (s : State) (sec : Nat) : Spares w1 w2 s (s.mscDrop sec) := by
  unfold State.mscDrop
  split
  · exact Spares.refl s
  · exact (Spares.ite (s.hbmWrite_spares _) (Spares.refl s)).trans (Spares.mem rfl rfl rfl)

theorem State.mscUse_spares (s : State) (sec : Nat) : Spares w1 w2 s (s.mscUse sec) := Spares.mem rfl rfl rfl

theorem State.mscPlace_spares (s : State) (a : Acc) (kind sec : Nat) : Spares w1 w2 s (s.mscPlace a kind sec) := by
  unfold State.mscPlace
  extract_lets line low way out t
  refine Spares.ite (Spares.ite (Spares.refl s) (s.mscUse_spares sec)) (Spares.trans (t := t) ?_ (Spares.mem rfl rfl rfl))
  exact Spares.foldl (fun p _ t => Spares.foldl (fun x _ t => t.mscDrop_spares x) t) s

theorem State.mscInsert_spares (s : State) (a : Acc) (kind : Nat) (l : List (Nat × Sec)) : Spares w1 w2 s (s.mscInsert a kind l) := by
  unfold State.mscInsert
  split
  · exact Spares.refl s
  · exact (s.mscPlace_spares a kind _).trans (Spares.mem rfl rfl rfl)

theorem State.mscReadFor_spares (s : State) (a : Acc) (kind sec : Nat) : Spares w1 w2 s (s.mscReadFor a kind sec).2 := by
  unfold State.mscReadFor
  split
  · exact s.mscUse_spares sec
  · exact Spares.ite ((s.hbmRead_spares a sec).trans (State.mscInsert_spares _ a kind _)) (s.hbmRead_spares a sec)

theorem State.mscWriteG_spares (s : State) (a : Acc) (kind : Nat) (ws : List (Nat × List (Nat × Byte))) :
    Spares w1 w2 s (s.mscWriteG a kind ws) := by
  unfold State.mscWriteG
  split
  · exact Spares.refl s
  · rename_i _ sec _ _
    extract_lets secs apply held whole
    split
    · exact (s.mscUse_spares sec).trans (Spares.mem rfl rfl rfl)
    · have hread : Spares w1 w2 s (if whole = true then (secs.map fun x => (x, (⟨0, false, false, a.tag⟩ : Sec)), s)
          else ((s.hbmRead a sec).1, if kind = 2 then s else (s.hbmRead a sec).2)).2 := by
        split
        · exact Spares.refl s
        · exact Spares.ite (Spares.refl s) (s.hbmRead_spares a sec)
      revert hread
      generalize (if whole = true then (secs.map fun x => (x, (⟨0, false, false, a.tag⟩ : Sec)), s)
        else ((s.hbmRead a sec).1, if kind = 2 then s else (s.hbmRead a sec).2)) = r
      intro hread
      exact hread.trans (Spares.ite (State.mscInsert_spares _ a kind _) (Spares.trans (Spares.mem rfl rfl rfl) (State.hbmWrite_spares _ _)))

theorem State.rawWrite_spares (s : State) (ws : List (Nat × List (Nat × Byte))) : Spares w1 w2 s (s.rawWrite ws) := Spares.mem rfl rfl rfl

theorem State.aliens_spares (s : State) (secs : List Nat) : Spares w1 w2 s (s.aliens secs) := Spares.mem rfl rfl rfl

theorem State.pkgRead_spares (s : State) (a : Acc) (sec : Nat) : Spares w1 w2 s (s.pkgRead a sec).2 := by
  unfold State.pkgRead
  split
  · exact s.mscReadFor_spares a 0 sec
  · exact Spares.refl s

theorem State.pkgWrite_spares (s : State) (a : Acc) (kind : Nat) (ws : List (Nat × List (Nat × Byte))) :
    Spares w1 w2 s (s.pkgWrite a kind ws) := by
  unfold State.pkgWrite
  split
  · exact Spares.refl s
  · refine Spares.ite (Spares.foldl (fun w _ t => t.mscWriteG_spares a kind w) s) ?_
    exact Spares.ite ((s.rawWrite_spares _).trans (Spares.mem rfl rfl rfl)) (s.rawWrite_spares _)

/-! ### The L2 (R257, R286) -/

theorem State.l2WriteBack_spares (s : State) (a : Acc) (sec : Nat) (v : Sec) : Spares w1 w2 s (s.l2WriteBack a sec v) := by
  unfold State.l2WriteBack
  extract_lets b t
  refine Spares.trans (t := t) ((s.pkgWrite_spares b 1 _).trans (State.aliens_spares _ _)) (Spares.ite (Spares.refl t) (Spares.ite ?_ ?_))
  · split
    · exact Spares.mem rfl rfl rfl
    · exact State.hbmWrite_spares _ _
  · exact Spares.mem rfl rfl rfl

/-- Cleaning a sector writes its key. -/
theorem State.l2Clean_spares (s : State) (stove : Nat) (a : Acc) (sec : Nat) (hw : w2 (cacheKey stove sec)) :
    Spares w1 w2 s (s.l2Clean stove a sec) := by
  unfold State.l2Clean
  split
  · next v _ =>
    extract_lets b
    refine Spares.ite ((s.l2WriteBack_spares b sec v).trans ⟨fun _ _ => .inl rfl, fun key hk => .inl ?_, rfl, rfl⟩) (Spares.refl s)
    exact tfind_tins_ne _ _ _ _ fun e => hk (e ▸ hw)
  · exact Spares.refl s

/-- Dropping a sector makes up for whatever has been written to its key. -/
theorem Spares.l2Drop {stove sec : Nat} (h : Spares w1 (fun key => w2 key ∨ key = cacheKey stove sec) s t) :
    Spares w1 w2 s (t.l2Drop stove sec) := by
  refine ⟨h.l1, fun key hk => ?_, h.spad, by rw [State.l2Drop, State.mem, h.rest]⟩
  change tfind (tdel t.ms.l2 (cacheKey stove sec)) key = _ ∨ tfind (tdel t.ms.l2 (cacheKey stove sec)) key = _
  by_cases he : key = cacheKey stove sec
  · exact .inr (by rw [he, tfind_tdel_same])
  · rw [tfind_tdel_ne _ _ _ he]
    exact h.l2 key fun hw => hw.elim hk he

theorem State.l2EvictLine_spares (s : State) (stove vdev line : Nat) : Spares w1 w2 s (s.l2EvictLine stove vdev line) :=
  Spares.foldl (fun x _ t => Spares.l2Drop (t.l2Clean_spares stove _ x (.inr rfl))) s

theorem State.l2Place_spares (s : State) (a : Acc) (sec : Nat) : Spares w1 w2 s (s.l2Place a sec) := by
  unfold State.l2Place
  extract_lets st line way out t
  refine Spares.ite (Spares.refl s) (Spares.trans (t := t) ?_ (Spares.mem rfl rfl rfl))
  exact Spares.foldl (fun p _ t => t.l2EvictLine_spares _ _ _) s

/-- Putting a sector in writes its key. -/
theorem State.l2Insert_spares (s : State) (a : Acc) (sec : Nat) (v : Sec) (hw : w2 (cacheKey (stoveOf a.core) sec)) :
    Spares w1 w2 s (s.l2Insert a sec v) :=
  (s.l2Place_spares a sec).trans
    ⟨fun _ _ => .inl rfl, fun _ hk => .inl (tfind_tins_ne _ _ _ _ fun e => hk (e ▸ hw)), rfl, rfl⟩

theorem State.l2Write_spares (s : State) (a : Acc) (sec : Nat) (ws : List (Nat × Byte)) (hw : w2 (cacheKey (stoveOf a.core) sec)) :
    Spares w1 w2 s (s.l2Write a sec ws) := by
  unfold State.l2Write
  split
  · exact s.l2Insert_spares a sec _ hw
  · refine Spares.ite (s.pkgWrite_spares _ 1 _) ?_
    have hread : Spares w1 w2 s
        (if ws.length = 64 then ((⟨0, true, false, a.tag⟩ : Sec), s) else s.pkgRead { a with cls := 0 } sec).2 := by
      split
      · exact Spares.refl s
      · exact s.pkgRead_spares _ sec
    revert hread
    generalize (if ws.length = 64 then ((⟨0, true, false, a.tag⟩ : Sec), s) else s.pkgRead { a with cls := 0 } sec) = r
    exact fun hread => hread.trans (State.l2Insert_spares _ a sec _ hw)

/-! ### The L1 (R257, R286) -/

/-- Removing keys lets go of them alone. -/
theorem tfind_foldl_tdel {α β : Type} (f : β → Nat) (l : List β) (t : List (Nat × α)) (key : Nat) :
    tfind (l.foldl (fun t x => tdel t (f x)) t) key = tfind t key ∨ tfind (l.foldl (fun t x => tdel t (f x)) t) key = none := by
  induction l generalizing t with
  | nil => exact .inl rfl
  | cons x l ih =>
    refine kept_or_gone_trans ?_ (ih (tdel t (f x)))
    by_cases he : key = f x
    · exact .inr (by rw [he, tfind_tdel_same])
    · exact .inl (tfind_tdel_ne _ _ _ he)

theorem State.l1Touch_spares (s : State) (core sec : Nat) : Spares w1 w2 s (s.l1Touch core sec) :=
  ⟨fun key _ => tfind_foldl_tdel (cacheKey core) _ s.ms.l1 key, fun _ _ => .inl rfl, rfl, rfl⟩

/-- A core's write to a cached sector writes its keys in the core's L1 and the stove's L2. -/
theorem State.l1Write_spares (s : State) (a : Acc) (sec : Nat) (ws : List (Nat × Byte)) (hw1 : w1 (cacheKey a.core sec))
    (hw2 : w2 (cacheKey (stoveOf a.core) sec)) : Spares w1 w2 s (s.l1Write a sec ws) := by
  unfold State.l1Write
  extract_lets t
  refine Spares.trans (t := t) (s.l2Write_spares a sec ws hw2) ?_
  split
  · refine Spares.trans ?_ (State.l1Touch_spares _ a.core sec)
    refine ⟨fun _ hk => .inl ?_, fun _ _ => .inl rfl, rfl, rfl⟩
    exact tfind_tins_ne _ _ _ _ fun e => hk (e ▸ hw1)
  · exact Spares.refl t

end Spares

/-! ### Writes of a core to cached pages -/

/-- A key names one cache and one sector. -/
theorem cacheKey_inj {o o' sec sec' : Nat} (h : sec < 2 ^ 46) (h' : sec' < 2 ^ 46) (e : cacheKey o sec = cacheKey o' sec') :
    o = o' ∧ sec = sec' := by
  unfold cacheKey at e
  omega

/-- A write to cached pages spares all but the sectors that it names, in the core's L1 and the stove's L2. -/
theorem State.pathWrite_cached_spares (s : State) (a : Acc) (ws : List (Nat × Byte)) :
    Spares (fun key => ∃ w ∈ ws, key = cacheKey a.core (w.1 / 64)) (fun key => ∃ w ∈ ws, key = cacheKey (stoveOf a.core) (w.1 / 64)) s
      (s.pathWrite .cached a ws) := by
  refine Spares.trans (Spares.foldl (fun g hg t => ?_) s) (State.aliens_spares _ _)
  obtain ⟨w, hw, hsec⟩ := exists_of_mem_bySector hg
  exact t.l1Write_spares a g.1 g.2 ⟨w, hw, by rw [hsec]⟩ ⟨w, hw, by rw [hsec]⟩

/-- A sector of another cache, or one that is not written, has another key than those written. -/
theorem not_written {o o' sec : Nat} {ws : List (Nat × Byte)} (hws : ∀ w ∈ ws, w.1 < 2 ^ 52) (hsec : sec < 2 ^ 46)
    (hother : o ≠ o' ∨ ¬ ∃ w ∈ ws, w.1 / 64 = sec) : ¬ ∃ w ∈ ws, cacheKey o sec = cacheKey o' (w.1 / 64) := by
  rintro ⟨w, hw, e⟩
  have hlt : w.1 / 64 < 2 ^ 46 := by have := hws w hw; omega
  obtain ⟨ho, hs⟩ := cacheKey_inj hsec hlt e
  exact hother.elim (fun h => h ho) fun h => h ⟨w, hw, hs.symm⟩

end Sys2Proof.Machine
end

