-- ==== Sys2Proof/Proofs/MemoryEvents.lean ====
section
/-! SUPPORT. What comes back from memory and what goes to it (R189, R211, R213, R248, R255 to R257, R262, R263, R285, R289, R299, R305): the
steps of loads, stores, record writes, fills, the damper, and the waits that end. -/

namespace Sys2Proof.Machine

/-! ## Loads (R255, R256, R285, R305) -/

/-- Without one of its parts a load has one fewer. -/
theorem length_eraseIdx_of_part {α : Type} {l : List α} {n : Nat} {p : α} (hpart : l[n]? = some p) :
    (l.eraseIdx n).length = l.length - 1 :=
  List.length_eraseIdx_of_lt (List.getElem?_eq_some_iff.mp hpart).1

/-- A load that has taken the bytes of a part. -/
def LoadEnt.takes (l : LoadEnt) (part off : Nat) (bytes : List Byte) : LoadEnt :=
  { l with parts := l.parts.eraseIdx part, got := (bytes.zipIdx).foldl (fun t b => tset 0 t (off + b.2) b.1) l.got }

/-- The context in which load l has become l'. -/
def Ctx.setLoad (k : Ctx) (l l' : LoadEnt) : Ctx := { k with loads := k.loads.map fun (e : LoadEnt) => if e.id = l.id then l' else e }

/-- The context without load l. -/
def Ctx.dropLoad (k : Ctx) (l : LoadEnt) : Ctx := { k with loads := k.loads.filter fun (e : LoadEnt) => e.id != l.id }

section Load
variable {s s1 : State} {x : CtxRef} {k : Ctx} {l : LoadEnt} {part off len : Nat} {bytes : List Byte} (hctx : s.ctx? x = some k)
  (hload : k.loads.find? (fun (e : LoadEnt) => e.id == l.id) = some l) (hpart : l.parts[part]? = some (off, len))
  (hfree : s.loadHeld x.core.toNat k l off len = false) (halive : s.partDead x.core.toNat l off len = false)
include hctx hload hpart hfree halive

/-- The last part of a load that is read delivers it. -/
theorem exec_loadDataReturn_of_last (hread : s.loadPart x.core.toNat k l off len = (bytes, false, s1)) (hlast : l.parts.length = 1) :
    exec (.loadDataReturn x l.id part) s =
      .next ((s1.setCtx x ((k.dropLoad l).loaded (l.takes part off bytes))).cxlSettle x) := by
  have hnone : (l.parts.eraseIdx part).isEmpty = true := by
    rw [List.isEmpty_iff_length_eq_zero, length_eraseIdx_of_part hpart, hlast]
  show execLoadDataReturn x l.id part s = _
  simp only [execLoadDataReturn, hctx, hload, hpart, hfree, halive, hread, hnone, Bool.or_self, Bool.false_eq_true, if_false, if_true,
    LoadEnt.takes, Ctx.dropLoad]

/-- Any other part that is read leaves the load outstanding. -/
theorem exec_loadDataReturn_of_more (hread : s.loadPart x.core.toNat k l off len = (bytes, false, s1)) (hmore : 1 < l.parts.length) :
    exec (.loadDataReturn x l.id part) s = .next ((s1.setCtx x (k.setLoad l (l.takes part off bytes))).cxlSettle x) := by
  have hsome : (l.parts.eraseIdx part).isEmpty = false := by
    rw [← Bool.not_eq_true, List.isEmpty_iff_length_eq_zero, length_eraseIdx_of_part hpart]
    omega
  show execLoadDataReturn x l.id part s = _
  simp only [execLoadDataReturn, hctx, hload, hpart, hfree, halive, hread, hsome, Bool.or_self, Bool.false_eq_true, if_false,
    LoadEnt.takes, Ctx.setLoad]

/-- A poisoned part gives the A stream its cause, unless the cause has been taken and its handler has not returned. -/
theorem exec_loadDataReturn_of_poison (hread : s.loadPart x.core.toNat k l off len = (bytes, true, s1)) (hruns : k.a.halted = false)
    (hstream : k.alive .A = true) (hopen : (l.late && k.a.plev) = false) :
    exec (.loadDataReturn x l.id part) s = .next (Mach.latePoison
      ⟨{ s1 with md := { s1.md with cur := x, curSt := .A } },
        { k with loads := k.loads.map fun (e : LoadEnt) => if e.id = l.id then { e with late := true } else e }, .A⟩ (W (l.va + off))).close := by
  show execLoadDataReturn x l.id part s = _
  simp only [execLoadDataReturn, hctx, hload, hpart, hfree, halive, hread, hruns, hstream, hopen, Bool.or_self, Bool.not_false, Bool.and_self,
    Bool.false_eq_true, if_false, if_true]

/-- For an A stream that has halted the load is dropped. -/
theorem exec_loadDataReturn_of_halted (hread : s.loadPart x.core.toNat k l off len = (bytes, true, s1)) (hhalted : k.a.halted = true) :
    exec (.loadDataReturn x l.id part) s = .next ((s.setCtx x (k.dropLoad l)).cxlSettle x) := by
  show execLoadDataReturn x l.id part s = _
  simp only [execLoadDataReturn, hctx, hload, hpart, hfree, halive, hread, hhalted, Bool.or_self, Bool.false_eq_true, if_false, if_true,
    Ctx.dropLoad]

end Load

/-! ## Stores (R255, R257, R285, R299) -/

/-- The bytes of the stores that leave the buffer with e, sector by sector of its granule. -/
def State.drainBytes (s : State) (core : Nat) (k : Ctx) (e : StoreEnt) : List (Nat × Byte) :=
  ((granuleOf (gOf e.tag) (e.pa / 64)).flatMap fun sec => (s.drainMates core k e).filter fun (q : StoreEnt) => q.pa / 64 == sec).flatMap
    fun (q : StoreEnt) => q.bytes.map fun b => (q.pa + b.1, b.2)

/-- The context without the stores that leave the buffer with e. -/
def State.drained (s : State) (core : Nat) (k : Ctx) (e : StoreEnt) : Ctx :=
  { k with stores := k.stores.filter fun (q : StoreEnt) => !((s.drainMates core k e).any fun d => d.id == q.id) }

/-- A store that nothing holds, with its turn at an expander where it goes to one, leaves the buffer. -/
theorem exec_storeDrain_of_free {s : State} {x : CtxRef} {k : Ctx} {e : StoreEnt} (hctx : s.ctx? x = some k)
    (hstore : k.stores.find? (fun (q : StoreEnt) => q.id == e.id) = some e) (hfree : s.storeHeld x.core.toNat k e = false)
    (halive : s.deadAt x.core.toNat e.pa 1 = false) (hturn : s.farAt x.core.toNat e.pa 1 = true → s.cxlTurn x k e.id = true) :
    exec (.storeDrain x e.id) s = .next (((s.setCtx x (s.drained x.core.toNat k e)).pathWrite e.path ⟨x.core.toNat, k.bd.vdev, e.tag, 0⟩
      (s.drainBytes x.core.toNat k e)).cxlSettle x) := by
  have hmay : (s.farAt x.core.toNat e.pa 1 && !s.cxlTurn x k e.id) = false := by
    cases hfar : s.farAt x.core.toNat e.pa 1 with
    | false => rfl
    | true => rw [hturn hfar]; rfl
  show execStoreDrain x e.id s = _
  simp only [execStoreDrain, hctx, hstore, hfree, halive, hmay, Bool.or_self, Bool.false_eq_true, if_false, State.drained, State.drainBytes]

/-- A store that does not go to the MSC leaves alone. -/
theorem State.drainMates_of_not_msc {s : State} {core : Nat} {k : Ctx} {e : StoreEnt} (hpath : e.path ≠ .msc) : s.drainMates core k e = [e] := by
  simp only [State.drainMates, hpath, decide_false, Bool.false_and, Bool.false_eq_true, if_false]

/-! ## Record writes (R189) -/

/-- The oldest write of its head is performed, piece by piece, and the flues that hold its record fetch it again. -/
theorem exec_headWritePerformed_of_oldest {s : State} {x : CtxRef} {k : Ctx} {w : HeadWrite} (hctx : s.ctx? x = some k)
    (hwrite : k.hwrites.find? (fun (q : HeadWrite) => q.id == w.id) = some w)
    (holdest : k.hwrites.find? (fun (q : HeadWrite) => q.hd == w.hd) = some w) (halive : w.pieces.any (fun p => s.expDead p.pa) = false) :
    exec (.headWritePerformed x w.id) s = .next ((w.pieces.foldl (fun (s : State) (p : WPiece) =>
      s.putWhole ⟨x.core.toNat, k.bd.vdev, p.tag, 1⟩ (bySector (bytesAt p.pa p.bytes)))
      (s.setCtx x { k with hwrites := k.hwrites.filter fun (q : HeadWrite) => q.id != w.id })).refetch k.bd.vdev w.handle w.idx) := by
  show execHeadWritePerformed x w.id s = _
  simp only [execHeadWritePerformed, hctx, hwrite, holdest, halive, bne_self_eq_false, Bool.or_self, Bool.false_eq_true, if_false]

/-! ## Flues (R211, R213) -/

/-- A flue of a bound context fetches. -/
theorem exec_flueFetch_of_ctx {s : State} {x : CtxRef} {k : Ctx} (hctx : s.ctx? x = some k) (hd : BitVec 4) :
    exec (.flueFetch x hd) s = .next (s.flueFetch x k hd.toNat) := by
  show execFlueFetch x hd s = _
  simp only [execFlueFetch, hctx]

/-- It translates a page. -/
theorem exec_fluePageTranslate_of_ctx {s : State} {x : CtxRef} {k : Ctx} (hctx : s.ctx? x = some k) (hd : BitVec 4) :
    exec (.fluePageTranslate x hd) s = .next (s.headTranslate x k hd.toNat) := by
  show execFluePageTranslate x hd s = _
  simp only [execFluePageTranslate, hctx]

/-! ## Window fills (R289) -/

/-- A fill that reads memory and whose pieces can all be read ends with its bytes in the ring. -/
theorem exec_windowFillComplete_of_read {s s1 : State} {x : CtxRef} {k : Ctx} {slot : BitVec 4} {row : Word} {f : Fill} {bytes : List Byte}
    (hctx : s.ctx? x = some k) (hnext : (s.nextFill x k slot.toNat row.toNat).or (s.nextFill x k 16 row.toNat) = some f)
    (hreads : f.zero = false) (hread : State.fillPieces x.core.toNat k f (pagePieces f.va f.n) s = .ok bytes s1) :
    exec (.windowFillComplete x slot row) s =
      .next (((s1.fillRing x.core.toNat k f bytes).setCtx x (k.fillDone f)).cxlSettle x) := by
  show execWindowFillComplete x slot row s = _
  simp only [execWindowFillComplete, hctx, hnext, hreads, hread, Bool.false_eq_true, if_false]

/-! ## The damper (R248) -/

/-- What a word has asked of the damper. -/
def Ctx.damperCharge (k : Ctx) : Nat := (k.mat.ask.map (·.2.2)).sum

/-- The context whose word the damper has granted. -/
def Ctx.grant (k : Ctx) : Ctx :=
  { k with mat := { k.mat with
      granted := true, dwait := 0, ask := []
      lastE := k.mat.ask.foldl (fun t q => tset 0 t q.1 q.2.1) k.mat.lastE } }

/-- The first waiting word is granted where the level covers its charge. -/
theorem exec_damperGrant_of_covered {s : State} {stove : BitVec 2} {n : Nat} {k : Ctx}
    (hfirst : firstAsk (s.ctxs.filter (s.asks stove.toNat)) = some (n, k)) (hon : keep (s.reg (0x40 * stove.toNat)) 47 0 ≠ 0)
    (hcovered : k.damperCharge ≤ tget 0 s.damper stove.toNat) :
    exec (.damperGrant stove) s = .next { s.setCtx (keyCtx n) k.grant with
      damper := tset 0 s.damper stove.toNat (tget 0 s.damper stove.toNat - k.damperCharge) } := by
  have hgo : (decide (keep (s.reg (0x40 * stove.toNat)) 47 0 ≠ 0) && (decide (k.damperCharge ≤ tget 0 s.damper stove.toNat) ||
      (decide (bits (s.reg (0x40 * stove.toNat)) 16 32 < k.damperCharge) &&
        decide (bits (s.reg (0x40 * stove.toNat)) 16 32 ≤ tget 0 s.damper stove.toNat)))) = true := by
    rw [decide_eq_true hon, decide_eq_true hcovered]
    rfl
  show execDamperGrant stove s = _
  simp only [execDamperGrant, hfirst]
  exact if_pos hgo

/-! ## Waits that end (R262, R263) -/

/-- A yielding wait of a context that runs goes on with its word, in the bank of its context; the core keeps the bank that it runs. -/
theorem State.retryWait_of_waiting {s t : State} {x : CtxRef} {k : Ctx} {i : Instr} {p : Instr → Bool} {run : Instr → State → Out}
    (hctx : s.ctx? x = some k) (hready : k.run = .ready) (hhere : k.held = false) (hwaits : k.a.waiting = some i) (hword : p i = true)
    (hrun : run i (s.waking x) = .next t) : s.retryWait x p run = .next (t.bankAsIn s x) := by
  simp only [State.waking] at hrun
  simp only [State.retryWait, hctx, hwaits, hready, hhere, hword, hrun, bne_self_eq_false, Bool.not_true, Bool.or_self, Bool.false_eq_true,
    if_false, State.bankAsIn]

/-- WAITW of a latch that can be looked at, whose condition holds, acquires its region and completes. -/
theorem exec_waitw_of_holds {s s1 : State} {m : Mach} {h : Hdr} {o : S3} {q : Latch} {t : Target} {rs : List (Nat × Nat)}
    (hturn : AtTurn s m (.waitw h o) h (s3Ports1 o)) (hact : (m.opnds h (s3Ports1 o)).act = true)
    (hlatch : (m.taken h (s3Ports1 o)).latchAt (o.fn.toNat % 16) (m.taken h (s3Ports1 o)).k.needLd false = .ok q t rs s1)
    (hholds : waitwHolds (o.fn.toNat / 32) (s1.latchOp (m.taken h (s3Ports1 o)).k q t fun _ => none).1 ((m.opnds h (s3Ports1 o)).v 0) = true)
    (hclean : (m.taken h (s3Ports1 o)).cleanDead q rs (s1.latchOp (m.taken h (s3Ports1 o)).k q t fun _ => none).2 = false) :
    exec (.waitw h o) s = .next ((({ m.taken h (s3Ports1 o) with
      s := (s1.latchOp (m.taken h (s3Ports1 o)).k q t fun _ => none).2.acquireRanges (m.taken h (s3Ports1 o)).core
        (m.taken h (s3Ports1 o)).k q.scope rs } : Mach).put o.dst true (s1.latchOp (m.taken h (s3Ports1 o)).k q t fun _ => none).1
        (m.opnds h (s3Ports1 o)).valid).completed h) := by
  change issueWord _ _ _ _ s = _
  rw [issueWord_atTurn _ hturn]
  simp only [hact, hlatch, hholds, hclean, Bool.not_true, Bool.false_eq_true, if_false, if_true]
  rfl

/-- A GBAR that has arrived, with its whole gang there, departs; its acquire has no line to write to a dead expander. -/
theorem gbarBody_of_met {i : Instr} {o : S3} {m : Mach} {a : Opnds} (hact : a.act = true) (hhere : m.k.gbars < m.k.garrived)
    (hmet : m.s.meet m.x m.k (m.k.gbars + 1) = .all)
    (halive : o.fn.getLsbD 1 = true → m.s.gangSpread m.k = true →
      m.s.rangesDead (stoveOf m.core) (m.s.allRanges m.core m.k) = false) :
    gbarBody i o m a = .done (({ m with
      s := if o.fn.getLsbD 1 then m.s.acquireRanges m.core m.k 1 (m.s.allRanges m.core m.k) else m.s
      k := { m.k with gbars := m.k.gbars + 1 } } : Mach).put o.dst true (W m.k.gbars) true) := by
  have hmay : (o.fn.getLsbD 1 && (m.s.gangSpread m.k && m.s.rangesDead (stoveOf m.core) (m.s.allRanges m.core m.k))) = false := by
    cases hacq : o.fn.getLsbD 1 with
    | false => rfl
    | true =>
      cases hspread : m.s.gangSpread m.k with
      | false => rfl
      | true => rw [halive hacq hspread]; rfl
  simp only [gbarBody, hact, hhere, hmet, hmay, decide_true, Bool.not_true, Bool.false_and, Bool.false_eq_true, if_false, if_true, Mach.ctx]

/-- Settles O58: each step by what it comes to where what it awaits holds; a write to a cached page by what it spares. -/
theorem memoryAndHeadEvents : Obligations.MemoryAndHeadEvents := by
  unfold Obligations.MemoryAndHeadEvents
  refine ⟨?loads, ?stores, ?window, ?cached, ?writes, ?flues, ?fills, ?damper, ?waitw, ?gbar⟩
  case loads =>
    intro s x k l part off len hctx hload hpart hfree halive
    exact ⟨fun bytes s1 hread => ⟨exec_loadDataReturn_of_last hctx hload hpart hfree halive hread,
        exec_loadDataReturn_of_more hctx hload hpart hfree halive hread⟩,
      fun bytes s1 hread => exec_loadDataReturn_of_poison hctx hload hpart hfree halive hread,
      fun bytes s1 hread => exec_loadDataReturn_of_halted hctx hload hpart hfree halive hread⟩
  case stores =>
    intro s x k e hctx hstore hfree halive hturn go inOrder
    exact ⟨exec_storeDrain_of_free hctx hstore hfree halive hturn, State.drainMates_of_not_msc⟩
  case window =>
    intro s a ws t
    refine ⟨fun pa hpa => ?_, fun honce w hw => ?_, rfl⟩
    · rw [s.pathWrite_window_mem, memByte_memPut_ne ws _ pa fun w hw e => hpa (List.mem_map.mpr ⟨w, hw, e⟩)]
    · rw [s.pathWrite_window_mem, memByte_memPut_of_mem ws _ honce w hw]
  case cached =>
    intro s a ws hws _ t touched
    obtain ⟨hl1, hl2, hspad, hrest⟩ := s.pathWrite_cached_spares a ws
    exact ⟨fun stove sec _ hsec hother => hl2 _ (not_written hws hsec hother), fun core sec _ hsec hother => hl1 _ (not_written hws hsec hother),
      hspad, hrest⟩
  case writes =>
    intro s x k w hctx hwrite holdest halive s1
    exact exec_headWritePerformed_of_oldest hctx hwrite holdest halive
  case flues => exact fun s x k hd hctx => ⟨exec_flueFetch_of_ctx hctx hd, exec_fluePageTranslate_of_ctx hctx hd⟩
  case fills => exact fun s x k slot row f bytes s1 hctx hnext hreads hread => exec_windowFillComplete_of_read hctx hnext hreads hread
  case damper =>
    intro s stove n k r charge hfirst hon hcovered
    exact ⟨_, k.grant, exec_damperGrant_of_covered hfirst hon hcovered, State.ctx?_setCtx s (keyCtx n) k.grant, rfl, tget_tset_same _ _ _ _, rfl⟩
  case waitw =>
    intro s x k m h o q t rs s1 hctx hready hhere hwaits hturn n a r hact hlatch hholds hclean
    change execWaitwWake x s = _
    rw [execWaitwWake]
    exact State.retryWait_of_waiting hctx hready hhere hwaits rfl (exec_waitw_of_holds hturn hact hlatch hholds hclean)
  case gbar =>
    intro s x k m h o hctx hready hhere hwaits hturn n rs hact harrived hmet halive s2
    change execGbarDepart x s = _
    rw [execGbarDepart]
    refine State.retryWait_of_waiting hctx hready hhere hwaits rfl ?_
    exact exec_of_done (i := .gbar h o) (body := gbarBody (.gbar h o) o) (fun _ => rfl) hturn (gbarBody_of_met hact harrived hmet halive)

end Sys2Proof.Machine
end

