-- ==== Sys2Proof/Proofs/LatchWords.lean ====
section
/-! SUPPORT. The latch words (R259 to R262). -/

namespace Sys2Proof.Machine

/-! ## LBIND (R259) -/

/-- LBIND does not take these operands: reserved bits, a size that is no region's, a misaligned latch, or a region past the addresses. -/
def lbindBad (latch r : Word) : Bool :=
  bits r 54 10 ≠ 0 || (bits r 0 6 ≠ 0 && (bits r 0 6 < 6 || 53 < bits r 0 6)) || (bits r 0 6 ≠ 0 && latch.toNat % 8 ≠ 0) ||
    2 ^ 54 < (keep r 53 6).toNat + 2 ^ bits r 0 6

/-- It takes a size of 0, and a region whose latch is aligned. -/
theorem lbindBad_eq_false {latch r : Word} (hhigh : bits r 54 10 = 0)
    (hsize : bits r 0 6 = 0 ∨ (6 ≤ bits r 0 6 ∧ bits r 0 6 ≤ 53 ∧ latch.toNat % 8 = 0))
    (hend : (keep r 53 6).toNat + 2 ^ bits r 0 6 ≤ 2 ^ 54) : lbindBad latch r = false := by
  simp only [lbindBad, Bool.or_eq_false_iff, Bool.and_eq_false_imp, decide_eq_true_eq, decide_eq_false_iff_not]
  refine ⟨⟨⟨not_not_intro hhigh, fun hbinds => ?size⟩, fun hbinds => ?aligned⟩, Nat.not_lt.mpr hend⟩
  case size | aligned => omega

/-- What LBIND puts in its slot: nothing for a size of 0, else the latch with its region and its scope. -/
def latchBound (latch r : Word) (fn : BitVec 8) : Option Latch :=
  if bits r 0 6 = 0 then none else some ⟨latch, keep r 53 6, bits r 0 6, fn.toNat / 32⟩

/-- The latch that a slot holds, 0 where it is not bound. -/
def Ctx.latchWord (k : Ctx) (slot : Nat) : Word := ((k.latch? slot).map (·.latch)).getD 0

/-- LBIND asks for its guard, then checks its operands. -/
theorem exec_lbind (h : Hdr) (o : S3) (s : State) :
    exec (.lbind h o) s = issueWord (.lbind h o) h (s3Ports o) (fun m a =>
      if !a.act then .done (m.put o.dst false 0 false)
      else if lbindBad (a.v 0) (a.v 1) then .trap 0x18 m.s.freeTval
      else .done ((m.ctx fun k => { k with latches := tset none k.latches (o.fn.toNat % 16) (latchBound (a.v 0) (a.v 1) o.fn) }).put
        o.dst true (m.k.latchWord (o.fn.toNat % 16)) a.valid)) s := by
  change issueWord _ _ _ _ s = _
  congr 1
  funext m a
  unfold Ctx.latchWord
  cases m.k.latch? (o.fn.toNat % 16) <;> rfl

/-- With operands that it takes LBIND sets its slot and gives the slot's old latch. -/
theorem lbind_runs (h : Hdr) (o : S3) :
    RunsIf (.lbind h o) h (s3Ports o) (fun _ a => a.act = true ∧ lbindBad (a.v 0) (a.v 1) = false) fun m a =>
      (m.ctx fun k => { k with latches := tset none k.latches (o.fn.toNat % 16) (latchBound (a.v 0) (a.v 1) o.fn) }).put
        o.dst true (m.k.latchWord (o.fn.toNat % 16)) a.valid :=
  runsIf_of_done (exec_lbind h o) fun m a ⟨hact, hgood⟩ => by
    simp only [hact, hgood, Bool.not_true, Bool.false_eq_true, if_false]

/-! ## ACQ, REL and WAITW (R260 to R262) -/

/-- A latch word goes on with its access where its checks pass. -/
def LatchAt.andThen (r : LatchAt) (g : Latch → Target → List (Nat × Nat) → State → Res) : Res :=
  match r with
  | .stop r => r
  | .ok q t rs s => g q t rs s

/-- A latch word completes where its checks pass and its access is done. -/
theorem latchWord_runs {i : Instr} {h : Hdr} {p : Ports} {dst : BitVec 6} {slot : Nat} {need : Mach → Need} {release : Bool} {q : Latch}
    {t : Target} {rs : List (Nat × Nat)} {s1 : State} {g : Mach → Opnds → Latch → Target → List (Nat × Nat) → State → Res}
    {c : Mach → Opnds → Prop} {f : Mach → Opnds → Mach}
    (e : ∀ s, exec i s = issueWord i h p (fun m a => if !a.act then .done (m.put dst false 0 false)
      else (m.latchAt slot (need m) release).andThen (g m a)) s)
    (d : ∀ m a, c m a → g m a q t rs s1 = .done (f m a)) :
    RunsIf i h p (fun m a => a.act = true ∧ m.latchAt slot (need m) release = .ok q t rs s1 ∧ c m a) f :=
  runsIf_of_done e fun m a ⟨hact, hlatch, hc⟩ => by
    simp only [hact, hlatch, Bool.not_true, Bool.false_eq_true, if_false]
    exact d m a hc

/-- The new value of an ACQ's latch: an exchange where it is 0, an addition, or none. -/
def acqNew (mode v old : Nat) : Option Nat :=
  match mode with
  | 1 => if old = 0 then some v else none
  | 2 => some ((old + v) % 2 ^ 64)
  | _ => none

/-- The same by the mode's number. -/
theorem acqNew_eq (mode v old : Nat) : acqNew mode v old =
    if mode = 1 then (if old = 0 then some v else none) else if mode = 2 then some ((old + v) % 2 ^ 64) else none :=
  match mode with
  | 0 | 1 | 2 | _ + 3 => rfl

/-- ACQ's access: the operation on its latch, then the acquire of the region. -/
def acqStep (o : S3) (m : Mach) (a : Opnds) (q : Latch) (t : Target) (rs : List (Nat × Nat)) (s : State) : Res :=
  if m.cleanDead q rs s then .wait (.expander s.freeTval)
  else
    let r := s.latchOp m.k q t (acqNew (o.fn.toNat / 64) (a.v 0).toNat)
    .done ({ m with s := r.2.acquireRanges m.core m.k q.scope rs }.put o.dst true r.1 a.valid)

/-- REL's access: the release of the region, then the operation on its latch. -/
def relStep (o : S3) (m : Mach) (a : Opnds) (q : Latch) (t : Target) (rs : List (Nat × Nat)) (s : State) : Res :=
  if m.cleanDead q rs s then .wait (.expander s.freeTval)
  else
    let r := (s.releaseRanges m.core m.k q.scope rs).latchOp m.k q t fun old =>
      some (if o.fn.toNat / 64 = 1 then (old + (a.v 0).toNat) % 2 ^ 64 else (a.v 0).toNat)
    .done ({ m with s := r.2 }.put o.dst true r.1 a.valid)

section Latch
variable (h : Hdr) (o : S3)

/-- ACQ runs that access past the checks of its slot. -/
theorem exec_acq (s : State) : exec (.acq h o) s = issueWord (.acq h o) h (s3Ports1 o) (fun m a =>
    if !a.act then .done (m.put o.dst false 0 false)
    else (m.latchAt (o.fn.toNat % 16) m.k.needRw false).andThen (acqStep o m a)) s := rfl

/-- REL runs its own. -/
theorem exec_rel (s : State) : exec (.rel h o) s = issueWord (.rel h o) h (s3Ports1 o) (fun m a =>
    if !a.act then .done (m.put o.dst false 0 false)
    else (m.latchAt (o.fn.toNat % 16) m.k.needRw true).andThen (relStep o m a)) s := rfl

end Latch

/-- Settles O47: LBIND by its operands, ACQ and REL by the checks of their slot, WAITW by its condition too. -/
theorem latchWords : Obligations.LatchWords := by
  unfold Obligations.LatchWords
  intro h o slot
  refine ⟨?lbind, fun q t rs s1 => ?acq, fun q t rs s1 => ?rel, fun q t rs s1 => ?waitw⟩
  case lbind =>
    intro s m hturn ⟨hact, hhigh, hsize, hend⟩
    exact lbind_runs h o s m hturn ⟨hact, lbindBad_eq_false hhigh hsize hend⟩
  case acq =>
    simp only [← acqNew_eq]
    exact latchWord_runs (exec_acq h o) fun m a hclean => if_neg (Bool.eq_false_iff.mp hclean)
  case rel => exact latchWord_runs (exec_rel h o) fun m a hclean => if_neg (Bool.eq_false_iff.mp hclean)
  case waitw =>
    intro s m hturn ⟨hact, hlatch, hholds, hclean⟩
    exact exec_waitw_of_holds hturn hact hlatch hholds hclean

end Sys2Proof.Machine
end

