-- ==== Sys2Proof/Proofs/BarrierWords.lean ====
section
/-! SUPPORT. The gang barrier, fences and cache operations (R263 to R265). -/

namespace Sys2Proof.Machine

/-! ## GBAR (R263) -/

/-- The machine of a context that has reached its barrier: an arrival counts, with the release that the word asks for, once. -/
def Mach.arrived (m : Mach) (release : Bool) : Mach :=
  if m.k.gbars < m.k.garrived then m
  else { m with
    s := if release then m.s.releaseRanges m.core m.k 1 (m.s.allRanges m.core m.k) else m.s
    k := { m.k with garrived := m.k.gbars + 1 } }

/-- The machine of a context that leaves its barrier: the acquire of the ranges, and the barrier's number. -/
def Mach.departed (m : Mach) (acquire : Bool) (rs : List (Nat × Nat)) (dst : BitVec 6) : Mach :=
  ({ m with
    s := if acquire then m.s.acquireRanges m.core m.k 1 rs else m.s
    k := { m.k with gbars := m.k.gbars + 1 } } : Mach).put dst true (W m.k.gbars) true

/-- A GBAR that arrives last in its gang departs at once; its release and its acquire have no line to write to a dead expander. -/
theorem gbarBody_of_last {i : Instr} {o : S3} {m : Mach} {a : Opnds} (hact : a.act = true) (hfirst : ¬ m.k.gbars < m.k.garrived)
    (hreleased : m.k.released = true) (hmet : m.s.meet m.x m.k (m.k.gbars + 1) = .all)
    (halive : o.fn.getLsbD 0 = true ∨ o.fn.getLsbD 1 = true → m.s.gangSpread m.k = true →
      m.s.rangesDead (stoveOf m.core) (m.s.allRanges m.core m.k) = false) :
    gbarBody i o m a = .done ((m.arrived (o.fn.getLsbD 0)).departed (o.fn.getLsbD 1) (m.s.allRanges m.core m.k) o.dst) := by
  have hrelease : (o.fn.getLsbD 0 && (m.s.gangSpread m.k && m.s.rangesDead (stoveOf m.core) (m.s.allRanges m.core m.k))) = false :=
    Bool.and_eq_false_imp.mpr fun hrel => Bool.and_eq_false_imp.mpr (halive (.inl hrel))
  have hacquire : (o.fn.getLsbD 1 && (m.s.gangSpread m.k && m.s.rangesDead (stoveOf m.core) (m.s.allRanges m.core m.k))) = false :=
    Bool.and_eq_false_imp.mpr fun hacq => Bool.and_eq_false_imp.mpr (halive (.inr hacq))
  simp only [gbarBody, Mach.arrived, hact, hfirst, hreleased, hmet, hrelease, hacquire, decide_false, Bool.not_true, Bool.not_false,
    Bool.true_and, Bool.false_eq_true, if_false, Mach.departed, Mach.ctx]

/-- GBAR departs where its gang has met, whether it had arrived before or arrives now. -/
theorem gbar_runs (h : Hdr) (o : S3) :
    RunsIf (.gbar h o) h { Ports.none with dsts := [o.dst] }
      (fun m a => a.act = true ∧ (m.k.gbars < m.k.garrived ∨ m.k.released = true) ∧
        ((o.fn.getLsbD 0 = true ∧ ¬ m.k.gbars < m.k.garrived) ∨ o.fn.getLsbD 1 = true →
          m.s.gangSpread m.k = true → m.s.rangesDead (stoveOf m.core) (m.s.allRanges m.core m.k) = false) ∧
        m.s.meet m.x m.k (m.k.gbars + 1) = .all)
      fun m _ => (m.arrived (o.fn.getLsbD 0)).departed (o.fn.getLsbD 1) (m.s.allRanges m.core m.k) o.dst :=
  runsIf_of_done (body := gbarBody (.gbar h o) o) (fun _ => rfl) fun m a ⟨hact, hready, halive, hmet⟩ => by
    by_cases hhere : m.k.gbars < m.k.garrived
    · rw [gbarBody_of_met hact hhere hmet fun hacq => halive (.inr hacq), Mach.arrived, if_pos hhere]
      rfl
    · exact gbarBody_of_last hact hhere (hready.resolve_left hhere) hmet
        fun hasks => halive (hasks.imp_left fun hrel => ⟨hrel, hhere⟩)

/-! ## FENCE (R264) -/

/-- FENCE is done under a false guard, and where its waits are over. -/
theorem fence_runs (h : Hdr) (o : S3) :
    RunsIf (.fence h o) h Ports.none (fun m a => a.act = false ∨ m.k.fenceDone o.fn = true) nothing :=
  runsIf_of_done (fun _ => rfl) fun m a hready => if_pos (by
    rcases hready with hoff | hdone
    · rw [hoff]; rfl
    · rw [hdone, Bool.or_true])

/-! ## CMO (R265) -/

section Cmo
variable (h : Hdr) (o : L)

/-- The first byte of the sectors that CMO's range meets. -/
def cmoLo (o : L) (a : Opnds) : Nat := (a.v 0 + o.off.signExtend 64).toNat / 64 * 64

/-- One past their last byte. -/
def cmoHi (o : L) (a : Opnds) : Nat := ((a.v 0 + o.off.signExtend 64).toNat + (a.v 1).toNat + 63) / 64 * 64

/-- What going over the pages of CMO's range comes to. -/
def Mach.cmoRange (m : Mach) (o : L) (a : Opnds) : CmoRes :=
  State.cmoPages m.core m.k o.sz.toNat o.sc.toNat (cmoLo o a) (cmoHi o a) ((cmoHi o a - 1) / 65536 + 1 - cmoLo o a / 65536) (cmoLo o a / 65536) m.s

/-- The word comes to what its pages come to. -/
def CmoRes.res (r : CmoRes) (m : Mach) : Res :=
  match r with
  | .ok s => .done { m with s := s }
  | .trap c va s => .trapWith (fun m => { m with s := s }) c va
  | .wait w => .wait w

/-- CMO goes over its pages past its guard, its size and the stores that a clean waits for. -/
theorem exec_cmo (s : State) : exec (.cmo h o) s = issueWord (.cmo h o) h { Ports.none with srcs := [o.base, o.data] } (fun m a =>
    if !a.act || (a.v 1).toNat = 0 then .done m
    else if 2 ^ 40 < (a.v 1).toNat then .trap 0x18 m.s.freeTval
    else if o.sz.toNat ≠ 2 && !m.k.stores.isEmpty then .wait .earlier
    else (m.cmoRange o a).res m) s := rfl

/-- Where every page of the range can be gone over, CMO completes. -/
theorem cmo_runs (s1 : State) :
    RunsIf (.cmo h o) h { Ports.none with srcs := [o.base, o.data] }
      (fun m a => a.act = true ∧ 0 < (a.v 1).toNat ∧ (a.v 1).toNat ≤ 2 ^ 40 ∧ (o.sz = 2 ∨ m.k.stores = []) ∧ m.cmoRange o a = .ok s1)
      fun m _ => { m with s := s1 } :=
  runsIf_of_done (exec_cmo h o) fun m a ⟨hact, hpos, hsize, hstores, hpages⟩ => by
    have hfree : (o.sz.toNat ≠ 2 && !m.k.stores.isEmpty) = false := by
      rcases hstores with hinv | hempty
      · rw [hinv]; rfl
      · rw [hempty, List.isEmpty_nil, Bool.not_true, Bool.and_false]
    simp only [hact, hpos.ne', Nat.not_lt.mpr hsize, hfree, hpages, Bool.not_true, decide_false, Bool.or_self, Bool.false_eq_true, if_false,
      CmoRes.res]

/-- Under a false guard, or of no bytes, it has no effect. -/
theorem cmo_empty : RunsIf (.cmo h o) h { Ports.none with srcs := [o.base, o.data] } (fun _ a => a.act = false ∨ a.v 1 = 0) nothing :=
  runsIf_of_done (exec_cmo h o) fun m a hnone => if_pos (by
    rcases hnone with hoff | hzero
    · rw [hoff]; rfl
    · rw [hzero]; exact Bool.or_true _)

end Cmo

/-- Settles O48: GBAR by whether it had arrived before, FENCE and CMO by what they wait for. -/
theorem barrierWords : Obligations.BarrierWords := by
  unfold Obligations.BarrierWords
  exact fun h => ⟨gbar_runs h, fence_runs h, cmo_runs h, cmo_empty h⟩

end Sys2Proof.Machine
end

