-- ==== Sys2Proof/Proofs/ScratchpadWords.lean ====
section
/-! SUPPORT. LDS, STS, and what a store to scratchpad changes (R272, R275 to R278, R293). -/

namespace Sys2Proof.Machine

/-! ## Words whose body asks for its guard first (R276, R277) -/

section Guarded
variable {i : Instr} {h : Hdr} {p : Ports} {c : Mach → Opnds → Prop} {off : Mach → Opnds → Mach} {body : Mach → Opnds → Res}
  (e : ∀ s, exec i s = issueWord i h p (fun m a => if !a.act then .done (off m a) else body m a) s)
include e

/-- Such a word completes where its guard is true and the rest of its body is done. -/
theorem runsIf_on {f : Mach → Opnds → Mach} (d : ∀ m a, c m a → a.act = true ∧ body m a = .done (f m a)) : RunsIf i h p c f :=
  runsIf_of_done e fun m a hc => by
    obtain ⟨hact, hdone⟩ := d m a hc
    rw [hact, ← hdone]
    rfl

/-- It traps where its guard is true and the rest of its body traps. -/
theorem trapsIf_on {f : Mach → Opnds → BitVec 8 × Word} (d : ∀ m a, c m a → a.act = true ∧ body m a = .trap (f m a).1 (f m a).2) :
    TrapsIf i h p c f :=
  trapsIf_of_trap e fun m a hc => by
    obtain ⟨hact, htrap⟩ := d m a hc
    rw [hact, ← htrap]
    rfl

end Guarded

/-! ## The check of an access (R277, R278) -/

/-- An access goes on where its check finds no cause, and traps with its address elsewhere. -/
def checked (bad : Option (BitVec 8)) (ea : Word) (r : Res) : Res :=
  match bad with
  | some c => .trap c ea
  | none => r

section Check
variable {m : Mach} {ea n align : Nat}

/-- Alignment is checked first. -/
theorem Mach.spBad_of_misaligned (halign : ea % align ≠ 0) : m.spBad ea n align = some 0x11 := if_pos halign

/-- The end of an aligned access is checked against the partition. -/
theorem Mach.spBad_of_beyond (halign : ea % align = 0) (hend : m.k.bd.ssize < ea + n) : m.spBad ea n align = some 0x12 :=
  (if_neg (not_not_intro halign)).trans (if_pos hend)

end Check

/-! ## Loads and stores (R275, R278) -/

section Load
variable {o : L}

/-- A row has 256 bytes. -/
theorem szBytes_of_row (hrow : o.sz = 7) : szBytes o.sz.toNat = 256 := by
  rw [hrow]
  rfl

/-- A load of a scalar delivers its extended value. -/
theorem Mach.loadNow_scalar (m : Mach) (hscalar : o.sz ≠ 7) (bytes : List Byte) :
    m.loadNow o bytes = .done (m.put o.data true (loadValue o.sz.toNat bytes) true) := congrArg Res.done (if_neg hscalar)

/-- A load of a row pushes its lanes, all of them valid. -/
theorem Mach.loadNow_row (m : Mach) (hrow : o.sz = 7) (bytes : List Byte) :
    m.loadNow o bytes = .done (m.ctx fun k => k.pushR (qNum o.data) (loadLanes bytes) (BitVec.allOnes 64)) :=
  congrArg Res.done (if_pos hrow)

end Load

/-- What a load leaves under a false guard: an invalid entry of its kind (R276). -/
def Mach.loadSkipped (m : Mach) (o : L) : Mach :=
  if o.sz = 7 then m.ctx fun k => k.pushR (qNum o.data) zeroRow 0 else m.put o.data false 0 false

/-- The check of a scalar or row access at an address. -/
def Mach.sizeBad (m : Mach) (o : L) (ea : Word) : Option (BitVec 8) := m.spBad ea.toNat (szBytes o.sz.toNat) (szAlign o.sz.toNat)

section Words
variable (h : Hdr) (o : L)

/-- LDS loads at its address past the check. -/
theorem exec_lds (s : State) : exec (.lds h o) s = issueWord (.lds h o) h (loadPorts o) (fun m a =>
    if !a.act then .done (m.loadSkipped o)
    else checked (m.sizeBad o (lAddr o (a.v 0) (a.v 1))) (lAddr o (a.v 0) (a.v 1))
      (m.loadNow o (m.spGet (lAddr o (a.v 0) (a.v 1)).toNat (szBytes o.sz.toNat)))) s := rfl

/-- STS stores there past the same check. -/
theorem exec_sts (s : State) : exec (.sts h o) s = issueWord (.sts h o) h (storePorts o) (fun m a =>
    if !a.act then .done m
    else checked (m.sizeBad o (lAddr o (a.v 0) (a.v 1))) (lAddr o (a.v 0) (a.v 1))
      (.done (m.spPut (lAddr o (a.v 0) (a.v 1)).toNat (storeBytes o a)))) s := rfl

/-- LDS completes where its check passes, with what its load delivers. -/
theorem lds_runs {f : Mach → Opnds → Mach}
    (d : ∀ (m : Mach) (a : Opnds), m.loadNow o (m.spGet (lAddr o (a.v 0) (a.v 1)).toNat (szBytes o.sz.toNat)) = .done (f m a)) :
    RunsIf (.lds h o) h (loadPorts o) (fun m a => a.act = true ∧ m.sizeBad o (lAddr o (a.v 0) (a.v 1)) = none) f :=
  runsIf_on (exec_lds h o) fun m a ⟨hact, hgood⟩ => ⟨hact, by rw [hgood]; exact d m a⟩

end Words

/-- Settles O42: LDS by its size, STS, and the traps of their one check. -/
theorem scratchpadWords : Obligations.ScratchpadWords := by
  unfold Obligations.ScratchpadWords
  intro h o ea n bad
  refine ⟨fun hscalar => ?scalar, fun hrow => ?row, ?loadOff, ?store, ?storeOff, fun c => ?loadTrap, fun c => ?storeTrap⟩
  case scalar => exact lds_runs h o fun m a => m.loadNow_scalar hscalar _
  case row => exact lds_runs h o fun m a => by rw [szBytes_of_row hrow]; exact m.loadNow_row hrow _
  case loadOff => exact runsIf_off (exec_lds h o)
  case store => exact runsIf_on (exec_sts h o) fun m a ⟨hact, hgood⟩ => ⟨hact, congrArg (checked · _ _) hgood⟩
  case storeOff => exact runsIf_off (exec_sts h o)
  case loadTrap => exact trapsIf_on (exec_lds h o) fun m a ⟨hact, hbad⟩ => ⟨hact, congrArg (checked · _ _) hbad⟩
  case storeTrap => exact trapsIf_on (exec_sts h o) fun m a ⟨hact, hbad⟩ => ⟨hact, congrArg (checked · _ _) hbad⟩

/-! ## What a store changes (R272, R278, R293) -/

section Store
variable (m : Mach) (ea : Nat) (bytes : List (Nat × Byte))

/-- The place of a byte of the partition among all scratchpads. -/
def Mach.spAt (m : Mach) (off : Nat) : Nat := m.core * 2 ^ 22 + (m.k.bd.sbase + off)

/-- The byte that a store leaves at an offset: its own, or a free one in a row that no LDW has read (log 17). -/
def Mach.spStored (m : Mach) (ea : Nat) (b : Nat × Byte) : Byte :=
  if m.k.ringOpen (ea + b.1) then Config.freeByte (m.s.md.tick * 2 ^ 52 + ea + b.1) else b.2

/-- A store is one write of the scratchpads. -/
theorem Mach.spPut_spad : (m.spPut ea bytes).s.ms.spad =
    memPut m.s.ms.spad (bytes.map fun b => (m.spAt (ea + b.1), m.spStored ea b)) := by
  simp only [Mach.spAt, ← Nat.add_assoc]
  rfl

/-- A byte that is not stored to reads as before. -/
theorem Mach.spByte_spPut_of_not_mem {core off : Nat} (hout : core * 2 ^ 22 + off ∉ bytes.map fun b => m.spAt (ea + b.1)) :
    (m.spPut ea bytes).s.spByte core off = m.s.spByte core off := by
  rw [State.spByte, Mach.spPut_spad]
  refine memByte_memPut_ne _ _ _ fun w hw heq => hout ?_
  obtain ⟨b, hb, rfl⟩ := List.mem_map.mp hw
  exact List.mem_map.mpr ⟨b, hb, heq⟩

/-- Offsets that differ have places that differ. -/
theorem Mach.spAt_nodup (honce : (bytes.map (·.1)).Nodup) :
    ((bytes.map fun b => (m.spAt (ea + b.1), m.spStored ea b)).map (·.1)).Nodup := by
  have hinj : Function.Injective fun off => m.spAt (ea + off) := fun x y (e : m.spAt (ea + x) = m.spAt (ea + y)) => by
    simp only [Mach.spAt] at e
    omega
  have hplaces : ((bytes.map fun b => (m.spAt (ea + b.1), m.spStored ea b)).map (·.1)) =
      (bytes.map (·.1)).map fun off => m.spAt (ea + off) := by
    simp only [List.map_map]
    rfl
  rw [hplaces]
  exact honce.map hinj

/-- A byte that is stored once reads as stored. -/
theorem Mach.spByte_spPut_of_mem (honce : (bytes.map (·.1)).Nodup) {b : Nat × Byte} (hb : b ∈ bytes) :
    (m.spPut ea bytes).s.spByte m.core (m.k.bd.sbase + (ea + b.1)) = m.spStored ea b := by
  rw [State.spByte, Mach.spPut_spad]
  exact memByte_memPut_of_mem _ _ (m.spAt_nodup ea bytes honce) (m.spAt (ea + b.1), m.spStored ea b) (List.mem_map.mpr ⟨b, hb, rfl⟩)

/-- Outside such a row that is the store's own byte. -/
theorem Mach.spStored_of_closed {b : Nat × Byte} (hclosed : m.k.ringOpen (ea + b.1) = false) : m.spStored ea b = b.2 :=
  if_neg (Bool.eq_false_iff.mp hclosed)

end Store

/-- Settles O43: the write of the scratchpads that a store is, byte by byte. -/
theorem aScratchpadStoreWritesItsBytesAlone : Obligations.AScratchpadStoreWritesItsBytesAlone := by
  unfold Obligations.AScratchpadStoreWritesItsBytesAlone
  intro m ea bytes t at_
  have hat : ∀ off, at_ off = m.k.bd.sbase + (ea + off) := fun off => Nat.add_assoc ..
  refine ⟨fun core off hout => ?others, fun honce hclosed b hb => ?stored, rfl, rfl, fun hwf => ?canonical⟩
  case others =>
    simp only [hat] at hout
    exact m.spByte_spPut_of_not_mem ea bytes hout
  case stored => rw [hat, m.spByte_spPut_of_mem ea bytes honce hb, m.spStored_of_closed ea (hclosed b hb)]
  case canonical =>
    rw [m.spPut_spad ea bytes]
    exact memPut_wf _ _ hwf

end Sys2Proof.Machine
end

