-- ==== Sys2Proof/Proofs/BurstWords.lean ====
section
/-! SUPPORT. LDQ and STQ (R279, R280). -/

namespace Sys2Proof.Machine

/-- The address of a burst's first element. -/
def burstBase (o : L) (a : Opnds) : Word := lAddr { o with sc := 0 } (a.v 0) 0

/-- The checks of a burst of n elements before its first one: its count, then for a true guard its alignment and the end of its
last element. -/
def Mach.burstBad (m : Mach) (o : L) (a : Opnds) : Option (BitVec 8 × Word) :=
  if 65535 < (a.v 1).toNat then some (0x12, W (a.v 1).toNat)
  else if (a.v 1).toNat = 0 || !a.act then none
  else if (burstBase o a).toNat % szAlign o.sz.toNat ≠ 0 then some (0x11, burstBase o a)
  else if m.k.bd.ssize < burstAt o (burstBase o a).toNat ((a.v 1).toNat - 1) + szBytes o.sz.toNat then some (0x12, burstBase o a)
  else none

/-- All of its elements, as many as can be done now. -/
def Mach.burstAll (m : Mach) (o : L) (load : Bool) (a : Opnds) : Nat × Mach :=
  Mach.burstLoop o load a.act (burstBase o a).toNat (a.v 1).toNat (a.v 1).toNat 0 m

/-- A burst that starts: its checks, then its elements. -/
def Mach.burstFirst (m : Mach) (o : L) (load : Bool) (a : Opnds) : Res :=
  match m.burstBad o a with
  | some (c, v) => .trap c v
  | none =>
    if (a.v 1).toNat = 0 then .done m
    else
      let r := m.burstAll o load a
      let w := if load then Why.slot else .queue
      if r.1 = (a.v 1).toNat then .done r.2
      else if r.1 = 0 then .wait w
      else .hold (r.2.str fun t => { t with prog := some ⟨r.1, (a.v 1).toNat, some (burstBase o a)⟩ }) w

/-- The body of a burst with no progress left starts it. -/
theorem burstBody_of_fresh {o : L} {load : Bool} {m : Mach} {a : Opnds} (hfresh : m.t.prog = none) :
    burstBody o load m a = m.burstFirst o load a := by
  simp only [burstBody, hfresh]
  rfl

section First
variable {o : L} {load : Bool} {m : Mach} {a : Opnds}

/-- A burst takes the trap of its checks. -/
theorem Mach.burstFirst_of_bad {c : BitVec 8} {v : Word} (hbad : m.burstBad o a = some (c, v)) : m.burstFirst o load a = .trap c v := by
  rw [Mach.burstFirst, hbad]

variable (hgood : m.burstBad o a = none)
include hgood

/-- Past its checks one of no element is done. -/
theorem Mach.burstFirst_of_zero (hzero : (a.v 1).toNat = 0) : m.burstFirst o load a = .done m := by
  rw [Mach.burstFirst, hgood]
  exact if_pos hzero

/-- Past them one of which every element can be moved now is done. -/
theorem Mach.burstFirst_of_all (hpos : (a.v 1).toNat ≠ 0) (hall : (m.burstAll o load a).1 = (a.v 1).toNat) :
    m.burstFirst o load a = .done (m.burstAll o load a).2 := by
  rw [Mach.burstFirst, hgood]
  exact (if_neg hpos).trans (if_pos hall)

end First

/-- A burst is aligned, and its last element ends within the partition. -/
def Mach.burstFits (m : Mach) (o : L) (a : Opnds) : Prop :=
  (burstBase o a).toNat % szAlign o.sz.toNat = 0 ∧
    burstAt o (burstBase o a).toNat ((a.v 1).toNat - 1) + szBytes o.sz.toNat ≤ m.k.bd.ssize

section Check
variable {m : Mach} {o : L} {a : Opnds}

/-- The count is checked under any guard. -/
theorem Mach.burstBad_of_many (hmany : 65535 < (a.v 1).toNat) : m.burstBad o a = some (0x12, a.v 1) := by
  rw [Mach.burstBad, if_pos hmany, W, BitVec.ofNat_toNat, BitVec.setWidth_eq]

/-- A burst of no element passes. -/
theorem Mach.burstBad_of_zero (hzero : (a.v 1).toNat = 0) : m.burstBad o a = none := by
  rw [Mach.burstBad, hzero]
  rfl

/-- So does one of not too many that fits, or whose guard is false. -/
theorem Mach.burstBad_of_fits (hcount : (a.v 1).toNat ≤ 65535) (hfits : a.act = true → m.burstFits o a) : m.burstBad o a = none := by
  rw [Mach.burstBad, if_neg (Nat.not_lt.mpr hcount)]
  cases hact : a.act with
  | false => simp only [Bool.not_false, Bool.or_true, if_true]
  | true =>
    obtain ⟨halign, hend⟩ := hfits hact
    simp only [halign, Nat.not_lt.mpr hend, ne_eq, not_true_eq_false, if_false, ite_self]

end Check

section Words
variable {i : Instr} {h : Hdr} {o : L} {load : Bool} (e : ∀ s, exec i s = issueWord i h (burstPorts o) (burstBody o load) s)
include e

/-- A burst word completes where every element can be moved now. -/
theorem burst_runs : RunsIf i h (burstPorts o)
    (fun m a => m.t.prog = none ∧ 0 < (a.v 1).toNat ∧ (a.v 1).toNat ≤ 65535 ∧ (a.act = true → m.burstFits o a) ∧
      (m.burstAll o load a).1 = (a.v 1).toNat)
    fun m a => (m.burstAll o load a).2 :=
  runsIf_of_done e fun _ _ ⟨hfresh, hpos, hcount, hfits, hall⟩ =>
    (burstBody_of_fresh hfresh).trans (Mach.burstFirst_of_all (Mach.burstBad_of_fits hcount hfits) hpos.ne' hall)

/-- It completes where it has none to move. -/
theorem burst_none : RunsIf i h (burstPorts o) (fun m a => m.t.prog = none ∧ a.v 1 = 0) nothing :=
  runsIf_of_done e fun _ a ⟨hfresh, hnone⟩ => by
    have hzero : (a.v 1).toNat = 0 := by rw [hnone]; rfl
    exact (burstBody_of_fresh hfresh).trans (Mach.burstFirst_of_zero (Mach.burstBad_of_zero hzero) hzero)

/-- It traps where its count is too high. -/
theorem burst_traps : TrapsIf i h (burstPorts o) (fun m a => m.t.prog = none ∧ 65535 < (a.v 1).toNat) fun _ a => (0x12, a.v 1) :=
  trapsIf_of_trap e fun _ _ ⟨hfresh, hmany⟩ =>
    (burstBody_of_fresh hfresh).trans (Mach.burstFirst_of_bad (Mach.burstBad_of_many hmany))

end Words

/-- Settles O44: both words by the checks of a burst and the loop over its elements. -/
theorem burstWords : Obligations.BurstWords := by
  unfold Obligations.BurstWords
  exact fun h o => ⟨burst_runs fun _ => rfl, burst_runs fun _ => rfl, burst_none (load := true) fun _ => rfl,
    burst_none (load := false) fun _ => rfl, burst_traps (load := true) fun _ => rfl, burst_traps (load := false) fun _ => rfl⟩

end Sys2Proof.Machine
end

