-- ==== Sys2Proof/Proofs/ScratchpadAtomics.lean ====
section
/-! SUPPORT. Atomics on scratchpad (R277, R281, R282). -/

namespace Sys2Proof.Machine

/-! ## The new value (R281) -/

section New
variable {n old v cmp : Nat} {signed : Bool} (hv : v < 2 ^ (8 * n))
include hv

/-- An operand of the access size is exchanged, added, or combined bit by bit. -/
theorem atomNew_combine :
    atomNew 0 n signed old v cmp = some v ∧ atomNew 1 n signed old v cmp = some ((old + v) % 2 ^ (8 * n)) ∧
    atomNew 2 n signed old v cmp = some (old &&& v) ∧ atomNew 3 n signed old v cmp = some (old ||| v) ∧
    atomNew 4 n signed old v cmp = some (old ^^^ v) := by
  simp only [atomNew, Nat.mod_eq_of_lt hv, and_self]

/-- The signed minimum and maximum go by the numbers that the patterns mean. -/
theorem atomNew_signed :
    atomNew 5 n true old v cmp = some (if sPat (8 * n) v < sPat (8 * n) old then v else old) ∧
    atomNew 6 n true old v cmp = some (if sPat (8 * n) old < sPat (8 * n) v then v else old) := by
  simp only [atomNew, Nat.mod_eq_of_lt hv, if_true, decide_eq_true_eq, and_self]

/-- The unsigned minimum takes the operand where it is smaller. -/
theorem atomNew_min : atomNew 5 n false old v cmp = some (min old v) := by
  simp only [atomNew, Nat.mod_eq_of_lt hv, Bool.false_eq_true, if_false, decide_eq_true_eq, min_comm old v, min_def_lt]

/-- The unsigned maximum takes it where it is greater. -/
theorem atomNew_max : atomNew 6 n false old v cmp = some (max old v) := by
  simp only [atomNew, Nat.mod_eq_of_lt hv, Bool.false_eq_true, if_false, decide_eq_true_eq, max_def_lt]

/-- A compare-and-swap takes it where the old value is the one compared with, and writes nothing elsewhere. -/
theorem atomNew_cas (hcmp : cmp < 2 ^ (8 * n)) : atomNew 7 n signed old v cmp = if old = cmp then some v else none := by
  simp only [atomNew, Nat.mod_eq_of_lt hv, Nat.mod_eq_of_lt hcmp]

end New

/-! ## The word (R277, R282) -/

/-- The old value of an atomic. -/
def Mach.atomRead (m : Mach) (o : L) (a : Opnds) : Nat := leNat (m.spGet (atomAddr o (a.v 0)).toNat (atomBytes o))

/-- An atomic replaces the old value by the new one, if it writes one. -/
def Mach.atomWrite (m : Mach) (o : L) (a : Opnds) : Mach :=
  match atomNew o.sc.toNat (atomBytes o) (atomSigned o) (m.atomRead o a) (a.v 1).toNat (a.v 2).toNat with
  | some v => m.spPut (atomAddr o (a.v 0)).toNat ((leBytes (atomBytes o) v).zipIdx.map fun (b : Byte × Nat) => (b.2, b.1))
  | none => m

/-- An atomic past its check: an ordered one waits for every earlier access. -/
def satomStep (o : L) (m : Mach) (a : Opnds) : Res :=
  if atomOrd o && !m.k.fencedAll then .wait .earlier
  else .done ((m.atomWrite o a).put o.data true (atomOld (atomBytes o) (atomSigned o) (m.atomRead o a)) true)

/-- The check of an atomic at its address: it is as long as it is aligned. -/
def Mach.atomBad (m : Mach) (o : L) (a : Opnds) : Option (BitVec 8) := m.spBad (atomAddr o (a.v 0)).toNat (atomBytes o) (atomBytes o)

/-- SATOM does that past its check. -/
theorem exec_satom (h : Hdr) (o : L) (s : State) : exec (.satom h o) s = issueWord (.satom h o) h (atomPorts o) (fun m a =>
    if !a.act then .done (m.put o.data false 0 false)
    else checked (m.atomBad o a) (atomAddr o (a.v 0)) (satomStep o m a)) s := rfl

/-- An atomic that is not ordered, or that has no earlier access to wait for, does not wait. -/
theorem atomWaits_eq_false {o : L} {k : Ctx} (hfree : atomOrd o = true → k.fencedAll = true) : (atomOrd o && !k.fencedAll) = false :=
  Bool.and_eq_false_imp.mpr fun hord => by rw [hfree hord]; rfl

/-- Then SATOM is done. -/
theorem satomStep_of_free {o : L} {m : Mach} {a : Opnds} (hfree : atomOrd o = true → m.k.fencedAll = true) : satomStep o m a =
    .done ((m.atomWrite o a).put o.data true (atomOld (atomBytes o) (atomSigned o) (m.atomRead o a)) true) :=
  if_neg (Bool.eq_false_iff.mp (atomWaits_eq_false hfree))

/-- SATOM traps with the cause of its check. -/
theorem satom_traps {h : Hdr} {o : L} {c : Mach → Opnds → Prop} {cause : BitVec 8}
    (hbad : ∀ m a, c m a → a.act = true ∧ m.atomBad o a = some cause) :
    TrapsIf (.satom h o) h (atomPorts o) c fun _ a => (cause, atomAddr o (a.v 0)) :=
  trapsIf_on (exec_satom h o) fun m a hc => (hbad m a hc).imp_right fun hcause => congrArg (checked · _ _) hcause

/-- Settles O45: the new value by its operation, and the word by its check and its order. -/
theorem scratchpadAtomicsComplete : Obligations.ScratchpadAtomicsComplete := by
  unfold Obligations.ScratchpadAtomicsComplete
  refine ⟨fun n old v cmp _ _ hv => atomNew_signed hv, fun n signed old v cmp _ hv hcmp => ?values, fun h o => ?word⟩
  case values =>
    obtain ⟨hswap, hadd, hand, hor, hxor⟩ := atomNew_combine (old := old) (cmp := cmp) (signed := signed) hv
    have hcas := atomNew_cas (old := old) (signed := signed) hv hcmp
    exact ⟨hswap, hadd, hand, hor, hxor, atomNew_min hv, atomNew_max hv, fun hsame => hcas.trans (if_pos hsame),
      fun hother => hcas.trans (if_neg hother)⟩
  case word =>
    refine ⟨?runs, ?misaligned, ?beyond, runsIf_off (exec_satom h o)⟩
    case runs =>
      exact runsIf_on (exec_satom h o) fun m a ⟨hact, hgood, hfree⟩ =>
        ⟨hact, (congrArg (checked · _ _) hgood).trans (satomStep_of_free hfree)⟩
    case misaligned => exact satom_traps fun m a ⟨hact, halign⟩ => ⟨hact, Mach.spBad_of_misaligned halign⟩
    case beyond => exact satom_traps fun m a ⟨hact, halign, hend⟩ => ⟨hact, Mach.spBad_of_beyond halign hend⟩

end Sys2Proof.Machine
end

