-- ==== Sys2Proof/Proofs/GlobalWords.lean ====
section
/-! SUPPORT. LDG, STG and GATOM (R276, R277, R281 to R285). -/

namespace Sys2Proof.Machine

/-! ## The access (R277, R283) -/

/-- A word goes on with its pieces where its access may be made, and comes to what stops it elsewhere. -/
def GAcc.andThen (r : GAcc) (g : List GPiece → State → Res) : Res :=
  match r with
  | .stop r => r
  | .ok l s => g l s

/-- A misaligned access takes cause 0x11 with its effective address. -/
theorem Mach.gAccess_of_misaligned {m : Mach} {ea : Word} {n align : Nat} {need : Need} (halign : ea.toNat % align ≠ 0) :
    m.gAccess ea n align need = .stop (.trap 0x11 ea) := if_pos halign

/-! ## Words whose body makes one access past its guard -/

section Access
variable {i : Instr} {h : Hdr} {p : Ports} {off : Mach → Opnds → Mach} {ea : Opnds → Word} {n align : Nat} {need : Mach → Need}
  {go : Mach → Opnds → List GPiece → State → Res}
  (e : ∀ s, exec i s = issueWord i h p (fun m a =>
    if !a.act then .done (off m a) else (m.gAccess (ea a) n align (need m)).andThen (go m a)) s)
include e

/-- Such a word completes where the access may be made and what follows is done. -/
theorem access_runs {c : Mach → Opnds → Prop} {f : Mach → Opnds → Mach} {l : List GPiece} {s1 : State}
    (d : ∀ m a, c m a → (a.act = true ∧ m.gAccess (ea a) n align (need m) = .ok l s1) ∧ go m a l s1 = .done (f m a)) : RunsIf i h p c f :=
  runsIf_on e fun m a hc => by
    obtain ⟨⟨hact, hok⟩, hdone⟩ := d m a hc
    exact ⟨hact, (congrArg (GAcc.andThen · _) hok).trans hdone⟩

/-- It takes the trap that stops its access. -/
theorem access_traps (c : BitVec 8) (va : Word) :
    TrapsIf i h p (fun m a => a.act = true ∧ m.gAccess (ea a) n align (need m) = .stop (.trap c va)) fun _ _ => (c, va) :=
  trapsIf_on e fun _ _ ⟨hact, hstop⟩ => ⟨hact, congrArg (GAcc.andThen · _) hstop⟩

/-- A misaligned address is such a stop. -/
theorem access_misaligned : TrapsIf i h p (fun _ a => a.act = true ∧ (ea a).toNat % align ≠ 0) fun _ a => (0x11, ea a) :=
  trapsIf_on e fun _ _ ⟨hact, halign⟩ => ⟨hact, congrArg (GAcc.andThen · _) (Mach.gAccess_of_misaligned halign)⟩

end Access

/-! ## The words -/

/-- LDG past its access: a load of its kind joins those in flight. -/
def ldgStep (o : L) (m : Mach) (a : Opnds) (l : List GPiece) (s : State) : Res :=
  let m : Mach := { m with s := s }
  let n := szBytes o.sz.toNat
  let ea := lAddr o (a.v 0) (a.v 1)
  if o.sz = 7 then .done (m.issueLoad l ea o.data .row [(0, 64), (64, 64), (128, 64), (192, 64)])
  else .done (m.issueLoad l ea o.data (.plain n (4 ≤ o.sz.toNat && o.sz.toNat ≤ 6)) [(0, n)])

/-- STG past its access: its bytes join the store buffer. -/
def stgStep (o : L) (m : Mach) (a : Opnds) (l : List GPiece) (s : State) : Res :=
  .done ({ m with s := s }.ctx fun k => k.issuePieces l (storeBytes o a))

/-- GATOM past its access: an ordered one waits for every earlier access, and a load that is an atomic joins those in flight. -/
def gatomStep (o : L) (m : Mach) (a : Opnds) (l : List GPiece) (s : State) : Res :=
  if atomOrd o && !m.k.fencedAll then .wait .earlier
  else .done (({ m with s := s }.issueLoad l (atomAddr o (a.v 0)) o.data
    (.atomic o.sc.toNat (atomBytes o) (atomSigned o) (a.v 1) (a.v 2)) [(0, atomBytes o)]).ctx
      fun k => { k with fenced := k.fenced || atomOrd o })

section Words
variable (h : Hdr) (o : L)

/-- LDG makes an access of its size. -/
theorem exec_ldg (s : State) : exec (.ldg h o) s = issueWord (.ldg h o) h (loadPorts o) (fun m a =>
    if !a.act then .done (m.loadSkipped o)
    else (m.gAccess (lAddr o (a.v 0) (a.v 1)) (szBytes o.sz.toNat) (szAlign o.sz.toNat) m.k.needLd).andThen (ldgStep o m a)) s := rfl

/-- So does STG. -/
theorem exec_stg (s : State) : exec (.stg h o) s = issueWord (.stg h o) h (storePorts o) (fun m a =>
    if !a.act then .done m
    else (m.gAccess (lAddr o (a.v 0) (a.v 1)) (szBytes o.sz.toNat) (szAlign o.sz.toNat) m.k.needSt).andThen (stgStep o m a)) s := rfl

/-- GATOM makes one that is as long as it is aligned. -/
theorem exec_gatom (s : State) : exec (.gatom h o) s = issueWord (.gatom h o) h (atomPorts o) (fun m a =>
    if !a.act then .done (m.put o.data false 0 false)
    else (m.gAccess (atomAddr o (a.v 0)) (atomBytes o) (atomBytes o) m.k.needRw).andThen (gatomStep o m a)) s := rfl

end Words

/-- Settles O46: each word by what its access comes to. -/
theorem globalMemoryWords : Obligations.GlobalMemoryWords := by
  unfold Obligations.GlobalMemoryWords
  intro h o ea at_ n b
  refine ⟨fun l s1 hscalar => ?scalar, fun l s1 hrow => ?row, fun l s1 => ?store, runsIf_off (exec_ldg h o), runsIf_off (exec_stg h o),
    fun l s1 => ?atomic, access_misaligned (exec_ldg h o), access_misaligned (exec_stg h o), access_misaligned (exec_gatom h o),
    fun c va => ⟨access_traps (exec_ldg h o) c va, access_traps (exec_stg h o) c va, access_traps (exec_gatom h o) c va⟩⟩
  case scalar => exact access_runs (exec_ldg h o) fun _ _ hok => ⟨hok, if_neg hscalar⟩
  case row => exact access_runs (exec_ldg h o) fun _ _ hok => ⟨hok, if_pos hrow⟩
  case store => exact access_runs (exec_stg h o) fun _ _ hok => ⟨hok, rfl⟩
  case atomic =>
    exact access_runs (exec_gatom h o) fun _ _ ⟨hact, hok, hfree⟩ => ⟨⟨hact, hok⟩, if_neg (Bool.eq_false_iff.mp (atomWaits_eq_false hfree))⟩

end Sys2Proof.Machine
end

