-- ==== Sys2Proof/Proofs/WindowWords.lean ====
section
/-! SUPPORT. The window words WBIND, WADV, WREL and LDW (R287 to R294). -/

namespace Sys2Proof.Machine

/-! ## WBIND (R288) -/

/-- WBIND does not take this base and stride for a window of this shape. -/
def wbindBad (sh : WinShape) (base stride : Nat) : Bool :=
  base % 64 ≠ 0 || 2 ^ 54 ≤ base || stride % 64 ≠ 0 || 2 ^ 32 ≤ stride || (sh.rw && stride < sh.rowBytes)

/-- It takes a base and a stride of whole sectors within the addresses, and rows of a read-write window that do not overlap. -/
theorem wbindBad_eq_false {sh : WinShape} {base stride : Nat} (hbase : base % 64 = 0) (hlow : base < 2 ^ 54) (hstride : stride % 64 = 0)
    (hshort : stride < 2 ^ 32) (hapart : sh.rw = true → sh.rowBytes ≤ stride) : wbindBad sh base stride = false := by
  simp only [wbindBad, hbase, hstride, Nat.not_le.mpr hlow, Nat.not_le.mpr hshort, ne_eq, not_true_eq_false, decide_false, Bool.false_or,
    Bool.and_eq_false_imp, decide_eq_false_iff_not]
  exact fun hrw => Nat.not_lt.mpr (hapart hrw)

/-- WBIND past its guard: the slot is declared and free, then its operands are checked. -/
def wbindStep (o : S3) (m : Mach) (a : Opnds) : Res :=
  let slot := o.fn.toNat % 16
  match m.k.winShape slot with
  | none => .trap 0x13 (winTval 2 slot 0)
  | some sh =>
    if (m.k.win? slot).isSome then .trap 0x13 (winTval 3 slot 0)
    else if wbindBad sh (a.v 0).toNat (a.v 1).toNat then .trap 0x13 (winTval 4 slot 0)
    else
      let w : Win := ⟨a.v 0, a.v 1, 0, 0⟩
      .done ((m.ctx fun k => (k.setWin slot (some w)).startFills slot sh w 0 sh.ringRows).cxlMark.put o.dst true (W sh.ring) a.valid)

/-- WBIND makes those checks. -/
theorem exec_wbind (h : Hdr) (o : S3) (s : State) : exec (.wbind h o) s = issueWord (.wbind h o) h (s3Ports o) (fun m a =>
    if !a.act then .done (m.put o.dst false 0 false) else wbindStep o m a) s := rfl

/-- With operands that it takes WBIND binds a declared, free slot and starts the fills of its ring. -/
theorem wbind_runs (h : Hdr) (o : S3) (sh : WinShape) :
    let slot := o.fn.toNat % 16
    RunsIf (.wbind h o) h (s3Ports o)
      (fun m a => a.act = true ∧ m.k.winShape slot = some sh ∧ m.k.win? slot = none ∧ wbindBad sh (a.v 0).toNat (a.v 1).toNat = false)
      fun m a => (m.ctx fun k => (k.setWin slot (some ⟨a.v 0, a.v 1, 0, 0⟩)).startFills slot sh ⟨a.v 0, a.v 1, 0, 0⟩ 0 sh.ringRows).cxlMark.put
        o.dst true (W sh.ring) a.valid :=
  runsIf_on (exec_wbind h o) fun m a ⟨hact, hshape, hfree, hgood⟩ => ⟨hact, by
    simp only [wbindStep, hshape, hfree, hgood, Option.isSome_none, Bool.false_eq_true, if_false]⟩

/-! ## Bound slots (R287, R294) -/

/-- A word on a bound window goes on with its shape and its state; a slot that is not bound takes cause 0x13 with reason 1. -/
def Ctx.onWindow (k : Ctx) (slot : Nat) (g : WinShape → Win → Res) : Res :=
  match k.winShape slot, k.win? slot with
  | some sh, some w => g sh w
  | _, _ => .trap 0x13 (winTval 1 slot 0)

section Bound
variable {k : Ctx} {slot : Nat} {sh : WinShape} {w : Win} {g : WinShape → Win → Res}

/-- A slot that is declared and holds a window is bound. -/
theorem Ctx.onWindow_of_bound (hshape : k.winShape slot = some sh) (hwin : k.win? slot = some w) : k.onWindow slot g = g sh w := by
  rw [Ctx.onWindow, hshape, hwin]

/-- One that holds none is not. -/
theorem Ctx.onWindow_of_unbound (hwin : k.win? slot = none) : k.onWindow slot g = .trap 0x13 (winTval 1 slot 0) := by
  rw [Ctx.onWindow, hwin]
  cases k.winShape slot <;> rfl

end Bound

section OnWindow
variable {i : Instr} {h : Hdr} {p : Ports} {c : Mach → Opnds → Prop} {off : Mach → Opnds → Mach} {slot : Nat} {sh : WinShape} {w : Win}
  {go : Mach → Opnds → WinShape → Win → Res}
  (e : ∀ s, exec i s = issueWord i h p (fun m a => if !a.act then .done (off m a) else m.k.onWindow slot (go m a)) s)
include e

/-- Such a word completes where its slot is bound and what follows is done. -/
theorem onWindow_runs {f : Mach → Opnds → Mach}
    (d : ∀ m a, c m a → (a.act = true ∧ m.k.winShape slot = some sh ∧ m.k.win? slot = some w) ∧ go m a sh w = .done (f m a)) :
    RunsIf i h p c f :=
  runsIf_on e fun m a hc => by
    obtain ⟨⟨hact, hshape, hwin⟩, hdone⟩ := d m a hc
    exact ⟨hact, (Ctx.onWindow_of_bound hshape hwin).trans hdone⟩

/-- It traps where its slot holds no window. -/
theorem onWindow_unbound : TrapsIf i h p (fun m a => a.act = true ∧ m.k.win? slot = none) fun _ _ => (0x13, winTval 1 slot 0) :=
  trapsIf_on e fun _ _ ⟨hact, hwin⟩ => ⟨hact, Ctx.onWindow_of_unbound hwin⟩

end OnWindow

/-! ## WADV and WREL (R291, R292) -/

/-- The machine after the write-back of rows of a read-write window; of a read-only one nothing is written back. -/
def Mach.wroteBack (m : Mach) (sh : WinShape) (l : List GPiece) (s1 : State) : Mach :=
  if sh.rw then ({ m with s := s1 }.storeBacks l).cxlMark else m

/-- The n rows of a window from t on can be written back: none is being filled, and their pages may be stored to. -/
def Mach.backReady (m : Mach) (slot : Nat) (sh : WinShape) (w : Win) (t n : Nat) (l : List GPiece) (s1 : State) : Prop :=
  sh.rw = true → m.k.filling slot t n = false ∧ m.reachPieces m.k.needSt false 0 (backPieces sh w t n) m.s = .ok l s1

/-- A word goes on behind a write-back that can be made. -/
theorem Mach.writeBack_of_ready {m : Mach} {slot : Nat} {sh : WinShape} {w : Win} {t n : Nat} {l : List GPiece} {s1 : State}
    (hready : m.backReady slot sh w t n l s1) (f : Mach → Res) : m.writeBack slot sh w t n f = f (m.wroteBack sh l s1) := by
  rw [Mach.writeBack, Mach.wroteBack]
  cases hrw : sh.rw with
  | false => rfl
  | true =>
    obtain ⟨hfilled, hreach⟩ := hready hrw
    simp only [hfilled, hreach, Bool.not_true, Bool.false_eq_true, if_false, if_true]

/-- A window moves on by n rows, and the fills of the rows that come in start. -/
def Mach.advanced (m : Mach) (o : SI) (a : Opnds) (sh : WinShape) (w : Win) : Mach :=
  let slot := o.imm.toNat % 16
  let w' : Win := { w with origin := w.origin + (a.v 0).toNat }
  (m.ctx fun k => (k.setWin slot (some w')).startFills slot sh w' (w'.origin + sh.ringRows - (a.v 0).toNat) (a.v 0).toNat).cxlMark.put
    o.dst true (W w'.origin) a.valid

/-- WADV on a bound window: its count, the write-back of the rows that leave, the rows that come in. -/
def wadvStep (o : SI) (m : Mach) (a : Opnds) (sh : WinShape) (w : Win) : Res :=
  if sh.ringRows < (a.v 0).toNat then .trap 0x13 (winTval 8 (o.imm.toNat % 16) (a.v 0).toNat)
  else m.writeBack (o.imm.toNat % 16) sh w w.origin (a.v 0).toNat fun m => .done (m.advanced o a sh w)

/-- WREL on a bound window: its release behind the write-back of all its rows, its origin, or its violations. -/
def wrelStep (o : S3) (m : Mach) (a : Opnds) (sh : WinShape) (w : Win) : Res :=
  match o.fn.toNat / 16 with
  | 0 => m.writeBack (o.fn.toNat % 16) sh w w.origin sh.ringRows fun m =>
      .done ((m.ctx fun k => k.releaseWin (o.fn.toNat % 16)).put o.dst true (W w.vio) a.valid)
  | 1 => .done (m.put o.dst true (W w.origin) a.valid)
  | _ => .done (m.put o.dst true (W w.vio) a.valid)

section Words
variable (h : Hdr)

/-- WADV asks for its guard, then for a bound window. -/
theorem exec_wadv (o : SI) (s : State) : exec (.wadv h o) s = issueWord (.wadv h o) h { Ports.none with srcs := [o.s1], dsts := [o.dst] }
    (fun m a => if !a.act then .done (m.put o.dst false 0 false) else m.k.onWindow (o.imm.toNat % 16) (wadvStep o m a)) s := rfl

/-- So does WREL. -/
theorem exec_wrel (o : S3) (s : State) : exec (.wrel h o) s = issueWord (.wrel h o) h { Ports.none with dsts := [o.dst] }
    (fun m a => if !a.act then .done (m.put o.dst false 0 false) else m.k.onWindow (o.fn.toNat % 16) (wrelStep o m a)) s := rfl

end Words

section Steps
variable {m : Mach} {a : Opnds} {sh : WinShape} {w : Win} {l : List GPiece} {s1 : State}

/-- WADV by at most the ring moves the window on once the rows that leave can be written back. -/
theorem wadvStep_of_ready {o : SI} (hcount : (a.v 0).toNat ≤ sh.ringRows)
    (hready : m.backReady (o.imm.toNat % 16) sh w w.origin (a.v 0).toNat l s1) :
    wadvStep o m a sh w = .done ((m.wroteBack sh l s1).advanced o a sh w) :=
  (if_neg (Nat.not_lt.mpr hcount)).trans (Mach.writeBack_of_ready hready _)

variable {o : S3}

/-- WREL releases the window once its rows can be written back. -/
theorem wrelStep_release (hkind : o.fn.toNat / 16 = 0) (hready : m.backReady (o.fn.toNat % 16) sh w w.origin sh.ringRows l s1) :
    wrelStep o m a sh w =
      .done (((m.wroteBack sh l s1).ctx fun k => k.releaseWin (o.fn.toNat % 16)).put o.dst true (W w.vio) a.valid) := by
  rw [wrelStep, hkind]
  exact Mach.writeBack_of_ready hready _

/-- It reads the origin. -/
theorem wrelStep_origin (hkind : o.fn.toNat / 16 = 1) : wrelStep o m a sh w = .done (m.put o.dst true (W w.origin) a.valid) := by
  rw [wrelStep, hkind]
  rfl

/-- It reads the violations. -/
theorem wrelStep_violations (hkind : 2 ≤ o.fn.toNat / 16) : wrelStep o m a sh w = .done (m.put o.dst true (W w.vio) a.valid) := by
  obtain ⟨k, hk⟩ := Nat.exists_eq_add_of_le' hkind
  rw [wrelStep, hk]
  rfl

end Steps

/-! ## LDW (R289, R290) -/

/-- LDW of a row of a bound window: the row, the byte in it and its alignment are checked. -/
def ldwStep (o : L) (m : Mach) (a : Opnds) (sh : WinShape) (w : Win) : Res :=
  let slot := ldwSlot o
  let t := (a.v 0).toNat
  let b := ldwByte o (a.v 1)
  if sh.rows ≤ t then
    (if sh.faultPol then .trap 0x13 (winTval 5 slot t)
     else (m.ctx fun k => k.setWin slot (some { w with vio := w.vio + 1 })).loadNow o (List.replicate (szBytes o.sz.toNat) 0))
  else if t < w.origin || w.origin + sh.ringRows ≤ t then .trap 0x13 (winTval 6 slot t)
  else if sh.rowBytes < b + szBytes o.sz.toNat then .trap 0x13 (winTval 7 slot b)
  else if b % szAlign o.sz.toNat ≠ 0 then .trap 0x11 (W (sh.slotOf t + b))
  else ldwMapped o slot t b sh w m

/-- LDW asks for its guard, then for a bound window. -/
theorem exec_ldw (h : Hdr) (o : L) (s : State) : exec (.ldw h o) s = issueWord (.ldw h o) h (loadPorts o) (fun m a =>
    if !a.act then .done (m.loadSkipped o) else m.k.onWindow (ldwSlot o) (ldwStep o m a)) s := rfl

/-- The machine of an LDW whose row is no longer held for its fill (R293). -/
def Mach.rowRead (m : Mach) (slot t : Nat) : Mach :=
  m.ctx fun k => { k with fills := k.fills.filter fun (f : Fill) => !(f.slot == slot && f.row == t) }

section Row
variable {o : L} {m : Mach} {a : Opnds} {sh : WinShape} {w : Win}

/-- A row that has been filled, with no fault held against it, is read from the ring. -/
theorem ldwMapped_of_filled {slot t b : Nat} (hfault : (m.k.rowFaults.find? fun (f : RowFault) => f.slot == slot && f.row == t) = none)
    (hfilled : m.k.filling slot t 1 = false) :
    ldwMapped o slot t b sh w m = (m.rowRead slot t).loadNow o ((m.rowRead slot t).ringGet (sh.slotOf t + b) (szBytes o.sz.toNat)) := by
  rw [ldwMapped, hfault]
  exact if_neg (Bool.eq_false_iff.mp hfilled)

/-- Within the tensor, the window and the row, at an aligned byte, LDW reads its row. -/
theorem ldwStep_of_mapped (hrow : (a.v 0).toNat < sh.rows) (hlow : w.origin ≤ (a.v 0).toNat) (hhigh : (a.v 0).toNat < w.origin + sh.ringRows)
    (hend : ldwByte o (a.v 1) + szBytes o.sz.toNat ≤ sh.rowBytes) (halign : ldwByte o (a.v 1) % szAlign o.sz.toNat = 0) :
    ldwStep o m a sh w = ldwMapped o (ldwSlot o) (a.v 0).toNat (ldwByte o (a.v 1)) sh w m := by
  simp only [ldwStep, halign, Nat.not_le.mpr hrow, Nat.not_lt.mpr hlow, Nat.not_le.mpr hhigh, Nat.not_lt.mpr hend, decide_false, Bool.or_self,
    Bool.false_eq_true, ne_eq, not_true_eq_false, if_false]

/-- Beyond the tensor a window that does not fault counts a violation and reads zeros. -/
theorem ldwStep_of_beyond (hrow : sh.rows ≤ (a.v 0).toNat) (hpol : sh.faultPol = false) : ldwStep o m a sh w =
    (m.ctx fun k => k.setWin (ldwSlot o) (some { w with vio := w.vio + 1 })).loadNow o (List.replicate (szBytes o.sz.toNat) 0) :=
  (if_pos hrow).trans (if_neg (Bool.eq_false_iff.mp hpol))

end Row

/-- Settles O49: the checks of WBIND, then the three words on a bound window. -/
theorem windowWords : Obligations.WindowWords := by
  unfold Obligations.WindowWords
  refine ⟨fun h o sh => ?wbind, fun h o sh w l s1 => ?wadv, fun h o sh w l s1 => ?wrel, fun h o sh w => ?ldw⟩
  case wbind =>
    intro slot s m hturn ⟨hact, hshape, hfree, hbase, hlow, hstride, hshort, hapart⟩
    exact wbind_runs h o sh s m hturn ⟨hact, hshape, hfree, wbindBad_eq_false hbase hlow hstride hshort hapart⟩
  case wadv =>
    exact onWindow_runs (exec_wadv h o) fun m a ⟨hact, hshape, hwin, hcount, hready⟩ =>
      ⟨⟨hact, hshape, hwin⟩, wadvStep_of_ready hcount hready⟩
  case wrel =>
    intro slot left held
    refine ⟨fun hkind => ?release, fun hkind => ?origin, fun hkind => ?violations⟩
    case release => exact onWindow_runs (exec_wrel h o) fun m a ⟨hheld, hready⟩ => ⟨hheld, wrelStep_release hkind hready⟩
    case origin => exact onWindow_runs (exec_wrel h o) fun m a hheld => ⟨hheld, wrelStep_origin hkind⟩
    case violations => exact onWindow_runs (exec_wrel h o) fun m a hheld => ⟨hheld, wrelStep_violations hkind⟩
  case ldw =>
    refine ⟨?filled, ?beyond, onWindow_unbound (exec_ldw h o)⟩
    case filled =>
      refine onWindow_runs (exec_ldw h o) fun m a ⟨hact, hshape, hwin, hrow, hlow, hhigh, hend, halign, hfault, hfilled⟩ =>
        ⟨⟨hact, hshape, hwin⟩, ?_⟩
      exact (ldwStep_of_mapped hrow hlow hhigh hend halign).trans (ldwMapped_of_filled hfault hfilled)
    case beyond =>
      exact onWindow_runs (exec_ldw h o) fun m a ⟨hact, hshape, hwin, hrow, hpol⟩ =>
        ⟨⟨hact, hshape, hwin⟩, ldwStep_of_beyond hrow hpol⟩

end Sys2Proof.Machine
end

