-- ==== Sys2Proof/Proofs/EngineWords.lean ====
section
/-! SUPPORT. What an engine word leaves of its context as it issues its command: the command, its number, its record (R307 to R316). -/
namespace Sys2Proof.Machine

/-! ## Waking and records -/

/-- Ending a wait of the A stream changes that stream alone. -/
theorem Ctx.wake_rest (k : Ctx) (p : Instr → Bool) : k.wake p = { k with a := (k.wake p).a } := by
  unfold Ctx.wake
  split
  · split <;> rfl
  · rfl

@[simp] theorem Ctx.wake_eng (k : Ctx) (p : Instr → Bool) : (k.wake p).eng = k.eng := by rw [Ctx.wake_rest]
@[simp] theorem Ctx.wake_sr (k : Ctx) (p : Instr → Bool) : (k.wake p).sr = k.sr := by rw [Ctx.wake_rest]

/-- A record goes to the end of its engine's FIFO (R310). -/
theorem Ctx.recsOf_pushRec (k : Ctx) {opc : Nat} (hrec : producesRec opc = true) (r : CRec) :
    (k.pushRec opc r).recsOf (engOf opc) = k.recsOf (engOf opc) ++ [r] := by
  simp only [Ctx.pushRec, hrec, if_true, Ctx.recsOf, Ctx.wake_eng, tget_tset_same]

/-- It leaves the commands. -/
@[simp] theorem Ctx.pushRec_cmds (k : Ctx) (opc : Nat) (r : CRec) : (k.pushRec opc r).eng.cmds = k.eng.cmds := by
  unfold Ctx.pushRec
  split
  · rw [Ctx.wake_eng]
  · rfl

/-- It leaves the special registers. -/
@[simp] theorem Ctx.pushRec_sr (k : Ctx) (opc : Nat) (r : CRec) : (k.pushRec opc r).sr = k.sr := by
  unfold Ctx.pushRec
  split
  · rw [Ctx.wake_sr]
  · rfl

/-! ## Issue -/

/-- What a `GFEN` and an `EQU` note is among what their context holds of its engines, beside its commands. -/
theorem Ctx.noteIssue_rest (k : Ctx) (opc : Nat) :
    k.noteIssue opc = { k with eng := (k.noteIssue opc).eng } ∧ (k.noteIssue opc).eng.cmds = k.eng.cmds := by
  unfold Ctx.noteIssue
  split
  · exact ⟨rfl, rfl⟩
  · split <;> exact ⟨rfl, rfl⟩

/-- The numbers that P1 and P2 name, where they name one (R308). -/
theorem mem_predsOf {o : E} {seq p : BitVec 16} :
    p ∈ predsOf o seq ↔ (o.p1 ≠ 0 ∧ p = seq - o.p1.setWidth 16) ∨ (o.p2 ≠ 0 ∧ p = seq - o.p2.setWidth 16) := by
  simp only [predsOf, List.mem_filterMap, List.mem_cons, List.not_mem_nil, or_false, exists_eq_or_imp, exists_eq_left,
    Option.ite_none_left_eq_some, Option.some.injEq, eq_comm (a := p), ne_eq]

/-- A command as it issues waits for those of its predecessors that have not retired (R308). -/
theorem Ctx.mem_newCmd_preds {k : Ctx} {o : E} {opc : Nat} {g : BitVec 3} {gn : Bool} {o1 o2 o3 : Word} {dst : Dst} {ranges : List Range}
    {p : BitVec 16} :
    p ∈ (k.newCmd o opc g gn o1 o2 o3 dst ranges).preds ↔
      ((o.p1 ≠ 0 ∧ p = k.sr.seq - o.p1.setWidth 16) ∨ (o.p2 ≠ 0 ∧ p = k.sr.seq - o.p2.setWidth 16)) ∧ (k.cmd? p).isSome = true := by
  rw [← mem_predsOf]
  exact List.mem_filter

section Issue
variable (m : Mach) (h : Hdr) (o : E) (opc : Nat) {a : EngArgs} (hout : a.out = none)
include hout

/-- A command without a value to deliver issues behind the others, takes its number, and is noted. -/
theorem Mach.issueCmd_of_no_value : m.issueCmd h o opc a = m.ctx fun k =>
    Ctx.noteIssue (Ctx.takeNumber { k with eng := { k.eng with
      cmds := k.eng.cmds ++ [k.newCmd o opc h.g h.gn a.o1 a.o2 a.o3 .none a.ranges] } }) opc := by
  simp only [Mach.issueCmd, hout]

/-- It stands behind the unretired commands before it. -/
theorem Mach.issueCmd_cmds : (m.issueCmd h o opc a).k.eng.cmds =
    m.k.eng.cmds ++ [m.k.newCmd o opc h.g h.gn a.o1 a.o2 a.o3 .none a.ranges] := by
  rw [Mach.issueCmd_of_no_value m h o opc hout, Mach.ctx_k, (Ctx.noteIssue_rest _ opc).2]
  rfl

/-- The number moves on by one. -/
theorem Mach.issueCmd_sr : (m.issueCmd h o opc a).k.sr = { m.k.sr with seq := m.k.sr.seq + 1 } := by
  rw [Mach.issueCmd_of_no_value m h o opc hout, Mach.ctx_k, (Ctx.noteIssue_rest _ opc).1]
  rfl

/-- The context keeps all but its engines and its special registers. -/
theorem Mach.issueCmd_rest :
    (m.issueCmd h o opc a).k = { m.k with eng := (m.issueCmd h o opc a).k.eng, sr := (m.issueCmd h o opc a).k.sr } := by
  rw [Mach.issueCmd_of_no_value m h o opc hout, Mach.ctx_k, (Ctx.noteIssue_rest _ opc).1]
  rfl

end Issue

/-- Settles O52: the new command, what else changes as it issues, and the number and the record of a word under a false guard. -/
theorem issuedCommandsAreNumberedInOrder : Obligations.IssuedCommandsAreNumberedInOrder := by
  unfold Obligations.IssuedCommandsAreNumberedInOrder
  intro m h o opc a hout
  refine ⟨⟨_, m.issueCmd_cmds h o opc hout, rfl, rfl, rfl, rfl, rfl, rfl, rfl, rfl, rfl, fun p => Ctx.mem_newCmd_preds⟩,
    m.issueCmd_sr h o opc hout, rfl, m.issueCmd_rest h o opc hout, ?number, rfl, ?record⟩
  case number => simp only [Mach.skipCmd, Mach.ctx_k, Ctx.pushRec_sr, Ctx.takeNumber]
  case record => exact fun hrec => Ctx.recsOf_pushRec m.k.takeNumber hrec _

/-- An engine word issues its command where nothing holds it and its checks pass. -/
theorem runsIf_issueCmd {i : Instr} {h : Hdr} {p : Ports} {o : E} {opc : Nat} {args : Mach → Opnds → EngArgs}
    (e : ∀ s, exec i s = issueWord i h p (fun m a => m.engineWord h o opc a.act none (args m a)) s) :
    RunsIf i h p (fun m a => EngineFree m a o opc (args m a)) fun m a => m.issueCmd h o opc { args m a with out := none } :=
  runsIf_of_done e fun _ _ hfree => Mach.engineWord_of_free hfree

/-- Settles O50: each word hands its operands, checks and ranges to the one body of engine words. -/
theorem engineWordsIssueTheirCommand : Obligations.EngineWordsIssueTheirCommand := by
  unfold Obligations.EngineWordsIssueTheirCommand
  intro h o iss p2 lanes sp
  refine ⟨?cpym, ?cpys, ?cgth, ?csct, ?cpgi, ?rput, ?rget, ?gadd, ?gamo, ?gqop, ?gred, ?gaxpy, ?gfen, ?spk, ?tkenq⟩
  case cpym | cpys | cgth | csct | cpgi | rput | rget => exact runsIf_issueCmd fun _ => rfl
  case gadd | gamo | gqop | gred | gaxpy | gfen => exact runsIf_issueCmd fun _ => rfl
  case spk | tkenq => exact runsIf_issueCmd fun _ => rfl

end Sys2Proof.Machine
end

