-- ==== Sys2Proof/Proofs/EngineActs.lean ====
section
/-! SUPPORT. Engine commands as their engines perform them (spec/12, spec/13, spec/14): which command a step reaches, what retiring one
leaves, the end of a run of unions, det epochs, the order log under replay. -/
namespace Sys2Proof.Machine

/-! ## Reaching a command (R308, R313) -/

section Reach
variable {s : State} {x : CtxRef} {k : Ctx} {seq : BitVec 16} {c : Cmd} {p : Cmd → Bool} {f : State → Ctx → Cmd → State}
  (hctx : s.ctx? x = some k) (hcmd : k.cmd? seq = some c) (hword : p c = true)
include hctx hcmd hword

/-- A step of a command that the context bound at its place holds is that command's. -/
theorem State.atCmd_of_bound : s.atCmd x seq p f = f s k c := by
  have hfound : (k.cmd? seq).filter p = some c := by rw [hcmd, Option.filter_some, if_pos hword]
  simp only [State.atCmd, hctx, Option.any_some, hfound, Option.isSome_some, if_true]

/-- So is one that is nothing else. -/
theorem State.withCmd_of_bound : s.withCmd x seq p f = .next (f s k c) := by
  rw [State.withCmd, State.atCmd_of_bound hctx hcmd hword]

end Reach

/-- A command starts once nothing cancels it and its predecessors have retired. -/
theorem State.startCmd_of_free {s : State} {x : CtxRef} {k : Ctx} {c : Cmd} {f : State → State} (hfree : c.cancel = none ∧ c.preds = []) :
    s.startCmd x k c f = f s := by
  simp only [State.startCmd, hfree, List.isEmpty_nil, if_true]

/-- One that a failed predecessor cancels is cancelled; an equivalence command waits for its turn. -/
theorem State.startCmd_of_cancelled {s : State} {x : CtxRef} {k : Ctx} {c : Cmd} {p : BitVec 16} {f : State → State}
    (hcancel : c.cancel = some p) : s.startCmd x k c f = if engOf c.opc != 1 || k.mayPerform c then s.cancelCmd x k c p else s := by
  simp only [State.startCmd, hcancel]

/-! ## The grates (R318, R325, R455) -/

section Grate
variable {s : State} {x : CtxRef} {k : Ctx} {c : Cmd}

/-- A command whose predecessors have retired leaves its core with its scratchpad source. -/
theorem State.grateStep_of_free (hfree : c.cancel = none ∧ c.preds = []) (hhere : c.left = false) (hmay : k.mayLeave c = true)
    (hcmd : c.opc ≠ 0x64) : s.grateStep x k c = s.setCtx x (k.setCmd { c with
      left := true, src := if c.opc = 0x5F || c.opc = 0x63 then s.spRead x.core.toNat (k.bd.sbase + c.o2.toNat) c.targetBytes else [] }) := by
  simp only [State.grateStep, hhere, hmay, hfree, List.isEmpty_nil, Bool.not_true, Bool.false_eq_true, if_false, if_true, State.grateLeave,
    Ctx.gfenLeft, if_neg hcmd, Ctx.spAt]

/-- One that is cancelled retires in its place. -/
theorem State.grateStep_of_cancelled {p : BitVec 16} (hcancel : c.cancel = some p) (hhere : c.left = false) (hmay : k.mayLeave c = true)
    (hcmd : c.opc ≠ 0x64) : s.grateStep x k c = s.cancelCmd x k c p := by
  simp only [State.grateStep, hhere, hmay, hcancel, if_neg hcmd, Bool.not_true, Bool.false_eq_true, if_false]

/-- One that has left its core is performed, unless det mode holds it. -/
theorem State.grateStep_of_left (hleft : c.left = true) (hcmd : c.opc ≠ 0x64) (hopen : (k.bd.det = 1 && c.detF32) = false) :
    s.grateStep x k c = s.grateAct x k c := by
  simp only [State.grateStep, hleft, if_neg hcmd, hopen, Bool.false_eq_true, if_false, if_true]

/-- A fence that has left its core awaits the grate commands before it. -/
theorem State.grateStep_of_fence (hleft : c.left = true) (hfence : c.opc = 0x64) : s.grateStep x k c = s.gfenAct x k c := by
  simp only [State.grateStep, hleft, hfence, if_true]

/-- With none before it, it reports the failures counted since the fence before, and forgets them. -/
theorem State.gfenAct_of_first (hfirst : k.earlierGrate c = []) (hcancel : c.cancel = none) :
    s.gfenAct x k c = s.retireCmd x { k with eng := { k.eng with gfail := 0, gfailSeq := 0, gfailStatus := 0 } } c
      (if k.eng.gfail = 0 then 0 else k.eng.gfailStatus.toNat) (if k.eng.gfail = 0 then 0 else k.eng.gfailSeq.setWidth 64)
      (min k.eng.gfail (2 ^ 31 - 1)) [] := by
  simp only [State.gfenAct, hfirst, hcancel, List.isEmpty_nil, Bool.not_true, Bool.false_eq_true, if_false]

/-- A cancelled fence retires no earlier. -/
theorem State.gfenAct_of_cancelled {p : BitVec 16} (hfirst : k.earlierGrate c = []) (hcancel : c.cancel = some p) :
    s.gfenAct x k c = s.cancelCmd x k c p := by
  simp only [State.gfenAct, hfirst, hcancel, List.isEmpty_nil, Bool.not_true, Bool.false_eq_true, if_false]

/-- With one before it, it waits. -/
theorem State.gfenAct_of_later (hlater : k.earlierGrate c ≠ []) : s.gfenAct x k c = s := by
  simp only [State.gfenAct, List.isEmpty_eq_false_iff.mpr hlater, Bool.not_false, if_true]

end Grate

/-! ## Sparks and enqueues (R371 to R373) -/

/-- The context of this device that a spark names (R370). -/
def Cmd.sparkTo (c : Cmd) : CtxRef := ⟨BitVec.ofNat 8 (bits c.o1 0 8), bitAt c.o1 8⟩

section Events
variable {s s1 : State} {x : CtxRef} {k u : Ctx} {c : Cmd}

/-- A spark to another context of the device, of its virtual device and with room in its inbox, is delivered. -/
theorem State.sparkAct_of_taken (hself : bitAt c.o1 31 = true) (hto : s.ctx? c.sparkTo = some u) (hvdev : u.bd.vdev = k.bd.vdev)
    (htakes : u.takesSpark = true) (hother : c.sparkTo ≠ x) :
    s.sparkAct x k c = (s.retireCmd x k c 0x00 0 0 []).deliverSpark c.sparkTo u (s.targetWord x) c.o2
      (s.spRead x.core.toNat (k.bd.sbase + c.o3.toNat) (16 * (c.fl.toNat % 32))) := by
  simp only [Cmd.sparkTo] at hto hother
  simp only [State.sparkAct, hself, hto, hvdev, htakes, hother, ne_eq, not_true_eq_false, decide_false, Bool.not_true, Bool.or_self,
    Bool.false_eq_true, if_false, if_true, State.enqueueDone, Cmd.sparkTo, Ctx.spAt, spkLen]

/-- A spark to a place where none is bound is refused. -/
theorem State.sparkAct_of_absent (hself : bitAt c.o1 31 = true) (hto : s.ctx? c.sparkTo = none) :
    s.sparkAct x k c = s.retireCmd x (k.refused c) c 0x00 0 0 [] := by
  simp only [Cmd.sparkTo] at hto
  simp only [State.sparkAct, hself, hto, if_true, State.enqueueDone]

/-- A record that has been read goes into a queue that is open and not full; else the enqueue is refused. -/
theorem State.tkenqAct_of_read {bytes : List Byte} (hread : s.taskRecord x.core.toNat k.bd.vdev c.o2.toNat = .ok bytes s1) :
    s.tkenqAct x k c = if s1.queueOpen c.o1.toNat k.bd.vdev && !s1.queueFull c.o1.toNat then
      (s1.retireCmd x k c 0x00 0 0 []).queueAppend c.o1.toNat bytes else s1.retireCmd x (k.refused c) c 0x00 0 0 [] := by
  simp only [State.tkenqAct, hread]
  cases s1.queueOpen c.o1.toNat k.bd.vdev <;> cases s1.queueFull c.o1.toNat <;> rfl

end Events

/-! ## Copies with a peer (R358, R471) -/

/-- What an answer to a copy with a peer counts of it: bytes of an `RPUT` that have been sent. -/
def Xfer.acked (f : Xfer) (count : Nat) : Xfer := if f.isGet then f else { f with count := max f.count (min count f.off) }

section Remote
variable {s : State} {x : CtxRef} {k : Ctx} {seq : BitVec 16} {c : Cmd} {f : Xfer} (count : Nat) (hctx : s.ctx? x = some k)
  (hcmd : k.cmd? seq = some c) (hopc : c.opc = 0x5D ∨ c.opc = 0x5E) (hsent : c.sent = true) (hxfer : s.xfer? x seq = some f)

include hopc hsent in
/-- An `RPUT` or `RGET` that has been sent is a copy with a peer. -/
theorem isRemote_of_sent : (isRemote 0x5D c || isRemote 0x5E c) = true := by
  rcases hopc with hopc | hopc <;> simp [isRemote, hopc, hsent]

include hctx hcmd hopc hsent hxfer

/-- An answer that refuses nothing counts. -/
theorem exec_commitMarkAck_of_accepted : exec (.commitMarkAck x seq count 0) s = .next (s.setXfer (f.acked count)) := by
  change Host.Outcome.next (s.markAck x seq count 0) = _
  rw [State.markAck, State.atCmd_of_bound hctx hcmd (isRemote_of_sent hopc hsent)]
  simp only [hxfer, if_true, Xfer.acked]

/-- A copy whose port has failed ends with the count that the devices agree on. -/
theorem exec_transferCountAgree_of_lost (hlost : f.lost = true) (hagrees : f.agrees count = true) (hmark : s.getMark f = none) :
    exec (.transferCountAgree x seq count) s = .next (s.remoteEnd x k c { f with count := count } 0x20) := by
  change s.withCmd x seq _ _ = _
  rw [State.withCmd_of_bound hctx hcmd (isRemote_of_sent hopc hsent)]
  simp only [hxfer, hlost, hagrees, hmark, Option.isNone_none, Bool.and_self, if_true]

end Remote

/-! ## Retiring (R308, R311, R313) -/

/-- What the retirement of a command makes of one that stays: it waits for one command less, and is cancelled where that has failed. -/
def Cmd.afterRetire (c : Cmd) (fail : Bool) (d : Cmd) : Cmd :=
  if d.preds.contains c.seq then
    { d with preds := d.preds.filter (· != c.seq), cancel := if fail then d.cancel.or (some c.seq) else d.cancel }
  else d

/-- It keeps its number. -/
@[simp] theorem Cmd.afterRetire_seq (c d : Cmd) (fail : Bool) : (c.afterRetire fail d).seq = d.seq := by
  unfold Cmd.afterRetire
  split <;> rfl

/-- A successor of a command that has failed is cancelled by it, unless an earlier failure has. -/
theorem Cmd.afterRetire_of_successor {c d : Cmd} (hsucc : c.seq ∈ d.preds) (hcancel : d.cancel = none) :
    (c.afterRetire true d).cancel = some c.seq ∧ c.seq ∉ (c.afterRetire true d).preds := by
  simp [Cmd.afterRetire, hsucc, hcancel]

/-- Counting a failure leaves the commands and the result FIFOs. -/
theorem EngSt.countFail_keeps (e : EngSt) (seq : BitVec 16) (status opc : Nat) :
    (e.countFail seq status opc).cmds = e.cmds ∧ (e.countFail seq status opc).recs = e.recs := by
  unfold EngSt.countFail
  split <;> exact ⟨rfl, rfl⟩

section Retire
variable (k : Ctx) (c : Cmd) (status : Nat) (value : Word) (aux : Nat) (sectors : List Nat)

/-- The other commands stay as the retirement leaves them. -/
theorem Ctx.retire_cmds : (k.retire c status value aux sectors).eng.cmds =
    (k.eng.cmds.filter fun d => d.seq != c.seq).map (c.afterRetire (isFailure status)) := by
  simp only [Ctx.retire, Ctx.pushRec_cmds, (EngSt.countFail_keeps _ _ _ _).1]
  rfl

/-- The command has retired. -/
theorem Ctx.cmd?_retire : (k.retire c status value aux sectors).cmd? c.seq = none := by
  rw [Ctx.cmd?, Ctx.retire_cmds, List.find?_eq_none]
  intro d hd
  obtain ⟨e, he, rfl⟩ := List.mem_map.mp hd
  have hne : (e.seq != c.seq) = true := (List.mem_filter.mp he).2
  simpa using hne

/-- Another command is still there. -/
theorem Ctx.mem_retire_cmds {d : Cmd} (hd : d ∈ k.eng.cmds) (hother : d.seq ≠ c.seq) :
    c.afterRetire (isFailure status) d ∈ (k.retire c status value aux sectors).eng.cmds := by
  rw [Ctx.retire_cmds]
  exact List.mem_map_of_mem (List.mem_filter.mpr ⟨hd, bne_iff_ne.mpr hother⟩)

/-- Its record waits behind the others of its engine. -/
theorem Ctx.recsOf_retire (hrec : producesRec c.opc = true) : (k.retire c status value aux sectors).recsOf (engOf c.opc) =
    k.recsOf (engOf c.opc) ++ [⟨recInfo c.seq status c.opc aux, value, sectors⟩] := by
  rw [Ctx.retire, Ctx.recsOf_pushRec _ hrec]
  simp only [Ctx.recsOf, (EngSt.countFail_keeps _ _ _ _).2]

end Retire

/-! ## The end of a run of unions (R332, R342) -/

/-- Queueing an event leaves the engines. -/
@[simp] theorem Ctx.queueEvent_eng (k : Ctx) (info value : Word) : (k.queueEvent info value).eng = k.eng := by
  unfold Ctx.queueEvent
  split <;> rfl

/-- The other bank of a core is another place. -/
theorem ctxKey_otherBank_ne (x : CtxRef) : ctxKey x ≠ ctxKey (otherBank x) := by
  obtain ⟨core, bank⟩ := x
  cases bank <;> simp [ctxKey, otherBank, b2n]

/-- A context to which an event is posted keeps its engines. -/
theorem State.postEvent_eng {s : State} {x : CtxRef} {k : Ctx} (hctx : s.ctx? x = some k) (cls detail : Nat) (value : Word) :
    ∃ k', (s.postEvent x cls detail value).ctx? x = some k' ∧ k'.eng = k.eng := by
  have hqueued (info : Word) : ∃ k', (s.setCtx x ((k.queueEvent info value).wake (wantsClass cls))).ctx? x = some k' ∧ k'.eng = k.eng :=
    ⟨_, State.ctx?_setCtx s x _, by rw [Ctx.wake_eng, Ctx.queueEvent_eng]⟩
  simp only [State.postEvent, hctx]
  split
  · exact hqueued _
  · split
    · exact ⟨_, (State.ctx?_setCtx_ne _ _ _ _ (ctxKey_otherBank_ne x)).trans (State.ctx?_setCtx s x _), rfl⟩
    · exact hqueued _

/-- A watch that is checked leaves the engines. -/
theorem Fr.checkWatch_eng (f : Fr) (x : CtxRef) (w : Nat) : (f.checkWatch x w).k.eng = f.k.eng := by
  unfold Fr.checkWatch
  split
  · rfl
  · next v _ =>
    obtain ⟨k', hctx, heng⟩ := State.postEvent_eng (State.ctx?_setCtx f.s x
      { f.k with sr := f.k.sr.setWatch w (keep (f.k.sr.watch w) 61 0 ||| W (2 ^ 62)) }) 1 w v
    simp only [hctx, Option.getD_some, heng]

/-- So do all of them. -/
theorem Fr.foldl_checkWatch_eng (x : CtxRef) (l : List Nat) (f : Fr) : (l.foldl (fun f w => f.checkWatch x w) f).k.eng = f.k.eng :=
  foldl_keeps (fun g : Fr => g.k.eng = f.k.eng) _ (fun g w hg => (g.checkWatch_eng x w).trans hg) l f rfl

/-- The context whose oldest run is over, once its watches have been checked and the run has ended. -/
def State.runEnded (s : State) (x : CtxRef) (k : Ctx) : Fr :=
  (upTo 8).foldl (fun (f : Fr) w => f.checkWatch x w) ⟨s, k, x.core.toNat, 0⟩

/-- The oldest run of a context that is over ends. -/
theorem exec_eqRunEnd_of_over {s : State} {x : CtxRef} {k : Ctx} (hctx : s.ctx? x = some k) (hover : k.eng.runOver = true) :
    ∃ t k', exec (.eqRunEnd x) s = .next t ∧ t.ctx? x = some k' ∧ k'.eng.ended = k.eng.ended + 1 := by
  have hended : (s.runEnded x k).k.eng = k.eng := Fr.foldl_checkWatch_eng x _ _
  refine ⟨s.eqRunEnd x, { (s.runEnded x k).k with eng := { k.eng with ended := k.eng.ended + 1 } }, ?step, ?ctx, rfl⟩
  case step =>
    change execEqRunEnd x s = _
    simp only [execEqRunEnd, hctx, Option.any_some, hover, if_true]
  case ctx =>
    have hstep : s.eqRunEnd x = (s.runEnded x k).s.setCtx x { (s.runEnded x k).k with
        eng := { (s.runEnded x k).k.eng with ended := (s.runEnded x k).k.eng.ended + 1 } } := by
      simp only [State.eqRunEnd, hctx, hover, Bool.not_true, Bool.false_eq_true, if_false, State.runEnded]
    rw [hstep, State.ctx?_setCtx, hended]

/-! ## Det epochs and replay (R455, R457) -/

/-- The oldest epoch of a det task that is closed, and whose commands have all left their cores, is applied in order. -/
theorem exec_detEpochRelease_of_closed {s : State} {vdev : BitVec 6} {task : Word} {g : Gang} {e : Nat}
    (hgang : s.gang? vdev.toNat task = some g) (holdest : leastOf ((s.heldCmds g).map fun p => p.2.epoch) = some e) (hdet : g.det = 1)
    (hclosed : s.epochClosed g e = true) (hleft : ((s.heldCmds g).filter fun p => p.2.epoch == e).all (fun p => p.2.left) = true)
    (happlied : ((State.applyHeld g (((s.heldCmds g).filter fun p => p.2.epoch == e).foldl (fun l a => insertHeld a l) []) s).heldCmds g).any
      (fun p => p.2.epoch == e) = false) :
    exec (.detEpochRelease vdev task) s =
      .next (State.applyHeld g (((s.heldCmds g).filter fun p => p.2.epoch == e).foldl (fun l a => insertHeld a l) []) s) := by
  change execDetEpochRelease vdev task s = _
  simp only [execDetEpochRelease, hgang, holdest, hdet, hclosed, hleft, happlied, ne_eq, not_true_eq_false, decide_false, Bool.not_true,
    Bool.or_self, Bool.false_eq_true, if_false]

/-- The third dword of a fault record is the cause of its first slot (R428). -/
theorem recWords_cause (x : CtxRef) (smask kind vdev : Nat) (task cause : Word) (p : Word × Word) (l : List (Word × Word × Word)) (time : Nat) :
    (recWords x smask kind vdev task ((cause, p) :: l) time).getD 2 0 = cause := rfl

/-- The record of an entry of a virtual device's log that has waited too long for its turn (R457). -/
def State.overdueRec (s : State) (v i : Nat) : FRec :=
  let a := (s.pkgWord (s.logAt v i)).1
  let b := (s.pkgWord (s.logAt v i + 8)).1
  ⟨recWords ⟨BitVec.ofNat 8 (bits b 0 8), bitAt b 8⟩ 0 1 v (W (bits b 32 32))
    [(0x14, 0, W (bits b 16 16 + (if bitAt a 52 then 0 else 2) * 2 ^ 16)), (0, 0, 0), (0, 0, 0), (0, 0, 0)] s.time, false⟩

/-- An entry of a log under replay that has waited too long marks the log diverged, and a record of kind 1 says so. -/
theorem exec_replayMatchTimeout_of_open {s : State} {vdev : BitVec 6} {j : Nat}
    (hopen : (upTo ((s.logTail vdev.toNat + 2 ^ 32 - s.logHead vdev.toNat) % 2 ^ 32)).find?
      (fun j => !s.matched.contains (vdev.toNat, (s.logHead vdev.toNat + j) % 2 ^ 32)) = some j)
    (hreplay : bitAt (s.reg (logReg vdev.toNat)) 63 = true) (hon : s.logOn vdev.toNat = true) :
    exec (.replayMatchTimeout vdev) s = .next { s.setReg (logReg vdev.toNat) (s.reg (logReg vdev.toNat) ||| W (2 ^ 62)) with
      frecs := s.frecs ++ [s.overdueRec vdev.toNat ((s.logHead vdev.toNat + j) % 2 ^ 32)] } := by
  change execReplayMatchTimeout vdev s = _
  -- unfolded apart from its arguments: beside them the kernel would count the entries out, up to 2^32
  generalize hf : execReplayMatchTimeout = f
  delta execReplayMatchTimeout at hf
  subst hf
  simp only [hopen, hreplay, hon, Bool.not_true, Bool.or_self, Bool.false_eq_true, if_false, State.overdueRec]

/-- Settles O57: the command that each step reaches, then what its engine makes of it. -/
theorem commandsOfTheEnginesAct : Obligations.CommandsOfTheEnginesAct := by
  unfold Obligations.CommandsOfTheEnginesAct
  refine ⟨?commands, ?retire, fun s x k hctx hover => exec_eqRunEnd_of_over hctx hover, ?epochs, ?replay⟩
  case commands =>
    intro s x k seq c hctx hcmd free
    have hcopy (heng : engOf c.opc = 0) : exec (.copyCommandAct x seq) s = .next (s.startCmd x k c fun s => s.copyAct x k c) :=
      State.withCmd_of_bound hctx hcmd (beq_iff_eq.mpr heng)
    have heq (heng : engOf c.opc = 1) : exec (.eqCommandPerform x seq) s = .next (s.startCmd x k c fun s =>
        if k.mayPerform c then State.eqFinish x c (Fr.perform ⟨s, k, x.core.toNat, c.seq⟩ x c) else s) :=
      State.withCmd_of_bound hctx hcmd (beq_iff_eq.mpr heng)
    have hgrate (heng : engOf c.opc = 2) : exec (.grateCommandAct x seq) s = .next (s.grateStep x k c) :=
      State.withCmd_of_bound hctx hcmd (beq_iff_eq.mpr heng)
    have hfence (hopc : c.opc = 0x64) (hleft : c.left = true) : exec (.grateCommandAct x seq) s = .next (s.gfenAct x k c) :=
      (hgrate (by rw [hopc]; rfl)).trans (congrArg _ (State.grateStep_of_fence hleft hopc))
    refine ⟨?copies, ?copyCancelled, ?eqCancelled, ?performs, ?leaves, ?grateCancelled, ?grateActs, ?fences, ?fenceCancelled, ?fenceWaits,
      ?sparks, ?enqueues, ?peers⟩
    case copies => exact fun heng hfree => by rw [hcopy heng, State.startCmd_of_free hfree]
    case copyCancelled =>
      intro heng p hcancel
      rw [hcopy heng, State.startCmd_of_cancelled hcancel, heng]
      rfl
    case eqCancelled =>
      intro heng p hcancel
      rw [heq heng, State.startCmd_of_cancelled hcancel, heng]
      rfl
    case performs => exact fun heng hfree hturn => by rw [heq heng, State.startCmd_of_free hfree, if_pos hturn]
    case leaves =>
      exact fun heng hfree hhere hmay hopc => (hgrate heng).trans (congrArg _ (State.grateStep_of_free hfree hhere hmay hopc))
    case grateCancelled =>
      exact fun heng hhere hmay hopc p hcancel => (hgrate heng).trans (congrArg _ (State.grateStep_of_cancelled hcancel hhere hmay hopc))
    case grateActs => exact fun heng hleft hopc hopen => (hgrate heng).trans (congrArg _ (State.grateStep_of_left hleft hopc hopen))
    case fences =>
      exact fun hopc hleft hfirst hcancel => (hfence hopc hleft).trans (congrArg _ (State.gfenAct_of_first hfirst hcancel))
    case fenceCancelled =>
      exact fun hopc hleft hfirst p hcancel => (hfence hopc hleft).trans (congrArg _ (State.gfenAct_of_cancelled hfirst hcancel))
    case fenceWaits => exact fun hopc hleft hlater => (hfence hopc hleft).trans (congrArg _ (State.gfenAct_of_later hlater))
    case sparks =>
      intro hopc hfree hself to_
      have hspark : exec (.sparkDeliver x seq) s = .next (s.startCmd x k c fun s => s.sparkAct x k c) :=
        State.withCmd_of_bound hctx hcmd (beq_iff_eq.mpr hopc)
      rw [State.startCmd_of_free hfree] at hspark
      exact ⟨fun u hto hvdev htakes hother => hspark.trans (congrArg _ (State.sparkAct_of_taken hself hto hvdev htakes hother)),
        fun hto => hspark.trans (congrArg _ (State.sparkAct_of_absent hself hto))⟩
    case enqueues =>
      intro hopc hfree bytes s1 hread
      have henqueue : exec (.taskEnqueueAppend x seq) s = .next (s.startCmd x k c fun s => s.tkenqAct x k c) :=
        State.withCmd_of_bound hctx hcmd (beq_iff_eq.mpr hopc)
      rw [henqueue, State.startCmd_of_free hfree, State.tkenqAct_of_read hread]
    case peers =>
      exact fun f count hopc hsent hxfer => ⟨exec_commitMarkAck_of_accepted count hctx hcmd hopc hsent hxfer,
        exec_transferCountAgree_of_lost count hctx hcmd hopc hsent hxfer⟩
  case retire =>
    intro k c p hrec _
    refine ⟨Ctx.recsOf_retire k c 0x02 0 p [] hrec, Ctx.cmd?_retire k c 0x02 0 p [], fun d hd hother hsucc hcancel => ?_⟩
    exact ⟨_, Ctx.mem_retire_cmds k c 0x02 0 p [] hd hother, c.afterRetire_seq d _, Cmd.afterRetire_of_successor hsucc hcancel⟩
  case epochs =>
    intro s vdev task g e mine t hgang holdest hdet hclosed hleft happlied
    exact exec_detEpochRelease_of_closed hgang holdest hdet hclosed hleft happlied
  case replay =>
    intro s vdev j v n hopen hreplay hon
    exact ⟨_, _, exec_replayMatchTimeout_of_open hopen hreplay hon, rfl, recWords_cause ..⟩

end Sys2Proof.Machine
end

