-- ==== Sys2Proof/Proofs/DeviceEvents.lean ====
section
/-! SUPPORT. The device control space, Polpen, the memories and the boot ROM (spec/10, spec/16, spec/17, spec/20): what each of their steps
makes of the state. -/
namespace Sys2Proof.Machine

/-! ## The control space (R408, R457) -/

/-- A register that keeps no bit of a write is left as it is. -/
theorem exec_controlRegisterWrite_of_readOnly {off : BitVec 20} (v : Word) (s : State) (hmask : ctlMask off.toNat = 0) :
    exec (.controlRegisterWrite off v) s = .next s := by
  change execControlRegisterWrite off v s = _
  simp only [execControlRegisterWrite, hmask, if_true]

/-- A register that is no more than its value keeps the write under its mask. -/
theorem exec_controlRegisterWrite_of_plain {off : BitVec 20} (v : Word) (s : State) (hmask : ctlMask off.toNat ≠ 0)
    (hpolicy : ¬ (0xB0000 ≤ off.toNat ∧ off.toNat < 0xB1000)) (hring : ¬ (0xD1000 ≤ off.toNat ∧ off.toNat < 0xD1400))
    (hport : ¬ (0xE0000 ≤ off.toNat ∧ off.toNat < 0xE1000 ∧
      (off.toNat % 0x100 = 0 ∨ (0x20 ≤ off.toNat % 0x100 ∧ off.toNat % 0x100 < 0x40)))) (hlog : isLogCfg off.toNat = false) :
    exec (.controlRegisterWrite off v) s = .next (s.setReg off.toNat (v &&& ctlMask off.toNat)) := by
  have henable : ¬ (0xE0000 ≤ off.toNat ∧ off.toNat < 0xE1000 ∧ off.toNat % 0x100 = 0) := fun ⟨hlo, hhi, h⟩ => hport ⟨hlo, hhi, .inl h⟩
  have hkey : ¬ (0xE0000 ≤ off.toNat ∧ off.toNat < 0xE1000 ∧ 0x20 ≤ off.toNat % 0x100 ∧ off.toNat % 0x100 < 0x40) :=
    fun ⟨hlo, hhi, h⟩ => hport ⟨hlo, hhi, .inr h⟩
  change execControlRegisterWrite off v s = _
  simp only [execControlRegisterWrite, if_neg hmask, if_neg hpolicy, if_neg hkey, if_neg henable, if_neg hring, hlog, Bool.false_eq_true, if_false]

/-- The configuration of an order log keeps it too, and the log begins with nothing matched. -/
theorem exec_controlRegisterWrite_of_log {off : BitVec 20} (v : Word) (s : State) (hmask : ctlMask off.toNat ≠ 0)
    (hlog : isLogCfg off.toNat = true) : exec (.controlRegisterWrite off v) s =
      .next { s.setReg off.toNat (v &&& ctlMask off.toNat) with
        matched := s.matched.filter fun p => p.1 != (off.toNat - 0xC0000) / 0x20 } := by
  obtain ⟨hlo, hhi⟩ : 0xC0000 ≤ off.toNat ∧ off.toNat < 0xC0800 := by
    simp only [isLogCfg, Bool.and_eq_true, decide_eq_true_eq] at hlog
    exact hlog.1
  have hpolicy : ¬ (0xB0000 ≤ off.toNat ∧ off.toNat < 0xB1000) := by omega
  have hkey : ¬ (0xE0000 ≤ off.toNat ∧ off.toNat < 0xE1000 ∧ 0x20 ≤ off.toNat % 0x100 ∧ off.toNat % 0x100 < 0x40) := by omega
  have henable : ¬ (0xE0000 ≤ off.toNat ∧ off.toNat < 0xE1000 ∧ off.toNat % 0x100 = 0) := by omega
  have hring : ¬ (0xD1000 ≤ off.toNat ∧ off.toNat < 0xD1400) := by omega
  change execControlRegisterWrite off v s = _
  simp only [execControlRegisterWrite, if_neg hmask, if_neg hpolicy, if_neg hkey, if_neg henable, if_neg hring, hlog, if_true]
  rfl

/-! ## Injected errors (R407) -/

section Inject
variable {s s1 : State} {x : CtxRef} {k : Ctx} {kind : Nat} (f : Xl → Nat → State → State) (hctx : s.ctx? x = some k)
  (hinject : k.sr.injecting = true) (hkind : bits k.sr.inject 56 2 = kind)
include hctx hinject hkind

/-- A context that injects an error of a kind is found by the step of that kind. -/
theorem State.injection_of_kind : s.injection x kind = some k := by
  simp only [State.injection, hctx, Option.filter_some, hinject, hkind, beq_self_eq_true, Bool.and_self, if_true]

/-- Its error goes to the sector that it names in HBM. -/
theorem State.inject_of_hbm {l : Xl} (hxlate : s.xlate x.core.toNat k.bd.vdev (bits k.sr.inject 6 48 * 64) = (.ok l, s1))
    (htier : lfTier l.leaf = 0) (hhbm : isHbm (l.pa (bits k.sr.inject 6 48 * 64)) = true) :
    s.inject x kind f = (f l (l.pa (bits k.sr.inject 6 48 * 64) / 64) s1).setCtx x (k.injected false) := by
  simp only [State.inject, State.injection_of_kind hctx hinject hkind, hxlate, htier, hhbm, decide_true, Bool.and_self, if_true]

/-- Where its translation fails the context is told so. -/
theorem State.inject_of_fail {poisoned : Bool} (hxlate : s.xlate x.core.toNat k.bd.vdev (bits k.sr.inject 6 48 * 64) = (.fail poisoned, s1)) :
    s.inject x kind f = s1.setCtx x (k.injected true) := by
  simp only [State.inject, State.injection_of_kind hctx hinject hkind, hxlate]

end Inject

/-! ## Memory errors and expanders (R304, R429, R466) -/

/-- A list that takes an element it may hold already. -/
theorem contains_insert (l : List Nat) (n a : Nat) : (if l.contains n then l else n :: l).contains a = (l.contains a || a == n) := by
  change (l.insert n).contains a = _
  rw [Bool.eq_iff_iff]
  simp only [List.contains_iff_mem, List.mem_insert_iff, Bool.or_eq_true, beq_iff_eq, or_comm]

/-- A list that gives an element up. -/
theorem contains_filter_ne (l : List Nat) (n a : Nat) : (l.filter (· != n)).contains a = (l.contains a && a != n) := by
  rw [Bool.eq_iff_iff]
  simp only [List.contains_iff_mem, List.mem_filter, Bool.and_eq_true]

/-- An expander's poison indication poisons its sector. -/
theorem State.contains_cxlPoison (s : State) (sec : Nat) : (s.cxlPoison sec).ms.poison.contains sec = true := by
  simp only [State.cxlPoison, State.mem_ms, contains_insert, beq_self_eq_true, Bool.or_true]

/-! ## Shootdowns (R420) -/

/-- A shootdown that finds none under way drops what it covers, and goes. -/
theorem State.shootStart_of_idle {s : State} (hidle : s.sd = none) (d : Shootdown) (pages : Nat) :
    s.shootStart d pages = { (s.shoot d).setReg 0x40008
      (W (2 ^ 63 + d.kind * 2 ^ 61 + b2n d.cl * 2 ^ 60 + d.vdev * 2 ^ 32 + pages)) with sd := some { d with spans := s.heldSpans d } } := by
  simp only [State.shootStart, hidle, Option.isSome_none, Bool.false_eq_true, if_false]

/-- One that leaves the caches ends once no context, saved or bound, has an access or a command under way in it. -/
theorem exec_shootdownComplete_of_settled {s : State} {d : Shootdown} (hgoes : s.sd = some d) (hlines : d.cl = false)
    (hctxs : ∀ p ∈ s.ctxs, s.shootBusy d (keyCtx p.1) p.2 = false) (hsaved : ∀ q ∈ s.saved, d.awaitsCmds q.k = false)
    (hxfers : s.xfers = []) :
    exec .shootdownComplete s = .next { s.setReg 0x40008 (keep (s.reg 0x40008) 62 0) with sd := none } := by
  have hbound : (s.ctxs.any fun p => s.shootBusy d (keyCtx p.1) p.2) = false := by simpa using hctxs
  have hheld : (s.saved.any fun q => d.awaitsCmds q.k) = false := by simpa using hsaved
  change execShootdownComplete s = _
  simp only [execShootdownComplete, hgoes, hlines, hbound, hheld, hxfers, List.any_nil, Bool.false_and, Bool.or_self, Bool.false_eq_true, if_false]

/-! ## Scrubs (R423) -/

/-- A key of which every cell is kept reads what it has read. -/
theorem tget_filter_of_kept {α : Type} (d : α) (f : Nat × α → Bool) (k : Nat) (h : ∀ v, f (k, v) = true) (t : Tab α) :
    tget d (t.filter f) k = tget d t k := by
  induction t with
  | nil => rfl
  | cons p t ih =>
    obtain ⟨j, v⟩ := p
    by_cases hj : f (j, v) = true
    · rw [List.filter_cons_of_pos hj, tget, tget, ih]
    · have hne : k ≠ j := fun e => hj (e ▸ h v)
      rw [List.filter_cons_of_neg hj, ih, tget, if_neg hne]

/-- Memory of which some sectors are dropped reads zero there, and else what it has read. -/
theorem memByte_filter_sectors (m : List Host.Cell) (out : Nat → Bool) (a : Nat) :
    memByte (m.filter fun c => out (c.1 / 64)) a = if out (a / 64) then memByte m a else 0 := by
  split
  · next h => exact tget_filter_of_kept 0 _ a (fun _ => h) m
  · next h => exact tget_filter_of_dropped 0 _ a (fun _ => Bool.eq_false_iff.mpr h) m

/-- A sector lies outside the n bytes from pa on. -/
def secOutside (pa n sec : Nat) : Bool := !(decide (pa / 64 ≤ sec) && decide (sec < (pa + n) / 64))

/-- The sector of an address lies in a page where the address does. -/
theorem secOutside_page (frame size a : Nat) :
    secOutside (frame * 2 ^ 16) (pageBytes size) (a / 64) = true ↔ ¬ (frame * 2 ^ 16 ≤ a ∧ a < frame * 2 ^ 16 + pageBytes size) := by
  obtain ⟨j, hpage⟩ : ∃ j, pageBytes size = j * 2 ^ 16 := by
    unfold pageBytes
    split
    · exact ⟨1, rfl⟩
    · split
      · exact ⟨32, rfl⟩
      · exact ⟨2 ^ 14, rfl⟩
  simp only [secOutside, hpage, Bool.not_eq_true', Bool.and_eq_false_iff, decide_eq_false_iff_not]
  omega

/-! ## Freezing (R409) -/

/-- The first n ports go down. -/
def linksDown (n : Nat) (t : Tab Link) : Tab Link :=
  (upTo n).foldl (fun t p => tset Link.down t p { tget Link.down t p with up := false }) t

/-- They are down. -/
theorem linksDown_up (t : Tab Link) : ∀ n p, p < n → (tget Link.down (linksDown n t) p).up = false
  | n + 1, p, hp => by
    simp only [linksDown, upTo, List.range_succ, List.foldl_append, List.foldl_cons, List.foldl_nil]
    by_cases hlast : p = n
    · rw [hlast, tget_tset_same]
    · rw [tget_tset_ne _ _ _ _ _ hlast]
      exact linksDown_up t n p (by omega)

/-- A freeze takes every port down. -/
theorem exec_freeze (s : State) : exec .freeze s = .next { s with frozen := true, links := linksDown 16 s.links } := rfl

/-! ## Reset and bring-up (R474) -/

/-- A package reset keeps the flash, and waits in recovery unless the image in it verifies. -/
theorem exec_packageReset_keeps (s : State) : ∃ t, exec .packageReset s = .next t ∧ t.off = false ∧ t.frozen = false ∧ t.ctxs = [] ∧
    t.ctl = [] ∧ t.host.flash = s.host.flash ∧ t.host.enabled = false ∧ t.host.boot = 2 ∧ t.host.recovery = !t.host.imageGood := by
  change ∃ t, execPackageReset s = _ ∧ _
  simp only [execPackageReset]
  refine ⟨_, rfl, rfl, rfl, rfl, rfl, ?_⟩
  split
  · next hgood => exact ⟨rfl, rfl, rfl, by rw [hgood]; rfl⟩
  · next hbad => exact ⟨rfl, rfl, rfl, (congrArg (! ·) (Bool.eq_false_iff.mpr hbad)).symm⟩

section Bringup
variable {s : State} (hverified : s.host.recovery = false)
include hverified

/-- Step 3 gives the device its identifier. -/
theorem exec_bringupEnable_of_two (hboot : s.host.boot = 2) : exec .bringupEnable s =
    .next { s.setReg 0xE1000 (Config.deviceId.setWidth 64) with host := { s.host with boot := 3 } } := by
  change execBringupEnable s = _
  rw [execBringupEnable, if_neg (Bool.eq_false_iff.mp hverified), hboot]
  rfl

/-- Step 4 scrubs the memory. -/
theorem exec_bringupEnable_of_three (hboot : s.host.boot = 3) : exec .bringupEnable s =
    .next { s with ms := s.ms.scrubHbm, host := { s.host with boot := 4 } } := by
  change execBringupEnable s = _
  rw [execBringupEnable, if_neg (Bool.eq_false_iff.mp hverified), hboot]
  rfl

/-- Step 5 enables the host port and tells the host. -/
theorem exec_bringupEnable_of_four (hboot : s.host.boot = 4) : exec .bringupEnable s =
    .next { s with host := { s.host with boot := 5, enabled := true, ready := true, msix := s.host.msix ++ [(0, 0)] } } := by
  change execBringupEnable s = _
  rw [execBringupEnable, if_neg (Bool.eq_false_iff.mp hverified), hboot]
  rfl

end Bringup

/-- The scrub of every frame leaves no byte in HBM. -/
theorem MemSt.scrubHbm_mem (m : MemSt) {a : Nat} (ha : isHbm a = true) : ∀ c ∈ m.scrubHbm.mem, c.1 ≠ a := by
  intro c hc e
  have hout : (!isHbm c.1) = true := (List.mem_filter.mp hc).2
  rw [e, ha] at hout
  exact Bool.false_ne_true hout

/-- Settles O56: the control space, injected errors, the memories, shootdowns, scrubs, then what stops and starts the package. -/
theorem deviceEvents : Obligations.DeviceEvents := by
  unfold Obligations.DeviceEvents
  refine ⟨?plain, ?readOnly, ?log, ?counts, ?injects, ?stores, ?symbols, ?expanderSymbols, ?channel, ?expanders, ?shootdowns, ?shot, ?scrubRequest,
    ?scrub, ?walk, ?freeze, fun s stove refill => rfl, fun s => ⟨_, rfl, rfl, rfl⟩, exec_packageReset_keeps, ?bringup⟩
  case plain =>
    exact fun s off v hmask hpolicy hring hport hlog => exec_controlRegisterWrite_of_plain v s hmask hpolicy hring hport hlog
  case readOnly => exact fun s off v hmask => exec_controlRegisterWrite_of_readOnly v s hmask
  case log => exact fun s off v hlog hmask => exec_controlRegisterWrite_of_log v s hmask hlog
  case counts => exact fun s u v => ⟨rfl, rfl, rfl⟩
  case injects =>
    intro s x k kind l s1 l' s2 va done hctx hinject hkind
    refine ⟨fun hxlate htier hhbm => ?done, fun hxlate => ?failed⟩
    case done =>
      constructor <;> rintro rfl
      all_goals exact congrArg Host.Outcome.next (State.inject_of_hbm _ hctx hinject hkind hxlate htier hhbm)
    case failed =>
      constructor <;> rintro rfl
      all_goals exact congrArg Host.Outcome.next (State.inject_of_fail _ hctx hinject hkind hxlate)
  case stores =>
    intro s pa bytes hrange
    change execManagementCoreStore pa bytes s = _
    simp only [execManagementCoreStore, hrange, Bool.true_or, if_true]
  case symbols =>
    intro s pa n hhbm
    change execMemorySymbolError pa n s = _
    simp only [execMemorySymbolError, hhbm, if_true]
  case expanderSymbols =>
    intro s pa n hhbm
    refine ⟨?_, s.contains_cxlPoison _⟩
    change execMemorySymbolError pa n s = _
    simp only [execMemorySymbolError, hhbm, Bool.false_eq_true, if_false]
  case channel => exact fun s quad pc => ⟨_, rfl, rfl, contains_insert s.ms.deadPc _⟩
  case expanders =>
    exact fun s port => ⟨_, _, rfl, rfl, rfl, rfl, fun n => ⟨contains_insert s.ms.expDown _ n, contains_filter_ne s.ms.expDown _ n⟩⟩
  case shootdowns =>
    intro s cl vdev pages hidle cmd range whole all goes
    refine ⟨congrArg Host.Outcome.next ?_, congrArg Host.Outcome.next ?_, congrArg Host.Outcome.next ?_⟩
    · exact State.shootStart_of_idle hidle range pages.toNat
    · exact State.shootStart_of_idle hidle whole 0
    · exact State.shootStart_of_idle hidle all 0
  case shot => exact fun s d hgoes hlines hctxs hsaved hxfers => exec_shootdownComplete_of_settled hgoes hlines hctxs hsaved hxfers
  case scrubRequest =>
    intro s v
    refine ⟨_, rfl, rfl, rfl, ?_⟩
    rw [State.scrubState, State.reg_setReg, State.mem_ms, List.length_append, List.length_singleton]
  case scrub =>
    intro s r rest hscrubs pa n
    change ∃ t, execScrubComplete s = _ ∧ _
    simp only [execScrubComplete, hscrubs]
    refine ⟨_, rfl, rfl, rfl, State.reg_setReg _ _ _, fun a => ?bytes, fun sec hlo hhi => ?poison⟩
    case bytes =>
      refine (memByte_filter_sectors s.ms.mem (secOutside pa n) a).trans ?_
      simp only [pa, n, secOutside_page, ite_not]
    case poison =>
      refine Bool.eq_false_iff.mpr fun hpoison => ?_
      have hout : secOutside pa n sec = true := (List.mem_filter.mp (List.contains_iff_mem.mp hpoison)).2
      simp only [secOutside, decide_eq_true hlo, decide_eq_true hhi, Bool.and_self, Bool.not_true, Bool.false_eq_true] at hout
  case walk =>
    intro s core vdev va x s1 hwalk
    change execPageWalk core vdev va s = _
    simp only [execPageWalk, hwalk]
  case freeze =>
    intro s
    have hstep := exec_freeze s
    have hdown := linksDown_up s.links 16
    generalize linksDown 16 s.links = links at hstep hdown
    exact ⟨_, hstep, rfl, hdown⟩
  case bringup =>
    exact fun s hverified => ⟨exec_bringupEnable_of_two hverified,
      fun hboot => ⟨_, exec_bringupEnable_of_three hverified hboot, rfl, fun a ha => s.ms.scrubHbm_mem ha⟩,
      fun hboot => ⟨_, exec_bringupEnable_of_four hverified hboot, rfl, rfl, rfl, rfl, rfl⟩⟩

end Sys2Proof.Machine
end

