-- ==== Sys2Proof/Proofs/EquivalenceWords.lean ====
section
/-! SUPPORT. The words of the equivalence engine as they issue, and the entries that an `EQR` with a queue source pops at once
(R332 to R348). -/
namespace Sys2Proof.Machine

/-- A free word of the equivalence engine with the operands, checks and ranges `args`, the forest's ranges first among them. -/
theorem Mach.eqWord_of_args {m : Mach} {h : Hdr} {o : E} {opc : Nat} {a : Opnds} {out : Option (BitVec 6)} {args : EngArgs}
    {more : List Range} (hranges : args.ranges = m.k.sr.forestRanges ++ more) (hfail : m.k.eng.eqFail = none)
    (hforest : m.k.forestBad = none) (hfree : EngineFree (if opc = 0x66 then m else m.ctx Ctx.closeRun) a o opc args) :
    m.eqWord h o opc a.act out args.bad args.o1 args.o2 args.o3 more =
      .done ((if opc = 0x66 then m else m.ctx Ctx.closeRun).issueCmd h o opc { args with out := out }) := by
  obtain ⟨bad, o1, o2, o3, ranges, _⟩ := args
  obtain rfl : ranges = m.k.sr.forestRanges ++ more := hranges
  obtain ⟨hact, hroom, hreleased, hcredit, hchecks, hclear⟩ := hfree
  exact Mach.eqWord_of_free hfail hforest ⟨hact, hroom, hreleased, hcredit, hchecks, hclear⟩

/-- A word whose body is that of the equivalence words issues its command where nothing holds it and its checks pass. -/
theorem runsIf_issueEq {i : Instr} {h : Hdr} {p : Ports} {o : E} {opc : Nat} {out : Option (BitVec 6)} {args : Mach → Opnds → EngArgs}
    {body : Mach → Opnds → Res} (more : Mach → Opnds → List Range) (e : ∀ s, exec i s = issueWord i h p body s)
    (hranges : ∀ m a, (args m a).ranges = m.k.sr.forestRanges ++ more m a)
    (hbody : ∀ m a, body m a = m.eqWord h o opc a.act out (args m a).bad (args m a).o1 (args m a).o2 (args m a).o3 (more m a)) :
    RunsIf i h p
      (fun m a => m.k.eng.eqFail = none ∧ m.k.forestBad = none ∧
        EngineFree (if opc = 0x66 then m else m.ctx Ctx.closeRun) a o opc (args m a))
      fun m a => (if opc = 0x66 then m else m.ctx Ctx.closeRun).issueCmd h o opc { args m a with out := out } :=
  runsIf_of_done e fun m a ⟨hfail, hforest, hfree⟩ =>
    (hbody m a).trans (Mach.eqWord_of_args (hranges m a) hfail hforest hfree)

/-! ## EQR (R343, R344) -/

section Eqr
variable {h : Hdr} {o : E}

/-- An `EQR` that is not fed from a queue is a word like the others; with summing it reads its values from the scratchpad. -/
theorem eqrBody_of_scratchpad (hsource : eqrQueue o.fl = none) (m : Mach) (a : Opnds) :
    let bytes := if o.fl.getLsbD 8 then 4 * m.k.sr.eqN * eqrW o.fl else 4 * m.k.sr.eqN
    eqrBody h o m a = m.eqWord h o 0x69 a.act none
      ((m.spCheck (a.v 0) bytes 4).or (if o.fl.getLsbD 8 then m.spCheck (a.v 1) bytes 4 else none)) (a.v 0) (a.v 1) 0
      (⟨(a.v 0).toNat, bytes, true⟩ :: (if o.fl.getLsbD 8 then [⟨(a.v 1).toNat, bytes, false⟩] else [])) := by
  simp only [eqrBody, hsource, Option.isNone_none, Bool.and_true, rangeOf]

/-- The rows of an `EQR` that pops every entry it needs are complete. -/
theorem eqrGoOn_of_all {q n : Nat} {act : Bool} {m : Mach} (hall : (Mach.popEqr q act n m).1 = n) :
    eqrGoOn q act 0 n m = .done (Mach.popEqr q act n m).2 := by
  simp only [eqrGoOn, Nat.sub_zero, Nat.zero_add, hall, if_true]

/-- An `EQR` fed from a queue that starts with an entry in it issues its command, then pops. -/
theorem eqrBody_of_queue {q : Nat} (hsource : eqrQueue o.fl = some q) {m m' : Mach} {a : Opnds} (hprog : m.t.prog = none)
    (hentry : 0 < eqrNeed m.k.sr.eqN o.fl → (popSlot (m.k.rq? q)).isSome = true)
    (hissue :
      let bytes := if o.fl.getLsbD 8 then 4 * m.k.sr.eqN * eqrW o.fl else 4 * m.k.sr.eqN
      m.eqWord h o 0x69 a.act none (m.spCheck (a.v 0) bytes 4) (a.v 0) (a.v 1) 0 [⟨(a.v 0).toNat, bytes, true⟩] = .done m') :
    eqrBody h o m a =
      eqrGoOn q a.act 0 (eqrNeed m.k.sr.eqN o.fl) (m'.ctx fun k => k.awaits (eqrNeed m.k.sr.eqN o.fl) m.k.sr.seq) := by
  have hpresent : (decide (0 < eqrNeed m.k.sr.eqN o.fl) && (popSlot (m.k.rq? q)).isNone) = false := by
    rw [Bool.and_eq_false_imp, decide_eq_true_eq]
    intro hneed
    rw [← Option.not_isSome, hentry hneed, Bool.not_true]
  simp only [eqrBody, hsource, hprog, hpresent, Option.isNone_some, Bool.and_false, Bool.false_eq_true, if_false, Option.or_none,
    rangeOf, hissue]

end Eqr

/-- Settles O51: each word hands its operands, checks and ranges to the one body of equivalence words; EQR by where its values come
from. -/
theorem equivalenceWordsIssueTheirCommand : Obligations.EquivalenceWordsIssueTheirCommand := by
  unfold Obligations.EquivalenceWordsIssueTheirCommand
  intro h o iss forest elem
  refine ⟨?eqclr, ?equ, ?eqf, ?eqz, ?eqsnp, ?eqund, ?eqr, ?eqrQueued⟩
  case eqclr | equ | eqf | eqz | eqsnp | eqund =>
    exact runsIf_issueEq (fun _ _ => []) (fun _ => rfl) (fun _ _ => (List.append_nil _).symm) fun _ _ => rfl
  case eqr =>
    intro hsource
    exact runsIf_issueEq _ (fun _ => rfl) (fun _ _ => rfl) (eqrBody_of_scratchpad hsource)
  case eqrQueued =>
    intro q hsource bytes args popped
    refine runsIf_of_done (fun _ => rfl) fun m a ⟨hprog, hfail, hforest, hfree, hentry, hall⟩ => ?_
    have hissue := Mach.eqWord_of_args (h := h) (opc := 0x69) (out := none) (args := args m a) rfl hfail hforest hfree
    rw [eqrBody_of_queue hsource hprog hentry hissue, hfree.act]
    exact eqrGoOn_of_all hall

end Sys2Proof.Machine
end

