-- ==== Sys2Proof/Proofs/Traps.lean ====
section
/-! SUPPORT. Taking an exception, escalating it and returning from one (R402, R404, R405, R427). -/
namespace Sys2Proof.Machine

/-! ## Taking an exception and returning from one (R402, R404, R405, R427) -/

section Trap
variable {m : Mach} {cause : BitVec 8} {tval epc : Word}

/-- A stream with no word in progress loses nothing where its progress is dropped. -/
theorem Mach.str_dropProg_of_none (p : Prog → Bool) (hprog : m.t.prog = none) :
    (m.str fun t => { t with prog := t.prog.filter p }) = m := by
  obtain ⟨s, k, st⟩ := m
  cases st <;> simp only [Mach.t, Ctx.str] at hprog <;> simp only [Mach.str, Mach.t, Ctx.str, Ctx.setStr, hprog, Option.filter_none] <;>
    rw [← hprog]

/-- With no word in progress there is nothing to save. -/
theorem Mach.saveProg_of_none (hprog : m.t.prog = none) : m.saveProg = m := by
  simp only [Mach.saveProg, hprog]

/-- A cause that is routed to the management core escalates itself (R427). -/
theorem Mach.takeTrap_of_routed (hprog : m.t.prog = none) (hroute : routeM cause = true) :
    m.takeTrap cause tval epc = m.escalate cause tval epc := by
  simp only [Mach.takeTrap, Mach.str_dropProg_of_none _ hprog, hroute, if_true]

/-- A cause that the stream's handler cannot take escalates as cause 0x61 (R402, R427). -/
theorem Mach.takeTrap_of_unhandled (hprog : m.t.prog = none) (hroute : routeM cause = false)
    (hlevel : m.t.plev = true ∨ bitAt m.t.tvec 0 = false) :
    m.takeTrap cause tval epc = m.escalate 0x61 (cause.setWidth 64) epc := by
  have hcond : (m.t.plev || !bitAt m.t.tvec 0) = true := by
    rcases hlevel with hlevel | hlevel <;> simp [hlevel]
  simp only [Mach.takeTrap, Mach.str_dropProg_of_none _ hprog, hroute, hcond, Bool.false_eq_true, if_false, if_true]

/-- A stream at level U with a handler enters it (R402). -/
theorem Mach.takeTrap_of_handled (hprog : m.t.prog = none) (hroute : routeM cause = false) (hlevel : m.t.plev = false)
    (htvec : bitAt m.t.tvec 0 = true) :
    m.takeTrap cause tval epc = m.str fun t =>
      { t with cause := cause.setWidth 64, tval := tval, epc := epcMask epc, plev := true, pc := t.tvec &&& 0x003FFFFFFFFFFFF8,
               inBody := false, waiting := none } := by
  simp only [Mach.takeTrap, Mach.saveProg_of_none hprog, hroute, hlevel, htvec, Bool.false_eq_true, if_false, Bool.not_true, Bool.or_self]

/-- The stream that has escalated. -/
theorem Mach.escalate_t (m : Mach) (cause : BitVec 8) (tval epc : Word) :
    (m.escalate cause tval epc).t =
      { m.t with cause := cause.setWidth 64, tval := tval, epc := epcMask epc, waiting := none } := by
  obtain ⟨s, k, st⟩ := m
  cases st <;> rfl

/-- The stop that an escalation begins. -/
theorem Mach.escalate_run (m : Mach) (cause : BitVec 8) (tval epc : Word) : (m.escalate cause tval epc).k.run = .stopping true := rfl

/-- The mark of the stream that has escalated. -/
theorem Mach.escalate_smask (m : Mach) (cause : BitVec 8) (tval epc : Word) :
    (m.escalate cause tval epc).k.smask = m.k.smask ||| (1 <<< m.st.num) := by
  obtain ⟨s, k, st⟩ := m
  cases st <;> rfl

end Trap

/-- Settles O9: the stream alone changes, and its trap registers, level and place are the only fields of it that do. -/
theorem trapEntrySavesAndGoesToTheHandler : Obligations.TrapEntrySavesAndGoesToTheHandler := by
  unfold Obligations.TrapEntrySavesAndGoesToTheHandler
  intro m cause tval epc hprog hroute hlevel htvec
  rw [Mach.takeTrap_of_handled hprog hroute hlevel htvec, Mach.str_t]
  exact ⟨rfl, rfl, rfl⟩

/-- Settles O10: both kinds of trap escalate, with the cause of their own. -/
theorem trapsThatNoHandlerTakesEscalate : Obligations.TrapsThatNoHandlerTakesEscalate := by
  unfold Obligations.TrapsThatNoHandlerTakesEscalate
  intro m cause tval epc hprog
  refine ⟨fun hroute hlevel => ?_, fun hroute => ?_⟩
  · rw [Mach.takeTrap_of_unhandled hprog hroute hlevel]
    exact ⟨Mach.escalate_t m 0x61 _ epc, Mach.escalate_run .., Mach.escalate_smask ..⟩
  · rw [Mach.takeTrap_of_routed hprog hroute]
    exact ⟨Mach.escalate_t .., Mach.escalate_run ..⟩

/-- Outside a modulo body only its registers are cleared (R123). -/
theorem StreamSt.outside_kept (t : StreamSt) :
    t.outside.plev = t.plev ∧ t.outside.pc = t.pc ∧ t.outside.regs = t.regs ∧ t.outside.guards = t.guards := by
  unfold StreamSt.outside
  split <;> exact ⟨rfl, rfl, rfl, rfl⟩

/-- A return goes to level U at sr.epc and leaves registers and guards (R404). -/
theorem Mach.eret_t (m : Mach) :
    m.eret.t.plev = false ∧ m.eret.t.pc = m.t.epc ∧ m.eret.t.regs = m.t.regs ∧ m.eret.t.guards = m.t.guards := by
  obtain ⟨s, k, st⟩ := m
  rw [Mach.eret, Mach.str_t]
  obtain ⟨hlevel, hpc, hregs, hguards⟩ := StreamSt.outside_kept _
  rw [hlevel, hpc, hregs, hguards]
  cases st
  case A | V | M => exact ⟨rfl, rfl, rfl, rfl⟩
  case D => cases hparked : k.dparked <;> simp only [Mach.t, Ctx.str, Mach.ctx, hparked, and_self]

/-- Settles O11: TRAP is a word that takes a trap after it has completed; ERET is one that sets its stream's place. -/
theorem trapAndEretWords : Obligations.TrapAndEretWords := by
  unfold Obligations.TrapAndEretWords
  refine ⟨?trap, ?trapOff, ?eret, ?eretOff, Mach.eret_t⟩
  case trap =>
    intro s m h o hturn hact m'
    have hmask : lowMask 48 = 0xFFFFFFFFFFFF := by decide
    rw [show exec (.trap h o) s = execTrap h o s from rfl, execTrap, issueWord_atTurn _ hturn, if_pos hact, hmask]
    rfl
  case trapOff => exact fun h o => runsIf_of_done (fun _ => rfl) fun m a hoff => if_neg (Bool.eq_false_iff.mp hoff)
  case eret => exact fun h o => movesIf_of_stay (fun _ => rfl) fun m a hact => if_pos hact
  case eretOff => exact fun h o => runsIf_of_done (fun _ => rfl) fun m a hoff => if_neg (Bool.eq_false_iff.mp hoff)

end Sys2Proof.Machine
end

