-- ==== Sys2Proof/Proofs/ResetAndFreeze.lean ====
section
/-! SUPPORT. A package reset, the loss of power, and a frozen package (R409, R410, R474, R476). -/
namespace Sys2Proof.Machine

/-! ## A package reset (R474) -/

/-- Settles O12: every table of the state after reset is empty, so that each reads its default. -/
theorem resetState : Obligations.ResetState := by
  unfold Obligations.ResetState
  exact ⟨rfl, rfl, rfl, rfl, rfl, fun _ => rfl, fun _ _ => rfl, fun _ => rfl, rfl, rfl⟩

/-- Choosing a turn takes it from the agenda and leaves everything else. -/
theorem State.nextTurn_state (s : State) : ∃ rest, s.nextTurn.2 = { s with md := { s.md with agenda := rest } } := by
  unfold State.nextTurn
  split
  · exact ⟨_, rfl⟩
  · exact ⟨s.md.agenda, rfl⟩

/-- What a step that a freeze does not stop is: a reset, the loss of power, or an instruction of the scan port (R409, R410). -/
theorem frozenStep_cases {i : Instr} (hi : frozenStep i = true) :
    i = .packageReset ∨ i = .thermalPowerOff ∨ (i.hdr? = none ∧ ∀ s, ∃ j, exec i s = .next { s with jtag := j }) := by
  cases i
  case packageReset => exact .inl rfl
  case thermalPowerOff => exact .inr (.inl rfl)
  case chsel | chrd | bypass | samplePreload | extest | idcode => exact .inr (.inr ⟨rfl, fun _ => ⟨_, rfl⟩⟩)
  all_goals exact absurd hi Bool.false_ne_true

/-- A package that is frozen takes a step that the freeze does not stop as any other, one without power a package reset (R409, R474,
R476). -/
theorem step_of_frozenStep {s : State} {i : Instr} (hturn : s.nextTurn.1 = .event i) (hi : frozenStep i = true)
    (hpower : s.off = false ∨ i = .packageReset) : step s = s.nextTurn.2.afterTurn (exec i s.nextTurn.2) := by
  obtain ⟨rest, hnext⟩ := s.nextTurn_state
  have hoff : (s.nextTurn.2.off && s.nextTurn.1 != .event .packageReset) = false := by
    rw [hnext, hturn]
    rcases hpower with hoff | rfl
    · simp only [hoff, Bool.false_and]
    · simp only [bne_self_eq_false, Bool.and_false]
  have hhdr : i.hdr? = none := by
    obtain rfl | rfl | ⟨hhdr, -⟩ := frozenStep_cases hi
    · rfl
    · rfl
    · exact hhdr
  simp only [step, hoff, Bool.false_eq_true, if_false]
  simp only [hturn, State.turn, State.eventTurn, hi, hhdr, Option.isSome_none, Bool.not_true, Bool.and_false, Bool.false_eq_true, if_false,
    State.after]
  cases exec i s.nextTurn.2 <;> rfl

/-- The marks of R415 and the passing of time do not bring power back or take it away. -/
theorem State.elapse_off (s : State) : s.elapse.off = s.off := by
  unfold State.elapse
  split <;> rfl

/-- The power after a turn is what its act has left. -/
theorem State.afterTurn_off {s t : State} : ∃ u, s.afterTurn (.next t) = .next u ∧ u.off = t.off :=
  ⟨_, rfl, State.elapse_off _⟩

/-- Settles O15: the step stops before its turn, unless the turn is a package reset, which ends with power. -/
theorem powerOffStopsTheMachine : Obligations.PowerOffStopsTheMachine := by
  unfold Obligations.PowerOffStopsTheMachine
  refine fun s hoff => ⟨fun hturn => ?stops, fun hturn => ?resets⟩
  case stops =>
    obtain ⟨rest, hnext⟩ := s.nextTurn_state
    have hstop : (s.nextTurn.2.off && s.nextTurn.1 != .event .packageReset) = true := by
      rw [hnext, bne_iff_ne.mpr hturn]
      exact congrArg (· && true) hoff
    simp only [step, hstop, if_true]
  case resets =>
    rw [step_of_frozenStep hturn rfl (.inr rfl)]
    exact State.afterTurn_off

/-! ## A frozen package (R409) -/

/-- A frozen package in whose bank 0 of core 0 the mark stands that a word leaves when it takes a held fault (R415). -/
def frozenWithMark : State :=
  let k := Ctx.init (Binding.forWord .A) false 0 false 0 (fun _ => 0) (fun _ => 0)
  let s := State.reset.setCtx ⟨0, false⟩ { k with rowMark := some true }
  { s with frozen := true, md := { s.md with agenda := [.event .bypass] } }

/-- The marks of held faults in a state. -/
def State.rowMarks (s : State) : List (Option Bool) := s.ctxs.map fun p => p.2.rowMark

/-- Refutes O14: the end of every turn clears the mark of a held fault, so that a BYPASS of a frozen package changes a context that
has one. -/
theorem not_aFrozenPackageKeepsItsState : ¬ Obligations.AFrozenPackageKeepsItsState := by
  unfold Obligations.AFrozenPackageKeepsItsState
  rintro ⟨hkeeps, -⟩
  obtain ⟨hsame, -⟩ := hkeeps frozenWithMark _ rfl rfl (by decide) (by decide) (step_of_frozenStep (i := .bypass) rfl rfl (.inl rfl))
  have hmarks := congrArg State.rowMarks hsame
  exact absurd hmarks (by decide)

/-- A frozen package takes no other step. -/
theorem step_of_not_frozenStep {s : State} (hfrozen : s.frozen = true) (hoff : s.off = false)
    (hturn : ∀ i, s.nextTurn.1 = .event i → frozenStep i = false) : step s = .next s.nextTurn.2.ticked := by
  obtain ⟨rest, hnext⟩ := s.nextTurn_state
  have hoff' : s.nextTurn.2.off = false := by rw [hnext]; exact hoff
  have hfrozen' : s.nextTurn.2.frozen = true := by rw [hnext]; exact hfrozen
  simp only [step, hoff', Bool.false_and, Bool.false_eq_true, if_false]
  cases hkind : s.nextTurn.1 with
  | issue x st => simp only [State.turn, State.elapse, hfrozen', if_true]
  | event i => simp only [State.turn, State.elapse, hfrozen', hturn i hkind, Bool.not_false, Bool.and_self, if_true]

/-- What does hold of the states that turns leave, in which no mark stands and no key is listed twice: a frozen package keeps all but
the model's own fields and the scan port. -/
theorem step_of_frozen {s t : State} (hfrozen : s.frozen = true) (hoff : s.off = false)
    (hreset : s.nextTurn.1 ≠ .event .packageReset) (hpower : s.nextTurn.1 ≠ .event .thermalPowerOff)
    (hmarks : ∀ p ∈ s.ctxs, p.2.rowMark = none ∧ p.2.smask = ((tfind s.ctxs p.1).map fun k => k.smask).getD 0)
    (hstep : step s = .next t) : t = { s with md := t.md, jtag := t.jtag } := by
  obtain ⟨rest, hnext⟩ := s.nextTurn_state
  by_cases hidle : ∀ i, s.nextTurn.1 = .event i → frozenStep i = false
  · rw [step_of_not_frozenStep hfrozen hoff hidle, hnext] at hstep
    cases hstep
    rfl
  · push Not at hidle
    obtain ⟨i, hturn, hi⟩ := hidle
    rw [step_of_frozenStep hturn (by simpa using hi) (.inl hoff)] at hstep
    obtain rfl | rfl | ⟨-, hscan⟩ := frozenStep_cases (by simpa using hi)
    · exact absurd hturn hreset
    · exact absurd hturn hpower
    · obtain ⟨j, hexec⟩ := hscan s.nextTurn.2
      have hmarked := State.marked_eq_self (s := s.nextTurn.2) (t := { s.nextTurn.2 with jtag := j }) (by rw [hnext]; exact hmarks)
      have hfrozen' : ({ s.nextTurn.2 with jtag := j } : State).frozen = true := by rw [hnext]; exact hfrozen
      rw [hexec, State.afterTurn, hmarked, State.elapse, if_pos hfrozen', hnext] at hstep
      cases hstep
      rfl

end Sys2Proof.Machine
end

