-- ==== Sys2Proof/Proofs/Links.lean ====
section
/-! SUPPORT. Flits, acknowledgements, resends and retraining of a port (R467, R468, R471 to R473). -/
namespace Sys2Proof.Machine

/-- The flits that a port keeps, cut at the first that has a number (R468). -/
theorem Link.cutAt_of_split {l : Link} {before after : List (Flit × Nat)} {q : Flit × Nat} (hkept : l.kept = before ++ q :: after)
    (hbefore : ∀ r ∈ before, r.1.seq ≠ q.1.seq) : l.cutAt q.1.seq = (before, q :: after) := by
  have hpass : ∀ r ∈ before, (r.1.seq != q.1.seq) = true := fun r hr => bne_iff_ne.mpr (hbefore r hr)
  rw [Link.cutAt, List.span_eq_takeWhile_dropWhile, hkept, List.takeWhile_append_of_pos hpass, List.dropWhile_append_of_pos hpass]
  simp

/-- Where no kept flit has a number, none lies behind the cut. -/
theorem Link.cutAt_of_absent {l : Link} {n : Word} (hkept : ∀ q ∈ l.kept, q.1.seq ≠ n) : (l.cutAt n).2 = [] := by
  rw [Link.cutAt, List.span_eq_takeWhile_dropWhile]
  exact List.dropWhile_eq_nil_iff.mpr fun q hq => bne_iff_ne.mpr (hkept q hq)

section Flit
variable {s : State} {port : BitVec 4} {flit : Flit} (hup : (s.link port.toNat).up = true)
include hup

/-- A good flit in sequence acts, and the next number is expected (R468). -/
theorem execLinkFlitReceive_of_good {t : State} (hgood : flit.good = true) (hseq : flit.seq = (s.link port.toNat).rxSeq)
    (hact : s.flitAct port.toNat flit.msg = some t) :
    execLinkFlitReceive port flit s = .next (t.linkUpd port.toNat fun l => { l with rxSeq := flit.seq + 1, asked := false }) := by
  simp only [execLinkFlitReceive, hup, hgood, hseq, hact, Bool.not_true, Bool.false_eq_true, if_false, ne_eq, not_true, decide_false,
    Bool.or_self]

/-- Any other has a resend asked for (R468). -/
theorem execLinkFlitReceive_of_bad (hbad : flit.good = false ∨ flit.seq ≠ (s.link port.toNat).rxSeq) :
    execLinkFlitReceive port flit s = .next (s.linkUpd port.toNat fun l => { l with asked := true }) := by
  have hcond : (!flit.good || decide (flit.seq ≠ (s.link port.toNat).rxSeq)) = true := by
    rcases hbad with hgood | hseq
    · rw [hgood, Bool.not_false, Bool.true_or]
    · rw [decide_eq_true hseq, Bool.or_true]
  simp only [execLinkFlitReceive, hup, hcond, Bool.not_true, Bool.false_eq_true, if_false, if_true]

end Flit

/-- The flits from a number on are sent again and counted (R468). -/
theorem execLinkResendRequest_of_split {s : State} {port : BitVec 4} {before after : List (Flit × Nat)} {q : Flit × Nat}
    (hup : (s.link port.toNat).up = true) (hkept : (s.link port.toNat).kept = before ++ q :: after)
    (hbefore : ∀ r ∈ before, r.1.seq ≠ q.1.seq) (hfew : ∀ r ∈ (s.link port.toNat).kept, r.2 < 15) :
    execLinkResendRequest port q.1.seq s = .next (s.setLink port.toNat { s.link port.toNat with
      kept := before ++ (q :: after).map fun r => (r.1, r.2 + 1)
      resends := min (2 ^ 32 - 1) ((s.link port.toNat).resends + (q :: after).length) }) := by
  have hheld : ((s.link port.toNat).kept.any fun r => r.1.seq == q.1.seq) = true := by
    rw [hkept]
    simp
  have hlast : ((before ++ (q :: after).map fun (r : Flit × Nat) => (r.1, r.2 + 1)).any fun r => decide (16 ≤ r.2)) = false := by
    rw [hkept] at hfew
    rw [List.any_eq_false]
    intro r hr
    rw [decide_eq_true_eq, not_le]
    rcases List.mem_append.mp hr with hr | hr
    · have := hfew r (List.mem_append_left _ hr)
      omega
    · obtain ⟨r', hr', rfl⟩ := List.mem_map.mp hr
      have := hfew r' (List.mem_append_right _ hr')
      omega
  simp only [execLinkResendRequest, hup, hheld, Link.cutAt_of_split hkept hbefore, hlast, Bool.not_true, Bool.or_self, Bool.false_eq_true,
    if_false]

/-- A remote copy that uses a port which has failed is lost (R471). -/
theorem State.portFail_lost {s : State} {p : Nat} {f : Xfer} (hf : f ∈ (s.portFail p).xfers) (hport : f.port = p) : f.lost = true := by
  obtain ⟨g, -, rfl⟩ := List.mem_map.mp hf
  by_cases hg : g.port = p
  · rw [if_pos hg]
  · rw [if_neg hg] at hport
    exact absurd hport hg

/-- Settles O60: what the kept flits are cut into at a number decides the acknowledgements and resends; the others are branches of
their row. -/
theorem linkEvents : Obligations.LinkEvents := by
  unfold Obligations.LinkEvents
  refine ⟨?good, ?bad, ?ack, ?ackNone, ?resend, ?loss, ?retrain, ?exhausted, ?switch, ?noSwitch, ?spent, ?failed⟩
  case good => exact fun s port flit t hup hgood hseq hact => execLinkFlitReceive_of_good hup hgood hseq hact
  case bad => exact fun s port flit hup hbad => execLinkFlitReceive_of_bad hup hbad
  case ack =>
    intro s port before q after hkept hbefore
    change execLinkAckReceive port q.1.seq s = _
    simp only [execLinkAckReceive, State.linkUpd, Link.cutAt_of_split hkept hbefore]
  case ackNone =>
    intro s port n hnone
    change execLinkAckReceive port n s = _
    simp only [execLinkAckReceive, State.linkUpd, Link.cutAt_of_absent hnone]
  case resend =>
    intro s port before q after l again hup hkept hbefore hfew
    rw [List.length_map]
    exact execLinkResendRequest_of_split hup hkept hbefore hfew
  case loss =>
    intro s port hup
    change execLinkLossOfSignal port s = _
    simp only [execLinkLossOfSignal, State.linkUpd, hup, if_true, Link.retrain]
  case retrain =>
    intro s port htraining l
    have hgo : ¬ (!l.retraining) = true := by rw [htraining]; decide
    exact ⟨(if_neg hgo).trans (if_pos rfl),
      fun hfew => (if_neg hgo).trans ((if_neg Bool.false_ne_true).trans (if_neg (not_le.mpr hfew))),
      fun hmany => (if_neg hgo).trans ((if_neg Bool.false_ne_true).trans (if_pos hmany))⟩
  case exhausted =>
    intro s port hspent
    change execLinkSequenceExhausted port s = _
    simp only [execLinkSequenceExhausted, hspent, if_true]
  case switch =>
    intro e l m hswitch
    have hnumber : l.txSeq = e.ksw := by
      simp only [Link.switches, Bool.and_eq_true, beq_iff_eq] at hswitch
      exact hswitch.2
    simp only [Link.sendOne, hswitch, if_true, Bool.not_true, Bool.and_false, hnumber, and_self]
  case noSwitch =>
    intro e l m hswitch
    simp only [Link.sendOne, hswitch, Bool.false_eq_true, if_false, Bool.not_false, Bool.and_true, and_self]
  case spent =>
    intro e l henc hswitch hlast
    rcases hlast with ⟨hseq, hnever⟩ | hunder
    · simp only [Link.spent, henc, hswitch, hseq, hnever, beq_self_eq_true, Bool.not_false, Bool.and_self, Bool.or_true]
    · simp only [Link.spent, henc, hswitch, decide_eq_true hunder, Bool.not_false, Bool.and_self, Bool.true_or]
  case failed =>
    intro s p
    have hlink : (s.portFail p).link p = (s.link p).fail := State.link_setLink s p _
    refine ⟨?_, ?_, fun f hf hport => State.portFail_lost hf hport, fun q hq => State.link_setLink_ne s p q _ hq⟩ <;> rw [hlink] <;> rfl

end Sys2Proof.Machine
end

