-- ==== Sys2Proof/Proofs/HostPort.lean ====
section
/-! SUPPORT. Mailbox messages, the aperture and the window, the scan port (R410, R458 to R464, R474, R475). -/
namespace Sys2Proof.Machine

/-! ## Bytes written over others -/

/-- A byte of memory after a run of bytes has been written, from place k of the run on. -/
theorem memByte_foldl_zipIdx (a x : Nat) (l : List Byte) (k : Nat) (m : List Host.Cell) :
    memByte ((l.zipIdx k).foldl (fun m p => memSet m (a + p.2) p.1) m) x =
      if a + k ≤ x ∧ x < a + k + l.length then l.getD (x - (a + k)) 0 else memByte m x := by
  induction l generalizing k m with
  | nil =>
    rw [if_neg (by simp only [List.length_nil]; omega)]
    rfl
  | cons b l ih =>
    rw [List.zipIdx_cons, List.foldl_cons, ih, List.length_cons]
    by_cases hx : x = a + k
    · subst hx
      rw [if_neg (by omega), if_pos (by omega), memByte_memSet_same, Nat.sub_self, List.getD_cons_zero]
    · rw [memByte_memSet_ne m (a + k) x b hx]
      by_cases hin : a + (k + 1) ≤ x ∧ x < a + (k + 1) + l.length
      · rw [if_pos hin, if_pos (by omega), show x - (a + k) = x - (a + (k + 1)) + 1 by omega, List.getD_cons_succ]
      · rw [if_neg hin, if_neg (by omega)]

/-- A byte of memory after a run of bytes has been written. -/
theorem memByte_memWrite (m : List Host.Cell) (a : Nat) (l : List Byte) (x : Nat) :
    memByte (memWrite m a l) x = if a ≤ x ∧ x < a + l.length then l.getD (x - a) 0 else memByte m x :=
  memByte_foldl_zipIdx a x l 0 m

/-- The bytes that are written over the first of others. -/
theorem overBytes_getD_lt {old new : List Byte} {i : Nat} (hi : i < new.length) : (overBytes old new).getD i 0 = new.getD i 0 :=
  List.getD_append _ _ _ _ hi

/-- The bytes behind them. -/
theorem overBytes_getD_ge {old new : List Byte} {i : Nat} (hi : new.length ≤ i) : (overBytes old new).getD i 0 = old.getD i 0 := by
  rw [overBytes, List.getD_append_right _ _ _ _ hi]
  simp only [List.getD_eq_getElem?_getD, List.getElem?_drop, Nat.add_sub_cancel' hi]

/-- At least the bytes that stood there. -/
theorem overBytes_length (old new : List Byte) : (overBytes old new).length = max old.length new.length := by
  rw [overBytes, List.length_append, List.length_drop]
  omega

/-! ## Messages (R460 to R463) -/

/-- What a message put in a mailbox leaves of the mailbox's bytes (R460). -/
theorem Mail.post_bytes (m : Mail) (put : List Byte) :
    (m.post put).go = true ∧ (m.post put).len = put.length % 512 ∧
    (∀ i < min put.length 256, (m.post put).bytes.getD i 0 = put.getD i 0) ∧
    (∀ i, min put.length 256 ≤ i → (m.post put).bytes.getD i 0 = m.bytes.getD i 0) := by
  have hlength : (put.take 256).length = min put.length 256 := by rw [List.length_take, min_comm]
  refine ⟨rfl, rfl, fun i hi => ?_, fun i hi => ?_⟩
  · refine (overBytes_getD_lt (by omega)).trans ?_
    simp only [List.getD_eq_getElem?_getD]
    rw [List.getElem?_take_of_lt (by omega)]
  · exact overBytes_getD_ge (by omega)

/-- The first bytes of an answer (R460). -/
def Mail.answerHead (m : Mail) (status : Byte) : List Byte :=
  leBytes 2 (m.type + 0x8000) ++ [status, 0] ++ leBytes 4 (msgField m.bytes 4 4)

/-- They stand at the start of the mailbox. -/
theorem Mail.answer_head (m : Mail) (a : Answer) : (m.answer a).bytes.take 8 = m.answerHead a.status := by
  have hlength : (m.answerHead a.status).length = 8 := rfl
  have hbytes : (m.answer a).bytes = (m.answerHead a.status ++ (a.body ++ m.bytes.drop (m.answerHead a.status ++ a.body).length)).take 256 := by
    rw [← List.append_assoc]
    rfl
  rw [hbytes, List.take_take, show min 8 256 = 8 from rfl, ← hlength, List.take_left]

/-- An answer leaves 256 bytes in the mailbox. -/
theorem Mail.answer_length {m : Mail} (a : Answer) (hbytes : m.bytes.length = 256) : (m.answer a).bytes.length = 256 := by
  have hover := overBytes_length m.bytes (m.answerHead a.status ++ a.body)
  refine (List.length_take ..).trans ?_
  change min 256 (overBytes m.bytes (m.answerHead a.status ++ a.body)).length = 256
  omega

/-- The mailbox of a function that has been answered. -/
theorem State.mailbox_answer (s : State) (fn : Nat) (a : Answer) : (s.answer fn a).mailbox fn = (s.mailbox fn).answer a :=
  State.mailbox_setMail s fn _

/-- A message that is sent where it may be, with its length and its fields right, passes its checks (R461). -/
theorem State.mailCheck_none {s : State} {msg : List Byte} {inRecovery permitted lenOk fieldsOk : Bool}
    (hrecovery : s.host.recovery = inRecovery) (hpermitted : permitted = true) (hlen : lenOk = true) (hreserved : msgField msg 2 2 = 0)
    (hfields : fieldsOk = true) : s.mailCheck msg inRecovery permitted lenOk fieldsOk = none := by
  simp only [State.mailCheck, hrecovery, hpermitted, hlen, hreserved, hfields, bne_self_eq_false, Bool.not_true, Bool.or_self,
    Bool.false_eq_true, if_false]

/-- One whose fields are not is answered with 0x03 (R461). -/
theorem State.mailCheck_fields {s : State} {msg : List Byte} {inRecovery permitted lenOk fieldsOk : Bool}
    (hrecovery : s.host.recovery = inRecovery) (hpermitted : permitted = true) (hfields : fieldsOk = false) :
    s.mailCheck msg inRecovery permitted lenOk fieldsOk = some 0x03 := by
  simp only [State.mailCheck, hrecovery, hpermitted, hfields, bne_self_eq_false, Bool.not_true, Bool.not_false, Bool.or_true,
    Bool.false_eq_true, if_false, if_true]

/-- During recovery the physical function alone sends messages (R462). -/
theorem State.fn_of_mailOpen {s : State} {fn : BitVec 6} (hopen : s.mailOpen fn.toNat = true) (hrecovery : s.host.recovery = true) :
    (fn == 0) = true := by
  simp only [State.mailOpen, hrecovery, if_true, beq_iff_eq] at hopen
  exact beq_iff_eq.mpr (BitVec.eq_of_toNat_eq hopen)

/-- The require bits after one of them has been written (R463). -/
theorem HostSt.setRequire_contains (h : HostSt) (vdev : Nat) (on : Bool) (v : Nat) :
    (h.setRequire vdev on).require.contains v = if v == vdev then on else h.require.contains v := by
  unfold HostSt.setRequire
  by_cases hv : v = vdev
  · subst hv
    cases on
    · simp
    · by_cases hheld : h.require.contains v = true <;> simp_all
  · have hne : (v == vdev) = false := beq_false_of_ne hv
    cases on
    · simp [hv]
    · by_cases hheld : h.require.contains vdev = true <;> simp_all

section Message
variable {s : State} {fn : BitVec 6} {put : List Byte} (hopen : s.mailOpen fn.toNat = true) (hgo : (s.mailbox fn.toNat).go = true)
  (hreserved : msgField (s.mailbox fn.toNat).msg 2 2 = 0)
include hopen hgo hreserved

/-- IMGPUT (R462). -/
theorem execImgput_answers (htype : (s.mailbox fn.toNat).type = 0x0001) (hrecovery : s.host.recovery = true)
    (hmin : 17 ≤ (s.mailbox fn.toNat).msg.length) (hmax : (s.mailbox fn.toNat).msg.length ≤ 256)
    (harea : msgField (s.mailbox fn.toNat).msg 8 8 + ((s.mailbox fn.toNat).msg.length - 16) ≤ 2 ^ 26) :
    execImgput fn put s = .next ((s.hostUpd fun h => { h with
      flash := memWrite h.flash (msgField (s.mailbox fn.toNat).msg 8 8) ((s.mailbox fn.toNat).msg.drop 16) }).answer fn.toNat (.plain 0)) := by
  have hoff : msgField (s.mailbox fn.toNat).msg 8 8 < 2 ^ 26 := by omega
  unfold execImgput
  refine (State.mailMsg_answers hopen hgo ?_ ?_).trans ?_
  · exact beq_iff_eq.mpr htype
  · refine State.mailCheck_none hrecovery (State.fn_of_mailOpen hopen hrecovery) ?_ hreserved ?_
    · rw [decide_eq_true hmin, decide_eq_true hmax, Bool.and_self]
    · rw [decide_eq_true hoff, decide_eq_true (show _ ≤ imageArea from harea), Bool.and_self]
  · rfl

/-- IMGGO (R462). -/
theorem execImggo_answers (htype : (s.mailbox fn.toNat).type = 0x0002) (hrecovery : s.host.recovery = true)
    (hlen : (s.mailbox fn.toNat).msg.length = 16) (harea : msgField (s.mailbox fn.toNat).msg 8 8 < 2 ^ 26) :
    let s1 := { s with host := { s.host with imageSize := msgField (s.mailbox fn.toNat).msg 8 8 } }
    execImggo fn put s = .next (if s1.host.imageGood then
      ({ s1 with host := { s1.host with recovery := false, boot := 2 } }).answer fn.toNat (.plain 0) else s1.answer fn.toNat (.plain 5)) := by
  intro s1
  refine (State.mailMsg_answers hopen hgo ?_ ?_).trans ?_
  · exact beq_iff_eq.mpr htype
  · exact State.mailCheck_none hrecovery (State.fn_of_mailOpen hopen hrecovery) (beq_iff_eq.mpr hlen) hreserved (decide_eq_true harea)
  change Host.Outcome.next (State.answer (if s1.host.imageGood = true then (_, _) else (_, s1)).2 _
    (if s1.host.imageGood = true then (_, _) else (_, s1)).1) = _
  by_cases hgood : s1.host.imageGood = true
  · rw [if_pos hgood, if_pos hgood]
    rfl
  · rw [if_neg hgood, if_neg hgood]

section Up
variable (hup : s.host.recovery = false)
include hup

/-- ATTEST (R475). -/
theorem execAttest_answers (htype : (s.mailbox fn.toNat).type = 0x0010) (hlen : (s.mailbox fn.toNat).msg.length = 40) :
    execAttest fn put s = .next (s.answer fn.toNat ⟨0, s.report (((s.mailbox fn.toNat).msg.drop 8).take 32)⟩) := by
  refine (State.mailMsg_answers hopen hgo ?_ ?_).trans ?_
  · exact beq_iff_eq.mpr htype
  · exact State.mailCheck_none hup rfl (beq_iff_eq.mpr hlen) hreserved rfl
  · rfl

/-- KEYADD (R463): a key that is no point of the curve is answered with 0x03. -/
theorem execKeyadd_answers (htype : (s.mailbox fn.toNat).type = 0x0020) (hfn : fn = 0) (hlen : (s.mailbox fn.toNat).msg.length = 80)
    (hslot : slotFieldsOk (s.mailbox fn.toNat).msg = true) :
    let key := ((s.mailbox fn.toNat).msg.drop 16).take 64
    execKeyadd fn put s = .next (if sm2OnCurve key then
      ({ s with host := { s.host with keys := tset [] s.host.keys (keySlot (s.mailbox fn.toNat).msg) key } }).answer 0 ⟨0, sm3 key⟩
      else s.answer 0 (.plain 3)) := by
  subst hfn
  intro key
  by_cases hcurve : sm2OnCurve key = true
  · rw [if_pos hcurve]
    unfold execKeyadd
    refine (State.mailMsg_answers hopen hgo ?_ ?_).trans ?_
    · exact beq_iff_eq.mpr htype
    · exact State.mailCheck_none hup rfl (beq_iff_eq.mpr hlen) hreserved (by rw [hslot, hcurve, Bool.and_self])
    · rfl
  · rw [if_neg hcurve]
    unfold execKeyadd
    refine (State.mailMsg_refuses (st := 0x03) hopen hgo ?_ ?_).trans ?_
    · exact beq_iff_eq.mpr htype
    · exact State.mailCheck_fields hup rfl (by rw [Bool.eq_false_iff.mpr hcurve, Bool.and_false])
    · rfl

/-- KEYDEL (R463). -/
theorem execKeydel_answers (htype : (s.mailbox fn.toNat).type = 0x0021) (hfn : fn = 0) (hlen : (s.mailbox fn.toNat).msg.length = 16)
    (hslot : slotFieldsOk (s.mailbox fn.toNat).msg = true) :
    execKeydel fn put s =
      .next (({ s with host := { s.host with keys := tset [] s.host.keys (keySlot (s.mailbox fn.toNat).msg) [] } }).answer 0 (.plain 0)) := by
  subst hfn
  refine (State.mailMsg_answers hopen hgo ?_ ?_).trans ?_
  · exact beq_iff_eq.mpr htype
  · exact State.mailCheck_none hup rfl (beq_iff_eq.mpr hlen) hreserved hslot
  · rfl

/-- SIGPOL (R463). -/
theorem execSigpol_answers {off : Nat} (htype : (s.mailbox fn.toNat).type = 0x0022) (hoff : msgField (s.mailbox fn.toNat).msg 8 8 = off)
    (hfn : fn = 0 ∨ (off % 64 = fn.toNat ∧ off.testBit 17 = false)) (hlen : (s.mailbox fn.toNat).msg.length = 16)
    (hmid : off / 64 % 2 ^ 10 = 0) (hhigh : off / 2 ^ 18 = 0) :
    let t := if off.testBit 17 then s.hostUpd fun h => h.setRequire (off % 64) (off.testBit 16) else s
    execSigpol fn put s = .next (t.answer fn.toNat ⟨0, leBytes 8 (b2n (t.host.require.contains (off % 64)))⟩) := by
  subst hoff
  have hpermitted : (fn == 0 || (msgField (s.mailbox fn.toNat).msg 8 8 % 64 == fn.toNat &&
      !(msgField (s.mailbox fn.toNat).msg 8 8).testBit 17)) = true := by
    rcases hfn with rfl | ⟨hown, hread⟩
    · rfl
    · rw [hown, hread, beq_self_eq_true, Bool.not_false, Bool.and_self, Bool.or_true]
  unfold execSigpol
  refine (State.mailMsg_answers hopen hgo ?_ ?_).trans ?_
  · exact beq_iff_eq.mpr htype
  · exact State.mailCheck_none hup hpermitted (beq_iff_eq.mpr hlen) hreserved (by rw [hmid, hhigh]; rfl)
  · rfl

/-- VERIFY (R463). -/
theorem execVerify_answers {vdev : Nat} (htype : (s.mailbox fn.toNat).type = 0x0023)
    (hvdev : msgField (s.mailbox fn.toNat).msg 8 8 = vdev) (hfn : fn = 0 ∨ vdev = fn.toNat)
    (hlen : (s.mailbox fn.toNat).msg.length = 144) (hdev : vdev < 64) :
    let part (n : Nat) : List Byte := ((s.mailbox fn.toNat).msg.drop n).take 32
    execVerify fn put s = .next (s.answer fn.toNat (.plain (s.verify vdev (part 0x10) (part 0x30) (part 0x50) (part 0x70)))) := by
  intro part
  have hmod : msgField (s.mailbox fn.toNat).msg 8 8 % 64 = vdev := by rw [hvdev, Nat.mod_eq_of_lt hdev]
  have hpermitted : (fn == 0 || msgField (s.mailbox fn.toNat).msg 8 8 % 64 == fn.toNat) = true := by
    rw [hmod]
    rcases hfn with rfl | hown
    · rfl
    · rw [hown, beq_self_eq_true, Bool.or_true]
  have hfields : decide (msgField (s.mailbox fn.toNat).msg 8 8 < 64) = true := by rw [hvdev]; exact decide_eq_true hdev
  rw [← hmod]
  unfold execVerify
  refine (State.mailMsg_answers hopen hgo ?_ ?_).trans ?_
  · exact beq_iff_eq.mpr htype
  · exact State.mailCheck_none hup hpermitted (beq_iff_eq.mpr hlen) hreserved hfields
  · rfl

end Up
end Message

/-! ## The aperture and the window (R459, R464) -/

/-- A read of translated pieces of which none is poisoned completes (R464). -/
theorem execApertureRead_of_ok {s s1 s2 : State} {fn : BitVec 6} {off : Word} {n va : Nat} {l : List (Xl × Nat × Nat)} {bytes : List Byte}
    (haperture : s.aperture fn.toNat off.toNat n = some va) (hreach : State.hostReach fn.toNat false (pagePieces va n) s = .ok l s1)
    (hread : State.hostBytes fn.toNat l s1 = (bytes, false, s2)) :
    execApertureRead fn off n s = .next { s2 with host := { s2.host with aborted := false, readData := bytes } } := by
  simp only [execApertureRead, haperture, hreach, hread, Bool.false_eq_true, if_false]
  rfl

/-- A write to one page is performed at the package point (R464). -/
theorem execApertureWrite_of_page {s s1 : State} {fn : BitVec 6} {off : Word} {bytes : List Byte} {va : Nat} {x : Xl}
    (haperture : s.aperture fn.toNat off.toNat bytes.length = some va) (hpage : pagePieces va bytes.length = [(va, bytes.length)])
    (hreach : s.hwReach fn.toNat va true = (.ok x, s1)) :
    execApertureWrite fn off bytes s = .next (((s1.pkgWrite ⟨0, fn.toNat, lfTag x.leaf, 0⟩ 1 (bySector (bytesAt (x.pa va) bytes))).aliens
      (secsOf (bySector (bytesAt (x.pa va) bytes)))).hostUpd fun h => { h with aborted := false }) := by
  simp only [execApertureWrite, haperture, hpage, State.hostReach, hreach, List.foldl_cons, List.foldl_nil, List.take_length]

/-- A write of the window that the function's pages hold is performed there (R459, R464). -/
theorem execHostWindowWrite_of_fits {s : State} {fn : BitVec 6} {off : BitVec 20} {bytes : List Byte} (hup : s.host.enabled = true)
    (hfits : off.toNat + bytes.length ≤ 2 ^ 16 * (s.ownedPages fn.toNat).length) :
    execHostWindowWrite ⟨fn, off⟩ bytes s = .next (s.rawWrite (bySector (bytes.zipIdx.map fun p =>
      (winBase + 2 ^ 16 * (s.ownedPages fn.toNat).getD ((off.toNat + p.2) / 2 ^ 16) 0 + (off.toNat + p.2) % 2 ^ 16, p.1)))) := by
  have hroom : (!s.host.enabled || decide (2 ^ 16 * (s.ownedPages fn.toNat).length < off.toNat + bytes.length)) = false := by
    rw [hup, decide_eq_false (not_lt.mpr hfits)]
    rfl
  simp only [execHostWindowWrite, hroom, Bool.false_eq_true, if_false]

/-- The pages that a function owns. -/
theorem State.mem_ownedPages {s : State} {fn p : Nat} :
    p ∈ s.ownedPages fn ↔ p < 16 ∧ bitAt (s.reg (0xF0000 + 8 * p)) 6 = true ∧ bits (s.reg (0xF0000 + 8 * p)) 0 6 = fn := by
  simp only [State.ownedPages, upTo, List.mem_filter, List.mem_range, ownerReg, Bool.and_eq_true, beq_iff_eq]

/-! ## The scan port (R410) -/

/-- A package that is not frozen reads out zeros. -/
theorem execChrd_of_running {s : State} (hrunning : s.frozen = false) :
    execChrd s = .next (s.jtagTo 0x21 (List.replicate (s.chainLen s.jtag.chain) 0)) := by
  simp only [execChrd, hrunning, Bool.false_eq_true, if_false, upTo, List.map_const', List.length_range]

/-- A frozen package reads out the scratchpad that a chain names. -/
theorem execChrd_of_scratchpad {s : State} (hfrozen : s.frozen = true) (hlow : 384 ≤ s.jtag.chain) (hhigh : s.jtag.chain < 576) :
    execChrd s =
      .next (s.jtagTo 0x21 ((upTo (3 * 2 ^ 20 / 8)).map fun i => W (leNat (s.spRead (s.jtag.chain - 384) (8 * i) 8)))) := by
  simp only [execChrd, State.chainLen, State.chainWord, hfrozen, if_true, if_neg (not_lt.mpr hlow), if_pos hhigh]

/-- Settles O59: each message by the row of its type, each access by whether it translates, each scan instruction by what it loads. -/
theorem hostPortEvents : Obligations.HostPortEvents := by
  unfold Obligations.HostPortEvents
  refine ⟨?posts, Mail.post_bytes, ?answers, ?answer, ?read, ?write, fun s fn off n => ?aperture, ?window,
    fun s fn p => State.mem_ownedPages, ?scan⟩
  case posts =>
    intro s fn put hopen m posts newType hgo
    have post (ty : Nat) (h : newType = ty) {bad f} : s.mailMsg fn put (· == ty) bad f = .next posts :=
      State.mailMsg_posts hopen hgo (beq_iff_eq.mpr h)
    refine ⟨?imgput, ?imggo, ?attest, ?keyadd, ?keydel, ?sigpol, ?verify, ?unknown⟩
    case imgput => exact fun h => show execImgput fn put s = _ by unfold execImgput; exact post 0x0001 h
    case imggo => exact fun h => show execImggo fn put s = _ by unfold execImggo; exact post 0x0002 h
    case attest => exact fun h => show execAttest fn put s = _ by unfold execAttest; exact post 0x0010 h
    case keyadd => exact fun h => show execKeyadd fn put s = _ by unfold execKeyadd; exact post 0x0020 h
    case keydel => exact fun h => show execKeydel fn put s = _ by unfold execKeydel; exact post 0x0021 h
    case sigpol => exact fun h => show execSigpol fn put s = _ by unfold execSigpol; exact post 0x0022 h
    case verify => exact fun h => show execVerify fn put s = _ by unfold execVerify; exact post 0x0023 h
    case unknown =>
      intro h
      change execMailboxUnknownType fn put s = _
      refine State.mailMsg_posts (mine := fun ty => !listedTypes.contains ty) hopen hgo ?_
      rw [Bool.not_eq_true', List.contains_eq_mem, decide_eq_false_iff_not]
      exact h
  case answers =>
    intro s fn put hopen hgo msg is key up off set_ part
    refine ⟨?imgput, ?imggo, ?attest, ?keyadd, ?keydel, ?sigpol, ?verify, ?unknown⟩
    case imgput =>
      rintro ⟨htype, hreserved⟩ hrecovery hmin hmax harea
      refine ⟨_, execImgput_answers hopen hgo hreserved htype hrecovery hmin hmax harea, rfl, fun i hi => ?_, fun a ha => ?_⟩
      · have hread := memByte_memWrite s.host.flash off (msg.drop 16) (off + i)
        rw [List.length_drop, if_pos (by omega), Nat.add_sub_cancel_left, List.getD_eq_getElem?_getD, List.getElem?_drop] at hread
        exact hread.trans List.getD_eq_getElem?_getD.symm
      · have hread := memByte_memWrite s.host.flash off (msg.drop 16) a
        rwa [List.length_drop, if_neg (by omega)] at hread
    case imggo => exact fun ⟨htype, hreserved⟩ hrecovery hlen harea => execImggo_answers hopen hgo hreserved htype hrecovery hlen harea
    case attest => exact fun ⟨htype, hreserved⟩ hup hlen => execAttest_answers hopen hgo hreserved hup htype hlen
    case keyadd => exact fun ⟨htype, hreserved⟩ hup hfn hlen hslot => execKeyadd_answers hopen hgo hreserved hup htype hfn hlen hslot
    case keydel => exact fun ⟨htype, hreserved⟩ hup hfn hlen hslot => execKeydel_answers hopen hgo hreserved hup htype hfn hlen hslot
    case sigpol =>
      rintro ⟨htype, hreserved⟩ hup hfn hlen hmid hhigh
      refine ⟨_, execSigpol_answers hopen hgo hreserved hup htype rfl hfn hlen hmid hhigh, ?_, fun v => ?_⟩
      · split <;> rfl
      · by_cases hset : off.testBit 17 = true
        · simp only [set_, hset, if_true, Bool.true_and]
          exact HostSt.setRequire_contains ..
        · simp only [set_, hset, Bool.false_and, Bool.false_eq_true, if_false]
    case verify =>
      rintro ⟨htype, hreserved⟩ hup hfn hlen hdev named
      refine (execVerify_answers hopen hgo hreserved hup htype rfl hfn hlen hdev).trans ?_
      simp only [State.verify, List.isEmpty_iff]
      rfl
    case unknown =>
      intro htype
      change execMailboxUnknownType fn put s = _
      refine State.mailMsg_refuses (mine := fun ty => !listedTypes.contains ty) hopen hgo ?_ rfl
      rw [Bool.not_eq_true', List.contains_eq_mem, decide_eq_false_iff_not]
      exact htype
  case answer =>
    intro s fn a hbytes old m
    have hm : m = old.answer a := s.mailbox_answer fn a
    rw [hm]
    exact ⟨rfl, rfl, rfl, Mail.answer_length a hbytes, Mail.answer_head old a⟩
  case read => exact fun s fn off n va l s1 bytes s2 haperture hreach hread => execApertureRead_of_ok haperture hreach hread
  case write =>
    exact fun s fn off bytes va x haperture hpage s1 hreach => ⟨_, execApertureWrite_of_page haperture hpage hreach, rfl, rfl⟩
  case aperture => simp only [State.aperture, apertureReg, Bool.and_eq_true, decide_eq_true_eq]
  case window => exact fun s fn off bytes hup hfits => execHostWindowWrite_of_fits hup hfits
  case scan =>
    intro s chain j
    exact ⟨rfl, rfl, ⟨_, rfl, rfl⟩, rfl, fun hrunning => ⟨_, execChrd_of_running hrunning⟩, execChrd_of_scratchpad⟩

end Sys2Proof.Machine
end

