-- ==== Sys2Proof/Proofs/ContextStops.lean ====
section
/-! SUPPORT. Stopping a context, its record and its answers, saving and restoring, the other bank (R400, R425 to R434, R449, R466). -/
namespace Sys2Proof.Machine

/-! ## A stop and its record (R425, R428) -/

/-- A stream of a context at rest: its delay is over, and sr.epc holds its resume slot where it does not hold its own trap's. -/
theorem Ctx.str_atRest (k : Ctx) (st : Stream) : k.atRest.str st = (k.str st).atRest (k.smask.getLsbD st.num) := by
  cases st <;> rfl

section Stop
variable {s : State} {x : CtxRef} {k : Ctx} (hctx : s.ctx? x = some k) (hsettled : s.settled x k = true)
include hctx hsettled

/-- A context that a fault has stopped gathers its record (R425, R428). -/
theorem exec_contextStopComplete_of_fault (hrun : k.run = .stopping true) : exec (.contextStopComplete x) s =
    .next { s.setCtx x { k.atRest with
        run := .stopped, unanswered := true, smask := 0, wmark := 0
        machineChecked := Stream.all.any fun st => k.smask.getLsbD st.num && (k.str st).cause == 0x62 } with
      frecs := s.frecs ++ [s.faultRec x k] } := by
  change execContextStopComplete x s = _
  simp only [execContextStopComplete, hctx, hrun, hsettled, if_true, State.stopDone]
  rfl

/-- One that is stopped for the other bank leaves the core to it (R431). -/
theorem exec_contextStopComplete_of_switch (hrun : k.run = .stopping false)
    (hruns : (s.setCtx x { k.atRest with run := .ready }).runsAt x = true)
    (hready : (s.setCtx x { k.atRest with run := .ready }).readyAt (otherBank x) = true)
    (hfree : (s.setCtx x { k.atRest with run := .ready }).barred (otherBank x) = false) :
    exec (.contextStopComplete x) s = .next ((s.setCtx x { k.atRest with run := .ready }).runBank (otherBank x)) := by
  change execContextStopComplete x s = _
  simp only [execContextStopComplete, hctx, hrun, hsettled, if_true, State.stopDone, Bool.false_eq_true, if_false, hruns, hready, hfree,
    Bool.not_false, Bool.and_self]

end Stop

/-- What a fault record says of a stream: its cause, sr.epc and sr.tval where its escalation stands in the record (R428). -/
def Ctx.reportSlot (k : Ctx) (st : Stream) : Word × Word × Word :=
  if k.reported st then ((k.str st).cause, (k.str st).epc, (k.str st).tval) else (0, 0, 0)

/-- The dwords of a fault record (R428). -/
theorem State.faultRec_words (s : State) (x : CtxRef) (k : Ctx) (st : Stream) :
    let w : Nat → Word := fun i => (s.faultRec x k).words.getD i 0
    let mine := k.smask.getLsbD st.num
    w 0 = W (x.core.toNat + b2n x.bank * 2 ^ 8 + k.smask.toNat * 2 ^ 12 + k.bd.vdev * 2 ^ 16) ∧ w 1 = k.bd.task ∧
    w (2 + 3 * st.num) = (if mine then (k.str st).cause else 0) ∧ w (3 + 3 * st.num) = (if mine then (k.str st).epc else 0) ∧
    w (4 + 3 * st.num) = (if mine then (k.str st).tval else 0) ∧ w 14 = W s.time ∧ w 15 = 0 := by
  intro w mine
  have hwords : (s.faultRec x k).words =
      [W (x.core.toNat + b2n x.bank * 2 ^ 8 + k.smask.toNat * 2 ^ 12 + k.bd.vdev * 2 ^ 16), k.bd.task] ++
        (Stream.all.flatMap fun st => let p := k.reportSlot st; [p.1, p.2.1, p.2.2]) ++ [W s.time, 0] := by
    simp only [State.faultRec, recWords, Nat.zero_mul, Nat.add_zero, List.flatMap_map]
    rfl
  have hslot : k.reportSlot st =
      (if mine then (k.str st).cause else 0, if mine then (k.str st).epc else 0, if mine then (k.str st).tval else 0) := by
    unfold Ctx.reportSlot Ctx.reported
    split <;> rfl
  simp only [w, hwords]
  refine ⟨rfl, rfl, ?_, ?_, ?_, rfl, rfl⟩
  · exact Eq.trans (by cases st <;> rfl) (congrArg (fun p : Word × Word × Word => p.1) hslot)
  · exact Eq.trans (by cases st <;> rfl) (congrArg (fun p : Word × Word × Word => p.2.1) hslot)
  · exact Eq.trans (by cases st <;> rfl) (congrArg (fun p : Word × Word × Word => p.2.2) hslot)

/-- The oldest record is written while the ring has room (R428). -/
theorem exec_faultRecordPost_of_room {s : State} {r : FRec} {rest : List FRec} (hrecs : s.frecs = r :: rest)
    (hroom : (bits (s.reg 0x50008) 0 32 + 2 ^ 32 - bits (s.reg 0x50008) 32 32) % 2 ^ 32 < 2 ^ bits (s.reg 0x50000) 0 5) :
    exec .faultRecordPost s = .next { (s.pkgPut (bits (s.reg 0x50000) 12 40 * 4096 +
        bits (s.reg 0x50008) 0 32 % 2 ^ bits (s.reg 0x50000) 0 5 * 128) (r.words.flatMap fun w => leBytes 8 w.toNat)).setReg 0x50008
          (W (bits (s.reg 0x50008) 32 32 * 2 ^ 32 + (bits (s.reg 0x50008) 0 32 + 1) % 2 ^ 32)) with frecs := rest } := by
  change execFaultRecordPost s = _
  simp only [execFaultRecordPost, hrecs, if_neg (not_le.mpr hroom)]

/-! ## Polpen's answers (R429) -/

/-- An answer changes no context. -/
theorem State.awaiting_answerReg {s : State} {x : CtxRef} {k : Ctx} (end_ : Bool) (status : Byte) (hctx : s.ctx? x = some k)
    (hrun : k.run = .stopped) (hopen : k.unanswered = true) : (s.answerReg x end_ status).awaiting x = some k := by
  have hsame : (s.answerReg x end_ status).ctx? x = s.ctx? x := by rw [State.ctx?, State.answerReg, State.setReg_ctxs, State.ctx?]
  simp only [State.awaiting, hsame, hctx, Option.filter_some, hrun, hopen, beq_self_eq_true, Bool.and_self, if_true]

section Answer
variable {s : State} {x : CtxRef} {k : Ctx} (hctx : s.ctx? x = some k) (hrun : k.run = .stopped) (hopen : k.unanswered = true)
include hctx hrun hopen

/-- A context that had no machine check goes on. -/
theorem exec_faultAnswerResume_of_unchecked (hcheck : k.machineChecked = false) :
    exec (.faultAnswerResume x) s = .next ((s.answerReg x false 0).resume x k) := by
  change execFaultAnswerResume x s = _
  simp only [execFaultAnswerResume, State.awaiting_answerReg false 0 hctx hrun hopen, hcheck, Bool.false_eq_true, if_false]

/-- One that had ends with its gang. -/
theorem exec_faultAnswerResume_of_checked (hcheck : k.machineChecked = true) :
    exec (.faultAnswerResume x) s = .next ((s.answerReg x false 0).endGang k.bd.vdev k.bd.task 255) := by
  change execFaultAnswerResume x s = _
  simp only [execFaultAnswerResume, State.awaiting_answerReg false 0 hctx hrun hopen, hcheck, if_true]

/-- An end by Polpen ends the gang with its status. -/
theorem exec_faultAnswerEnd_of_open (status : Byte) :
    exec (.faultAnswerEnd x status) s = .next ((s.answerReg x true status).endGang k.bd.vdev k.bd.task status) := by
  change execFaultAnswerEnd x status s = _
  simp only [execFaultAnswerEnd, State.awaiting_answerReg true status hctx hrun hopen]

end Answer

/-! ## The end of a context (R429) -/

/-- Ending a yielding wait halts no stream. -/
theorem Ctx.halted_wake (k : Ctx) (p : Instr → Bool) (st : Stream) : ((k.wake p).str st).halted = (k.str st).halted := by
  unfold Ctx.wake
  split
  · split
    · cases st <;> rfl
    · rfl
  · rfl

/-- Nor does the retirement of a command. -/
theorem Ctx.halted_retire (k : Ctx) (c : Cmd) (status : Nat) (value : Word) (aux : Nat) (sectors : List Nat) (st : Stream) :
    ((k.retire c status value aux sectors).str st).halted = (k.str st).halted := by
  unfold Ctx.retire Ctx.pushRec
  split
  · rw [Ctx.halted_wake]
    cases st <;> rfl
  · cases st <;> rfl

/-- Nor the delivery of a result. -/
theorem Ctx.halted_deliver (k : Ctx) (d : Dst) (v : Word) (valid : Bool) (st : Stream) :
    ((k.deliver d v valid).str st).halted = (k.str st).halted := by
  cases d <;> cases st <;> rfl

/-- Delivering a result leaves the engines. -/
theorem Ctx.eng_deliver (k : Ctx) (d : Dst) (v : Word) (valid : Bool) : (k.deliver d v valid).eng = k.eng := by
  cases d <;> rfl

/-- A command has started or not whatever is retired before it. -/
theorem Cmd.afterRetire_started (c d : Cmd) (fail : Bool) : (c.afterRetire fail d).started = d.started := by
  unfold Cmd.afterRetire
  split <;> rfl

/-- A command that is dropped because its context ends (R429). -/
def Ctx.dropCmd (k : Ctx) (c : Cmd) : Ctx := (k.deliver c.dst (BitVec.allOnes 64) false).retire c 0x02 c.notDone 0 []

/-- Dropping commands halts no stream. -/
theorem Ctx.halted_foldl_dropCmd (l : List Cmd) (st : Stream) (k : Ctx) :
    ((l.foldl Ctx.dropCmd k).str st).halted = (k.str st).halted := by
  induction l generalizing k with
  | nil => rfl
  | cons c l ih => rw [List.foldl_cons, ih, Ctx.dropCmd, Ctx.halted_retire, Ctx.halted_deliver]

/-- What is left where commands are dropped: commands of other numbers, started or not as they were. -/
theorem Ctx.mem_foldl_dropCmd (l : List Cmd) (k : Ctx) (d : Cmd) (hd : d ∈ (l.foldl Ctx.dropCmd k).eng.cmds) :
    ∃ e ∈ k.eng.cmds, e.started = d.started ∧ ∀ c ∈ l, e.seq ≠ c.seq := by
  induction l generalizing k with
  | nil => exact ⟨d, hd, rfl, fun c hc => absurd hc List.not_mem_nil⟩
  | cons c l ih =>
    obtain ⟨e, he, hstarted, hothers⟩ := ih (k.dropCmd c) hd
    rw [Ctx.dropCmd, Ctx.retire_cmds, Ctx.eng_deliver] at he
    obtain ⟨f, hf, rfl⟩ := List.mem_map.mp he
    obtain ⟨hmem, hne⟩ := List.mem_filter.mp hf
    rw [Cmd.afterRetire_started] at hstarted
    refine ⟨f, hmem, hstarted, fun c' hc' => ?_⟩
    rcases List.mem_cons.mp hc' with rfl | hc'
    · exact bne_iff_ne.mp hne
    · rw [← Cmd.afterRetire_seq c f (isFailure 0x02)]
      exact hothers c' hc'

/-- Every command that the drop leaves has started. -/
theorem Ctx.started_of_mem_dropCmds {k : Ctx} {d : Cmd} (hd : d ∈ k.dropCmds.eng.cmds) : d.started = true := by
  obtain ⟨e, he, hstarted, hothers⟩ := Ctx.mem_foldl_dropCmd _ k d hd
  rw [← hstarted]
  by_contra hnot
  exact hothers e (List.mem_filter.mpr ⟨he, by rw [Bool.eq_false_iff.mpr hnot]; rfl⟩) rfl

/-- A context that ends has halted, is ready, and keeps no command that has not started. -/
theorem Ctx.endNow_spec (k : Ctx) :
    k.endNow.allHalted = true ∧ k.endNow.run = .ready ∧ (∀ c ∈ k.endNow.eng.cmds, c.started = true) := by
  refine ⟨List.all_eq_true.mpr fun st _ => ?_, rfl, fun c hc => Ctx.started_of_mem_dropCmds hc⟩
  have hkept : (k.endNow.str st).halted =
      ((Stream.all.foldl (fun (k : Ctx) st => k.setStr st (k.str st).ended) k).dropCmds.str st).halted := by cases st <;> rfl
  refine hkept.trans ((Ctx.halted_foldl_dropCmd _ st _).trans ?_)
  cases st <;> rfl

/-! ## Machine checks and expanders that do not respond (R400, R466) -/

/-- A stream that escalates a cause which is no word's own: the stop of its context begins, and its next word is where it resumes. -/
theorem State.escalateAt_spec (s : State) (x : CtxRef) (k : Ctx) (st : Stream) (cause : BitVec 8) (tval : Word) :
    ∃ k', (s.escalateAt x k st cause tval).ctx? x = some k' ∧ k'.run = .stopping true ∧ k'.smask = k.smask ||| (1 <<< st.num) ∧
      k'.str st = { k.str st with cause := cause.setWidth 64, tval := tval, epc := epcMask (k.str st).pc, waiting := none } := by
  let m : Mach := ⟨{ s with md := { s.md with cur := x, curSt := st } }, k, st⟩
  exact ⟨_, State.ctx?_setCtx _ x _, Mach.escalate_run m .., Mach.escalate_smask m .., Mach.escalate_t m ..⟩

/-- A machine check escalates (R400). -/
theorem exec_machineCheck_of_alive {s : State} {x : CtxRef} {k : Ctx} {st : Stream} (hctx : s.ctx? x = some k) (halive : k.alive st = true) :
    exec (.machineCheck x st) s = .next (s.escalateAt x k st 0x62 0) := by
  change execMachineCheck x st s = _
  simp only [execMachineCheck, hctx, halive, if_true]

section Expander
variable {s : State} {x : CtxRef} {k : Ctx} (hctx : s.ctx? x = some k)
include hctx

/-- A context that Polpen has ended lets go of its accesses. -/
theorem exec_cxlExpanderTimeout_of_ended (st : Stream) (hended : s.isEnded k = true) :
    exec (.cxlExpanderTimeout x st none) s = .next (s.setCtx x (s.dropDead x k)) := by
  change execCxlExpanderTimeout x st none s = _
  simp only [execCxlExpanderTimeout, hctx, hended, if_true]

/-- The stream of an access escalates with cause 0x63. -/
theorem exec_cxlExpanderTimeout_of_access {st : Stream} {va : Nat} (hruns : s.isEnded k = false) (hdead : s.deadAccess x k st = some va)
    (halive : k.alive st = true) : exec (.cxlExpanderTimeout x st none) s = .next (s.escalateAt x k st 0x63 (W va)) := by
  change execCxlExpanderTimeout x st none s = _
  simp only [execCxlExpanderTimeout, hctx, hruns, hdead, halive, Bool.false_eq_true, if_false, if_true]

/-- A window fill becomes a fault of its row. -/
theorem exec_cxlExpanderTimeout_of_fill {f : Fill} {va : Nat} (hruns : s.isEnded k = false) (hnone : s.deadAccess x k .A = none)
    (hfill : s.fillDead x k = some (f, va)) :
    exec (.cxlExpanderTimeout x .A none) s = .next ((s.setCtx x (k.fillFault f 0x63 va false)).cxlSettle x) := by
  change execCxlExpanderTimeout x .A none s = _
  simp only [execCxlExpanderTimeout, hctx, hruns, hnone, hfill, Bool.false_eq_true, if_false, if_true]

/-- A command ends. -/
theorem exec_cxlExpanderTimeout_of_command (st : Stream) {seq : BitVec 16} {c : Cmd} (hcmd : k.cmd? seq = some c)
    (hdead : s.cmdDead x k c = true) :
    (c.opc ≠ 0x5C → s.xfer? x c.seq = none →
      exec (.cxlExpanderTimeout x st (some seq)) s = .next (s.retireCmd x k c 0x10 0 c.progress [])) ∧
    (∀ f, c.opc ≠ 0x5C → s.xfer? x c.seq = some f → exec (.cxlExpanderTimeout x st (some seq)) s = .next (s.remoteEnd x k c f 0x10)) ∧
    (∀ va c' s1 k', c.opc = 0x5C → State.pagesIn x k (c.o2.toNat - c.acts) s c = .wait va c' s1 →
      (s1.pageUndo (stoveOf x.core.toNat) k c').ctx? x = some k' → exec (.cxlExpanderTimeout x st (some seq)) s =
        .next ((s1.pageUndo (stoveOf x.core.toNat) k c').retireCmd x k' c' 0x10 va c'.aux [])) := by
  have hends : exec (.cxlExpanderTimeout x st (some seq)) s = .next (s.cmdTimeout x k c) := State.withCmd_of_bound hctx hcmd rfl
  rw [hends]
  simp only [State.cmdTimeout, hdead, Bool.not_true, Bool.false_eq_true, if_false]
  refine ⟨fun hopc hxfer => ?_, fun f hopc hxfer => ?_, fun va c' s1 k' hopc hpages hctx' => ?_⟩
  · rw [if_neg hopc, hxfer]
  · rw [if_neg hopc, hxfer]
  · rw [if_pos hopc, hpages]
    simp only [hctx', Option.map_some, Option.getD_some]

end Expander

/-! ## Saving and restoring (R434) -/

/-- A save waits until every context of the gang has stopped, and then takes the context out of its bank. -/
theorem exec_contextSave_of_bound {s : State} {x : CtxRef} {k : Ctx} (hctx : s.ctx? x = some k) (harea : isHbm s.saveArea = true) :
    let s1 := s.gangMap k Ctx.hold
    let s2 := (s1.writeArea x k.leaving s.saveArea).unbind x
    (s1.gangStopping k = true → exec (.contextSave x) s = .next (s1.saveEnd x true)) ∧
    (s1.gangStopping k = false →
      exec (.contextSave x) s = .next ({ s2 with saved := s2.saved ++ [(⟨x, s.saveArea, k.leaving⟩ : Saved)] }.saveEnd x false)) := by
  intro s1 s2
  change (_ → execContextSave x s = _) ∧ (_ → execContextSave x s = _)
  simp only [execContextSave, hctx, harea, Bool.not_true, Bool.false_eq_true, if_false]
  exact ⟨fun hstopping => if_pos hstopping, fun hstopped => if_neg (Bool.eq_false_iff.mp hstopped)⟩

/-- A restore brings back what the area and the device hold of the context, if the area is right and the bank admits it. -/
theorem exec_contextRestore_of_saved {s : State} {x : CtxRef} {p : Saved} (hsaved : s.savedAt x (s.areaGet s.saveArea) = some p)
    (hfree : s.ctx? x = none) (harea : isHbm s.saveArea = true) (hbank : bitAt (s.areaGet s.saveArea 0) 8 = x.bank) :
    let g := s.areaGet s.saveArea
    let e := p.k.overlay true g
    let s1 := { s with saved := s.saved.filter fun (q : Saved) => !(some q == some p) }
    let s2 := s1.mem fun m => { m with l1 := m.l1.filter fun q => q.1 / 2 ^ 46 != x.core.toNat }
    exec (.contextRestore x) s =
      .next (if s.areaOk x p.k e g && !s.restoreClash x true e then (s2.comeBack x { e with run := e.backRun }).restoreEnd x false
        else s.restoreEnd x true) := by
  intro g e s1 s2
  change execContextRestore x s = _
  simp only [execContextRestore, hsaved, Option.map_some, Option.some_or, Option.isSome_some, hfree, Option.isSome_none, harea, hbank,
    Bool.not_true, bne_self_eq_false, Bool.or_self, Bool.false_or]
  by_cases hok : s.areaOk x p.k e g = true <;> by_cases hclash : s.restoreClash x true e = true
  all_goals
    simp only [g, e] at hok hclash
    simp only [g, e, s2, s1, hok, hclash]
    rfl

/-! ## The other bank (R431, R449) -/

/-- A quantum that is over stops the running context where the other bank's is ready. -/
theorem exec_quantumRunEnd_of_ready {s : State} {core : BitVec 8} {k : Ctx}
    (hctx : s.ctx? ⟨core, tget 0 s.running core.toNat == 1⟩ = some k) (hrun : k.run = .ready)
    (hready : s.readyAt (otherBank ⟨core, tget 0 s.running core.toNat == 1⟩) = true)
    (hfree : s.barred (otherBank ⟨core, tget 0 s.running core.toNat == 1⟩) = false) :
    exec (.quantumRunEnd core) s = .next (s.setCtx ⟨core, tget 0 s.running core.toNat == 1⟩ { k with run := .stopping false }) := by
  change execQuantumRunEnd core s = _
  simp only [execQuantumRunEnd, hctx, hrun, hready, hfree, beq_self_eq_true, Bool.not_false, Bool.and_self, if_true]

/-- A slot of the calendar stops the running context that it bars. -/
theorem State.slotSwitch_of_bound {s : State} {core : Nat} {k : Ctx}
    (hctx : s.ctx? ⟨BitVec.ofNat 8 core, tget 0 s.running core == 1⟩ = some k) :
    s.slotSwitch core = (if k.run = .ready ∧ s.barred ⟨BitVec.ofNat 8 core, tget 0 s.running core == 1⟩ = true then
      s.setCtx ⟨BitVec.ofNat 8 core, tget 0 s.running core == 1⟩ { k with run := .stopping false } else s) := by
  simp only [State.slotSwitch, hctx, Bool.and_eq_true, beq_iff_eq]

/-- Settles O54: each clause is what its row does on the branch that the hypotheses name. -/
theorem contextsStopAndGoOn : Obligations.ContextsStopAndGoOn := by
  unfold Obligations.ContextsStopAndGoOn
  refine ⟨fun s x k hctx hrun hsettled => exec_contextStopComplete_of_fault hctx hsettled hrun, State.faultRec_words, ?switch, ?rest,
    fun s r rest hrecs hroom => exec_faultRecordPost_of_room hrecs hroom, ?resume,
    fun s x k hctx hrun hopen hcheck => exec_faultAnswerResume_of_checked hctx hrun hopen hcheck,
    fun s x k status hctx hrun hopen => exec_faultAnswerEnd_of_open hctx hrun hopen status, Ctx.endNow_spec, ?check, ?access,
    fun s x k f va hctx hruns hnone hfill => exec_cxlExpanderTimeout_of_fill hctx hruns hnone hfill,
    fun s x k st hctx hended => exec_cxlExpanderTimeout_of_ended hctx st hended,
    fun s x k seq c hctx hcmd hdead st => exec_cxlExpanderTimeout_of_command hctx st hcmd hdead,
    fun s x k hctx harea => exec_contextSave_of_bound hctx harea, ?unbound,
    fun s x p hsaved hfree harea hbank => exec_contextRestore_of_saved hsaved hfree harea hbank,
    fun s core k hctx hrun hready hfree => exec_quantumRunEnd_of_ready hctx hrun hready hfree, fun _ => rfl,
    fun s core k hctx => State.slotSwitch_of_bound hctx⟩
  case switch =>
    exact fun s x k hctx hrun hsettled hruns hready hfree => exec_contextStopComplete_of_switch hctx hsettled hrun hruns hready hfree
  case rest =>
    intro k st
    rw [Ctx.str_atRest]
    refine ⟨rfl, rfl, rfl, rfl⟩
  case resume =>
    intro s x k hctx hrun hopen hcheck s' u k'
    rw [exec_faultAnswerResume_of_unchecked hctx hrun hopen hcheck]
    refine ⟨fun hfault => ?_, fun st c va hfault => ?_⟩ <;> simp only [State.resume, s', hfault] at hfault ⊢ <;> rfl
  case check =>
    intro s x k st hctx halive
    obtain ⟨k', hctx', hrun, hsmask, hstr⟩ := s.escalateAt_spec x k st 0x62 0
    refine ⟨_, k', exec_machineCheck_of_alive hctx halive, hctx', hrun, hsmask, ?_, ?_, ?_, ?_⟩ <;> rw [hstr] <;> rfl
  case access =>
    intro s x k st va hctx hruns hdead halive
    obtain ⟨k', hctx', hrun, -, hstr⟩ := s.escalateAt_spec x k st 0x63 (W va)
    refine ⟨_, k', exec_cxlExpanderTimeout_of_access hctx hruns hdead halive, hctx', hrun, ?_, ?_⟩
    · rw [hstr]
      rfl
    · rw [hstr]
  case unbound =>
    intro s x hfree
    change execContextSave x s = _
    simp only [execContextSave, hfree]

end Sys2Proof.Machine
end

