-- ==== Sys2Proof/Proofs/CanonTurn.lean ====
section
/-! SUPPORT. O13, first layer: what the step predicates say, and that translation, fetching and the end of a word keep memory and
scratchpad in their canonical form. -/
namespace Sys2Proof.Machine

variable {α β : Type}

/-! ## The canonical form along a result -/

/-- A step that goes on leaves memory and scratchpad canonical. -/
def OutWf (r : Out) : Prop :=
  match r with
  | .next s => s.ms.wf
  | _ => True

/-- The result of a body leaves memory and scratchpad canonical; where it is a function, the function keeps them so. -/
def ResWf (r : Res) : Prop :=
  match r with
  | .done m | .stay m | .trapAfter m _ _ | .trapIn m _ _ | .hold m _ => m.s.ms.wf
  | .trapWith f _ _ | .park _ f => ∀ m : Mach, m.s.ms.wf → (f m).s.ms.wf
  | .trap _ _ | .wait _ => True

/-- A state, where there is one, has its memory and scratchpad canonical. -/
def OptWf (r : Option State) : Prop := ∀ s ∈ r, s.ms.wf

/-- The first component of a pair whose state is canonical names a canonical state too. -/
theorem wf_of_eq {p : α × State} {a : α} {t : State} (h : p = (a, t)) (w : p.2.ms.wf) : t.ms.wf := by
  subst h; exact w

/-- The same for a state in third place. -/
theorem wf_of_eq₃ {p : α × β × State} {a : α} {b : β} {t : State} (h : p = (a, b, t)) (w : p.2.2.ms.wf) : t.ms.wf := by
  subst h; exact w

/-- Of two canonical states either is. -/
theorem ite_wf {c : Prop} [Decidable c] {s t : State} (ws : s.ms.wf) (wt : t.ms.wf) : (if c then s else t).ms.wf :=
  iteInduction (motive := fun s : State => s.ms.wf) (fun _ => ws) fun _ => wt

theorem optWf_some {s : State} (w : s.ms.wf) : OptWf (some s) := by
  intro t h; cases h; exact w

theorem optWf_none : OptWf none := fun _ h => absurd h (Option.not_mem_none _)

/-- A change that keeps canonical states canonical, of the state that there may be. -/
theorem optWf_map {r : Option State} {f : State → State} (w : OptWf r) (h : ∀ s : State, s.ms.wf → (f s).ms.wf) : OptWf (r.map f) := by
  cases r with
  | none => exact optWf_none
  | some s => exact optWf_some (h s (w s rfl))

theorem optWf_bind {r : Option State} {f : State → Option State} (w : OptWf r) (h : ∀ s : State, s.ms.wf → OptWf (f s)) :
    OptWf (r.bind f) := by
  cases r with
  | none => exact optWf_none
  | some s => exact h s (w s rfl)

/-- The state that there is, or a canonical one. -/
theorem getD_wf {r : Option State} {s : State} (wr : OptWf r) (ws : s.ms.wf) : (r.getD s).ms.wf := by
  cases r with
  | none => exact ws
  | some t => exact wr t rfl

/-! ## Translation (R411 to R423) -/

theorem walkFrom_wf (va : Nat) (l : List Nat) (t : Nat) (s : State) (w : s.ms.wf) : (walkFrom va l t s).2.ms.wf := by
  induction l generalizing t s with
  | nil => exact w
  | cons lvl rest ih =>
    have h := s.pkgWord_wf (t + 8 * walkIndex lvl va) w
    unfold walkFrom
    dsimp only
    split
    · exact w
    · split
      · exact h
      · split
        · exact h
        · split
          · split
            · exact h
            · split
              · exact h
              · exact h
          · split
            · exact h
            · exact ih _ _ h

theorem State.walk_wf (s : State) (vdev va : Nat) (w : s.ms.wf) : (s.walk vdev va).2.ms.wf := by
  unfold State.walk
  dsimp only
  split
  · exact w
  · exact walkFrom_wf va _ _ s w

theorem State.coreHold_wf (s : State) (core vdev : Nat) (x : Xl) (w : s.ms.wf) : (s.coreHold core vdev x).ms.wf := w

theorem State.stoveHold_wf (s : State) (stove vdev : Nat) (x : Xl) (w : s.ms.wf) : (s.stoveHold stove vdev x).ms.wf := w

theorem State.tlbHold_wf (s : State) (core vdev : Nat) (x : Xl) (w : s.ms.wf) : (s.tlbHold core vdev x).ms.wf := w

theorem State.xlateStove_wf (s : State) (stove vdev va : Nat) (bad : Word → Bool) (w : s.ms.wf) :
    (s.xlateStove stove vdev va bad).2.ms.wf := by
  unfold State.xlateStove
  split
  · exact w
  · split
    next h => exact State.stoveHold_wf _ _ _ _ (wf_of_eq h (s.walk_wf vdev va w))
    next h => exact wf_of_eq h (s.walk_wf vdev va w)

theorem State.xlateFor_wf (s : State) (core vdev va : Nat) (bad : Word → Bool) (w : s.ms.wf) :
    (s.xlateFor core vdev va bad).2.ms.wf := by
  unfold State.xlateFor
  split
  · exact w
  · split
    next h => exact State.coreHold_wf _ _ _ _ (wf_of_eq h (s.xlateStove_wf _ vdev va bad w))
    next h => exact wf_of_eq h (s.xlateStove_wf _ vdev va bad w)

theorem State.xlate_wf (s : State) (core vdev va : Nat) (w : s.ms.wf) : (s.xlate core vdev va).2.ms.wf := s.xlateFor_wf core vdev va _ w

theorem State.adUpdate_wf (s : State) (x : Xl) (wr : Bool) (w : s.ms.wf) : (s.adUpdate x wr).2.2.ms.wf := by
  unfold State.adUpdate
  split
  · exact w
  · dsimp only
    split
    · exact State.leafPut_wf _ _ _ (s.pkgWord_wf x.pte w)
    · exact s.pkgWord_wf x.pte w

theorem State.reachN_wf (fuel : Nat) (s : State) (core vdev va : Nat) (n : Need) (w : s.ms.wf) :
    (State.reachN fuel s core vdev va n).2.ms.wf := by
  induction fuel generalizing s with
  | zero => exact w
  | succ fuel ih =>
    have hx := s.xlateFor_wf core vdev va n.bars w
    unfold State.reachN
    split
    next h => exact wf_of_eq h hx
    next h => exact wf_of_eq h hx
    next x s' h =>
      have w' := wf_of_eq h hx
      split
      · exact w'
      · split
        · exact w'
        · split
          next h => exact wf_of_eq₃ h (s'.adUpdate_wf x n.wr w')
          next h => exact ih _ (wf_of_eq₃ h (s'.adUpdate_wf x n.wr w'))

theorem State.reach_wf (s : State) (core vdev va : Nat) (n : Need) (w : s.ms.wf) : (s.reach core vdev va n).2.ms.wf :=
  State.reachN_wf 2 s core vdev va n w

theorem State.look_wf (s : State) (core : Nat) (k : Ctx) (va : Word) (n : Need) (w : s.ms.wf) : (s.look core k va n).2.ms.wf := by
  have hr := s.reach_wf core k.bd.vdev va.toNat n w
  unfold State.look
  split
  next h => exact wf_of_eq h hr
  next h => exact wf_of_eq h hr
  next h =>
    split
    · exact wf_of_eq h hr
    · exact wf_of_eq h hr

theorem State.pathBytes_wf (s : State) (p : Path) (a : Acc) (pa n : Nat) (w : s.ms.wf) : (s.pathBytes p a pa n).2.2.ms.wf :=
  foldl_keeps (fun r : List Byte × Bool × State => r.2.2.ms.wf) _ (fun r sec h => r.2.2.pathRead_wf p a sec h) _ _ w

theorem State.poisonAt_wf (s : State) (t : Target) (n : Nat) (w : s.ms.wf) : (s.poisonAt t n).2.ms.wf := s.pathBytes_wf _ _ _ _ w

/-! ## Fetching, and what passes with every step (R57, R143) -/

theorem Mach.fetchAt_wf (m : Mach) (a : Word) (w : m.s.ms.wf) : (m.fetchAt a).2.s.ms.wf := by
  have hr := m.s.reach_wf m.x.core.toNat m.k.bd.vdev a.toNat Need.fetch w
  unfold Mach.fetchAt
  split
  · exact w
  · dsimp only
    split
    next h => exact wf_of_eq h hr
    next h => exact wf_of_eq h hr
    next h =>
      split
      · exact wf_of_eq h hr
      · exact wf_of_eq h hr

@[simp] theorem State.pass_ms (s : State) (dt : Nat) : (s.pass dt).ms = s.ms := rfl

theorem State.elapse_wf (s : State) (w : s.ms.wf) : s.elapse.ms.wf := ite_wf (s := s) w w

theorem State.nextTurn_wf (s : State) (w : s.ms.wf) : s.nextTurn.2.ms.wf := by
  unfold State.nextTurn
  split
  · exact w
  · exact w

theorem State.marked_wf (s0 s : State) (w : s.ms.wf) : (s0.marked s).ms.wf := w

/-! ## The end of a word: what it does to its context is no change of memory -/

theorem Mach.leave_wf (m : Mach) (n : Note) (w : m.s.ms.wf) : (m.leave n).ms.wf := w

@[simp] theorem Mach.pushPA_s (m : Mach) (code : BitVec 2) : (m.pushPA code).s = m.s := by
  unfold Mach.pushPA
  dsimp only
  split
  · rfl
  · rfl

@[simp] theorem Mach.payOwed_s (m : Mach) : m.payOwed.s = m.s := by
  unfold Mach.payOwed
  split
  · rfl
  · exact m.pushPA_s _

@[simp] theorem Mach.retire_s (m : Mach) (h : Hdr) : (m.retire h).s = m.s := Mach.pushPA_s _ _

@[simp] theorem Mach.saveProg_s (m : Mach) : m.saveProg.s = m.s := by
  unfold Mach.saveProg
  split
  · rfl
  · dsimp only
    split
    · rfl
    · split
      · rfl
      · rfl
      · rfl
      · rfl

@[simp] theorem Mach.takeTrap_s (m : Mach) (c : BitVec 8) (v a : Word) : (m.takeTrap c v a).s = m.s := by
  unfold Mach.takeTrap
  dsimp only
  split
  · rfl
  · split
    · rfl
    · exact m.saveProg_s

@[simp] theorem Mach.afresh_s (m : Mach) : m.afresh.s = m.s := by
  unfold Mach.afresh
  dsimp only
  split
  · rfl
  · rfl

@[simp] theorem Mach.offerSwitch_s (m : Mach) : m.offerSwitch.s = m.s := by
  unfold Mach.offerSwitch
  split
  · rfl
  · rfl

@[simp] theorem Mach.offerIfIdle_s (m : Mach) : m.offerIfIdle.s = m.s := by
  unfold Mach.offerIfIdle
  split
  · rfl
  · split
    · rfl
    · exact m.offerSwitch_s

@[simp] theorem Mach.put_s (m : Mach) (x : BitVec 6) (act : Bool) (v : Word) (valid : Bool) : (m.put x act v valid).s = m.s := by
  unfold Mach.put
  split
  · rfl
  · split
    · rfl
    · rfl

theorem Mach.trapped_wf (m : Mach) (c : BitVec 8) (v a : Word) (n : Note) (w : m.s.ms.wf) : ((m.takeTrap c v a).leave n).ms.wf := by
  rw [← m.takeTrap_s c v a] at w
  exact w

theorem Mach.finish_wf (m : Mach) (h : Hdr) (r : Res) (w : m.s.ms.wf) (hr : ResWf r) : (m.finish h r).ms.wf := by
  cases r with
  | done m' =>
    refine Mach.leave_wf _ _ ?_
    rw [Mach.retire_s]; exact hr
  | stay m' =>
    refine Mach.leave_wf _ _ ?_
    rw [Mach.pushPA_s]; exact hr
  | trapAfter m' c v =>
    refine Mach.trapped_wf _ _ _ _ _ ?_
    rw [Mach.retire_s]; exact hr
  | trap c v => exact m.trapped_wf _ _ _ _ w
  | trapWith f c v => exact (f m).trapped_wf _ _ _ _ (hr m w)
  | trapIn m' c v => exact m'.trapped_wf _ _ _ _ hr
  | wait y => exact w
  | hold m' y => exact hr
  | park y f => exact hr m w

/-- A word keeps memory canonical when its body does. -/
theorem Mach.issueIn_wf (m : Mach) (i : Instr) (h : Hdr) (p : Ports) (body : Mach → Opnds → Res) (w : m.s.ms.wf)
    (hbody : ∀ (m : Mach) (a : Opnds), m.s.ms.wf → ResWf (body m a)) : (m.issueIn i h p body).ms.wf := by
  rw [← m.payOwed_s] at w
  unfold Mach.issueIn
  generalize m.payOwed = m at w
  refine ite_wf w (ite_wf w (ite_wf w (ite_wf w ?_)))
  generalize hm' : ((m.str fun t => { t with wakeAt := none }).ctx fun k => if m.st == .A then { k with fenced := false } else k) = m'
  have w' : m'.s.ms.wf := by rw [← hm']; exact w
  have wa : m'.afresh.s.ms.wf := by rw [Mach.afresh_s]; exact w'
  dsimp only
  split
  · split
    · exact m'.trapped_wf _ _ _ _ w'
    · exact w'
  · split
    · exact m'.trapped_wf _ _ _ _ w'
    · split
      · exact m'.finish_wf h _ w' (hbody m' _ w')
      · split
        · exact Mach.trapped_wf _ _ _ _ _ wa
        · split
          · exact wa
          · exact Mach.finish_wf _ h _ wa (hbody _ _ wa)

theorem State.turnTo_wf (s : State) (x : CtxRef) (w : s.ms.wf) : (s.turnTo x).2.ms.wf := by
  unfold State.turnTo
  split
  · exact w
  · split
    · exact w
    · split
      · exact w
      · split
        · exact w
        · split
          · exact w
          · exact w

theorem Mach.enter_wf (s : State) (w : s.ms.wf) : (Mach.enter s).2.ms.wf := by
  unfold Mach.enter
  split
  · exact w
  · split
    · exact s.turnTo_wf _ w
    · exact w

/-- The machine at hand, where the stream can issue, is canonical. -/
theorem Mach.enter_some_wf {s : State} {m : Mach} {t : State} (h : Mach.enter s = (some m, t)) (w : s.ms.wf) : m.s.ms.wf := by
  unfold Mach.enter at h
  split at h
  · simp at h
  · split at h
    · have ht := s.turnTo_wf s.md.cur w
      simp only [Prod.mk.injEq, Option.ite_none_right_eq_some, Option.some.injEq] at h
      obtain ⟨⟨_, rfl⟩, _⟩ := h
      exact ht
    · simp at h

theorem issueWord_wf {i : Instr} {h : Hdr} {p : Ports} {body : Mach → Opnds → Res} {s : State} (w : s.ms.wf)
    (hbody : ∀ (m : Mach) (a : Opnds), m.s.ms.wf → ResWf (body m a)) : OutWf (issueWord i h p body s) := by
  unfold issueWord
  split
  next he =>
    have we := wf_of_eq he (Mach.enter_wf s w)
    exact we
  next m _ he => exact m.issueIn_wf i h p body (Mach.enter_some_wf he w) hbody

end Sys2Proof.Machine
end

