-- ==== Sys2Proof/Proofs/CanonWords.lean ====
section
/-! SUPPORT. O13: the scalar words, the special registers, heads and tapes, and the vector words keep memory canonical. -/
namespace Sys2Proof.Machine

variable {i : Instr} {h : Hdr} {s : State}

/-! ## Parts of a body -/

theorem ite_resWf {c : Prop} [Decidable c] {r q : Res} (wr : ResWf r) (wq : ResWf q) : ResWf (if c then r else q) :=
  iteInduction (fun _ => wr) fun _ => wq

theorem ite_machWf {c : Prop} [Decidable c] {m n : Mach} (wm : m.s.ms.wf) (wn : n.s.ms.wf) : (if c then m else n).s.ms.wf :=
  iteInduction (motive := fun m : Mach => m.s.ms.wf) (fun _ => wm) fun _ => wn

/-- A word that ends by writing a scalar result. -/
theorem resWf_done_put {m : Mach} (x : BitVec 6) (act : Bool) (v : Word) (valid : Bool) (w : m.s.ms.wf) :
    ResWf (.done (m.put x act v valid)) := by
  rw [← m.put_s x act v valid] at w
  exact w

/-! ## Scalar words (spec/06) -/

theorem runBin_wf (o : S3) (f : Word → Word → Word) (w : s.ms.wf) : OutWf (runBin i h o f s) :=
  issueWord_wf w fun _ _ => resWf_done_put _ _ _ _

theorem runUn_wf (o : S3) (f : Word → Word) (w : s.ms.wf) : OutWf (runUn i h o f s) :=
  issueWord_wf w fun _ _ => resWf_done_put _ _ _ _

theorem runImm_wf (o : SI) (f : Word → Word) (w : s.ms.wf) : OutWf (runImm i h o f s) :=
  issueWord_wf w fun _ _ => resWf_done_put _ _ _ _

theorem execLi_wf (o : SI) (w : s.ms.wf) : OutWf (execLi h o s) := issueWord_wf w fun _ _ => resWf_done_put _ _ _ _
theorem execBfi_wf (o : S3) (w : s.ms.wf) : OutWf (execBfi h o s) := issueWord_wf w fun _ _ => resWf_done_put _ _ _ _
theorem execFshl_wf (o : S3) (w : s.ms.wf) : OutWf (execFshl h o s) := issueWord_wf w fun _ _ => resWf_done_put _ _ _ _
theorem execFshr_wf (o : S3) (w : s.ms.wf) : OutWf (execFshr h o s) := issueWord_wf w fun _ _ => resWf_done_put _ _ _ _
theorem execSel_wf (o : S3) (w : s.ms.wf) : OutWf (execSel h o s) := issueWord_wf w fun _ _ => resWf_done_put _ _ _ _

theorem cmpBody_wf (dst : BitVec 6) (mk : Bool) (gd : Nat) (t : Word → Word → Bool) (m : Mach) (a : Opnds) (w : m.s.ms.wf) :
    ResWf (cmpBody dst mk gd t m a) := by
  have h := resWf_done_put dst a.act (W (b2n (t (a.v 0) (a.v 1)))) a.valid w
  exact ite_machWf h (ite_machWf h h)

theorem execCmp_wf (o : S3) (w : s.ms.wf) : OutWf (execCmp h o s) := issueWord_wf w (cmpBody_wf _ _ _ _)
theorem execCmpi_wf (o : SI) (w : s.ms.wf) : OutWf (execCmpi h o s) := issueWord_wf w (cmpBody_wf _ _ _ _)

theorem gopBody_wf (o : S3) (m : Mach) (a : Opnds) (w : m.s.ms.wf) : ResWf (gopBody o m a) :=
  ite_resWf (ite_machWf w w) (ite_resWf (resWf_done_put _ _ _ _ w) (ite_machWf w w))

theorem execGop_wf (o : S3) (w : s.ms.wf) : OutWf (execGop h o s) := issueWord_wf w (gopBody_wf o)

/-! ## Flags and special registers (R51 to R55, R144) -/

theorem Mach.raise_wf (m : Mach) (f : BitVec 5) (w : m.s.ms.wf) : (m.raise f).s.ms.wf := ite_machWf w w

theorem Mach.count_wf (m : Mach) (tid : Nat) (evs : List Ev) (w : m.s.ms.wf) : (m.count tid evs).s.ms.wf := ite_machWf w w

theorem Mach.afterFlags_wf (m : Mach) (f : BitVec 5) (w : m.s.ms.wf) : ResWf (m.afterFlags f) :=
  ite_resWf (m.raise_wf f w) (ite_resWf (m.raise_wf f w) (ite_resWf (m.raise_wf f w) (m.raise_wf f w)))

theorem Mach.srSeen_wf (m : Mach) (n : Nat) (w : m.s.ms.wf) : (m.srSeen n).s.ms.wf := ite_machWf w w

theorem execSrr_wf (o : SI) (w : s.ms.wf) : OutWf (execSrr h o s) :=
  issueWord_wf w fun m _ w => resWf_done_put _ _ _ _ (ite_machWf (m.srSeen_wf _ w) w)

theorem Mach.srwInject_wf (m : Mach) (v : Word) (w : m.s.ms.wf) : ResWf (m.srwInject v) :=
  ite_resWf w (ite_resWf w (ite_resWf w w))

theorem execSrw_wf (o : SI) (w : s.ms.wf) : OutWf (execSrw h o s) :=
  issueWord_wf w fun m a w =>
    ite_resWf (ite_resWf w w) (ite_resWf (fun _ w => w) (ite_resWf w (ite_resWf (m.srwInject_wf (a.v 0) w) w)))

/-! ## Tapes and their heads (spec/08) -/

@[simp] theorem State.postEvent_ms (s : State) (x : CtxRef) (cls detail : Nat) (value : Word) : (s.postEvent x cls detail value).ms = s.ms := by
  unfold State.postEvent
  split
  · rfl
  · dsimp only
    split
    · rfl
    · split
      · rfl
      · rfl

theorem State.pkgDwords_wf (s : State) (a : Acc) (pa n : Nat) (w : s.ms.wf) : (s.pkgDwords a pa n).2.2.ms.wf :=
  foldl_keeps (fun r : List Word × Bool × State => r.2.2.ms.wf) _ (fun r _ h => r.2.2.pkgRead_wf a _ h) _ _ w

theorem State.entryAt_wf (s : State) (core vdev va : Nat) (wr : Bool) (w : s.ms.wf) : (s.entryAt core vdev va wr).2.ms.wf := by
  have hr := s.reach_wf core vdev va (Need.dir wr) w
  unfold State.entryAt
  split
  next h => exact wf_of_eq h hr
  next h => exact wf_of_eq h hr
  next x s' h =>
    have w' := wf_of_eq h hr
    split
    · exact w'
    · have hd := s'.pkgDwords_wf ⟨core, vdev, lfTag x.leaf, 0⟩ (x.pa va) 16 w'
      dsimp only
      split
      · exact hd
      · exact hd

theorem State.tapeEntry_wf (s : State) (core : Nat) (k : Ctx) (handle : Nat) (wr : Bool) (w : s.ms.wf) :
    (s.tapeEntry core k handle wr).2.ms.wf := by
  unfold State.tapeEntry
  split
  · exact w
  next va _ =>
    have he := s.entryAt_wf core k.bd.vdev va wr w
    split
    next h => exact wf_of_eq h he
    · exact he

theorem State.descPut_wf (s : State) (t : Target) (i : Nat) (v : Word) (w : s.ms.wf) : (s.descPut t i v).ms.wf :=
  foldl_keeps (fun s : State => s.ms.wf) _ (fun s _ h => s.pkgWrite_wf _ _ _ h) _ s w

theorem State.descPutAll_wf (s : State) (t : Target) (ws : List Word) (w : s.ms.wf) : (s.descPutAll t ws).ms.wf :=
  foldl_keeps (fun s : State => s.ms.wf) _ (fun s _ h => s.descPut_wf _ _ _ h) _ s w

theorem State.aliens_wf (s : State) (l : List Nat) (w : s.ms.wf) : (s.aliens l).ms.wf := w

theorem State.pageList_wf (s : State) (core vdev : Nat) (d : Desc) (page : Nat) (w : s.ms.wf) :
    (s.pageList core vdev d page).2.ms.wf := by
  have hr := s.reach_wf core vdev (d.plist + 8 * page) ⟨true, false, false, some maskHd, none⟩ w
  unfold State.pageList
  dsimp only
  split
  next h => exact wf_of_eq h hr
  next h => exact wf_of_eq h hr
  next h =>
    have w' := wf_of_eq h hr
    split
    · exact w'
    · split
      · exact State.pkgRead_wf _ _ _ w'
      · exact State.pkgRead_wf _ _ _ w'

theorem State.headPage_wf (s : State) (core vdev : Nat) (d : Desc) (h : Head) (p : Piece) (w : s.ms.wf) :
    (s.headPage core vdev d h p).2.ms.wf := by
  have hl := s.pageList_wf core vdev d p.page w
  unfold State.headPage
  dsimp only
  split
  next e => exact wf_of_eq e hl
  next e => exact wf_of_eq e hl
  next base _ s' e =>
    have hx := s'.xlateFor_wf core vdev (base + p.off) (fun e => h.need.bars e || (lfTier e == 1 && !lfSt e)) (wf_of_eq e hl)
    split
    next e => exact wf_of_eq e hx
    next e => exact wf_of_eq e hx
    next e =>
      have w' := wf_of_eq e hx
      split
      · exact w'
      · split
        · exact w'
        · split
          · exact w'
          · split
            · exact w'
            · exact w'

theorem State.headTranslate_wf (s : State) (x : CtxRef) (k : Ctx) (n : Nat) (w : s.ms.wf) : (s.headTranslate x k n).ms.wf := by
  unfold State.headTranslate
  dsimp only
  split
  · exact w
  · split
    · exact w
    next d _ =>
      split
      · exact w
      next p _ =>
        split
        · exact w
        · have hp := s.headPage_wf x.core.toNat k.bd.vdev d (k.head n).retry p w
          split
          next e => exact wf_of_eq e hp
          next e =>
            have w' := wf_of_eq e hp
            exact w'
          next e =>
            have w' := wf_of_eq e hp
            split
            · rw [State.postEvent_ms]; exact w'
            · exact w'

theorem State.headBytes_wf (s : State) (core vdev since : Nat) (g : PageReg) (off n : Nat) (w : s.ms.wf) :
    (s.headBytes core vdev since g off n).2.2.ms.wf :=
  foldl_keeps (fun r : List Byte × Bool × State => r.2.2.ms.wf) _ (fun r _ h => r.2.2.pkgRead_wf _ _ h) _ _ w

theorem State.headAd_wf (s : State) (wr : Bool) (l : List (Piece × PageReg)) (w : s.ms.wf) : (s.headAd wr l).2.ms.wf :=
  foldl_keeps (fun r : Bool × State => r.2.ms.wf) _ (fun r _ h => r.2.adUpdate_wf _ wr h) _ _ w

theorem State.flueFetch_wf (s : State) (x : CtxRef) (k : Ctx) (n : Nat) (w : s.ms.wf) : (s.flueFetch x k n).ms.wf := by
  unfold State.flueFetch
  dsimp only
  split
  · exact w
  · split
    · exact w
    · exact w
    next d t _ =>
      split
      · exact w
      · split
        · exact w
        next l _ =>
          split
          · exact w
          · have ha := s.headAd_wf false l w
            split
            next e =>
              have w' := wf_of_eq e ha
              exact w'
            next s' e =>
              rw [State.setCtx_ms]
              refine foldl_keeps (fun r : List Byte × Bool × State => r.2.2.ms.wf) _ (fun r q h => ?_) l _ (wf_of_eq e ha)
              exact r.2.2.headBytes_wf _ _ _ _ _ _ h

theorem execFluePageTranslate_wf (x : CtxRef) (hd : BitVec 4) (w : s.ms.wf) : OutWf (execFluePageTranslate x hd s) := by
  unfold execFluePageTranslate
  split
  · exact w
  next k _ => exact s.headTranslate_wf x k _ w

theorem execFlueFetch_wf (x : CtxRef) (hd : BitVec 4) (w : s.ms.wf) : OutWf (execFlueFetch x hd s) := by
  unfold execFlueFetch
  split
  · exact w
  next k _ => exact s.flueFetch_wf x k _ w

/-! ## Consuming a record (R193) -/

/-- What consuming a record comes to leaves memory canonical. -/
def EatWf (e : Eat) : Prop :=
  match e with
  | .got _ _ m | .zero _ m | .skip _ m => m.s.ms.wf
  | .trap f _ _ => ∀ m : Mach, m.s.ms.wf → (f m).s.ms.wf
  | .wait _ => True

theorem Mach.notHeld_wf (m : Mach) (n : Nat) (d : Desc) (r : Nat) : EatWf (m.notHeld n d r) := by
  unfold Mach.notHeld
  dsimp only
  split
  · trivial
  · split
    · trivial
    · trivial
    · split
      · exact fun _ w => w
      · trivial

theorem Mach.await_stop_wf {m : Mach} {n : Nat} {d : Desc} {r : Nat} {e : Eat} (h : m.await n d r = .stop e) : EatWf e := by
  unfold Mach.await at h
  dsimp only at h
  split at h
  · cases h; trivial
  · split at h
    · cases h; exact m.notHeld_wf n d r
    · split at h
      · cases h; exact fun _ w => w
      · split at h
        · cases h
        · cases h; exact fun _ w => w

theorem Mach.eat_wf (m : Mach) (n : Nat) (u : HeadUse) (w : m.s.ms.wf) : EatWf (m.eat n u) := by
  unfold Mach.eat
  split
  · exact w
  · exact w
  · split
    next e => exact Mach.await_stop_wf e
    · split
      · exact fun _ w => w
      · exact w

theorem Mach.consume_wf (m : Mach) (n : Nat) (act : Bool) (use : Desc → Bool) (w : m.s.ms.wf) : EatWf (m.consume n act use) := by
  unfold Mach.consume
  split
  · exact fun _ w => w
  · exact m.eat_wf n _ w

/-! ## The words on heads and tapes -/

theorem Mach.mover_wf (m : Mach) (n : Nat) (f : Head → Desc → Head) (w : m.s.ms.wf) : ResWf (m.mover n f) :=
  ite_resWf trivial (ite_resWf trivial w)

theorem execHstep_wf (o : H) (w : s.ms.wf) : OutWf (execHstep h o s) :=
  issueWord_wf w fun m _ w => ite_resWf (m.mover_wf _ _ w) w

theorem execHmark_wf (o : H) (w : s.ms.wf) : OutWf (execHmark h o s) :=
  issueWord_wf w fun m _ w => ite_resWf (m.mover_wf _ _ w) w

theorem execHrew_wf (o : H) (w : s.ms.wf) : OutWf (execHrew h o s) :=
  issueWord_wf w fun m _ w => ite_resWf (m.mover_wf _ _ w) w

theorem execHstat_wf (o : H) (w : s.ms.wf) : OutWf (execHstat h o s) := issueWord_wf w fun _ _ => resWf_done_put _ _ _ _

theorem hbindBody_wf (o : H) (m : Mach) (a : Opnds) (w : m.s.ms.wf) : ResWf (hbindBody o m a) := by
  have he := m.s.tapeEntry_wf m.core m.k (a.v 0).toNat true w
  unfold hbindBody
  dsimp only
  refine ite_resWf w (ite_resWf trivial ?_)
  split
  · trivial
  · trivial
  next d t s e =>
    have wd := s.descPut_wf t 9 (W ((d.nheads + 1) % 256)) (wf_of_eq e he)
    exact ite_resWf trivial (ite_resWf trivial (ite_resWf trivial (ite_wf (State.descPut_wf _ _ 8 _ wd) wd)))

theorem execHbind_wf (o : H) (w : s.ms.wf) : OutWf (execHbind h o s) := issueWord_wf w (hbindBody_wf o)

/-- A context and a state, where there are any: the state is canonical. -/
def CtxOptWf (r : Option (Ctx × State)) : Prop := ∀ p ∈ r, p.2.ms.wf

theorem State.unbindHead_wf (s : State) (core : Nat) (k : Ctx) (n : Nat) (w : s.ms.wf) : CtxOptWf (s.unbindHead core k n) := by
  have he := s.tapeEntry_wf core k (k.head n).handle true w
  unfold State.unbindHead
  dsimp only
  intro p hp
  split at hp
  · cases hp; exact w
  · split at hp
    next d t s e =>
      cases hp
      have wd := s.descPut_wf t 9 (W ((d.nheads + 255) % 256)) (wf_of_eq e he)
      exact ite_wf (State.descPut_wf _ _ 8 0 wd) wd
    next e => cases hp; exact wf_of_eq e he
    · cases hp

theorem State.unbindHeads_wf (s : State) (core : Nat) (k : Ctx) (w : s.ms.wf) : CtxOptWf (s.unbindHeads core k) := by
  refine foldl_keeps CtxOptWf _ (fun r n hr => ?_) _ _ ?_
  · cases r with
    | none => exact fun _ h => absurd h (Option.not_mem_none _)
    | some p => exact p.2.unbindHead_wf core p.1 n (hr p rfl)
  · intro p hp; cases hp; exact w

theorem hunbBody_wf (o : H) (m : Mach) (a : Opnds) (w : m.s.ms.wf) : ResWf (hunbBody o m a) := by
  have hu := m.s.unbindHead_wf m.core m.k o.hd.toNat w
  unfold hunbBody
  dsimp only
  refine ite_resWf w (ite_resWf trivial ?_)
  split
  next e => exact hu _ e
  · trivial

theorem execHunb_wf (o : H) (w : s.ms.wf) : OutWf (execHunb h o s) := issueWord_wf w (hunbBody_wf o)

theorem State.freeEntry_wf (core : Nat) (k : Ctx) (fuel : Nat) (s : State) (n : Nat) (w : s.ms.wf) :
    (s.freeEntry core k fuel n).2.ms.wf := by
  induction fuel generalizing s n with
  | zero => exact w
  | succ fuel ih =>
    unfold State.freeEntry
    split
    · exact w
    next va _ =>
      have he := s.entryAt_wf core k.bd.vdev va false w
      split
      next e => exact wf_of_eq e he
      next e => exact ih _ _ (wf_of_eq e he)
      next s' e =>
        have w' := wf_of_eq e he
        have he' := s'.entryAt_wf core k.bd.vdev va true w'
        split
        · split
          next e => exact wf_of_eq e he'
          next e => exact wf_of_eq e he'
          next e => exact wf_of_eq e he'
        · exact ih _ _ w'

theorem topenBody_wf (o : S3) (m : Mach) (a : Opnds) (w : m.s.ms.wf) : ResWf (topenBody o m a) := by
  have hl := m.s.look_wf m.core m.k (a.v 0) m.k.needLd w
  unfold topenBody
  dsimp only
  refine ite_resWf (resWf_done_put _ _ _ _ w) (ite_resWf trivial ?_)
  split
  · trivial
  · trivial
  next t s e =>
    have wb := s.pathBytes_wf t.path t.acc t.pa 128 (wf_of_eq e hl)
    have hf := State.freeEntry_wf m.core m.k (2 ^ bits m.k.sr.tdir 58 5) _ 1 wb
    refine ite_resWf trivial (ite_resWf trivial (ite_resWf trivial (ite_resWf trivial (ite_resWf trivial ?_))))
    split
    · trivial
    · trivial
    next e => exact resWf_done_put _ _ _ _ (State.descPutAll_wf _ _ _ (wf_of_eq e hf))

theorem execTopen_wf (o : S3) (w : s.ms.wf) : OutWf (execTopen h o s) := issueWord_wf w (topenBody_wf o)

theorem Mach.package_wf (m : Mach) (f : State → State) (hf : ∀ s : State, s.ms.wf → (f s).ms.wf) (w : m.s.ms.wf) :
    (m.package f).s.ms.wf := by
  unfold Mach.package
  dsimp only
  split
  · exact hf _ w
  · exact hf _ w

theorem tsealBody_wf (o : S3) (m : Mach) (a : Opnds) (w : m.s.ms.wf) : ResWf (tsealBody o m a) := by
  have he := m.s.tapeEntry_wf m.core m.k (a.v 0).toNat true w
  unfold tsealBody
  dsimp only
  refine ite_resWf (resWf_done_put _ _ _ _ w) ?_
  split
  · trivial
  · trivial
  next d t s e =>
    split
    · trivial
    · refine ite_resWf trivial (resWf_done_put _ _ _ _ ?_)
      have wd := s.descPut_wf t 0 (sealCtl d.ctl (o.fn.toNat % 4) (o.fn.getLsbD 2)) (wf_of_eq e he)
      refine ite_machWf (Mach.package_wf _ _ (fun _ w => w) ?_) ?_ <;>
        exact ite_wf (State.descPut_wf _ _ 9 0 (ite_wf wd (State.descPut_wf _ _ 1 _ wd))) wd

theorem execTseal_wf (o : S3) (w : s.ms.wf) : OutWf (execTseal h o s) := issueWord_wf w (tsealBody_wf o)

theorem tstatBody_wf (o : S3) (m : Mach) (a : Opnds) (w : m.s.ms.wf) : ResWf (tstatBody o m a) := by
  have he := m.s.tapeEntry_wf m.core m.k (a.v 0).toNat false w
  unfold tstatBody
  dsimp only
  refine ite_resWf (resWf_done_put _ _ _ _ w) ?_
  split
  · trivial
  · trivial
  next e => exact resWf_done_put _ _ _ _ (wf_of_eq e he)

theorem execTstat_wf (o : S3) (w : s.ms.wf) : OutWf (execTstat h o s) := issueWord_wf w (tstatBody_wf o)

/-! ## Vector words (spec/07) -/

/-- What reading vector sources comes to leaves memory canonical. -/
def VReadWf (r : VRead) : Prop :=
  match r with
  | .ok _ m => m.s.ms.wf
  | .stop r => ResWf r

theorem Mach.vread_wf (act : Bool) (n : Nat) (fs : List VField) (m : Mach) (rows : List RowEnt) (w : m.s.ms.wf) :
    VReadWf (m.vread act n fs rows) := by
  induction fs generalizing m rows with
  | nil => exact w
  | cons f fs ih =>
    have next_wf (v : VSrc) (m : Mach) (rows : List RowEnt) (w : m.s.ms.wf) :
        VReadWf (match Mach.vread m act n fs rows with
          | .ok vs m => VRead.ok (v :: vs) m
          | .stop r => .stop r) := by
      have h := ih m rows w
      split
      next e => rw [e] at h; exact h
      next e => rw [e] at h; exact h
    unfold Mach.vread
    dsimp only
    split
    · exact next_wf _ _ _ w
    · split
      · exact next_wf _ _ _ w
      · split
        · have hc := m.consume_wf (vNum f.spec) act (vUsable f.ty) w
          split
          next e => trivial
          next e => rw [e] at hc; exact hc
          next e => rw [e] at hc; exact next_wf _ _ _ hc
          next e => rw [e] at hc; exact next_wf _ _ _ hc
          next e => rw [e] at hc; exact next_wf _ _ _ hc
        · split
          · exact next_wf _ _ _ w
          · exact next_wf _ _ _ w

theorem vIn_wf (o : V3) (fs : List VField) (rowsOnly : Bool) (m : Mach) (a : Opnds) (body : Mach → VIn → Res) (w : m.s.ms.wf)
    (hbody : ∀ (m : Mach) (v : VIn), m.s.ms.wf → ResWf (body m v)) : ResWf (vIn h o fs rowsOnly m a body) := by
  have hr := m.vread_wf a.act (if rowsOnly then 1 else 16) fs a.rows w
  unfold vIn
  split
  · trivial
  · dsimp only
    split
    next e => rw [e] at hr; exact hr
    next e => rw [e] at hr; exact hbody _ _ hr

theorem runV_wf {o : V3} {fs : List VField} {three rowsOnly : Bool} {body : Mach → VIn → Res} (w : s.ms.wf)
    (hbody : ∀ (m : Mach) (v : VIn), m.s.ms.wf → ResWf (body m v)) : OutWf (runV i h o fs three rowsOnly body s) :=
  issueWord_wf w fun m a w => vIn_wf o fs rowsOnly m a body w hbody

theorem Mach.putV_wf (m : Mach) (o : V3) (v : VIn) (valid : BitVec 64) (rows : List Row) (w : m.s.ms.wf) :
    (m.putV o v valid rows).s.ms.wf := ite_machWf w w

theorem Mach.vEnd_wf (m : Mach) (lfsr : BitVec 32) (evs : List Ev) (fl : BitVec 5) (w : m.s.ms.wf) : ResWf (m.vEnd lfsr evs fl) :=
  Mach.afterFlags_wf _ fl (Mach.count_wf _ _ _ w)

theorem elemBody_wf {o : V3} {three : Bool} {ws : List Nat} {mode : Nat} {f : Mach → List Nat → Nat → RRes} {m : Mach} {v : VIn}
    (w : m.s.ms.wf) : ResWf (elemBody o three ws mode f m v) :=
  Mach.vEnd_wf _ _ _ _ (ite_machWf w (m.putV_wf o v _ _ w))

theorem runArith_wf (o : V3) (n : Nat) (ff : Nat → List FVal → FVal × BitVec 5) (fi : List Int → Int) (w : s.ms.wf) :
    OutWf (runArith i h o n ff fi s) := runV_wf w fun _ _ => elemBody_wf

theorem runPick_wf (o : V3) (larger : Bool) (w : s.ms.wf) : OutWf (runPick i h o larger s) := runV_wf w fun _ _ => elemBody_wf

theorem runCode_wf (o : V3) (n : Nat) (f : Nat → List Nat → Nat) (w : s.ms.wf) : OutWf (runCode i h o n f s) :=
  runV_wf w fun _ _ => elemBody_wf

theorem runSpecial_wf (o : V3) (fn : Nat) (w : s.ms.wf) : OutWf (runSpecial i h o fn s) := runV_wf w fun _ _ => elemBody_wf

theorem execVcvt_wf (o : V3) (w : s.ms.wf) : OutWf (execVcvt h o s) := runV_wf w fun _ _ => elemBody_wf

theorem execVtbl_wf (o : V3) (w : s.ms.wf) : OutWf (execVtbl h o s) := runV_wf w fun _ _ => elemBody_wf

theorem execVcmp_wf (o : V3) (w : s.ms.wf) : OutWf (execVcmp h o s) := runV_wf w fun _ _ w => Mach.afterFlags_wf _ _ w

theorem execKop_wf (o : V3) (w : s.ms.wf) : OutWf (execKop h o s) := issueWord_wf w fun _ _ w => w

theorem execKpop_wf (o : V3) (w : s.ms.wf) : OutWf (execKpop h o s) := issueWord_wf w fun _ _ w => ite_machWf w w

theorem execKmov_wf (o : V3) (w : s.ms.wf) : OutWf (execKmov h o s) := runV_wf w fun _ _ w => w

theorem execVsel_wf (o : V3) (w : s.ms.wf) : OutWf (execVsel h o s) := runV_wf w fun _ _ w => ite_machWf w w

theorem execVqmx_wf (o : V3) (w : s.ms.wf) : OutWf (execVqmx h o s) :=
  runV_wf w fun m v w => Mach.vEnd_wf _ _ _ _ (m.putV_wf o v _ _ w)

theorem execVtblw_wf (o : V3) (w : s.ms.wf) : OutWf (execVtblw h o s) := runV_wf w fun _ _ w => w

theorem runMove_wf (o : V3) (block : Bool) (n : Mach → Int) (from_ : Int → Nat → Nat → Nat × Nat) (w : s.ms.wf) :
    OutWf (runMove i h o block n from_ s) := runV_wf w fun m v w => m.putV_wf o v _ _ w

theorem execVspl_wf (o : V3) (w : s.ms.wf) : OutWf (execVspl h o s) := runV_wf w fun _ _ w => ite_machWf w w

theorem execViota_wf (o : V3) (w : s.ms.wf) : OutWf (execViota h o s) := runV_wf w fun m v w => m.putV_wf o v _ _ w

theorem execVext_wf (o : V3) (w : s.ms.wf) : OutWf (execVext h o s) := runV_wf w fun m v w => m.putV_wf o v _ _ w

theorem execVins_wf (o : V3) (w : s.ms.wf) : OutWf (execVins h o s) := runV_wf w fun _ _ w => w

theorem execVredr_wf (o : V3) (w : s.ms.wf) : OutWf (execVredr h o s) :=
  runV_wf w fun m v w => Mach.afterFlags_wf _ _ (m.putV_wf o v _ _ w)

theorem execVredc_wf (o : V3) (w : s.ms.wf) : OutWf (execVredc h o s) :=
  runV_wf w fun m v w => Mach.afterFlags_wf _ _ (m.putV_wf o v _ _ w)

theorem execVscanr_wf (o : V3) (w : s.ms.wf) : OutWf (execVscanr h o s) :=
  runV_wf w fun m v w => Mach.afterFlags_wf _ _ (m.putV_wf o v _ _ w)

end Sys2Proof.Machine
end

