-- ==== Sys2Proof/Proofs/CanonRecorder.lean ====
section
/-! SUPPORT. O13: record writes through heads and the words of the D cluster keep memory canonical. -/
namespace Sys2Proof.Machine

variable {h : Hdr} {s : State}

/-! ## Asking to write a record -/

/-- What asking to write a record comes to leaves memory canonical. -/
def CanWriteWf (r : CanWrite) : Prop :=
  match r with
  | .ok _ m => m.s.ms.wf
  | .trap f _ _ | .again _ f => ∀ m : Mach, m.s.ms.wf → (f m).s.ms.wf
  | .wait _ => True

theorem Mach.canWrite_wf (m : Mach) (n : Nat) (d : Desc) (r : Nat) (w : m.s.ms.wf) : CanWriteWf (m.canWrite n d r) := by
  unfold Mach.canWrite
  dsimp only
  split
  · have hn := m.notHeld_wf n d r
    split
    next e => rw [e] at hn; exact hn
    · trivial
    · trivial
  next l _ =>
    split
    · exact fun _ w => w
    · split
      · exact fun _ w => w
      · have ha := m.s.headAd_wf true l w
        split
        · exact fun _ w => w
        next e => exact wf_of_eq e ha

@[simp] theorem Mach.issueWrite_s (m : Mach) (n : Nat) (d : Desc) (r : Nat) (l : List (Piece × PageReg)) (bytes : List Byte) :
    (m.issueWrite n d r l bytes).s = m.s := by
  unfold Mach.issueWrite
  dsimp only
  split
  · rfl
  · rfl

/-- What appending a record comes to leaves memory canonical. -/
def AppendWf (r : Append) : Prop :=
  match r with
  | .ok m => m.s.ms.wf
  | .trap f _ _ | .again _ f => ∀ m : Mach, m.s.ms.wf → (f m).s.ms.wf
  | .wait _ => True

theorem Mach.append_wf (m : Mach) (n : Nat) (d : Desc) (bytes : List Byte) (w : m.s.ms.wf) : AppendWf (m.append n d bytes) := by
  have hc := m.canWrite_wf n d d.recorded w
  unfold Mach.append
  dsimp only
  split
  next e => rw [e] at hc; exact hc
  · trivial
  next e => rw [e] at hc; exact hc
  next m' e =>
    rw [e] at hc
    have he := m'.s.tapeEntry_wf m'.core m'.k (m.k.head n).handle true hc
    split
    next t s e =>
      have wd := s.descPut_wf t 2 (W (d.recorded + 1)) (wf_of_eq e he)
      unfold AppendWf
      dsimp only
      rw [Mach.issueWrite_s]
      exact wd
    · trivial
    · exact fun _ w => w

/-! ## A multi-entry pop (R200, R215) -/

/-- The early part of a D word, where it ends the word, leaves memory canonical. -/
def EarlyWf (r : Option Res) : Prop := ∀ q ∈ r, ResWf q

theorem popAll_wf (q n : Nat) (resumed : Bool) (first : Mach → Option Res) (last : Mach → List RowEnt → Res) (m : Mach)
    (w : m.s.ms.wf) (hfirst : ∀ m : Mach, m.s.ms.wf → EarlyWf (first m))
    (hlast : ∀ (m : Mach) (es : List RowEnt), m.s.ms.wf → ResWf (last m es)) : ResWf (popAll q n resumed first last m) := by
  have wm : (if resumed then m else m.ctx fun k => { k with dpopped := [], dlfsr := none }).s.ms.wf := ite_machWf w w
  unfold popAll
  revert wm
  generalize (if resumed then m else m.ctx fun k => { k with dpopped := [], dlfsr := none }) = m
  intro wm
  dsimp only
  split
  next r e =>
    split at e
    · exact hfirst m wm r e
    · cases e
  · refine ite_resWf trivial (ite_resWf wm ?_)
    have hl := hlast (((m.ctx (Ctx.popHeld q n n)).str fun t =>
        { t with prog := some ⟨(m.ctx (Ctx.popHeld q n n)).k.dpopped.length, n, none⟩ }).ctx fun k => { k with dpopped := [] })
      (((m.ctx (Ctx.popHeld q n n)).str fun t =>
        { t with prog := some ⟨(m.ctx (Ctx.popHeld q n n)).k.dpopped.length, n, none⟩ }).k.dpopped.take n) wm
    split
    · exact ite_resWf trivial wm
    next e => rw [e] at hl; exact ite_resWf hl (hl _ wm)
    · exact ite_resWf trivial wm
    next e => rw [e] at hl; exact ite_resWf hl (hl _ wm)
    · exact hl

/-! ## TREC (R200) -/

theorem trecBody_wf (o : H) (m : Mach) (a : Opnds) (w : m.s.ms.wf) : ResWf (trecBody o m a) := by
  unfold trecBody
  dsimp only
  generalize m.tapeOf (m.k.head o.hd.toNat).handle = d
  split
  · trivial
  · refine ite_resWf trivial (popAll_wf _ _ _ _ _ m w (fun m w => ?_) fun m es w => ite_resWf w ?_)
    · intro q hq
      split at hq
      · cases hq
      · split at hq
        · cases hq; trivial
        · split at hq
          · cases hq; trivial
          · have hc := m.canWrite_wf o.hd.toNat d d.recorded w
            split at hq
            · cases hq
            next e => cases hq; rw [e] at hc; exact hc
            · cases hq; trivial
            next e => cases hq; rw [e] at hc; exact hc
    · have ha := m.append_wf o.hd.toNat d (d.build (o.fl.getLsbD 0) es) w
      split
      next e => rw [e] at ha; exact ha
      next e => rw [e] at ha; exact ha
      · trivial
      next e => rw [e] at ha; exact ha

theorem execTrec_wf (o : H) (w : s.ms.wf) : OutWf (execTrec h o s) := issueWord_wf w (trecBody_wf o)

/-! ## TUPD (R215) -/

/-- The target's old record, or what ends the word there: memory stays canonical. -/
def OldRecWf (r : OldRec) : Prop :=
  match r with
  | .ok _ => True
  | .stop r => ResWf r

theorem Mach.oldRec_wf (m : Mach) (n : Nat) (d : Desc) (r : Nat) : OldRecWf (m.oldRec n d r) := by
  unfold Mach.oldRec
  dsimp only
  split
  · have hn := m.notHeld_wf n d r
    split
    next e => rw [e] at hn; exact hn
    · trivial
    · trivial
  · split
    · trivial
    · trivial

@[simp] theorem Mach.updated_s (m : Mach) (o : H) (d : Desc) (old : List Byte) (src : List FVal) (copy : List Byte) :
    (m.updated o d old src copy).2.2.s = m.s := by
  unfold Mach.updated
  split
  · rfl
  · rfl

theorem Mach.tupdWrite_wf (m : Mach) (o : H) (d : Desc) (r : Nat) (old : List Byte) (src : List FVal) (copy : List Byte)
    (w : m.s.ms.wf) : ResWf (m.tupdWrite o d r old src copy) := by
  have hc := m.canWrite_wf o.hd.toNat d r w
  unfold Mach.tupdWrite
  dsimp only
  split
  next e => rw [e] at hc; exact hc
  · trivial
  next e => rw [e] at hc; exact hc
  next m' e =>
    rw [e] at hc
    refine Mach.afterFlags_wf _ _ (Mach.count_wf _ _ _ ?_)
    rw [Mach.issueWrite_s, Mach.updated_s]
    exact hc

theorem Mach.tupdReady_wf (m : Mach) (o : H) (d : Desc) (w : m.s.ms.wf) : OldRecWf (m.tupdReady o d) := by
  have hc := m.canWrite_wf o.hd.toNat d (m.k.head o.hd.toNat).v.toNat w
  unfold Mach.tupdReady
  dsimp only
  split
  · trivial
  · split
    · trivial
    · split
      · trivial
      · split
        next e => rw [e] at hc; exact hc
        · trivial
        next e => rw [e] at hc; exact hc
        · split
          · trivial
          · exact m.oldRec_wf _ _ _

theorem Mach.srcStop_wf (m : Mach) (n : Nat) (u : HeadUse) : EarlyWf (m.srcStop n u) := by
  intro q hq
  unfold Mach.srcStop at hq
  split at hq
  · split at hq
    next e => cases hq; exact Mach.await_stop_wf e
    · cases hq; trivial
    · cases hq
  · cases hq

theorem tupdHead_wf (o : H) (d : Desc) (m : Mach) (a : Opnds) (w : m.s.ms.wf) : ResWf (tupdHead o d m a) := by
  have hr := m.tupdReady_wf o d w
  unfold tupdHead
  dsimp only
  refine ite_resWf w (ite_resWf trivial ?_)
  split
  · trivial
  next u _ =>
    split
    next e => rw [e] at hr; exact hr
    · split
      next e => exact m.srcStop_wf (uSrc o) u _ e
      · refine ite_resWf trivial ?_
        have he := m.eat_wf (uSrc o) u w
        split
        next e => rw [e] at he; exact he
        · trivial
        next e => rw [e] at he; exact Mach.tupdWrite_wf _ _ _ _ _ _ _ he
        next e => rw [e] at he; exact Mach.tupdWrite_wf _ _ _ _ _ _ _ he
        next e => rw [e] at he; exact Mach.tupdWrite_wf _ _ _ _ _ _ _ he

@[simp] theorem Mach.passUpdates_s (m : Mach) (o : H) (d : Desc) (act : Bool) : (m.passUpdates o d act).s = m.s := by
  unfold Mach.passUpdates
  dsimp only
  split
  · rfl
  · rfl

theorem tupdRes_wf (o : H) (d : Desc) (act : Bool) (r : Res) (hr : ResWf r) : ResWf (tupdRes o d act r) := by
  unfold tupdRes
  split
  next m _ =>
    unfold ResWf
    dsimp only
    rw [Mach.passUpdates_s]; exact hr
  next m _ _ =>
    unfold ResWf
    dsimp only
    rw [Mach.passUpdates_s]; exact hr
  · exact hr

theorem tupdQueue_wf (o : H) (d : Desc) (m : Mach) (a : Opnds) (w : m.s.ms.wf) : ResWf (tupdQueue o d m a) := by
  refine tupdRes_wf _ _ _ _ (popAll_wf _ _ _ _ _ m w (fun m w => ?_) fun m es w => ite_resWf w ?_)
  · have hr := m.tupdReady_wf o d w
    intro q hq
    split at hq
    · cases hq
    · split at hq
      next e => cases hq; rw [e] at hr; exact hr
      · split at hq
        · cases hq; trivial
        · cases hq
  · have hr := m.tupdReady_wf o d w
    split
    next e => rw [e] at hr; exact hr
    · exact ite_resWf trivial (m.tupdWrite_wf _ _ _ _ _ _ w)

theorem tupdBody_wf (o : H) (m : Mach) (a : Opnds) (w : m.s.ms.wf) : ResWf (tupdBody o m a) := by
  unfold tupdBody
  split
  · trivial
  · exact ite_resWf (tupdHead_wf _ _ _ _ w) (tupdQueue_wf _ _ _ _ w)

theorem execTupd_wf (o : H) (w : s.ms.wf) : OutWf (execTupd h o s) := issueWord_wf w (tupdBody_wf o)

theorem execTflsh_wf (o : H) (w : s.ms.wf) : OutWf (execTflsh h o s) :=
  issueWord_wf w fun _ _ w => ite_resWf w (ite_resWf trivial (ite_resWf trivial w))

theorem execDstat_wf (o : S3) (w : s.ms.wf) : OutWf (execDstat h o s) := issueWord_wf w fun _ _ => resWf_done_put _ _ _ _

/-! ## The write of a head reaches memory (R189) -/

theorem State.putWhole_wf (s : State) (a : Acc) (ws : List (Nat × List (Nat × Byte))) (w : s.ms.wf) : (s.putWhole a ws).ms.wf :=
  s.pkgWrite_wf a 3 ws w

theorem State.refetch_wf (s : State) (vdev handle r : Nat) (w : s.ms.wf) : (s.refetch vdev handle r).ms.wf := w

theorem execHeadWritePerformed_wf (x : CtxRef) (n : Nat) (w : s.ms.wf) : OutWf (execHeadWritePerformed x n s) := by
  unfold execHeadWritePerformed
  split
  · exact w
  · split
    · exact w
    · split
      · exact w
      · refine State.refetch_wf _ _ _ _ (foldl_keeps (fun s : State => s.ms.wf) _ (fun s p w => ?_) _ _ w)
        exact s.putWhole_wf _ _ w

end Sys2Proof.Machine
end

