-- ==== Sys2Proof/Proofs/CanonMatrix.lean ====
section
/-! SUPPORT. O13: the words of the matrix engine and its drain keep memory canonical. -/
namespace Sys2Proof.Machine

variable {h : Hdr} {s : State}

/-! ## Taking rows (R224 to R227) -/

/-- What taking a row comes to leaves memory canonical. -/
def MGetWf (r : MGet) : Prop :=
  match r with
  | .row _ m | .skip m => m.s.ms.wf
  | .trap f _ _ => ∀ m : Mach, m.s.ms.wf → (f m).s.ms.wf
  | .wait _ => True

theorem Mach.blockScaleOf_wf (m : Mach) (n : Nat) (act : Bool) (w : m.s.ms.wf) : MGetWf (m.blockScaleOf n act) := by
  have hc := m.consume_wf (companion n) act (fun _ => true) w
  unfold Mach.blockScaleOf
  split
  next e => rw [e] at hc; exact hc
  · trivial
  next e => rw [e] at hc; exact hc
  next e => rw [e] at hc; exact hc
  next e => rw [e] at hc; exact hc

theorem mgetWf_out {m : Mach} (x : Option MRow) (w : m.s.ms.wf) :
    MGetWf (match x with
      | some x => MGet.row x m
      | none => .skip m) := by
  split
  · exact w
  · exact w

theorem Mach.withScales_wf (m : Mach) (q : MSrc) (n : Nat) (act : Bool) (x : Option MRow) (w : m.s.ms.wf) :
    MGetWf (m.withScales q n act x) := by
  have hb := m.blockScaleOf_wf n act w
  unfold Mach.withScales
  dsimp only
  split
  · exact mgetWf_out x w
  · split
    next e => rw [e] at hb; exact hb
    · trivial
    next m' e =>
      rw [e] at hb
      have hb' := m'.blockScaleOf_wf n act hb
      split
      next e => rw [e] at hb'; exact mgetWf_out x hb'
      next e => rw [e] at hb'; exact mgetWf_out x hb'
      · exact hb'
    next a m' e =>
      rw [e] at hb
      have hb' := m'.blockScaleOf_wf n act hb
      split
      next e => rw [e] at hb'; exact hb'
      · trivial
      next e => rw [e] at hb'; exact mgetWf_out x hb'
      next e => rw [e] at hb'; exact mgetWf_out _ hb'

theorem Mach.heldRecord_wf (m : Mach) (q : MSrc) (n : Nat) (act : Bool) (w : m.s.ms.wf) : MGetWf (m.heldRecord q n act) := by
  have hc := m.consume_wf n act (m.mUsable q n) w
  unfold Mach.heldRecord
  split
  · exact w
  · dsimp only
    split
    next e => rw [e] at hc; exact hc
    · trivial
    next e => rw [e] at hc; exact hc
    next e => rw [e] at hc; exact hc
    next e => rw [e] at hc; exact hc

theorem Mach.mrow_wf (m : Mach) (q : MSrc) (act : Bool) (r : Nat) (w : m.s.ms.wf) : MGetWf (m.mrow q act r) := by
  unfold Mach.mrow
  dsimp only
  split
  · split
    · exact w
    · exact w
  · split
    · split
      · trivial
      · split
        · exact w
        · exact w
    · split
      · have hc := m.consume_wf (vNum q.src) act (m.mUsable q (vNum q.src)) w
        split
        next e => rw [e] at hc; exact hc
        · trivial
        next e => rw [e] at hc; exact Mach.withScales_wf _ _ _ _ _ hc
        next e => rw [e] at hc; exact Mach.withScales_wf _ _ _ _ _ hc
        next e => rw [e] at hc; exact Mach.withScales_wf _ _ _ _ _ hc
      · have hh := m.heldRecord_wf q (vNum q.src) act w
        split
        next e => rw [e] at hh; exact Mach.withScales_wf _ _ _ _ _ hh
        · exact hh

/-! ## Row words (R246) -/

/-- What performing a row comes to leaves memory canonical. -/
def RowDoWf (r : RowDo) : Prop :=
  match r with
  | .done m => m.s.ms.wf
  | .trap f _ _ | .again _ f => ∀ m : Mach, m.s.ms.wf → (f m).s.ms.wf
  | .wait _ => True

theorem rowLoop_wf (rows : Nat) (f : Nat → Mach → RowDo) (last : Mach → Res) (hf : ∀ r (m : Mach), m.s.ms.wf → RowDoWf (f r m))
    (hlast : ∀ m : Mach, m.s.ms.wf → ResWf (last m)) (fuel r : Nat) (m : Mach) (w : m.s.ms.wf) :
    ResWf (rowLoop rows f last fuel r m) := by
  induction fuel generalizing r m with
  | zero => exact hlast m w
  | succ fuel ih =>
    have hr := hf r m w
    unfold rowLoop
    refine ite_resWf (hlast m w) ?_
    split
    next e => rw [e] at hr; exact ih _ _ hr
    next e => rw [e] at hr; exact ite_resWf hr (hr _ w)
    · exact ite_resWf trivial w
    next e => rw [e] at hr; exact ite_resWf hr (hr _ w)

theorem Mach.rowWord_wf (m : Mach) (rows : Nat) (f : Nat → Mach → RowDo) (last : Mach → Res) (w : m.s.ms.wf)
    (hf : ∀ r (m : Mach), m.s.ms.wf → RowDoWf (f r m)) (hlast : ∀ m : Mach, m.s.ms.wf → ResWf (last m)) :
    ResWf (m.rowWord rows f last) :=
  rowLoop_wf rows f last hf hlast _ _ _ (ite_machWf w w)

theorem Mach.withRow_wf (m : Mach) (q : MSrc) (act : Bool) (r : Nat) (f : MRow → Mach → Mach) (w : m.s.ms.wf)
    (hf : ∀ x (m : Mach), m.s.ms.wf → (f x m).s.ms.wf) : RowDoWf (m.withRow q act r f) := by
  have hm := m.mrow_wf q act r w
  unfold Mach.withRow
  split
  next e => rw [e] at hm; exact hf _ _ hm
  next e => rw [e] at hm; exact hm
  next e => rw [e] at hm; exact hm
  · trivial

/-! ## Loads, streaming and tile control (R229 to R238) -/

theorem Mach.loadEnd_wf (m : Mach) (o : MF) (tag : Nat) (w : m.s.ms.wf) : (m.loadEnd o tag).s.ms.wf := by
  unfold Mach.loadEnd
  dsimp only
  rw [Mach.ctx_s]
  refine foldl_keeps (fun m : Mach => m.s.ms.wf) _ (fun m r w => ?_) _ m w
  exact w

theorem loadBody_wf (o : MF) (tag : Nat) (fits : Desc → Bool) (m : Mach) (a : Opnds) (w : m.s.ms.wf) :
    ResWf (loadBody o tag fits m a) :=
  m.rowWord_wf _ _ _ w (fun _ m w => m.withRow_wf _ _ _ _ w fun _ _ w => w)
    fun m w => ite_machWf (Mach.loadEnd_wf m.forget o tag w) w

theorem execMld_wf (o : MF) (w : s.ms.wf) : OutWf (execMld h o s) :=
  issueWord_wf w fun m a w => ite_resWf trivial (loadBody_wf _ _ _ m a w)

theorem execMlds_wf (o : MF) (w : s.ms.wf) : OutWf (execMlds h o s) := issueWord_wf w (loadBody_wf _ _ _)

theorem execMswap_wf (o : MF) (w : s.ms.wf) : OutWf (execMswap h o s) := issueWord_wf w fun _ _ w => ite_machWf w w

theorem Mach.streamRows_wf (m : Mach) (o : MF) (q : MSrc) (act : Bool) (w : m.s.ms.wf) : ResWf (m.streamRows o q act) :=
  m.rowWord_wf _ _ _ w (fun _ m w => m.withRow_wf _ _ _ _ w fun _ _ w => w) fun _ w => w

theorem mmaBody_wf (o : MF) (m : Mach) (a : Opnds) (w : m.s.ms.wf) : ResWf (mmaBody o m a) := by
  unfold mmaBody
  dsimp only
  refine ite_resWf (Mach.streamRows_wf _ _ _ _ w) ?_
  have hm := m.ownWord.mrow_wf
    ⟨o.src, o.enc.toNat, o.scl.toNat, o.rows.toNat, 8, fun d => (d.shape == 1 || d.shape == 2) && d.sp == 0⟩ true m.ownWord.row0 w
  split
  next e => rw [e] at hm; exact ite_resWf hm (hm _ w)
  · exact ite_resWf trivial w
  · split
    · exact ite_resWf trivial w
    · exact fun _ w => w

theorem execMma_wf (o : MF) (w : s.ms.wf) : OutWf (execMma h o s) := issueWord_wf w (mmaBody_wf o)

theorem execMmas_wf (o : MF) (w : s.ms.wf) : OutWf (execMmas h o s) := issueWord_wf w (mmaBody_wf o)

theorem execDamperGrant_wf (stove : BitVec 2) (w : s.ms.wf) : OutWf (execDamperGrant stove s) := by
  unfold execDamperGrant
  split
  · exact w
  · dsimp only
    split
    · exact w
    · exact w

theorem execMzero_wf (o : MF) (w : s.ms.wf) : OutWf (execMzero h o s) := issueWord_wf w fun _ _ w => ite_machWf w w

theorem execManc_wf (o : S3) (w : s.ms.wf) : OutWf (execManc h o s) :=
  issueWord_wf w fun _ _ w => resWf_done_put _ _ _ _ (ite_machWf w w)

theorem execMtsc_wf (o : S3) (w : s.ms.wf) : OutWf (execMtsc h o s) :=
  issueWord_wf w fun _ _ w => resWf_done_put _ _ _ _ (ite_machWf w w)

theorem mtblwBody_wf (o : MF) (m : Mach) (a : Opnds) (w : m.s.ms.wf) : ResWf (mtblwBody o m a) := by
  have hm := m.dropHeld.mrow_wf ⟨o.src, 7, 0, 1, 8, fun d => d.shape == 1 && d.sp == 0⟩ a.act 0 w
  unfold mtblwBody
  dsimp only
  split
  next e => rw [e] at hm; exact hm
  · trivial
  next e => rw [e] at hm; exact hm
  next e => rw [e] at hm; exact hm

theorem execMtblw_wf (o : MF) (w : s.ms.wf) : OutWf (execMtblw h o s) := issueWord_wf w (mtblwBody_wf o)

theorem execMest_wf (o : S3) (w : s.ms.wf) : OutWf (execMest h o s) := issueWord_wf w fun _ _ => resWf_done_put _ _ _ _

theorem execMstat_wf (o : S3) (w : s.ms.wf) : OutWf (execMstat h o s) := issueWord_wf w fun _ _ => resWf_done_put _ _ _ _

/-! ## The drain (R239 to R245) -/

@[simp] theorem Mach.setDraw_s (m : Mach) (l : BitVec 32) : (m.setDraw l).s = m.s := rfl

@[simp] theorem Mach.passDraws_s (m : Mach) (o : DR) (act : Bool) : (m.passDraws o act).s = m.s := by
  unfold Mach.passDraws
  dsimp only
  split
  · rfl
  · rfl

theorem drainRes_wf (o : DR) (act : Bool) (r : Res) (hr : ResWf r) : ResWf (drainRes o act r) := by
  unfold drainRes
  split
  next m _ =>
    unfold ResWf
    dsimp only
    rw [Mach.passDraws_s]; exact hr
  next m _ _ =>
    unfold ResWf
    dsimp only
    rw [Mach.passDraws_s]; exact hr
  · exact hr

theorem Mach.drainOne_wf (m : Mach) (o : DR) (r : Nat) (w : m.s.ms.wf) : (m.drainOne o r).2.s.ms.wf := by
  unfold Mach.drainOne
  dsimp only
  refine ite_machWf ?_ ?_
  · exact Mach.raise_wf _ _ (Mach.count_wf _ _ _ w)
  · exact Mach.raise_wf _ _ (Mach.count_wf _ _ _ w)

theorem Mach.putResidual_wf (m : Mach) (o : DR) (r : Nat) (d : DRow) (w : m.s.ms.wf) : (m.putResidual o r d).s.ms.wf := by
  unfold Mach.putResidual
  split
  · exact w
  · exact ite_machWf w w

theorem Mach.drainSkip_wf (m : Mach) (o : DR) (tape : Bool) (w : m.s.ms.wf) : (m.drainSkip o tape).s.ms.wf := by
  refine foldl_keeps (fun m : Mach => m.s.ms.wf) _ (fun m r w => ?_) _ m w
  exact w

theorem Mach.drainEnd_wf (m : Mach) (w : m.s.ms.wf) : ResWf m.drainEnd := Mach.afterFlags_wf _ _ w

theorem mdrBody_wf (o : DR) (m : Mach) (a : Opnds) (w : m.s.ms.wf) : ResWf (mdrBody o m a) := by
  refine drainRes_wf _ _ _ (m.rowWord_wf _ _ _ w (fun r m w => ?_) Mach.drainEnd_wf)
  dsimp only
  split
  · trivial
  · split
    · exact m.drainSkip_wf o false w
    · exact Mach.putResidual_wf _ _ _ _ (ite_machWf (m.drainOne_wf o r w) (m.drainOne_wf o r w))

theorem execMdr_wf (o : DR) (w : s.ms.wf) : OutWf (execMdr h o s) := issueWord_wf w (mdrBody_wf o)

theorem Mach.appendRow_wf (m : Mach) (n : Nat) (d : Desc) (bytes : List Byte) (w : m.s.ms.wf) : RowDoWf (m.appendRow n d bytes) := by
  have ha := m.append_wf n d bytes w
  unfold Mach.appendRow
  split
  next e => rw [e] at ha; exact ha
  next e => rw [e] at ha; exact ha
  · trivial
  next e => rw [e] at ha; exact ha

theorem mdrtRow_wf (o : DR) (act : Bool) (r : Nat) (m : Mach) (w : m.s.ms.wf) : RowDoWf (mdrtRow o act r m) := by
  have hd := m.drainOne_wf o r w
  unfold mdrtRow
  dsimp only
  generalize m.tapeOf (m.k.head (vNum o.dst)).handle = d
  split
  · trivial
  · split
    · exact m.drainSkip_wf o true w
    · have hc : CanWriteWf (if (d.shape == 2 && r = 0) = true then m.canWrite (vNum o.dst) d d.recorded else .ok [] m) := by
        split
        · exact m.canWrite_wf _ _ _ w
        · exact w
      split
      next e => rw [e] at hc; exact hc
      · trivial
      next e => rw [e] at hc; exact hc
      · have happend (m' : Mach) (bytes : List Byte) (w : m'.s.ms.wf) : RowDoWf (match m'.appendRow (vNum o.dst) d bytes with
            | .done m'' => .done (m''.putResidual o r (m.drainOne o r).1)
            | r => r) := by
          have ha := m'.appendRow_wf (vNum o.dst) d bytes w
          split
          next e => rw [e] at ha; exact Mach.putResidual_wf _ _ _ _ ha
          · exact ha
        split
        · exact happend _ _ hd
        · split
          · exact Mach.putResidual_wf _ _ _ _ hd
          · exact happend _ _ hd

theorem mdrtBody_wf (o : DR) (m : Mach) (a : Opnds) (w : m.s.ms.wf) : ResWf (mdrtBody o m a) := by
  unfold mdrtBody
  dsimp only
  split
  · trivial
  · exact ite_resWf trivial (ite_resWf (ite_resWf trivial w)
      (drainRes_wf _ _ _ (m.rowWord_wf _ _ _ w (fun r m w => mdrtRow_wf o a.act r m w) Mach.drainEnd_wf)))

theorem execMdrt_wf (o : DR) (w : s.ms.wf) : OutWf (execMdrt h o s) := issueWord_wf w (mdrtBody_wf o)

end Sys2Proof.Machine
end

