-- ==== Sys2Proof/Proofs/CanonMemory.lean ====
section
/-! SUPPORT. O13: the A stream's accesses, its loads and stores, latches, barriers and cache maintenance keep memory canonical. -/
namespace Sys2Proof.Machine

variable {h : Hdr} {s : State}

/-! ## Scratchpad (R275 to R281) -/

theorem Mach.loadSkip_wf (m : Mach) (o : L) (w : m.s.ms.wf) : ResWf (m.loadSkip o) :=
  ite_machWf w (resWf_done_put _ _ _ _ w)

theorem Mach.loadNow_wf (m : Mach) (o : L) (bytes : List Byte) (w : m.s.ms.wf) : ResWf (m.loadNow o bytes) :=
  ite_machWf w (resWf_done_put _ _ _ _ w)

theorem Mach.spPut_wf (m : Mach) (ea : Nat) (bytes : List (Nat × Byte)) (w : m.s.ms.wf) : (m.spPut ea bytes).s.ms.wf :=
  MemSt.spadPut_wf _ _ w

theorem execLds_wf (o : L) (w : s.ms.wf) : OutWf (execLds h o s) := by
  refine issueWord_wf w fun m a w => ite_resWf (m.loadSkip_wf o w) ?_
  split
  · trivial
  · exact m.loadNow_wf o _ w

theorem execSts_wf (o : L) (w : s.ms.wf) : OutWf (execSts h o s) := by
  refine issueWord_wf w fun m a w => ite_resWf w ?_
  split
  · trivial
  · exact m.spPut_wf _ _ w

theorem Mach.burstElem_wf {m m' : Mach} {o : L} {load act : Bool} {ea : Nat} (e : m.burstElem o load act ea = some m')
    (w : m.s.ms.wf) : m'.s.ms.wf := by
  unfold Mach.burstElem at e
  dsimp only at e
  split at e
  · split at e
    · split at e
      · cases e
      · cases e; exact w
    · split at e
      · cases e
      · cases e; exact w
  · split at e
    · split at e
      · cases e
      · cases e; exact ite_machWf (Mach.spPut_wf _ _ _ w) w
    · split at e
      · cases e
      · cases e; exact ite_machWf (Mach.spPut_wf _ _ _ w) w

theorem Mach.burstLoop_wf (o : L) (load act : Bool) (ea n fuel k : Nat) (m : Mach) (w : m.s.ms.wf) :
    (Mach.burstLoop o load act ea n fuel k m).2.s.ms.wf := by
  induction fuel generalizing k m with
  | zero => exact w
  | succ fuel ih =>
    unfold Mach.burstLoop
    split
    · exact w
    · split
      · exact w
      next e => exact ih _ _ (Mach.burstElem_wf e w)

theorem burstBody_wf (o : L) (load : Bool) (m : Mach) (a : Opnds) (w : m.s.ms.wf) : ResWf (burstBody o load m a) := by
  unfold burstBody
  dsimp only
  split
  · trivial
  · have hl (ea n k : Nat) := Mach.burstLoop_wf o load a.act ea n n k m w
    exact ite_resWf w (ite_resWf (hl _ _ _) (ite_resWf trivial (hl _ _ _)))

theorem execLdq_wf (o : L) (w : s.ms.wf) : OutWf (execLdq h o s) := issueWord_wf w (burstBody_wf o true)

theorem execStq_wf (o : L) (w : s.ms.wf) : OutWf (execStq h o s) := issueWord_wf w (burstBody_wf o false)

theorem execSatom_wf (o : L) (w : s.ms.wf) : OutWf (execSatom h o s) := by
  refine issueWord_wf w fun m a w => ite_resWf (resWf_done_put _ _ _ _ w) ?_
  split
  · trivial
  · refine ite_resWf trivial (resWf_done_put _ _ _ _ ?_)
    split
    · exact m.spPut_wf _ _ w
    · exact w

/-! ## Issuing to global memory (R283, R285, R305) -/

theorem State.lookRow_wf (s : State) (core : Nat) (k : Ctx) (va : Nat) (n : Need) (w : s.ms.wf) : (s.lookRow core k va n).2.ms.wf := by
  unfold State.lookRow
  split
  · exact w
  · exact s.look_wf core k _ n w

/-- What reaching the pages of an access comes to leaves memory canonical. -/
def GAccWf (r : GAcc) : Prop :=
  match r with
  | .ok _ s => s.ms.wf
  | .stop r => ResWf r

theorem ite_gaccWf {c : Prop} [Decidable c] {r q : GAcc} (wr : GAccWf r) (wq : GAccWf q) : GAccWf (if c then r else q) :=
  iteInduction (fun _ => wr) fun _ => wq

theorem Mach.reachPieces_wf (m : Mach) (need : Need) (whole : Bool) (l : List (Nat × Nat × Nat)) (used : Nat) (s : State)
    (w : s.ms.wf) : GAccWf (m.reachPieces need whole used l s) := by
  induction l generalizing used s with
  | nil => exact w
  | cons p rest ih =>
    obtain ⟨va, n, off⟩ := p
    have hl := s.lookRow_wf m.core m.k va need w
    unfold Mach.reachPieces
    split
    · trivial
    · trivial
    next t s' e =>
      have w' := wf_of_eq e hl
      have hr := ih (used + s'.farCount m.core t.pa n) s' w'
      refine ite_gaccWf trivial (ite_gaccWf trivial (ite_gaccWf (fun _ _ => s'.poisonAt_wf t n w') ?_))
      split
      next e => rw [e] at hr; exact hr
      · exact hr

theorem Mach.gAccess_wf (m : Mach) (ea : Word) (n align : Nat) (need : Need) (w : m.s.ms.wf) : GAccWf (m.gAccess ea n align need) := by
  unfold Mach.gAccess
  split
  · trivial
  · have hr := m.reachPieces_wf need true ((pagePieces ea.toNat n).map fun p => (p.1, p.2, p.1 - ea.toNat)) 0 m.s w
    split
    · trivial
    · exact hr

theorem execLdg_wf (o : L) (w : s.ms.wf) : OutWf (execLdg h o s) := by
  refine issueWord_wf w fun m a w => ite_resWf (m.loadSkip_wf o w) ?_
  have hg := m.gAccess_wf (lAddr o (a.v 0) (a.v 1)) (szBytes o.sz.toNat) (szAlign o.sz.toNat) m.k.needLd w
  split
  next e => rw [e] at hg; exact hg
  next e => rw [e] at hg; exact ite_resWf hg hg

theorem execStg_wf (o : L) (w : s.ms.wf) : OutWf (execStg h o s) := by
  refine issueWord_wf w fun m a w => ite_resWf w ?_
  have hg := m.gAccess_wf (lAddr o (a.v 0) (a.v 1)) (szBytes o.sz.toNat) (szAlign o.sz.toNat) m.k.needSt w
  split
  next e => rw [e] at hg; exact hg
  next e => rw [e] at hg; exact hg

theorem execGatom_wf (o : L) (w : s.ms.wf) : OutWf (execGatom h o s) := by
  refine issueWord_wf w fun m a w => ite_resWf (resWf_done_put _ _ _ _ w) ?_
  have hg := m.gAccess_wf (atomAddr o (a.v 0)) (atomBytes o) (atomBytes o) m.k.needRw w
  split
  next e => rw [e] at hg; exact hg
  next e => rw [e] at hg; exact ite_resWf trivial hg

/-! ## Loads that return and stores that leave their buffer (R255 to R257) -/

theorem State.cxlSettle_wf (s : State) (x : CtxRef) (w : s.ms.wf) : (s.cxlSettle x).ms.wf := by
  refine foldl_keeps (fun s : State => s.ms.wf) _ (fun s y w => ?_) _ s w
  split
  · exact ite_wf w w
  · exact w

theorem State.l2Atomic_wf (s : State) (a : Acc) (sec : Nat) (f : Sec → List (Nat × Byte)) (w : s.ms.wf) : (s.l2Atomic a sec f).2.ms.wf :=
  ite_wf (s.l2Read_wf a sec w) (State.l2Write_wf _ _ _ _ (s.l2Read_wf a sec w))

theorem State.pointAtomic_wf (s : State) (p : Path) (far : Bool) (a : Acc) (sec : Nat) (f : Sec → List (Nat × Byte)) (w : s.ms.wf) :
    (s.pointAtomic p far a sec f).2.ms.wf := by
  cases p with
  | cached =>
    have h : (if far then s.pkgAtomic a sec f else s.l2Atomic a sec f).2.ms.wf := by
      split
      · exact s.pkgAtomic_wf a sec f w
      · exact s.l2Atomic_wf a sec f w
    exact ite_wf (State.l1Drop_wf _ _ _ h) (State.aliens_wf _ _ (State.l1Drop_wf _ _ _ h))
  | msc => exact ite_wf (s.mscAtomic_wf a sec f w) (State.aliens_wf _ _ (s.mscAtomic_wf a sec f w))
  | window => exact ite_wf (s.pkgAtomic_wf a sec f w) (State.aliens_wf _ _ (s.pkgAtomic_wf a sec f w))

theorem State.atomicAt_wf (s : State) (p : Path) (far : Bool) (a : Acc) (pa n : Nat) (f : Nat → Option Nat) (w : s.ms.wf) :
    (s.atomicAt p far a pa n f).2.2.ms.wf := by
  unfold State.atomicAt
  dsimp only
  exact s.pointAtomic_wf p far a (pa / 64) _ w

theorem State.loadPart_wf (s : State) (core : Nat) (k : Ctx) (l : LoadEnt) (off len : Nat) (w : s.ms.wf) :
    (s.loadPart core k l off len).2.2.ms.wf := by
  unfold State.loadPart
  dsimp only
  split
  next op n signed v cmp _ =>
    exact s.atomicAt_wf (l.seg off).path false ⟨core, k.bd.vdev, (l.seg off).tag, 0⟩ ((l.seg off).at_ off) n
      (fun old => atomNew op n signed old v.toNat cmp.toNat) w
  · exact s.pathBytes_wf (l.seg off).path ⟨core, k.bd.vdev, (l.seg off).tag, 0⟩ ((l.seg off).at_ off) len w

@[simp] theorem Mach.latePoison_s (m : Mach) (va : Word) : (m.latePoison va).s = m.s := by
  unfold Mach.latePoison
  dsimp only
  split
  · exact m.takeTrap_s _ _ _
  · exact m.takeTrap_s _ _ _

theorem Mach.close_wf (m : Mach) (w : m.s.ms.wf) : m.close.ms.wf := w

theorem execLoadDataReturn_wf (x : CtxRef) (n part : Nat) (w : s.ms.wf) : OutWf (execLoadDataReturn x n part s) := by
  unfold execLoadDataReturn
  split
  · exact w
  next k _ =>
    split
    · exact w
    next l _ =>
      split
      · exact w
      next off len _ =>
        split
        · exact w
        · have hp := s.loadPart_wf x.core.toNat k l off len w
          dsimp only
          split
          · split
            · exact State.cxlSettle_wf _ x w
            · split
              · refine Mach.close_wf _ ?_
                rw [Mach.latePoison_s]; exact hp
              · exact w
          · exact State.cxlSettle_wf _ x hp

theorem execStoreDrain_wf (x : CtxRef) (n : Nat) (w : s.ms.wf) : OutWf (execStoreDrain x n s) := by
  unfold execStoreDrain
  split
  · exact w
  · split
    · exact w
    · dsimp only
      split
      · exact w
      · exact State.cxlSettle_wf _ x (State.pathWrite_wf _ _ _ _ w)

theorem execPageWalk_wf (core : BitVec 8) (vdev : BitVec 6) (va : Word) (w : s.ms.wf) : OutWf (execPageWalk core vdev va s) := by
  have hw := s.walk_wf vdev.toNat va.toNat w
  unfold execPageWalk
  split
  next e => exact State.tlbHold_wf _ _ _ _ (wf_of_eq e hw)
  next e =>
    have w' := wf_of_eq e hw
    exact w'

/-! ## Acquires and releases (R254, R259 to R263) -/

theorem State.l1DropRanges_wf (s : State) (core : Nat) (rs : List (Nat × Nat)) (w : s.ms.wf) : (s.l1DropRanges core rs).ms.wf := w

theorem State.l2CleanRanges_wf (s : State) (core vdev : Nat) (rs : List (Nat × Nat)) (w : s.ms.wf) : (s.l2CleanRanges core vdev rs).ms.wf :=
  foldl_keeps (fun s : State => s.ms.wf) _ (fun s _ w => s.l2Clean_wf _ _ _ w) _ s w

theorem State.l2DropRanges_wf (s : State) (stove : Nat) (rs : List (Nat × Nat)) (w : s.ms.wf) : (s.l2DropRanges stove rs).ms.wf :=
  foldl_keeps (fun s : State => s.ms.wf) _ (fun s _ w => s.l2Drop_wf _ _ w) _ s w

theorem State.mscDropRanges_wf (s : State) (rs : List (Nat × Nat)) (w : s.ms.wf) : (s.mscDropRanges rs).ms.wf :=
  foldl_keeps (fun s : State => s.ms.wf) _ (fun s _ w => s.mscDrop_wf _ w) _ s w

theorem State.acquireRanges_wf (s : State) (core : Nat) (k : Ctx) (scope : Nat) (rs : List (Nat × Nat)) (w : s.ms.wf) :
    (s.acquireRanges core k scope rs).ms.wf :=
  ite_wf w (ite_wf (State.l2DropRanges_wf _ _ _ (State.l2CleanRanges_wf _ _ _ _ (s.l1DropRanges_wf core rs w)))
    (s.l1DropRanges_wf core rs w))

theorem State.releaseRanges_wf (s : State) (core : Nat) (k : Ctx) (scope : Nat) (rs : List (Nat × Nat)) (w : s.ms.wf) :
    (s.releaseRanges core k scope rs).ms.wf := ite_wf (s.l2CleanRanges_wf _ _ rs w) w

theorem execLbind_wf (o : S3) (w : s.ms.wf) : OutWf (execLbind h o s) :=
  issueWord_wf w fun _ _ w => ite_resWf (resWf_done_put _ _ _ _ w) (ite_resWf trivial (resWf_done_put _ _ _ _ w))

/-- What the checks of a latch word come to leaves memory canonical. -/
def LatchAtWf (r : LatchAt) : Prop :=
  match r with
  | .ok _ _ _ s => s.ms.wf
  | .stop r => ResWf r

theorem Mach.latchAt_wf (m : Mach) (slot : Nat) (need : Need) (release : Bool) (w : m.s.ms.wf) : LatchAtWf (m.latchAt slot need release) := by
  unfold Mach.latchAt
  split
  · trivial
  next q _ =>
    have hl := m.s.look_wf m.core m.k q.latch need w
    split
    · trivial
    · trivial
    next e =>
      have w' := wf_of_eq e hl
      dsimp only
      split
      · trivial
      · split
        · trivial
        · split
          · trivial
          · exact w'

theorem State.latchOp_wf (s : State) (k : Ctx) (q : Latch) (t : Target) (f : Nat → Option Nat) (w : s.ms.wf) :
    (s.latchOp k q t f).2.ms.wf := s.atomicAt_wf _ _ _ _ _ _ w

theorem execAcq_wf (o : S3) (w : s.ms.wf) : OutWf (execAcq h o s) := by
  refine issueWord_wf w fun m a w => ite_resWf (resWf_done_put _ _ _ _ w) ?_
  have hl := m.latchAt_wf (o.fn.toNat % 16) m.k.needRw false w
  split
  next e => rw [e] at hl; exact hl
  next e =>
    rw [e] at hl
    dsimp only
    exact ite_resWf trivial (resWf_done_put _ _ _ _ (State.acquireRanges_wf _ _ _ _ _ (State.latchOp_wf _ _ _ _ _ hl)))

theorem execRel_wf (o : S3) (w : s.ms.wf) : OutWf (execRel h o s) := by
  refine issueWord_wf w fun m a w => ite_resWf (resWf_done_put _ _ _ _ w) ?_
  have hl := m.latchAt_wf (o.fn.toNat % 16) m.k.needRw true w
  split
  next e => rw [e] at hl; exact hl
  next q t rs s e =>
    rw [e] at hl
    have hop := State.latchOp_wf _ m.k q t
      (fun old => some (if o.fn.toNat / 64 = 1 then (old + (a.v 0).toNat) % 2 ^ 64 else (a.v 0).toNat))
      (s.releaseRanges_wf m.core m.k q.scope rs hl)
    exact ite_resWf trivial (resWf_done_put _ _ _ _ hop)

@[simp] theorem yieldWait_s (i : Instr) (m : Mach) : (yieldWait i m).s = m.s := by
  unfold yieldWait
  split
  · rfl
  · exact Mach.offerSwitch_s _

theorem yieldWait_wf (i : Instr) (m : Mach) (w : m.s.ms.wf) : (yieldWait i m).s.ms.wf := by
  rw [yieldWait_s]; exact w

theorem execWaitw_wf (o : S3) (w : s.ms.wf) : OutWf (execWaitw h o s) := by
  refine issueWord_wf w fun m a w => ite_resWf (resWf_done_put _ _ _ _ w) ?_
  have hl := m.latchAt_wf (o.fn.toNat % 16) m.k.needLd false w
  split
  next e => rw [e] at hl; exact hl
  next e =>
    rw [e] at hl
    dsimp only
    exact ite_resWf (ite_resWf trivial (resWf_done_put _ _ _ _ (State.acquireRanges_wf _ _ _ _ _ (State.latchOp_wf _ _ _ _ _ hl))))
      (yieldWait_wf _)

theorem State.retryWait_wf (s : State) (x : CtxRef) (p : Instr → Bool) (run : Instr → State → Out) (w : s.ms.wf)
    (hrun : ∀ i (s : State), s.ms.wf → OutWf (run i s)) : OutWf (s.retryWait x p run) := by
  unfold State.retryWait
  split
  · exact w
  · split
    · exact w
    next i _ =>
      split
      · exact w
      · have hr := hrun i ({ s with md := { s.md with cur := x, curSt := .A, rdv := 0 } }.runBank x) w
        dsimp only
        split
        next e => rw [e] at hr; exact hr
        · exact hr

theorem execWaitwWake_wf (x : CtxRef) (w : s.ms.wf) : OutWf (execWaitwWake x s) := by
  refine s.retryWait_wf x _ _ w fun i s w => ?_
  split
  · exact execWaitw_wf _ w
  · exact w

theorem gbarBody_wf (i : Instr) (o : S3) (m : Mach) (a : Opnds) (w : m.s.ms.wf) : ResWf (gbarBody i o m a) := by
  unfold gbarBody
  dsimp only
  generalize m.s.allRanges m.core m.k = rs
  have harrive (m' : Mach) (w' : m'.s.ms.wf) :
      (if m.k.gbars < m.k.garrived then m' else
        ({ m' with s := if o.fn.getLsbD 0 then m'.s.releaseRanges m'.core m'.k 1 rs else m'.s }.ctx fun k =>
          { k with garrived := k.gbars + 1 })).s.ms.wf :=
    ite_machWf w' (ite_wf (State.releaseRanges_wf _ _ _ _ _ w') w')
  refine ite_resWf (resWf_done_put _ _ _ _ w) (ite_resWf trivial (ite_resWf trivial ?_))
  split
  · exact ite_resWf harrive (resWf_done_put _ _ _ _ (ite_wf (State.acquireRanges_wf _ _ _ _ _ (harrive m w)) (harrive m w)))
  · exact harrive
  · exact fun m' w' => yieldWait_wf i _ (harrive m' w')

theorem execGbar_wf (o : S3) (w : s.ms.wf) : OutWf (execGbar h o s) := issueWord_wf w (gbarBody_wf _ o)

theorem execGbarDepart_wf (x : CtxRef) (w : s.ms.wf) : OutWf (execGbarDepart x s) := by
  refine s.retryWait_wf x _ _ w fun i s w => ?_
  split
  · exact execGbar_wf _ w
  · exact w

theorem execFence_wf (o : S3) (w : s.ms.wf) : OutWf (execFence h o s) := issueWord_wf w fun _ _ w => ite_resWf w trivial

/-! ## Cache maintenance (R265) -/

theorem State.cmoPage_wf (s : State) (core vdev op level : Nat) (rs : List (Nat × Nat)) (w : s.ms.wf) :
    (s.cmoPage core vdev op level rs).ms.wf := by
  have hc : (if op ≠ 2 && level = 2 then s.l2CleanRanges core vdev rs else s).ms.wf := ite_wf (s.l2CleanRanges_wf core vdev rs w) w
  unfold State.cmoPage
  revert hc
  generalize (if op ≠ 2 && level = 2 then s.l2CleanRanges core vdev rs else s) = t
  intro hc
  have hd := ite_wf (c := 1 ≤ level) (State.l2DropRanges_wf _ (stoveOf core) rs (t.l1DropRanges_wf core rs hc)) (t.l1DropRanges_wf core rs hc)
  exact ite_wf hc (ite_wf (State.mscDropRanges_wf _ rs hd) hd)

theorem State.cmoReach_wf (core vdev va : Nat) (need : Need) (fuel : Nat) (s : State) (w : s.ms.wf) :
    (State.cmoReach core vdev va need fuel s).2.ms.wf := by
  induction fuel generalizing s with
  | zero => exact w
  | succ fuel ih =>
    have hx := s.xlateFor_wf core vdev va (fun e => (need.check e).isSome) w
    unfold State.cmoReach
    split
    next e => exact wf_of_eq e hx
    next e => exact wf_of_eq e hx
    next x s' e =>
      have w' := wf_of_eq e hx
      split
      · exact w'
      · have ha := s'.adUpdate_wf x false w'
        split
        next e => exact wf_of_eq₃ e ha
        next e => exact ih _ (wf_of_eq₃ e ha)

/-- What going over the pages of a `CMO` comes to leaves memory canonical. -/
def CmoResWf (r : CmoRes) : Prop :=
  match r with
  | .ok s | .trap _ _ s => s.ms.wf
  | .wait _ => True

theorem ite_cmoResWf {c : Prop} [Decidable c] {r q : CmoRes} (wr : CmoResWf r) (wq : CmoResWf q) : CmoResWf (if c then r else q) :=
  iteInduction (fun _ => wr) fun _ => wq

theorem State.cmoPages_wf (core : Nat) (k : Ctx) (op level lo hi fuel c : Nat) (s : State) (w : s.ms.wf) :
    CmoResWf (State.cmoPages core k op level lo hi fuel c s) := by
  induction fuel generalizing c s with
  | zero => exact w
  | succ fuel ih =>
    have hr := State.cmoReach_wf core k.bd.vdev (max lo (65536 * c)) ⟨op == 1, op != 1, false, some maskLs, some k.sr.pkp⟩ 2 s w
    unfold State.cmoPages
    dsimp only
    split
    next e =>
      have w' := wf_of_eq e hr
      exact w'
    · trivial
    next e =>
      exact ite_cmoResWf trivial (ite_cmoResWf trivial (ih _ _ (State.cmoPage_wf _ _ _ _ _ _ (wf_of_eq e hr))))

theorem execCmo_wf (o : L) (w : s.ms.wf) : OutWf (execCmo h o s) := by
  refine issueWord_wf w fun m a w => ite_resWf w (ite_resWf trivial (ite_resWf trivial ?_))
  extract_lets ea lo hi
  have hp := State.cmoPages_wf m.core m.k o.sz.toNat o.sc.toNat lo hi ((hi - 1) / 65536 + 1 - lo / 65536) (lo / 65536) m.s w
  split
  next e => rw [e] at hp; exact hp
  next e => rw [e] at hp; exact fun _ _ => hp
  · trivial

end Sys2Proof.Machine
end

