-- ==== Sys2Proof/Proofs/CanonControl.lean ====
section
/-! SUPPORT. O13: windows, stream control, the engines' common steps, events, sparks and task enqueues keep memory canonical. -/
namespace Sys2Proof.Machine

variable {i : Instr} {h : Hdr} {s : State}

/-! ## Windows (R287 to R295) -/

theorem resWf_trap (c : BitVec 8) (v : Word) : ResWf (.trap c v) := trivial

theorem execWbind_wf (o : S3) (w : s.ms.wf) : OutWf (execWbind h o s) := by
  refine issueWord_wf w fun m a w => ite_resWf (resWf_done_put _ _ _ _ w) ?_
  split
  · trivial
  · exact ite_resWf trivial (ite_resWf trivial (resWf_done_put _ _ _ _ w))

theorem Mach.storeBacks_wf (m : Mach) (l : List GPiece) (w : m.s.ms.wf) : (m.storeBacks l).s.ms.wf := by
  refine foldl_keeps (fun m : Mach => m.s.ms.wf) _ (fun m p w => ?_) l m w
  exact w

theorem Mach.writeBack_wf (m : Mach) (slot : Nat) (sh : WinShape) (x : Win) (t n : Nat) (f : Mach → Res) (w : m.s.ms.wf)
    (hf : ∀ m : Mach, m.s.ms.wf → ResWf (f m)) : ResWf (m.writeBack slot sh x t n f) := by
  have hr := m.reachPieces_wf m.k.needSt false (backPieces sh x t n) 0 m.s w
  unfold Mach.writeBack
  refine ite_resWf (hf m w) (ite_resWf trivial ?_)
  split
  next e => rw [e] at hr; exact hr
  next e => rw [e] at hr; exact hf _ (Mach.storeBacks_wf _ _ hr)

theorem execWadv_wf (o : SI) (w : s.ms.wf) : OutWf (execWadv h o s) := by
  refine issueWord_wf w fun m a w => ite_resWf (resWf_done_put _ _ _ _ w) ?_
  split
  · exact ite_resWf trivial (m.writeBack_wf _ _ _ _ _ _ w fun _ w => resWf_done_put _ _ _ _ w)
  · trivial

theorem execWrel_wf (o : S3) (w : s.ms.wf) : OutWf (execWrel h o s) := by
  refine issueWord_wf w fun m a w => ite_resWf (resWf_done_put _ _ _ _ w) ?_
  split
  · split
    · exact m.writeBack_wf _ _ _ _ _ _ w fun _ w => resWf_done_put _ _ _ _ w
    · exact resWf_done_put _ _ _ _ w
    · exact resWf_done_put _ _ _ _ w
  · trivial

theorem ldwMapped_wf (o : L) (slot t b : Nat) (sh : WinShape) (x : Win) (m : Mach) (w : m.s.ms.wf) :
    ResWf (ldwMapped o slot t b sh x m) := by
  unfold ldwMapped
  split
  · exact ite_resWf (fun _ w => w) fun _ w => w
  · exact ite_resWf trivial (Mach.loadNow_wf _ _ _ w)

theorem execLdw_wf (o : L) (w : s.ms.wf) : OutWf (execLdw h o s) := by
  refine issueWord_wf w fun m a w => ite_resWf (m.loadSkip_wf o w) ?_
  split
  · exact ite_resWf (ite_resWf trivial (Mach.loadNow_wf _ _ _ w))
      (ite_resWf trivial (ite_resWf trivial (ite_resWf trivial (ldwMapped_wf _ _ _ _ _ _ m w))))
  · trivial

/-- What reading the memory of a fill comes to leaves memory canonical. -/
def FillResWf (r : FillRes) : Prop :=
  match r with
  | .ok _ s | .fault _ _ _ s => s.ms.wf
  | .wait => True

theorem State.fillPieces_wf (core : Nat) (k : Ctx) (f : Fill) (l : List (Nat × Nat)) (s : State) (w : s.ms.wf) :
    FillResWf (State.fillPieces core k f l s) := by
  induction l generalizing s with
  | nil => exact w
  | cons p rest ih =>
    obtain ⟨va, n⟩ := p
    have hl := s.lookRow_wf core k va f.need w
    unfold State.fillPieces
    split
    next e =>
      have w' := wf_of_eq e hl
      exact w'
    · trivial
    next t s' e =>
      have w' := wf_of_eq e hl
      split
      · trivial
      · split
        · exact w'
        · have hr := ih _ (s'.pathBytes_wf t.path t.acc t.pa n w')
          dsimp only
          split
          next e => rw [e] at hr; exact hr
          · exact hr

theorem State.fillRing_wf (s : State) (core : Nat) (k : Ctx) (f : Fill) (bytes : List Byte) (w : s.ms.wf) :
    (s.fillRing core k f bytes).ms.wf := MemSt.spadPut_wf _ _ w

theorem execWindowFillComplete_wf (x : CtxRef) (slot : BitVec 4) (row : Word) (w : s.ms.wf) :
    OutWf (execWindowFillComplete x slot row s) := by
  unfold execWindowFillComplete
  split
  · exact w
  next k _ =>
    dsimp only
    split
    · exact w
    next f _ =>
      split
      · exact s.fillRing_wf _ k f _ w
      · have hp := State.fillPieces_wf x.core.toNat k f (pagePieces f.va f.n) s w
        split
        · exact w
        next e => rw [e] at hp; exact State.cxlSettle_wf _ x hp
        next s' e => rw [e] at hp; exact State.cxlSettle_wf _ x (s'.fillRing_wf _ k f _ hp)

/-! ## Stream control (R121 to R125, R143 to R148, R404 to R406) -/

theorem branchTo_wf (m : Mach) (target : Word) (f : Mach → Mach) (w : (f m).s.ms.wf) : ResWf (branchTo m target f) :=
  ite_resWf trivial w

theorem execBr_wf (o : SB) (w : s.ms.wf) : OutWf (execBr h o s) :=
  issueWord_wf w fun m _ w => ite_resWf (branchTo_wf m _ id w) w

theorem execCall_wf (o : SB) (w : s.ms.wf) : OutWf (execCall h o s) :=
  issueWord_wf w fun m _ w => ite_resWf (branchTo_wf m _ _ (resWf_done_put o.s1 true (m.t.pc + 8) true w)) w

theorem execRet_wf (o : SB) (w : s.ms.wf) : OutWf (execRet h o s) :=
  issueWord_wf w fun m _ w => ite_resWf (branchTo_wf m _ id w) w

theorem execJmpr_wf (o : SB) (w : s.ms.wf) : OutWf (execJmpr h o s) :=
  issueWord_wf w fun m _ w => ite_resWf (branchTo_wf m _ id w) w

theorem execBrq_wf (o : SB) (w : s.ms.wf) : OutWf (execBrq h o s) :=
  issueWord_wf w fun m _ w => ite_resWf (branchTo_wf m _ id w) w

theorem modlBody_wf (o : ML) (m : Mach) (a : Opnds) (w : m.s.ms.wf) : ResWf (modlBody o m a) := by
  unfold modlBody
  dsimp only
  split
  · trivial
  · trivial
  · exact ite_resWf w w

theorem execModl_wf (o : ML) (w : s.ms.wf) : OutWf (execModl h o s) := issueWord_wf w (modlBody_wf o)

theorem execQstat_wf (o : S3) (w : s.ms.wf) : OutWf (execQstat h o s) := issueWord_wf w fun _ _ => resWf_done_put _ _ _ _

theorem execPkw_wf (o : S3) (w : s.ms.wf) : OutWf (execPkw h o s) :=
  issueWord_wf w fun _ _ w => ite_machWf (resWf_done_put _ _ _ _ w) (resWf_done_put _ _ _ _ w)

theorem execTrap_wf (o : SI) (w : s.ms.wf) : OutWf (execTrap h o s) := issueWord_wf w fun _ _ w => ite_resWf w w

@[simp] theorem Mach.eret_s (m : Mach) : m.eret.s = m.s := rfl

theorem execEret_wf (o : S3) (w : s.ms.wf) : OutWf (execEret h o s) := issueWord_wf w fun _ _ w => ite_resWf w w

theorem Mach.offerSwitch_wf (m : Mach) (w : m.s.ms.wf) : m.offerSwitch.s.ms.wf := by
  rw [Mach.offerSwitch_s]; exact w

theorem execYield_wf (o : S3) (w : s.ms.wf) : OutWf (execYield h o s) :=
  issueWord_wf w fun m _ w => ite_machWf (m.offerSwitch_wf w) w

theorem execWait_wf (o : SI) (w : s.ms.wf) : OutWf (execWait h o s) :=
  issueWord_wf w fun _ _ w => ite_resWf w (ite_resWf (ite_machWf w w) (ite_resWf w trivial))

theorem Mach.eqGate_wf (m : Mach) (body : Mach → Res) (w : m.s.ms.wf) (hbody : ∀ m : Mach, m.s.ms.wf → ResWf (body m)) :
    ResWf (m.eqGate body) := by
  unfold Mach.eqGate
  split
  next e =>
    obtain ⟨_, _, rfl⟩ := Option.map_eq_some_iff.mp e
    exact fun _ w => w
  · exact hbody _ w

theorem Mach.offerIfIdle_wf (m : Mach) (w : m.s.ms.wf) : m.offerIfIdle.s.ms.wf := by
  rw [Mach.offerIfIdle_s]; exact w

theorem execHalt_wf (o : S3) (w : s.ms.wf) : OutWf (execHalt h o s) := by
  refine issueWord_wf w fun m a w => ?_
  have hbody (m : Mach) (w : m.s.ms.wf) : ResWf (if !a.act then .done m else if !m.drained then .wait .register
      else if !m.k.roomFor (fifosOut m.st h.pa) then .hold (m.str fun t => { t with prog := some ⟨0, 0, none⟩ }) .push
      else .done ((m.str fun t => { t with halted := true }).offerIfIdle)) :=
    ite_resWf w (ite_resWf trivial (ite_resWf w (Mach.offerIfIdle_wf _ w)))
  split
  · exact m.eqGate_wf _ w hbody
  · exact hbody m w

theorem execNop_wf (o : S3) (w : s.ms.wf) : OutWf (execNop h o s) := issueWord_wf w fun _ _ w => w

theorem illegalWord_wf (x : Word) (w : s.ms.wf) : OutWf (illegalWord x s) := by
  unfold illegalWord
  split
  next e =>
    have w' := wf_of_eq e (Mach.enter_wf s w)
    exact w'
  next e => exact Mach.trapped_wf _ _ _ _ _ (Mach.enter_some_wf e w)

theorem Mach.payOwed_wf (m : Mach) (w : m.s.ms.wf) : m.payOwed.s.ms.wf := by
  rw [Mach.payOwed_s]; exact w

theorem execInstructionFetchFault_wf (x : CtxRef) (st : Stream) (w : s.ms.wf) : OutWf (execInstructionFetchFault x st s) := by
  unfold execInstructionFetchFault
  split
  next e =>
    have w' := wf_of_eq e (Mach.enter_wf _ w)
    exact w'
  next m _ e =>
    have wm := Mach.enter_some_wf e w
    split
    · exact m.payOwed_wf wm
    · have hf := m.fetchAt_wf m.t.pc wm
      split
      next e => rw [e] at hf; exact Mach.trapped_wf _ _ _ _ _ hf
      next e => rw [e] at hf; exact hf

/-! ## What the engines have in common (R307 to R317) -/

@[simp] theorem State.retireCmd_ms (s : State) (x : CtxRef) (k : Ctx) (c : Cmd) (status : Nat) (value : Word) (aux : Nat)
    (sectors : List Nat) : (s.retireCmd x k c status value aux sectors).ms = s.ms := by
  unfold State.retireCmd
  dsimp only
  split
  · rfl
  · rfl

theorem State.retireCmd_wf (s : State) (x : CtxRef) (k : Ctx) (c : Cmd) (status : Nat) (value : Word) (aux : Nat)
    (sectors : List Nat) (w : s.ms.wf) : (s.retireCmd x k c status value aux sectors).ms.wf := by
  rw [State.retireCmd_ms]; exact w

theorem State.cancelCmd_wf (s : State) (x : CtxRef) (k : Ctx) (c : Cmd) (by_ : BitVec 16) (w : s.ms.wf) :
    (s.cancelCmd x k c by_).ms.wf := s.retireCmd_wf _ _ _ _ _ _ _ w

theorem State.areaUpdate_wf (s : State) (p : Saved) (k : Ctx) (w : s.ms.wf) : (s.areaUpdate p k).ms.wf := by
  refine foldl_keeps (fun s : State => s.ms.wf) _ (fun s i w => ?_) _ s w
  exact ite_wf (s.pkgPutWord_wf _ _ w) w

theorem State.onSaved_wf (s : State) (p : Saved) (f : State → State) (w : s.ms.wf) (hf : ∀ s : State, s.ms.wf → (f s).ms.wf) :
    (s.onSaved p f).ms.wf := by
  have w' := hf (s.setCtx p.x p.k) w
  unfold State.onSaved
  dsimp only
  refine State.areaUpdate_wf _ _ _ ?_
  split
  · exact w'
  · exact w'

theorem State.atCmd_wf (s : State) (x : CtxRef) (seq : BitVec 16) (p : Cmd → Bool) (f : State → Ctx → Cmd → State) (w : s.ms.wf)
    (hf : ∀ (s : State) (k : Ctx) (c : Cmd), s.ms.wf → (f s k c).ms.wf) : (s.atCmd x seq p f).ms.wf := by
  have hrun (s : State) (w : s.ms.wf) : (match s.ctx? x with
      | none => s
      | some k =>
        match (k.cmd? seq).filter p with
        | none => s
        | some c => f s k c).ms.wf := by
    split
    · exact w
    · split
      · exact w
      · exact hf _ _ _ w
  unfold State.atCmd
  refine ite_wf (hrun s w) ?_
  split
  · exact w
  · exact s.onSaved_wf _ _ w hrun

theorem State.withCmd_wf (s : State) (x : CtxRef) (seq : BitVec 16) (p : Cmd → Bool) (f : State → Ctx → Cmd → State) (w : s.ms.wf)
    (hf : ∀ (s : State) (k : Ctx) (c : Cmd), s.ms.wf → (f s k c).ms.wf) : OutWf (s.withCmd x seq p f) := s.atCmd_wf x seq p f w hf

theorem State.startCmd_wf (s : State) (x : CtxRef) (k : Ctx) (c : Cmd) (f : State → State) (w : s.ms.wf)
    (hf : ∀ s : State, s.ms.wf → (f s).ms.wf) : (s.startCmd x k c f).ms.wf := by
  unfold State.startCmd
  split
  · exact ite_wf (s.cancelCmd_wf x k c _ w) w
  · exact ite_wf (hf s w) w

theorem Mach.skipCmd_wf (m : Mach) (opc : Nat) (out : Option (BitVec 6)) (w : m.s.ms.wf) : (m.skipCmd opc out).s.ms.wf := by
  unfold Mach.skipCmd
  split
  · exact resWf_done_put _ _ _ _ w
  · exact w

theorem Mach.engineWord_wf (m : Mach) (h : Hdr) (o : E) (opc : Nat) (act : Bool) (out : Option (BitVec 6)) (args : EngArgs)
    (w : m.s.ms.wf) : ResWf (m.engineWord h o opc act out args) := by
  unfold Mach.engineWord
  refine ite_resWf trivial (ite_resWf (m.skipCmd_wf _ _ w) (ite_resWf trivial (ite_resWf trivial ?_)))
  split
  · trivial
  · split
    · trivial
    · exact w

theorem Mach.put2nd_wf (m : Mach) (q : Nat) (act : Bool) (v : Word) (w : m.s.ms.wf) : ResWf (m.put2nd q act v) := ite_resWf w w

theorem Mach.put2_wf (m : Mach) (o : S3) (act : Bool) (v u : Word) (w : m.s.ms.wf) : ResWf (m.put2 o act v u) := by
  have hp := resWf_done_put o.dst act v act w
  exact ite_resWf (Mach.put2nd_wf _ _ _ _ hp) (resWf_done_put _ _ _ _ hp)

theorem Mach.two_wf (m : Mach) (o : S3) (act : Bool) (body : Mach → Res) (w : m.s.ms.wf) (hbody : ∀ m : Mach, m.s.ms.wf → ResWf (body m)) :
    ResWf (m.two o act body) := by
  unfold Mach.two
  split
  · exact m.put2nd_wf _ _ _ w
  · exact hbody m w

theorem deqBody_wf (i : Instr) (o : S3) (eng : Nat) (act : Bool) (m : Mach) (w : m.s.ms.wf) : ResWf (deqBody i o eng act m) := by
  unfold deqBody
  refine ite_resWf (m.put2_wf _ _ _ _ w) ?_
  split
  next r rest _ =>
    have hd : (r.sectors.foldl (fun s sec => s.l1Drop m.core sec) m.s).ms.wf :=
      foldl_keeps (fun s : State => s.ms.wf) _ (fun s sec w => s.l1Drop_wf _ _ w) _ _ w
    exact Mach.put2_wf _ _ _ _ _ hd
  · exact ite_resWf (m.put2_wf _ _ _ _ w) (ite_resWf trivial fun m w => yieldWait_wf i _ (ite_machWf w w))

theorem execDeq_wf (o : S3) (w : s.ms.wf) : OutWf (execDeq h o s) :=
  issueWord_wf w fun m _ w => m.two_wf _ _ _ w fun m w => ite_resWf (m.eqGate_wf _ w (deqBody_wf _ _ _ _)) (deqBody_wf _ _ _ _ m w)

theorem execEngst_wf (o : S3) (w : s.ms.wf) : OutWf (execEngst h o s) :=
  issueWord_wf w fun m _ w => ite_resWf (m.eqGate_wf _ w fun _ => resWf_done_put _ _ _ _) (resWf_done_put _ _ _ _ w)

/-! ## Events, sparks and task enqueues (R365 to R374) -/

theorem execEva_wf (o : S3) (w : s.ms.wf) : OutWf (execEva h o s) :=
  issueWord_wf w fun _ _ w => ite_resWf (resWf_done_put _ _ _ _ w) (ite_resWf trivial (resWf_done_put _ _ _ _ w))

theorem eventBody_wf (o : S3) (act : Bool) (m : Mach) (empty : Res) (w : m.s.ms.wf) (he : ResWf empty) : ResWf (eventBody o act m empty) := by
  unfold eventBody
  refine ite_resWf (Mach.put2_wf _ _ _ _ _ w) ?_
  split
  · exact Mach.put2_wf _ _ _ _ _ w
  · exact he

theorem execEvw_wf (o : S3) (w : s.ms.wf) : OutWf (execEvw h o s) :=
  issueWord_wf w fun m _ w => m.two_wf _ _ _ w fun m w => eventBody_wf _ _ m _ w fun _ w => yieldWait_wf _ _ w

theorem execEvq_wf (o : S3) (w : s.ms.wf) : OutWf (execEvq h o s) :=
  issueWord_wf w fun m _ w => m.two_wf _ _ _ w fun m w => eventBody_wf _ _ m _ w (Mach.put2_wf _ _ _ _ _ w)

theorem execSpk_wf (o : E) (w : s.ms.wf) : OutWf (execSpk h o s) := issueWord_wf w fun m _ w => m.engineWord_wf _ _ _ _ _ _ w

theorem execTkenq_wf (o : E) (w : s.ms.wf) : OutWf (execTkenq h o s) := issueWord_wf w fun m _ w => m.engineWord_wf _ _ _ _ _ _ w

theorem State.deliverSpark_wf (s : State) (x : CtxRef) (k : Ctx) (from_ handler : Word) (payload : List Byte) (w : s.ms.wf) :
    (s.deliverSpark x k from_ handler payload).ms.wf := s.spWrite_wf _ _ _ w

theorem State.enqueueDone_wf (s : State) (x : CtxRef) (k : Ctx) (c : Cmd) (refused : Bool) (w : s.ms.wf) :
    (s.enqueueDone x k c refused).ms.wf := s.retireCmd_wf _ _ _ _ _ _ _ w

theorem State.sparkDrop_wf (s : State) (p : Nat) (from_ : Word) (seq : BitVec 16) (w : s.ms.wf) : (s.sparkDrop p from_ seq).ms.wf := w

theorem State.send_wf (s : State) (p : Nat) (ms : List LinkMsg) (w : s.ms.wf) : (s.send p ms).ms.wf := w

theorem State.sparkAct_wf (s : State) (x : CtxRef) (k : Ctx) (c : Cmd) (w : s.ms.wf) : (s.sparkAct x k c).ms.wf := by
  have hd (b : Bool) := s.enqueueDone_wf x k c b w
  unfold State.sparkAct
  dsimp only
  split
  · split
    · exact hd true
    · exact ite_wf (hd true) (ite_wf (State.deliverSpark_wf _ _ _ _ _ _ (s.retireCmd_wf _ _ _ _ _ _ _ w))
        (State.deliverSpark_wf _ _ _ _ _ _ (hd false)))
  · split
    · split
      · exact hd true
      · exact ite_wf (State.enqueueDone_wf _ _ _ _ _ (s.sparkDrop_wf _ _ _ w)) w
    · split
      · exact hd true
      · exact ite_wf (hd true) (ite_wf w (State.send_wf _ _ _ w))

theorem execSparkDeliver_wf (x : CtxRef) (seq : BitVec 16) (w : s.ms.wf) : OutWf (execSparkDeliver x seq s) :=
  s.withCmd_wf x seq _ _ w fun s k c w => s.startCmd_wf x k c _ w fun s w => s.sparkAct_wf x k c w

theorem State.queueAppend_wf (s : State) (q : Nat) (bytes : List Byte) (w : s.ms.wf) : (s.queueAppend q bytes).ms.wf :=
  State.pkgPut_wf _ _ _ (s.pkgPut_wf _ _ w)

/-- What reading the record of a `TKENQ` comes to leaves memory canonical. -/
def RecReadWf (r : RecRead) : Prop :=
  match r with
  | .ok _ s | .fail _ s => s.ms.wf
  | .wait => True

theorem State.taskRecord_wf (s : State) (core vdev va : Nat) (w : s.ms.wf) : RecReadWf (s.taskRecord core vdev va) := by
  have hr := s.reach_wf core vdev va ⟨true, false, false, some maskLs, none⟩ w
  unfold State.taskRecord
  split
  next e =>
    have w' := wf_of_eq e hr
    exact w'
  · trivial
  next x s' e =>
    have w' := wf_of_eq e hr
    have hd := s'.pkgDwords_wf ⟨core, vdev, lfTag x.leaf, 0⟩ (x.pa va) 16 w'
    split
    · exact w'
    · split
      · trivial
      · dsimp only
        split
        · exact hd
        · exact hd

theorem State.tkenqAct_wf (s : State) (x : CtxRef) (k : Ctx) (c : Cmd) (w : s.ms.wf) : (s.tkenqAct x k c).ms.wf := by
  have hr := s.taskRecord_wf x.core.toNat k.bd.vdev c.o2.toNat w
  unfold State.tkenqAct
  dsimp only
  split
  · exact w
  next e => rw [e] at hr; exact State.retireCmd_wf _ _ _ _ _ _ _ _ hr
  next e => rw [e] at hr; exact ite_wf (State.enqueueDone_wf _ _ _ _ _ hr) (State.queueAppend_wf _ _ _ (State.enqueueDone_wf _ _ _ _ _ hr))

theorem execTaskEnqueueAppend_wf (x : CtxRef) (seq : BitVec 16) (w : s.ms.wf) : OutWf (execTaskEnqueueAppend x seq s) :=
  s.withCmd_wf x seq _ _ w fun s k c w => s.startCmd_wf x k c _ w fun s w => s.tkenqAct_wf x k c w

theorem State.cleanStove_wf (s : State) (core vdev : Nat) (w : s.ms.wf) : (s.cleanStove core vdev).ms.wf := s.l2CleanRanges_wf _ _ _ w

theorem execTksig_wf (o : S3) (w : s.ms.wf) : OutWf (execTksig h o s) :=
  issueWord_wf w fun m _ w =>
    ite_resWf w (ite_resWf trivial (ite_resWf trivial (ite_resWf trivial (m.s.cleanStove_wf _ _ w))))

end Sys2Proof.Machine
end

