-- ==== Sys2Proof/Proofs/CanonGrate.lean ====
section
/-! SUPPORT. O13: what the grates do keeps memory canonical (spec/12, spec/19). -/
namespace Sys2Proof.Machine

variable {h : Hdr} {s : State}

/-! ## The words -/

theorem execGadd_wf (o : E) (w : s.ms.wf) : OutWf (execGadd h o s) := issueWord_wf w fun m _ w => m.engineWord_wf _ _ _ _ _ _ w
theorem execGaxpy_wf (o : E) (w : s.ms.wf) : OutWf (execGaxpy h o s) := issueWord_wf w fun m _ w => m.engineWord_wf _ _ _ _ _ _ w
theorem execGamo_wf (o : E) (w : s.ms.wf) : OutWf (execGamo h o s) := issueWord_wf w fun m _ w => m.engineWord_wf _ _ _ _ _ _ w
theorem execGqop_wf (o : E) (w : s.ms.wf) : OutWf (execGqop h o s) := issueWord_wf w fun m _ w => m.engineWord_wf _ _ _ _ _ _ w
theorem execGred_wf (o : E) (w : s.ms.wf) : OutWf (execGred h o s) := issueWord_wf w fun m _ w => m.engineWord_wf _ _ _ _ _ _ w
theorem execGfen_wf (o : E) (w : s.ms.wf) : OutWf (execGfen h o s) := issueWord_wf w fun m _ w => m.engineWord_wf _ _ _ _ _ _ w

/-! ## Pages, the order log, reads and writes -/

/-- What translating a page for an engine comes to leaves memory canonical. -/
def EReachWf (r : EReach) : Prop :=
  match r with
  | .ok _ s | .fail _ s | .wait s => s.ms.wf

theorem ite_eReachWf {c : Prop} [Decidable c] {r q : EReach} (wr : EReachWf r) (wq : EReachWf q) : EReachWf (if c then r else q) :=
  iteInduction (fun _ => wr) fun _ => wq

theorem State.gratePage_wf (s : State) (core vdev va : Nat) (wr : Bool) (w : s.ms.wf) : EReachWf (s.gratePage core vdev va wr) := by
  have hx := s.xlateFor_wf core vdev va
    (fun e => ((⟨!wr, wr, false, some maskGr, none⟩ : Need).check e).isSome || lfMg e) w
  unfold State.gratePage
  dsimp only
  split
  next e =>
    have w' := wf_of_eq e hx
    exact w'
  next e =>
    have w' := wf_of_eq e hx
    exact w'
  next e =>
    have w' := wf_of_eq e hx
    exact ite_eReachWf w' (ite_eReachWf w' (ite_eReachWf w' w'))

theorem State.taskFlags_wf (s : State) (k : Ctx) (f : BitVec 5) (w : s.ms.wf) : (s.taskFlags k f).ms.wf := ite_wf w w

theorem State.setReg_wf (s : State) (o : Nat) (v : Word) (w : s.ms.wf) : (s.setReg o v).ms.wf := by
  rw [State.setReg_ms]; exact w

theorem ite_optWf {c : Prop} [Decidable c] {o p : Option State} (wo : OptWf o) (wp : OptWf p) : OptWf (if c then o else p) :=
  iteInduction (fun _ => wo) fun _ => wp

theorem State.logAppend_wf (s : State) (x : CtxRef) (k : Ctx) (c : Cmd) (copy : Bool) (sec : Nat) (w : s.ms.wf) :
    OptWf (s.logAppend x k c copy sec) := by
  unfold State.logAppend
  extract_lets _ n
  refine ite_optWf (c := _ ≤ n) optWf_none ?_
  extract_lets
  exact optWf_some (State.setReg_wf _ _ _ (State.pkgPutWord_wf _ _ _ (s.pkgPutWord_wf _ _ w)))

-- An equation lemma of `logMatch` makes the kernel run through the log's entries: the definition is put in place of its name.
theorem State.logMatch_wf (s : State) (x : CtxRef) (k : Ctx) (c : Cmd) (copy : Bool) (sec : Nat) (w : s.ms.wf) :
    OptWf (s.logMatch x k c copy sec) := by
  generalize e : State.logMatch = f
  delta State.logMatch at e
  subst e
  beta_reduce
  generalize s.logOldest k.bd.vdev sec = o
  rcases o with _ | ⟨i, a, b⟩
  · exact optWf_none
  · exact ite_optWf (optWf_some w) optWf_none

theorem State.orderGate_wf (s : State) (x : CtxRef) (k : Ctx) (c : Cmd) (copy : Bool) (sec : Nat) (w : s.ms.wf) :
    OptWf (s.orderGate x k c copy sec) := by
  unfold State.orderGate
  split
  · exact optWf_some w
  · split
    · exact s.logMatch_wf x k c copy sec w
    · exact s.logAppend_wf x k c copy sec w

/-- What holds of a term for every value of its `have` holds of it. -/
theorem have_keeps {α β : Type} (P : β → Prop) (a : α) (B : α → β) (h : ∀ v, P (B v)) : P (have v := a; B v) := h _

theorem execReplayMatchTimeout_wf (vdev : BitVec 6) (w : s.ms.wf) : OutWf (execReplayMatchTimeout vdev s) := by
  have hs (a : Nat) (u : Word) : (s.setReg a u).ms.wf := s.setReg_wf a u w
  have hn (t : State) (w : t.ms.wf) : OutWf (.next t) := w
  generalize e : execReplayMatchTimeout = f
  delta execReplayMatchTimeout at e
  subst e
  generalize OutWf = P at hn ⊢
  beta_reduce
  refine have_keeps P vdev.toNat (fun _ => _) fun _ => ?_
  generalize List.find? _ _ = o
  rcases o with _ | j
  · exact hn _ w
  · refine iteInduction (motive := P) (fun _ => hn _ w) fun _ => ?_
    generalize s.pkgWord = g
    exact hn _ (hs (logReg vdev.toNat) (s.reg (logReg vdev.toNat) ||| W (2 ^ 62)))

theorem State.grateRead_wf (s : State) (acc : Acc) (kind pa n : Nat) (w : s.ms.wf) : (s.grateRead acc kind pa n).2.2.ms.wf :=
  foldl_keeps (fun r : List Byte × Bool × State => r.2.2.ms.wf) _ (fun r _ h => r.2.2.mscReadFor_wf acc kind _ h) _ _ w

theorem State.grateWrite_wf (s : State) (acc : Acc) (ws : List (Nat × Byte)) (w : s.ms.wf) : (s.grateWrite acc ws).ms.wf :=
  ite_wf w (State.aliens_wf _ _ (s.mscWrite_wf _ _ _ w))

theorem State.grateDone_wf (s : State) (x : CtxRef) (k : Ctx) (c : Cmd) (acc : Acc) (r : GAct) (w : s.ms.wf) :
    (s.grateDone x k c acc r).ms.wf := by
  unfold State.grateDone
  split
  · exact s.retireCmd_wf _ _ _ _ _ _ _ w
  · have hg (ws : List (Nat × Byte)) := s.grateWrite_wf acc ws w
    exact State.retireCmd_wf _ _ _ _ _ _ _ _ (State.taskFlags_wf _ _ _ (ite_wf (hg _) (State.spWrite_wf _ _ _ _ (hg _))))

/-! ## A command on one target (R318 to R323) -/

theorem State.loggedActs_wf (x : CtxRef) (acc : Acc) (pa n fuel i : Nat) (s : State) (k : Ctx) (c : Cmd) (w : s.ms.wf) :
    (State.loggedActs x acc pa n fuel i s k c).ms.wf := by
  induction fuel generalizing i s with
  | zero => exact w
  | succ fuel ih =>
    have hr := s.grateRead_wf acc 2 (pa + (rowPart pa n i).1) (rowPart pa n i).2 w
    unfold State.loggedActs
    dsimp only
    split
    · exact State.retireCmd_wf _ _ _ _ _ _ _ _ hr
    · have hg := State.orderGate_wf _ x k c false (pa / 64 + i) hr
      split
      · exact w
      next s' e =>
        have hd (ws : List (Nat × Byte)) (fl : BitVec 5) := State.taskFlags_wf _ k fl (s'.grateWrite_wf acc ws (hg s' e))
        exact ite_wf (State.retireCmd_wf _ _ _ _ _ _ _ _ (hd _ _)) (ih _ _ (hd _ _))

theorem State.targetGo_wf (s : State) (x : CtxRef) (k : Ctx) (c : Cmd) (w : s.ms.wf) : (s.targetGo x k c).ms.wf := by
  unfold State.targetGo
  split
  · exact w
  · exact State.loggedActs_wf _ _ _ _ _ _ _ _ _ w

theorem State.targetAct_wf (s : State) (x : CtxRef) (k : Ctx) (c : Cmd) (w : s.ms.wf) : (s.targetAct x k c).ms.wf := by
  have hp := s.gratePage_wf x.core.toNat k.bd.vdev c.o1.toNat true w
  unfold State.targetAct
  refine ite_wf (s.targetGo_wf x k c w) ?_
  split
  next e => rw [e] at hp; exact hp
  next e => rw [e] at hp; exact State.retireCmd_wf _ _ _ _ _ _ _ _ hp
  next xl s' e =>
    rw [e] at hp
    have hr := s'.grateRead_wf (k.grateAcc x.core.toNat xl) 2 (xl.pa c.o1.toNat) c.targetBytes hp
    refine ite_wf (s'.retireCmd_wf _ _ _ _ _ _ _ hp) ?_
    dsimp only
    generalize s'.grateRead (k.grateAcc x.core.toNat xl) 2 (xl.pa c.o1.toNat) c.targetBytes = q at hr ⊢
    generalize c.actOn (xl.pa c.o1.toNat) q.1 q.2.1 = r
    have ha := q.2.2.adUpdate_wf xl r.writes hr
    split
    next e => exact wf_of_eq₃ e ha
    next e =>
      have wa := wf_of_eq₃ e ha
      split
      · exact State.grateDone_wf _ _ _ _ _ _ wa
      · exact ite_wf (State.targetGo_wf _ _ _ _ wa) (State.grateDone_wf _ _ _ _ _ _ wa)

/-! ## GRED (R324) -/

/-- What translating the rows of a `GRED` comes to leaves memory canonical. -/
def GRowsWf (r : GRows) : Prop :=
  match r with
  | .ok _ s | .fail _ s | .wait s => s.ms.wf

theorem State.gredPages_wf (core : Nat) (k : Ctx) (ad : Bool) (l : List (Nat × Nat)) (s : State) (w : s.ms.wf) :
    GRowsWf (State.gredPages core k ad l s) := by
  induction l generalizing s with
  | nil => exact w
  | cons p t ih =>
    have hp := s.gratePage_wf core k.bd.vdev p.1 false w
    unfold State.gredPages
    split
    next e => rw [e] at hp; exact hp
    next e => rw [e] at hp; exact hp
    next xl s' e =>
      rw [e] at hp
      have ha : (if ad then s'.adUpdate xl false else (true, xl, s')).2.2.ms.wf := by
        split
        · exact s'.adUpdate_wf xl false hp
        · exact hp
      split
      next e =>
        have wa := wf_of_eq₃ e ha
        exact wa
      next e =>
        have hr := ih _ (wf_of_eq₃ e ha)
        split
        next e => rw [e] at hr; exact hr
        · exact hr

/-- The bytes read with a canonical state, or the canonical state in which one waits. -/
def ReadsWf (r : Except State (List Byte × State)) : Prop :=
  match r with
  | .ok p => p.2.ms.wf
  | .error s => s.ms.wf

theorem State.gredReads_wf (x : CtxRef) (l : List CTgt) (s : State) (k : Ctx) (c : Cmd) (w : s.ms.wf) :
    ReadsWf (State.gredReads x l s k c) := by
  induction l generalizing s c with
  | nil => exact w
  | cons t rest ih =>
    have hr := s.grateRead_wf ⟨x.core.toNat, k.bd.vdev, t.tag, 2⟩ 0 t.pa t.n w
    have hg := State.orderGate_wf _ x k c false (t.pa / 64) hr
    unfold State.gredReads
    dsimp only
    split
    · exact State.retireCmd_wf _ _ _ _ _ _ _ _ hr
    · split
      · exact w
      next s' e => exact ih _ _ (hg s' e)

theorem State.gredGo_wf (s : State) (x : CtxRef) (k : Ctx) (c : Cmd) (w : s.ms.wf) : (s.gredGo x k c).ms.wf := by
  have hr := State.gredReads_wf x (c.reads.drop c.acts) s k c w
  unfold State.gredGo
  dsimp only
  split
  next e => rw [e] at hr; exact hr
  next e => rw [e] at hr; exact State.grateDone_wf _ _ _ _ _ _ hr

theorem State.gredAct_wf (s : State) (x : CtxRef) (k : Ctx) (c : Cmd) (w : s.ms.wf) : (s.gredAct x k c).ms.wf := by
  unfold State.gredAct
  refine ite_wf (s.gredGo_wf x k c w) ?_
  extract_lets core rb pieces
  have hp := State.gredPages_wf core k false pieces s w
  split
  next e => rw [e] at hp; exact hp
  next e => rw [e] at hp; exact State.retireCmd_wf _ _ _ _ _ _ _ _ hp
  next s' e =>
    rw [e] at hp
    refine ite_wf (State.retireCmd_wf _ _ _ _ _ _ _ _ hp) ?_
    have hq := State.gredPages_wf core k true pieces s' hp
    split
    next e => rw [e] at hq; exact hq
    next e => rw [e] at hq; exact State.retireCmd_wf _ _ _ _ _ _ _ _ hq
    next e => rw [e] at hq; exact State.gredGo_wf _ _ _ _ hq

/-! ## A command goes on (R318, R325) -/

theorem State.grateAct_wf (s : State) (x : CtxRef) (k : Ctx) (c : Cmd) (w : s.ms.wf) : (s.grateAct x k c).ms.wf :=
  ite_wf (s.gredAct_wf x k c w) (s.targetAct_wf x k c w)

theorem State.grateLeave_wf (s : State) (x : CtxRef) (k : Ctx) (c : Cmd) (w : s.ms.wf) : (s.grateLeave x k c).ms.wf := w

theorem State.gfenAct_wf (s : State) (x : CtxRef) (k : Ctx) (c : Cmd) (w : s.ms.wf) : (s.gfenAct x k c).ms.wf := by
  unfold State.gfenAct
  refine ite_wf w ?_
  split
  · exact s.cancelCmd_wf x k c _ w
  · exact s.retireCmd_wf _ _ _ _ _ _ _ w

theorem State.grateStep_wf (s : State) (x : CtxRef) (k : Ctx) (c : Cmd) (w : s.ms.wf) : (s.grateStep x k c).ms.wf := by
  unfold State.grateStep
  refine ite_wf (ite_wf (s.gfenAct_wf x k c w) (ite_wf w (s.grateAct_wf x k c w))) (ite_wf w ?_)
  split
  · exact ite_wf (s.grateLeave_wf x k c w) (s.cancelCmd_wf x k c _ w)
  · exact ite_wf (s.grateLeave_wf x k c w) w

theorem execGrateCommandAct_wf (x : CtxRef) (seq : BitVec 16) (w : s.ms.wf) : OutWf (execGrateCommandAct x seq s) :=
  s.withCmd_wf x seq _ _ w fun s k c w => s.grateStep_wf x k c w

/-! ## The release of an epoch (R455) -/

theorem State.onGang_wf (s : State) (g : Gang) (x : CtxRef) (f : State → State) (w : s.ms.wf)
    (hf : ∀ s : State, s.ms.wf → (f s).ms.wf) : (s.onGang g x f).ms.wf := by
  unfold State.onGang
  refine ite_wf (hf s w) ?_
  split
  · exact s.onSaved_wf _ f w hf
  · exact w

theorem State.applyHeld_wf (g : Gang) (l : List (CtxRef × Cmd)) (s : State) (w : s.ms.wf) : (State.applyHeld g l s).ms.wf := by
  refine foldl_keeps (fun s : State => s.ms.wf) _ (fun s p w => s.onGang_wf g p.1 _ w fun s w => ?_) l s w
  split
  · exact w
  · split
    · exact w
    · exact s.grateAct_wf _ _ _ w

theorem State.dropsOf_wf (s t : State) (w : s.ms.wf) : (s.dropsOf t).ms.wf := w

theorem execDetEpochRelease_wf (vdev : BitVec 6) (task : Word) (w : s.ms.wf) : OutWf (execDetEpochRelease vdev task s) := by
  unfold execDetEpochRelease
  split
  · exact w
  next g _ =>
    dsimp only
    split
    · exact w
    · split
      · exact w
      · exact ite_wf (s.dropsOf_wf _ w) (State.applyHeld_wf g _ s w)

end Sys2Proof.Machine
end

