-- ==== Sys2Proof/Proofs/CanonCopy.lean ====
section
/-! SUPPORT. O13: what the copy engine does keeps memory canonical (spec/14). -/
namespace Sys2Proof.Machine

variable {h : Hdr} {s : State}

/-! ## The words -/

theorem execCpym_wf (o : E) (w : s.ms.wf) : OutWf (execCpym h o s) := issueWord_wf w fun m _ w => m.engineWord_wf _ _ _ _ _ _ w
theorem execCpys_wf (o : E) (w : s.ms.wf) : OutWf (execCpys h o s) := issueWord_wf w fun m _ w => m.engineWord_wf _ _ _ _ _ _ w
theorem execRput_wf (o : E) (w : s.ms.wf) : OutWf (execRput h o s) := issueWord_wf w fun m _ w => m.engineWord_wf _ _ _ _ _ _ w
theorem execRget_wf (o : E) (w : s.ms.wf) : OutWf (execRget h o s) := issueWord_wf w fun m _ w => m.engineWord_wf _ _ _ _ _ _ w
theorem execCgth_wf (o : E) (w : s.ms.wf) : OutWf (execCgth h o s) := issueWord_wf w fun m _ w => m.engineWord_wf _ _ _ _ _ _ w
theorem execCsct_wf (o : E) (w : s.ms.wf) : OutWf (execCsct h o s) := issueWord_wf w fun m _ w => m.engineWord_wf _ _ _ _ _ _ w
theorem execCpgi_wf (o : E) (w : s.ms.wf) : OutWf (execCpgi h o s) := issueWord_wf w fun m _ w => m.engineWord_wf _ _ _ _ _ _ w

/-! ## Translating the pages of a command (R357) -/

/-- What translating the pages of a copy comes to leaves memory canonical. -/
def CReachWf (r : CReach) : Prop :=
  match r with
  | .ok _ s | .fail _ s | .wait s => s.ms.wf

theorem ite_cReachWf {c : Prop} [Decidable c] {r q : CReach} (wr : CReachWf r) (wq : CReachWf q) : CReachWf (if c then r else q) :=
  iteInduction (fun _ => wr) fun _ => wq

theorem State.copyXlate_wf (stove vdev : Nat) (l : List CPiece) (s : State) (w : s.ms.wf) : CReachWf (State.copyXlate stove vdev l s) := by
  induction l generalizing s with
  | nil => exact w
  | cons p t ih =>
    have hx := s.xlateStove_wf stove vdev p.va p.bars w
    unfold State.copyXlate
    split
    next e => have w' := wf_of_eq e hx; exact w'
    next e => have w' := wf_of_eq e hx; exact w'
    next s' e =>
      have hr := ih s' (wf_of_eq e hx)
      split
      next e => rw [e] at hr; exact hr
      next => exact hr

theorem State.copyAd_wf (l : List (CPiece × Xl)) (s : State) (w : s.ms.wf) : CReachWf (State.copyAd l s) := by
  induction l generalizing s with
  | nil => exact w
  | cons p t ih =>
    have ha := s.adUpdate_wf p.2 p.1.wr w
    unfold State.copyAd
    split
    next e => have w' := wf_of_eq₃ e ha; exact w'
    next s' e =>
      have hr := ih s' (wf_of_eq₃ e ha)
      split
      next e => rw [e] at hr; exact hr
      next => exact hr

theorem State.copyReach_wf (s : State) (stove vdev : Nat) (l : List CPiece) (w : s.ms.wf) : CReachWf (s.copyReach stove vdev l) := by
  have hr := State.copyXlate_wf stove vdev l s w
  unfold State.copyReach
  split
  next e =>
    rw [e] at hr
    exact ite_cReachWf hr (ite_cReachWf hr (ite_cReachWf hr hr))
  next => exact hr

/-! ## Reads and writes of targets (R353) -/

theorem State.copyReadSec_wf (s : State) (core vdev : Nat) (t : CTgt) (sec : Nat) (w : s.ms.wf) :
    (s.copyReadSec core vdev t sec).2.ms.wf := by
  unfold State.copyReadSec
  split
  · exact s.mscRead_wf _ _ w
  · exact s.l2Read_wf _ _ w

theorem State.copyReadSecs_wf (core vdev : Nat) (t : CTgt) (l : List Nat) (s : State) (w : s.ms.wf) :
    (State.copyReadSecs core vdev t l s).2.2.ms.wf := by
  induction l generalizing s with
  | nil => exact w
  | cons sec rest ih =>
    have hr := s.copyReadSec_wf core vdev t sec w
    unfold State.copyReadSecs
    dsimp only
    split
    · exact hr
    · exact ih _ hr

theorem State.copyRead_wf (core vdev : Nat) (l : List CTgt) (s : State) (w : s.ms.wf) : (State.copyRead core vdev l s).2.2.ms.wf := by
  induction l generalizing s with
  | nil => exact w
  | cons t rest ih =>
    have hr := State.copyReadSecs_wf core vdev t (sectorsOf t.pa t.n) s w
    unfold State.copyRead
    dsimp only
    split
    · exact hr
    · exact ih _ hr

theorem State.copyWriteAt_wf (s : State) (core vdev : Nat) (t : CTgt) (bytes : List Byte) (w : s.ms.wf) :
    (s.copyWriteAt core vdev t bytes).ms.wf := by
  unfold State.copyWriteAt
  dsimp only
  split
  · exact State.aliens_wf _ _ (s.mscWrite_wf _ _ _ w)
  · refine State.aliens_wf _ _ (foldl_keeps (fun s : State => s.ms.wf) _ (fun s p w => ?_) _ s w)
    exact s.l2Write_wf _ _ _ w

theorem State.copyWrite_wf (core vdev : Nat) (l : List CTgt) (bytes : List Byte) (s : State) (w : s.ms.wf) :
    (State.copyWrite core vdev l bytes s).ms.wf := by
  induction l generalizing bytes s with
  | nil => exact w
  | cons t rest ih => exact ih _ _ (s.copyWriteAt_wf core vdev t _ w)

theorem State.copyDone_wf (s : State) (x : CtxRef) (k : Ctx) (c : Cmd) (poison : Bool) (aux : Nat) (secs : List Nat) (w : s.ms.wf) :
    (s.copyDone x k c poison aux secs).ms.wf := s.retireCmd_wf _ _ _ _ _ _ _ w

theorem State.loggedCopy_wf (x : CtxRef) (vdev : Nat) (src : Nat → Nat → State → List Byte × Bool × State) (from_ dst : List CTgt)
    (total unit fuel : Nat) (s : State) (k : Ctx) (c : Cmd) (w : s.ms.wf)
    (hsrc : ∀ off n (s : State), s.ms.wf → (src off n s).2.2.ms.wf) :
    (State.loggedCopy x vdev src from_ dst total unit fuel s k c).ms.wf := by
  induction fuel generalizing s c with
  | zero => exact s.copyDone_wf _ _ _ _ _ _ w
  | succ fuel ih =>
    unfold State.loggedCopy
    split
    · exact s.copyDone_wf _ _ _ _ _ _ w
    next t _ _ =>
      have hr := hsrc c.aux (min t.n (64 - t.pa % 64)) s w
      dsimp only
      refine ite_wf w (ite_wf (State.copyDone_wf _ _ _ _ _ _ _ hr) ?_)
      have hg := State.orderGate_wf _ x k c true (t.pa / 64) hr
      split
      · exact w
      next s' e =>
        have hw (bytes : List Byte) := s'.copyWriteAt_wf x.core.toNat vdev t bytes (hg s' e)
        exact ite_wf (State.copyDone_wf _ _ _ _ _ _ _ (hw _)) (ih _ _ (hw _))

/-! ## Bytes, gathers and scatters (R356) -/

theorem State.bytesRead_wf (core : Nat) (k : Ctx) (c : Cmd) (src : List CTgt) (off n : Nat) (s : State) (w : s.ms.wf) :
    (State.bytesRead core k c src off n s).2.2.ms.wf := by
  unfold State.bytesRead
  split
  · exact w
  · exact State.copyRead_wf _ _ _ s w

theorem State.bytesGo_wf (s : State) (x : CtxRef) (k : Ctx) (c : Cmd) (w : s.ms.wf) : (s.bytesGo x k c).ms.wf :=
  State.loggedCopy_wf _ _ _ _ _ _ _ _ _ _ _ w fun off n s w => State.bytesRead_wf _ k c c.reads off n s w

theorem State.bytesAct_wf (s : State) (x : CtxRef) (k : Ctx) (c : Cmd) (w : s.ms.wf) : (s.bytesAct x k c).ms.wf := by
  have hr (l : List CPiece) (r : CReach) (e : s.copyReach (stoveOf x.core.toNat) k.bd.vdev l = r) : CReachWf r :=
    e ▸ s.copyReach_wf _ _ l w
  unfold State.bytesAct
  refine ite_wf (s.bytesGo_wf x k c w) ?_
  dsimp only
  generalize e : s.copyReach _ _ _ = r
  replace hr := hr _ _ e
  cases r with
  | wait => exact hr
  | fail => exact State.retireCmd_wf _ _ _ _ _ _ _ _ hr
  | ok l s1 =>
    have ha := State.copyAd_wf l s1 hr
    refine ite_wf (s1.retireCmd_wf _ _ _ _ _ _ _ hr) ?_
    split
    next e => rw [e] at ha; exact ha
    next e => rw [e] at ha; exact ha
    next l2 s2 e =>
      rw [e] at ha
      have hb (l : List CTgt) := State.bytesRead_wf x.core.toNat k c l 0 c.o3.toNat s2 ha
      refine ite_wf (s2.bytesGo_wf _ _ _ ha) (State.copyDone_wf _ _ _ _ _ _ _ (ite_wf ?_ ?_))
      · exact State.spWrite_wf _ _ _ _ (hb _)
      · exact State.copyWrite_wf _ _ _ _ _ (hb _)

theorem State.gatherRows_wf (core vdev off rr : Nat) (l : List (List CTgt)) (i : Nat) (s : State) (w : s.ms.wf) :
    (State.gatherRows core vdev off rr l i s).2.2.ms.wf := by
  induction l generalizing i s with
  | nil => exact w
  | cons r t ih =>
    have hr := State.copyRead_wf core vdev r s w
    unfold State.gatherRows
    dsimp only
    split
    · exact hr
    · exact ih _ _ (State.spWrite_wf _ _ _ _ hr)

theorem State.scatterGo_wf (s : State) (x : CtxRef) (k : Ctx) (c : Cmd) (w : s.ms.wf) : (s.scatterGo x k c).ms.wf :=
  State.loggedCopy_wf _ _ _ _ _ _ _ _ _ _ _ w fun _ _ _ w => w

theorem State.listAct_wf (s : State) (x : CtxRef) (k : Ctx) (c : Cmd) (w : s.ms.wf) : (s.listAct x k c).ms.wf := by
  have hr (l : List CPiece) (r : CReach) (e : s.copyReach (stoveOf x.core.toNat) k.bd.vdev l = r) : CReachWf r :=
    e ▸ s.copyReach_wf _ _ l w
  unfold State.listAct
  refine ite_wf (s.scatterGo_wf x k c w) ?_
  dsimp only
  generalize e : s.copyReach _ _ _ = r
  replace hr := hr _ _ e
  cases r with
  | wait => exact hr
  | fail => exact State.retireCmd_wf _ _ _ _ _ _ _ _ hr
  | ok l s1 =>
    have ha := State.copyAd_wf l s1 hr
    dsimp only
    split
    next e => rw [e] at ha; exact ha
    next e => rw [e] at ha; exact ha
    next l2 s2 e =>
      rw [e] at ha
      have hg (l : List (List CTgt)) := State.gatherRows_wf x.core.toNat k.bd.vdev (k.spAt c.o1.toNat) (copyRow c.fl) l 0 s2 ha
      refine ite_wf (State.copyDone_wf _ _ _ _ _ _ _ (hg _)) (ite_wf (s2.scatterGo_wf _ _ _ ha) (State.copyDone_wf _ _ _ _ _ _ _ ?_))
      refine foldl_keeps (fun s : State => s.ms.wf) _ (fun s p w => ?_) _ s2 ha
      exact State.copyWrite_wf _ _ _ _ s w

/-! ## Pages brought in (R361, R422) -/

theorem State.l1Filter_wf (s : State) (p : Nat × Sec → Bool) (w : s.ms.wf) :
    (s.mem fun m => { m with l1 := m.l1.filter p }).ms.wf := w

theorem State.flushRange_wf (s : State) (rs : List (Nat × Nat)) (w : s.ms.wf) : (s.flushRange rs).ms.wf := by
  have hf : ((upTo 4).foldl (fun (s : State) n => (s.l2CleanRanges (48 * n) 0 rs).l2DropRanges n rs) s).ms.wf :=
    foldl_keeps (fun s : State => s.ms.wf) _ (fun s n w => State.l2DropRanges_wf _ _ _ (s.l2CleanRanges_wf _ _ _ w)) _ s w
  exact State.l1Filter_wf _ (fun p => !inRanges rs (p.1 % 2 ^ 46)) hf

theorem State.headsUpd_wf (s : State) (vdev : Nat) (f : Head → Head) (w : s.ms.wf) : (s.headsUpd vdev f).ms.wf := w

theorem State.headsDrop_wf (s : State) (vdev va n : Nat) (w : s.ms.wf) : (s.headsDrop vdev va n).ms.wf := w

theorem State.headsForget_wf (s : State) (vdev va n : Nat) (w : s.ms.wf) : (s.headsForget vdev va n).ms.wf := w

theorem State.tlbForget_wf (s : State) (vdev va n : Nat) (w : s.ms.wf) : (s.tlbForget vdev va n).ms.wf := w

theorem State.tlbDrop_wf (s : State) (pte : Nat) (w : s.ms.wf) : (s.tlbDrop pte).ms.wf := w

theorem State.logPage_wf (x : CtxRef) (k : Ctx) (frame fuel : Nat) (s : State) (c : Cmd) (w : s.ms.wf) :
    (State.logPage x k frame fuel s c).2.1.ms.wf := by
  induction fuel generalizing s c with
  | zero => exact w
  | succ fuel ih =>
    have hg := s.orderGate_wf x k c true (frame / 64 + c.logged) w
    unfold State.logPage
    split
    · exact w
    next s' e => exact ih s' _ (hg s' e)

theorem State.pageMove_wf (s : State) (core vdev : Nat) (x : Xl) (fl : BitVec 9) (frame : Nat) (w : s.ms.wf) :
    (s.pageMove core vdev x fl frame).ms.wf :=
  State.headsForget_wf _ _ _ _ (State.tlbForget_wf _ _ _ _ (State.leafPut_wf _ _ _ (State.mscWrite_wf _ _ _ _ (s.mscDropRanges_wf _ w))))

theorem State.poolTake_wf (s : State) (vdev p size : Nat) (w : s.ms.wf) : (s.poolTake vdev p size).2.ms.wf :=
  State.setReg_wf _ _ _ (s.pkgWord_wf _ w)

theorem State.poolReturn_wf (s : State) (vdev p frame : Nat) (w : s.ms.wf) : (s.poolReturn vdev p frame).ms.wf :=
  State.setReg_wf _ _ _ (s.pkgPutWord_wf _ _ w)

theorem State.poolUntake_wf (s : State) (vdev p frame : Nat) (w : s.ms.wf) : (s.poolUntake vdev p frame).ms.wf :=
  ite_wf w (State.setReg_wf _ _ _ (s.pkgPutWord_wf _ _ w))

theorem State.pageUndo_wf (s : State) (stove : Nat) (k : Ctx) (c : Cmd) (w : s.ms.wf) : (s.pageUndo stove k c).ms.wf := by
  have hx := s.xlateStove_wf stove k.bd.vdev (c.o1 + W (c.acts * c.size)).toNat (fun e => lfMg e) w
  unfold State.pageUndo
  dsimp only
  split
  · exact w
  · refine State.poolUntake_wf _ _ _ _ ?_
    split
    next e =>
      have w' := wf_of_eq e hx
      exact ite_wf (State.tlbForget_wf _ _ _ _ (State.leafPut_wf _ _ _ w')) w'
    next e => exact wf_of_eq e hx

theorem State.pageBegin_wf (s : State) (vdev : Nat) (c : Cmd) (xl : Xl) (w : s.ms.wf) : (s.pageBegin vdev c xl).2.2.ms.wf :=
  State.headsDrop_wf _ _ _ _ (State.tlbForget_wf _ _ _ _ (State.leafPut_wf _ _ _ (s.poolTake_wf vdev (lfSize xl.leaf) xl.size w)))

/-- What a page of a `CPGI` comes to leaves memory canonical. -/
def PageInWf (r : PageIn) : Prop :=
  match r with
  | .switched _ s | .skipped _ s | .fail _ _ s | .wait _ s => s.ms.wf

theorem ite_pageInWf {c : Prop} [Decidable c] {r q : PageIn} (wr : PageInWf r) (wq : PageInWf q) : PageInWf (if c then r else q) :=
  iteInduction (fun _ => wr) fun _ => wq

theorem State.pageSwitch_wf (s : State) (x : CtxRef) (k : Ctx) (c : Cmd) (xl : Xl) (frame : Nat) (w : s.ms.wf) :
    PageInWf (s.pageSwitch x k c xl frame) := by
  have hf := s.flushRange_wf [(lfFrame xl.leaf, xl.size)] w
  unfold State.pageSwitch
  refine ite_pageInWf w ?_
  generalize s.flushRange [(lfFrame xl.leaf, xl.size)] = s1 at hf
  refine ite_pageInWf hf (ite_pageInWf hf ?_)
  have hl (n : Nat) := State.logPage_wf x k frame n s1 c hf
  split
  next e =>
    have w' := hl (if s1.logging k then xl.size / 64 - c.logged else 0)
    rw [e] at w'; exact w'
  next e =>
    have w' := hl (if s1.logging k then xl.size / 64 - c.logged else 0)
    rw [e] at w'; exact State.poolReturn_wf _ _ _ _ (State.pageMove_wf _ _ _ _ _ _ w')

theorem State.pageIn_wf (s : State) (x : CtxRef) (k : Ctx) (c : Cmd) (va : Nat) (w : s.ms.wf) : PageInWf (s.pageIn x k c va) := by
  have hx := s.xlateStove_wf (stoveOf x.core.toNat) k.bd.vdev va (CPiece.bars ⟨va, 1, true, false⟩) w
  unfold State.pageIn
  dsimp only
  split
  next e => have w' := wf_of_eq e hx; exact w'
  next e => have w' := wf_of_eq e hx; exact w'
  next xl s1 e =>
    have hp := s1.pkgWord_wf xl.pte (wf_of_eq e hx)
    generalize s1.pkgWord xl.pte = q at hp
    refine ite_pageInWf hp (ite_pageInWf hp (ite_pageInWf hp (ite_pageInWf hp (ite_pageInWf ?_ ?_))))
    · exact State.tlbDrop_wf _ _ hp
    · split
      · exact State.pageSwitch_wf _ _ _ _ _ _ hp
      · refine ite_pageInWf hp ?_
        have hb := q.2.2.pageBegin_wf k.bd.vdev c xl hp
        generalize q.2.2.pageBegin k.bd.vdev c xl = b at hb
        exact State.pageSwitch_wf _ _ _ _ _ _ hb

/-- What going over the pages of a `CPGI` comes to leaves memory canonical. -/
def PagesInWf (r : PagesIn) : Prop :=
  match r with
  | .ended _ _ _ s | .wait _ _ s => s.ms.wf

theorem State.pagesIn_wf (x : CtxRef) (k : Ctx) (fuel : Nat) (s : State) (c : Cmd) (w : s.ms.wf) : PagesInWf (State.pagesIn x k fuel s c) := by
  induction fuel generalizing s c with
  | zero => exact w
  | succ fuel ih =>
    have hp := s.pageIn_wf x k c (c.o1 + W (c.acts * c.size)).toNat w
    unfold State.pagesIn
    dsimp only
    split
    next e => rw [e] at hp; exact hp
    next e => rw [e] at hp; exact State.pageUndo_wf _ _ _ _ hp
    next e => rw [e] at hp; exact ih _ _ hp
    next e => rw [e] at hp; exact ih _ _ hp

theorem State.cpgiAct_wf (s : State) (x : CtxRef) (k : Ctx) (c : Cmd) (w : s.ms.wf) : (s.cpgiAct x k c).ms.wf := by
  have hp := State.pagesIn_wf x k (c.o2.toNat - c.acts) s c w
  unfold State.cpgiAct
  split
  next e =>
    rw [e] at hp
    split
    · exact hp
    · exact hp
  next e =>
    rw [e] at hp
    split
    · exact hp
    · exact State.retireCmd_wf _ _ _ _ _ _ _ _ hp

/-! ## Remote copies (R359, R471) -/

theorem State.remoteStart_wf (s : State) (x : CtxRef) (k : Ctx) (c : Cmd) (w : s.ms.wf) : (s.remoteStart x k c).ms.wf := by
  have hr (l : List CPiece) (r : CReach) (e : s.copyReach (stoveOf x.core.toNat) k.bd.vdev l = r) : CReachWf r :=
    e ▸ s.copyReach_wf _ _ l w
  unfold State.remoteStart
  dsimp only
  generalize e : s.copyReach _ _ _ = r
  replace hr := hr _ _ e
  cases r with
  | wait => exact hr
  | fail => exact State.retireCmd_wf _ _ _ _ _ _ _ _ hr
  | ok l s1 =>
    have ha := State.copyAd_wf l s1 hr
    dsimp only
    split
    · exact s1.retireCmd_wf _ _ _ _ _ _ _ hr
    · split
      · exact s1.retireCmd_wf _ _ _ _ _ _ _ hr
      · refine ite_wf (s1.retireCmd_wf _ _ _ _ _ _ _ hr) ?_
        split
        next e => rw [e] at ha; exact ha
        next e => rw [e] at ha; exact ha
        next e => rw [e] at ha; exact ha

theorem State.putBytes_wf (s : State) (k : Ctx) (c : Cmd) (f : Xfer) (n : Nat) (w : s.ms.wf) : (s.putBytes k c f n).2.2.ms.wf := by
  unfold State.putBytes
  dsimp only
  split
  · exact w
  · exact State.copyRead_wf _ _ _ s w

theorem State.setXfer_wf (s : State) (g : Xfer) (w : s.ms.wf) : (s.setXfer g).ms.wf := w

theorem State.remoteSend_wf (s : State) (k : Ctx) (c : Cmd) (f : Xfer) (w : s.ms.wf) : (s.remoteSend k c f).ms.wf := by
  have hb := s.putBytes_wf k c f
  unfold State.remoteSend
  refine ite_wf w ?_
  split
  · exact w
  next n _ _ _ =>
    exact ite_wf (State.send_wf _ _ _ (s.setXfer_wf _ w)) (ite_wf w (State.send_wf _ _ _ (State.setXfer_wf _ _ (hb n w))))

theorem State.remoteEnd_wf (s : State) (x : CtxRef) (k : Ctx) (c : Cmd) (f : Xfer) (status : Nat) (w : s.ms.wf) :
    (s.remoteEnd x k c f status).ms.wf := State.retireCmd_wf _ _ _ _ _ _ _ _ w

theorem State.getClear_wf (s : State) (f : Xfer) (mark : Nat) (w : s.ms.wf) : (s.getClear f mark).ms.wf := w

theorem State.getWrite_wf (s : State) (k : Ctx) (c : Cmd) (f : Xfer) (bytes : List Byte) (w : s.ms.wf) : (s.getWrite k c f bytes).ms.wf :=
  ite_wf (s.spWrite_wf _ _ _ w) (State.copyWrite_wf _ _ _ _ s w)

theorem State.getUpTo_wf (s : State) (k : Ctx) (c : Cmd) (f : Xfer) (mark : Nat) (w : s.ms.wf) : (s.getUpTo k c f mark).ms.wf :=
  State.setXfer_wf _ _ (State.getWrite_wf _ _ _ _ _ (s.getClear_wf f mark w))

theorem State.loggedGet_wf (x : CtxRef) (k : Ctx) (c : Cmd) (mark fuel : Nat) (s : State) (f : Xfer) (w : s.ms.wf) :
    (State.loggedGet x k c mark fuel s f).ms.wf := by
  induction fuel generalizing s f with
  | zero => exact w
  | succ fuel ih =>
    unfold State.loggedGet
    split
    · exact w
    next t _ _ =>
      have hg : OptWf (if s.expDead t.pa then none else s.orderGate x k c true (t.pa / 64)) :=
        ite_optWf optWf_none (s.orderGate_wf x k c true (t.pa / 64) w)
      split
      · exact w
      next s' e => exact ih _ _ (s'.getWrite_wf _ _ _ _ (hg s' e))

theorem State.remoteAct_wf (s : State) (x : CtxRef) (k : Ctx) (c : Cmd) (w : s.ms.wf) : (s.remoteAct x k c).ms.wf := by
  unfold State.remoteAct
  split
  · exact s.remoteStart_wf x k c w
  · split
    · exact ite_wf (State.loggedGet_wf _ _ _ _ _ s _ w) (ite_wf w (s.getUpTo_wf _ _ _ _ w))
    · exact ite_wf (s.remoteEnd_wf _ _ _ _ _ w) (s.remoteSend_wf _ _ _ w)

/-! ## The engine's event -/

theorem State.copyAct_wf (s : State) (x : CtxRef) (k : Ctx) (c : Cmd) (w : s.ms.wf) : (s.copyAct x k c).ms.wf := by
  unfold State.copyAct
  split
  · exact s.bytesAct_wf x k c w
  · exact s.bytesAct_wf x k c w
  · exact s.listAct_wf x k c w
  · exact s.listAct_wf x k c w
  · exact s.cpgiAct_wf x k c w
  · exact s.remoteAct_wf x k c w

theorem execCopyCommandAct_wf (x : CtxRef) (seq : BitVec 16) (w : s.ms.wf) : OutWf (execCopyCommandAct x seq s) :=
  s.withCmd_wf x seq _ _ w fun s k c w => s.startCmd_wf x k c _ w fun s w => s.copyAct_wf x k c w

end Sys2Proof.Machine
end

