-- ==== Sys2Proof/Proofs/CanonEquiv.lean ====
section
/-! SUPPORT. O13: what the equivalence engine does keeps memory canonical (spec/13). -/
namespace Sys2Proof.Machine

variable {h : Hdr} {s : State}

/-! ## The forest in the hands of the engine -/

/-- The forest's state has its memory canonical. -/
def FrWf (f : Fr) : Prop := f.s.ms.wf

theorem ite_frWf {c : Prop} [Decidable c] {f g : Fr} (wf : FrWf f) (wg : FrWf g) : FrWf (if c then f else g) :=
  iteInduction (fun _ => wf) fun _ => wg

theorem Fr.setWord_wf (f : Fr) (off v : Nat) (w : FrWf f) : FrWf (f.setWord off v) := f.s.spWrite_wf _ _ _ w

theorem Fr.setPar_wf (f : Fr) (x v : Nat) (w : FrWf f) : FrWf (f.setPar x v) := f.setWord_wf _ _ w

theorem Fr.setSiz_wf (f : Fr) (x v : Nat) (w : FrWf f) : FrWf (f.setSiz x v) := f.setWord_wf _ _ w

theorem Fr.sr_wf (f : Fr) (g : CtxSr → CtxSr) (w : FrWf f) : FrWf (f.sr g) := w

theorem Fr.append_wf (f : Fr) (idx opar osz : Nat) (w : FrWf f) : FrWf (f.append idx opar osz) :=
  Fr.sr_wf _ _ (Fr.setWord_wf _ _ _ (Fr.setWord_wf _ _ _ (Fr.setWord_wf _ _ _ (f.setWord_wf _ _ w))))

theorem Fr.logEntry_wf (f : Fr) (y : Nat) (w : FrWf f) : FrWf (f.logEntry y) := ite_frWf w (f.append_wf _ _ _ w)

theorem Fr.writePar_wf (f : Fr) (y r : Nat) (w : FrWf f) : FrWf (f.writePar y r) :=
  ite_frWf (f.setPar_wf _ _ w) (ite_frWf (Fr.setPar_wf _ _ _ (f.logEntry_wf _ w)) w)

theorem Fr.compress_wf (r fuel y : Nat) (f : Fr) (w : FrWf f) : FrWf (Fr.compress r fuel y f) := by
  induction fuel generalizing y f with
  | zero => exact w
  | succ fuel ih => exact ite_frWf w (ih _ _ (f.writePar_wf _ _ w))

theorem Fr.find_wf {f g : Fr} {x r : Nat} (e : f.find x = .ok (r, g)) (w : FrWf f) : FrWf g := by
  unfold Fr.find at e
  split at e
  · contradiction
  · obtain ⟨-, rfl⟩ := Prod.mk.inj (Except.ok.inj e)
    exact Fr.compress_wf _ _ _ f w

/-! ## What performing a command comes to (R331 to R348) -/

/-- What performing a command comes to leaves memory canonical. -/
def FrResWf (r : FrRes) : Prop :=
  match r with
  | .done f _ _ _ | .fail f _ _ => FrWf f

theorem ite_frResWf {c : Prop} [Decidable c] {r q : FrRes} (wr : FrResWf r) (wq : FrResWf q) : FrResWf (if c then r else q) :=
  iteInduction (fun _ => wr) fun _ => wq

theorem Fr.unite_wf (f : Fr) (a b : Nat) (w : FrWf f) : FrResWf (f.unite a b) := by
  unfold Fr.unite
  split
  · exact w
  next e =>
    have w1 := Fr.find_wf e w
    split
    · exact w1
    next e =>
      have w2 := Fr.find_wf e w1
      exact ite_frResWf w2 (ite_frResWf w2 (Fr.setSiz_wf _ _ _ (Fr.setPar_wf _ _ _ (Fr.logEntry_wf _ _ (Fr.logEntry_wf _ _ w2)))))

theorem Fr.clear_wf (f : Fr) (lo cnt : Nat) (w : FrWf f) : FrResWf (f.clear lo cnt) := by
  unfold Fr.clear
  refine ite_frResWf w ?_
  refine Fr.sr_wf _ _ (foldl_keeps FrWf _ (fun g i w => ?_) _ _ (foldl_keeps FrWf _ (fun g r w => ?_) _ f w))
  · exact Fr.setSiz_wf _ _ _ (g.setPar_wf _ _ w)
  · exact g.setSiz_wf _ _ w

theorem Fr.checkWatch_wf (f : Fr) (x : CtxRef) (i : Nat) (w : FrWf f) : FrWf (f.checkWatch x i) := by
  unfold Fr.checkWatch
  split
  · exact w
  · show MemSt.wf (State.postEvent _ _ _ _ _).ms
    rw [State.postEvent_ms]
    exact w

theorem Fr.sizeOf_wf (f : Fr) (x : CtxRef) (c : Cmd) (w : FrWf f) : FrResWf (f.sizeOf x c) := by
  unfold Fr.sizeOf
  split
  · exact w
  next e =>
    have w1 := Fr.find_wf e w
    exact ite_frResWf (Fr.checkWatch_wf _ _ _ (Fr.sr_wf _ _ w1)) w1

/-- Where an `EQR` stands, or has failed, memory is canonical. -/
def EqrWf (r : Except (Fr × Nat) EqrSt) : Prop :=
  match r with
  | .ok q => FrWf q.f
  | .error e => FrWf e.1

theorem ite_eqrWf {c : Prop} [Decidable c] {r q : Except (Fr × Nat) EqrSt} (wr : EqrWf r) (wq : EqrWf q) : EqrWf (if c then r else q) :=
  iteInduction (fun _ => wr) fun _ => wq

theorem EqrSt.visit_wf (q : EqrSt) (c : Cmd) (x : Nat) (w : FrWf q.f) : EqrWf (q.visit c x) := by
  unfold EqrSt.visit
  split
  · exact w
  next e =>
    have w1 (r : Nat) := Fr.writePar_wf _ x r (Fr.find_wf e w)
    exact ite_eqrWf (Fr.setWord_wf _ _ _ (w1 _)) (ite_eqrWf (w1 _) (w1 _))

theorem EqrSt.visitAll_wf (c : Cmd) (fuel x : Nat) (q : EqrSt) (w : FrWf q.f) : EqrWf (EqrSt.visitAll c fuel x q) := by
  induction fuel generalizing x q with
  | zero => exact w
  | succ fuel ih =>
    have hv := q.visit_wf c x w
    unfold EqrSt.visitAll
    split
    next e => rw [e] at hv; exact hv
    next e => rw [e] at hv; exact ih _ _ hv

theorem Fr.relabel_wf (f : Fr) (c : Cmd) (w : FrWf f) : FrResWf (f.relabel c) := by
  have hv := EqrSt.visitAll_wf c f.k.sr.eqN 0 ⟨f, 0, [], [], 0⟩ w
  unfold Fr.relabel
  dsimp only
  split
  next e => rw [e] at hv; exact hv
  next q e =>
    rw [e] at hv
    have hs : FrWf (if c.fl.getLsbD 8 then
        q.sums.flatten.zipIdx.foldl (fun (f : Fr) v => f.setWord (c.o1.toNat + 4 * v.2) v.1) q.f else q.f) :=
      ite_frWf (foldl_keeps FrWf _ (fun g v w => g.setWord_wf _ _ w) _ _ hv) hv
    exact State.taskFlags_wf _ _ _ hs

theorem Fr.snapshot_wf (f : Fr) (w : FrWf f) : FrResWf f.snapshot :=
  ite_frResWf w (Fr.sr_wf _ _ (f.append_wf _ _ _ w))

theorem Fr.restore_wf (q : Fr × Nat) (p : Nat) (w : FrWf q.1) : FrWf (Fr.restore q p).1 := by
  unfold Fr.restore
  dsimp only
  split
  · exact w
  · split
    · exact w
    · exact Fr.setSiz_wf _ _ _ (q.1.setPar_wf _ _ w)

theorem Fr.undo_wf (f : Fr) (m : Nat) (keepMark : Bool) (w : FrWf f) : FrResWf (f.undo m keepMark) := by
  unfold Fr.undo
  extract_lets used depth m
  refine ite_frResWf w ?_
  split
  · exact w
  · split
    · exact w
    · exact Fr.sr_wf _ _ (foldl_keeps (fun q : Fr × Nat => FrWf q.1) _ (fun q p w => Fr.restore_wf q p w) _ (f, 0) w)

theorem Fr.perform_wf (f : Fr) (x : CtxRef) (c : Cmd) (w : FrWf f) : FrResWf (f.perform x c) := by
  unfold Fr.perform
  split
  · exact f.clear_wf _ _ w
  · exact f.unite_wf _ _ w
  · split
    · exact w
    next e => exact Fr.find_wf e w
  · exact f.sizeOf_wf x c w
  · exact f.relabel_wf c w
  · exact f.snapshot_wf w
  · exact f.undo_wf _ _ w

theorem State.eqFinish_wf (x : CtxRef) (c : Cmd) (r : FrRes) (w : FrResWf r) : (State.eqFinish x c r).ms.wf := by
  unfold State.eqFinish
  split
  · exact State.retireCmd_wf _ _ _ _ _ _ _ _ w
  · exact State.retireCmd_wf _ _ _ _ _ _ _ _ w

theorem execEqCommandPerform_wf (x : CtxRef) (seq : BitVec 16) (w : s.ms.wf) : OutWf (execEqCommandPerform x seq s) :=
  s.withCmd_wf x seq _ _ w fun s k c w => s.startCmd_wf x k c _ w fun _ w =>
    ite_wf (State.eqFinish_wf x c _ (Fr.perform_wf _ x c w)) w

theorem State.eqRunEnd_wf (x : CtxRef) (s : State) (w : s.ms.wf) : (State.eqRunEnd x s).ms.wf := by
  unfold State.eqRunEnd
  split
  · exact w
  next k _ =>
    refine ite_wf w ?_
    have hf := foldl_keeps FrWf (fun (f : Fr) i => f.checkWatch x i) (fun f i w => f.checkWatch_wf x i w) (upTo 8)
      ⟨s, k, x.core.toNat, 0⟩ w
    generalize (upTo 8).foldl (fun (f : Fr) w => f.checkWatch x w) ⟨s, k, x.core.toNat, 0⟩ = f at hf
    exact hf

theorem execEqRunEnd_wf (x : CtxRef) (w : s.ms.wf) : OutWf (execEqRunEnd x s) := by
  unfold execEqRunEnd
  split
  · exact State.eqRunEnd_wf x s w
  · split
    · exact w
    · exact s.onSaved_wf _ _ w fun s w => State.eqRunEnd_wf x s w

/-! ## The words -/

theorem Mach.eqWord_wf (m : Mach) (h : Hdr) (o : E) (opc : Nat) (act : Bool) (out : Option (BitVec 6)) (bad : Option (BitVec 8 × Word))
    (o1 o2 o3 : Word) (more : List Range) (w : m.s.ms.wf) : ResWf (m.eqWord h o opc act out bad o1 o2 o3 more) := by
  unfold Mach.eqWord
  split
  next r e =>
    unfold Mach.eqPending at e
    obtain ⟨q, -, rfl⟩ := Option.map_eq_some_iff.mp e
    exact fun _ w => w
  · exact Mach.engineWord_wf _ _ _ _ _ _ _ (ite_machWf w w)

theorem execEqclr_wf (o : E) (w : s.ms.wf) : OutWf (execEqclr h o s) := issueWord_wf w fun m _ w => m.eqWord_wf _ _ _ _ _ _ _ _ _ _ w
theorem execEqu_wf (o : E) (w : s.ms.wf) : OutWf (execEqu h o s) := issueWord_wf w fun m _ w => m.eqWord_wf _ _ _ _ _ _ _ _ _ _ w
theorem execEqf_wf (o : E) (w : s.ms.wf) : OutWf (execEqf h o s) := issueWord_wf w fun m _ w => m.eqWord_wf _ _ _ _ _ _ _ _ _ _ w
theorem execEqz_wf (o : E) (w : s.ms.wf) : OutWf (execEqz h o s) := issueWord_wf w fun m _ w => m.eqWord_wf _ _ _ _ _ _ _ _ _ _ w
theorem execEqsnp_wf (o : E) (w : s.ms.wf) : OutWf (execEqsnp h o s) := issueWord_wf w fun m _ w => m.eqWord_wf _ _ _ _ _ _ _ _ _ _ w
theorem execEqund_wf (o : E) (w : s.ms.wf) : OutWf (execEqund h o s) := issueWord_wf w fun m _ w => m.eqWord_wf _ _ _ _ _ _ _ _ _ _ w

theorem Mach.popEqr_wf (q : Nat) (act : Bool) (n : Nat) (m : Mach) (w : m.s.ms.wf) : (Mach.popEqr q act n m).2.s.ms.wf := by
  induction n generalizing m with
  | zero => exact w
  | succ n ih =>
    unfold Mach.popEqr
    split
    · exact w
    · exact ih _ w

theorem eqrGoOn_wf (q : Nat) (act : Bool) (k n : Nat) (m : Mach) (w : m.s.ms.wf) : ResWf (eqrGoOn q act k n m) := by
  have hp := Mach.popEqr_wf q act (n - k) m w
  exact ite_resWf hp hp

theorem eqrBody_wf (h : Hdr) (o : E) (m : Mach) (a : Opnds) (w : m.s.ms.wf) : ResWf (eqrBody h o m a) := by
  have hi (bad : Option (BitVec 8 × Word)) (more : List Range) := m.eqWord_wf h o 0x69 a.act none bad (a.v 0) (a.v 1) 0 more w
  unfold eqrBody
  dsimp only
  split
  · exact eqrGoOn_wf _ _ _ _ m w
  · refine ite_resWf trivial ?_
    generalize e : m.eqWord _ _ _ _ _ _ _ _ _ _ = r
    have hr : ResWf r := e ▸ hi _ _
    split
    · exact eqrGoOn_wf _ _ _ _ _ hr
    · exact hr
  · exact hi _ _

theorem execEqr_wf (o : E) (w : s.ms.wf) : OutWf (execEqr h o s) := issueWord_wf w fun m a w => eqrBody_wf h o m a w

end Sys2Proof.Machine
end

