-- ==== Sys2Proof/Proofs/CanonFaults.lean ====
section
/-! SUPPORT. O13: stops, fault records, Polpen's answers and time-outs keep memory canonical (spec/18, spec/20). -/
namespace Sys2Proof.Machine

variable {s : State}

theorem ite_outWf {c : Prop} [Decidable c] {o p : Out} (wo : OutWf o) (wp : OutWf p) : OutWf (if c then o else p) :=
  iteInduction (fun _ => wo) fun _ => wp

/-! ## Stops and answers (R425 to R429) -/

theorem State.stopDone_wf (s : State) (x : CtxRef) (k : Ctx) (fault : Bool) (w : s.ms.wf) : (s.stopDone x k fault).ms.wf :=
  ite_wf w (ite_wf w w)

theorem execContextStopComplete_wf (x : CtxRef) (w : s.ms.wf) : OutWf (execContextStopComplete x s) := by
  unfold execContextStopComplete
  split
  · exact w
  · split
    · exact ite_wf (s.stopDone_wf _ _ _ w) w
    · exact w

theorem execFaultRecordPost_wf (w : s.ms.wf) : OutWf (execFaultRecordPost s) := by
  unfold execFaultRecordPost
  split
  · exact w
  · exact ite_outWf w (s.pkgPut_wf _ _ w)

theorem State.endGang_wf (s : State) (vdev : Nat) (task : Word) (status : Byte) (w : s.ms.wf) : (s.endGang vdev task status).ms.wf := w

theorem State.answerReg_wf (s : State) (x : CtxRef) (end_ : Bool) (status : Byte) (w : s.ms.wf) : (s.answerReg x end_ status).ms.wf :=
  s.setReg_wf _ _ w

theorem State.escalateAt_wf (s : State) (x : CtxRef) (k : Ctx) (st : Stream) (cause : BitVec 8) (tval : Word) (w : s.ms.wf) :
    (s.escalateAt x k st cause tval).ms.wf := w

theorem State.trapAt_wf (s : State) (x : CtxRef) (k : Ctx) (st : Stream) (cause : BitVec 8) (tval : Word) (w : s.ms.wf) :
    (s.trapAt x k st cause tval).ms.wf := by
  refine Mach.close_wf _ ?_
  rw [Mach.takeTrap_s]
  exact w

theorem State.resume_wf (s : State) (x : CtxRef) (k : Ctx) (w : s.ms.wf) : (s.resume x k).ms.wf := by
  unfold State.resume
  dsimp only
  split
  · exact s.trapAt_wf _ _ _ _ _ w
  · exact w

theorem execFaultAnswerResume_wf (x : CtxRef) (w : s.ms.wf) : OutWf (execFaultAnswerResume x s) := by
  have wa := s.answerReg_wf x false 0 w
  unfold execFaultAnswerResume
  generalize s.answerReg x false 0 = s1 at wa
  dsimp only
  split
  · exact wa
  · exact ite_outWf (s1.endGang_wf _ _ _ wa) (s1.resume_wf _ _ wa)

theorem execFaultAnswerEnd_wf (x : CtxRef) (status : Byte) (w : s.ms.wf) : OutWf (execFaultAnswerEnd x status s) := by
  have wa := s.answerReg_wf x true status w
  unfold execFaultAnswerEnd
  generalize s.answerReg x true status = s1 at wa
  dsimp only
  split
  · exact wa
  · exact s1.endGang_wf _ _ _ wa

theorem execMachineCheck_wf (x : CtxRef) (st : Stream) (w : s.ms.wf) : OutWf (execMachineCheck x st s) := by
  unfold execMachineCheck
  split
  · exact w
  · exact ite_wf (s.escalateAt_wf _ _ _ _ _ w) w

/-! ## Expanders that do not respond (R466) -/

theorem State.cmdTimeout_wf (s : State) (x : CtxRef) (k : Ctx) (c : Cmd) (w : s.ms.wf) : (s.cmdTimeout x k c).ms.wf := by
  have hp := State.pagesIn_wf x k (c.o2.toNat - c.acts) s c w
  unfold State.cmdTimeout
  refine ite_wf w (ite_wf ?_ ?_)
  · split
    next va c1 s1 e =>
      rw [e] at hp
      have hu := s1.pageUndo_wf (stoveOf x.core.toNat) k c1 hp
      dsimp only
      generalize s1.pageUndo (stoveOf x.core.toNat) k c1 = s2 at hu
      cases s2.ctx? x with
      | none => exact hu
      | some k => exact s2.retireCmd_wf _ _ _ _ _ _ _ hu
    · exact w
  · split
    · exact s.remoteEnd_wf _ _ _ _ _ w
    · exact s.retireCmd_wf _ _ _ _ _ _ _ w

theorem execCxlExpanderTimeout_wf (x : CtxRef) (st : Stream) (cmd : Option (BitVec 16)) (w : s.ms.wf) :
    OutWf (execCxlExpanderTimeout x st cmd s) := by
  unfold execCxlExpanderTimeout
  split
  · exact s.withCmd_wf _ _ _ _ w fun s k c w => s.cmdTimeout_wf x k c w
  · split
    · exact w
    · refine ite_outWf w ?_
      split
      · exact ite_wf (s.escalateAt_wf _ _ _ _ _ w) w
      · split
        · exact State.cxlSettle_wf _ _ w
        · exact w

end Sys2Proof.Machine
end

