-- ==== Sys2Proof/Proofs/CanonTask.lean ====
section
/-! SUPPORT. O13: work queues, binding, completion and the end of contexts keep memory canonical (spec/19). -/
namespace Sys2Proof.Machine

variable {s : State}

/-! ## Reads and writes of dispatch -/

theorem State.agentReach_wf (s : State) (mask vdev va : Nat) (wr : Bool) (w : s.ms.wf) : (s.agentReach mask vdev va wr).2.ms.wf := by
  have hw := s.walk_wf vdev va w
  unfold State.agentReach
  split
  next e => exact wf_of_eq e hw
  next e => exact wf_of_eq e hw
  next x s1 e =>
    have w1 := wf_of_eq e hw
    have ha := s1.adUpdate_wf x wr w1
    split
    · exact w1
    · split
      · exact w1
      · split
        · exact w1
        · split
          · exact w1
          · split
            next e => exact wf_of_eq₃ e ha
            next e => exact wf_of_eq₃ e ha

theorem State.hwReach_wf (s : State) (vdev va : Nat) (wr : Bool) (w : s.ms.wf) : (s.hwReach vdev va wr).2.ms.wf :=
  s.agentReach_wf _ _ _ _ w

/-- What a read of dispatch comes to leaves memory canonical. -/
def HwReadWf (r : HwRead) : Prop :=
  match r with
  | .ok _ s | .fail s => s.ms.wf
  | .wait => True

theorem State.hwReadPieces_wf (vdev : Nat) (l : List (Nat × Nat)) (s : State) (w : s.ms.wf) : HwReadWf (State.hwReadPieces vdev l s) := by
  induction l generalizing s with
  | nil => exact w
  | cons p rest ih =>
    have hr := s.hwReach_wf vdev p.1 false w
    unfold State.hwReadPieces
    split
    next e => have w1 := wf_of_eq e hr; exact w1
    · trivial
    next x s1 e =>
      have hb := s1.pathBytes_wf .window ⟨0, vdev, lfTag x.leaf, 0⟩ (x.pa p.1) p.2 (wf_of_eq e hr)
      dsimp only
      split
      · exact hb
      · have hrest := ih _ hb
        split
        next e => rw [e] at hrest; exact hrest
        next => exact hrest

theorem State.hwRead_wf (s : State) (vdev va n : Nat) (w : s.ms.wf) : HwReadWf (s.hwRead vdev va n) := State.hwReadPieces_wf _ _ s w

theorem State.hwWrite_wf (vdev : Nat) (l : List (Nat × Nat)) (bytes : List Byte) (s : State) (w : s.ms.wf) :
    OptWf (State.hwWrite vdev l bytes s) := by
  induction l generalizing bytes s with
  | nil => exact optWf_some w
  | cons p rest ih =>
    have hr := s.hwReach_wf vdev p.1 true w
    unfold State.hwWrite
    split
    · exact optWf_none
    next e => exact ih _ _ (wf_of_eq e hr)
    next e => exact ih _ _ (State.aliens_wf _ _ (State.pkgWrite_wf _ _ _ _ (wf_of_eq e hr)))

theorem State.hwPut_wf (s : State) (vdev va : Nat) (bytes : List Byte) (w : s.ms.wf) : OptWf (s.hwPut vdev va bytes) :=
  State.hwWrite_wf _ _ _ s w

/-- Reading a descriptor leaves memory canonical. -/
def DescReadWf (r : DescRead) : Prop :=
  match r with
  | .ok _ s | .bad s => s.ms.wf
  | .wait => True

theorem State.kdesc_wf (s : State) (vdev va : Nat) (w : s.ms.wf) : DescReadWf (s.kdesc vdev va) := by
  have hr := s.hwRead_wf vdev va 512 w
  unfold State.kdesc
  split
  · trivial
  next e => rw [e] at hr; exact hr
  next e =>
    rw [e] at hr
    dsimp only
    split
    · exact hr
    · exact hr

theorem State.slotWords_wf (s : State) (vdev q i addr : Nat) (w : s.ms.wf) : (s.slotWords vdev q i addr).2.ms.wf := by
  unfold State.slotWords
  exact s.pkgDwords_wf (rawAcc s vdev 0 (addr / 64)) addr 16 w

/-! ## Queues and completions (R438 to R444) -/

theorem State.readyAppend_wf (s : State) (t : Task) (w : s.ms.wf) : OptWf (s.readyAppend t) := by
  unfold State.readyAppend
  exact ite_optWf optWf_none (optWf_some (State.setReg_wf _ _ _ (s.pkgPut_wf _ _ w)))

theorem State.sweep_wf (s : State) (v : Nat) (w : s.ms.wf) : (s.sweep v).ms.wf := by
  refine foldl_keeps (fun s : State => s.ms.wf) _ (fun s t w => ?_) s.tasks s w
  refine ite_wf w ?_
  have ha := s.readyAppend_wf (s.inSlot t) w
  split
  · exact w
  next s1 e => exact ha s1 e

theorem State.advanceHead_wf (q fuel : Nat) (s : State) (w : s.ms.wf) : (State.advanceHead q fuel s).ms.wf := by
  induction fuel generalizing s with
  | zero => exact w
  | succ fuel ih =>
    unfold State.advanceHead
    dsimp only
    split
    · exact w
    · exact ih _ w

theorem State.leaveQueue_wf (s : State) (t : Task) (bound : Bool) (w : s.ms.wf) : (s.leaveQueue t bound).ms.wf :=
  State.advanceHead_wf _ _ _ w

theorem State.writeCompletion_wf (s : State) (vdev : Nat) (stats comp : Word) (block : List Byte) (dev : Bool) (status : Byte)
    (value seq : Word) (w : s.ms.wf) : OptWf (s.writeCompletion vdev stats comp block dev status value seq) :=
  optWf_bind (s.hwPut_wf _ _ _ w) fun s w => optWf_bind (s.hwPut_wf _ _ _ w) fun s w => s.hwPut_wf _ _ _ w

theorem State.markComplete_wf (s : State) (v : Nat) (seq : Word) (w : s.ms.wf) : (s.markComplete v seq).ms.wf :=
  State.sweep_wf _ _ w

theorem State.neverBound_wf (s : State) (vdev : Nat) (stats comp seq : Word) (status : Byte) (w : s.ms.wf) :
    OptWf (s.neverBound vdev stats comp seq status) := s.writeCompletion_wf _ _ _ _ _ _ _ _ w

/-- Checking a record leaves memory canonical. -/
def RecCheckWf (r : RecCheck) : Prop :=
  match r with
  | .ok s | .error _ s => s.ms.wf
  | .wait => True

theorem ite_recCheckWf {c : Prop} [Decidable c] {r q : RecCheck} (wr : RecCheckWf r) (wq : RecCheckWf q) : RecCheckWf (if c then r else q) :=
  iteInduction (fun _ => wr) fun _ => wq

theorem State.checkRecord_wf (s : State) (t : Task) (l : List Word) (w : s.ms.wf) : RecCheckWf (s.checkRecord t l) := by
  have hk := s.kdesc_wf t.vdev t.kdesc.toNat w
  unfold State.checkRecord
  refine ite_recCheckWf w (ite_recCheckWf w ?_)
  split
  · trivial
  next e => rw [e] at hk; exact hk
  next d s1 e =>
    rw [e] at hk
    have hd := s1.kdesc_wf t.vdev t.dorm.toNat hk
    refine ite_recCheckWf (ite_recCheckWf hk (ite_recCheckWf hk hk)) ?_
    split
    · trivial
    next e => rw [e] at hd; exact hd
    next e => rw [e] at hd; exact ite_recCheckWf hd (ite_recCheckWf hd (ite_recCheckWf hd hd))

theorem execTaskRecordAccept_wf (queue : BitVec 12) (w : s.ms.wf) : OutWf (execTaskRecordAccept queue s) := by
  unfold execTaskRecordAccept
  refine ite_outWf w ?_
  dsimp only
  generalize hp : s.slotWords _ _ _ _ = p
  have hs : p.2.ms.wf := hp ▸ s.slotWords_wf _ _ _ _ w
  generalize taskOf _ _ _ _ _ = t
  have hc := p.2.checkRecord_wf t p.1 hs
  split
  · exact w
  next e => rw [e] at hc; exact State.sweep_wf _ _ hc
  next st s2 e =>
    rw [e] at hc
    have hn (vd : Nat) (t c q : Word) := s2.neverBound_wf vd t c q st hc
    split
    · exact w
    next s3 e =>
      have w3 : s3.ms.wf := hn _ _ _ _ s3 e
      exact ite_wf (State.advanceHead_wf _ _ _ w3) (State.markComplete_wf _ _ _ (State.advanceHead_wf _ _ _ w3))

theorem execFloorWrite_wf (vdev : BitVec 6) (v : Word) (w : s.ms.wf) : OutWf (execFloorWrite vdev v s) := by
  have hr := s.setReg_wf (0xD0000 + 0x10 * vdev.toNat) v w
  exact State.sweep_wf _ _ hr

/-! ## Binding (R445 to R448) -/

theorem State.clearCore_wf (s : State) (core sbase ssize : Nat) (w : s.ms.wf) : (s.clearCore core sbase ssize).ms.wf :=
  ⟨w.1, memFilter_wf _ _ w.2⟩

theorem State.bindCore_wf (s : State) (b : BindRec) (d : KDesc) (recAddr core rank gsize : Nat) (w : s.ms.wf) :
    (s.bindCore b d recAddr core rank gsize).ms.wf := by
  have hc := State.setReg_wf (s.clearCore core b.sbase b.ssize) (slotEntry (b.at_ core)) (W (recAddr + 1)) (s.clearCore_wf _ _ _ w)
  exact hc

theorem State.bindAll_wf (s : State) (b : BindRec) (d : KDesc) (recAddr : Nat) (w : s.ms.wf) : (s.bindAll b d recAddr).ms.wf := by
  unfold State.bindAll
  split
  · split
    · exact w
    · refine foldl_keeps (fun s : State => s.ms.wf) _ (fun s c w => ?_) _ _ w
      exact s.bindCore_wf _ _ _ _ _ _ w
  · have hb : (b.cores.zipIdx.foldl (fun (s : State) p => s.bindCore b d recAddr p.1 p.2 b.cores.length)
        { s with gangs := s.gangs ++ [b.gang] }).ms.wf :=
      foldl_keeps (fun s : State => s.ms.wf) _ (fun s p w => s.bindCore_wf _ _ _ _ _ _ w) _ _ w
    dsimp only
    split
    · exact hb
    · exact State.leaveQueue_wf _ _ _ hb

theorem State.bindFail_wf (s : State) (b : BindRec) (status : Byte) (w : s.ms.wf) : OptWf (s.bindFail b status) := by
  refine optWf_map (s.neverBound_wf _ _ _ _ _ w) fun s w => ?_
  refine State.markComplete_wf _ _ _ ?_
  split
  · exact w
  · exact s.leaveQueue_wf _ _ w

theorem State.slotBusy_wf (s : State) (v : Word) (w : s.ms.wf) : (s.slotBusy v).ms.wf := s.setReg_wf _ _ w

theorem State.slotDone_wf (s : State) (v : Word) (err : Bool) (w : s.ms.wf) : (s.slotDone v err).ms.wf := s.setReg_wf _ _ w

theorem State.bindOr_wf (s : State) (b : BindRec) (d : KDesc) (addr : Nat) (w : s.ms.wf) : OptWf (s.bindOr b d addr) :=
  ite_optWf (s.bindFail_wf _ _ w) (ite_optWf (s.bindFail_wf _ _ w) (optWf_some (s.bindAll_wf _ _ _ w)))

theorem execBindCommit_wf (v : Word) (w : s.ms.wf) : OutWf (execBindCommit v s) := by
  unfold execBindCommit
  generalize bits v 8 44 * 256 = addr
  refine ite_outWf (s.setReg_wf _ _ w) (ite_outWf (s.slotDone_wf _ _ w) ?_)
  have hp := s.pkgDwords_wf (rawAcc s 0 0 (addr / 64)) addr 32 w
  generalize s.pkgDwords (rawAcc s 0 0 (addr / 64)) addr 32 = p at hp
  obtain ⟨l, poison, s1⟩ := p
  have hk := s1.kdesc_wf (BindRec.ofWords l).vdev (BindRec.ofWords l).kdesc.toNat hp
  refine ite_outWf (s1.slotDone_wf _ _ hp) ?_
  have hf (r : Option State) (wr : OptWf r) : OutWf (Host.Outcome.next ((r.map fun (s : State) => s.slotDone v false).getD (s.slotBusy v))) :=
    getD_wf (optWf_map wr fun s w => s.slotDone_wf _ _ w) (s.slotBusy_wf _ w)
  dsimp only at hk ⊢
  split
  · exact s.slotBusy_wf _ w
  next e => rw [e] at hk; exact ite_outWf (State.slotDone_wf _ _ _ hk) (hf _ (State.bindFail_wf _ _ _ hk))
  next e => rw [e] at hk; exact ite_outWf (State.slotDone_wf _ _ _ hk) (hf _ (State.bindOr_wf _ _ _ _ hk))

/-! ## The end of a context (R20, R21, R292, R369) -/

/-- Translating the pieces of a row leaves memory canonical. -/
def RowBackWf (r : RowBack) : Prop :=
  match r with
  | .ok _ s | .fail _ _ s => s.ms.wf
  | .wait => True

theorem State.rowBack_wf (core : Nat) (k : Ctx) (l : List (Nat × Nat × Nat)) (s : State) (w : s.ms.wf) : RowBackWf (State.rowBack core k l s) := by
  induction l generalizing s with
  | nil => exact w
  | cons p rest ih =>
    have hl := s.lookRow_wf core k p.1 k.needSt w
    unfold State.rowBack
    split
    next e => have w1 := wf_of_eq e hl; exact w1
    · trivial
    next t s1 e =>
      have w1 := wf_of_eq e hl
      split
      · split
        · exact w1
        · trivial
      · have hr := ih s1 w1
        split
        next e => rw [e] at hr; exact hr
        next => exact hr

theorem State.postKind1_wf (s : State) (x : CtxRef) (k : Ctx) (status : Nat) (tval : Word) (w : s.ms.wf) :
    (s.postKind1 x k status tval).ms.wf := w

theorem State.endRows_wf (x : CtxRef) (k : Ctx) (l : List (Nat × List (Nat × Nat × Nat))) (s : State) (w : s.ms.wf) :
    OptWf (State.endRows x k l s) := by
  induction l generalizing s with
  | nil => exact optWf_some w
  | cons p rest ih =>
    have hb := State.rowBack_wf x.core.toNat k p.2 s w
    unfold State.endRows
    split
    · exact optWf_none
    next e => rw [e] at hb; exact ih _ (State.postKind1_wf _ _ _ _ _ hb)
    next e =>
      rw [e] at hb
      refine ih _ (foldl_keeps (fun s : State => s.ms.wf) _ (fun s p w => ?_) _ _ hb)
      exact s.pathWrite_wf _ _ _ w

/-- The state that a release leaves, where it leaves one, is canonical. -/
theorem State.release_wf {s t : State} {x : CtxRef} {k k' : Ctx} (e : s.release x k = some (k', t)) (w : s.ms.wf) : t.ms.wf := by
  have hr := State.endRows_wf x k k.endBacks s w
  unfold State.release at e
  obtain ⟨s1, e1, e⟩ := Option.bind_eq_some_iff.mp e
  obtain ⟨r, er, e⟩ := Option.map_eq_some_iff.mp e
  have hu := s1.unbindHeads_wf x.core.toNat k (hr s1 e1)
  obtain ⟨-, rfl⟩ := Prod.mk.inj e
  exact hu r er

theorem State.dropGang_wf (s : State) (vdev : Nat) (task : Word) (w : s.ms.wf) : (s.dropGang vdev task).ms.wf := w

theorem State.unbind_wf (s : State) (x : CtxRef) (w : s.ms.wf) : (s.unbind x).ms.wf := w

theorem State.unbindOf_wf (s : State) (g : Gang) (x : CtxRef) (w : s.ms.wf) : (s.unbindOf g x).ms.wf := ite_wf (s.unbind_wf x w) w

theorem State.gangUpd_wf (s : State) (vdev : Nat) (task : Word) (f : Gang → Gang) (w : s.ms.wf) : (s.gangUpd vdev task f).ms.wf := w

theorem State.endActive_wf (s : State) (x : CtxRef) (k : Ctx) (g : Gang) (w : s.ms.wf) : (s.endActive x k g).ms.wf := by
  unfold State.endActive
  refine ite_wf (ite_wf w w) (ite_wf w ?_)
  split
  · exact w
  next k1 s1 e =>
    have w1 := State.release_wf e w
    have hs (k : Ctx) := State.setReg_wf (s1.setCtx x k) (slotEntry x) 0 w1
    exact ite_wf (State.dropGang_wf _ _ _ (State.unbind_wf _ _ (State.gangUpd_wf _ _ _ _ (hs _)))) (State.gangUpd_wf _ _ _ _ (hs _))

theorem State.endDormant_wf (s : State) (x : CtxRef) (k : Ctx) (g : Gang) (w : s.ms.wf) : (s.endDormant x k g).ms.wf := by
  unfold State.endDormant
  refine ite_wf w ?_
  split
  · exact w
  next k1 s1 e =>
    have hs := State.setReg_wf s1 (slotEntry x) 0 (State.release_wf e w)
    exact State.dropGang_wf _ _ _ (State.gangUpd_wf _ _ _ _ (State.unbind_wf _ _ hs))

theorem State.endAt_wf (s : State) (x : CtxRef) (w : s.ms.wf) : (s.endAt x).ms.wf := by
  unfold State.endAt
  split
  · exact w
  · split
    · exact w
    · exact ite_wf (s.endDormant_wf _ _ _ w) (s.endActive_wf _ _ _ w)

theorem State.endSaved_wf (s : State) (q : Saved) (w : s.ms.wf) : (s.endSaved q).ms.wf := by
  have hs := s.onSaved_wf q (fun s => s.endAt q.x) w fun s w => s.endAt_wf q.x w
  unfold State.endSaved
  generalize s.onSaved q (fun s => s.endAt q.x) = t at hs
  have ht : (if (s.ctx? q.x).isSome then t.setReg (slotEntry q.x) (s.reg (slotEntry q.x)) else t).ms.wf := ite_wf (t.setReg_wf _ _ hs) hs
  dsimp only
  generalize (if (s.ctx? q.x).isSome then t.setReg (slotEntry q.x) (s.reg (slotEntry q.x)) else t) = t at ht
  exact ite_wf ht (State.dropGang_wf _ _ _ ht)

theorem execContextEnd_wf (x : CtxRef) (w : s.ms.wf) : OutWf (execContextEnd x s) := by
  unfold execContextEnd
  split
  · exact s.endSaved_wf _ w
  · exact s.endAt_wf x w

theorem execDormantReturn_wf (x : CtxRef) (w : s.ms.wf) : OutWf (execDormantReturn x s) := by
  unfold execDormantReturn
  split
  · exact w
  · refine ite_outWf w ?_
    split
    · exact w
    next e => have w1 := State.release_wf e w; exact w1

/-! ## Completion and calendars (R431, R444, R449) -/

theorem execTaskComplete_wf (vdev : BitVec 6) (seq : Word) (w : s.ms.wf) : OutWf (execTaskComplete vdev seq s) := by
  unfold execTaskComplete
  dsimp only
  split
  · exact w
  next g _ =>
    refine ite_outWf w ?_
    have hs : (g.stoves.foldl (fun (s : State) n => s.cleanStove (48 * n) vdev.toNat) s).ms.wf :=
      foldl_keeps (fun s : State => s.ms.wf) _ (fun s n w => s.cleanStove_wf _ _ w) _ _ w
    generalize g.stoves.foldl (fun (s : State) n => s.cleanStove (48 * n) vdev.toNat) s = s1 at hs
    have hc (st : Byte) (v : Word) := s1.writeCompletion_wf vdev.toNat g.stats g.comp g.block false st v seq hs
    split
    · exact w
    next s2 e =>
      refine State.markComplete_wf _ _ _ (State.dropGang_wf _ _ _ ?_)
      refine foldl_keeps (fun s : State => s.ms.wf) _ (fun s p w => ?_) _ _ (State.gangUpd_wf _ _ _ _ (hc _ _ s2 e))
      exact s.unbindOf_wf _ _ w

theorem execQuantumRunEnd_wf (core : BitVec 8) (w : s.ms.wf) : OutWf (execQuantumRunEnd core s) := by
  unfold execQuantumRunEnd
  dsimp only
  split
  · exact w
  · exact ite_outWf w w

theorem State.slotSwitch_wf (s : State) (core : Nat) (w : s.ms.wf) : (s.slotSwitch core).ms.wf := by
  unfold State.slotSwitch
  dsimp only
  split
  · exact w
  · exact ite_wf w w

theorem execCalendarSlotStart_wf (w : s.ms.wf) : OutWf (execCalendarSlotStart s) :=
  foldl_keeps (fun s : State => s.ms.wf) _ (fun s c w => s.slotSwitch_wf c w) (upTo 192) s w

end Sys2Proof.Machine
end

