-- ==== Sys2Proof/Proofs/CanonDevice.lean ====
section
/-! SUPPORT. O13: the control space, shootdowns, scrubs, injections, saves, restores and the test port keep memory canonical
(spec/10, spec/16, spec/17, spec/18). -/
namespace Sys2Proof.Machine

variable {s : State}

/-! ## The control space and errors of memory -/

theorem State.setLink_wf (s : State) (p : Nat) (l : Link) (w : s.ms.wf) : (s.setLink p l).ms.wf := w

theorem State.linkUpd_wf (s : State) (p : Nat) (f : Link → Link) (w : s.ms.wf) : (s.linkUpd p f).ms.wf := w

theorem State.portFail_wf (s : State) (p : Nat) (w : s.ms.wf) : (s.portFail p).ms.wf := w

theorem execControlRegisterWrite_wf (off : BitVec 20) (v : Word) (w : s.ms.wf) : OutWf (execControlRegisterWrite off v s) := by
  have hr (u : Word) := s.setReg_wf off.toNat u w
  unfold execControlRegisterWrite
  refine ite_outWf w ?_
  generalize (if 0xB0000 ≤ off.toNat ∧ off.toNat < 0xB1000 then policyFix (v &&& ctlMask off.toNat) else v &&& ctlMask off.toNat) = u
  have hl (c : Prop) [Decidable c] (p : Nat) (f : Link → Link) :
      (if c then (s.setReg off.toNat u).linkUpd p f else s.setReg off.toNat u).ms.wf := ite_wf (State.linkUpd_wf _ _ _ (hr u)) (hr u)
  refine ite_outWf ?_ (ite_outWf (State.sweep_wf _ _ (hl _ _ _)) (ite_outWf (hl _ _ _) (hl _ _ _)))
  exact ite_wf (State.portFail_wf _ _ (hl _ _ _)) (State.setLink_wf _ _ _ (hl _ _ _))

theorem execErasureMarkWrite_wf (quad : BitVec 5) (v : Word) (w : s.ms.wf) : OutWf (execErasureMarkWrite quad v s) :=
  s.setReg_wf _ _ w

theorem execCorrectedCountClear_wf (quad : BitVec 5) (w : s.ms.wf) : OutWf (execCorrectedCountClear quad s) := s.setReg_wf _ _ w

theorem execUncorrectableCountClear_wf (quad : BitVec 5) (w : s.ms.wf) : OutWf (execUncorrectableCountClear quad s) :=
  s.setReg_wf _ _ w

theorem State.inject_wf (s : State) (x : CtxRef) (kind : Nat) (f : Xl → Nat → State → State) (w : s.ms.wf)
    (hf : ∀ l sec (s : State), s.ms.wf → (f l sec s).ms.wf) : (s.inject x kind f).ms.wf := by
  unfold State.inject
  split
  · exact w
  next k _ =>
    have hx := s.xlate_wf x.core.toNat k.bd.vdev (bits k.sr.inject 6 48 * 64) w
    dsimp only
    split
    next e => exact wf_of_eq e hx
    next e => have w1 := wf_of_eq e hx; exact w1
    next l s1 e =>
      have w1 := wf_of_eq e hx
      exact ite_wf (hf l _ s1 w1) w1

theorem execInjectPoison_wf (x : CtxRef) (w : s.ms.wf) : OutWf (execInjectPoison x s) := by
  refine s.inject_wf x 0 _ w fun l sec s w => ?_
  refine State.poisonGranule_wf _ _ _ (foldl_keeps (fun s : State => s.ms.wf) _ (fun s y w => ?_) _ s w)
  exact s.mscDrop_wf _ w

theorem execInjectSymbol_wf (x : CtxRef) (w : s.ms.wf) : OutWf (execInjectSymbol x s) := s.inject_wf x 1 _ w fun _ _ _ w => w

theorem execManagementCoreStore_wf (pa : Word) (bytes : List Byte) (w : s.ms.wf) : OutWf (execManagementCoreStore pa bytes s) :=
  ite_outWf (s.pkgPut_wf _ _ w) w

theorem State.addSymbols_wf (s : State) (pa n : Nat) (w : s.ms.wf) : (s.addSymbols pa n).ms.wf := w

theorem execMemorySymbolError_wf (pa : Word) (symbols : Nat) (w : s.ms.wf) : OutWf (execMemorySymbolError pa symbols s) :=
  ite_wf (s.addSymbols_wf _ _ w) (ite_wf (s.cxlPoison_wf _ w) w)

theorem execPseudoChannelFailure_wf (quad pc : BitVec 5) (w : s.ms.wf) : OutWf (execPseudoChannelFailure quad pc s) := w

theorem execExpanderStopsResponding_wf (port : BitVec 2) (w : s.ms.wf) : OutWf (execExpanderStopsResponding port s) := w

theorem execExpanderReturn_wf (port : BitVec 2) (w : s.ms.wf) : OutWf (execExpanderReturn port s) := w

/-! ## Shootdowns and scrubs (R420, R423) -/

theorem State.shoot_wf (s : State) (d : Shootdown) (w : s.ms.wf) : (s.shoot d).ms.wf := by
  unfold State.shoot
  split
  · refine foldl_keeps (fun s : State => s.ms.wf) _ (fun s v w => ?_) _ s w
    exact State.headsForget_wf _ _ _ _ (s.tlbForget_wf _ _ _ w)
  · exact State.headsForget_wf _ _ _ _ (s.tlbForget_wf _ _ _ w)
  · exact State.headsForget_wf _ _ _ _ (s.tlbForget_wf _ _ _ w)

theorem State.sdcmd_wf (s : State) (o : Nat) (v : Word) (d : Option Shootdown) (w : s.ms.wf) :
    (State.ms { s.setReg o v with sd := d }).wf := w

theorem State.shootStart_wf (s : State) (d : Shootdown) (pages : Nat) (w : s.ms.wf) : (s.shootStart d pages).ms.wf := by
  have hs := s.shoot_wf d w
  unfold State.shootStart
  exact ite_wf w (State.sdcmd_wf _ _ _ _ hs)

theorem execShootdownRange_wf (cl : Bool) (vdev : BitVec 6) (pages : BitVec 32) (w : s.ms.wf) : OutWf (execShootdownRange cl vdev pages s) :=
  s.shootStart_wf _ _ w

theorem execShootdownVdev_wf (cl : Bool) (vdev : BitVec 6) (w : s.ms.wf) : OutWf (execShootdownVdev cl vdev s) := s.shootStart_wf _ _ w

theorem execShootdownAll_wf (cl : Bool) (w : s.ms.wf) : OutWf (execShootdownAll cl s) := s.shootStart_wf _ _ w

theorem execShootdownComplete_wf (w : s.ms.wf) : OutWf (execShootdownComplete s) := by
  have hf (rs : List (Nat × Nat)) := s.flushRange_wf rs w
  unfold execShootdownComplete
  split
  · exact w
  next d _ =>
    refine ite_outWf w ?_
    generalize [(0, cxlBase)] ++ ((upTo 4).filter fun p => !s.ms.expDown.contains p).map portRange ++
      d.spans.map (fun (p : Span) => (p.frame, p.size)) = rs
    dsimp only
    have hc : (if d.cl then s.flushRange rs else s).ms.wf := ite_wf (hf rs) w
    exact State.sdcmd_wf _ _ _ _ hc

theorem execScrubRequest_wf (v : Word) (w : s.ms.wf) : OutWf (execScrubRequest v s) := w

theorem execScrubComplete_wf (w : s.ms.wf) : OutWf (execScrubComplete s) := by
  unfold execScrubComplete
  split
  · exact w
  · exact ⟨memFilter_wf _ _ w.1, w.2⟩

theorem execFreeze_wf (w : s.ms.wf) : OutWf (execFreeze s) := w

theorem execThermalThrottle_wf (stove : BitVec 2) (refill : BitVec 16) (w : s.ms.wf) : OutWf (execThermalThrottle stove refill s) :=
  s.setReg_wf _ _ w

theorem execThermalPowerOff_wf : OutWf (execThermalPowerOff s) := reset_mem_wf

/-! ## Saves and restores (R434 to R437) -/

theorem State.saveReg_wf (s : State) (x : CtxRef) (go : Bool) (op : Nat) (err : Bool) (w : s.ms.wf) : (s.saveReg x go op err).ms.wf :=
  s.setReg_wf _ _ w

theorem State.saveEnd_wf (s : State) (x : CtxRef) (busy : Bool) (w : s.ms.wf) : (s.saveEnd x busy).ms.wf := s.saveReg_wf _ _ _ _ w

theorem State.restoreEnd_wf (s : State) (x : CtxRef) (err : Bool) (w : s.ms.wf) : (s.restoreEnd x err).ms.wf := s.saveReg_wf _ _ _ _ w

theorem State.gangMap_wf (s : State) (k : Ctx) (f : Ctx → Ctx) (w : s.ms.wf) : (s.gangMap k f).ms.wf := w

theorem State.writeArea_wf (s : State) (x : CtxRef) (k : Ctx) (area : Nat) (w : s.ms.wf) : (s.writeArea x k area).ms.wf := by
  refine foldl_keeps (fun s : State => s.ms.wf) _ (fun t j w => ?_) _ s w
  exact t.pkgPut_wf _ _ w

theorem execContextSave_wf (x : CtxRef) (w : s.ms.wf) : OutWf (execContextSave x s) := by
  unfold execContextSave
  split
  · exact s.saveEnd_wf _ _ w
  next k _ =>
    refine ite_outWf (State.saveEnd_wf _ _ _ (ite_wf w (s.gangMap_wf _ _ w))) ?_
    have hg := s.gangMap_wf k Ctx.hold w
    dsimp only
    generalize s.gangMap k Ctx.hold = s1 at hg
    have ha := State.unbind_wf _ x (s1.writeArea_wf x k.leaving s.saveArea hg)
    generalize (s1.writeArea x k.leaving s.saveArea).unbind x = s2 at ha
    exact ite_outWf (s1.saveEnd_wf _ _ hg) (State.saveEnd_wf _ _ _ ha)

theorem State.comeBack_wf (s : State) (x : CtxRef) (e : Ctx) (w : s.ms.wf) : (s.comeBack x e).ms.wf := ite_wf w w

theorem execContextRestore_wf (x : CtxRef) (w : s.ms.wf) : OutWf (execContextRestore x s) := by
  unfold execContextRestore
  dsimp only
  split
  · exact s.restoreEnd_wf _ _ w
  · exact ite_outWf (s.restoreEnd_wf _ _ w) (State.restoreEnd_wf _ _ _ (State.comeBack_wf _ _ _ w))

/-! ## The test access port (R410) -/

theorem execBypass_wf (w : s.ms.wf) : OutWf (execBypass s) := w
theorem execSamplePreload_wf (w : s.ms.wf) : OutWf (execSamplePreload s) := w
theorem execExtest_wf (w : s.ms.wf) : OutWf (execExtest s) := w
theorem execIdcode_wf (w : s.ms.wf) : OutWf (execIdcode s) := w
theorem execChsel_wf (chain : BitVec 16) (w : s.ms.wf) : OutWf (execChsel chain s) := w
theorem execChrd_wf (w : s.ms.wf) : OutWf (execChrd s) := w

end Sys2Proof.Machine
end

