-- ==== Sys2Proof/Proofs/CanonHost.lean ====
section
/-! SUPPORT. O13: the host port, bring-up and the links keep memory canonical (spec/20). -/
namespace Sys2Proof.Machine

variable {s : State}

/-! ## Mailboxes, aperture, window, bring-up (R458 to R464, R474) -/

theorem State.hostUpd_wf (s : State) (f : HostSt → HostSt) (w : s.ms.wf) : (s.hostUpd f).ms.wf := w

theorem State.answer_wf (s : State) (fn : Nat) (a : Answer) (w : s.ms.wf) : (s.answer fn a).ms.wf := w

theorem State.mailMsg_wf (s : State) (fn : BitVec 6) (msg : List Byte) (mine : Nat → Bool) (bad : List Byte → Option Byte)
    (f : List Byte → State → Answer × State) (w : s.ms.wf) (hf : ∀ m (s : State), s.ms.wf → (f m s).2.ms.wf) :
    OutWf (s.mailMsg fn msg mine bad f) := by
  unfold State.mailMsg
  refine ite_outWf w (ite_outWf (ite_wf w w) (ite_outWf w ?_))
  split
  · exact w
  · exact State.answer_wf _ _ _ (hf _ s w)

theorem execImgput_wf (fn : BitVec 6) (msg : List Byte) (w : s.ms.wf) : OutWf (execImgput fn msg s) := by
  unfold execImgput
  extract_lets off
  exact s.mailMsg_wf _ _ _ _ _ w fun _ _ w => w

theorem execImggo_wf (fn : BitVec 6) (msg : List Byte) (w : s.ms.wf) : OutWf (execImggo fn msg s) := by
  refine s.mailMsg_wf _ _ _ _ _ w fun m s w => ?_
  dsimp only
  split
  · exact w
  · exact w

theorem execAttest_wf (fn : BitVec 6) (msg : List Byte) (w : s.ms.wf) : OutWf (execAttest fn msg s) :=
  s.mailMsg_wf _ _ _ _ _ w fun _ _ w => w

theorem execKeyadd_wf (fn : BitVec 6) (msg : List Byte) (w : s.ms.wf) : OutWf (execKeyadd fn msg s) := by
  unfold execKeyadd
  extract_lets key
  exact s.mailMsg_wf _ _ _ _ _ w fun _ _ w => w

theorem execKeydel_wf (fn : BitVec 6) (msg : List Byte) (w : s.ms.wf) : OutWf (execKeydel fn msg s) :=
  s.mailMsg_wf _ _ _ _ _ w fun _ _ w => w

theorem execSigpol_wf (fn : BitVec 6) (msg : List Byte) (w : s.ms.wf) : OutWf (execSigpol fn msg s) := by
  unfold execSigpol
  extract_lets body vdev
  exact s.mailMsg_wf _ _ _ _ _ w fun _ s w => ite_wf (s.hostUpd_wf _ w) w

theorem execVerify_wf (fn : BitVec 6) (msg : List Byte) (w : s.ms.wf) : OutWf (execVerify fn msg s) := by
  unfold execVerify
  extract_lets vdev part
  exact s.mailMsg_wf _ _ _ _ _ w fun _ _ w => w

theorem execMailboxUnknownType_wf (fn : BitVec 6) (msg : List Byte) (w : s.ms.wf) : OutWf (execMailboxUnknownType fn msg s) :=
  s.mailMsg_wf _ _ _ _ _ w fun _ _ w => w

/-- Translating an aperture access leaves memory canonical. -/
def HostReachWf (r : HostReach) : Prop :=
  match r with
  | .ok _ s | .fail _ s => s.ms.wf
  | .wait => True

theorem State.hostReach_wf (vdev : Nat) (wr : Bool) (l : List (Nat × Nat)) (s : State) (w : s.ms.wf) :
    HostReachWf (State.hostReach vdev wr l s) := by
  induction l generalizing s with
  | nil => exact w
  | cons p rest ih =>
    have hr := s.hwReach_wf vdev p.1 wr w
    unfold State.hostReach
    split
    next e => have w1 := wf_of_eq e hr; exact w1
    · trivial
    next e =>
      have hrest := ih _ (wf_of_eq e hr)
      split
      next e => rw [e] at hrest; exact hrest
      next => exact hrest

theorem State.hostAbort_wf (s : State) (vdev status : Nat) (w : s.ms.wf) : (s.hostAbort vdev status).ms.wf := w

theorem State.hostBytes_wf (vdev : Nat) (l : List (Xl × Nat × Nat)) (s : State) (w : s.ms.wf) : (State.hostBytes vdev l s).2.2.ms.wf := by
  refine foldl_keeps (fun r : List Byte × Bool × State => r.2.2.ms.wf) _ (fun r p w => ?_) l ([], false, s) w
  exact r.2.2.pathBytes_wf _ _ _ _ w

theorem execApertureRead_wf (fn : BitVec 6) (off : Word) (n : Nat) (w : s.ms.wf) : OutWf (execApertureRead fn off n s) := by
  unfold execApertureRead
  dsimp only
  split
  · exact w
  next va _ =>
    have hr := State.hostReach_wf fn.toNat false (pagePieces va n) s w
    split
    · exact w
    next e => rw [e] at hr; exact State.hostAbort_wf _ _ _ hr
    next l s1 e =>
      rw [e] at hr
      have hb := State.hostBytes_wf fn.toNat l s1 hr
      exact ite_outWf (State.hostAbort_wf _ _ _ hb) (State.hostUpd_wf _ _ hb)

theorem execApertureWrite_wf (fn : BitVec 6) (off : Word) (bytes : List Byte) (w : s.ms.wf) : OutWf (execApertureWrite fn off bytes s) := by
  unfold execApertureWrite
  dsimp only
  split
  · exact w
  next va _ =>
    have hr := State.hostReach_wf fn.toNat true (pagePieces va bytes.length) s w
    split
    · exact w
    next e => rw [e] at hr; exact State.hostAbort_wf _ _ _ hr
    next l s1 e =>
      rw [e] at hr
      refine State.hostUpd_wf _ _ (foldl_keeps (fun r : List Byte × State => r.2.ms.wf) _ (fun r p w => ?_) l (bytes, s1) hr)
      exact State.aliens_wf _ _ (r.2.pkgWrite_wf _ _ _ w)

theorem execHostWindowWrite_wf (off : BarOff) (bytes : List Byte) (w : s.ms.wf) : OutWf (execHostWindowWrite off bytes s) :=
  ite_outWf w (s.rawWrite_wf _ w)

theorem execPackageReset_wf (w : s.ms.wf) : OutWf (execPackageReset s) := s.ms.afterReset_wf w

theorem execBringupEnable_wf (w : s.ms.wf) : OutWf (execBringupEnable s) := by
  unfold execBringupEnable
  refine ite_outWf w ?_
  split
  · exact w
  · exact State.hostUpd_wf _ _ (MemSt.scrubHbm_wf _ w)
  · exact w
  · exact w

/-! ## What a peer's request does here (R359, R470, R471) -/

/-- Performing payload of a peer leaves memory canonical. -/
def PeerActWf (r : PeerAct) : Prop :=
  match r with
  | .ok s | .refused s => s.ms.wf
  | .wait => True

theorem State.peerWrite_wf (vdev : Nat) (l : List (Nat × Nat)) (bytes : List Byte) (s : State) (w : s.ms.wf) :
    PeerActWf (State.peerWrite vdev l bytes s) := by
  induction l generalizing bytes s with
  | nil => exact w
  | cons p rest ih =>
    have hr := s.agentReach_wf maskLk vdev p.1 true w
    unfold State.peerWrite
    split
    · trivial
    next e => have w1 := wf_of_eq e hr; exact w1
    next e =>
      have w1 := wf_of_eq e hr
      split
      · exact w1
      · exact ih _ _ (State.aliens_wf _ _ (State.pkgWrite_wf _ _ _ _ w1))

/-- Reading bytes for a peer leaves memory canonical. -/
def PeerReadWf (r : Option (Option (List Byte) × State)) : Prop := ∀ p ∈ r, p.2.ms.wf

theorem peerReadWf_some {b : Option (List Byte)} {s : State} (w : s.ms.wf) : PeerReadWf (some (b, s)) := fun p h => by
  obtain rfl := Option.mem_some.mp h
  exact w

theorem State.peerRead_wf (vdev : Nat) (l : List (Nat × Nat)) (s : State) (w : s.ms.wf) : PeerReadWf (State.peerRead vdev l s) := by
  induction l generalizing s with
  | nil => exact peerReadWf_some w
  | cons p rest ih =>
    have hr := s.agentReach_wf maskLk vdev p.1 false w
    unfold State.peerRead
    split
    · exact fun _ h => absurd h (Option.not_mem_none _)
    next e => exact peerReadWf_some (wf_of_eq e hr)
    next x s1 e =>
      have w1 := wf_of_eq e hr
      have hb := s1.pathBytes_wf .window ⟨0, vdev, lfTag x.leaf, 3⟩ (x.pa p.1) p.2 w1
      split
      · exact peerReadWf_some w1
      · dsimp only
        split
        · exact peerReadWf_some hb
        · have hrest := ih _ hb
          split
          next e => exact peerReadWf_some (hrest _ e)
          next => exact hrest

/-- Performing payload up to a mark leaves memory canonical. -/
def PerformWf (r : Option (Nat × Byte × State)) : Prop := ∀ p ∈ r, p.2.2.ms.wf

theorem State.peerPerform_wf (l : List LinkMsg) (off : Nat) (s : State) (w : s.ms.wf) : PerformWf (State.peerPerform l off s) := by
  induction l generalizing s with
  | nil =>
    intro p h
    obtain rfl := Option.mem_some.mp h
    exact w
  | cons m t ih =>
    cases m with
    | put dev pv x seq vdev va o bytes =>
      have hp := State.peerWrite_wf vdev.toNat (if bytes.isEmpty then [] else pagePieces va.toNat bytes.length) bytes s w
      unfold State.peerPerform
      split
      next e => rw [e] at hp; exact ih _ hp
      next e =>
        rw [e] at hp
        intro p h
        obtain rfl := Option.mem_some.mp h
        exact hp
      · exact fun _ h => absurd h (Option.not_mem_none _)
    | _ => exact ih s w

theorem State.peerRefuse_wf (s : State) (p : Nat) (dev : BitVec 22) (x : CtxRef) (seq : BitVec 16) (count : Nat) (w : s.ms.wf) :
    (s.peerRefuse p dev x seq count).ms.wf := w

theorem State.putArrives_wf (s : State) (p : Nat) (dev : BitVec 22) (pvdev : BitVec 6) (x : CtxRef) (seq : BitVec 16) (vdev : BitVec 6)
    (va : Word) (off : Nat) (bytes : List Byte) (w : s.ms.wf) : OptWf (s.putArrives p dev pvdev x seq vdev va off bytes) := by
  unfold State.putArrives
  have hs (f : Link → Link) : (if off = 0 then s.linkUpd p f else s).ms.wf := ite_wf (s.linkUpd_wf _ _ w) w
  exact ite_optWf (optWf_some (hs _)) (ite_optWf (ite_optWf (optWf_some (State.peerRefuse_wf _ _ _ _ _ _ (hs _))) optWf_none)
    (optWf_some (State.linkUpd_wf _ _ _ (hs _))))

theorem State.putMarkArrives_wf (s : State) (p : Nat) (dev : BitVec 22) (x : CtxRef) (seq : BitVec 16) (off : Nat) (w : s.ms.wf) :
    OptWf (s.putMarkArrives p dev x seq off) := by
  have hp := State.peerPerform_wf ((s.link p).pend.filter (LinkMsgs.ofPut dev x seq)) off s w
  unfold State.putMarkArrives
  refine ite_optWf (optWf_some w) (ite_optWf optWf_none ?_)
  split
  · exact optWf_none
  next s1 e =>
    have w1 : s1.ms.wf := hp _ e
    exact ite_optWf (optWf_some (State.send_wf _ _ _ (State.linkUpd_wf _ _ _ w1))) (optWf_some (State.peerRefuse_wf _ _ _ _ _ _ w1))

theorem State.getArrives_wf (s : State) (p : Nat) (dev : BitVec 22) (pvdev : BitVec 6) (x : CtxRef) (seq : BitVec 16) (vdev : BitVec 6)
    (va : Word) (off n : Nat) (mark : Bool) (w : s.ms.wf) : OptWf (s.getArrives p dev pvdev x seq vdev va off n mark) := by
  have hp := State.peerRead_wf vdev.toNat (if n = 0 then [] else pagePieces va.toNat n) s w
  unfold State.getArrives
  refine ite_optWf optWf_none (ite_optWf (optWf_some (s.send_wf _ _ w)) ?_)
  split
  · exact optWf_none
  next e => exact optWf_some (State.send_wf _ _ _ (hp _ e))
  next e => exact optWf_some (State.send_wf _ _ _ (hp _ e))

theorem State.dataArrives_wf (s : State) (p : Nat) (x : CtxRef) (seq : BitVec 16) (off : Nat) (bytes : List Byte) (w : s.ms.wf) :
    (s.dataArrives p x seq off bytes).ms.wf := by
  unfold State.dataArrives
  split
  · exact w
  · exact ite_wf (s.linkUpd_wf _ _ w) w

theorem State.dataMarkArrives_wf (s : State) (p : Nat) (x : CtxRef) (seq : BitVec 16) (off : Nat) (w : s.ms.wf) :
    (s.dataMarkArrives p x seq off).ms.wf := by
  refine s.atCmd_wf x seq _ _ w fun s k c w => ?_
  split
  · exact w
  · exact ite_wf w (ite_wf (s.linkUpd_wf _ _ w) (s.getUpTo_wf _ _ _ _ w))

theorem State.markAck_wf (s : State) (x : CtxRef) (seq : BitVec 16) (count : Nat) (status : Byte) (w : s.ms.wf) :
    (s.markAck x seq count status).ms.wf := by
  refine s.atCmd_wf x seq _ _ w fun s k c w => ?_
  dsimp only
  split
  · exact w
  · exact ite_wf (s.setXfer_wf _ w) (ite_wf (s.remoteEnd_wf _ _ _ _ _ w) w)

theorem State.sparkWhole_wf (s : State) (p : Nat) (dev : BitVec 22) (pvdev : BitVec 6) (from_ : Word) (seq : BitVec 16) (x : CtxRef)
    (handler : Word) (bytes : List Byte) (w : s.ms.wf) : OptWf (s.sparkWhole p dev pvdev from_ seq x handler bytes) := by
  unfold State.sparkWhole
  refine ite_optWf optWf_none ?_
  split
  · exact optWf_some (s.send_wf _ _ w)
  · exact ite_optWf (optWf_some (s.send_wf _ _ w)) (optWf_some (State.send_wf _ _ _ (s.deliverSpark_wf _ _ _ _ _ w)))

theorem State.sparkArrives_wf (s : State) (p : Nat) (dev : BitVec 22) (pvdev : BitVec 6) (from_ : Word) (seq : BitVec 16) (x : CtxRef)
    (handler : Word) (len : Nat) (bytes : List Byte) (w : s.ms.wf) : OptWf (s.sparkArrives p dev pvdev from_ seq x handler len bytes) :=
  ite_optWf (s.sparkWhole_wf _ _ _ _ _ _ _ _ w) (optWf_some (s.linkUpd_wf _ _ w))

theorem State.sparkRestArrives_wf (s : State) (p : Nat) (dev : BitVec 22) (from_ : Word) (seq : BitVec 16) (bytes : List Byte)
    (w : s.ms.wf) : OptWf (s.sparkRestArrives p dev from_ seq bytes) := by
  unfold State.sparkRestArrives
  split
  · exact optWf_map (s.sparkWhole_wf _ _ _ _ _ _ _ _ w) fun s w => s.linkUpd_wf _ _ w
  · exact optWf_some w

theorem State.sparkAnswer_wf (s : State) (x : CtxRef) (seq : BitVec 16) (delivered : Bool) (w : s.ms.wf) :
    (s.sparkAnswer x seq delivered).ms.wf := s.atCmd_wf x seq _ _ w fun s k c w => s.enqueueDone_wf x k c _ w

theorem State.flitAct_wf (s : State) (p : Nat) (m : LinkMsg) (w : s.ms.wf) : OptWf (s.flitAct p m) := by
  cases m with
  | idle => exact optWf_some w
  | put => exact s.putArrives_wf _ _ _ _ _ _ _ _ _ w
  | get => exact s.getArrives_wf _ _ _ _ _ _ _ _ _ _ w
  | data => exact optWf_some (s.dataArrives_wf _ _ _ _ _ w)
  | putMark => exact s.putMarkArrives_wf _ _ _ _ _ w
  | dataMark => exact optWf_some (s.dataMarkArrives_wf _ _ _ _ w)
  | ack => exact optWf_some (s.markAck_wf _ _ _ _ w)
  | spark => exact s.sparkArrives_wf _ _ _ _ _ _ _ _ _ w
  | sparkRest => exact s.sparkRestArrives_wf _ _ _ _ _ w
  | sparkDone => exact optWf_some (s.sparkAnswer_wf _ _ _ w)

/-! ## The events of a port (R468 to R473) -/

theorem execLinkFlitReceive_wf (port : BitVec 4) (flit : Flit) (w : s.ms.wf) : OutWf (execLinkFlitReceive port flit s) := by
  have hf := s.flitAct_wf port.toNat flit.msg w
  unfold execLinkFlitReceive
  refine ite_outWf w (ite_outWf (s.linkUpd_wf _ _ w) ?_)
  split
  · exact w
  next s1 e => exact s1.linkUpd_wf _ _ (hf s1 e)

theorem execLinkAckReceive_wf (port : BitVec 4) (upTo_ : Word) (w : s.ms.wf) : OutWf (execLinkAckReceive port upTo_ s) := w

theorem execLinkResendRequest_wf (port : BitVec 4) (from_ : Word) (w : s.ms.wf) : OutWf (execLinkResendRequest port from_ s) :=
  ite_outWf w (s.setLink_wf _ _ w)

theorem execLinkLossOfSignal_wf (port : BitVec 4) (w : s.ms.wf) : OutWf (execLinkLossOfSignal port s) := w

theorem execLinkRetrainDone_wf (port : BitVec 4) (ok : Bool) (w : s.ms.wf) : OutWf (execLinkRetrainDone port ok s) :=
  ite_outWf w (ite_outWf (s.setLink_wf _ _ w) (ite_outWf (s.portFail_wf _ w) (s.setLink_wf _ _ w)))

theorem execLinkSequenceExhausted_wf (port : BitVec 4) (w : s.ms.wf) : OutWf (execLinkSequenceExhausted port s) :=
  ite_wf (s.portFail_wf _ w) w

theorem execCommitMarkAck_wf (x : CtxRef) (seq : BitVec 16) (count : Nat) (status : Byte) (w : s.ms.wf) :
    OutWf (execCommitMarkAck x seq count status s) := s.markAck_wf _ _ _ _ w

theorem execTransferCountAgree_wf (x : CtxRef) (seq : BitVec 16) (count : Nat) (w : s.ms.wf) : OutWf (execTransferCountAgree x seq count s) := by
  refine s.withCmd_wf x seq _ _ w fun s k c w => ?_
  split
  · exact w
  · exact ite_wf (s.remoteEnd_wf _ _ _ _ _ w) w

end Sys2Proof.Machine
end

