-- ==== Sys2Proof/Proofs/CanonStep.lean ====
section
/-! SUPPORT. O13: every instruction and event, every turn and every step keep memory canonical. -/
namespace Sys2Proof.Machine

variable {h : Hdr} {s : State}

/-! ## The vector words of a common shape -/

theorem execVadd_wf (o : V3) (w : s.ms.wf) : OutWf (execVadd h o s) := runArith_wf o _ _ _ w
theorem execVsub_wf (o : V3) (w : s.ms.wf) : OutWf (execVsub h o s) := runArith_wf o _ _ _ w
theorem execVmul_wf (o : V3) (w : s.ms.wf) : OutWf (execVmul h o s) := runArith_wf o _ _ _ w
theorem execVfma_wf (o : V3) (w : s.ms.wf) : OutWf (execVfma h o s) := runArith_wf o _ _ _ w
theorem execVfms_wf (o : V3) (w : s.ms.wf) : OutWf (execVfms h o s) := runArith_wf o _ _ _ w
theorem execVmin_wf (o : V3) (w : s.ms.wf) : OutWf (execVmin h o s) := runPick_wf o _ w
theorem execVmax_wf (o : V3) (w : s.ms.wf) : OutWf (execVmax h o s) := runPick_wf o _ w
theorem execVabs_wf (o : V3) (w : s.ms.wf) : OutWf (execVabs h o s) := by
  unfold execVabs
  exact runCode_wf o _ _ w

theorem execVneg_wf (o : V3) (w : s.ms.wf) : OutWf (execVneg h o s) := by
  unfold execVneg
  exact runCode_wf o _ _ w

theorem execVand_wf (o : V3) (w : s.ms.wf) : OutWf (execVand h o s) := runCode_wf o _ _ w
theorem execVor_wf (o : V3) (w : s.ms.wf) : OutWf (execVor h o s) := runCode_wf o _ _ w
theorem execVxor_wf (o : V3) (w : s.ms.wf) : OutWf (execVxor h o s) := runCode_wf o _ _ w
theorem execVshl_wf (o : V3) (w : s.ms.wf) : OutWf (execVshl h o s) := runCode_wf o _ _ w
theorem execVshr_wf (o : V3) (w : s.ms.wf) : OutWf (execVshr h o s) := runCode_wf o _ _ w
theorem execVsra_wf (o : V3) (w : s.ms.wf) : OutWf (execVsra h o s) := runCode_wf o _ _ w
theorem execVrcp_wf (o : V3) (w : s.ms.wf) : OutWf (execVrcp h o s) := runSpecial_wf o _ w
theorem execVsqrt_wf (o : V3) (w : s.ms.wf) : OutWf (execVsqrt h o s) := runSpecial_wf o _ w
theorem execVrsq_wf (o : V3) (w : s.ms.wf) : OutWf (execVrsq h o s) := runSpecial_wf o _ w
theorem execVexp2_wf (o : V3) (w : s.ms.wf) : OutWf (execVexp2 h o s) := runSpecial_wf o _ w
theorem execVlog2_wf (o : V3) (w : s.ms.wf) : OutWf (execVlog2 h o s) := runSpecial_wf o _ w
theorem execVrotr_wf (o : V3) (w : s.ms.wf) : OutWf (execVrotr h o s) := runMove_wf o _ _ _ w
theorem execVrotc_wf (o : V3) (w : s.ms.wf) : OutWf (execVrotc h o s) := runMove_wf o _ _ _ w
theorem execVbcr_wf (o : V3) (w : s.ms.wf) : OutWf (execVbcr h o s) := runMove_wf o _ _ _ w
theorem execVbcc_wf (o : V3) (w : s.ms.wf) : OutWf (execVbcc h o s) := runMove_wf o _ _ _ w
theorem execVtrb_wf (o : V3) (w : s.ms.wf) : OutWf (execVtrb h o s) := runMove_wf o _ _ _ w
theorem execVmov_wf (o : V3) (w : s.ms.wf) : OutWf (execVmov h o s) := runMove_wf o _ _ _ w

/-! ## The dispatch -/

/-- Every instruction and event keeps memory and scratchpad in their canonical form. -/
theorem exec_wf (i : Instr) {s : State} (w : s.ms.wf) : OutWf (exec i s) := by
  cases i with
  | ill x | unassignedOpcodeWord x => exact illegalWord_wf x w
  | add h o | sub h o | mul h o | mulhi h o | mulhis h o | div h o | divs h o | rem h o | rems h o | and h o | or h o
  | xor h o | andn h o | shl h o | shr h o | sra h o | rol h o | min h o | mins h o | max h o | maxs h o | bfx h o
  | bfxs h o => exact runBin_wf o _ w
  | addi h o | andi h o | ori h o | xori h o | shli h o | shri h o | srai h o | lih h o => exact runImm_wf o _ w
  | popc h o | clz h o | ctz h o | brev h o => exact runUn_wf o _ w
  | vadd h o => exact execVadd_wf o w
  | vsub h o => exact execVsub_wf o w
  | vmul h o => exact execVmul_wf o w
  | vfma h o => exact execVfma_wf o w
  | vfms h o => exact execVfms_wf o w
  | vmin h o => exact execVmin_wf o w
  | vmax h o => exact execVmax_wf o w
  | vabs h o => exact execVabs_wf o w
  | vneg h o => exact execVneg_wf o w
  | vand h o => exact execVand_wf o w
  | vor h o => exact execVor_wf o w
  | vxor h o => exact execVxor_wf o w
  | vshl h o => exact execVshl_wf o w
  | vshr h o => exact execVshr_wf o w
  | vsra h o => exact execVsra_wf o w
  | vrcp h o => exact execVrcp_wf o w
  | vsqrt h o => exact execVsqrt_wf o w
  | vrsq h o => exact execVrsq_wf o w
  | vexp2 h o => exact execVexp2_wf o w
  | vlog2 h o => exact execVlog2_wf o w
  | vrotr h o => exact execVrotr_wf o w
  | vrotc h o => exact execVrotc_wf o w
  | vbcr h o => exact execVbcr_wf o w
  | vbcc h o => exact execVbcc_wf o w
  | vtrb h o => exact execVtrb_wf o w
  | vmov h o => exact execVmov_wf o w
  | sel h o => exact execSel_wf o w
  | cmp h o => exact execCmp_wf o w
  | gop h o => exact execGop_wf o w
  | cmpi h o => exact execCmpi_wf o w
  | li h o => exact execLi_wf o w
  | bfi h o => exact execBfi_wf o w
  | fshl h o => exact execFshl_wf o w
  | fshr h o => exact execFshr_wf o w
  | br h o => exact execBr_wf o w
  | call h o => exact execCall_wf o w
  | ret h o => exact execRet_wf o w
  | jmpr h o => exact execJmpr_wf o w
  | brq h o => exact execBrq_wf o w
  | modl h o => exact execModl_wf o w
  | qstat h o => exact execQstat_wf o w
  | hstep h o => exact execHstep_wf o w
  | hmark h o => exact execHmark_wf o w
  | hrew h o => exact execHrew_wf o w
  | hstat h o => exact execHstat_wf o w
  | pkw h o => exact execPkw_wf o w
  | srr h o => exact execSrr_wf o w
  | srw h o => exact execSrw_wf o w
  | trap h o => exact execTrap_wf o w
  | eret h o => exact execEret_wf o w
  | yield h o => exact execYield_wf o w
  | wait h o => exact execWait_wf o w
  | halt h o => exact execHalt_wf o w
  | nop h o => exact execNop_wf o w
  | lds h o => exact execLds_wf o w
  | sts h o => exact execSts_wf o w
  | ldq h o => exact execLdq_wf o w
  | stq h o => exact execStq_wf o w
  | satom h o => exact execSatom_wf o w
  | ldg h o => exact execLdg_wf o w
  | stg h o => exact execStg_wf o w
  | gatom h o => exact execGatom_wf o w
  | cmo h o => exact execCmo_wf o w
  | lbind h o => exact execLbind_wf o w
  | acq h o => exact execAcq_wf o w
  | rel h o => exact execRel_wf o w
  | fence h o => exact execFence_wf o w
  | gbar h o => exact execGbar_wf o w
  | waitw h o => exact execWaitw_wf o w
  | wbind h o => exact execWbind_wf o w
  | wadv h o => exact execWadv_wf o w
  | wrel h o => exact execWrel_wf o w
  | ldw h o => exact execLdw_wf o w
  | hbind h o => exact execHbind_wf o w
  | hunb h o => exact execHunb_wf o w
  | topen h o => exact execTopen_wf o w
  | tseal h o => exact execTseal_wf o w
  | tstat h o => exact execTstat_wf o w
  | cpym h o => exact execCpym_wf o w
  | cpys h o => exact execCpys_wf o w
  | cgth h o => exact execCgth_wf o w
  | csct h o => exact execCsct_wf o w
  | cpgi h o => exact execCpgi_wf o w
  | rput h o => exact execRput_wf o w
  | rget h o => exact execRget_wf o w
  | gadd h o => exact execGadd_wf o w
  | gamo h o => exact execGamo_wf o w
  | gqop h o => exact execGqop_wf o w
  | gred h o => exact execGred_wf o w
  | gaxpy h o => exact execGaxpy_wf o w
  | gfen h o => exact execGfen_wf o w
  | eqclr h o => exact execEqclr_wf o w
  | equ h o => exact execEqu_wf o w
  | eqf h o => exact execEqf_wf o w
  | eqz h o => exact execEqz_wf o w
  | eqr h o => exact execEqr_wf o w
  | eqsnp h o => exact execEqsnp_wf o w
  | eqund h o => exact execEqund_wf o w
  | deq h o => exact execDeq_wf o w
  | engst h o => exact execEngst_wf o w
  | spk h o => exact execSpk_wf o w
  | eva h o => exact execEva_wf o w
  | evw h o => exact execEvw_wf o w
  | evq h o => exact execEvq_wf o w
  | tkenq h o => exact execTkenq_wf o w
  | tksig h o => exact execTksig_wf o w
  | vcmp h o => exact execVcmp_wf o w
  | kop h o => exact execKop_wf o w
  | kpop h o => exact execKpop_wf o w
  | kmov h o => exact execKmov_wf o w
  | vsel h o => exact execVsel_wf o w
  | vcvt h o => exact execVcvt_wf o w
  | vqmx h o => exact execVqmx_wf o w
  | vtbl h o => exact execVtbl_wf o w
  | vtblw h o => exact execVtblw_wf o w
  | vredr h o => exact execVredr_wf o w
  | vredc h o => exact execVredc_wf o w
  | vscanr h o => exact execVscanr_wf o w
  | vspl h o => exact execVspl_wf o w
  | viota h o => exact execViota_wf o w
  | vext h o => exact execVext_wf o w
  | vins h o => exact execVins_wf o w
  | mld h o => exact execMld_wf o w
  | mlds h o => exact execMlds_wf o w
  | mswap h o => exact execMswap_wf o w
  | mma h o => exact execMma_wf o w
  | mmas h o => exact execMmas_wf o w
  | mzero h o => exact execMzero_wf o w
  | manc h o => exact execManc_wf o w
  | mdr h o => exact execMdr_wf o w
  | mdrt h o => exact execMdrt_wf o w
  | mest h o => exact execMest_wf o w
  | mstat h o => exact execMstat_wf o w
  | mtblw h o => exact execMtblw_wf o w
  | mtsc h o => exact execMtsc_wf o w
  | trec h o => exact execTrec_wf o w
  | tupd h o => exact execTupd_wf o w
  | tflsh h o => exact execTflsh_wf o w
  | dstat h o => exact execDstat_wf o w
  | contextStopComplete x => exact execContextStopComplete_wf x w
  | faultAnswerResume x => exact execFaultAnswerResume_wf x w
  | faultAnswerEnd x status => exact execFaultAnswerEnd_wf x status w
  | contextSave x => exact execContextSave_wf x w
  | contextRestore x => exact execContextRestore_wf x w
  | quantumRunEnd core => exact execQuantumRunEnd_wf core w
  | shootdownRange cl vdev pages => exact execShootdownRange_wf cl vdev pages w
  | shootdownVdev cl vdev => exact execShootdownVdev_wf cl vdev w
  | shootdownAll cl => exact execShootdownAll_wf cl w
  | scrubRequest v => exact execScrubRequest_wf v w
  | bindCommit v => exact execBindCommit_wf v w
  | floorWrite vdev v => exact execFloorWrite_wf vdev v w
  | taskRecordAccept queue => exact execTaskRecordAccept_wf queue w
  | taskComplete vdev seq => exact execTaskComplete_wf vdev seq w
  | contextEnd x => exact execContextEnd_wf x w
  | dormantReturn x => exact execDormantReturn_wf x w
  | erasureMarkWrite quad v => exact execErasureMarkWrite_wf quad v w
  | correctedCountClear quad => exact execCorrectedCountClear_wf quad w
  | uncorrectableCountClear quad => exact execUncorrectableCountClear_wf quad w
  | controlRegisterWrite off v => exact execControlRegisterWrite_wf off v w
  | injectPoison x => exact execInjectPoison_wf x w
  | injectSymbol x => exact execInjectSymbol_wf x w
  | copyCommandAct x seq => exact execCopyCommandAct_wf x seq w
  | grateCommandAct x seq => exact execGrateCommandAct_wf x seq w
  | detEpochRelease vdev task => exact execDetEpochRelease_wf vdev task w
  | replayMatchTimeout vdev => exact execReplayMatchTimeout_wf vdev w
  | eqCommandPerform x seq => exact execEqCommandPerform_wf x seq w
  | eqRunEnd x => exact execEqRunEnd_wf x w
  | sparkDeliver x seq => exact execSparkDeliver_wf x seq w
  | taskEnqueueAppend x seq => exact execTaskEnqueueAppend_wf x seq w
  | flueFetch x hd => exact execFlueFetch_wf x hd w
  | fluePageTranslate x hd => exact execFluePageTranslate_wf x hd w
  | windowFillComplete x slot row => exact execWindowFillComplete_wf x slot row w
  | damperGrant stove => exact execDamperGrant_wf stove w
  | waitwWake x => exact execWaitwWake_wf x w
  | gbarDepart x => exact execGbarDepart_wf x w
  | pageWalk core vdev va => exact execPageWalk_wf core vdev va w
  | storeDrain x n => exact execStoreDrain_wf x n w
  | machineCheck x st => exact execMachineCheck_wf x st w
  | cxlExpanderTimeout x st cmd => exact execCxlExpanderTimeout_wf x st cmd w
  | chsel chain => exact execChsel_wf chain w
  | imgput fn msg => exact execImgput_wf fn msg w
  | imggo fn msg => exact execImggo_wf fn msg w
  | attest fn msg => exact execAttest_wf fn msg w
  | keyadd fn msg => exact execKeyadd_wf fn msg w
  | keydel fn msg => exact execKeydel_wf fn msg w
  | sigpol fn msg => exact execSigpol_wf fn msg w
  | verify fn msg => exact execVerify_wf fn msg w
  | mailboxUnknownType fn msg => exact execMailboxUnknownType_wf fn msg w
  | apertureRead fn off n => exact execApertureRead_wf fn off n w
  | apertureWrite fn off bytes => exact execApertureWrite_wf fn off bytes w
  | hostWindowWrite off bytes => exact execHostWindowWrite_wf off bytes w
  | linkFlitReceive port flit => exact execLinkFlitReceive_wf port flit w
  | linkAckReceive port upTo => exact execLinkAckReceive_wf port upTo w
  | linkResendRequest port from_ => exact execLinkResendRequest_wf port from_ w
  | linkLossOfSignal port => exact execLinkLossOfSignal_wf port w
  | linkRetrainDone port ok => exact execLinkRetrainDone_wf port ok w
  | linkSequenceExhausted port => exact execLinkSequenceExhausted_wf port w
  | commitMarkAck x seq count status => exact execCommitMarkAck_wf x seq count status w
  | transferCountAgree x seq count => exact execTransferCountAgree_wf x seq count w
  | thermalThrottle stove refill => exact execThermalThrottle_wf stove refill w
  | instructionFetchFault x st => exact execInstructionFetchFault_wf x st w
  | loadDataReturn x n part => exact execLoadDataReturn_wf x n part w
  | headWritePerformed x n => exact execHeadWritePerformed_wf x n w
  | managementCoreStore pa bytes => exact execManagementCoreStore_wf pa bytes w
  | memorySymbolError pa symbols => exact execMemorySymbolError_wf pa symbols w
  | pseudoChannelFailure quad pc => exact execPseudoChannelFailure_wf quad pc w
  | expanderStopsResponding port => exact execExpanderStopsResponding_wf port w
  | expanderReturn port => exact execExpanderReturn_wf port w
  | faultRecordPost => exact execFaultRecordPost_wf w
  | calendarSlotStart => exact execCalendarSlotStart_wf w
  | shootdownComplete => exact execShootdownComplete_wf w
  | scrubComplete => exact execScrubComplete_wf w
  | freeze => exact execFreeze_wf w
  | packageReset => exact execPackageReset_wf w
  | bringupEnable => exact execBringupEnable_wf w
  | bypass => exact execBypass_wf w
  | samplePreload => exact execSamplePreload_wf w
  | extest => exact execExtest_wf w
  | idcode => exact execIdcode_wf w
  | chrd => exact execChrd_wf w
  | thermalPowerOff => exact execThermalPowerOff_wf

/-! ## Turns (R57, R113, R409) -/

theorem State.runWords_wf (p : BitVec 4) (l : List (Stream × Instr)) (s : State) (w : s.ms.wf) : OutWf (State.runWords p l s) := by
  induction l generalizing s with
  | nil => exact w
  | cons q t ih =>
    have he := exec_wf q.2 (s := s.onStream q.1 p) w
    unfold State.runWords
    split
    next s1 e => rw [e] at he; exact ih s1 he
    next => exact he

theorem State.runSet_wf (p : BitVec 4) (l : List (Stream × Instr)) (s : State) (w : s.ms.wf) : OutWf (State.runSet p l s) :=
  State.runWords_wf _ _ _ w

theorem State.tryAlone_wf (s : State) (i : Instr) (p : BitVec 4) (w : s.ms.wf) : OutWf (s.tryAlone i p) := by
  have he := exec_wf i (s := s.onStream s.md.curSt p) w
  unfold State.tryAlone
  split
  next e => rw [e] at he; exact he
  next => exact he

theorem State.rendezvous_wf (s : State) (i : Instr) (p : BitVec 4) (w : s.ms.wf) : OutWf (s.rendezvous i p) :=
  ite_outWf (State.runSet_wf _ _ s w) (ite_outWf (s.tryAlone_wf i p w) (ite_outWf (s.tryAlone_wf i p w) (exec_wf i w)))

theorem State.runDecoded_wf (s : State) (m : Mach) (i : Instr) (w : s.ms.wf) : OutWf (s.runDecoded m i) := by
  unfold State.runDecoded
  split
  · exact exec_wf i w
  · exact ite_outWf (s.rendezvous_wf i _ w) (exec_wf i w)

theorem Mach.fetchTrap_wf (m : Mach) (c : BitVec 8) (w : m.s.ms.wf) : (m.fetchTrap c).ms.wf := m.trapped_wf _ _ _ _ w

theorem State.issueTurn_wf (s : State) (x : CtxRef) (st : Stream) (w : s.ms.wf) : OutWf (s.issueTurn x st) := by
  have he := Mach.enter_wf { s with md := { s.md with cur := x, curSt := st } } w
  unfold State.issueTurn
  split
  next e => have w1 := wf_of_eq e he; exact w1
  next m _ e =>
    have wm := Mach.enter_some_wf e w
    split
    next => exact Mach.leave_wf _ _ (m.payOwed_wf wm)
    next =>
      have hf := m.fetchAt_wf m.t.pc wm
      generalize m.fetchAt m.t.pc = r at hf
      obtain ⟨f, m1⟩ := r
      cases f with
      | trap c => exact m1.fetchTrap_wf c hf
      | wait => exact m1.leave_wf _ hf
      | word x =>
        dsimp only
        split
        · exact State.runDecoded_wf _ _ _ (m1.close_wf hf)
        · exact exec_wf _ (m1.close_wf hf)

theorem State.eventTurn_wf (s : State) (i : Instr) (w : s.ms.wf) : OutWf (s.eventTurn i) := ite_outWf w (exec_wf i w)

theorem State.after_wf (s : State) {r : Out} (w : OutWf r) : OutWf (s.after r) := by
  cases r with
  | next t => exact s.marked_wf t w
  | _ => trivial

theorem State.turn_wf (s : State) (t : Turn) (w : s.ms.wf) : OutWf (s.turn t) := by
  cases t with
  | issue x st => exact ite_outWf w (s.after_wf (s.issueTurn_wf x st w))
  | event i => exact ite_outWf w (s.after_wf (s.eventTurn_wf i w))

theorem step_wf (s : State) (w : s.ms.wf) : OutWf (step s) := by
  have ht := State.turn_wf s.nextTurn.2 s.nextTurn.1 (s.nextTurn_wf w)
  unfold step
  generalize s.nextTurn = p at ht
  refine ite_outWf trivial ?_
  split
  next t e => rw [e] at ht; exact t.elapse_wf ht
  next => exact ht

/-- Settles O13: the reset state's lists are empty, and every function that a step runs writes memory and scratchpad only by
`memPut`, or drops entries from them. -/
theorem everyStepKeepsMemoryCanonical : Obligations.EveryStepKeepsMemoryCanonical := by
  unfold Obligations.EveryStepKeepsMemoryCanonical
  refine ⟨reset_mem_wf, fun s t w e => ?_⟩
  have h := step_wf s w
  rw [e] at h
  exact h

end Sys2Proof.Machine
end
